-- ==== Sys2Proof/Word.lean ====
section
/-! DEFINITION. The word types of the ND418 model, the number of a feeder, and the two fixed-size
collections the spec uses: one item for each of feeders 0-7, one item for each of phases A, B, C. -/

namespace Sys2Proof

/-- A word is 32 bits (00_scope.md section 8). -/
abbrev Word := BitVec 32

/-- A byte on the modulator link. -/
abbrev Byte := BitVec 8

/-- Feeders are numbered 0-7 (00_scope.md section 8). -/
abbrev Fid := Fin 8

/-- The feeder numbers in order. -/
def Fid.all : List Fid := [0, 1, 2, 3, 4, 5, 6, 7]

/-- One item for each feeder (or, for the curves, for each of curves 0-7). -/
structure Per8 (α : Type) where
  f0 : α
  f1 : α
  f2 : α
  f3 : α
  f4 : α
  f5 : α
  f6 : α
  f7 : α
  deriving DecidableEq, Repr

namespace Per8

variable {α β : Type}

/-- The item of feeder `i`. -/
def get (p : Per8 α) (i : Fid) : α :=
  match i with
  | 0 => p.f0
  | 1 => p.f1
  | 2 => p.f2
  | 3 => p.f3
  | 4 => p.f4
  | 5 => p.f5
  | 6 => p.f6
  | 7 => p.f7

/-- The collection with the item of feeder `i` replaced. -/
def set (p : Per8 α) (i : Fid) (x : α) : Per8 α :=
  match i with
  | 0 => { p with f0 := x }
  | 1 => { p with f1 := x }
  | 2 => { p with f2 := x }
  | 3 => { p with f3 := x }
  | 4 => { p with f4 := x }
  | 5 => { p with f5 := x }
  | 6 => { p with f6 := x }
  | 7 => { p with f7 := x }

/-- The same item for every feeder. -/
def replicate (x : α) : Per8 α := ⟨x, x, x, x, x, x, x, x⟩

/-- The collection whose item for feeder `i` is `g i`. -/
def ofFn (g : Fid → α) : Per8 α := ⟨g 0, g 1, g 2, g 3, g 4, g 5, g 6, g 7⟩

/-- The items in order of feeder number. -/
def toList (p : Per8 α) : List α := [p.f0, p.f1, p.f2, p.f3, p.f4, p.f5, p.f6, p.f7]

/-- `g` applied to every item. -/
def map (g : α → β) (p : Per8 α) : Per8 β :=
  ⟨g p.f0, g p.f1, g p.f2, g p.f3, g p.f4, g p.f5, g p.f6, g p.f7⟩

end Per8

/-- One item for each of phases A, B and C. -/
structure Phases (α : Type) where
  a : α
  b : α
  c : α
  deriving DecidableEq, Repr

namespace Phases

variable {α β γ : Type}

/-- `g` applied to every phase. -/
def map (g : α → β) (p : Phases α) : Phases β := ⟨g p.a, g p.b, g p.c⟩

/-- `g` applied phase by phase to two collections. -/
def zip (g : α → β → γ) (p : Phases α) (q : Phases β) : Phases γ := ⟨g p.a q.a, g p.b q.b, g p.c q.c⟩

/-- The same item for every phase. -/
def replicate (x : α) : Phases α := ⟨x, x, x⟩

/-- Some phase satisfies `t`. -/
def any (t : α → Bool) (p : Phases α) : Bool := t p.a || t p.b || t p.c

/-- Every phase satisfies `t`. -/
def all (t : α → Bool) (p : Phases α) : Bool := t p.a && t p.b && t p.c

/-- The largest of three numbers. -/
def maximum (p : Phases Nat) : Nat := max p.a (max p.b p.c)

/-- The smallest of three numbers. -/
def minimum (p : Phases Nat) : Nat := min p.a (min p.b p.c)

end Phases

end Sys2Proof
end

