-- ==== Sys2Proof/Syntax.lean ====
section
/-! DEFINITION. The commands the part takes: one constructor for each row of spec/opcode_table.json.
Where a row fixes an operand (the sampler's tag, all byte enables set, the value 2) the constructor has
none for it. -/

namespace Sys2Proof

/-- One access on the upstream bus: an aligned word, four byte enables, the tag of the master that owns it
(09 introduction, R143). `value` is what a write carries. -/
structure Access where
  addr : Word
  write : Bool
  tag : BitVec 2
  be : BitVec 4
  value : Word
  deriving DecidableEq, Repr

/-- MTAG1-MTAG0 of the control processor (R143). -/
def tagProcessor : BitVec 2 := 0b01#2

/-- MTAG1-MTAG0 of the sampler (R143). -/
def tagSampler : BitVec 2 := 0b10#2

/-- All four byte enables set. -/
def allBytes : BitVec 4 := 0b1111#4

/-- The commands. An upstream-access command presents its access at the part; the class the part finds for
it decides what happens (R142; log entry 1). -/
inductive Instr where
  /-- POWER_ON; `init` is the level of INIT at power-on. -/
  | powerOn (init : Bool)
  | initAssert
  | initRelease
  | startWordRestart
  | startWordLoadRequest
  | startBlockWrite (tag : BitVec 2) (addr : Word) (be : BitVec 4) (value : Word)
  | plainAccess (a : Access)
  | samplePhaseWrite (addr : Word) (be : BitVec 4) (value : Word)
  | sampleStampWrite (addr : Word) (be : BitVec 4) (value : Word)
  | dclinkWrite (addr : Word) (be : BitVec 4) (value : Word)
  | aliasWord0Write (addr : Word) (be : BitVec 4) (value : Word)
  | aliasWordWrite (addr : Word) (be : BitVec 4) (value : Word)
  | aliasWord7Write (addr : Word) (be : BitVec 4) (value : Word)
  | aliasRead (tag : BitVec 2) (addr : Word)
  | clearWrite (addr : Word) (be : BitVec 4) (value : Word)
  | reloadWrite (addr : Word) (be : BitVec 4) (value : Word)
  | consumedWrite (addr : Word) (be : BitVec 4) (value : Word)
  | sumclearWrite (addr : Word) (be : BitVec 4) (value : Word)
  | controlOtherWrite (addr : Word) (be : BitVec 4) (value : Word)
  | refusedWrite (tag : BitVec 2) (addr : Word) (be : BitVec 4) (value : Word)
  | guardRead (tag : BitVec 2) (addr : Word)
  /-- UPSTREAM_ACCESS_COMPLETE: memory's answer, `data` for a read, `err` for an error response. -/
  | upstreamAccessComplete (data : Word) (err : Bool)
  | malmAssert (f : Fid)
  | malmRelease (f : Fid)
  | silenceExpiry (f : Fid)
  | shedNoticeTaken (f : Fid)
  | frameEnd
  | replyStart
  | responseTimeout
  /-- REPLY_COMPLETE: the bytes received, and whether every byte had its stop bit. -/
  | replyComplete (bytes : List Byte) (stops : Bool)
  | replyBreakOff
  | settleEnd
  | resyncEnd
  | quietEnd
  | writerWordComplete (err : Bool)
  | loaderReadComplete (data : Word) (err : Bool)
  | writerBurstHold
  | loaderGapTimeout
  | loaderHold
  | reloadReadStart
  | heldImageInstall
  deriving DecidableEq, Repr

end Sys2Proof
end

