-- ==== Sys2Proof/Config.lean ====
section
/-! DEFINITION. What the part fixes whatever table is installed, and the one free value of the model. -/

namespace Sys2Proof.Config

/-- The start block's first address (R141). -/
def startBlock : Word := 0x00FFFF00#32

/-- Word 1 of the start block, which holds the table address (R167, Formats 12.1). -/
def tablePointer : Word := 0x00FFFF04#32

/-- Staging holds at most 16 records (R154). -/
def stagingDepth : Nat := 16

/-- Staging at which the writer asks for an urgent burst (R149). -/
def burstDepth : Nat := 8

/-- The loader's gap timer asks for HOLD at 64 microseconds (R150). -/
def gapLimit : Nat := 64

/-- The table's signature (Formats 12.1, R168 step 1). -/
def signature : Word := 0x5C184E0D#32

/-- The fixed part of the table, in words (Formats 12.1, R168 step 2). -/
def fixedWords : Nat := 99

/-- The longest table, in words (R168 step 2). -/
def maxWords : Nat := 512

/-- FREE VALUE (R136): where a feeder's quiet counter reaches its window at a boundary whose verdict is
also acted on, the two are taken in either order. `expiryFirst k` is the order at the k-th such meeting.
It has no body: no proof can see it, so a claim that mentions such a meeting holds for both orders.
Log entries 5 and 6. -/
opaque expiryFirst : Nat → Bool

end Sys2Proof.Config
end

