-- ==== Sys2Proof/Machine/State.lean ====
section
/-! DEFINITION. The state of the ND418 as plain data: every item the spec's "holds the items below" rules give
a block (R2, R23, R44, R61, R73, R92, R112, R140, R154, R165), the sag and episode records (R129, R133), the
installed table (R1, R24, R59), the input pins, the stamp, and the queue of waiting commands. -/

namespace Sys2Proof.Machine

/-! ## Feeders, sags and episodes (R2, R4, R129, R133) -/

/-- The eight feeder states (section 1.2). -/
inductive FeederState where
  | off | arming | standby | watch | ride | recover | shed | fault
  deriving DecidableEq, Repr

/-- The reasons of R4, and NONE. -/
inductive Reason where
  | none | table | disabled | ready | onset | admitted | sagEnd | released | sync | invalid
  | episodeClosed | cleared
  | episodeLimit | interruption | noEnergy | preempted | shortfall | rideLimit | syncLost | samplesInvalid
  | alarm | link | modulator | noSamples
  | clearRefused
  deriving DecidableEq, Repr

/-- The injection source (R2). -/
inductive Source where
  | none | record | autofill | hold
  deriving DecidableEq, Repr

/-- The injection of one phase: amplitude in per mille of nominal, angle in 1/1024 cycle. -/
structure Inject where
  amp : Nat
  angle : BitVec 10
  deriving DecidableEq, Repr

/-- A reference: an injection for each phase. -/
abbrev Reference := Phases Inject

/-- The reference of zero amplitudes and zero angles (R2). -/
def Reference.zero : Reference := Phases.replicate ⟨0, 0#10⟩

/-- How a sag record closes (R132). -/
inductive SagOutcome where
  | tolerated | protect | shed | fault | off
  deriving DecidableEq, Repr

/-- The sag record (R129). -/
structure SagRecord where
  onsetHc : BitVec 8
  onsetStamp : BitVec 32
  minimum : Phases Nat
  duration : Nat
  ridden : Nat
  autoHold : Nat
  limited : Bool
  clampedSeen : Bool
  phaseJump : Bool
  toleranceExceeded : Bool
  interruption : Bool
  largestGap : Nat
  outcome : Option SagOutcome
  deriving DecidableEq, Repr

/-- The ranks of R137, lowest first. -/
inductive WorstOutcome where
  | tolerated | protect | shed | tripped
  deriving DecidableEq, Repr

/-- The episode record (R133). `quiet` is the quiet counter, `none` when stopped. -/
structure Episode where
  sagCount : Nat
  riddenTotal : Nat
  worst : WorstOutcome
  firstOnsetHc : BitVec 8
  firstOnsetStamp : BitVec 32
  quiet : Option Nat
  deriving DecidableEq, Repr

/-- What a feeder controller holds (R2). -/
structure FeederCtl where
  state : FeederState
  reason : Reason
  rode : Nat
  notReadyRun : Nat
  ready : Bool
  source : Source
  lastRef : Reference
  lastResiduals : Phases Nat
  sag : Option SagRecord
  episode : Option Episode
  deriving DecidableEq, Repr

/-- The full-reset values of R2. -/
def FeederCtl.reset : FeederCtl :=
  { state := .off, reason := .none, rode := 0, notReadyRun := 0, ready := false, source := .none,
    lastRef := Reference.zero, lastResiduals := Phases.replicate 1000, sag := none, episode := none }

/-! ## Sample monitors (R23) -/

/-- A signed sample, as the 16 bits a phase word carries. -/
abbrev Sample := BitVec 16

/-- One phase of the group assembly (R23). -/
inductive PhaseSlot where
  | notWritten
  | written (v : Sample)
  | missing
  deriving DecidableEq, Repr

/-- The sums of squares, the sample counts and the invalid mark (R23). -/
structure Accum where
  sum : Phases Nat
  count : Phases Nat
  mark : Bool
  deriving DecidableEq, Repr

/-- Zero sums, zero counts, no mark. -/
def Accum.empty : Accum := { sum := Phases.replicate 0, count := Phases.replicate 0, mark := false }

/-- What a feeder's sample monitor holds (R23). `silence` is the time left in microseconds, `none` when
the timer is stopped. -/
structure Monitor where
  assembly : Phases PhaseSlot
  seq : Option (BitVec 16)
  lastValid : Phases Sample
  head : Accum
  tail : Accum
  invalidRun : Nat
  endConfirm : Nat
  silence : Option Nat
  deriving DecidableEq, Repr

/-- The full-reset values of R23. -/
def Monitor.reset : Monitor :=
  { assembly := Phases.replicate .notWritten, seq := none, lastValid := Phases.replicate 0#16,
    head := Accum.empty, tail := Accum.empty, invalidRun := 0, endConfirm := 0, silence := none }

/-- What the DC-link monitor holds (R23). -/
structure DcMonitor where
  lastSeq : Option (BitVec 16)
  count : Nat
  deriving DecidableEq, Repr

/-- The full-reset values of R23. -/
def DcMonitor.reset : DcMonitor := { lastSeq := none, count := 0 }

/-! ## Cycle trackers (R44) -/

/-- The sync states (R44). -/
inductive Sync where
  | seek | locked | coasting | lost
  deriving DecidableEq, Repr

/-- The sign of phase A; zero counts as positive (R31). -/
inductive Sign where
  | positive | negative
  deriving DecidableEq, Repr

/-- The causes of a SYNC_CHANGE record (R56). -/
inductive SyncCause where
  | lock | coast | relock | restart | silence | table
  deriving DecidableEq, Repr

/-- What a cycle tracker holds (R44). -/
structure Tracker where
  sync : Sync
  count : Option Nat
  coast : Nat
  search : Option Nat
  hc : BitVec 8
  last : Option Sign
  deriving DecidableEq, Repr

/-- The full-reset values of R44. -/
def Tracker.reset : Tracker :=
  { sync := .seek, count := none, coast := 0, search := none, hc := 0#8, last := none }

/-! ## The tolerance evaluator (R61) -/

/-- What the evaluator holds for one feeder (R61). `counters` are c_1 to c_6; `ttt` is time-to-trip, `none`
for UNBOUNDED. -/
structure Evaluator where
  counters : List Nat
  lastLowest : Nat
  sagOpen : Bool
  applied : Bool
  exceeded : Bool
  ttt : Option Nat
  deriving DecidableEq, Repr

/-- Six counters at 0. -/
def Evaluator.zeroCounters : List Nat := [0, 0, 0, 0, 0, 0]

/-- The full-reset values of R61. -/
def Evaluator.reset : Evaluator :=
  { counters := Evaluator.zeroCounters, lastLowest := 1000, sagOpen := false, applied := false,
    exceeded := false, ttt := none }

/-! ## The energy account (R73) -/

/-- Why the account chose a victim: the reason its shed notice carries (R17). -/
inductive ShedCause where
  | preempted | shortfall
  deriving DecidableEq, Repr

/-- What the energy account holds (R73). A shed notice outstanding carries its reason (R17). The floor
and the scale are in the installed table. -/
structure Account where
  usable : Nat
  reserved : Per8 Nat
  notice : Per8 (Option ShedCause)
  deriving DecidableEq, Repr

/-- The full-reset values of R73. -/
def Account.reset : Account :=
  { usable := 0, reserved := Per8.replicate 0, notice := Per8.replicate none }

/-! ## Reference stagers (R92) -/

/-- A page of the pair (section 6.1). -/
inductive Page where
  | page0 | page1
  deriving DecidableEq, Repr

/-- The page that is not this one. -/
def Page.other : Page → Page
  | .page0 => .page1
  | .page1 => .page0

/-- The assembly of a record: word 0 as held, words 1 to 6 as far as written, the broken mark (R92). -/
structure Assembly where
  word0 : Word
  words : List (Option Word)
  broken : Bool
  deriving DecidableEq, Repr

/-- An accepted record (R92). `serial` gives it an identity (log entry 25). -/
structure Accepted where
  serial : Nat
  seq : BitVec 8
  target : BitVec 8
  ref : Reference
  clamped : Bool
  deriving DecidableEq, Repr

/-- The result codes, in the order of the table of section 6.7. -/
inductive ResultCode where
  | none | abandoned | broken | incomplete | checkFailed | wrongFeeder | duplicate | late | tooEarly
  | notRiding | superseded | stale | refusedEnergy | refusedByModulator | linkFailed | committed
  deriving DecidableEq, Repr

/-- The sequence and the target of a judged record (R109). -/
structure Ident where
  seq : BitVec 8
  target : BitVec 8
  deriving DecidableEq, Repr

/-- A result (R109). `ident` is absent for NONE, `applied` when no DONE settled the record. -/
structure Result where
  number : BitVec 8
  code : ResultCode
  clamped : Bool
  limited : Bool
  unflipped : Bool
  ident : Option Ident
  judgedAt : BitVec 8
  applied : Option Nat
  source : Source
  page : Page
  deriving DecidableEq, Repr

/-- What a reference stager holds (R92). The records in commit are the one on the line and the one
waiting in the request slot (R103). -/
structure Stager where
  assembly : Option Assembly
  pending : Option Accepted
  onLine : Option Accepted
  inSlot : Option Accepted
  committed : Page
  owner : Option Accepted
  lastSeq : Option (BitVec 8)
  latest : Option Result
  number : BitVec 8
  nextSerial : Nat
  deriving DecidableEq, Repr

/-- The full-reset values of R92. -/
def Stager.reset : Stager :=
  { assembly := none, pending := none, onLine := none, inSlot := none, committed := .page0, owner := none,
    lastSeq := none, latest := none, number := 0#8, nextSerial := 0 }

/-! ## The modulator link (R112) -/

/-- The line states (R112). -/
inductive LineState where
  | idle | send | wait | receive | settle | resync | quiet
  deriving DecidableEq, Repr

/-- A link request (R115). -/
inductive Request where
  | engage (ref : Reference) (hc : BitVec 8) (source : Source) (rehearse : Bool) (record : Option Accepted)
  | release (hc : BitVec 8)
  | statusq (hc : BitVec 8)
  deriving DecidableEq, Repr

/-- The causes of a failed attempt (R119). -/
inductive LinkCause where
  | noReply | crc | wrongUnit | wrongKind | malformed
  deriving DecidableEq, Repr

/-- The exchange in flight (R112). Its frame is fixed by the request and the unit number it was formed with
(R113, R120); its ladder step is its attempt number together with the line state. -/
structure Exchange where
  feeder : Fid
  unit : BitVec 4
  request : Request
  attempt : Nat
  causes : List LinkCause
  discard : Bool
  deriving DecidableEq, Repr

/-- A WAIT in progress: the timeout it started with (R127) and the TBCLK periods counted (R119). -/
structure Wait where
  timeout : Nat
  elapsed : Nat
  deriving DecidableEq, Repr

/-- What the link controller holds (R112). The response timeout in use is in the installed table. -/
structure Link where
  line : LineState
  slots : Per8 (Option Request)
  exchange : Option Exchange
  resyncOwed : Bool
  wait : Option Wait
  deriving DecidableEq, Repr

/-- The full-reset values of R112. -/
def Link.reset : Link :=
  { line := .idle, slots := Per8.replicate none, exchange := none, resyncOwed := false, wait := none }

/-! ## The control table (R1, R24, R59, Formats 12.1) -/

/-- The global settings of the table. -/
structure Settings where
  n : Nat
  w : Nat
  coastLimit : Nat
  bridgeLimit : Nat
  onset : Nat
  interruption : Nat
  recovery : Nat
  invalidLimit : Nat
  lead : Nat
  silenceLimit : Nat
  dcInterval : Nat
  timeout : Nat
  floor : Nat
  scale : Nat
  mask : BitVec 8
  ringThreshold : Nat
  deriving DecidableEq, Repr

/-- A feeder entry (R1). -/
structure Entry where
  enabled : Bool
  autofill : Bool
  rehearsal : Bool
  priority : Fin 8
  curve : Fin 8
  unit : BitVec 3
  sagLimit : Nat
  injectionLimit : Nat
  rating : Nat
  rideLimit : Nat
  nominal : Nat
  window : Nat
  deriving DecidableEq, Repr

/-- A breakpoint of a tolerance curve (R59). -/
structure Breakpoint where
  level : Nat
  duration : Nat
  deriving DecidableEq, Repr

/-- The window kinds, with the codes of Formats 12.1. -/
inductive WindowKind where
  | sample | dclink | reference | control | ring | mirror | guard
  deriving DecidableEq, Repr

/-- A window entry (R140). The size is 2 to the power `sizeLog`; `feeder` counts for SAMPLE and REFERENCE. -/
structure WindowEntry where
  kind : WindowKind
  feeder : Fid
  base : Word
  sizeLog : Nat
  deriving DecidableEq, Repr

/-- The control table, as installed. -/
structure Table where
  length : Nat
  identity : Word
  settings : Settings
  entries : Per8 Entry
  curves : Per8 (List Breakpoint)
  windows : List WindowEntry
  deriving DecidableEq, Repr

/-- What a feeder has before any table is installed: it is treated as disabled (R1). -/
def Entry.absent : Entry :=
  { enabled := false, autofill := false, rehearsal := false, priority := 0, curve := 0, unit := 0#3,
    sagLimit := 0, injectionLimit := 0, rating := 0, rideLimit := 0, nominal := 0, window := 0 }

/-- What stands for the settings before any table is installed; no rule reads them then. -/
def Settings.absent : Settings :=
  { n := 0, w := 0, coastLimit := 0, bridgeLimit := 0, onset := 0, interruption := 0, recovery := 0,
    invalidLimit := 0, lead := 0, silenceLimit := 0, dcInterval := 0, timeout := 0, floor := 0, scale := 0,
    mask := 0#8, ringThreshold := 0 }

/-! ## The bus pass unit (R140) -/

/-- The class of an upstream access (R141, R142). -/
inductive AccessClass where
  | start
  | plain
  | window (w : WindowEntry)
  deriving DecidableEq, Repr

/-- The current access (R140). -/
structure Current where
  access : Access
  cls : AccessClass
  downAddr : Word
  deriving DecidableEq, Repr

/-- Which word the report writer has on the port. -/
inductive WriterTarget where
  | record (k : Nat)
  | mirror (i : Nat)
  | result (f : Fid) (i : Nat)
  deriving DecidableEq, Repr

/-- A word of the report writer on the port: where it goes, what it carries, whether it is a burst's word
(R149), whether a value in it has changed since it went out (R162), whether a table installation has moved
the window it was meant for (log entry 20). -/
structure WriterWord where
  target : WriterTarget
  addr : Word
  value : Word
  burst : Bool
  changed : Bool
  moved : Bool
  deriving DecidableEq, Repr

/-- The port owner, with the part's own word on the port (R140). A word whose answer will be discarded
after a full reset (R140, R154) or an abandoned read (R170) is marked. -/
inductive Port where
  | free
  | upstream
  | writer (w : WriterWord) (discard : Bool)
  | loader (addr : Word) (discard : Bool)
  deriving DecidableEq, Repr

/-- HOLD (R140). -/
inductive Hold where
  | released | writer | loader
  deriving DecidableEq, Repr

/-- A party of the part that asks for HOLD (R149, R150). -/
inductive HoldParty where
  | writer | loader
  deriving DecidableEq, Repr

/-- An answer given to an upstream master (R144, R151). -/
structure Answer where
  tag : BitVec 2
  err : Bool
  data : Option Word
  deriving DecidableEq, Repr

/-- What the bus pass unit holds (R140), the accesses presented and not yet taken, the requests for HOLD in
order, and the last answer given upstream. The window table is in the installed table. -/
structure Bus where
  current : Option Current
  port : Port
  hold : Hold
  turnOwed : Bool
  gapTimer : Option Nat
  waiting : List Access
  holdQueue : List HoldParty
  writerDeferred : Bool
  holdWithdrawn : Bool
  answer : Option Answer
  deriving DecidableEq, Repr

/-- The full-reset values of R140. -/
def Bus.reset : Bus :=
  { current := none, port := .free, hold := .released, turnOwed := false, gapTimer := none, waiting := [],
    holdQueue := [], writerDeferred := false, holdWithdrawn := false, answer := none }

/-! ## The report writer (R154) -/

/-- The close causes of an EPISODE_CLOSED record (R135, R138). -/
inductive CloseCause where
  | window | fault | off
  deriving DecidableEq, Repr

/-- The kinds of link frame (R113). -/
inductive FrameKind where
  | engage | release | statusq | resync
  deriving DecidableEq, Repr

/-- The reasons for rejecting a table (R167, R168). -/
inductive RejectReason where
  | signature | length | checksum | range | priority | unit | curveOrder | missingWindow | duplicateWindow
  | readFailed
  deriving DecidableEq, Repr

/-- A rejection: its reason, the word index where one is carried, and the kind and feeder of a missing
window (R168). -/
structure Reject where
  reason : RejectReason
  index : Option Nat
  kind : Option WindowKind
  feeder : Option Fid
  deriving DecidableEq, Repr

/-- What an event record carries besides its common fields (Formats 12.1). -/
inductive Body where
  | sagClosed (f : Fid) (sag : SagRecord)
  | episodeClosed (f : Fid) (episode : Episode) (cause : CloseCause) (hc : BitVec 8)
  | feederState (f : Fid) (old new : FeederState) (reason : Reason)
  | refRejected (f : Fid) (result : Result)
  | phaseJump (f : Fid) (offset : Int) (prior : Sync) (hc : BitVec 8)
  | syncChange (f : Fid) (old new : Sync) (cause : SyncCause) (coast : Nat) (hc : BitVec 8)
  | linkLadder (f : Fid) (unit : BitVec 4) (kind : FrameKind) (hc : BitVec 8) (causes : List LinkCause)
  | shortfall (v : Nat) (before after sumBefore sumAfter : Nat) (victims : List (Fid × Nat))
  | busRefused (addr : Word) (tag : BitVec 2) (kind : Option WindowKind) (feeder : Option Fid) (read : Bool)
  | ringIndexRefused (offered : Word) (consumer producer : BitVec 16) (partialWrite : Bool)
  | tableLoaded (addr : Word) (length : Nat) (identity : Word) (windowCount : Nat) (reload : Bool)
      (sampleChanged : Bool) (changed : List Fid)
  | tableRejected (addr : Option Word) (reject : Reject) (signature length identity : Option Word)
  deriving DecidableEq, Repr

/-- An event record in staging, with its common fields (R155). It carries the OVERRUN flag exactly when its
dropped count is nonzero (Formats 12.1). -/
structure Record where
  seq : BitVec 16
  stamp : BitVec 32
  dropped : Nat
  body : Body
  deriving DecidableEq, Repr

/-- The record in progress is the oldest staged record: how many of its words are written, and whether this
is its second try (R154). -/
structure InProgress where
  words : Nat
  second : Bool
  deriving DecidableEq, Repr

/-- A burst whose first word has gone onto the port (R149, R164): the slot it writes, whether an
installation has moved the ring under it, and whether its eight record words are complete. -/
structure Burst where
  slot : Word
  moved : Bool
  recordDone : Bool
  deriving DecidableEq, Repr

/-- What the report writer holds (R154). The ring's place, the mirror's base, the mask and the threshold
are in the installed table. The summary set is kept in the summary bit order. -/
structure Writer where
  staging : List Record
  inProgress : Option InProgress
  nextSeq : BitVec 16
  producer : BitVec 16
  published : BitVec 16
  consumer : BitVec 16
  dropped : Nat
  overrun : Bool
  summary : BitVec 8
  mirrorDirty : List Bool
  resultDirty : Per8 (List Bool)
  attn : Bool
  burst : Option Burst
  deriving DecidableEq, Repr

/-- The full-reset values of R154. -/
def Writer.reset : Writer :=
  { staging := [], inProgress := none, nextSeq := 0#16, producer := 0#16, published := 0#16,
    consumer := 0#16, dropped := 0, overrun := false, summary := 0#8,
    mirrorDirty := List.replicate 40 false, resultDirty := Per8.replicate (List.replicate 8 false),
    attn := false, burst := none }

/-! ## The loader (R165) -/

/-- The part's modes (R165). -/
inductive Mode where
  | loading | failed | active
  deriving DecidableEq, Repr

/-- The reload states (R165). -/
inductive Reload where
  | none | requested | reading | held
  deriving DecidableEq, Repr

/-- A read in progress: the table address once it is known, the index of the next word, the tries spent on
it (R165). While `addr` is none the word being read is word 1 of the start block (R167). -/
structure TableRead where
  addr : Option Word
  index : Nat
  tries : Nat
  deriving DecidableEq, Repr

/-- What the loader holds (R165). `heldAddr` is the address the held image was read from. -/
structure Loader where
  mode : Mode
  reload : Reload
  read : Option TableRead
  image : List Word
  heldAddr : Option Word
  flt : Bool
  deriving DecidableEq, Repr

/-- The full-reset values of R165. -/
def Loader.reset : Loader :=
  { mode := .loading, reload := .none, read := none, image := [], heldAddr := none, flt := true }

/-! ## The whole part -/

/-- The state of the part, with the commands that wait to be taken (`pending`). -/
structure State where
  pending : List Instr
  /-- The TBCLK stamp (00_scope.md Table 3). -/
  stamp : BitVec 32
  /-- The level of INIT. -/
  init : Bool
  /-- The levels of MALM0-7. -/
  malm : Per8 Bool
  /-- How many times the free value of Config has been drawn (log entry 5). -/
  draws : Nat
  loader : Loader
  table : Option Table
  ctl : Per8 FeederCtl
  monitors : Per8 Monitor
  dclink : DcMonitor
  trackers : Per8 Tracker
  evals : Per8 Evaluator
  account : Account
  stagers : Per8 Stager
  link : Link
  bus : Bus
  writer : Writer
  deriving DecidableEq, Repr

/-- The part right after full reset: every item at its full-reset value, no table installed, no command
waiting, INIT and the alarm lines released, and no start-up read begun yet (log entry 7). -/
def State.reset : State :=
  { pending := [], stamp := 0#32, init := false, malm := Per8.replicate false, draws := 0,
    loader := Loader.reset, table := none, ctl := Per8.replicate FeederCtl.reset,
    monitors := Per8.replicate Monitor.reset, dclink := DcMonitor.reset,
    trackers := Per8.replicate Tracker.reset, evals := Per8.replicate Evaluator.reset,
    account := Account.reset, stagers := Per8.replicate Stager.reset, link := Link.reset,
    bus := Bus.reset, writer := Writer.reset }

/-- Why a step can stop with a fault: no rule of the spec stops the part (INVENTORY.md, Faults), so there is
no fault, and none is raised. Safe: a claim that excludes faults says nothing more than the spec does. -/
inductive Fault where
  deriving DecidableEq, Repr

/-- Why a command has no outcome. -/
inductive Refusal where
  /-- Raised by an arm of `exec` whose command has no meaning yet, with the row's mnemonic. No arm raises
  it: every row has its meaning. Safe: the model would stop where the part goes on. -/
  | notModelled (mnemonic : String)
  deriving DecidableEq, Repr


end Sys2Proof.Machine
end

