-- ==== Sys2Proof/WellFormed.lean ====
section
/-! DEFINITION. What a command must satisfy whatever the state: its address is that of an aligned word, and
its place within any window is the one its row names (windows are aligned to their size, so the low address
bits are the same for every window). Which window an address lies in depends on the installed table and is
found by the part itself. -/

namespace Sys2Proof

/-- The address of an aligned word (09 introduction: "Each access addresses one aligned word"). -/
def Word.aligned (a : Word) : Bool := a.extractLsb' 0 2 == 0#2

/-- An address in the 16 bytes of the start block (R141). -/
def Word.inStartBlock (a : Word) : Bool := a.extractLsb' 4 28 == Config.startBlock.extractLsb' 4 28

/-- The word's place in its 16-byte group (R146): 0, 1, 2 the phases, 3 the stamp. -/
def Word.groupPlace (a : Word) : BitVec 2 := a.extractLsb' 2 2

/-- The word's place in its 32-byte slot (R93). -/
def Word.slotPlace (a : Word) : BitVec 3 := a.extractLsb' 2 3

/-- An access that is not a write of a load request or a restart code (R166). -/
def notStartCode (tag : BitVec 2) (addr : Word) (be : BitVec 4) (value : Word) : Bool :=
  !(tag == tagProcessor && addr == Config.startBlock && be == allBytes && (value == 1#32 || value == 2#32))

/-- The most bytes a reply has (R114). -/
def maxReplyBytes : Nat := 4

/-- A command a row of the table can stand for. -/
def Instr.wf : Instr → Bool
  | .powerOn _ => true
  | .initAssert => true
  | .initRelease => true
  | .startWordRestart => true
  | .startWordLoadRequest => true
  | .startBlockWrite t a be v => a.aligned && a.inStartBlock && notStartCode t a be v
  | .plainAccess x => x.addr.aligned
  | .samplePhaseWrite a _ _ => a.aligned && !a.inStartBlock && a.groupPlace != 3#2
  | .sampleStampWrite a _ _ => a.aligned && !a.inStartBlock && a.groupPlace == 3#2
  | .dclinkWrite a _ _ => a.aligned && !a.inStartBlock
  | .aliasWord0Write a _ _ => a.aligned && !a.inStartBlock && a.slotPlace == 0#3
  | .aliasWordWrite a _ _ => a.aligned && !a.inStartBlock && a.slotPlace != 0#3 && a.slotPlace != 7#3
  | .aliasWord7Write a _ _ => a.aligned && !a.inStartBlock && a.slotPlace == 7#3
  | .aliasRead _ a => a.aligned && !a.inStartBlock
  | .clearWrite a _ _ => a.aligned && !a.inStartBlock && a.slotPlace == 0#3
  | .reloadWrite a _ _ => a.aligned && !a.inStartBlock && a.slotPlace == 1#3
  | .consumedWrite a _ _ => a.aligned && !a.inStartBlock && a.slotPlace == 2#3
  | .sumclearWrite a _ _ => a.aligned && !a.inStartBlock && a.slotPlace == 3#3
  | .controlOtherWrite a _ _ => a.aligned && !a.inStartBlock
  | .refusedWrite _ a _ _ => a.aligned && !a.inStartBlock
  | .guardRead _ a => a.aligned && !a.inStartBlock
  | .upstreamAccessComplete _ _ => true
  | .malmAssert _ => true
  | .malmRelease _ => true
  | .silenceExpiry _ => true
  | .shedNoticeTaken _ => true
  | .frameEnd => true
  | .replyStart => true
  | .responseTimeout => true
  | .replyComplete bytes _ => bytes.length != 0 && decide (bytes.length ≤ maxReplyBytes)
  | .replyBreakOff => true
  | .settleEnd => true
  | .resyncEnd => true
  | .quietEnd => true
  | .writerWordComplete _ => true
  | .loaderReadComplete _ _ => true
  | .writerBurstHold => true
  | .loaderGapTimeout => true
  | .loaderHold => true
  | .reloadReadStart => true
  | .heldImageInstall => true

end Sys2Proof
end

