-- ==== Sys2Proof/Machine/Operands.lean ====
section
/-! DEFINITION. Operand forms: fields of a word, byte enables, the meaning of an access's address, and the
lookups into the installed table that every block reads its settings from. -/

namespace Sys2Proof.Machine

/-! ## Fields of a word -/

/-- The field of `len` bits from bit `lo` of a word, as a number. -/
def field (w : Word) (lo len : Nat) : Nat := (w.extractLsb' lo len).toNat

/-- Bit `i` of a word. -/
def flag (w : Word) (i : Nat) : Bool := w.getLsbD i

/-- The bytes a write enables, as a mask over the word: bit `i` of `be` enables bits 8i+7 to 8i. -/
def byteMask (be : BitVec 4) : Word :=
  (if be.getLsbD 3 then 0xFF#8 else 0#8) ++ (if be.getLsbD 2 then 0xFF#8 else 0#8) ++
    (if be.getLsbD 1 then 0xFF#8 else 0#8) ++ (if be.getLsbD 0 then 0xFF#8 else 0#8)

/-- A written word with its disabled bytes read as zero (R94, R160, R161, R170). -/
def enabledBytes (be : BitVec 4) (v : Word) : Word := v &&& byteMask be

/-- A word made of fields `(value, low bit, length)`, the other bits zero. Formats 12.1 says so of the event records
alone ("fields not listed are zero"); in the mirror words and the result slots it is the model's choice (log entry
40). -/
def pack (fields : List (Nat × Nat × Nat)) : Word :=
  fields.foldl (fun acc x => acc ||| (BitVec.ofNat 32 (x.1 % 2 ^ x.2.2) <<< x.2.1)) 0#32

/-- A yes-or-no field as a number. -/
def bit (b : Bool) : Nat := if b then 1 else 0

/-! ## The installed table -/

/-- The installed entry of feeder `f`; before a table is installed every feeder is treated as disabled (R1). -/
def State.entry (s : State) (f : Fid) : Entry :=
  match s.table with
  | some t => t.entries.get f
  | none => Entry.absent

/-- The installed global settings (R24). -/
def State.settings (s : State) : Settings :=
  match s.table with
  | some t => t.settings
  | none => Settings.absent

/-- The tolerance curve that feeder `f`'s entry names (R1, R59). -/
def State.curve (s : State) (f : Fid) : List Breakpoint :=
  match s.table with
  | some t => t.curves.get (s.entry f).curve
  | none => []

/-- The first window entry of a kind without a feeder. -/
def Table.window (t : Table) (k : WindowKind) : Option WindowEntry := t.windows.find? fun w => w.kind == k

/-- The first window entry of a kind for feeder `f`. -/
def Table.windowOf (t : Table) (k : WindowKind) (f : Fid) : Option WindowEntry :=
  t.windows.find? fun w => w.kind == k && w.feeder == f

/-- A window's size in bytes. -/
def WindowEntry.size (w : WindowEntry) : Nat := 2 ^ w.sizeLog

/-- The ring's size in slots of 32 bytes (section 10.3). -/
def WindowEntry.slots (w : WindowEntry) : Nat := w.size / 32

/-- The RING window of the installed table. -/
def State.ring (s : State) : Option WindowEntry := s.table.bind fun t => t.window .ring

/-- The ring's size in slots, 0 while no table is installed. -/
def State.ringSize (s : State) : Nat :=
  match s.ring with
  | some w => w.slots
  | none => 0

/-- The REFERENCE window of feeder `f`. -/
def State.referenceWindow (s : State) (f : Fid) : Option WindowEntry :=
  s.table.bind fun t => t.windowOf .reference f

/-- The feeders in order of priority, highest (number 0) first; feeders of one priority, which only
disabled feeders can share, in order of feeder number. -/
def State.byPriority (s : State) : List Fid :=
  ([0, 1, 2, 3, 4, 5, 6, 7] : List (Fin 8)).flatMap fun p =>
    Fid.all.filter fun f => (s.entry f).priority == p

/-! ## Upstream accesses (R141, R142, R143) -/

/-- The address lies in the entry's window (R142). -/
def WindowEntry.holds (w : WindowEntry) (a : Word) : Bool :=
  decide (w.base.toNat ≤ a.toNat) && decide (a.toNat < w.base.toNat + w.size)

/-- The offset of an address in a window. -/
def WindowEntry.offset (w : WindowEntry) (a : Word) : Word := a - w.base

/-- The class of an address: START, else the first window that holds it, else PLAIN (R141, R142). -/
def State.classify (s : State) (a : Word) : AccessClass :=
  if a.inStartBlock then .start
  else
    match s.table with
    | none => .plain
    | some t =>
      match t.windows.find? (fun w => w.holds a) with
      | some w => .window w
      | none => .plain

/-- The slots of a REFERENCE window (R93). -/
inductive RefSlot where
  | alias0 | page (p : Page) | result
  deriving DecidableEq, Repr

/-- The slot of a REFERENCE window an offset lies in (R93). -/
def refSlot (offset : Word) : RefSlot :=
  match offset.extractLsb' 5 2 with
  | 0#2 => .alias0
  | 1#2 => .page .page0
  | 2#2 => .page .page1
  | _ => .result

/-- Write permission by class and tag (R143). -/
def writePermitted (cls : AccessClass) (a : Word) (tag : BitVec 2) : Bool :=
  match cls with
  | .start => true
  | .plain => true
  | .window w =>
    match w.kind with
    | .sample => tag == tagSampler
    | .dclink => tag == tagSampler
    | .reference => tag == tagProcessor && refSlot (w.offset a) == .alias0
    | .control => tag == tagProcessor
    | .ring => false
    | .mirror => false
    | .guard => false

/-- Whether a read is served; only a GUARD read is not (R145). -/
def readPermitted (cls : AccessClass) : Bool :=
  match cls with
  | .start => true
  | .plain => true
  | .window w => w.kind != .guard

/-- The address of page `p`'s word at the alias offset `offset` (R93). -/
def pageWord (w : WindowEntry) (p : Page) (offset : Word) : Word :=
  w.base + (match p with | .page0 => 32#32 | .page1 => 64#32) + (offset &&& 0x1F#32)

/-- The downstream address of an access: its own, but for an alias access, which goes to the open page on a
write and to the committed page on a read (R93, R145, R146). -/
def State.downAddr (s : State) (cls : AccessClass) (x : Access) : Word :=
  match cls with
  | .start => x.addr
  | .plain => x.addr
  | .window w =>
    if w.kind == .reference && refSlot (w.offset x.addr) == .alias0 then
      let committed := (s.stagers.get w.feeder).committed
      pageWord w (if x.write then committed.other else committed) (w.offset x.addr)
    else x.addr

end Sys2Proof.Machine
end

