-- ==== Sys2Proof/Machine/Flags.lean ====
section
/-! DEFINITION. Every condition and every output line that the spec makes a function of what is held: the
bypass lines, LTXEN, the summary conditions, Sum and Free, the ring's room, ATTN's condition, quiescence. -/

namespace Sys2Proof.Machine

/-! ## Output lines -/

/-- A feeder in this state has its bypass asserted (R3). -/
def FeederState.bypassed : FeederState → Bool
  | .off => true
  | .arming => true
  | .standby => false
  | .watch => false
  | .ride => false
  | .recover => false
  | .shed => true
  | .fault => true

/-- The level of BYPn (R3). -/
def State.byp (s : State) (f : Fid) : Bool := (s.ctl.get f).state.bypassed

/-- LTXEN is asserted while a frame or a RESYNC is sent (R113). -/
def State.ltxen (s : State) : Bool :=
  match s.link.line with
  | .send => true
  | .resync => true
  | .idle => false
  | .wait => false
  | .receive => false
  | .settle => false
  | .quiet => false

/-! ## The summary set (R156, Formats 12.1) -/

/-- The summary conditions. -/
inductive Condition where
  | shed | fault | tripped | overrun | linkLadder | busRefused | phaseJump | tableRejected
  deriving DecidableEq, Repr

/-- A condition's place in the summary bit order. -/
def Condition.mask : Condition → BitVec 8
  | .shed => 0x01#8
  | .fault => 0x02#8
  | .tripped => 0x04#8
  | .overrun => 0x08#8
  | .linkLadder => 0x10#8
  | .busRefused => 0x20#8
  | .phaseJump => 0x40#8
  | .tableRejected => 0x80#8

/-- The conditions a record calls for when it is staged or dropped (R156). -/
def Body.conditions : Body → BitVec 8
  | .feederState _ _ new _ =>
    match new with
    | .shed => Condition.shed.mask
    | .fault => Condition.fault.mask
    | .off => 0#8
    | .arming => 0#8
    | .standby => 0#8
    | .watch => 0#8
    | .ride => 0#8
    | .recover => 0#8
  | .linkLadder .. => Condition.linkLadder.mask
  | .busRefused .. => Condition.busRefused.mask
  | .phaseJump .. => Condition.phaseJump.mask
  | .tableRejected .. => Condition.tableRejected.mask
  | .sagClosed .. => 0#8
  | .episodeClosed .. => 0#8
  | .refRejected .. => 0#8
  | .syncChange .. => 0#8
  | .shortfall .. => 0#8
  | .ringIndexRefused .. => 0#8
  | .tableLoaded .. => 0#8

/-! ## The account's derived figures (R73) -/

/-- A reservation as it counts in Sum: a rehearsal feeder's is notional (R73). -/
def State.counted (s : State) (f : Fid) : Nat :=
  if (s.entry f).rehearsal then 0 else s.account.reserved.get f

/-- Sum: the reservations of the feeders whose entry has rehearsal off (R73). -/
def State.sum (s : State) : Nat := (Fid.all.map s.counted).sum

/-- A request for `d` is no greater than Free, that is, U less Sum (R73, R81). -/
def State.fits (s : State) (d : Nat) : Bool := decide (s.sum + d ≤ s.account.usable)

/-! ## The ring and ATTN (R157, R161) -/

/-- P less C, modulo 65536. -/
def Writer.unconsumed (w : Writer) : Nat := (w.producer - w.consumer).toNat

/-- The ring has room when P less C is below its size (R157). -/
def State.ringHasRoom (s : State) : Bool := decide (s.writer.unconsumed < s.ringSize)

/-- The two conditions of ATTN; it stays released until a table is installed (R161). -/
def State.attnWanted (s : State) : Bool :=
  match s.table with
  | none => false
  | some t =>
    s.writer.summary &&& t.settings.mask != 0#8 ||
      decide (t.settings.ringThreshold ≤ (s.writer.published - s.writer.consumer).toNat)

/-- The writer asks for an urgent burst with 8 or more records staged and room in the ring (R149). -/
def State.burstWanted (s : State) : Bool :=
  decide (Config.burstDepth ≤ s.writer.staging.length) && s.ringHasRoom

/-! ## Quiescence (R171) -/

/-- A feeder in this state does not break quiescence (R171). -/
def FeederState.quiet : FeederState → Bool
  | .off => true
  | .arming => true
  | .standby => true
  | .fault => true
  | .watch => false
  | .ride => false
  | .recover => false
  | .shed => false

/-- Feeder `f` is quiescent: its state, no episode open, no record in commit (R171). -/
def State.feederQuiescent (s : State) (f : Fid) : Bool :=
  (s.ctl.get f).state.quiet && (s.ctl.get f).episode.isNone && (s.stagers.get f).onLine.isNone &&
    (s.stagers.get f).inSlot.isNone

/-- Quiescence holds (R171). -/
def State.quiescent (s : State) : Bool := Fid.all.all s.feederQuiescent

end Sys2Proof.Machine
end

