-- ==== Sys2Proof/Machine/Formats.lean ====
section
/-! DEFINITION. The layouts of what the part writes into memory and sends on the link (Formats, chapter 12):
event records, result slots, mirror words, link frames with their CRC, and the reading of replies. -/

namespace Sys2Proof.Machine

/-! ## Codes (Formats 12.1) -/

def FeederState.code : FeederState → Nat
  | .off => 0 | .arming => 1 | .standby => 2 | .watch => 3 | .ride => 4 | .recover => 5 | .shed => 6 | .fault => 7

def Reason.code : Reason → Nat
  | .none => 0 | .table => 1 | .disabled => 2 | .ready => 3 | .onset => 4 | .admitted => 5 | .sagEnd => 6
  | .released => 7 | .sync => 8 | .invalid => 9 | .episodeClosed => 10 | .cleared => 11 | .episodeLimit => 12
  | .interruption => 13 | .noEnergy => 14 | .preempted => 15 | .shortfall => 16 | .rideLimit => 17
  | .syncLost => 18 | .samplesInvalid => 19 | .alarm => 20 | .link => 21 | .modulator => 22
  | .noSamples => 23 | .clearRefused => 24

def Source.code : Source → Nat
  | .none => 0 | .record => 1 | .autofill => 2 | .hold => 3

def SagOutcome.code : SagOutcome → Nat
  | .tolerated => 1 | .protect => 2 | .shed => 3 | .fault => 4 | .off => 5

def WorstOutcome.code : WorstOutcome → Nat
  | .tolerated => 0 | .protect => 1 | .shed => 2 | .tripped => 3

def Sync.code : Sync → Nat
  | .seek => 0 | .locked => 1 | .coasting => 2 | .lost => 3

def SyncCause.code : SyncCause → Nat
  | .lock => 0 | .coast => 1 | .relock => 2 | .restart => 3 | .silence => 4 | .table => 5

def CloseCause.code : CloseCause → Nat
  | .window => 0 | .fault => 1 | .off => 2

def LinkCause.code : LinkCause → Nat
  | .noReply => 1 | .crc => 2 | .wrongUnit => 3 | .wrongKind => 4 | .malformed => 5

def FrameKind.code : FrameKind → Nat
  | .engage => 1 | .release => 2 | .statusq => 3 | .resync => 4

def RejectReason.code : RejectReason → Nat
  | .signature => 1 | .length => 2 | .checksum => 3 | .range => 4 | .priority => 5 | .unit => 6
  | .curveOrder => 7 | .missingWindow => 8 | .duplicateWindow => 9 | .readFailed => 10

def ResultCode.code : ResultCode → Nat
  | .none => 0 | .abandoned => 1 | .broken => 2 | .incomplete => 3 | .checkFailed => 4 | .wrongFeeder => 5
  | .duplicate => 6 | .late => 7 | .tooEarly => 8 | .notRiding => 9 | .superseded => 10 | .stale => 11
  | .refusedEnergy => 12 | .refusedByModulator => 13 | .linkFailed => 14 | .committed => 15

def WindowKind.code : WindowKind → Nat
  | .sample => 1 | .dclink => 2 | .reference => 3 | .control => 4 | .ring => 5 | .mirror => 6 | .guard => 7

def Mode.code : Mode → Nat
  | .loading => 0 | .failed => 1 | .active => 2

def Reload.code : Reload → Nat
  | .none => 0 | .requested => 1 | .reading => 2 | .held => 3

def Page.code : Page → Nat
  | .page0 => 0 | .page1 => 1

/-! ## Result slots -/

/-- The eight words of a result slot (Formats 12.1, R163). That the bits no row names are zero is log entry 40; that
the sequence and target fields are zero without an identity, and the a_max field without an a_max, is log entry
41. Formats gives none of these values. -/
def Result.words (r : Result) : List Word :=
  [pack [(r.number.toNat, 0, 8), (r.code.code, 8, 8), (bit r.clamped, 16, 1), (bit r.limited, 17, 1),
      (bit r.unflipped, 18, 1), (r.source.code, 20, 2), (r.page.code, 24, 1)],
    (match r.ident with
      | some i => pack [(i.seq.toNat, 0, 8), (i.target.toNat, 8, 8), (r.judgedAt.toNat, 16, 8), (1, 31, 1)]
      | none => pack [(r.judgedAt.toNat, 16, 8)]),
    (match r.applied with
      | some a => pack [(a, 0, 16), (1, 31, 1)]
      | none => 0#32),
    0#32, 0#32, 0#32, 0#32, 0#32]

/-- The current value of word `i` of feeder `f`'s result slot: its latest result (R163). A stager that has made no
result has none: a feeder first given a REFERENCE window by a reload. The spec gives no value for the words then;
zero is the model's choice (log entry 37). -/
def State.resultWord (s : State) (f : Fid) (i : Nat) : Word :=
  match (s.stagers.get f).latest with
  | some r => r.words.getD i 0#32
  | none => 0#32

/-! ## Event records -/

/-- The kind code of a record (Formats 12.1). -/
def Body.kind : Body → Nat
  | .sagClosed .. => 1
  | .episodeClosed .. => 2
  | .feederState .. => 3
  | .refRejected .. => 4
  | .phaseJump .. => 5
  | .syncChange .. => 6
  | .linkLadder .. => 7
  | .shortfall .. => 8
  | .busRefused .. => 9
  | .ringIndexRefused .. => 10
  | .tableLoaded .. => 11
  | .tableRejected .. => 12

/-- A feeder field that may name none, 15 (Formats 12.1). -/
def feederCode (f : Option Fid) : Nat :=
  match f with
  | some f => f.val
  | none => 15

/-- The feeder a record names in its first word; a BUS_REFUSED record names the feeder of its window
(log entry 21). -/
def Body.feeder : Body → Option Fid
  | .sagClosed f .. => some f
  | .episodeClosed f .. => some f
  | .feederState f .. => some f
  | .refRejected f .. => some f
  | .phaseJump f .. => some f
  | .syncChange f .. => some f
  | .linkLadder f .. => some f
  | .shortfall .. => none
  | .busRefused _ _ _ f _ => f
  | .ringIndexRefused .. => none
  | .tableLoaded .. => none
  | .tableRejected .. => none

/-- The reservation a SHORTFALL record shows for a feeder: what was taken from it, 0 for no victim. -/
def takenFrom (victims : List (Fid × Nat)) (f : Fid) : Nat :=
  match victims.find? (fun v => v.1 == f) with
  | some v => v.2
  | none => 0

/-- Words 2 to 7 of a record, by its kind (Formats 12.1). In a TABLE_REJECTED record the words w4 to w6 that were not
read, an index that is not present, and the kind and feeder of any reason but MISSING_WINDOW are zero: Formats gives
no value there, and zero is the model's choice (log entry 41; log entry 21 for the address). The five flags of a
SAG_CLOSED record lie in bits 16 to 20 in the order Formats lists them, LIMITED lowest: Formats gives the range 20-16 and
the list, and which end the list starts from is the model's choice (log entry 42). -/
def Body.words : Body → List Word
  | .sagClosed _ g =>
    [pack [(g.onsetHc.toNat, 0, 8), ((g.outcome.map SagOutcome.code).getD 0, 8, 4), (bit g.limited, 16, 1),
        (bit g.clampedSeen, 17, 1), (bit g.phaseJump, 18, 1), (bit g.toleranceExceeded, 19, 1),
        (bit g.interruption, 20, 1), (g.largestGap, 24, 3)],
      g.onsetStamp,
      pack [(g.minimum.a, 0, 11), (g.minimum.b, 16, 11)],
      pack [(g.minimum.c, 0, 11), (g.duration, 16, 16)],
      pack [(g.ridden, 0, 8), (g.autoHold, 8, 8)],
      0#32]
  | .episodeClosed _ e cause hc =>
    [pack [(e.sagCount, 0, 8), (e.worst.code, 8, 2), (cause.code, 12, 2), (e.firstOnsetHc.toNat, 16, 8),
        (hc.toNat, 24, 8)],
      e.firstOnsetStamp, pack [(e.riddenTotal, 0, 16)], 0#32, 0#32, 0#32]
  | .feederState _ old new reason =>
    [pack [(old.code, 0, 4), (new.code, 4, 4), (reason.code, 8, 8)], 0#32, 0#32, 0#32, 0#32, 0#32]
  | .refRejected _ r =>
    [r.words.getD 0 0#32, r.words.getD 1 0#32, r.words.getD 2 0#32, 0#32, 0#32, 0#32]
  | .phaseJump _ offset prior hc =>
    [pack [((BitVec.ofInt 16 offset).toNat, 0, 16), (prior.code, 16, 2), (hc.toNat, 24, 8)],
      0#32, 0#32, 0#32, 0#32, 0#32]
  | .syncChange _ old new cause coast hc =>
    [pack [(old.code, 0, 2), (new.code, 4, 2), (cause.code, 8, 4), (coast, 16, 5), (hc.toNat, 24, 8)],
      0#32, 0#32, 0#32, 0#32, 0#32]
  | .linkLadder _ unit kind hc causes =>
    [pack [(unit.toNat, 0, 4), (kind.code, 4, 3), (hc.toNat, 8, 8)],
      pack [((causes[0]?.map LinkCause.code).getD 0, 0, 8), ((causes[1]?.map LinkCause.code).getD 0, 8, 8),
        ((causes[2]?.map LinkCause.code).getD 0, 16, 8), ((causes[3]?.map LinkCause.code).getD 0, 24, 8)],
      0#32, 0#32, 0#32, 0#32]
  | .shortfall v before after sumBefore _ victims =>
    [pack [(v, 0, 16), (before, 16, 16)],
      pack [(after, 0, 16), (sumBefore, 16, 16)],
      pack [(takenFrom victims 0, 0, 16), (takenFrom victims 1, 16, 16)],
      pack [(takenFrom victims 2, 0, 16), (takenFrom victims 3, 16, 16)],
      pack [(takenFrom victims 4, 0, 16), (takenFrom victims 5, 16, 16)],
      pack [(takenFrom victims 6, 0, 16), (takenFrom victims 7, 16, 16)]]
  | .busRefused addr tag kind feeder read =>
    [addr,
      pack [(tag.toNat, 0, 2), ((kind.map WindowKind.code).getD 0, 4, 4), ((feeder.map Fin.val).getD 0, 8, 3),
        (bit read, 12, 1)],
      0#32, 0#32, 0#32, 0#32]
  | .ringIndexRefused offered consumer producer partialWrite =>
    [offered, pack [(consumer.toNat, 0, 16), (producer.toNat, 16, 16)], pack [(bit partialWrite, 0, 1)],
      0#32, 0#32, 0#32]
  | .tableLoaded addr length identity windowCount reload sampleChanged changed =>
    [addr,
      pack [(length, 0, 10), (windowCount, 16, 6), (bit reload, 24, 1), (bit sampleChanged, 25, 1)],
      identity, pack (changed.map fun f => (1, f.val, 1)), 0#32, 0#32]
  | .tableRejected addr r signature length identity =>
    [addr.getD 0#32,
      pack [(r.reason.code, 0, 8), (r.index.getD 0, 8, 10), (bit r.index.isSome, 18, 1),
        ((r.kind.map WindowKind.code).getD 0, 20, 4), ((r.feeder.map Fin.val).getD 0, 24, 3)],
      signature.getD 0#32, length.getD 0#32, identity.getD 0#32,
      pack [(bit signature.isSome, 0, 1), (bit length.isSome, 1, 1), (bit identity.isSome, 2, 1)]]

/-- The eight words of an event record (Formats 12.1). -/
def Record.words (r : Record) : List Word :=
  pack [(r.seq.toNat, 0, 16), (r.body.kind, 16, 4), (feederCode r.body.feeder, 20, 4), (r.dropped, 24, 8)] ::
    r.stamp :: r.body.words

/-! ## Mirror words (R162, Formats 12.1) -/

/-- The current value of word 0 to 3 of feeder `f`'s mirror words; bits no row names are zero (log entry 40). -/
def State.feederMirrorWord (s : State) (f : Fid) (k : Nat) : Word :=
  match k with
  | 0 => pack [((s.ctl.get f).state.code, 0, 4), ((s.ctl.get f).reason.code, 8, 8)]
  | 1 => pack [((s.trackers.get f).sync.code, 0, 2), ((s.trackers.get f).hc.toNat, 8, 8)]
  | 2 => pack [(s.account.reserved.get f, 0, 16), ((s.ctl.get f).rode, 16, 8)]
  | _ =>
    pack [(((s.ctl.get f).episode.map Episode.sagCount).getD 0, 0, 8), ((s.evals.get f).ttt.getD 0xFFFF, 16, 16)]

/-- The current value of mirror word `i`: words 0-7 are global, the words of feeder `f` start at 8 + 4f. Bits no row names
are zero (log entry 40). -/
def State.mirrorWord (s : State) (i : Nat) : Word :=
  match i with
  | 0 => BitVec.ofNat 32 s.loader.mode.code
  | 1 => BitVec.ofNat 32 s.loader.reload.code
  | 2 => BitVec.ofNat 32 s.account.usable
  | 3 => BitVec.ofNat 32 s.sum
  | 4 => s.writer.producer.setWidth 32
  | 5 => s.writer.consumer.setWidth 32
  | 6 => s.writer.summary.setWidth 32
  | 7 => match s.table with | some t => t.identity | none => 0#32
  | i + 8 => s.feederMirrorWord (Fin.ofNat 8 (i / 4)) (i % 4)

/-- The place of the producer word in the mirror (Formats 12.1). -/
def producerWord : Nat := 4

/-- The places of feeder `f`'s words in the mirror. -/
def feederWord (f : Fid) (k : Nat) : Nat := 8 + 4 * f.val + k

/-! ## Link frames (R113, R114, R174, Formats 12.2) -/

/-- One step of the CRC register (R174). -/
def crcStep (r : Byte) : Byte := if r.getLsbD 7 then (r <<< 1) ^^^ 0x2F#8 else r <<< 1

/-- One byte taken into the CRC register (R174). -/
def crcByte (r b : Byte) : Byte :=
  crcStep (crcStep (crcStep (crcStep (crcStep (crcStep (crcStep (crcStep (r ^^^ b))))))))

/-- The CRC-8 of a list of bytes (R174). -/
def crc8 (bytes : List Byte) : Byte := bytes.foldl crcByte 0xFF#8

/-- A lead byte: the link marker, a kind, a unit (Formats 12.2). -/
def leadByte (kind : Nat) (unit : BitVec 4) : Byte := 1#1 ++ BitVec.ofNat 3 kind ++ unit

/-- A two-byte field of the link, low byte first (chapter 12). -/
def linkHalf (n : Nat) : List Byte := [BitVec.ofNat 8 n, BitVec.ofNat 8 (n / 256)]

/-- The bytes of one phase of an ENGAGE frame. -/
def Inject.bytes (i : Inject) : List Byte := linkHalf i.amp ++ linkHalf i.angle.toNat

/-- A frame with its CRC at the end. -/
def withCrc (bytes : List Byte) : List Byte := bytes ++ [crc8 bytes]

/-- The frame kind of a request. -/
def Request.kind : Request → FrameKind
  | .engage .. => .engage
  | .release _ => .release
  | .statusq _ => .statusq

/-- The half-cycle number a request carries. -/
def Request.hc : Request → BitVec 8
  | .engage _ hc _ _ _ => hc
  | .release hc => hc
  | .statusq hc => hc

/-- The record in commit that a request carries (R115). -/
def Request.record : Request → Option Accepted
  | .engage _ _ _ _ record => record
  | .release _ => none
  | .statusq _ => none

/-- The bytes of the frame formed from a request for a unit (Formats 12.2). Bits 7 to 3 of an ENGAGE's flags, which
Formats does not name, are zero (log entry 40). -/
def Request.frame (r : Request) (unit : BitVec 4) : List Byte :=
  match r with
  | .engage ref hc source rehearse _ =>
    withCrc (leadByte FrameKind.engage.code unit :: hc :: BitVec.ofNat 8 (bit rehearse + 2 * source.code) ::
      (ref.a.bytes ++ ref.b.bytes ++ ref.c.bytes))
  | .release hc => withCrc [leadByte FrameKind.release.code unit, hc, 0#8]
  | .statusq hc => withCrc [leadByte FrameKind.statusq.code unit, hc]

/-- The RESYNC frame, sent after a break (R113). -/
def resyncFrame : List Byte := withCrc [leadByte FrameKind.resync.code 15#4, 0xA5#8]

/-- What the part is sending on LTX: the frame of the exchange in flight, or a RESYNC. -/
def State.txBytes (s : State) : List Byte :=
  match s.link.line with
  | .send =>
    match s.link.exchange with
    | some x => x.request.frame x.unit
    | none => []
  | .resync => resyncFrame
  | .idle => []
  | .wait => []
  | .receive => []
  | .settle => []
  | .quiet => []

/-- The two levels of the line. -/
inductive Level where
  | space | mark
  deriving DecidableEq, Repr

/-- The line bits of a byte: a start bit, eight data bits with the least significant first, a stop bit (R113). That a
start bit is at space, a stop bit at mark, and a data bit 1 at mark, is the model's (log entry 34). -/
def lineBits (b : Byte) : List Level :=
  .space :: ((List.range 8).map fun i => if b.getLsbD i then .mark else .space) ++ [.mark]

/-- A break: LTX at the space level for 20 line bits (R113). -/
def breakBits : List Level := List.replicate 20 .space

/-- What LTX carries while LTXEN is asserted, one level for each line bit: the bytes back to back, after a break
where they are a RESYNC (R113). -/
def State.txLine (s : State) : List Level :=
  (if s.link.line = .resync then breakBits else []) ++ s.txBytes.flatMap lineBits

/-- The modulator's status (R114). -/
inductive UnitStatus where
  | ready | ramping | hot
  deriving DecidableEq, Repr

/-- A reply that has passed its checks (R114, R119). -/
inductive Reply where
  | done (applied : Nat)
  | notReady
  | hot
  | status (st : UnitStatus)
  deriving DecidableEq, Repr

/-- A reply's length by the kind in its lead byte: DONE 5, REFUSED 6, STATUS 7 (R114, R119 step 3). A lead
byte without the link marker or without a reply kind fixes no length. -/
def replyLength (lead : Byte) : Option Nat :=
  if lead.getLsbD 7 then
    match lead.extractLsb' 4 3 with
    | 5#3 => some 4
    | 6#3 => some 3
    | 7#3 => some 3
    | _ => none
  else none

/-- The reply's fields, by its kind, when they are in range (R119 step 5, Formats 12.2). -/
def replyFields (kind : BitVec 3) (content : List Byte) : Option Reply :=
  match kind, content with
  | 5#3, [lo, hi] =>
    let applied := lo.toNat + 256 * hi.toNat
    if applied ≤ 1000 then some (.done applied) else none
  | 6#3, [reason] =>
    match reason with
    | 1#8 => some .notReady
    | 2#8 => some .hot
    | _ => none
  | 7#3, [st] =>
    match st with
    | 1#8 => some (.status .ready)
    | 2#8 => some (.status .ramping)
    | 3#8 => some (.status .hot)
    | _ => none
  | _, _ => none

/-- The reply kinds a frame kind accepts (R114). -/
def kindAccepted (frame : FrameKind) (kind : BitVec 3) : Bool :=
  match frame with
  | .engage => kind == 5#3 || kind == 6#3
  | .release => kind == 5#3 || kind == 6#3
  | .statusq => kind == 7#3 || kind == 6#3
  | .resync => false

/-- The judging of a received reply to a frame of the given kind and unit: the five checks of R119 in
order. Bytes beyond the reply's length are not part of it; too few bytes are a reply broken off (log
entry 26). -/
def judgeReply (frame : FrameKind) (unit : BitVec 4) (bytes : List Byte) (stops : Bool) :
    Except LinkCause Reply :=
  match bytes with
  | [] => .error .malformed
  | lead :: _ =>
    match replyLength lead with
    | none => .error .malformed
    | some n =>
      let reply := bytes.take n
      if !stops || reply.length != n then .error .malformed
      else if crc8 (reply.take (n - 1)) != reply.getD (n - 1) 0#8 then .error .crc
      else if lead.extractLsb' 0 4 != unit then .error .wrongUnit
      else if !kindAccepted frame (lead.extractLsb' 4 3) then .error .wrongKind
      else
        match replyFields (lead.extractLsb' 4 3) ((reply.drop 1).take (n - 2)) with
        | some r => .ok r
        | none => .error .malformed

end Sys2Proof.Machine
end

