-- ==== Sys2Proof/Machine/Ops.lean ====
section
/-! DEFINITION. The named operations over the items every block shares: the writes that keep the mirror's dirty
marks (R162), ATTN (R161), the summary set (R156) and the staging of records (R155). Every write of an item
that the mirror shows goes through one of these. -/

namespace Sys2Proof.Machine

/-! ## Dirty marks (R162) -/

/-- A value in the word `t` changes: if that word is on the port, its completion will not clean it (R162). -/
def Port.touch (t : WriterTarget) : Port → Port
  | .writer w d => .writer { w with changed := w.changed || w.target == t } d
  | .free => .free
  | .upstream => .upstream
  | .loader a d => .loader a d

/-- Mirror word `i` becomes dirty. -/
def State.touchMirror (s : State) (i : Nat) : State :=
  { s with
    writer := { s.writer with mirrorDirty := s.writer.mirrorDirty.set i true }
    bus := { s.bus with port := s.bus.port.touch (.mirror i) } }

/-- All eight words of feeder `f`'s result slot become dirty (R110, R163). If one of them is on the port its completion
will not clean it, also where the new result leaves its value the same: R163 marks all eight at every result, and R162
spares from cleaning a word whose value has changed. That the unchanged one is written again is the model's choice (log
entry 43). -/
def State.touchResult (s : State) (f : Fid) : State :=
  { s with
    writer := { s.writer with resultDirty := s.writer.resultDirty.set f (List.replicate 8 true) }
    bus := { s.bus with
      port := [0, 1, 2, 3, 4, 5, 6, 7].foldl (fun p i => p.touch (.result f i)) s.bus.port } }

/-- Of the mirror words `ws`, those whose value differs between `old` and `new` become dirty in `new`. -/
def State.note (ws : List Nat) (old new : State) : State :=
  ws.foldl (fun s i => if old.mirrorWord i == new.mirrorWord i then s else s.touchMirror i) new

/-! ## Writes of the items the mirror shows -/

/-- Feeder `f`'s controller items are replaced (mirror words 0, 2 and 3 of the feeder). -/
def State.putCtl (s : State) (f : Fid) (c : FeederCtl) : State :=
  State.note [feederWord f 0, feederWord f 2, feederWord f 3] s { s with ctl := s.ctl.set f c }

/-- Feeder `f`'s tracker items are replaced (mirror word 1 of the feeder). -/
def State.putTracker (s : State) (f : Fid) (t : Tracker) : State :=
  State.note [feederWord f 1] s { s with trackers := s.trackers.set f t }

/-- Feeder `f`'s evaluator items are replaced (mirror word 3 of the feeder). -/
def State.putEval (s : State) (f : Fid) (e : Evaluator) : State :=
  State.note [feederWord f 3] s { s with evals := s.evals.set f e }

/-- Feeder `f`'s reservation is written (its mirror word 2, and Sum; R91). -/
def State.putReserved (s : State) (f : Fid) (r : Nat) : State :=
  State.note [3, feederWord f 2] s
    { s with account := { s.account with reserved := s.account.reserved.set f r } }

/-- The usable figure is written (mirror word 2; R91). -/
def State.putUsable (s : State) (u : Nat) : State :=
  State.note [2] s { s with account := { s.account with usable := u } }

/-- The loader's items are replaced (mirror words 0 and 1; R165). -/
def State.putLoader (s : State) (l : Loader) : State :=
  State.note [0, 1] s { s with loader := l }

/-- Feeder `f`'s monitor items are replaced; the mirror shows none of them. -/
def State.putMonitor (s : State) (f : Fid) (m : Monitor) : State :=
  { s with monitors := s.monitors.set f m }

/-- Feeder `f`'s stager items are replaced; the mirror shows none of them. -/
def State.putStager (s : State) (f : Fid) (g : Stager) : State :=
  { s with stagers := s.stagers.set f g }

/-! ## ATTN, the summary set and the indexes (R156, R157, R160, R161) -/

/-- ATTN is judged (R161). -/
def State.judgeAttn (s : State) : State :=
  { s with writer := { s.writer with attn := s.attnWanted } }

/-- The summary set is written; its mirror word follows and ATTN is judged (R161). -/
def State.putSummary (s : State) (c : BitVec 8) : State :=
  (State.note [6] s { s with writer := { s.writer with summary := c } }).judgeAttn

/-- Conditions are set in the summary set (R156). -/
def State.raise (s : State) (c : BitVec 8) : State := s.putSummary (s.writer.summary ||| c)

/-- The producer index is written; the producer word follows (R157). -/
def State.putProducer (s : State) (p : BitVec 16) : State :=
  State.note [producerWord] s { s with writer := { s.writer with producer := p } }

/-- The published producer index is written and ATTN is judged (R157, R161). -/
def State.putPublished (s : State) (p : BitVec 16) : State :=
  State.judgeAttn { s with writer := { s.writer with published := p } }

/-- The consumer index is written; its mirror word follows and ATTN is judged (R160). -/
def State.putConsumer (s : State) (c : BitVec 16) : State :=
  (State.note [5] s { s with writer := { s.writer with consumer := c } }).judgeAttn

/-! ## Staging (R155, R159) -/

/-- A record is counted as dropped: the dropped count, overrun owed, OVERRUN in the summary (R155, R159). -/
def State.countDrop (s : State) : State :=
  State.raise
    { s with writer := { s.writer with dropped := min 255 (s.writer.dropped + 1), overrun := true } }
    Condition.overrun.mask

/-- A record enters staging with its common fields (R155). -/
def State.enterStaging (s : State) (b : Body) : State :=
  { s with
    writer := { s.writer with
      staging := s.writer.staging ++
        [{ seq := s.writer.nextSeq, stamp := s.stamp,
           dropped := if s.writer.overrun then s.writer.dropped else 0, body := b }]
      nextSeq := s.writer.nextSeq + 1#16
      dropped := if s.writer.overrun then 0 else s.writer.dropped
      overrun := false } }

/-- A record is handed to the report writer: staged while fewer than 16 are, else dropped; in either case
the conditions its kind calls for are set (R155, R156). -/
def State.handRecord (s : State) (b : Body) : State :=
  State.raise
    (if s.writer.staging.length < Config.stagingDepth then s.enterStaging b else s.countDrop)
    b.conditions

end Sys2Proof.Machine
end

