-- ==== Sys2Proof/Machine/Tracker.lean ====
section
/-! DEFINITION. The cycle tracker (chapter 3): what one instant does to a tracker (R45-R52), and the move to SEEK
(R53). Both are functions of the tracker's items, the sign and the settings alone. -/

namespace Sys2Proof.Machine

/-- The tracker's four answers to its monitor (R31). -/
inductive TrackAnswer where
  | noBoundary | countStarted | boundaryHere | boundaryAtN
  deriving DecidableEq, Repr

/-- What one instant gives: the tracker's items after it, the answer, and the offset of a phase jump (R55). -/
structure TrackStep where
  tracker : Tracker
  answer : TrackAnswer
  jump : Option Int
  deriving DecidableEq, Repr

/-- The instant shows a crossing (R45 step 1). -/
def Tracker.crossing (t : Tracker) (sign : Sign) : Bool :=
  match t.last with
  | none => false
  | some l => l != sign

/-- A count that runs on by one, held at 255 (R44, R45 step 4). -/
def countOn (c : Nat) : Nat := min 255 (c + 1)

/-- The count lies in the crossing window, N-W to N+W. -/
def inWindow (g : Settings) (c : Nat) : Bool := decide (g.n - g.w ≤ c) && decide (c ≤ g.n + g.w)

/-- The count lies inside the noise guard, the quarter of N (R45). -/
def inGuard (g : Settings) (c : Nat) : Bool := decide (c < g.n / 4)

/-- A boundary made at a crossing: the half-cycle number advances and the new half-cycle has count 1, in
LOCKED with the coast and search counts cleared (R46, R47, R50, R51). -/
def Tracker.boundaryHere (t : Tracker) : Tracker :=
  { t with sync := .locked, count := some 1, coast := 0, search := none, hc := t.hc + 1#8 }

/-- A flywheel boundary: the half-cycle number advances and the new half-cycle has count W+1 (R48, R49, R52). -/
def Tracker.flywheel (t : Tracker) (g : Settings) : Tracker :=
  { t with count := some (g.w + 1), hc := t.hc + 1#8 }

/-- An instant that gives nothing but one more sample (R45 step 4). -/
def Tracker.runOn (t : Tracker) : Tracker := { t with count := t.count.map countOn }

/-- SEEK (R46). -/
def Tracker.seekStep (t : Tracker) (g : Settings) (crossed : Bool) : TrackStep :=
  match t.count with
  | none =>
    if crossed then ⟨{ t with count := some 1 }, .countStarted, none⟩ else ⟨t, .noBoundary, none⟩
  | some c =>
    if !crossed || inGuard g c then ⟨t.runOn, .noBoundary, none⟩
    else if inWindow g c then ⟨t.boundaryHere, .boundaryHere, none⟩
    else ⟨{ t with count := some 1 }, .countStarted, none⟩

/-- A flywheel boundary in LOCKED or COASTING: the coast count advances, and the tracker goes to LOST when it
reaches the coast limit, else it is COASTING (R48, R49, R58). -/
def Tracker.coastOn (t : Tracker) (g : Settings) : Tracker :=
  let t' := t.flywheel g
  if g.coastLimit ≤ t.coast + 1 then { t' with coast := t.coast + 1, sync := .lost, search := none }
  else { t' with coast := t.coast + 1, sync := .coasting }

/-- LOCKED (R47, R48). -/
def Tracker.lockedStep (t : Tracker) (g : Settings) (crossed : Bool) : TrackStep :=
  let c := t.count.getD 0
  if crossed && inWindow g c then ⟨t.boundaryHere, .boundaryHere, none⟩
  else if crossed && !inGuard g c && decide (c < g.n - g.w) then
    ⟨t.boundaryHere, .boundaryHere, some ((c : Int) - g.n)⟩
  else if g.n + g.w ≤ c then ⟨{ t with coast := 0 }.coastOn g, .boundaryAtN, none⟩
  else ⟨t.runOn, .noBoundary, none⟩

/-- The offset a relock from COASTING reports (R50). -/
def relockOffset (g : Settings) (c : Nat) : Option Int :=
  if inGuard g c then some (c : Int)
  else if c < g.n - g.w then some ((c : Int) - g.n)
  else none

/-- COASTING (R49, R50). -/
def Tracker.coastingStep (t : Tracker) (g : Settings) (crossed : Bool) : TrackStep :=
  let c := t.count.getD 0
  if crossed then ⟨t.boundaryHere, .boundaryHere, relockOffset g c⟩
  else if g.n + g.w ≤ c then ⟨t.coastOn g, .boundaryAtN, none⟩
  else ⟨t.runOn, .noBoundary, none⟩

/-- The search count after an instant in LOST that does not relock (R51). -/
def Tracker.searchOn (t : Tracker) (g : Settings) (crossed : Bool) : Option Nat :=
  match t.search with
  | none => if crossed then some 1 else none
  | some c => if crossed && !inGuard g c then some 1 else some (countOn c)

/-- LOST (R51, R52). -/
def Tracker.lostStep (t : Tracker) (g : Settings) (crossed : Bool) : TrackStep :=
  let relock :=
    match t.search with
    | none => false
    | some c => crossed && inWindow g c
  if relock then ⟨t.boundaryHere, .boundaryHere, none⟩
  else
    let t' := { t with search := t.searchOn g crossed }
    if g.n + g.w ≤ t.count.getD 0 then ⟨t'.flywheel g, .boundaryAtN, none⟩
    else ⟨t'.runOn, .noBoundary, none⟩

/-- What an instant with phase A's sign `sign` does to a tracker (R45). -/
def Tracker.instant (t : Tracker) (g : Settings) (sign : Sign) : TrackStep :=
  let crossed := t.crossing sign
  let t' := { t with last := some sign }
  match t.sync with
  | .seek => t'.seekStep g crossed
  | .locked => t'.lockedStep g crossed
  | .coasting => t'.coastingStep g crossed
  | .lost => t'.lostStep g crossed

/-- The tracker's items after it is sent to SEEK; the half-cycle number is kept (R53). -/
def Tracker.toSeek (t : Tracker) : Tracker :=
  { t with sync := .seek, count := none, coast := 0, search := none, last := none }

/-- The cause of a change of sync state at a boundary (R56). -/
def changeCause (old new : Sync) : SyncCause :=
  match new with
  | .locked => if old == .seek then .lock else .relock
  | .coasting => .coast
  | .lost => .coast
  | .seek => .restart

end Sys2Proof.Machine
end

