-- ==== Sys2Proof/Machine/Tolerance.lean ====
section
/-! DEFINITION. The tolerance evaluator (chapter 4): breakpoint counters, time-to-trip, the exceeded mark. -/

namespace Sys2Proof.Machine

/-- A breakpoint applies to a half-cycle when its lowest residual is below the breakpoint's level (R60). -/
def Breakpoint.applies (b : Breakpoint) (rmin : Nat) : Bool := decide (rmin < b.level)

/-- The counters after one unprotected half-cycle: those of the breakpoints that apply increase by 1, held
at 1024; those the curve does not have stay as they are (R61, R63). -/
def advanceCounters (curve : List Breakpoint) (rmin : Nat) (counters : List Nat) : List Nat :=
  match curve, counters with
  | b :: curve', c :: counters' =>
    (if b.applies rmin then min 1024 (c + 1) else c) :: advanceCounters curve' rmin counters'
  | [], counters => counters
  | _ :: _, [] => []

/-- Some counter of the curve is greater than its breakpoint's duration (R68). -/
def anyExceeded (curve : List Breakpoint) (counters : List Nat) : Bool :=
  (curve.zip counters).any fun x => decide (x.1.duration < x.2)

/-- The smaller of two times, where `none` is UNBOUNDED. -/
def minTime (a b : Option Nat) : Option Nat :=
  match a, b with
  | none, b => b
  | a, none => a
  | some x, some y => some (min x y)

/-- Time-to-trip: the least of D_k less c_k over the breakpoints that apply, 0 where it is below 0, UNBOUNDED
when none applies (R66). -/
def timeToTrip (curve : List Breakpoint) (rmin : Nat) (counters : List Nat) : Option Nat :=
  (curve.zip counters).foldr
    (fun x acc => if x.1.applies rmin then minTime (some (x.1.duration - x.2)) acc else acc) none

/-- The lowest residual taken for a half-cycle: of a valid one its least residual, of an invalid one the last
valid lowest (R62). -/
def Evaluator.lowest (e : Evaluator) (valid : Bool) (residuals : Phases Nat) : Nat :=
  if valid then residuals.minimum else e.lastLowest

/-- The evaluator's items after the boundary that closes a half-cycle, and whether the curve is newly
exceeded (R62, R63, R66, R68). -/
def Evaluator.close (e : Evaluator) (curve : List Breakpoint) (valid : Bool) (residuals : Phases Nat) :
    Evaluator × Bool :=
  let rmin := e.lowest valid residuals
  if e.sagOpen then
    let counters := if e.applied then e.counters else advanceCounters curve rmin e.counters
    let newly := anyExceeded curve counters && !e.exceeded
    ({ e with counters := counters, lastLowest := rmin, applied := false, exceeded := e.exceeded || newly,
              ttt := timeToTrip curve rmin counters }, newly)
  else ({ e with lastLowest := rmin, applied := false }, false)

/-- The evaluator's items when a sag record opens at a boundary whose half-cycle had lowest residual `rmin`
(R65). -/
def Evaluator.openSag (e : Evaluator) (curve : List Breakpoint) (rmin : Nat) : Evaluator :=
  { e with counters := Evaluator.zeroCounters, sagOpen := true, applied := false, exceeded := false,
           ttt := timeToTrip curve rmin Evaluator.zeroCounters }

/-- The evaluator's items when the sag record closes (R70). -/
def Evaluator.closeSag (e : Evaluator) : Evaluator := { e with sagOpen := false, applied := false, ttt := none }

/-- The applied notice for half-cycle `named`, taken while half-cycle `hc` is in progress (R64). -/
def Evaluator.applyNotice (e : Evaluator) (named hc : BitVec 8) : Evaluator :=
  if named = hc then { e with applied := true } else e

/-- Time-to-trip is within the lead; UNBOUNDED never is (R67). -/
def withinLead (ttt : Option Nat) (lead : Nat) : Bool :=
  match ttt with
  | none => false
  | some t => decide (t ≤ lead)

end Sys2Proof.Machine
end

