-- ==== Sys2Proof/Machine/Account.lean ====
section
/-! DEFINITION. The energy account (chapter 5): costs, requirements, admission, preemption, shortfall, consumption,
release. -/

namespace Sys2Proof.Machine

/-! ## Costs (R78) -/

/-- The largest amplitude of a reference. -/
def amax (r : Reference) : Nat := (r.map Inject.amp).maximum

/-- The cost of a reference at a rating: rating times a_max over 1000, rounded up (R78). -/
def cost (rating amax : Nat) : Nat := (rating * amax + 999) / 1000

/-- The cost of a reference for feeder `f`. -/
def State.cost (s : State) (f : Fid) (r : Reference) : Nat := Machine.cost (s.entry f).rating (amax r)

/-! ## The usable figure (R75) -/

/-- The usable figure computed from an update of value `v` (R75). -/
def usableFigure (g : Settings) (v : Nat) : Nat :=
  if v ≤ g.floor then 0 else min 65535 ((v * v - g.floor * g.floor) * g.scale / 2 ^ 32)

/-! ## Victims (R76, R82, R84) -/

/-- A feeder whose reservation counts in Sum and is not 0: the account can take it back (R76, R82). -/
def State.sheddable (s : State) (f : Fid) : Bool :=
  !(s.entry f).rehearsal && s.account.reserved.get f != 0

/-- A victim is chosen: its reservation becomes 0 and a shed notice is outstanding for it (R76, R82, R84). -/
def State.chooseVictim (s : State) (f : Fid) (cause : ShedCause) : State :=
  let s' := s.putReserved f 0
  { s' with account := { s'.account with notice := s'.account.notice.set f (some cause) } }

/-- Of the feeders `fs`, in order, those that can be shed are chosen until `enough` holds. -/
def State.shedUntil (s : State) (fs : List Fid) (cause : ShedCause) (enough : State → Bool) : State :=
  match fs with
  | [] => s
  | f :: rest =>
    if enough s then s
    else if s.sheddable f then (s.chooseVictim f cause).shedUntil rest cause enough
    else s.shedUntil rest cause enough

/-- The feeders from the lowest priority (the largest number) up. -/
def State.lowestFirst (s : State) : List Fid := s.byPriority.reverse

/-! ## Admission (R81, R82, R83, R87) -/

/-- The candidates for a request of feeder `f`: sheddable feeders of strictly lower priority, lowest first
(R82). -/
def State.candidates (s : State) (f : Fid) : List Fid :=
  s.lowestFirst.filter fun g => decide ((s.entry f).priority < (s.entry g).priority) && s.sheddable g

/-- The reservations of the candidates together. -/
def State.candidateTotal (s : State) (f : Fid) : Nat :=
  ((s.candidates f).map fun g => s.account.reserved.get g).sum

/-- A grant: the reservation increases by `d` (R81). -/
def State.grant (s : State) (f : Fid) (d : Nat) : State :=
  s.putReserved f (s.account.reserved.get f + d)

/-- An admission request for `d` more from feeder `f`: the state after it, and whether it was granted
(R81-R84, R87). -/
def State.requestEnergy (s : State) (f : Fid) (d : Nat) : State × Bool :=
  if (s.account.notice.get f).isSome then (s, false)
  else if (s.entry f).rehearsal then
    if s.fits d then (s.grant f d, true) else (s, false)
  else if s.fits d then (s.grant f d, true)
  else if s.sum + d ≤ s.account.usable + s.candidateTotal f then
    ((s.shedUntil (s.candidates f) .preempted (fun s' => s'.fits d)).grant f d, true)
  else (s, false)

/-- The ride-entry requirement is handed over (R9, R79): 0 admits without a request unless a shed notice is
outstanding. -/
def State.requestEntry (s : State) (f : Fid) (need : Nat) : State × Bool :=
  if need = 0 && (s.account.notice.get f).isNone then (s, true) else s.requestEnergy f need

/-- The requirement of a continuing ride is handed over (R11, R79, R80): no greater than R_f it is a lowering,
else an admission request for the difference. -/
def State.requestRide (s : State) (f : Fid) (need : Nat) : State × Bool :=
  let r := s.account.reserved.get f
  if need ≤ r then (s.putReserved f (min need r), true) else s.requestEnergy f (need - r)

/-! ## Consumption and release (R85, R86) -/

/-- Consumption of cost `c`, not below 0 (R85). -/
def State.consume (s : State) (f : Fid) (c : Nat) : State :=
  s.putReserved f (s.account.reserved.get f - c)

/-- The release of a reservation (R86). -/
def State.releaseEnergy (s : State) (f : Fid) : State := s.putReserved f 0

/-- A shed notice is taken by its feeder's controller and no longer outstanding (R84). -/
def State.clearNotice (s : State) (f : Fid) : State :=
  { s with account := { s.account with notice := s.account.notice.set f none } }

/-! ## Usable-figure updates (R76, R77) -/

/-- The victims between two states, lowest priority first, each with what was taken from it (R77). -/
def victimsBetween (before after : State) : List (Fid × Nat) :=
  (before.lowestFirst.filter fun f =>
      before.sheddable f && after.account.reserved.get f == 0).map
    fun f => (f, before.account.reserved.get f)

/-- An update with value `v` is installed; where it falls below Sum it sheds for shortfall first, and one
SHORTFALL record is made (R75, R76, R77). -/
def State.updateUsable (s : State) (v : Nat) : State :=
  let u := usableFigure s.settings v
  if s.sum ≤ u then s.putUsable u
  else
    let shed := s.shedUntil s.lowestFirst .shortfall (fun s' => decide (s'.sum ≤ u))
    (shed.putUsable u).handRecord
      (.shortfall v s.account.usable u s.sum shed.sum (victimsBetween s shed))

end Sys2Proof.Machine
end

