-- ==== Sys2Proof/Machine/Stager.lean ====
section
/-! DEFINITION. The reference stagers (chapter 6): results, assembly and judging of records, the pending reference,
records in commit and the page pair. -/

namespace Sys2Proof.Machine

/-! ## Results (R109, R110) -/

/-- What a result says besides its number, the half-cycle, the source and the page. -/
structure Finding where
  code : ResultCode
  ident : Option Ident
  clamped : Bool
  limited : Bool
  unflipped : Bool
  applied : Option Nat
  deriving DecidableEq, Repr

/-- A finding about a record that was not accepted. -/
def Finding.ofIdent (code : ResultCode) (i : Ident) : Finding :=
  { code := code, ident := some i, clamped := false, limited := false, unflipped := false, applied := none }

/-- A finding about an accepted record: CLAMPED is present on it whatever its ending (R109). -/
def Finding.ofRecord (code : ResultCode) (r : Accepted) : Finding :=
  { code := code, ident := some ⟨r.seq, r.target⟩, clamped := r.clamped, limited := false, unflipped := false,
    applied := none }

/-- The codes that make a REF_REJECTED record: all but COMMITTED, SUPERSEDED and NONE (R110). -/
def ResultCode.rejected : ResultCode → Bool
  | .committed => false
  | .superseded => false
  | .none => false
  | .abandoned => true
  | .broken => true
  | .incomplete => true
  | .checkFailed => true
  | .wrongFeeder => true
  | .duplicate => true
  | .late => true
  | .tooEarly => true
  | .notRiding => true
  | .stale => true
  | .refusedEnergy => true
  | .refusedByModulator => true
  | .linkFailed => true

/-- The result that feeder `f`'s stager makes of a finding, as things stand (R109). -/
def State.resultOf (s : State) (f : Fid) (x : Finding) : Result :=
  let g := s.stagers.get f
  { number := g.number + 1#8, code := x.code, clamped := x.clamped, limited := x.limited,
    unflipped := x.unflipped, ident := x.ident, judgedAt := (s.trackers.get f).hc, applied := x.applied,
    source := (s.ctl.get f).source, page := g.committed }

/-- Feeder `f`'s stager makes a result (R110). -/
def State.makeResult (s : State) (f : Fid) (x : Finding) : State :=
  let r := s.resultOf f x
  let s' := (s.putStager f { s.stagers.get f with latest := some r, number := r.number }).touchResult f
  if x.code.rejected then s'.handRecord (.refRejected f r) else s'

/-- A staged REF_REJECTED record of feeder `f` takes the source and the page as they are after the event. -/
def Record.settleSource (r : Record) (f : Fid) (src : Source) (p : Page) : Record :=
  match r.body with
  | .refRejected g x => if g = f then { r with body := .refRejected g { x with source := src, page := p } } else r
  | .sagClosed .. => r
  | .episodeClosed .. => r
  | .feederState .. => r
  | .phaseJump .. => r
  | .syncChange .. => r
  | .linkLadder .. => r
  | .shortfall .. => r
  | .busRefused .. => r
  | .ringIndexRefused .. => r
  | .tableLoaded .. => r
  | .tableRejected .. => r

/-- R109: the injection source and the committed page of a result are those AFTER the event that made it. `before`
is the state at the start of the event; a result of feeder `f` made since takes the values as they now are, in
the stager and in the records staged since (log entry 22). -/
def State.settleResults (s before : State) (f : Fid) : State :=
  let g := s.stagers.get f
  if g.number = (before.stagers.get f).number then s
  else
    let src := (s.ctl.get f).source
    let n := before.writer.staging.length
    let s' := s.putStager f
      { g with latest := g.latest.map fun r => { r with source := src, page := g.committed } }
    { s' with writer := { s'.writer with
        staging := s'.writer.staging.take n ++
          (s'.writer.staging.drop n).map fun r => r.settleSource f src g.committed } }

/-- An event of feeder `f`, with the results it makes settled at its end (R109). -/
def State.asEventOf (s : State) (f : Fid) (event : State → State) : State := (event s).settleResults s f

/-! ## The pending reference (R100, R101, R102) -/

/-- The pending reference, if there is one, is ended with a result. -/
def State.endPending (s : State) (f : Fid) (code : ResultCode) : State :=
  match (s.stagers.get f).pending with
  | none => s
  | some r => (s.putStager f { s.stagers.get f with pending := none }).makeResult f (.ofRecord code r)

/-- The distance of a target from the current half-cycle number (R97). -/
def distance (target hc : BitVec 8) : Nat := (target - hc).toNat

/-- R100 step 2: after the controller has acted, a reference still pending whose distance is neither 1 nor 2
is ended LATE. -/
def State.endLate (s : State) (f : Fid) : State :=
  match (s.stagers.get f).pending with
  | none => s
  | some r =>
    let d := distance r.target (s.trackers.get f).hc
    if d = 1 ∨ d = 2 then s else s.endPending f .late

/-- R100 step 1: the pending reference whose target is the half-cycle number this boundary begins. -/
def State.offered (s : State) (f : Fid) : Option Accepted :=
  (s.stagers.get f).pending.filter fun r => r.target == (s.trackers.get f).hc

/-- The offered reference is taken for commit and is no longer pending (R100, R103). -/
def State.takePending (s : State) (f : Fid) : State :=
  s.putStager f { s.stagers.get f with pending := none }

/-! ## Records in commit (R103, R106, R107) -/

/-- The record waiting in the request slot is settled. -/
def State.settleSlot (s : State) (f : Fid) (code : ResultCode) : State :=
  match (s.stagers.get f).inSlot with
  | none => s
  | some r => (s.putStager f { s.stagers.get f with inSlot := none }).makeResult f (.ofRecord code r)

/-- The record on the line is settled, with the applied a_max where a DONE settles it. -/
def State.settleLine (s : State) (f : Fid) (code : ResultCode) (applied : Option Nat) : State :=
  match (s.stagers.get f).onLine with
  | none => s
  | some r =>
    (s.putStager f { s.stagers.get f with onLine := none }).makeResult f
      { Finding.ofRecord code r with applied := applied }

/-- The record on the line is settled COMMITTED by a DONE in RIDE: the pages flip if it is the page owner,
else the flip is void (R105). `amax` is what the frame commanded. -/
def State.commitLine (s : State) (f : Fid) (applied amax : Nat) : State :=
  let g := s.stagers.get f
  match g.onLine with
  | none => s
  | some r =>
    let owns := decide (g.owner = some r)
    let g' := if owns then { g with onLine := none, committed := g.committed.other, owner := none }
              else { g with onLine := none }
    (s.putStager f g').makeResult f
      { Finding.ofRecord .committed r with
        limited := decide (applied < amax), unflipped := !owns, applied := some applied }

/-! ## Assembly and judging (R94-R99) -/

/-- The sequence and target fields of a word 0 (Formats 12.1). -/
def Ident.ofWord0 (w : Word) : Ident := ⟨w.extractLsb' 8 8, w.extractLsb' 16 8⟩

/-- The feeder field names feeder `f` and every source bit is zero (R96 step 4, Formats 12.1). -/
def namesFeeder (w0 : Word) (f : Fid) : Bool :=
  field w0 0 4 == f.val && field w0 4 4 == 0 && field w0 24 8 == 0

/-- The sum of words, carries out of bit 31 discarded (R173). -/
def wordSum (ws : List Word) : Word := ws.foldl (· + ·) 0#32

/-- One phase of a record: the amplitude clamped to the injection limit, the angle as written (R99). -/
def clampedInject (limit : Nat) (amp angle : Word) : Inject :=
  ⟨min limit (field amp 0 16), angle.extractLsb' 0 10⟩

/-- The accepted form of the record with word 0 `w0` and words 1-6 `ws`, at an injection limit (R99). -/
def acceptedRecord (limit serial : Nat) (w0 : Word) (ws : List Word) : Accepted :=
  let w := fun i => ws.getD i 0#32
  { serial := serial, seq := (Ident.ofWord0 w0).seq, target := (Ident.ofWord0 w0).target,
    ref := ⟨clampedInject limit (w 0) (w 1), clampedInject limit (w 2) (w 3), clampedInject limit (w 4) (w 5)⟩,
    clamped := decide (limit < field (w 0) 0 16) || decide (limit < field (w 2) 0 16) ||
      decide (limit < field (w 4) 0 16) }

/-- The distance's judgement (R97): LATE, passes, or TOO_EARLY. -/
def judgeDistance (d : Nat) : Option ResultCode :=
  if d = 1 ∨ d = 2 then none else if 3 ≤ d ∧ d ≤ 127 then some .tooEarly else some .late

/-- The judging of a completed record, in the order of R96: the first failing check gives the result; none
for a record that passes all seven. -/
def State.judgeRecord (s : State) (f : Fid) (a : Assembly) (w7 : Word) : Option ResultCode :=
  let ident := Ident.ofWord0 a.word0
  if a.broken then some .broken
  else if a.words.any Option.isNone then some .incomplete
  else if wordSum (a.word0 :: w7 :: a.words.map fun w => w.getD 0#32) != 0#32 then some .checkFailed
  else if !namesFeeder a.word0 f then some .wrongFeeder
  else if (s.stagers.get f).lastSeq == some ident.seq then some .duplicate
  else
    match judgeDistance (distance ident.target (s.trackers.get f).hc) with
    | some code => some code
    | none =>
      match (s.ctl.get f).state with
      | .watch => none
      | .ride => none
      | .off => some .notRiding
      | .arming => some .notRiding
      | .standby => some .notRiding
      | .recover => some .notRiding
      | .shed => some .notRiding
      | .fault => some .notRiding

/-- Acceptance (R99): clamping, supersession, pending, sequence, page owner. -/
def State.acceptRecord (s : State) (f : Fid) (a : Assembly) : State :=
  let g := s.stagers.get f
  let r := acceptedRecord (s.entry f).injectionLimit g.nextSerial a.word0 (a.words.map fun w => w.getD 0#32)
  let s' := s.endPending f .superseded
  s'.putStager f { s'.stagers.get f with
    pending := some r, lastSeq := some r.seq, owner := some r, nextSerial := g.nextSerial + 1 }

/-- An alias write clears the page owner (R104). -/
def State.disown (s : State) (f : Fid) : State := s.putStager f { s.stagers.get f with owner := none }

/-- A write of alias word 0 opens an assembly, abandoning one in progress (R94). -/
def State.aliasWord0 (s : State) (f : Fid) (be : BitVec 4) (v : Word) : State :=
  let s' :=
    match (s.stagers.get f).assembly with
    | none => s
    | some a => s.makeResult f (.ofIdent .abandoned (Ident.ofWord0 a.word0))
  s'.putStager f { s'.stagers.get f with
    assembly := some { word0 := enabledBytes be v, words := List.replicate 6 none, broken := be != allBytes } }

/-- A write of alias word 1 to 6 (R95). -/
def State.aliasMiddle (s : State) (f : Fid) (i : Nat) (be : BitVec 4) (v : Word) : State :=
  let g := s.stagers.get f
  match g.assembly with
  | none => s
  | some a =>
    s.putStager f { g with
      assembly := some
        (if be = allBytes then { a with words := a.words.set (i - 1) (some v) } else { a with broken := true }) }

/-- A write of alias word 7 completes the assembly, which is judged and ends (R96). -/
def State.aliasWord7 (s : State) (f : Fid) (be : BitVec 4) (v : Word) : State :=
  match (s.stagers.get f).assembly with
  | none => s
  | some a =>
    let a' := if be = allBytes then a else { a with broken := true }
    let s' := s.putStager f { s.stagers.get f with assembly := none }
    match s.judgeRecord f a' v with
    | some code => s'.makeResult f (.ofIdent code (Ident.ofWord0 a'.word0))
    | none => s'.acceptRecord f a'

/-- What the stager does with a write of the alias that the bus pass unit hands over: word index, byte
enables, value (R93-R96, R104). -/
def State.stagerWrite (s : State) (f : Fid) (i : Nat) (be : BitVec 4) (v : Word) : State :=
  let s' := s.disown f
  if i = 0 then s'.aliasWord0 f be v
  else if i = 7 then s'.aliasWord7 f be v
  else s'.aliasMiddle f i be v

end Sys2Proof.Machine
end

