-- ==== Sys2Proof/Machine/Link.lean ====
section
/-! DEFINITION. The modulator link controller (chapter 7): request slots, the arbiter, the line states and the retry
ladder. What a feeder does with a reply or a failure is in Feeder.lean. -/

namespace Sys2Proof.Machine

/-! ## The arbiter (R118) -/

/-- The request of feeder `f` leaves its slot and becomes the exchange in flight; a record it carries is from now on
on the line (R103, R113, R118). -/
def State.takeRequest (s : State) (f : Fid) (r : Request) : State :=
  let s' := { s with
    link := { s.link with
      line := .send, slots := s.link.slots.set f none,
      exchange := some { feeder := f, unit := (s.entry f).unit.setWidth 4, request := r, attempt := 1,
                         causes := [], discard := false } } }
  match r.record with
  | none => s'
  | some a => s'.putStager f { s'.stagers.get f with onLine := some a, inSlot := none }

/-- The first feeder in order of priority whose slot holds a request, with the request. -/
def State.nextRequest (s : State) : Option (Fid × Request) :=
  s.byPriority.findSome? fun f => (s.link.slots.get f).map fun r => (f, r)

/-- The arbiter acts with the line in IDLE (R118, R127): an owed RESYNC first, else the waiting request of the
highest priority, else the line stays IDLE. -/
def State.arbitrateLine (s : State) : State :=
  if s.link.resyncOwed then { s with link := { s.link with line := .resync, resyncOwed := false } }
  else
    match s.nextRequest with
    | some (f, r) => s.takeRequest f r
    | none => s

/-- The line enters IDLE and the arbiter acts (R118). -/
def State.lineIdle (s : State) : State :=
  State.arbitrateLine { s with link := { s.link with line := .idle } }

/-! ## Placing and emptying (R116, R117) -/

/-- A waiting request that a STATUSQ does not replace (R116). -/
def Request.keptAgainstStatusq : Request → Bool
  | .engage .. => true
  | .release _ => true
  | .statusq _ => false

/-- The request placed yields to the waiting one (R116). -/
def State.yields (s : State) (f : Fid) (r : Request) : Bool :=
  match r, s.link.slots.get f with
  | .statusq _, some w => w.keptAgainstStatusq
  | .statusq _, none => false
  | .engage .., _ => false
  | .release _, _ => false

/-- Feeder `f`'s controller places a request (R116). A record in the replaced request is settled SUPERSEDED
first; on an IDLE line the arbiter acts at once (R118; log entry 10). -/
def State.placeRequest (s : State) (f : Fid) (r : Request) : State :=
  if s.yields f r then s
  else
    let s' := s.settleSlot f .superseded
    let s' := s'.putStager f { s'.stagers.get f with inSlot := r.record }
    let s' := { s' with link := { s'.link with slots := s'.link.slots.set f (some r) } }
    if s'.link.line = .idle then s'.arbitrateLine else s'

/-- An exchange of feeder `f` takes its discard mark (R117, R124). -/
def Exchange.discardFor (x : Exchange) (f : Fid) : Exchange :=
  if x.feeder = f then { x with discard := true } else x

/-- Feeder `f`'s slot is emptied and its exchange in flight marked for discard (R117). -/
def State.emptySlot (s : State) (f : Fid) : State :=
  { s with link := { s.link with
      slots := s.link.slots.set f none, exchange := s.link.exchange.map fun x => x.discardFor f } }

/-! ## The line (R119-R122, R124, R128) -/

/-- The line enters SETTLE with the exchange `x`. -/
def State.lineSettle (s : State) (x : Option Exchange) : State :=
  { s with link := { s.link with line := .settle, exchange := x, wait := none } }

/-- The frame's last stop bit is sent: WAIT begins with the installed response timeout (R119, R127). -/
def State.frameEnd (s : State) : State :=
  match s.link.line with
  | .send => { s with link := { s.link with line := .wait, wait := some ⟨s.settings.timeout, 0⟩ } }
  | .idle => s
  | .wait => s
  | .receive => s
  | .settle => s
  | .resync => s
  | .quiet => s

/-- A reply's start bit is seen in WAIT (R119). -/
def State.replyStart (s : State) : State :=
  match s.link.line with
  | .wait => { s with link := { s.link with line := .receive, wait := none } }
  | .idle => s
  | .send => s
  | .receive => s
  | .settle => s
  | .resync => s
  | .quiet => s

/-- An attempt fails (R119-R122, R124): the state after it, with the exchange whose ladder this ends, if it ends
one and it is not discarded. -/
def State.failAttempt (s : State) (c : LinkCause) : State × Option Exchange :=
  match s.link.exchange with
  | none => (s.lineSettle none, none)
  | some x =>
    if x.discard then (s.lineSettle none, none)
    else if x.attempt < 5 then (s.lineSettle (some { x with causes := x.causes ++ [c] }), none)
    else (s.lineSettle none, some x)

/-- The next attempt of the exchange sends the same frame (R120, R121). -/
def State.resend (s : State) (x : Exchange) : State :=
  { s with link := { s.link with line := .send, exchange := some { x with attempt := x.attempt + 1 } } }

/-- The RESYNC step of the ladder, with its LINK_LADDER record (R121). -/
def State.ladderResync (s : State) (x : Exchange) : State :=
  State.handRecord { s with link := { s.link with line := .resync } }
    (.linkLadder x.feeder x.unit x.request.kind x.request.hc x.causes)

/-- The SETTLE interval has passed (R120, R121, R124, R128; log entry 32 for a mark set during SETTLE). -/
def State.settleEnd (s : State) : State :=
  match s.link.line with
  | .settle =>
    match s.link.exchange with
    | none => s.lineIdle
    | some x =>
      if x.discard then State.lineIdle { s with link := { s.link with exchange := none } }
      else if x.attempt < 4 then s.resend x
      else s.ladderResync x
  | .idle => s
  | .send => s
  | .wait => s
  | .receive => s
  | .resync => s
  | .quiet => s

/-- The last stop bit of a RESYNC is sent (R121, R128). -/
def State.resyncEnd (s : State) : State :=
  match s.link.line with
  | .resync => { s with link := { s.link with line := .quiet } }
  | .idle => s
  | .send => s
  | .wait => s
  | .receive => s
  | .settle => s
  | .quiet => s

/-- The QUIET interval has passed (R121, R124, R127, R128). -/
def State.quietEnd (s : State) : State :=
  match s.link.line with
  | .quiet =>
    match s.link.exchange with
    | none => s.lineSettle none
    | some x => if x.discard then s.lineSettle none else s.resend x
  | .idle => s
  | .send => s
  | .wait => s
  | .receive => s
  | .settle => s
  | .resync => s

end Sys2Proof.Machine
end

