-- ==== Sys2Proof/Machine/Feeder.lean ====
section
/-! DEFINITION. The feeder controllers (chapters 1 and 8): state changes with their entry actions, sag and episode
records, the boundary, replies, notices, alarms and clear requests. -/

namespace Sys2Proof.Machine

/-! ## Sag and episode records (R129-R138) -/

/-- The sag record of feeder `f` is changed, if one is open (R131). -/
def State.onSag (s : State) (f : Fid) (g : SagRecord → SagRecord) : State :=
  s.putCtl f { s.ctl.get f with sag := (s.ctl.get f).sag.map g }

/-- The rank of a closed sag (R137). -/
def SagRecord.rank (g : SagRecord) : WorstOutcome :=
  if g.toleranceExceeded then .tripped
  else
    match g.outcome with
    | some .tolerated => .tolerated
    | some .protect => .protect
    | some .shed => .shed
    | some .fault => .shed
    | some .off => .shed
    | none => .tolerated

/-- The higher of two ranks (R137). -/
def WorstOutcome.raise (w r : WorstOutcome) : WorstOutcome := if w.code < r.code then r else w

/-- A closed sag is added to its episode's totals (R137). -/
def Episode.addSag (e : Episode) (g : SagRecord) : Episode :=
  { e with riddenTotal := min 65535 (e.riddenTotal + g.ridden), worst := e.worst.raise g.rank }

/-- A sag is counted in the episode, which opens if none is open; the quiet counter is cancelled (R133). -/
def countSag (e : Option Episode) (onsetHc : BitVec 8) (onsetStamp : BitVec 32) : Episode :=
  match e with
  | none =>
    { sagCount := 1, riddenTotal := 0, worst := .tolerated, firstOnsetHc := onsetHc,
      firstOnsetStamp := onsetStamp, quiet := none }
  | some e => { e with sagCount := min 255 (e.sagCount + 1), quiet := none }

/-- A sag record as it opens (R129). -/
def SagRecord.opened (hc : BitVec 8) (stamp : BitVec 32) (residuals : Phases Nat) (interruption : Bool) :
    SagRecord :=
  { onsetHc := hc - 1#8, onsetStamp := stamp, minimum := residuals, duration := 1, ridden := 0, autoHold := 0,
    limited := false, clampedSeen := false, phaseJump := false, toleranceExceeded := false,
    interruption := interruption, largestGap := 0, outcome := none }

/-- Feeder `f` opens a sag record at an onset boundary and counts the sag; the rode count, the evaluator's
counters and the end confirm count are cleared (R7, R36, R65, R129, R133). -/
def State.openSag (s : State) (f : Fid) (residuals : Phases Nat) (interruption : Bool) : State :=
  let g := SagRecord.opened (s.trackers.get f).hc s.stamp residuals interruption
  let c := s.ctl.get f
  let s := s.putCtl f
    { c with rode := 0, sag := some g, episode := some (countSag c.episode g.onsetHc g.onsetStamp) }
  let s := s.putEval f ((s.evals.get f).openSag (s.curve f) residuals.minimum)
  s.putMonitor f { s.monitors.get f with endConfirm := 0 }

/-- Feeder `f`'s open sag record closes with an outcome (R132, R70, R137). -/
def State.closeSag (s : State) (f : Fid) (outcome : SagOutcome) : State :=
  match (s.ctl.get f).sag with
  | none => s
  | some g =>
    let g := { g with outcome := some outcome }
    let s := s.handRecord (.sagClosed f g)
    let c := s.ctl.get f
    let s := s.putCtl f { c with sag := none, episode := c.episode.map fun e => e.addSag g }
    s.putEval f (s.evals.get f).closeSag

/-- The episode's quiet counter starts at 0 (R134). -/
def State.startQuiet (s : State) (f : Fid) : State :=
  let c := s.ctl.get f
  s.putCtl f { c with episode := c.episode.map fun e => { e with quiet := some 0 } }

/-- Feeder `f`'s open episode closes with its record and is discarded (R135, R138). -/
def State.closeEpisode (s : State) (f : Fid) (cause : CloseCause) : State :=
  match (s.ctl.get f).episode with
  | none => s
  | some e =>
    let s := s.handRecord (.episodeClosed f e cause (s.trackers.get f).hc)
    s.putCtl f { s.ctl.get f with episode := none }

/-! ## State changes and their entry actions (R4, R5, R16, R19, R22) -/

/-- A change of feeder state: the state, its reason, and the FEEDER_STATE record (R4). -/
def State.setState (s : State) (f : Fid) (new : FeederState) (reason : Reason) : State :=
  let c := s.ctl.get f
  (s.putCtl f { c with state := new, reason := reason }).handRecord (.feederState f c.state new reason)

/-- The injection source becomes NONE. -/
def State.stopSource (s : State) (f : Fid) : State := s.putCtl f { s.ctl.get f with source := .none }

/-- What entry to FAULT and entry to OFF share after the state change (R19, R22, R107, R117, R132, R138): the
release, the stager's settlements, the slot, the open records. -/
def State.standDown (s : State) (f : Fid) (outcome : SagOutcome) (cause : CloseCause) : State :=
  let s := s.stopSource f
  let s := s.releaseEnergy f
  let s := s.settleLine f .notRiding none
  let s := s.settleSlot f .notRiding
  let s := s.endPending f .notRiding
  let s := s.emptySlot f
  let s := s.closeSag f outcome
  s.closeEpisode f cause

/-- Entry to FAULT (R19). -/
def State.enterFault (s : State) (f : Fid) (reason : Reason) : State :=
  let s := s.setState f .fault reason
  let s := s.putCtl f { s.ctl.get f with notReadyRun := 0 }
  s.standDown f .fault .fault

/-- A cause of R19 takes a feeder to FAULT from any state other than OFF and FAULT. -/
def State.fault (s : State) (f : Fid) (reason : Reason) : State :=
  match (s.ctl.get f).state with
  | .off => s
  | .fault => s
  | .arming => s.enterFault f reason
  | .standby => s.enterFault f reason
  | .watch => s.enterFault f reason
  | .ride => s.enterFault f reason
  | .recover => s.enterFault f reason
  | .shed => s.enterFault f reason

/-- The silence timer starts or restarts at the full silence limit (R40). -/
def State.startSilence (s : State) (f : Fid) : State :=
  s.putMonitor f { s.monitors.get f with silence := some s.settings.silenceLimit }

/-- Entry to ARMING, with the move on to FAULT where MALMn is asserted (R5, R40). -/
def State.enterArming (s : State) (f : Fid) (reason : Reason) : State :=
  let s := s.setState f .arming reason
  let s := s.putCtl f { s.ctl.get f with
    ready := false, notReadyRun := 0, rode := 0, source := .none, lastRef := Reference.zero }
  let s := s.startSilence f
  if s.malm.get f then s.enterFault f .alarm else s

/-- Entry to OFF at a reload (R22, R40). -/
def State.enterOff (s : State) (f : Fid) : State :=
  let s := (s.setState f .off .disabled).standDown f .off .off
  s.putMonitor f { s.monitors.get f with silence := none }

/-- A RELEASE is placed (R10, R16). -/
def State.placeRelease (s : State) (f : Fid) : State := s.placeRequest f (.release (s.trackers.get f).hc)

/-- Entry to SHED (R16). A pending reference takes the code `dropped`: NOT_RIDING, but REFUSED_ENERGY for the
record of a refused ride entry (R9). -/
def State.enterShed (s : State) (f : Fid) (reason : Reason) (dropped : ResultCode) : State :=
  let s := s.setState f .shed reason
  let s := s.releaseEnergy f
  let s := s.stopSource f
  let s := s.placeRelease f
  s.endPending f dropped

/-! ## References (R9, R11, R12) -/

/-- The autofill reference for residuals at an injection limit (R12). -/
def autofill (limit : Nat) (residuals : Phases Nat) : Reference :=
  residuals.map fun r => ⟨min limit (1000 - r), 0#10⟩

/-- The clamp lowers some phase of the autofill reference (R12). -/
def autofillClamped (limit : Nat) (residuals : Phases Nat) : Bool :=
  residuals.any fun r => decide (limit < 1000 - r)

/-- The autofill reference is formed; the sag record takes CLAMPED seen where the clamp lowers a phase (R12). The
residuals are those of the half-cycle just closed, or the last valid ones: `lastResiduals` once the boundary has
brought it up to date. -/
def State.formAutofill (s : State) (f : Fid) : State × Reference :=
  let limit := (s.entry f).injectionLimit
  let residuals := (s.ctl.get f).lastResiduals
  (if autofillClamped limit residuals then s.onSag f fun g => { g with clampedSeen := true } else s,
    autofill limit residuals)

/-- An ENGAGE for the half-cycle now beginning is placed (R9, R11, R126). -/
def State.placeEngage (s : State) (f : Fid) (ref : Reference) (source : Source) (record : Option Accepted) :
    State :=
  s.placeRequest f (.engage ref (s.trackers.get f).hc source (s.entry f).rehearsal record)

/-- An offered record is taken for commit; a clamped one marks the open sag record (R100, R103). -/
def State.takeRecord (s : State) (f : Fid) (r : Accepted) : State :=
  let s := s.takePending f
  if r.clamped then s.onSag f fun g => { g with clampedSeen := true } else s

/-- The state after the record that a choice rests on, if any, has been taken. -/
def State.takeChosen (s : State) (f : Fid) (record : Option Accepted) : State :=
  match record with
  | none => s
  | some r => s.takeRecord f r

/-- The entry reference is put to the account, and the feeder rides or is shed (R9). -/
def State.tryEntry (s : State) (f : Fid) (ref : Reference) (source : Source) (record : Option Accepted) : State :=
  let (s, granted) := s.requestEntry f (s.cost f ref * (s.entry f).rideLimit)
  if granted then
    let s := s.setState f .ride .admitted
    let s := s.putCtl f { s.ctl.get f with lastRef := ref }
    let s := s.takeChosen f record
    s.placeEngage f ref source record
  else s.enterShed f .noEnergy (if record.isSome then .refusedEnergy else .notRiding)

/-- The ride decision of a feeder in WATCH in a continuing sag (R9, R67). -/
def State.rideDecision (s : State) (f : Fid) : State :=
  match s.offered f with
  | some r => s.tryEntry f r.ref .record (some r)
  | none =>
    if (s.entry f).autofill && withinLead (s.evals.get f).ttt s.settings.lead then
      let (s, ref) := s.formAutofill f
      s.tryEntry f ref .autofill none
    else s

/-- HOLD: the last committed reference is repeated (R11, R12). -/
def State.hold (s : State) (f : Fid) : State := s.placeEngage f (s.ctl.get f).lastRef .hold none

/-- The requirement of a reference in a ride: its cost times the ride limit less the rode count (R11, R79). -/
def State.rideNeed (s : State) (f : Fid) (ref : Reference) : Nat :=
  s.cost f ref * ((s.entry f).rideLimit - (s.ctl.get f).rode)

/-- The choice of the reference for the half-cycle this boundary begins (R11). -/
def State.chooseReference (s : State) (f : Fid) : State :=
  match s.offered f with
  | some r =>
    let (s, granted) := s.requestRide f (s.rideNeed f r.ref)
    if granted then (s.takeRecord f r).placeEngage f r.ref .record (some r)
    else (s.endPending f .refusedEnergy).hold f
  | none =>
    if (s.entry f).autofill then
      let (s, ref) := s.formAutofill f
      let (s, granted) := s.requestRide f (s.rideNeed f ref)
      if granted then s.placeEngage f ref .autofill none else s.hold f
    else s.hold f

/-! ## The boundary (R6-R11, R15, R16, R130, R134-R136) -/

/-- What the monitor hands over with a boundary (R35). -/
structure Verdicts where
  residuals : Phases Nat
  valid : Bool
  onset : Bool
  interruption : Bool
  ended : Bool
  invalidLimit : Bool
  deriving DecidableEq, Repr

/-- The sag record is brought up to date for the half-cycle just closed (R130). -/
def SagRecord.update (g : SagRecord) (v : Verdicts) : SagRecord :=
  { g with
    duration := min 65535 (g.duration + 1)
    minimum := if v.valid then g.minimum.zip min v.residuals else g.minimum }

/-- The sag record of R130 and the last valid residuals of R2. -/
def FeederCtl.update (c : FeederCtl) (v : Verdicts) : FeederCtl :=
  { c with
    sag := c.sag.map fun g => g.update v
    lastResiduals := if v.valid then v.residuals else c.lastResiduals }

/-- An onset in STANDBY or RECOVER (R7, R15). -/
def State.takeOnset (s : State) (f : Fid) (v : Verdicts) : State :=
  let s := s.openSag f v.residuals v.interruption
  if v.interruption then s.enterShed f .interruption .notRiding
  else if ((s.ctl.get f).episode.map Episode.sagCount).getD 0 ≤ (s.entry f).sagLimit then
    (s.setState f .watch .onset).rideDecision f
  else s.enterShed f .episodeLimit .notRiding

/-- The open sag record takes the INTERRUPTION flag (R8, R10, R16, R131). -/
def State.flagInterruption (s : State) (f : Fid) : State := s.onSag f fun g => { g with interruption := true }

/-- ARMING (R6). -/
def State.armingBoundary (s : State) (f : Fid) : State :=
  if (s.trackers.get f).sync = .locked ∧ (s.ctl.get f).ready then s.setState f .standby .ready
  else s.placeRequest f (.statusq (s.trackers.get f).hc)

/-- STANDBY (R7). -/
def State.standbyBoundary (s : State) (f : Fid) (v : Verdicts) : State :=
  if v.onset then s.takeOnset f v
  else if v.invalidLimit then s.enterArming f .invalid
  else s

/-- WATCH (R8). -/
def State.watchBoundary (s : State) (f : Fid) (v : Verdicts) : State :=
  if v.invalidLimit then s.enterShed f .samplesInvalid .notRiding
  else if v.interruption then (s.flagInterruption f).enterShed f .interruption .notRiding
  else if v.ended then
    let s := (s.closeSag f .tolerated).startQuiet f
    (s.setState f .standby .sagEnd).endPending f .notRiding
  else s.rideDecision f

/-- RIDE (R10). -/
def State.rideBoundary (s : State) (f : Fid) (v : Verdicts) : State :=
  if v.invalidLimit then s.enterShed f .samplesInvalid .notRiding
  else if v.interruption then (s.flagInterruption f).enterShed f .interruption .notRiding
  else if v.ended then
    let s := (s.releaseEnergy f).stopSource f
    let s := (s.closeSag f .protect).startQuiet f
    let s := s.setState f .recover .sagEnd
    (s.placeRelease f).endPending f .notRiding
  else if (s.entry f).rideLimit ≤ (s.ctl.get f).rode then s.enterShed f .rideLimit .notRiding
  else s.chooseReference f

/-- RECOVER (R15). -/
def State.recoverBoundary (s : State) (f : Fid) (v : Verdicts) : State :=
  if v.onset then s.takeOnset f v
  else if v.invalidLimit then s.enterShed f .samplesInvalid .notRiding
  else s

/-- SHED (R16). -/
def State.shedBoundary (s : State) (f : Fid) (v : Verdicts) : State :=
  if v.onset then s.openSag f v.residuals v.interruption
  else if v.ended then (s.closeSag f .shed).startQuiet f
  else if v.interruption then s.flagInterruption f
  else s

/-- What the controller does with a boundary's verdicts, by its state. -/
def State.actOn (s : State) (f : Fid) (v : Verdicts) : State :=
  match (s.ctl.get f).state with
  | .off => s
  | .arming => s.armingBoundary f
  | .standby => s.standbyBoundary f v
  | .watch => s.watchBoundary f v
  | .ride => s.rideBoundary f v
  | .recover => s.recoverBoundary f v
  | .shed => s.shedBoundary f v
  | .fault => s

/-- The quiet counter of feeder `f`'s episode. -/
def State.quietCounter (s : State) (f : Fid) : Option Nat := (s.ctl.get f).episode.bind Episode.quiet

/-- The quiet counter would reach the episode window at this boundary (R134). -/
def State.quietExpires (s : State) (f : Fid) : Bool :=
  match s.quietCounter f with
  | none => false
  | some q => decide ((s.entry f).window ≤ q + 1)

/-- A running quiet counter increases by 1 (R134). -/
def State.advanceQuiet (s : State) (f : Fid) : State :=
  let c := s.ctl.get f
  s.putCtl f { c with episode := c.episode.map fun e => { e with quiet := e.quiet.map (· + 1) } }

/-- The quiet counter has reached the window: the episode closes, and a feeder in SHED goes to ARMING (R135). -/
def State.expire (s : State) (f : Fid) : State :=
  let s := s.closeEpisode f .window
  match (s.ctl.get f).state with
  | .shed => s.enterArming f .episodeClosed
  | .off => s
  | .arming => s
  | .standby => s
  | .watch => s
  | .ride => s
  | .recover => s
  | .fault => s

/-- The expiry taken before the verdicts: a feeder that the close took from SHED to ARMING does not act again at
this boundary (R135, R136: "the onset is ignored"). -/
def State.expireThenAct (s : State) (f : Fid) (v : Verdicts) : State :=
  match (s.ctl.get f).state with
  | .shed => s.expire f
  | .off => (s.expire f).actOn f v
  | .arming => (s.expire f).actOn f v
  | .standby => (s.expire f).actOn f v
  | .watch => (s.expire f).actOn f v
  | .ride => (s.expire f).actOn f v
  | .recover => (s.expire f).actOn f v
  | .fault => (s.expire f).actOn f v

/-- The verdicts taken before the expiry: the counter expires only if it is still running, that is, if they have
not cancelled it (R136). -/
def State.actThenExpire (s : State) (f : Fid) (v : Verdicts) : State :=
  let s := s.actOn f v
  if (s.quietCounter f).isSome then s.expire f else s

/-- What the boundary brings besides the expiry changes the outcome with the order: an onset that opens a record
(R136), or a change of state (log entry 6). -/
def State.expiryMeets (s : State) (f : Fid) (v : Verdicts) : Bool :=
  match (s.ctl.get f).state with
  | .standby => v.onset || v.invalidLimit
  | .recover => v.onset || v.invalidLimit
  | .shed => v.onset
  | .arming => decide ((s.trackers.get f).sync = .locked) && (s.ctl.get f).ready
  | .off => false
  | .watch => false
  | .ride => false
  | .fault => false

/-- The order of an expiry and the verdicts it meets, drawn from the free value of Config (R136; log entry 5). -/
def State.drawOrder (s : State) : State × Bool := ({ s with draws := s.draws + 1 }, Config.expiryFirst s.draws)

/-- The verdicts and the quiet counter at a boundary (R134, R135, R136). -/
def State.verdictsAndQuiet (s : State) (f : Fid) (v : Verdicts) : State :=
  if s.quietExpires f then
    if s.expiryMeets f v then
      let (s, first) := s.drawOrder
      if first then s.expireThenAct f v else s.actThenExpire f v
    else s.expireThenAct f v
  else (s.advanceQuiet f).actOn f v

/-- Step 4 of a boundary: the feeder controller and the stager receive it (R54, R100, R130). In OFF it is
ignored (R57; log entry 17). -/
def State.boundary (s : State) (f : Fid) (v : Verdicts) : State :=
  if (s.ctl.get f).state = .off then s
  else
    let s := s.putCtl f ((s.ctl.get f).update v)
    (s.verdictsAndQuiet f v).endLate f

/-! ## Between boundaries: tracker loss, jumps, gaps (R18, R28, R55) -/

/-- The tracker has gone to LOST, or to SEEK after a restart (R18). -/
def State.trackerLost (s : State) (f : Fid) : State :=
  match (s.ctl.get f).state with
  | .standby => s.enterArming f .sync
  | .watch => s.enterShed f .syncLost .notRiding
  | .ride => s.enterShed f .syncLost .notRiding
  | .recover => s.enterShed f .syncLost .notRiding
  | .arming => s
  | .shed => s
  | .fault => s
  | .off => s

/-- A bridged gap is handed over (R28, R131). -/
def State.bridgedGap (s : State) (f : Fid) (g : Nat) : State :=
  s.onSag f fun r => { r with largestGap := max r.largestGap g }

/-! ## Replies (R13-R15, R106, R123) -/

/-- A DONE to an ENGAGE reaches the feeder in RIDE (R13, R64, R85, R105, R131). -/
def State.engageDone (s : State) (f : Fid) (ref : Reference) (hc : BitVec 8) (source : Source) (applied : Nat) :
    State :=
  let s := s.consume f (s.cost f ref)
  let c := s.ctl.get f
  let auto := source == .autofill || source == .hold
  let s := s.putCtl f { c with
    rode := min 255 (c.rode + 1), lastRef := ref, source := source, notReadyRun := 0,
    sag := c.sag.map fun g => { g with
      ridden := min 255 (g.ridden + 1)
      autoHold := if auto then min 255 (g.autoHold + 1) else g.autoHold
      limited := g.limited || decide (applied < amax ref) } }
  let s := s.putEval f ((s.evals.get f).applyNotice hc (s.trackers.get f).hc)
  s.commitLine f applied (amax ref)

/-- NOT_READY to an ENGAGE reaches the feeder in RIDE (R14, R106). -/
def State.engageNotReady (s : State) (f : Fid) : State :=
  let s := s.putCtl f { s.ctl.get f with notReadyRun := min 4 ((s.ctl.get f).notReadyRun + 1) }
  let s := s.settleLine f .refusedByModulator none
  if 4 ≤ (s.ctl.get f).notReadyRun then s.fault f .modulator else s

/-- A reply to an ENGAGE (R13, R14, R106). -/
def State.engageReply (s : State) (f : Fid) (ref : Reference) (hc : BitVec 8) (source : Source) (r : Reply) :
    State :=
  if (s.ctl.get f).state = .ride then
    match r with
    | .done applied => s.engageDone f ref hc source applied
    | .notReady => s.engageNotReady f
    | .hot => (s.settleLine f .refusedByModulator none).fault f .modulator
    | .status _ => s
  else
    match r with
    | .done applied => s.settleLine f .notRiding (some applied)
    | .notReady => s.settleLine f .notRiding none
    | .hot => (s.settleLine f .notRiding none).fault f .modulator
    | .status _ => s

/-- The release is complete: a feeder in RECOVER goes to STANDBY (R15). -/
def State.released (s : State) (f : Fid) : State :=
  if (s.ctl.get f).state = .recover then s.setState f .standby .released else s

/-- A reply to a RELEASE (R14, R15). -/
def State.releaseReply (s : State) (f : Fid) (r : Reply) : State :=
  match r with
  | .done _ => s.released f
  | .notReady => s.released f
  | .hot => s.fault f .modulator
  | .status _ => s

/-- The modulator ready flag of a feeder in ARMING (R6, R123). -/
def State.setReady (s : State) (f : Fid) (ready : Bool) : State :=
  if (s.ctl.get f).state = .arming then s.putCtl f { s.ctl.get f with ready := ready } else s

/-- A reply to a STATUSQ (R6, R123). -/
def State.statusReply (s : State) (f : Fid) (r : Reply) : State :=
  match r with
  | .status .ready =>
    let s := s.setReady f true
    if (s.ctl.get f).state = .arming ∧ (s.trackers.get f).sync = .locked then s.setState f .standby .ready else s
  | .status .ramping => s.setReady f false
  | .status .hot => s.fault f .modulator
  | .notReady => s.setReady f false
  | .hot => s.fault f .modulator
  | .done _ => s

/-- A reply is handed to the feeder controller of its exchange (R123). -/
def State.handReply (s : State) (x : Exchange) (r : Reply) : State :=
  s.asEventOf x.feeder fun s =>
    match x.request with
    | .engage ref hc source _ _ => s.engageReply x.feeder ref hc source r
    | .release _ => s.releaseReply x.feeder r
    | .statusq _ => s.statusReply x.feeder r

/-- The retry ladder of an exchange has failed (R106, R122). -/
def State.ladderFailed (s : State) (x : Exchange) : State :=
  s.asEventOf x.feeder fun s => (s.settleLine x.feeder .linkFailed none).fault x.feeder .link

/-- An attempt fails, and the feeder is told where it was the last (R119, R122). -/
def State.attemptFails (s : State) (c : LinkCause) : State :=
  match s.failAttempt c with
  | (s', none) => s'
  | (s', some x) => s'.ladderFailed x

/-- A reply has arrived whole in RECEIVE and is judged (R119, R123, R124). -/
def State.replyComplete (s : State) (bytes : List Byte) (stops : Bool) : State :=
  if s.link.line = .receive then
    match s.link.exchange with
    | none => s.lineSettle none
    | some x =>
      match judgeReply x.request.kind x.unit bytes stops with
      | .error c => s.attemptFails c
      | .ok r => if x.discard then s.lineSettle none else (s.lineSettle none).handReply x r
  else s

/-- The response timeout expires in WAIT (R119). -/
def State.responseTimeout (s : State) : State :=
  if s.link.line = .wait then s.attemptFails .noReply else s

/-- The reply breaks off (R119). -/
def State.replyBreakOff (s : State) : State :=
  if s.link.line = .receive then s.attemptFails .malformed else s

/-! ## Notices, alarms and clear requests (R17, R20, R21) -/

/-- The reason a shed notice carries (R17). -/
def ShedCause.reason : ShedCause → Reason
  | .preempted => .preempted
  | .shortfall => .shortfall

/-- Feeder `f`'s controller takes its shed notice (R17, R84). -/
def State.takeNotice (s : State) (f : Fid) : State :=
  match s.account.notice.get f with
  | none => s
  | some cause =>
    s.asEventOf f fun s =>
      let s := s.clearNotice f
      if (s.ctl.get f).state = .ride then s.enterShed f cause.reason .notRiding else s

/-- MALMn is asserted (R20). -/
def State.alarm (s : State) (f : Fid) : State :=
  State.asEventOf { s with malm := s.malm.set f true } f fun s => s.fault f .alarm

/-- A clear request reaches feeder `f`'s controller (R21). -/
def State.clearFeeder (s : State) (f : Fid) : State :=
  if (s.ctl.get f).state = .fault then
    if s.malm.get f then s.handRecord (.feederState f .fault .fault .clearRefused)
    else s.enterArming f .cleared
  else s

/-- A write of the CLEAR word: each named feeder in order of feeder number (R21; log entry 16). -/
def State.clearWord (s : State) (be : BitVec 4) (v : Word) : State :=
  if be = allBytes then
    Fid.all.foldl (fun s f => if flag v f.val then s.clearFeeder f else s) s
  else s

end Sys2Proof.Machine
end

