-- ==== Sys2Proof/Machine/Monitor.lean ====
section
/-! DEFINITION. The sample monitors (chapter 2) and the steps of a boundary (R54): groups, gaps, instants, residuals,
verdicts, silence, and the DC-link monitor. -/

namespace Sys2Proof.Machine

/-! ## Accumulators and residuals (R23, R32-R34) -/

/-- The largest sum of squares an accumulator holds (R23). -/
def sumLimit : Nat := 2 ^ 48 - 1

/-- The square of a signed sample. -/
def square (v : Sample) : Nat := v.toInt.natAbs * v.toInt.natAbs

/-- The sum after one phase of an instant: a present phase adds its square (R32). -/
def addSquare (v : Option Sample) (sum : Nat) : Nat :=
  match v with
  | none => sum
  | some v => min sumLimit (sum + square v)

/-- The count after one phase of an instant (R32). -/
def addCount (v : Option Sample) (count : Nat) : Nat :=
  match v with
  | none => count
  | some _ => min 65535 (count + 1)

/-- An instant is accumulated, with the invalid mark of an unbridged group (R29, R32). -/
def Accum.add (a : Accum) (x : Phases (Option Sample)) (mark : Bool) : Accum :=
  { sum := x.zip addSquare a.sum, count := x.zip addCount a.count, mark := a.mark || mark }

/-- Two accumulators together, their marks combined (R33). -/
def Accum.join (a b : Accum) : Accum :=
  { sum := a.sum.zip (fun x y => min sumLimit (x + y)) b.sum
    count := a.count.zip (fun x y => min 65535 (x + y)) b.count, mark := a.mark || b.mark }

/-- The test of R34: the residual is at least `r`. -/
def residualAtLeast (sum count nominal r : Nat) : Bool := decide (r * r * nominal * count ≤ 1000000 * sum)

/-- One step of the search for the largest residual: the bit is kept if the test still holds. -/
def residualStep (sum count nominal acc bit : Nat) : Nat :=
  if residualAtLeast sum count nominal (acc + bit) then acc + bit else acc

/-- The residual of a phase (R34). -/
def residual (sum count nominal : Nat) : Nat :=
  if count = 0 then 0
  else min 1999 ([1024, 512, 256, 128, 64, 32, 16, 8, 4, 2, 1].foldl (residualStep sum count nominal) 0)

/-- The residuals of a closed half-cycle (R34). -/
def Accum.residuals (a : Accum) (nominal : Nat) : Phases Nat := a.sum.zip (fun s c => residual s c nominal) a.count

/-- The closed half-cycle is valid: no mark, and at least N/2 samples on every phase (R33). -/
def Accum.valid (a : Accum) (n : Nat) : Bool := !a.mark && a.count.all fun c => decide (n / 2 ≤ c)

/-! ## Verdicts (R35-R39) -/

/-- The end confirm count after a closed half-cycle (R38), and whether it confirms the end. -/
def confirmEnd (sagOpen valid recovered : Bool) (count : Nat) : Nat × Bool :=
  if !sagOpen || !valid then (count, false)
  else if !recovered then (0, false)
  else if 2 ≤ count + 1 then (0, true)
  else (count + 1, false)

/-- The invalid run after a closed half-cycle (R39). -/
def runOn (valid : Bool) (run : Nat) : Nat := if valid then 0 else min 255 (run + 1)

/-- The verdicts of a closed half-cycle, with the monitor's counts after it (R35-R39). `sagOpen` is whether the
feeder has a sag record open. -/
def Monitor.judge (m : Monitor) (g : Settings) (sagOpen valid : Bool) (residuals : Phases Nat) :
    Monitor × Verdicts :=
  let confirm := confirmEnd sagOpen valid (residuals.all fun r => decide (g.recovery ≤ r)) m.endConfirm
  let run := Machine.runOn valid m.invalidRun
  ({ m with endConfirm := confirm.1, invalidRun := run },
    { residuals := residuals, valid := valid,
      onset := valid && !sagOpen && residuals.any fun r => decide (r < g.onset),
      interruption := valid && residuals.all fun r => decide (r < g.interruption),
      ended := confirm.2,
      invalidLimit := !valid && run == g.invalidLimit })

/-! ## The steps of a boundary (R54-R56, R68) -/

/-- A SYNC_CHANGE record, unless the feeder is in OFF (R56). Its coast count is the one held before the instant
that changed the state: R48 and R49 raise the count and then change the state, and R56's "before the change" does
not say which of the two it means. That is the model's choice (log entry 39). -/
def State.recordSync (s : State) (f : Fid) (old : Tracker) (cause : SyncCause) : State :=
  if (s.ctl.get f).state = .off then s
  else s.handRecord
    (.syncChange f old.sync (s.trackers.get f).sync cause old.coast (s.trackers.get f).hc)

/-- Step 1: a change of sync state makes its record and reaches the controller (R54, R18; log entry 14). -/
def State.reportSync (s : State) (f : Fid) (old : Tracker) : State :=
  let new := (s.trackers.get f).sync
  if old.sync = new then s
  else
    let s := s.recordSync f old (changeCause old.sync new)
    if new = .lost then s.trackerLost f else s

/-- Step 2: a phase jump makes its record, the pending reference STALE, and marks the open sag (R55, R101). -/
def State.reportJump (s : State) (f : Fid) (prior : Sync) (jump : Option Int) : State :=
  match jump with
  | none => s
  | some offset =>
    let s :=
      if (s.ctl.get f).state = .off then s
      else s.handRecord (.phaseJump f offset prior (s.trackers.get f).hc)
    (s.endPending f .stale).onSag f fun g => { g with phaseJump := true }

/-- The evaluator's part of step 3: counters, time-to-trip, and the exceeded curve (R62, R63, R66, R68, R69). -/
def State.evaluate (s : State) (f : Fid) (valid : Bool) (residuals : Phases Nat) : State :=
  let (e, newly) := (s.evals.get f).close (s.curve f) valid residuals
  let s := s.putEval f e
  if newly then (s.onSag f fun g => { g with toleranceExceeded := true }).raise Condition.tripped.mask else s

/-- Step 3: the half-cycle closes, with its residuals and verdicts (R33-R39). -/
def State.closeHalfCycle (s : State) (f : Fid) (closed : Accum) : State × Verdicts :=
  let residuals := closed.residuals (s.entry f).nominal
  let valid := closed.valid s.settings.n
  let (m, v) := (s.monitors.get f).judge s.settings (s.ctl.get f).sag.isSome valid residuals
  ((s.putMonitor f m).evaluate f valid residuals, v)

/-- The four steps of a boundary, in the one event of its instant (R54). -/
def State.atBoundary (s : State) (f : Fid) (old : Tracker) (jump : Option Int) (closed : Accum) : State :=
  s.asEventOf f fun s =>
    let s := s.reportSync f old
    let s := s.reportJump f old.sync jump
    let (s, v) := s.closeHalfCycle f closed
    s.boundary f v

/-! ## Instants (R31-R33) -/

/-- One sample instant: what each phase adds, the sign of phase A, and the mark of an unbridged group. -/
structure Instant where
  values : Phases (Option Sample)
  sign : Sign
  mark : Bool
  deriving DecidableEq, Repr

/-- The sign of a sample; zero counts as positive (R31). -/
def Sample.sign (v : Sample) : Sign := if v.msb then .negative else .positive

/-- The instant goes into the head when the tracker's count for it is N or less or not started, else into the
tail (R32). -/
def goesToHead (n : Nat) (count : Option Nat) : Bool :=
  match count with
  | none => true
  | some c => decide (c ≤ n)

/-- The instant is accumulated (R29, R32). -/
def State.accumulate (s : State) (f : Fid) (x : Instant) : State :=
  let m := s.monitors.get f
  s.putMonitor f
    (if goesToHead s.settings.n (s.trackers.get f).count then { m with head := m.head.add x.values x.mark }
     else { m with tail := m.tail.add x.values x.mark })

/-- The monitor acts on the tracker's answer, before the instant is accumulated (R32, R33). -/
def State.onAnswer (s : State) (f : Fid) (old : Tracker) (a : TrackAnswer) (jump : Option Int) : State :=
  let m := s.monitors.get f
  match a with
  | .noBoundary => s
  | .countStarted => s.putMonitor f { m with head := Accum.empty, tail := Accum.empty }
  | .boundaryHere =>
    (s.putMonitor f { m with head := Accum.empty, tail := Accum.empty }).atBoundary f old jump (m.head.join m.tail)
  | .boundaryAtN =>
    (s.putMonitor f { m with head := m.tail, tail := Accum.empty }).atBoundary f old jump m.head

/-- An instant: the tracker takes its sign, the monitor acts on the answer, the instant is accumulated (R31). -/
def State.takeInstant (s : State) (f : Fid) (x : Instant) : State :=
  let old := s.trackers.get f
  let t := old.instant s.settings x.sign
  ((s.putTracker f t.tracker).onAnswer f old t.answer t.jump).accumulate f x

/-- A list of instants, in order. -/
def State.takeInstants (s : State) (f : Fid) (xs : List Instant) : State :=
  xs.foldl (fun s x => s.takeInstant f x) s

/-! ## Groups (R25-R30) -/

/-- The classes of a completed group (R27). -/
inductive GroupClass where
  | first | normal
  | bridged (g : Nat)
  | unbridged | restart
  deriving DecidableEq, Repr

/-- The gap before sequence `q` after the held sequence (R27). -/
def gap (held q : BitVec 16) : Nat := (q - held - 1#16).toNat

/-- The class of a group with sequence `q` (R27). -/
def classifyGroup (bridge : Nat) (held : Option (BitVec 16)) (q : BitVec 16) : GroupClass :=
  match held with
  | none => .first
  | some h =>
    let g := gap h q
    if g = 0 then .normal
    else if g ≤ bridge then .bridged g
    else if g < 1024 then .unbridged
    else .restart

/-- A phase of a completed group: its sample if it is written and its valid flag is set (R26 step 1). -/
def settlePhase (slot : PhaseSlot) (flagged : Bool) : Option Sample :=
  match slot with
  | .written v => if flagged then some v else none
  | .notWritten => none
  | .missing => none

/-- The valid flags of a stamp (Formats 12.1). -/
def stampFlags (v : Word) : Phases Bool := ⟨flag v 16, flag v 17, flag v 18⟩

/-- The tracker is sent to SEEK with a cause, whatever its state; a change of state is recorded (R53, R56). -/
def State.sendToSeek (s : State) (f : Fid) (cause : SyncCause) : State :=
  let old := s.trackers.get f
  let s := s.putTracker f old.toSeek
  if old.sync = .seek then s else s.recordSync f old cause

/-- The accumulators, the invalid run and the end confirm count are cleared (R30, R40, R43). -/
def Monitor.clearCounts (m : Monitor) : Monitor :=
  { m with head := Accum.empty, tail := Accum.empty, invalidRun := 0, endConfirm := 0 }

/-- The restart actions (R30), with the controller's part (R18). -/
def State.samplerRestart (s : State) (f : Fid) : State :=
  let was := (s.trackers.get f).sync
  let s := s.putMonitor f (s.monitors.get f).clearCounts
  s.asEventOf f fun s =>
    let s := s.sendToSeek f .restart
    if was = .seek then s else s.trackerLost f

/-- The bridged instant: all three phases at their last valid values (R28). -/
def bridgedInstant (last : Phases Sample) : Instant :=
  { values := last.map some, sign := Sample.sign last.a, mark := false }

/-- What the class of a group brings before its own instant (R28, R30; log entry 15). `last` holds the last
valid values before this group. -/
def State.beforeOwn (s : State) (f : Fid) (c : GroupClass) (last : Phases Sample) : State :=
  match c with
  | .first => s
  | .normal => s
  | .unbridged => s
  | .bridged g => (s.takeInstants f (List.replicate g (bridgedInstant last))).bridgedGap f g
  | .restart => s.samplerRestart f

/-- The silence timer restarts at a completed group, unless the feeder is in OFF (R26, R40). -/
def State.restartSilence (s : State) (f : Fid) : State :=
  if (s.ctl.get f).state = .off then s else s.startSilence f

/-- A full write of the stamp word completes the group (R26). -/
def State.completeGroup (s : State) (f : Fid) (v : Word) : State :=
  let m := s.monitors.get f
  let settled := m.assembly.zip settlePhase (stampFlags v)
  let last := settled.zip (fun x l => x.getD l) m.lastValid
  let q := v.extractLsb' 0 16
  let c := classifyGroup s.settings.bridgeLimit m.seq q
  let own : Instant := { values := settled, sign := Sample.sign last.a, mark := decide (c = .unbridged) }
  let s := s.putMonitor f { m with lastValid := last, seq := some q }
  let s := (s.beforeOwn f c m.lastValid).takeInstant f own
  let s := s.putMonitor f { s.monitors.get f with assembly := Phases.replicate .notWritten }
  s.restartSilence f

/-- What a write of a phase word leaves (R25). -/
def phaseWritten (be : BitVec 4) (v : Word) : PhaseSlot :=
  if be = allBytes then .written (v.extractLsb' 0 16) else .missing

/-- A write in feeder `f`'s SAMPLE window, by the word's place in its group (R25, R26). -/
def State.sampleWrite (s : State) (f : Fid) (place : BitVec 2) (be : BitVec 4) (v : Word) : State :=
  let m := s.monitors.get f
  let x := phaseWritten be v
  match place with
  | 0#2 => s.putMonitor f { m with assembly := { m.assembly with a := x } }
  | 1#2 => s.putMonitor f { m with assembly := { m.assembly with b := x } }
  | 2#2 => s.putMonitor f { m with assembly := { m.assembly with c := x } }
  | _ => if be = allBytes then s.completeGroup f v else s

/-! ## Silence (R40) -/

/-- Feeder `f`'s silence timer expires (R40). A stopped timer does not expire (log entry 3). -/
def State.silenceExpires (s : State) (f : Fid) : State :=
  match (s.monitors.get f).silence with
  | none => s
  | some _ =>
    s.asEventOf f fun s =>
      let s := s.fault f .noSamples
      let s := s.putMonitor f
        { (s.monitors.get f).clearCounts with
          assembly := Phases.replicate .notWritten, seq := none, silence := none }
      s.sendToSeek f .silence

/-! ## The DC-link monitor (R41, R42) -/

/-- A write in the DCLINK window (R41, R42). -/
def State.dclinkTake (s : State) (be : BitVec 4) (v : Word) : State :=
  let q := v.extractLsb' 16 16
  if be ≠ allBytes ∨ s.dclink.lastSeq = some q then s
  else if s.settings.dcInterval ≤ s.dclink.count + 1 then
    State.updateUsable { s with dclink := { lastSeq := some q, count := 0 } } (field v 0 16)
  else { s with dclink := { lastSeq := some q, count := s.dclink.count + 1 } }

end Sys2Proof.Machine
end

