-- ==== Sys2Proof/Machine/Table.lean ====
section
/-! DEFINITION. The control table: its layout in words (Formats 12.1) and its validation (R168). -/

namespace Sys2Proof.Machine

/-! ## Layout (Formats 12.1) -/

/-- Word `i` of an image. -/
def tableWord (ws : List Word) (i : Nat) : Word := ws.getD i 0#32

/-- The length field of a table. -/
def tableLength (ws : List Word) : Nat := field (tableWord ws 1) 0 10

/-- The first word of feeder `f`'s entry. -/
def entryWord (f : Fid) : Nat := 10 + 4 * f.val

/-- The first word of curve `c`. -/
def curveWord (c : Fid) : Nat := 42 + 7 * c.val

/-- The first word of window entry `k`. -/
def windowWord (k : Nat) : Nat := 99 + 2 * k

/-- The global settings (words 4 to 9). -/
def parseSettings (ws : List Word) : Settings :=
  let w := tableWord ws
  { n := field (w 4) 0 8, w := field (w 4) 8 8, coastLimit := field (w 4) 16 8, bridgeLimit := field (w 4) 24 8,
    onset := field (w 5) 0 16, interruption := field (w 5) 16 16,
    recovery := field (w 6) 0 16, invalidLimit := field (w 6) 16 8, lead := field (w 6) 24 8,
    silenceLimit := field (w 7) 0 16, dcInterval := field (w 7) 16 8, timeout := field (w 7) 24 8,
    floor := field (w 8) 0 16, scale := field (w 8) 16 16,
    mask := (w 9).extractLsb' 0 8, ringThreshold := field (w 9) 16 13 }

/-- A feeder entry. -/
def parseEntry (ws : List Word) (f : Fid) : Entry :=
  let w := fun i => tableWord ws (entryWord f + i)
  { enabled := flag (w 0) 0, autofill := flag (w 0) 1, rehearsal := flag (w 0) 2,
    priority := Fin.ofNat 8 (field (w 0) 4 3), curve := Fin.ofNat 8 (field (w 0) 8 3), unit := (w 0).extractLsb' 12 3,
    sagLimit := field (w 0) 16 4, injectionLimit := field (w 1) 0 16, rating := field (w 1) 16 8,
    rideLimit := field (w 1) 24 8, nominal := (w 2).toNat, window := field (w 3) 0 16 }

/-- A breakpoint word. -/
def parseBreakpoint (w : Word) : Breakpoint := ⟨field w 0 10, field w 16 10⟩

/-- The breakpoint count of a curve. -/
def curveCount (ws : List Word) (c : Fid) : Nat := field (tableWord ws (curveWord c)) 0 3

/-- The breakpoints of a curve, in table order. -/
def parseCurve (ws : List Word) (c : Fid) : List Breakpoint :=
  (List.range (curveCount ws c)).map fun k => parseBreakpoint (tableWord ws (curveWord c + 1 + k))

/-- The window kinds (Formats 12.1); other values are unknown. -/
def parseKind (k : Nat) : Option WindowKind :=
  match k with
  | 1 => some .sample
  | 2 => some .dclink
  | 3 => some .reference
  | 4 => some .control
  | 5 => some .ring
  | 6 => some .mirror
  | 7 => some .guard
  | _ => none

/-- Window entry `k`, where its kind is known. -/
def parseWindow (ws : List Word) (k : Nat) : Option WindowEntry :=
  let w := tableWord ws (windowWord k + 1)
  (parseKind (field w 0 4)).map fun kind =>
    { kind := kind, feeder := Fin.ofNat 8 (field w 4 3), base := tableWord ws (windowWord k),
      sizeLog := field w 8 5 }

/-- The window count. -/
def windowCount (ws : List Word) : Nat := field (tableWord ws 98) 0 6

/-- The table that an image holds. -/
def parseTable (ws : List Word) : Table :=
  { length := tableLength ws, identity := tableWord ws 2, settings := parseSettings ws,
    entries := Per8.ofFn (parseEntry ws), curves := Per8.ofFn (parseCurve ws),
    windows := (List.range (windowCount ws)).filterMap (parseWindow ws) }

/-! ## Ranges (R168 step 4; log entry 18 for the index each item carries) -/

/-- A check: the word it names when it fails, and whether it holds. -/
abbrev Check := Nat × Bool

/-- The word of the first failing check. -/
def firstFailing (cs : List Check) : Option Nat := (cs.find? fun c => !c.2).map Prod.fst

/-- `lo ≤ x ≤ hi`. -/
def between (lo x hi : Nat) : Bool := decide (lo ≤ x) && decide (x ≤ hi)

/-- The bits of a word outside a mask are zero. -/
def onlyBits (w mask : Word) : Bool := w &&& ~~~mask == 0#32

/-- The ranges of the length word and of the global settings (R24, Formats 12.1). -/
def settingsChecks (ws : List Word) : List Check :=
  let w := tableWord ws
  let g := parseSettings ws
  [(1, onlyBits (w 1) 0x3FF#32),
    (4, between 16 g.n 128), (4, between 1 g.w (g.n / 8)), (4, between 1 g.coastLimit 16),
    (4, between 0 g.bridgeLimit 7),
    (5, between 300 g.onset 999), (5, between 0 g.interruption 299),
    (6, between 300 g.recovery 1000), (6, between 1 g.invalidLimit 8), (6, between 0 g.lead 8),
    (7, between 1000 g.silenceLimit 30000), (7, between 1 g.dcInterval 64), (7, between 16 g.timeout 255),
    (8, between 1 g.scale 65535),
    (9, onlyBits (w 9) 0x1FFF00FF#32)]

/-- The ranges of a feeder entry (R1, Formats 12.1). -/
def entryChecks (ws : List Word) (f : Fid) : List Check :=
  let i := entryWord f
  let e := parseEntry ws f
  [(i, between 1 e.sagLimit 8), (i, onlyBits (tableWord ws i) 0x000F7777#32),
    (i + 1, between 100 e.injectionLimit 1000), (i + 1, between 1 e.rating 255),
    (i + 1, between 1 e.rideLimit 255),
    (i + 2, decide (1 ≤ e.nominal)),
    (i + 3, between 10 e.window 6000), (i + 3, onlyBits (tableWord ws (i + 3)) 0x0000FFFF#32)]

/-- Breakpoint word `k` (from 0) of a curve: its level in range, or zero beyond the count (R59). -/
def breakpointCheck (ws : List Word) (c : Fid) (k : Nat) : Check :=
  let w := tableWord ws (curveWord c + 1 + k)
  (curveWord c + 1 + k,
    if k < curveCount ws c then decide ((parseBreakpoint w).level ≤ 999) else w == 0#32)

/-- The ranges of a curve (R59). -/
def curveChecks (ws : List Word) (c : Fid) : List Check :=
  (curveWord c, between 1 (curveCount ws c) 6) :: (List.range 6).map (breakpointCheck ws c)

/-- A base aligned to the size with logarithm `log`. -/
def alignedTo (base : Word) (log : Nat) : Bool := base.toNat % 2 ^ log == 0

/-- The ranges of window entry `k` (R168 step 4). The alignment of the base is judged only where the size is in range, so
that an entry with a size out of range is named by its second word whatever its base. R168 does not say which of the two
words such an entry is named by; that is the model's choice (DESIGN CHOICE, log entry 48). -/
def windowChecks (ws : List Word) (k : Nat) : List Check :=
  let i := windowWord k
  let w := tableWord ws (i + 1)
  let log := field w 8 5
  [(i, decide (i + 2 ≤ tableLength ws)),
    (i, !between 5 log 24 || alignedTo (tableWord ws i) log),
    (i + 1, (parseKind (field w 0 4)).isSome),
    (i + 1, between 5 log 24),
    (i + 1, field w 0 4 != 3 || log == 7)]

/-- All the checks of step 4, in word order. -/
def rangeChecks (ws : List Word) : List Check :=
  settingsChecks ws ++ Fid.all.flatMap (entryChecks ws) ++ Fid.all.flatMap (curveChecks ws) ++
    [(98, between 1 (windowCount ws) 32), (98, onlyBits (tableWord ws 98) 0x3F#32)] ++
    (List.range (windowCount ws)).flatMap (windowChecks ws)

/-! ## Steps 5 to 8 (R168) -/

/-- The later entry of the first clashing pair of enabled feeders under a key (step 5). -/
def firstClash {κ : Type} [DecidableEq κ] (t : Table) (key : Entry → κ) : Option Fid :=
  Fid.all.find? fun j => (t.entries.get j).enabled && Fid.all.any fun i =>
    decide (i.val < j.val) && (t.entries.get i).enabled &&
      decide (key (t.entries.get i) = key (t.entries.get j))

/-- Levels and durations strictly decrease (R59, step 6). -/
def strictlyDecreasing : List Breakpoint → Bool
  | [] => true
  | b :: rest =>
    (match rest with
      | [] => true
      | b' :: _ => decide (b'.level < b.level) && decide (b'.duration < b.duration)) && strictlyDecreasing rest

/-- The first curve out of order (step 6). -/
def firstUnordered (t : Table) : Option Fid := Fid.all.find? fun c => !strictlyDecreasing (t.curves.get c)

/-- The table has a RING window as step 7 asks. -/
def hasRing (t : Table) : Bool :=
  t.windows.any fun w =>
    w.kind == .ring && between 16 w.slots 4096 && between 1 t.settings.ringThreshold w.slots

/-- The table has a MIRROR window as step 7 asks. -/
def hasMirror (t : Table) : Bool := t.windows.any fun w => w.kind == .mirror && decide (160 ≤ w.size)

/-- The windows an enabled feeder lacks, SAMPLE before REFERENCE (step 7). -/
def lackingFor (t : Table) (f : Fid) : List (WindowKind × Option Fid) :=
  if (t.entries.get f).enabled then
    (if (t.windowOf .sample f).isSome then [] else [(.sample, some f)]) ++
      (if (t.windowOf .reference f).isSome then [] else [(.reference, some f)])
  else []

/-- The windows the table lacks, in the order of step 7. -/
def lacking (t : Table) : List (WindowKind × Option Fid) :=
  (if (t.window .control).isSome then [] else [(.control, none)]) ++
    (if hasMirror t then [] else [(.mirror, none)]) ++
    (if hasRing t then [] else [(.ring, none)]) ++
    Fid.all.flatMap (lackingFor t)

/-- Two entries may not stand in one table (step 8). -/
def WindowEntry.duplicates (a b : WindowEntry) : Bool :=
  a.kind == b.kind && a.kind != .guard &&
    (match a.kind with
      | .sample => a.feeder == b.feeder
      | .reference => a.feeder == b.feeder
      | .dclink => true
      | .control => true
      | .ring => true
      | .mirror => true
      | .guard => false)

/-- The first entry that an earlier one already stands for (step 8; log entry 33). -/
def firstDuplicate (ws : List WindowEntry) : Option Nat :=
  (List.range ws.length).find? fun j => match ws[j]? with
    | none => false
    | some b => (ws.take j).any fun a => a.duplicates b

/-! ## Validation (R168) -/

/-- A rejection that carries at most a word index. -/
def Reject.at (reason : RejectReason) (index : Option Nat) : Reject :=
  { reason := reason, index := index, kind := none, feeder := none }

/-- Steps 1 and 2, made on the header (R167 step 2, R168). -/
def headerReject (ws : List Word) : Option Reject :=
  if tableWord ws 0 != Config.signature then some (.at .signature (some 0))
  else if !between Config.fixedWords (tableLength ws) Config.maxWords then some (.at .length (some 1))
  else none

/-- Steps 5 to 8, made on the parsed table. R168 carries 'word of the first curve that fails' and 'word of the later
entry' for steps 6 and 8, where a curve has seven words and a window entry two: that the first of them is named is the
model's choice (log entry 44). -/
def structureReject (t : Table) : Option Reject :=
  match firstClash t Entry.priority with
  | some f => some (.at .priority (some (entryWord f)))
  | none =>
    match firstClash t Entry.unit with
    | some f => some (.at .unit (some (entryWord f)))
    | none =>
      match firstUnordered t with
      | some c => some (.at .curveOrder (some (curveWord c)))
      | none =>
        match lacking t with
        | (kind, f) :: _ =>
          some { reason := .missingWindow, index := none, kind := some kind, feeder := f }
        | [] =>
          match firstDuplicate t.windows with
          | some k => some (.at .duplicateWindow (some (windowWord k)))
          | none => none

/-- The validation of a whole image: the first failure, or the table (R168). -/
def validate (ws : List Word) : Except Reject Table :=
  match headerReject ws with
  | some r => .error r
  | none =>
    if wordSum ws != 0#32 then .error (.at .checksum none)
    else
      match firstFailing (rangeChecks ws) with
      | some i => .error (.at .range (some i))
      | none =>
        match structureReject (parseTable ws) with
        | some r => .error r
        | none => .ok (parseTable ws)

end Sys2Proof.Machine
end

