-- ==== Sys2Proof/Machine/Writer.lean ====
section
/-! DEFINITION. The report writer (chapter 10): the start of records, the word it offers in a gap or in a burst,
what a completed word brings, the consumer index and the summary clear. -/

namespace Sys2Proof.Machine

/-! ## The record in progress (R157) -/

/-- The oldest staged record becomes the record in progress when the ring has room (R157 step 1). -/
def State.startRecord (s : State) : State :=
  if s.writer.inProgress.isNone && !s.writer.staging.isEmpty && s.ringHasRoom then
    { s with writer := { s.writer with inProgress := some ⟨0, false⟩ } }
  else s

/-- The address of the ring slot for index P (R157). -/
def State.slotAddr (s : State) : Word :=
  match s.ring with
  | none => 0#32
  | some w => w.base + BitVec.ofNat 32 (32 * (s.writer.producer.toNat % w.slots))

/-- Word `k` of the oldest staged record. -/
def State.recordWord (s : State) (k : Nat) : Word :=
  match s.writer.staging with
  | [] => 0#32
  | r :: _ => r.words.getD k 0#32

/-- A word of the oldest record for a slot. -/
def State.wordOfRecord (s : State) (slot : Word) (k : Nat) (burst : Bool) : WriterWord :=
  { target := .record k, addr := slot + BitVec.ofNat 32 (4 * k), value := s.recordWord k, burst := burst,
    changed := false, moved := false }

/-! ## Words offered (R158, R149) -/

/-- A word of the mirror, at the installed address. -/
def State.mirrorOut (s : State) (base : Word) (i : Nat) (burst : Bool) : WriterWord :=
  { target := .mirror i, addr := base + BitVec.ofNat 32 (4 * i), value := s.mirrorWord i, burst := burst,
    changed := false, moved := false }

/-- A word of feeder `f`'s result slot, the last 32 bytes of its window (R163). -/
def State.resultOut (s : State) (w : WindowEntry) (f : Fid) (i : Nat) : WriterWord :=
  { target := .result f i, addr := w.base + BitVec.ofNat 32 (96 + 4 * i), value := s.resultWord f i,
    burst := false, changed := false, moved := false }

/-- The lowest dirty mirror word. -/
def State.dirtyMirror (s : State) : Option Nat :=
  (List.range 40).find? fun i => s.writer.mirrorDirty.getD i false

/-- The lowest dirty result word of feeder `f`. -/
def State.dirtyResult (s : State) (f : Fid) : Option Nat :=
  (List.range 8).find? fun i => (s.writer.resultDirty.get f).getD i false

/-- The first result word the writer can write (R158 step 4). -/
def State.nextResultWord (s : State) : Option WriterWord :=
  Fid.all.findSome? fun f =>
    (s.referenceWindow f).bind fun w => (s.dirtyResult f).map fun i => s.resultOut w f i

/-- The word the writer sends in a gap (R158), if it has one. Nothing is written before a table is installed
(R154). -/
def State.gapWord (s : State) : Option WriterWord :=
  match s.table.bind fun t => t.window .mirror with
  | none => none
  | some m =>
    if s.writer.mirrorDirty.getD producerWord false then some (s.mirrorOut m.base producerWord false)
    else
      match s.writer.inProgress with
      | some p => some (s.wordOfRecord s.slotAddr p.words false)
      | none =>
        match s.dirtyMirror with
        | some i => some (s.mirrorOut m.base i false)
        | none => s.nextResultWord

/-- The next word of the writer's burst (R149), with the writer after it goes out: the producer word once the
record is done, else the next record word, a new burst starting at the first word whatever was written in gaps.
None when the burst has no record to write (log entry 13). A producer word still dirty from an earlier record when
the burst begins, because its gap never came or because the earlier record's eighth word went out in a gap with
HOLD already asserted, is not sent before the burst's record: the burst's own producer word publishes both. R157
step 4 and R149 pull apart there, and this order is the model's choice (log entry 38). -/
def State.burstWord (s : State) : Option (WriterWord × Writer) :=
  match s.writer.burst with
  | some b =>
    if b.recordDone then
      (s.table.bind fun t => t.window .mirror).map fun m =>
        (s.mirrorOut m.base producerWord true, s.writer)
    else s.writer.inProgress.map fun p => (s.wordOfRecord b.slot p.words true, s.writer)
  | none =>
    s.writer.inProgress.map fun p =>
      (s.wordOfRecord s.slotAddr 0 true,
        { s.writer with inProgress := some { p with words := 0 }, burst := some ⟨s.slotAddr, false, false⟩ })

/-! ## HOLD (R149) -/

/-- HOLD is released and an upstream turn is owed (R149, R150). Where staging still holds 8 or more records with
room in the ring after a burst, and no request has been made since, the writer asks again only after that turn (log
entry 12). -/
def State.releaseHold (s : State) : State :=
  { s with bus := { s.bus with
      hold := .released, turnOwed := true, holdWithdrawn := false,
      writerDeferred := s.bus.writerDeferred ||
        (decide (s.bus.hold = .writer) && s.burstWanted && !s.bus.holdQueue.contains .writer) } }

/-- A record has left staging, `served` by a burst or in gaps. The writer waits for the owed turn before it asks
again only as long as staging has held 8 or more records ever since: once it has not, a record that brings it back
makes a new request (R149; log entry 12). -/
def State.deferBurst (s : State) (served : Bool) : State :=
  { s with bus := { s.bus with writerDeferred := (s.bus.writerDeferred || served) && s.burstWanted } }

/-- The burst ends (R149 step 4, R152, R164). -/
def State.endBurst (s : State) : State :=
  (State.releaseHold { s with writer := { s.writer with burst := none } })

/-! ## A completed word (R152, R157, R159, R162) -/

/-- A record is given up after its second error (R152, R159). -/
def State.giveUp (s : State) : State :=
  let s := State.countDrop { s with writer := { s.writer with
    staging := (s.writer.staging.drop 1).map fun r => { r with seq := r.seq - 1#16 }
    nextSeq := s.writer.nextSeq - 1#16
    inProgress := none } }
  s.deferBurst false

/-- A word of the record in progress meets an error: the second try starts, or the record is given up (R152). -/
def State.recordError (s : State) (burst : Bool) : State :=
  match s.writer.inProgress with
  | none => s
  | some p =>
    if p.second then
      let s := s.giveUp
      if burst then s.endBurst else s
    else { s with writer := { s.writer with inProgress := some ⟨0, true⟩ } }

/-- The eighth word is complete: the record leaves staging and P increases (R157 step 3). -/
def State.recordDone (s : State) : State :=
  (State.putProducer
    { s with writer := { s.writer with
        staging := s.writer.staging.drop 1, inProgress := none,
        burst := s.writer.burst.map fun b => { b with recordDone := true } } }
    (s.writer.producer + 1#16)).deferBurst s.writer.burst.isSome

/-- Word `k` of the record in progress is written without an error (R157). -/
def State.recordWritten (s : State) (k : Nat) : State :=
  match s.writer.inProgress with
  | none => s
  | some p =>
    if k = 7 then s.recordDone
    else { s with writer := { s.writer with inProgress := some { p with words := k + 1 } } }

/-- A word of a burst whose ring has moved is written: the remaining words follow at the old address, and after
the eighth the burst ends without a producer word (R153, R164). The next word goes onto the port at once, since
under HOLD nothing else does. -/
def State.movedBurstWritten (s : State) (k : Nat) (slot : Word) : State :=
  if k = 7 then s.endBurst
  else { s with bus := { s.bus with port := .writer (s.wordOfRecord slot (k + 1) true) false } }

/-- A word of a ring record completes (R152, R157, R164; log entry 20 for a word of the old ring). -/
def State.recordWordComplete (s : State) (w : WriterWord) (k : Nat) (err : Bool) : State :=
  if err then s.recordError w.burst
  else
    match w.burst, s.writer.burst with
    | true, some b => if b.moved then s.movedBurstWritten k b.slot else s.recordWritten k
    | true, none => s.recordWritten k
    | false, _ => if w.moved then s else s.recordWritten k

/-- The dirty mark of mirror word `i` is cleared, if nothing in it has changed since (R162). -/
def State.cleanMirror (s : State) (w : WriterWord) (i : Nat) : State :=
  if w.changed || w.moved then s
  else { s with writer := { s.writer with mirrorDirty := s.writer.mirrorDirty.set i false } }

/-- A completed producer word is published (R157 step 4; log entry 20). -/
def State.publish (s : State) (w : WriterWord) (i : Nat) : State :=
  if i = producerWord ∧ !w.moved then s.putPublished (w.value.setWidth 16) else s

/-- A mirror word completes (R152, R157, R162); as a burst's ninth word it ends the burst (R149). One that a table
installation has made out of date counts for nothing, and the burst goes on to its producer word as it now is, at
the installed mirror (R164; log entry 20). -/
def State.mirrorWordComplete (s : State) (w : WriterWord) (i : Nat) (err : Bool) : State :=
  let s := if err then s else (s.cleanMirror w i).publish w i
  if w.burst && !w.moved then s.endBurst else s

/-- A result word completes (R152, R162, R163; log entry 47 where its window has been taken away meanwhile). -/
def State.resultWordComplete (s : State) (w : WriterWord) (f : Fid) (i : Nat) (err : Bool) : State :=
  if err || w.changed || w.moved then s
  else { s with writer := { s.writer with
          resultDirty := s.writer.resultDirty.set f ((s.writer.resultDirty.get f).set i false) } }

/-- What a completed word of the writer brings (R152, R157). -/
def State.wordComplete (s : State) (w : WriterWord) (err : Bool) : State :=
  match w.target with
  | .record k => s.recordWordComplete w k err
  | .mirror i => s.mirrorWordComplete w i err
  | .result f i => s.resultWordComplete w f i err

/-- Memory answers the writer's word on the port (R140, R148, R157). -/
def State.writerAnswered (s : State) (err : Bool) : State :=
  match s.bus.port with
  | .writer w discard =>
    let s := { s with bus := { s.bus with port := .free } }
    if discard then s else s.wordComplete w err
  | .free => s
  | .upstream => s
  | .loader _ _ => s

/-! ## The consumer index and the summary clear (R160, R161) -/

/-- An offered consumer index lies between C and P (R160). -/
def State.consumerAccepted (s : State) (c : BitVec 16) : Bool :=
  decide ((s.writer.producer - c).toNat ≤ s.ringSize) && decide ((c - s.writer.consumer).toNat ≤ s.ringSize)

/-- A CONSUMED write is refused (R160). -/
def State.refuseConsumed (s : State) (offered : Word) (partialWrite : Bool) : State :=
  s.handRecord (.ringIndexRefused offered s.writer.consumer s.writer.producer partialWrite)

/-- A write of the CONSUMED word (R160). -/
def State.consumedWord (s : State) (be : BitVec 4) (v : Word) : State :=
  if be ≠ allBytes then s.refuseConsumed (enabledBytes be v) true
  else if s.consumerAccepted (v.extractLsb' 0 16) then s.putConsumer (v.extractLsb' 0 16)
  else s.refuseConsumed v false

/-- A write of the SUMCLEAR word (R161). -/
def State.sumclearWord (s : State) (be : BitVec 4) (v : Word) : State :=
  s.putSummary (s.writer.summary &&& ~~~((enabledBytes be v).extractLsb' 0 8))

end Sys2Proof.Machine
end

