-- ==== Sys2Proof/Machine/Loader.lean ====
section
/-! DEFINITION. The loader (chapter 11): full reset, table reads, installation at start-up and at a reload. -/

namespace Sys2Proof.Machine

/-! ## Full reset (R140, R165) -/

/-- The part's own word on the port when a full reset or an abandoned read is taken: it completes, and its answer
is discarded (R140, R154). -/
def Port.discarded : Port → Port
  | .writer w _ => .writer w true
  | .loader a _ => .loader a true
  | .free => .free
  | .upstream => .upstream

/-- Full reset: every block takes its full-reset values. The upstream access already taken and the word on the
port complete, a stalled master presents its access again, and the input pins keep their levels (R140). -/
def State.fullReset (s : State) : State :=
  { State.reset with
    pending := s.pending, init := s.init, malm := s.malm, draws := s.draws
    bus := { Bus.reset with
      current := s.bus.current, port := s.bus.port.discarded, waiting := s.bus.waiting,
      answer := s.bus.answer } }

/-! ## Reading (R167) -/

/-- A read begins with word 1 of the start block (R167). -/
def State.beginRead (s : State) : State :=
  s.putLoader { s.loader with read := some ⟨none, 0, 0⟩, image := [] }

/-- Full reset, and the start-up read that follows it unless INIT is asserted (R165). -/
def State.restart (s : State) : State :=
  let s := s.fullReset
  if s.init then s else s.beginRead

/-- The part's port carries a word of the loader's. -/
def Port.isLoader : Port → Bool
  | .loader _ _ => true
  | .free => false
  | .upstream => false
  | .writer _ _ => false

/-- The part's port carries the word that the loader's read waits for: a word of the loader's that has not been
abandoned. -/
def Port.carriesRead : Port → Bool
  | .loader _ discard => !discard
  | .free => false
  | .upstream => false
  | .writer _ _ => false

/-- The loader has a read waiting for the port (R148, R150). -/
def State.loaderWaiting (s : State) : Bool := s.loader.read.isSome && !s.bus.port.carriesRead

/-- The address of the word a read waits for (R167). Addresses run on past 0xFFFF_FFFC to 0. -/
def TableRead.next (r : TableRead) : Word :=
  match r.addr with
  | none => Config.tablePointer
  | some a => a + BitVec.ofNat 32 (4 * r.index)

/-- The index that names a word that failed four times: 0 for word 1 of the start block, else one more than the
word's number (R167, Formats 12.1). -/
def TableRead.failIndex (r : TableRead) : Nat :=
  match r.addr with
  | none => 0
  | some _ => r.index + 1

/-! ## Rejection (R169, R172) -/

/-- A read ends in a rejection: at start-up the part goes to PASSTHRU-FAILED, at a reload the installed table stays and
a TABLE_REJECTED record is made (R169, R172). Its length is the whole of word 1 as read, not bits 9-0 of it alone
(DESIGN CHOICE, log entry 46). -/
def State.rejectTable (s : State) (addr : Option Word) (r : Reject) : State :=
  let ws := s.loader.image
  if s.table.isSome then
    (s.putLoader { s.loader with reload := .none, read := none, image := [] }).handRecord
      (.tableRejected addr r ws[0]? ws[1]? ws[2]?)
  else s.putLoader { s.loader with mode := .failed, read := none, image := [] }

/-! ## Installation at start-up (R169, R127, R111, R164) -/

/-- A NONE result (R111). -/
def Finding.ofNone : Finding :=
  { code := .none, ident := none, clamped := false, limited := false, unflipped := false, applied := none }

/-- The NONE results of the feeders that have a REFERENCE window (R111). -/
def State.noneResults (s : State) : State :=
  Fid.all.foldl (fun s f => if (s.referenceWindow f).isSome then s.makeResult f .ofNone else s) s

/-- All 40 mirror words become dirty (R164). -/
def State.touchAllMirror (s : State) : State := (List.range 40).foldl State.touchMirror s

/-- RESYNC becomes owed, and an IDLE line sends it at once (R127). -/
def State.oweResync (s : State) : State :=
  let s := { s with link := { s.link with resyncOwed := true } }
  if s.link.line = .idle then s.arbitrateLine else s

/-- The enabled feeders go from OFF to ARMING, in order of feeder number (R5, R169). -/
def State.armEnabled (s : State) : State :=
  Fid.all.foldl (fun s f => if (s.entry f).enabled then s.enterArming f .table else s) s

/-- The installing event at start-up (R169). -/
def State.installStart (s : State) (addr : Word) (t : Table) : State :=
  let s := { s with table := some t,
                    loader := { s.loader with mode := .active, read := none, image := [], flt := false } }
  let s := s.touchAllMirror
  let s := s.handRecord (.tableLoaded addr t.length t.identity t.windows.length false false [])
  let s := s.noneResults
  let s := s.oweResync
  let s := s.armEnabled
  s.judgeAttn

/-! ## Installation at a reload (R22, R43, R58, R111, R164, R172) -/

/-- The sample settings of R24: the first eight settings of its table, apart from the coast limit. -/
def Settings.sample (g : Settings) : List Nat :=
  [g.n, g.w, g.bridgeLimit, g.onset, g.interruption, g.recovery, g.invalidLimit]

/-- What a reload's comparison finds (R172). -/
structure Changes where
  sample : Bool
  entries : List Fid
  deriving DecidableEq, Repr

/-- The new table compared with the installed one (R172). -/
def compareTables (old new : Table) : Changes :=
  { sample := old.settings.sample != new.settings.sample
    entries := Fid.all.filter fun f => old.entries.get f != new.entries.get f }

/-- The monitor of feeder `f` at a reload (R43). -/
def Monitor.atReload (m : Monitor) (cleared : Bool) : Monitor :=
  let m := if cleared then m.clearCounts else m
  { m with assembly := Phases.replicate .notWritten, seq := none }

/-- All monitors at a reload (R43). -/
def State.reloadMonitors (s : State) (d : Changes) : State :=
  { s with
    monitors := Per8.ofFn fun f => (s.monitors.get f).atReload (d.sample || d.entries.contains f)
    dclink := DcMonitor.reset }

/-- The base of a window, if the table has it. -/
def baseOf (w : Option WindowEntry) : Option Word := w.map WindowEntry.base

/-- Feeder `f`'s REFERENCE window has moved: it has one, and not where it was (R111; log entry 19). -/
def referenceMoved (old new : Table) (f : Fid) : Bool :=
  (new.windowOf .reference f).isSome && baseOf (old.windowOf .reference f) != baseOf (new.windowOf .reference f)

/-- The part's word on the port is one for the window that moves (log entry 20). -/
def Port.moved (t : WriterTarget → Bool) : Port → Port
  | .writer w d => .writer { w with moved := w.moved || t w.target } d
  | .free => .free
  | .upstream => .upstream
  | .loader a d => .loader a d

/-- The words of a set on the port are marked as meant for a window that moves. -/
def State.portMoved (s : State) (t : WriterTarget → Bool) : State :=
  { s with bus := { s.bus with port := s.bus.port.moved t } }

/-- A word of feeder `f`'s result slot. -/
def WriterTarget.isResultOf (f : Fid) : WriterTarget → Bool
  | .result g _ => g == f
  | .record _ => false
  | .mirror _ => false

/-- A mirror word. -/
def WriterTarget.isMirror : WriterTarget → Bool
  | .mirror _ => true
  | .record _ => false
  | .result _ _ => false

/-- A word that speaks of the ring: a record's, or the producer word. -/
def WriterTarget.isRing : WriterTarget → Bool
  | .record _ => true
  | .mirror i => i == producerWord
  | .result _ _ => false

/-- The stager of feeder `f` follows its moved window: the page owner is cleared and the result slot is written at
the new address (R111). Where the new table has no window for it nothing is done here, so a result word that is on the port
then completes by R162, and is clean if nothing in it has changed; R163 has a feeder without a window keep its words
dirty, and the two rules do not say which holds for that one word. That it is cleaned is the model's choice (DESIGN
CHOICE, log entry 47). -/
def State.followReference (s : State) (old new : Table) (f : Fid) : State :=
  if referenceMoved old new f then
    ((s.disown f).touchResult f).portMoved (WriterTarget.isResultOf f)
  else s

/-- The record in progress is restarted at the same try (R164). -/
def InProgress.again (p : InProgress) : InProgress := { p with words := 0 }

/-- A burst whose record is not yet whole goes on at its old address (R164). -/
def Burst.ringMoved (b : Burst) : Burst := { b with moved := b.moved || !b.recordDone }

/-- The indexes return to 0 and the record in progress is restarted when the ring moves or is resized (R164). -/
def State.followRing (s : State) (old new : Table) : State :=
  let place := fun (t : Table) => (t.window .ring).map fun w => (w.base, w.sizeLog)
  if place old = place new then s
  else
    let s := (s.putProducer 0#16).putConsumer 0#16
    let s := { s with writer := { s.writer with
      published := 0#16,
      inProgress := s.writer.inProgress.map InProgress.again,
      burst := s.writer.burst.map Burst.ringMoved } }
    s.portMoved WriterTarget.isRing

/-- Every mirror word is marked dirty when the mirror moves (R164). -/
def State.followMirror (s : State) (old new : Table) : State :=
  if baseOf (old.window .mirror) = baseOf (new.window .mirror) then s
  else s.touchAllMirror.portMoved WriterTarget.isMirror

/-- The assembly of feeder `f` is abandoned at a reload (R111). -/
def State.abandonAssembly (s : State) (f : Fid) : State :=
  match (s.stagers.get f).assembly with
  | none => s
  | some a =>
    (s.putStager f { s.stagers.get f with assembly := none }).makeResult f
      (.ofIdent .abandoned (Ident.ofWord0 a.word0))

/-- The tracker of feeder `f` is sent to SEEK with cause TABLE; its record is made unless the feeder is in OFF
after the installation (R53, R58). -/
def State.trackerToSeek (s : State) (f : Fid) : State :=
  let old := s.trackers.get f
  let s := s.putTracker f old.toSeek
  if old.sync = .seek ∨ !(s.entry f).enabled then s
  else s.handRecord (.syncChange f old.sync .seek .table old.coast old.hc)

/-- What feeder `f`'s controller does with its new entry (R22). -/
def State.reloadFeeder (s : State) (f : Fid) (wasEnabled changed : Bool) : State :=
  match wasEnabled, (s.entry f).enabled with
  | false, false => s
  | false, true => s.enterArming f .table
  | true, false => s.enterOff f
  | true, true => if changed then s.enterArming f .table else s

/-- The records and changes a reload makes for feeder `f`, in the order of R172. -/
def State.reloadOne (s : State) (old : Table) (d : Changes) (f : Fid) : State :=
  s.asEventOf f fun s =>
    let s := s.abandonAssembly f
    let s := if d.sample then s.trackerToSeek f else s
    s.reloadFeeder f (old.entries.get f).enabled (d.sample || d.entries.contains f)

/-- The installing event of a reload (R172). -/
def State.installReload (s : State) (addr : Word) (old new : Table) : State :=
  let d := compareTables old new
  let s := State.note (List.range 40) s
    { s with table := some new,
             loader := { s.loader with reload := .none, read := none, image := [], heldAddr := none } }
  let s := s.reloadMonitors d
  let s := Fid.all.foldl (fun s f => s.followReference old new f) s
  let s := s.followRing old new
  let s := s.followMirror old new
  let s := s.handRecord (.tableLoaded addr new.length new.identity new.windows.length true d.sample d.entries)
  let s := Fid.all.foldl (fun s f => s.reloadOne old d f) s
  s.judgeAttn

/-! ## The end of a read (R167, R169, R170, R172) -/

/-- A read has passed validation: at start-up, with no table installed, it is installed; at a reload it is installed
if quiescence holds, else its image is held (R169, R170). -/
def State.acceptTable (s : State) (addr : Word) (t : Table) : State :=
  match s.table with
  | some old =>
    if s.quiescent then s.installReload addr old t
    else s.putLoader { s.loader with reload := .held, read := none, heldAddr := some addr }
  | none => s.installStart addr t

/-- The image is whole: it is validated in the same event (R167 step 4). -/
def State.endRead (s : State) (addr : Word) : State :=
  match validate s.loader.image with
  | .error r => s.rejectTable (some addr) r
  | .ok t => s.acceptTable addr t

/-- A word of the table has arrived (R167 steps 2 to 4). -/
def State.tableWordRead (s : State) (addr : Word) (index : Nat) (data : Word) : State :=
  let image := s.loader.image ++ [data]
  let s := s.putLoader { s.loader with image := image, read := some ⟨some addr, index + 1, 0⟩ }
  match (if index + 1 = 3 then headerReject image else none) with
  | some r => s.rejectTable (some addr) r
  | none => if 3 ≤ index + 1 ∧ tableLength image ≤ index + 1 then s.endRead addr else s

/-- Memory answers the loader's read (R167): a word in error is tried again up to three more times. -/
def State.readAnswered (s : State) (r : TableRead) (data : Word) (err : Bool) : State :=
  if err then
    if 4 ≤ r.tries + 1 then s.rejectTable r.addr (.at .readFailed (some r.failIndex))
    else s.putLoader { s.loader with read := some { r with tries := r.tries + 1 } }
  else
    match r.addr with
    | none => s.putLoader { s.loader with read := some ⟨some (data &&& 0xFFFFFFFC#32), 0, 0⟩ }
    | some a => s.tableWordRead a r.index data

/-- Memory answers the loader's word on the port; a HOLD it went out under is released (R140, R150; log
entry 11). A HOLD asserted for a later read while an abandoned word was still on the port stays. -/
def State.loaderAnswered (s : State) (data : Word) (err : Bool) : State :=
  match s.bus.port with
  | .loader _ discard =>
    let s := { s with bus := { s.bus with port := .free } }
    let s := if s.bus.hold = .loader ∧ (!discard || s.bus.holdWithdrawn) then s.releaseHold else s
    match discard, s.loader.read with
    | false, some r => s.readAnswered r data err
    | false, none => s
    | true, _ => s
  | .free => s
  | .upstream => s
  | .writer _ _ => s

/-! ## Requests (R166, R170, R171) -/

/-- A load request (R166). -/
def State.loadRequest (s : State) : State :=
  if s.loader.mode = .failed then (s.putLoader { s.loader with mode := .loading }).beginRead else s

/-- The read in progress is abandoned: its answer will be discarded, its request for HOLD is withdrawn, and a HOLD
asserted for it is to be released (R150, R170). -/
def State.abandonRead (s : State) : State :=
  { s with bus := { s.bus with
      port := if s.bus.port.isLoader then s.bus.port.discarded else s.bus.port
      gapTimer := none
      holdQueue := s.bus.holdQueue.filter fun p => decide (p ≠ .loader)
      holdWithdrawn := s.bus.holdWithdrawn || decide (s.bus.hold = .loader) } }

/-- The loader moves to READING where it finds quiescence holding in REQUESTED (R170, R171). -/
def State.startReload (s : State) : State :=
  if s.loader.reload = .requested ∧ s.quiescent then
    (s.putLoader { s.loader with reload := .reading }).beginRead
  else s

/-- A nonzero RELOAD write by the reload state it finds (R170). -/
def State.requestReload (s : State) : State :=
  match s.loader.reload with
  | .none => s.putLoader { s.loader with reload := .requested }
  | .requested => s
  | .reading => s.abandonRead.putLoader { s.loader with reload := .requested, read := none, image := [] }
  | .held => s.putLoader { s.loader with reload := .requested, image := [], heldAddr := none }

/-- A write of the RELOAD word (R170); where the part is already quiescent the read begins in the same event (log
entry 29). -/
def State.reloadWord (s : State) (be : BitVec 4) (v : Word) : State :=
  if enabledBytes be v = 0#32 then s else s.requestReload.startReload

/-- The held image is installed where quiescence holds (R170, R171). -/
def State.installHeld (s : State) : State :=
  if s.loader.reload = .held ∧ s.quiescent then
    match s.table, s.loader.heldAddr, validate s.loader.image with
    | some old, some addr, .ok t => s.installReload addr old t
    | some _, some _, .error _ => s
    | some _, none, _ => s
    | none, _, _ => s
  else s

/-- A processor write to the start block, by word and by value (R141, R166). -/
def State.startBlockTake (s : State) (addr : Word) (be : BitVec 4) (v : Word) : State :=
  if addr.extractLsb' 2 2 = 0#2 ∧ be = allBytes then
    if v = 2#32 then s.restart
    else if v = 1#32 then s.loadRequest
    else s
  else s

end Sys2Proof.Machine
end

