-- ==== Sys2Proof/Machine/Bus.lean ====
section
/-! DEFINITION. The bus pass unit (chapter 9): taking an access, handing a write to its owner, the port arbiter,
HOLD, and what every event ends with. -/

namespace Sys2Proof.Machine

/-! ## Hand-off (R146, R147) -/

/-- A CONTROL write goes to the owner of its word (R147). -/
def State.controlTake (s : State) (offset : Word) (be : BitVec 4) (v : Word) : State :=
  match offset.toNat / 4 with
  | 0 => s.clearWord be v
  | 1 => s.reloadWord be v
  | 2 => s.consumedWord be v
  | 3 => s.sumclearWord be v
  | _ => s

/-- A permitted write in a window is handed to its owner (R146). -/
def State.windowTake (s : State) (w : WindowEntry) (x : Access) : State :=
  match w.kind with
  | .sample => s.sampleWrite w.feeder x.addr.groupPlace x.be x.value
  | .dclink => s.dclinkTake x.be x.value
  | .reference => s.stagerWrite w.feeder x.addr.slotPlace.toNat x.be x.value
  | .control => s.controlTake (w.offset x.addr) x.be x.value
  | .ring => s
  | .mirror => s
  | .guard => s

/-- A permitted write is handed to its owner, if it has one (R141, R146). While INIT is asserted start-block writes
are not handed over (R165). -/
def State.handOff (s : State) (cls : AccessClass) (x : Access) : State :=
  match cls with
  | .start => if x.tag = tagProcessor ∧ !s.init then s.startBlockTake x.addr x.be x.value else s
  | .plain => s
  | .window w => s.windowTake w x

/-! ## Taking an access (R141-R148) -/

/-- The access is permitted (R143, R145). -/
def accessPermitted (cls : AccessClass) (x : Access) : Bool :=
  if x.write then writePermitted cls x.addr x.tag else readPermitted cls

/-- The kind of the window of a class. -/
def AccessClass.kind : AccessClass → Option WindowKind
  | .start => none
  | .plain => none
  | .window w => some w.kind

/-- The feeder of the window of a class, for SAMPLE and REFERENCE. -/
def AccessClass.feeder : AccessClass → Option Fid
  | .start => none
  | .plain => none
  | .window w => if w.kind == .sample || w.kind == .reference then some w.feeder else none

/-- A refused access is answered with an error response, without a memory cycle, and reported (R144). -/
def State.refuse (s : State) (cls : AccessClass) (x : Access) : State :=
  State.handRecord { s with bus := { s.bus with answer := some ⟨x.tag, true, none⟩ } }
    (.busRefused x.addr x.tag cls.kind cls.feeder !x.write)

/-- A permitted access goes to the port, and a write to its owner (R146, R148). -/
def State.admitAccess (s : State) (cls : AccessClass) (x : Access) : State :=
  let s := { s with bus := { s.bus with
    current := some ⟨x, cls, s.downAddr cls x⟩, port := .upstream } }
  if x.write then s.handOff cls x else s

/-- An upstream access is taken: it clears an owed turn (R149; log entries 12, 27), and is classified and admitted
or refused. -/
def State.takeAccess (s : State) (x : Access) : State :=
  let s := { s with bus := { s.bus with turnOwed := false, writerDeferred := false } }
  let cls := s.classify x.addr
  if accessPermitted cls x then s.admitAccess cls x else s.refuse cls x

/-! ## Requests for HOLD, its assertion, and the gap timer (R149, R150) -/

/-- The writer has made a request that waits, or HOLD is asserted for one whose record is still to be written. -/
def State.writerAsked (s : State) : Bool :=
  s.bus.holdQueue.contains .writer ||
    (decide (s.bus.hold = .writer) && !s.writer.burst.any fun b => b.recordDone)

/-- The writer asks for an urgent burst, or no longer does (R149; log entry 12). A request once made keeps its place
while a turn is owed. -/
def State.askBurst (s : State) : State :=
  if s.burstWanted then
    if s.writerAsked || s.bus.writerDeferred then s
    else { s with bus := { s.bus with holdQueue := s.bus.holdQueue ++ [.writer] } }
  else { s with bus := { s.bus with holdQueue := s.bus.holdQueue.filter fun p => decide (p ≠ .writer) } }

/-- The loader's gap timer runs while a read waits for the port, from 0 (R150). A read that has gone out withdraws
an earlier request for HOLD. -/
def State.setGapTimer (s : State) : State :=
  if s.loaderWaiting then
    { s with bus := { s.bus with gapTimer := some (s.bus.gapTimer.getD 0) } }
  else
    { s with bus := { s.bus with
        gapTimer := none, holdQueue := s.bus.holdQueue.filter fun p => decide (p ≠ .loader) } }

/-- HOLD may be asserted for a party: it is released, no upstream turn is owed, and the party's request came first
(R149, R150). -/
def State.holdGranted (s : State) (p : HoldParty) : Bool :=
  decide (s.bus.hold = .released) && !s.bus.turnOwed && s.bus.holdQueue.head? == some p

/-- HOLD is asserted for the writer's burst (R149). -/
def State.holdWriter (s : State) : State :=
  if s.holdGranted .writer && s.burstWanted then
    { s with bus := { s.bus with hold := .writer, holdQueue := s.bus.holdQueue.drop 1 } }
  else s

/-- HOLD is asserted for the loader's waiting read (R150). -/
def State.holdLoader (s : State) : State :=
  if s.holdGranted .loader && s.loaderWaiting then
    { s with bus := { s.bus with hold := .loader, holdQueue := s.bus.holdQueue.drop 1 } }
  else s

/-- Requests for HOLD are made and withdrawn, and the one that came first is granted at once where HOLD is released and
no upstream turn is owed (R149 step 1, R150; log entry 45). -/
def State.judgeHold (s : State) : State := s.askBurst.setGapTimer.holdWriter.holdLoader

/-! ## The port arbiter (R148-R150) -/

/-- The loader's read goes out (R148, R150). -/
def State.sendLoader (s : State) (r : TableRead) : State :=
  { s with bus := { s.bus with port := .loader r.next false } }

/-- A word of the writer goes out. -/
def State.sendWriter (s : State) (w : WriterWord) : State :=
  { s with bus := { s.bus with port := .writer w false } }

/-- The part's own choice in a gap: a loader read, else a writer word (R148). -/
def State.gapChoice (s : State) : State :=
  match s.loader.read with
  | some r => s.sendLoader r
  | none =>
    match s.startRecord.gapWord with
    | some w => s.startRecord.sendWriter w
    | none => s

/-- What the arbiter does at a FREE port with HOLD judged (R148; R149, R150 under HOLD). A refused access, and a HOLD with
nothing to serve, leave the port FREE, so it acts `again`. -/
def State.givePort (again : State → State) (s : State) : State :=
  if s.bus.port = .free then
    match s.bus.hold with
    | .released =>
      match s.bus.waiting with
      | x :: rest => again (State.takeAccess { s with bus := { s.bus with waiting := rest } } x)
      | [] => s.gapChoice
    | .writer =>
      match s.startRecord.burstWord with
      | some (w, writer) => State.sendWriter { s with writer := writer } w
      | none => again s.endBurst
    | .loader =>
      match s.loader.read with
      | some r => if s.bus.holdWithdrawn then again s.releaseHold else s.sendLoader r
      | none => again s.releaseHold
  else s

/-- The port arbiter (R148): HOLD is judged before anything is given a FREE port, and once an access has been taken.
`fuel` bounds its turns by the accesses presented, the releases and the last judgement. -/
def State.arbitrate (fuel : Nat) (s : State) : State :=
  match fuel with
  | 0 => s
  | fuel + 1 => s.judgeHold.givePort fun t => t.arbitrate fuel

/-- What every event ends with: HOLD is judged and the port given away, the ring's next record starts, the gap timer
follows (log entry 9). -/
def State.finish (s : State) : State :=
  (s.arbitrate (s.bus.waiting.length + 3)).startRecord.setGapTimer

/-! ## Events of the bus -/

/-- An access is presented upstream (R148; log entries 1, 2). -/
def State.present (s : State) (x : Access) : State :=
  { s with bus := { s.bus with waiting := s.bus.waiting ++ [x] } }

/-- Memory answers the upstream access; the answer goes back to its master (R151). -/
def State.upstreamAnswered (s : State) (data : Word) (err : Bool) : State :=
  match s.bus.port, s.bus.current with
  | .upstream, some c =>
    { s with bus := { s.bus with
        port := .free, current := none,
        answer := some ⟨c.access.tag, err, if err || c.access.write then none else some data⟩ } }
  | .upstream, none => s
  | .free, _ => s
  | .writer _ _, _ => s
  | .loader _ _, _ => s

/-- The gap timer reaches 64 with the read still waiting: the loader asks for HOLD (R150; log entry 3). -/
def State.gapTimeout (s : State) : State :=
  if s.loaderWaiting && (decide (s.bus.hold ≠ .loader) || s.bus.holdWithdrawn) &&
      !s.bus.holdQueue.contains .loader then
    { s with bus := { s.bus with holdQueue := s.bus.holdQueue ++ [.loader] } }
  else s

end Sys2Proof.Machine
end

