-- ==== Sys2Proof/Machine/Time.lean ====
section
/-! DEFINITION. One TBCLK period (00_scope.md Table 3): what `step` does when no command waits (log entry 4), and the
form in which every meaning answers. -/

namespace Sys2Proof.Machine

/-- A silence timer after one period; at 0 it waits for its expiry to be taken (R40). -/
def Monitor.tick (m : Monitor) : Monitor := { m with silence := m.silence.map fun t => t - 1 }

/-- The count of a WAIT after one period (R119). -/
def Wait.tick (w : Wait) : Wait := { w with elapsed := w.elapsed + 1 }

/-- One TBCLK period passes: the stamp, the silence timers, the gap timer and the WAIT count advance. While INIT is
asserted the part is held in full reset, and nothing counts (R165; log entry 23). -/
def State.tick (s : State) : State :=
  if s.init then s
  else { s with
    stamp := s.stamp + 1#32
    monitors := s.monitors.map Monitor.tick
    bus := { s.bus with gapTimer := s.bus.gapTimer.map fun t => min Config.gapLimit (t + 1) }
    link := { s.link with wait := s.link.wait.map Wait.tick } }

/-- What a meaning answers. -/
abbrev Answered := Host.Outcome State Fault Refusal

/-- The answer of an event whose effect is `s`: a next state, after what every event ends with. -/
def State.done (s : State) : Answered := .next s.finish

end Sys2Proof.Machine
end

