-- ==== Sys2Proof/Machine/FeederEvents.lean ====
section
/-! DEFINITION. The meanings of the events at one feeder: alarms, silence, shed notices (R17, R20, R40). -/

namespace Sys2Proof.Machine

/-- MALM_ASSERT (R20). -/
def execMalmAssert (f : Fid) (s : State) : Answered := (s.alarm f).done

/-- MALM_RELEASE (R20): the level changes, and no state does. -/
def execMalmRelease (f : Fid) (s : State) : Answered :=
  State.done { s with malm := s.malm.set f false }

/-- SILENCE_EXPIRY (R40). -/
def execSilenceExpiry (f : Fid) (s : State) : Answered := (s.silenceExpires f).done

/-- SHED_NOTICE_TAKEN (R17). -/
def execShedNoticeTaken (f : Fid) (s : State) : Answered := (s.takeNotice f).done

end Sys2Proof.Machine
end

