-- ==== Sys2Proof/Machine/LinkEvents.lean ====
section
/-! DEFINITION. The meanings of the events on the modulator link (R119-R124, R128). -/

namespace Sys2Proof.Machine

/-- FRAME_END (R128). -/
def execFrameEnd (s : State) : Answered := s.frameEnd.done

/-- REPLY_START (R119). -/
def execReplyStart (s : State) : Answered := s.replyStart.done

/-- RESPONSE_TIMEOUT (R119). -/
def execResponseTimeout (s : State) : Answered := s.responseTimeout.done

/-- REPLY_COMPLETE (R119, R123). -/
def execReplyComplete (bytes : List Byte) (stops : Bool) (s : State) : Answered :=
  (s.replyComplete bytes stops).done

/-- REPLY_BREAK_OFF (R119). -/
def execReplyBreakOff (s : State) : Answered := s.replyBreakOff.done

/-- SETTLE_END (R120, R121, R128). -/
def execSettleEnd (s : State) : Answered := s.settleEnd.done

/-- RESYNC_END (R121). -/
def execResyncEnd (s : State) : Answered := s.resyncEnd.done

/-- QUIET_END (R121, R124, R127). -/
def execQuietEnd (s : State) : Answered := s.quietEnd.done

end Sys2Proof.Machine
end

