-- ==== Sys2Proof/Machine/PortEvents.lean ====
section
/-! DEFINITION. The meanings of the events of the downstream port, of HOLD and of the loader (R148-R152, R157, R167,
R171). -/

namespace Sys2Proof.Machine

/-- WRITER_WORD_COMPLETE (R152, R157, R162). -/
def execWriterWordComplete (err : Bool) (s : State) : Answered := (s.writerAnswered err).done

/-- LOADER_READ_COMPLETE (R167). -/
def execLoaderReadComplete (data : Word) (err : Bool) (s : State) : Answered :=
  (s.loaderAnswered data err).done

/-- WRITER_BURST_HOLD (R149 step 1). The event that brings the writer's wish asserts HOLD itself, so in a state that an
event has left this command finds it done and changes nothing; in any other it asserts HOLD here (log entry 45). -/
def execWriterBurstHold (s : State) : Answered := s.holdWriter.done

/-- LOADER_GAP_TIMEOUT (R150). -/
def execLoaderGapTimeout (s : State) : Answered := s.gapTimeout.done

/-- LOADER_HOLD (R150). As WRITER_BURST_HOLD, it finds HOLD asserted by the event that called for it (log entry 45). -/
def execLoaderHold (s : State) : Answered := s.holdLoader.done

/-- RELOAD_READ_START (R170, R171). -/
def execReloadReadStart (s : State) : Answered := s.startReload.done

/-- HELD_IMAGE_INSTALL (R170, R171). -/
def execHeldImageInstall (s : State) : Answered := s.installHeld.done

end Sys2Proof.Machine
end

