-- ==== Sys2Proof/Machine/Resets.lean ====
section
/-! DEFINITION. The meanings of the reset commands (R165, R166). -/

namespace Sys2Proof.Machine

/-- POWER_ON (R165): full reset, and a start-up read if INIT is not asserted. -/
def execPowerOn (init : Bool) (s : State) : Answered :=
  (State.restart { s with init := init }).done

/-- INIT_ASSERT (R165): the part is held in full reset. -/
def execInitAssert (s : State) : Answered :=
  (State.fullReset { s with init := true }).done

/-- INIT_RELEASE (R165): the start-up read begins at once. -/
def State.initReleased (s : State) : State :=
  let s := { s with init := false }
  if s.loader.mode = .loading ∧ s.loader.read = none then s.beginRead else s

/-- INIT_RELEASE (R165). -/
def execInitRelease (s : State) : Answered := s.initReleased.done

/-- The processor's write of a value to the start word. -/
def startWord (v : Word) : Access :=
  { addr := Config.startBlock, write := true, tag := tagProcessor, be := allBytes, value := v }

/-- START_WORD_RESTART (R166): the write of 2 is presented; when it is taken it brings full reset. -/
def execStartWordRestart (s : State) : Answered := (s.present (startWord 2#32)).done

/-- START_WORD_LOAD_REQUEST (R166): the write of 1 is presented. -/
def execStartWordLoadRequest (s : State) : Answered := (s.present (startWord 1#32)).done

end Sys2Proof.Machine
end

