-- ==== Sys2Proof/Machine/Traffic.lean ====
section
/-! DEFINITION. The meanings of the upstream accesses (R141-R151). Each presents its access; the class that the part
finds for it decides what happens when it is taken (log entry 1). -/

namespace Sys2Proof.Machine

/-- A write of the sampler. -/
def samplerWrite (addr : Word) (be : BitVec 4) (value : Word) : Access :=
  { addr := addr, write := true, tag := tagSampler, be := be, value := value }

/-- A write of the control processor. -/
def processorWrite (addr : Word) (be : BitVec 4) (value : Word) : Access :=
  { addr := addr, write := true, tag := tagProcessor, be := be, value := value }

/-- A write under any tag. -/
def taggedWrite (tag : BitVec 2) (addr : Word) (be : BitVec 4) (value : Word) : Access :=
  { addr := addr, write := true, tag := tag, be := be, value := value }

/-- A read under any tag. -/
def taggedRead (tag : BitVec 2) (addr : Word) : Access :=
  { addr := addr, write := false, tag := tag, be := allBytes, value := 0#32 }

/-- START_BLOCK_WRITE (R141). -/
def execStartBlockWrite (tag : BitVec 2) (addr : Word) (be : BitVec 4) (v : Word) (s : State) : Answered :=
  (s.present (taggedWrite tag addr be v)).done

/-- PLAIN_ACCESS (R142, R145). -/
def execPlainAccess (a : Access) (s : State) : Answered := (s.present a).done

/-- SAMPLE_PHASE_WRITE (R25). -/
def execSamplePhaseWrite (addr : Word) (be : BitVec 4) (v : Word) (s : State) : Answered :=
  (s.present (samplerWrite addr be v)).done

/-- SAMPLE_STAMP_WRITE (R26). -/
def execSampleStampWrite (addr : Word) (be : BitVec 4) (v : Word) (s : State) : Answered :=
  (s.present (samplerWrite addr be v)).done

/-- DCLINK_WRITE (R41). -/
def execDclinkWrite (addr : Word) (be : BitVec 4) (v : Word) (s : State) : Answered :=
  (s.present (samplerWrite addr be v)).done

/-- ALIAS_WORD0_WRITE (R94). -/
def execAliasWord0Write (addr : Word) (be : BitVec 4) (v : Word) (s : State) : Answered :=
  (s.present (processorWrite addr be v)).done

/-- ALIAS_WORD_WRITE (R95). -/
def execAliasWordWrite (addr : Word) (be : BitVec 4) (v : Word) (s : State) : Answered :=
  (s.present (processorWrite addr be v)).done

/-- ALIAS_WORD7_WRITE (R96). -/
def execAliasWord7Write (addr : Word) (be : BitVec 4) (v : Word) (s : State) : Answered :=
  (s.present (processorWrite addr be v)).done

/-- ALIAS_READ (R93). -/
def execAliasRead (tag : BitVec 2) (addr : Word) (s : State) : Answered :=
  (s.present (taggedRead tag addr)).done

/-- CLEAR_WRITE (R21). -/
def execClearWrite (addr : Word) (be : BitVec 4) (v : Word) (s : State) : Answered :=
  (s.present (processorWrite addr be v)).done

/-- RELOAD_WRITE (R170). -/
def execReloadWrite (addr : Word) (be : BitVec 4) (v : Word) (s : State) : Answered :=
  (s.present (processorWrite addr be v)).done

/-- CONSUMED_WRITE (R160). -/
def execConsumedWrite (addr : Word) (be : BitVec 4) (v : Word) (s : State) : Answered :=
  (s.present (processorWrite addr be v)).done

/-- SUMCLEAR_WRITE (R161). -/
def execSumclearWrite (addr : Word) (be : BitVec 4) (v : Word) (s : State) : Answered :=
  (s.present (processorWrite addr be v)).done

/-- CONTROL_OTHER_WRITE (R147). -/
def execControlOtherWrite (addr : Word) (be : BitVec 4) (v : Word) (s : State) : Answered :=
  (s.present (processorWrite addr be v)).done

/-- REFUSED_WRITE (R144). -/
def execRefusedWrite (tag : BitVec 2) (addr : Word) (be : BitVec 4) (v : Word) (s : State) : Answered :=
  (s.present (taggedWrite tag addr be v)).done

/-- GUARD_READ (R144). -/
def execGuardRead (tag : BitVec 2) (addr : Word) (s : State) : Answered :=
  (s.present (taggedRead tag addr)).done

/-- UPSTREAM_ACCESS_COMPLETE (R151). -/
def execUpstreamAccessComplete (data : Word) (err : Bool) (s : State) : Answered :=
  (s.upstreamAnswered data err).done

end Sys2Proof.Machine
end

