-- ==== Sys2Proof/Machine/Dispatch.lean ====
section
/-! DEFINITION. The meaning of every command: one arm per constructor of Instr. -/

namespace Sys2Proof.Machine

def exec (i : Instr) (s : State) : Host.Outcome State Fault Refusal :=
  match i with
  | .powerOn init => Sys2Proof.Machine.execPowerOn init s
  | .initAssert => Sys2Proof.Machine.execInitAssert s
  | .initRelease => Sys2Proof.Machine.execInitRelease s
  | .startWordRestart => Sys2Proof.Machine.execStartWordRestart s
  | .startWordLoadRequest => Sys2Proof.Machine.execStartWordLoadRequest s
  | .startBlockWrite tag addr be v => Sys2Proof.Machine.execStartBlockWrite tag addr be v s
  | .plainAccess a => Sys2Proof.Machine.execPlainAccess a s
  | .samplePhaseWrite addr be v => Sys2Proof.Machine.execSamplePhaseWrite addr be v s
  | .sampleStampWrite addr be v => Sys2Proof.Machine.execSampleStampWrite addr be v s
  | .dclinkWrite addr be v => Sys2Proof.Machine.execDclinkWrite addr be v s
  | .aliasWord0Write addr be v => Sys2Proof.Machine.execAliasWord0Write addr be v s
  | .aliasWordWrite addr be v => Sys2Proof.Machine.execAliasWordWrite addr be v s
  | .aliasWord7Write addr be v => Sys2Proof.Machine.execAliasWord7Write addr be v s
  | .aliasRead tag addr => Sys2Proof.Machine.execAliasRead tag addr s
  | .clearWrite addr be v => Sys2Proof.Machine.execClearWrite addr be v s
  | .reloadWrite addr be v => Sys2Proof.Machine.execReloadWrite addr be v s
  | .consumedWrite addr be v => Sys2Proof.Machine.execConsumedWrite addr be v s
  | .sumclearWrite addr be v => Sys2Proof.Machine.execSumclearWrite addr be v s
  | .controlOtherWrite addr be v => Sys2Proof.Machine.execControlOtherWrite addr be v s
  | .refusedWrite tag addr be v => Sys2Proof.Machine.execRefusedWrite tag addr be v s
  | .guardRead tag addr => Sys2Proof.Machine.execGuardRead tag addr s
  | .upstreamAccessComplete data err => Sys2Proof.Machine.execUpstreamAccessComplete data err s
  | .malmAssert f => Sys2Proof.Machine.execMalmAssert f s
  | .malmRelease f => Sys2Proof.Machine.execMalmRelease f s
  | .silenceExpiry f => Sys2Proof.Machine.execSilenceExpiry f s
  | .shedNoticeTaken f => Sys2Proof.Machine.execShedNoticeTaken f s
  | .frameEnd => Sys2Proof.Machine.execFrameEnd s
  | .replyStart => Sys2Proof.Machine.execReplyStart s
  | .responseTimeout => Sys2Proof.Machine.execResponseTimeout s
  | .replyComplete bytes stops => Sys2Proof.Machine.execReplyComplete bytes stops s
  | .replyBreakOff => Sys2Proof.Machine.execReplyBreakOff s
  | .settleEnd => Sys2Proof.Machine.execSettleEnd s
  | .resyncEnd => Sys2Proof.Machine.execResyncEnd s
  | .quietEnd => Sys2Proof.Machine.execQuietEnd s
  | .writerWordComplete err => Sys2Proof.Machine.execWriterWordComplete err s
  | .loaderReadComplete data err => Sys2Proof.Machine.execLoaderReadComplete data err s
  | .writerBurstHold => Sys2Proof.Machine.execWriterBurstHold s
  | .loaderGapTimeout => Sys2Proof.Machine.execLoaderGapTimeout s
  | .loaderHold => Sys2Proof.Machine.execLoaderHold s
  | .reloadReadStart => Sys2Proof.Machine.execReloadReadStart s
  | .heldImageInstall => Sys2Proof.Machine.execHeldImageInstall s

end Sys2Proof.Machine
end

