-- ==== Sys2Proof/Safety.lean ====
section
/-! DEFINITION. What claims about the machine are stated with: when an event can occur, what of a state an event
leaves alone, and the invariants. -/

namespace Sys2Proof.Machine

/-! ## Trackers -/

/-- An instant with this sign shows a crossing (R45): there is a last sign, and it is the other one. -/
def Tracker.crosses (t : Tracker) (sign : Sign) : Prop := ∃ l, t.last = some l ∧ l ≠ sign

/-- N and W as R24 limits them. -/
def Settings.tracks (g : Settings) : Prop := 16 ≤ g.n ∧ g.n ≤ 128 ∧ 1 ≤ g.w ∧ g.w ≤ g.n / 8 ∧ 1 ≤ g.coastLimit

/-! ## When the event of a command can occur -/

/-- The event of the command can occur in the state: commands of the outside world always can, the end of a timed
interval once its time has passed, an answer once its word is out (log entry 3). -/
def eventDue (c : Instr) (s : State) : Bool :=
  match c with
  | .powerOn _ => true
  | .initAssert => !s.init
  | .initRelease => s.init
  | .startWordRestart => true
  | .startWordLoadRequest => true
  | .startBlockWrite .. => true
  | .plainAccess _ => true
  | .samplePhaseWrite .. => true
  | .sampleStampWrite .. => true
  | .dclinkWrite .. => true
  | .aliasWord0Write .. => true
  | .aliasWordWrite .. => true
  | .aliasWord7Write .. => true
  | .aliasRead .. => true
  | .clearWrite .. => true
  | .reloadWrite .. => true
  | .consumedWrite .. => true
  | .sumclearWrite .. => true
  | .controlOtherWrite .. => true
  | .refusedWrite .. => true
  | .guardRead .. => true
  | .upstreamAccessComplete .. => decide (s.bus.port = .upstream)
  | .malmAssert f => !s.malm.get f
  | .malmRelease f => s.malm.get f
  | .silenceExpiry f => decide ((s.monitors.get f).silence = some 0)
  | .shedNoticeTaken f => (s.account.notice.get f).isSome
  | .frameEnd => decide (s.link.line = .send)
  | .replyStart => decide (s.link.line = .wait)
  | .responseTimeout =>
    decide (s.link.line = .wait) && s.link.wait.all fun w => decide (w.timeout ≤ w.elapsed)
  | .replyComplete .. => decide (s.link.line = .receive)
  | .replyBreakOff => decide (s.link.line = .receive)
  | .settleEnd => decide (s.link.line = .settle)
  | .resyncEnd => decide (s.link.line = .resync)
  | .quietEnd => decide (s.link.line = .quiet)
  | .writerWordComplete _ =>
    match s.bus.port with
    | .writer _ _ => true
    | .free => false
    | .upstream => false
    | .loader _ _ => false
  | .loaderReadComplete .. => s.bus.port.isLoader
  | .writerBurstHold => s.holdGranted .writer && s.burstWanted
  | .loaderGapTimeout => s.loaderWaiting && decide (s.bus.gapTimer = some Config.gapLimit)
  | .loaderHold => s.holdGranted .loader && s.loaderWaiting
  | .reloadReadStart => decide (s.loader.reload = .requested) && s.quiescent
  | .heldImageInstall => decide (s.loader.reload = .held) && s.quiescent

/-! ## What an event leaves alone -/

/-- The state with what the end of an event may rearrange set aside (State.finish): which word of the part is on the port,
HOLD and the requests for it, the gap timer, and the start of the next record and of a burst. Two states with the same
`offPort` agree in everything else. What becomes of HOLD and of a burst in an event, HoldEvents states for all commands
together. -/
def State.offPort (s : State) : State :=
  { s with bus := { s.bus with port := .free, hold := .released, holdQueue := [], gapTimer := none }
           writer := { s.writer with inProgress := none, burst := none } }

/-- The same, with the dirty marks of the mirror and of the result slots set aside too (R162): two states with the
same `offMarks` agree in everything else. -/
def State.offMarks (s : State) : State :=
  { s.offPort with
    writer := { s.offPort.writer with mirrorDirty := [], resultDirty := Per8.replicate [] } }

/-- The state with the bus pass unit and the report writer set aside. Two states with the same `blocks` agree in
every other block, in the input pins, the stamp and the queue. -/
def State.blocks (s : State) : State := { s with bus := Bus.reset, writer := Writer.reset }

/-- Feeder `f`'s controller, monitor, tracker and evaluator are the same in two states. -/
def sameFeeder (s t : State) (f : Fid) : Prop :=
  t.ctl.get f = s.ctl.get f ∧ t.monitors.get f = s.monitors.get f ∧ t.trackers.get f = s.trackers.get f ∧
    t.evals.get f = s.evals.get f

/-- What surrounds the feeders is the same: the queue, the stamp, INIT, the loader, the table, the DC-link monitor, the bus
pass unit but for what `offPort` sets aside, and the report writer's indexes. -/
def sameSurroundings (s t : State) : Prop :=
  t.pending = s.pending ∧ t.stamp = s.stamp ∧ t.init = s.init ∧ t.loader = s.loader ∧ t.table = s.table ∧
    t.dclink = s.dclink ∧ t.offPort.bus = s.offPort.bus ∧ t.writer.producer = s.writer.producer ∧
    t.writer.published = s.writer.published ∧ t.writer.consumer = s.writer.consumer

/-- Everything that is kept for feeder `f` alone is the same, in every block. -/
def sameAt (s t : State) (f : Fid) : Prop :=
  sameFeeder s t f ∧ t.stagers.get f = s.stagers.get f ∧ t.link.slots.get f = s.link.slots.get f ∧
    t.account.reserved.get f = s.account.reserved.get f ∧ t.account.notice.get f = s.account.notice.get f

/-- The first record an event hands over is in staging, where there is room for one: with the next sequence number, the
stamp, and the dropped count if an overrun is owed (R155). -/
def staged (s t : State) (b : Body) : Prop :=
  s.writer.staging.length < Config.stagingDepth →
    t.writer.staging[s.writer.staging.length]? =
      some { seq := s.writer.nextSeq, stamp := s.stamp,
             dropped := if s.writer.overrun then s.writer.dropped else 0, body := b }

/-- The records an event hands over are these and no others, in this order, where staging has room for them all (R155). -/
def recorded (s t : State) (bodies : List Body) : Prop :=
  s.writer.staging.length + bodies.length ≤ Config.stagingDepth →
    t.writer.staging.map Record.body = s.writer.staging.map Record.body ++ bodies

/-- A reference record that ends: with which result, and with which applied a_max where a DONE ends it (R109). -/
structure Ending where
  code : ResultCode
  record : Accepted
  applied : Option Nat
  deriving DecidableEq, Repr

/-- The records of a list end with one result and no applied a_max. -/
def endAll (code : ResultCode) (rs : List Accepted) : List Ending := rs.map fun r => ⟨code, r, none⟩

/-- The results that feeder `f`'s stager makes in an event from `s` to `t` of records that end one after another: numbered
on from the stager's number, judged at the half-cycle number of `s`, with the source and page of `t` (R109, R110). -/
def endResults (s t : State) (f : Fid) (xs : List Ending) : List Result :=
  xs.zipIdx.map fun x =>
    { number := (s.stagers.get f).number + BitVec.ofNat 8 (x.2 + 1), code := x.1.code, clamped := x.1.record.clamped
      limited := false, unflipped := false, ident := some ⟨x.1.record.seq, x.1.record.target⟩
      judgedAt := (s.trackers.get f).hc, applied := x.1.applied, source := (t.ctl.get f).source
      page := (t.stagers.get f).committed }

/-- An event made a result of feeder `f`: the eight words of its result slot are dirty (R110, R163), and one that is on the
port, its value changed, will stay so when its write completes (R162). -/
def slotMarked (s t : State) (f : Fid) : Prop :=
  t.writer.resultDirty.get f = List.replicate 8 true ∧
    ∀ w d, ∀ i < 8, s.bus.port = .writer w d → w.target = .result f i → t.resultWord f i ≠ s.resultWord f i →
      ∃ w', t.bus.port = .writer w' d ∧ w'.target = .result f i ∧ w'.changed = true

/-- Feeder `f`'s stager has made the results of these endings and no others: its number has gone up by 1 with each, its
latest result is the last of them, and with one or more its result slot is marked (R109, R110). -/
def resultsMade (s t : State) (f : Fid) (xs : List Ending) : Prop :=
  (t.stagers.get f).number = (s.stagers.get f).number + BitVec.ofNat 8 xs.length ∧
    (t.stagers.get f).latest = (endResults s t f xs).getLast?.or (s.stagers.get f).latest ∧
    (xs ≠ [] → slotMarked s t f)

/-- What an event `c` from `s` to `t` does with the dirty mark of mirror word `i`: a word whose value has changed is dirty,
and if it was on the port its write will not clean it; a dirty word stays dirty but where its own write completes
without an error and no value in it has changed (R162). -/
def mirrorMarked (c : Instr) (s t : State) (i : Nat) : Prop :=
  (t.mirrorWord i ≠ s.mirrorWord i →
    t.writer.mirrorDirty.getD i false = true ∧
      ∀ w d, s.bus.port = .writer w d → w.target = .mirror i → (∀ err, c ≠ .writerWordComplete err) →
        ∃ w', t.bus.port = .writer w' d ∧ w'.target = .mirror i ∧ w'.changed = true) ∧
    (s.writer.mirrorDirty.getD i false = true →
      t.writer.mirrorDirty.getD i false = true ∨
        c = .writerWordComplete false ∧ ∃ w, s.bus.port = .writer w false ∧ w.target = .mirror i ∧ w.changed = false)

/-- There is one dirty mark for each of the 40 mirror words (R162). -/
def State.marksInv (s : State) : Prop := s.writer.mirrorDirty.length = 40

/-- The REF_REJECTED records of results, in order: every code makes one but COMMITTED, SUPERSEDED and NONE (R110). -/
def refRecords (f : Fid) (rs : List Result) : List Body :=
  (rs.filter fun r => !(r.code == .committed || r.code == .superseded || r.code == .none)).map (.refRejected f)

/-- The records of feeder `f`'s entry to FAULT, in order: those of the results made before the change, the FEEDER_STATE record,
those of the results the entry makes, the open sag's, closed with outcome FAULT and added to its episode's totals,
and the open episode's, closed with cause FAULT (R4, R107, R132, R137, R138). -/
def faultRecords (s t : State) (f : Fid) (reason : Reason) (before after : List Ending) : List Body :=
  let c := s.ctl.get f
  let rs := endResults s t f (before ++ after)
  let closed := fun y : Episode =>
    match c.sag with
    | none => y
    | some x =>
      let rank : WorstOutcome := if x.toleranceExceeded then .tripped else .shed
      { y with riddenTotal := min 65535 (y.riddenTotal + x.ridden)
               worst := if y.worst.code < rank.code then rank else y.worst }
  refRecords f (rs.take before.length) ++ [.feederState f c.state .fault reason] ++
    refRecords f (rs.drop before.length) ++
    (c.sag.toList.map fun x => .sagClosed f { x with outcome := some .fault }) ++
    c.episode.toList.map fun y => .episodeClosed f (closed y) .fault (s.trackers.get f).hc

/-- The access that a command presents (R142; log entry 1). -/
def accessOf (c : Instr) : Option Access :=
  match c with
  | .startWordRestart => some (startWord 2#32)
  | .startWordLoadRequest => some (startWord 1#32)
  | .startBlockWrite tag a be v => some (taggedWrite tag a be v)
  | .plainAccess x => some x
  | .samplePhaseWrite a be v => some (samplerWrite a be v)
  | .sampleStampWrite a be v => some (samplerWrite a be v)
  | .dclinkWrite a be v => some (samplerWrite a be v)
  | .aliasWord0Write a be v => some (processorWrite a be v)
  | .aliasWordWrite a be v => some (processorWrite a be v)
  | .aliasWord7Write a be v => some (processorWrite a be v)
  | .aliasRead tag a => some (taggedRead tag a)
  | .clearWrite a be v => some (processorWrite a be v)
  | .reloadWrite a be v => some (processorWrite a be v)
  | .consumedWrite a be v => some (processorWrite a be v)
  | .sumclearWrite a be v => some (processorWrite a be v)
  | .controlOtherWrite a be v => some (processorWrite a be v)
  | .refusedWrite tag a be v => some (taggedWrite tag a be v)
  | .guardRead tag a => some (taggedRead tag a)
  | .powerOn _ => none
  | .initAssert => none
  | .initRelease => none
  | .upstreamAccessComplete .. => none
  | .malmAssert _ => none
  | .malmRelease _ => none
  | .silenceExpiry _ => none
  | .shedNoticeTaken _ => none
  | .frameEnd => none
  | .replyStart => none
  | .responseTimeout => none
  | .replyComplete .. => none
  | .replyBreakOff => none
  | .settleEnd => none
  | .resyncEnd => none
  | .quietEnd => none
  | .writerWordComplete _ => none
  | .loaderReadComplete .. => none
  | .writerBurstHold => none
  | .loaderGapTimeout => none
  | .loaderHold => none
  | .reloadReadStart => none
  | .heldImageInstall => none

/-- The state in which a permitted access has been taken (R140, R148) and nothing has been handed over. -/
def State.taken (s : State) (x : Access) : State :=
  { s with bus := { s.bus with
      turnOwed := false, writerDeferred := false,
      current := some ⟨x, s.classify x.addr, s.downAddr (s.classify x.addr) x⟩, port := .upstream } }

/-- What goes with HOLD: a burst stands only while it is asserted for the writer, a withdrawal waits only while it is asserted
for the loader, and the writer puts off its next request only in a burst or until the owed turn (R149, R150). -/
def State.holdInv (s : State) : Prop :=
  (s.writer.burst ≠ none → s.bus.hold = .writer) ∧ (s.bus.holdWithdrawn = true → s.bus.hold = .loader) ∧
    (s.bus.writerDeferred = true → s.bus.turnOwed = true ∨ s.bus.hold = .writer)

/-- HOLD has been judged, and judging it again changes nothing: no party is kept waiting for a HOLD that could be asserted, the
requests are those that stand, and the gap timer runs exactly while a read waits (R149 step 1, R150). -/
def State.holdJudged (s : State) : Prop := s.judgeHold = s

/-- So every event leaves the port and HOLD (R148, R149): at a FREE port HOLD is released and no access waits, and HOLD has
been judged. -/
def State.settled (s : State) : Prop :=
  (s.bus.port = .free → s.bus.hold = .released ∧ s.bus.waiting = []) ∧ s.holdInv ∧ s.holdJudged

/-- An access presented now is taken in the same event: the port is FREE, HOLD is released, and no other access
waits (R148). -/
def State.takesAtOnce (s : State) : Prop := s.bus.port = .free ∧ s.settled

/-- HOLD is released and no access waits, whatever the port carries. -/
def State.calm (s : State) : Prop := s.bus.hold = .released ∧ s.bus.waiting = [] ∧ s.settled

/-- HOLD is asserted for this party, or released, and this burst stands, or none. -/
def State.holds (s : State) (h : Hold) (b : Option Burst) : Prop := s.bus.hold = h ∧ s.writer.burst = b

/-- What HOLD brings where a word that went out in a gap completes under it: `t` is where the word leaves the state `s`, and
`u` where it would with HOLD released, an upstream turn owed and no access waiting. HOLD asserted for the writer: the
burst begins with the first word of the record in progress, whose try is kept, or HOLD is released where there is no
record to write. HOLD asserted for the loader: its read goes out (R149, R150, R152; log entries 13, 38). -/
def holdServed (s u t : State) : Prop :=
  let turn := fun b : Bool => { u.bus with turnOwed := b, waiting := s.bus.waiting }
  (s.bus.hold = .writer →
    (∀ p r rest, u.writer.inProgress = some p → u.writer.staging = r :: rest →
      t.holds .writer (some ⟨u.slotAddr, false, false⟩) ∧
        t.bus.port = .writer ⟨.record 0, u.slotAddr, r.words.getD 0 0#32, true, false, false⟩ false ∧
        t.writer.inProgress = some ⟨0, p.second⟩ ∧
        t.offPort = State.offPort { u with bus := turn s.bus.turnOwed }) ∧
    (u.writer.inProgress = none → s.bus.waiting = [] →
      t.holds .released none ∧ t.offPort = State.offPort { u with bus := turn true })) ∧
  ∀ r, s.bus.hold = .loader → s.bus.holdWithdrawn = false → s.loader.read = some r →
    t.bus.hold = .loader ∧ t.bus.port = .loader r.next false ∧
      t.offPort = State.offPort { u with bus := turn s.bus.turnOwed }

/-- The command answers a next state with the property. -/
def Completes (c : Instr) (s : State) (P : State → Prop) : Prop := ∃ t, exec c s = .next t ∧ P t

/-! ## Invariants -/

/-- An invariant is kept by every step that answers a next state. -/
def Kept (inv : State → Prop) : Prop := ∀ s t, inv s → step s = .next t → inv t

/-- Every feeder is in OFF until a table is installed (R1, R3). -/
def State.offUntilLoaded (s : State) : Prop := s.table = none → ∀ f, (s.ctl.get f).state = .off

/-- Sum is no greater than U, and only a feeder in RIDE holds a reservation (R74, R86). -/
def State.accountInv (s : State) : Prop :=
  s.sum ≤ s.account.usable ∧ (∀ f, (s.ctl.get f).state ≠ .ride → s.account.reserved.get f = 0) ∧ s.offUntilLoaded

/-- Staging never holds more than 16 records (R154). -/
def State.stagingInv (s : State) : Prop := s.writer.staging.length ≤ Config.stagingDepth

/-- The ring never holds more than its size of unconsumed records, and keeps room for a record that has been started
(R154, R157). -/
def State.ringInv (s : State) : Prop :=
  s.writer.unconsumed ≤ s.ringSize ∧ (s.writer.inProgress.isSome → s.writer.unconsumed < s.ringSize) ∧
    (s.table.isSome → 16 ≤ s.ringSize ∧ s.ringSize ≤ 4096)

/-- ATTN is released until a table is installed, and then asserted exactly while one of its two conditions holds: the
summary set and the attention mask have a condition in common, or the published producer index less C, modulo 65536,
is at or above the ring threshold (R161). -/
def State.attnInv (s : State) : Prop :=
  (s.table = none → s.writer.attn = false) ∧
    ∀ t, s.table = some t →
      (s.writer.attn = true ↔
        s.writer.summary &&& t.settings.mask ≠ 0#8 ∨
          t.settings.ringThreshold ≤ (s.writer.published - s.writer.consumer).toNat)

/-- FLT is asserted exactly while no table is installed, which is exactly outside ACTIVE (R165, R169). -/
def State.modeInv (s : State) : Prop :=
  (s.loader.mode = .active ↔ s.table.isSome) ∧ (s.loader.flt = true ↔ s.table = none)

/-- Where a feeder's open sag record stands with its state (R129), the evaluator (R61) and its episode (R133,
R134). -/
def State.sagInvOf (s : State) (f : Fid) : Prop :=
  let c := s.ctl.get f
  (c.state = .watch ∨ c.state = .ride → c.sag.isSome) ∧
    (c.sag.isSome → c.state = .watch ∨ c.state = .ride ∨ c.state = .shed) ∧
    ((s.evals.get f).sagOpen = c.sag.isSome) ∧
    (c.sag.isSome → c.episode.isSome) ∧
    ((s.quietCounter f).isSome → c.sag = none)

/-- The line, the exchange in flight and the waiting requests (R112, R118, R119): an IDLE line has no exchange, no waiting
request and no RESYNC owed; a frame or its reply belongs to an exchange; a WAIT runs exactly in WAIT; attempts are
numbered 1 to 5, and each failed one of the ladder has left its cause. -/
def State.lineInv (s : State) : Prop :=
  (s.link.line = .idle → s.link.exchange = none ∧ s.link.resyncOwed = false ∧ ∀ f, s.link.slots.get f = none) ∧
    (s.link.line = .send ∨ s.link.line = .wait ∨ s.link.line = .receive → s.link.exchange.isSome) ∧
    (s.link.wait.isSome ↔ s.link.line = .wait) ∧
    ∀ x, s.link.exchange = some x →
      1 ≤ x.attempt ∧
        (s.link.line = .send ∨ s.link.line = .wait ∨ s.link.line = .receive →
          x.attempt ≤ 5 ∧ x.causes.length + 1 = x.attempt) ∧
        (s.link.line = .settle ∨ s.link.line = .resync ∨ s.link.line = .quiet →
          x.attempt ≤ 4 ∧ x.causes.length = x.attempt)

/-- The sag records of all feeders. -/
def State.sagInv (s : State) : Prop := (∀ f, s.sagInvOf f) ∧ s.offUntilLoaded

end Sys2Proof.Machine
end

