-- ==== Sys2Proof/Certificates/Slice0/Obligations.lean ====
section
/-! DEFINITION. The statements for the provers. -/

open Sys2Proof Sys2Proof.Machine

/-! ## The machine -/

/-- A step takes the command at the front of the queue and runs it with the queue's rest. -/
def Obligations.StepRunsFrontCommand : Prop :=
  ∀ (c : Instr) (rest : List Instr) (s : State), s.pending = c :: rest →
    step s = exec c { s with pending := rest }

/-- With no command waiting one TBCLK period passes: the stamp, the silence timers, the gap timer and the count of a
WAIT go on by one, and nothing else changes; while INIT is asserted nothing counts. That an empty queue stands for one
period, and what INIT holds, are the model's choices (log entries 4 and 23). -/
def Obligations.EmptyQueuePassesOnePeriod : Prop :=
  ∀ s : State, s.pending = [] → ∃ t, step s = .next t ∧
    (s.init = true → t = s) ∧
    (s.init = false →
      t = { s with
        stamp := s.stamp + 1#32, monitors := t.monitors
        bus := { s.bus with gapTimer := s.bus.gapTimer.map fun n => min 64 (n + 1) }
        link := { s.link with wait := s.link.wait.map fun w => ⟨w.timeout, w.elapsed + 1⟩ } } ∧
      ∀ f, t.monitors.get f = { s.monitors.get f with silence := (s.monitors.get f).silence.map fun n => n - 1 })

/-- Every command, in every state, answers a next state whose port is settled: a FREE port has HOLD released and no
access waiting. Where several things of the port fall in one event, that the part settles them at the end of the event
is the model's choice (log entry 9). From a state in which a burst, a withdrawal and a deferred request stand only where
HOLD allows it, every command leaves such a state, with HOLD judged: no party waits for a HOLD that could be asserted
(R149, R150). Every command keeps one dirty mark for each mirror word. With a table installed after it, so that no full
reset has fallen in it, each mirror word whose value the event has changed is dirty, and where that word was on the port
its write will not clean it; a dirty word stays dirty but where its own write, with no value in it changed, completes
without an error (R162). So the eighth word of a record marks the producer word (R157). -/
def Obligations.EveryCommandSettlesPort : Prop :=
  ∀ (c : Instr) (s : State), Completes c s fun t =>
    (t.bus.port = .free → t.bus.hold = .released ∧ t.bus.waiting = []) ∧ (s.holdInv → t.settled) ∧
      (s.marksInv → t.marksInv) ∧ (s.marksInv → t.table ≠ none → ∀ i < 40, mirrorMarked c s t i)

/-- What the spec's rules give the part right after full reset, block by block (R2, R3, R23, R44, R61, R73, R92, R112,
R140, R154, R161, R165). -/
def Obligations.ResetState : Prop :=
  let s := State.reset
  s.loader = { mode := .loading, reload := .none, read := none, image := [], heldAddr := none, flt := true } ∧
    s.table = none ∧ s.stamp = 0#32 ∧
    (∀ f : Fid, s.byp f = true ∧
      s.ctl.get f =
        { state := .off, reason := .none, rode := 0, notReadyRun := 0, ready := false, source := .none,
          lastRef := ⟨⟨0, 0#10⟩, ⟨0, 0#10⟩, ⟨0, 0#10⟩⟩, lastResiduals := ⟨1000, 1000, 1000⟩, sag := none,
          episode := none } ∧
      s.monitors.get f =
        { assembly := ⟨.notWritten, .notWritten, .notWritten⟩, seq := none, lastValid := ⟨0#16, 0#16, 0#16⟩,
          head := ⟨⟨0, 0, 0⟩, ⟨0, 0, 0⟩, false⟩, tail := ⟨⟨0, 0, 0⟩, ⟨0, 0, 0⟩, false⟩, invalidRun := 0,
          endConfirm := 0, silence := none } ∧
      s.trackers.get f = { sync := .seek, count := none, coast := 0, search := none, last := none, hc := 0#8 } ∧
      s.evals.get f =
        { counters := [0, 0, 0, 0, 0, 0], lastLowest := 1000, sagOpen := false, applied := false,
          exceeded := false, ttt := none } ∧
      s.account.reserved.get f = 0 ∧ s.account.notice.get f = none ∧
      (s.stagers.get f).assembly = none ∧ (s.stagers.get f).pending = none ∧ (s.stagers.get f).onLine = none ∧
      (s.stagers.get f).inSlot = none ∧ (s.stagers.get f).committed = .page0 ∧ (s.stagers.get f).owner = none ∧
      (s.stagers.get f).lastSeq = none ∧ (s.stagers.get f).latest = none ∧ (s.stagers.get f).number = 0#8 ∧
      s.link.slots.get f = none) ∧
    s.dclink = { lastSeq := none, count := 0 } ∧ s.account.usable = 0 ∧
    s.link.line = .idle ∧ s.link.exchange = none ∧ s.link.resyncOwed = false ∧ s.link.wait = none ∧ s.ltxen = false ∧
    s.bus.current = none ∧ s.bus.port = .free ∧ s.bus.hold = .released ∧ s.bus.turnOwed = false ∧
    s.bus.gapTimer = none ∧
    s.writer.staging = [] ∧ s.writer.inProgress = none ∧ s.writer.nextSeq = 0#16 ∧ s.writer.producer = 0#16 ∧
    s.writer.published = 0#16 ∧ s.writer.consumer = 0#16 ∧ s.writer.dropped = 0 ∧ s.writer.overrun = false ∧
    s.writer.summary = 0#8 ∧ (∀ i, s.writer.mirrorDirty.getD i false = false) ∧
    (∀ (f : Fid) (i : Nat), (s.writer.resultDirty.get f).getD i false = false) ∧ s.writer.burst = none ∧
    s.writer.attn = false

/-- BYPn is asserted exactly in OFF, ARMING, SHED and FAULT, in every state and so in the same event as any change of
it; all eight are asserted after full reset, and until a table is installed (R3). -/
def Obligations.BypassFollowsState : Prop :=
  (∀ f : Fid, State.reset.byp f = true) ∧
    ∀ (s : State) (f : Fid),
      (s.byp f = true ↔
        (s.ctl.get f).state = .off ∨ (s.ctl.get f).state = .arming ∨ (s.ctl.get f).state = .shed ∨
          (s.ctl.get f).state = .fault) ∧
        (s.offUntilLoaded → s.table = none → s.byp f = true)

/-! ## Figures computed from data -/

/-- The residual is the largest number from 0 to 1999 that passes the test of R34; with no sample it is 0. What it is
computed from: an instant adds the square of each present sample to its phase's sum and 1 to its count, each held at its
largest value, and a missing phase adds nothing (R23, R32); an unbridged group's mark joins the accumulators' (R29); an
instant goes to the head while the tracker's count is N or less or not started (R32); the head and the tail close
together with their marks combined, and a half-cycle is valid with no mark and N/2 samples on every phase (R33). What it
gives: the verdicts onset, interruption, end and invalid limit, with the end confirm count and the invalid run after
them (R35 to R39). -/
def Obligations.ResidualIsLargest : Prop :=
  (∀ sum count nominal : Nat,
    Machine.residual sum count nominal ≤ 1999 ∧
      (count = 0 → Machine.residual sum count nominal = 0) ∧
      (count ≠ 0 →
        Machine.residual sum count nominal ^ 2 * nominal * count ≤ 1000000 * sum ∧
          ∀ r : Nat, r ≤ 1999 → r ^ 2 * nominal * count ≤ 1000000 * sum → r ≤ Machine.residual sum count nominal)) ∧
  (∀ (a b : Accum) (x : Phases (Option Sample)) (mark : Bool) (n nominal : Nat) (count : Option Nat),
    let y := a.add x mark
    let z := a.join b
    let sumLimit := 281474976710655
    let adds := fun (v : Option Sample) (sum count sum' count' : Nat) =>
      (v = none → sum' = sum ∧ count' = count) ∧
        ∀ w, v = some w → sum' = min sumLimit (sum + (w.toInt * w.toInt).toNat) ∧ count' = min 65535 (count + 1)
    adds x.a a.sum.a a.count.a y.sum.a y.count.a ∧ adds x.b a.sum.b a.count.b y.sum.b y.count.b ∧
      adds x.c a.sum.c a.count.c y.sum.c y.count.c ∧ y.mark = (a.mark || mark) ∧
      z.sum = ⟨min sumLimit (a.sum.a + b.sum.a), min sumLimit (a.sum.b + b.sum.b), min sumLimit (a.sum.c + b.sum.c)⟩ ∧
      z.count = ⟨min 65535 (a.count.a + b.count.a), min 65535 (a.count.b + b.count.b),
        min 65535 (a.count.c + b.count.c)⟩ ∧
      z.mark = (a.mark || b.mark) ∧
      (a.valid n = true ↔ a.mark = false ∧ n / 2 ≤ a.count.a ∧ n / 2 ≤ a.count.b ∧ n / 2 ≤ a.count.c) ∧
      a.residuals nominal = ⟨Machine.residual a.sum.a a.count.a nominal, Machine.residual a.sum.b a.count.b nominal,
        Machine.residual a.sum.c a.count.c nominal⟩ ∧
      (goesToHead n count = true ↔ ∀ k, count = some k → k ≤ n)) ∧
  ∀ (m : Monitor) (g : Settings) (sagOpen valid : Bool) (r : Phases Nat),
    let x := m.judge g sagOpen valid r
    let recovered := g.recovery ≤ r.a ∧ g.recovery ≤ r.b ∧ g.recovery ≤ r.c
    let ends := fun (count : Nat) (ended : Bool) => x.1.endConfirm = count ∧ x.2.ended = ended
    x.1 = { m with endConfirm := x.1.endConfirm, invalidRun := if valid then 0 else min 255 (m.invalidRun + 1) } ∧
      x.2.residuals = r ∧ x.2.valid = valid ∧
      (x.2.onset = true ↔ valid = true ∧ sagOpen = false ∧ (r.a < g.onset ∨ r.b < g.onset ∨ r.c < g.onset)) ∧
      (x.2.interruption = true ↔
        valid = true ∧ r.a < g.interruption ∧ r.b < g.interruption ∧ r.c < g.interruption) ∧
      (sagOpen = false ∨ valid = false → ends m.endConfirm false) ∧
      (sagOpen = true → valid = true →
        (¬ recovered → ends 0 false) ∧ (recovered → m.endConfirm = 0 → ends 1 false) ∧
          (recovered → 1 ≤ m.endConfirm → ends 0 true)) ∧
      (x.2.invalidLimit = true ↔ valid = false ∧ min 255 (m.invalidRun + 1) = g.invalidLimit)

/-- The cost is rating times the largest amplitude over 1000, rounded up; the angles play no part (R78). -/
def Obligations.CostRoundsUp : Prop :=
  ∀ (s : State) (f : Fid) (r : Reference),
    let top := max r.a.amp (max r.b.amp r.c.amp)
    let p := (s.entry f).rating * top
    p ≤ 1000 * s.cost f r ∧ 1000 * s.cost f r < p + 1000 ∧
      ((s.entry f).rating ≤ 255 → top ≤ 1000 → s.cost f r ≤ 255) ∧
      (top = 0 → s.cost f r = 0) ∧ (top = 1000 → s.cost f r = (s.entry f).rating)

/-- The usable figure that an update carrying V installs: 0 at or below the floor, else (V squared less Vf squared)
times K over 2^32, truncated and held at 65535; it depends on nothing else, and no earlier value counts (R75). -/
def Obligations.UsableFigure : Prop :=
  ∀ (s : State) (v : Nat),
    let g := s.settings
    let u := (s.updateUsable v).account.usable
    (∀ t : State, t.settings.floor = g.floor → t.settings.scale = g.scale → (t.updateUsable v).account.usable = u) ∧
      (v ≤ g.floor → u = 0) ∧
      (g.floor < v →
        let x := (v ^ 2 - g.floor ^ 2) * g.scale
        (65535 * 4294967296 ≤ x → u = 65535) ∧
          (x < 65536 * 4294967296 → u * 4294967296 ≤ x ∧ x < (u + 1) * 4294967296))

/-- The gap, from 0 to 65535, and the five classes of R27. What a restart group brings before its own instant: the
accumulators, the invalid run and the end confirm count are cleared and the tracker goes to SEEK, keeping its half-cycle
number, with a SYNC_CHANGE record where that is a change and the feeder is not in OFF (R30, R53, R56); a tracker that
was not in SEEK is lost to its feeder. That the SYNC_CHANGE record comes first, before the FEEDER_STATE record of that
loss, is the model's choice: R18 and R56 do not order the two (log entry 14). What tracker loss does, to LOST as to
SEEK: STANDBY goes to ARMING with the entry actions of R5, WATCH, RIDE and RECOVER go to SHED with those of R16, and any
other state stays as it is (R18). What a bridged group brings is stated with the stamp word's write (R28). -/
def Obligations.GapClasses : Prop :=
  (∀ (bridge : Nat) (h q : BitVec 16), bridge ≤ 7 →
    (gap h q = (q.toNat + 65536 + 65535 - h.toNat) % 65536) ∧
      classifyGroup bridge none q = .first ∧
      (gap h q = 0 → classifyGroup bridge (some h) q = .normal) ∧
      (1 ≤ gap h q → gap h q ≤ bridge → classifyGroup bridge (some h) q = .bridged (gap h q)) ∧
      (bridge < gap h q → gap h q < 1024 → 1 ≤ gap h q → classifyGroup bridge (some h) q = .unbridged) ∧
      (1024 ≤ gap h q → classifyGroup bridge (some h) q = .restart)) ∧
  ∀ (s : State) (f : Fid),
    let c := s.ctl.get f
    let m := s.monitors.get f
    let old := s.trackers.get f
    let lost := s.trackerLost f
    let t := s.samplerRestart f
    let armed : FeederCtl :=
      { c with state := .arming, reason := .sync, ready := false, notReadyRun := 0, rode := 0, source := .none
               lastRef := ⟨⟨0, 0#10⟩, ⟨0, 0#10⟩, ⟨0, 0#10⟩⟩ }
    let cleared : Monitor :=
      { m with head := ⟨⟨0, 0, 0⟩, ⟨0, 0, 0⟩, false⟩, tail := ⟨⟨0, 0, 0⟩, ⟨0, 0, 0⟩, false⟩, invalidRun := 0
               endConfirm := 0 }
    let release := Request.release old.hc
    let known := c.state = .standby ∨ c.state = .watch ∨ c.state = .ride ∨ c.state = .recover
    (¬ known → lost = s) ∧
      (c.state = .standby →
        lost.monitors = s.monitors.set f { m with silence := some s.settings.silenceLimit } ∧
          lost.trackers = s.trackers ∧ staged s lost (.feederState f .standby .arming .sync) ∧
          (s.malm.get f = false →
            lost.ctl = s.ctl.set f armed ∧ lost.account = s.account ∧ lost.stagers = s.stagers ∧ lost.link = s.link) ∧
          (s.malm.get f = true →
            lost.ctl.get f = { armed with state := .fault, reason := .alarm, sag := none, episode := none })) ∧
      (c.state = .watch ∨ c.state = .ride ∨ c.state = .recover →
        lost.ctl = s.ctl.set f { c with state := .shed, reason := .syncLost, source := .none } ∧
          lost.account = { s.account with reserved := s.account.reserved.set f 0 } ∧
          (lost.stagers.get f).pending = none ∧ lost.monitors = s.monitors ∧ lost.trackers = s.trackers ∧
          lost.evals = s.evals ∧ staged s lost (.feederState f c.state .shed .syncLost) ∧
          (lost.link.slots.get f = some release ∨
            ∃ x, lost.link.exchange = some x ∧ x.feeder = f ∧ x.request = release ∧ x.attempt = 1 ∧
              lost.link.line = .send)) ∧
      t.trackers = s.trackers.set f
        { sync := .seek, count := none, coast := 0, search := none, last := none, hc := old.hc } ∧
      t.monitors = s.monitors.set f
        (if old.sync ≠ .seek ∧ c.state = .standby then { cleared with silence := some s.settings.silenceLimit }
         else cleared) ∧
      (old.sync = .seek →
        t = { s with trackers := t.trackers, monitors := t.monitors, bus := t.bus, writer := t.writer } ∧
          t.writer.staging = s.writer.staging) ∧
      (old.sync ≠ .seek →
        t.ctl = lost.ctl ∧ t.account = lost.account ∧
          (c.state ≠ .off → staged s t (.syncChange f old.sync .seek .restart old.coast old.hc)))

/-- The distance of a completed record, from the half-cycle number its feeder's tracker holds, and its judgement, which
is the record's result where it fails at this check (R97). -/
def Obligations.DistanceJudgement : Prop :=
  ∀ (s : State) (f : Fid) (a : Assembly) (w7 : Word),
    let target := a.word0.extractLsb' 16 8
    let hc := (s.trackers.get f).hc
    let d := distance target hc
    let sum := (a.words.map fun w => w.getD 0#32).foldl (· + ·) (a.word0 + w7)
    d = (target.toNat + 256 - hc.toNat) % 256 ∧ d ≤ 255 ∧
      (d = 0 → judgeDistance d = some .late) ∧
      (d = 1 ∨ d = 2 → judgeDistance d = none) ∧
      (3 ≤ d → d ≤ 127 → judgeDistance d = some .tooEarly) ∧
      (128 ≤ d → judgeDistance d = some .late) ∧
      (a.broken = false → none ∉ a.words → sum = 0#32 →
        (a.word0.extractLsb' 0 8).toNat = f.val → a.word0.extractLsb' 24 8 = 0#8 →
        (s.stagers.get f).lastSeq ≠ some (a.word0.extractLsb' 8 8) →
        (∀ code, judgeDistance d = some code → s.judgeRecord f a w7 = some code) ∧
          (judgeDistance d = none →
            s.judgeRecord f a w7 =
              if (s.ctl.get f).state = .watch ∨ (s.ctl.get f).state = .ride then none else some .notRiding))

/-- Time-to-trip is the least of D less c over the breakpoints that apply, 0 where that is below 0, UNBOUNDED where none
applies (R66). The evaluator at a boundary: the lowest residual is that of a valid half-cycle, which becomes the last
valid one, and the last valid one for an invalid half-cycle (R62); with a sag open the counters advance unless the
applied mark is set, time-to-trip is recomputed from them, and the first counter above its duration marks the curve
exceeded, once (R63, R66, R68); the applied mark is cleared; with no sag open nothing else changes (R63). The opening of
a sag clears the counters and both marks and computes time-to-trip from the onset half-cycle with all counters 0 (R65);
its close clears sag open and the applied mark and makes time-to-trip UNBOUNDED (R70). An applied notice marks the half-
cycle in progress alone (R64). -/
def Obligations.TimeToTripIsLeast : Prop :=
  (∀ (curve : List Breakpoint) (rmin : Nat) (counters : List Nat),
    (timeToTrip curve rmin counters = none ↔ ∀ x ∈ curve.zip counters, x.1.level ≤ rmin) ∧
      ∀ t, timeToTrip curve rmin counters = some t →
        (∃ x ∈ curve.zip counters, rmin < x.1.level ∧ t = ((x.1.duration : Int) - x.2).toNat) ∧
          ∀ x ∈ curve.zip counters, rmin < x.1.level → t ≤ ((x.1.duration : Int) - x.2).toNat) ∧
  ∀ (e : Evaluator) (curve : List Breakpoint) (valid : Bool) (r : Phases Nat) (lowest : Nat) (named hc : BitVec 8),
    let x := e.close curve valid r
    let rmin := if valid then min r.a (min r.b r.c) else e.lastLowest
    let exceeds := ∃ p ∈ curve.zip x.1.counters, p.1.duration < p.2
    x.1.lastLowest = rmin ∧ x.1.applied = false ∧ x.1.sagOpen = e.sagOpen ∧ x.1.exceeded = (e.exceeded || x.2) ∧
      (e.sagOpen = false → x.1.counters = e.counters ∧ x.1.ttt = e.ttt ∧ x.2 = false) ∧
      (e.sagOpen = true →
        x.1.counters = (if e.applied then e.counters else advanceCounters curve rmin e.counters) ∧
          x.1.ttt = timeToTrip curve rmin x.1.counters ∧ (x.2 = true ↔ e.exceeded = false ∧ exceeds)) ∧
      e.openSag curve lowest =
        { counters := [0, 0, 0, 0, 0, 0], lastLowest := e.lastLowest, sagOpen := true, applied := false
          exceeded := false, ttt := timeToTrip curve lowest [0, 0, 0, 0, 0, 0] } ∧
      e.closeSag = { e with sagOpen := false, applied := false, ttt := none } ∧
      e.applyNotice named hc = if named = hc then { e with applied := true } else e

/-- The breakpoints that apply are the first ones of a curve whose levels decrease, so counters that never increase
along the curve still do not after a half-cycle, and stay within 1024 (R60, R61, R63). -/
def Obligations.CountersNeverIncreaseAlongCurve : Prop :=
  ∀ (curve : List Breakpoint) (rmin : Nat) (counters : List Nat), strictlyDecreasing curve = true →
    counters.Pairwise (fun a b => b ≤ a) → (∀ c ∈ counters, c ≤ 1024) → curve.length ≤ counters.length →
      let after := advanceCounters curve rmin counters
      after.length = counters.length ∧ after.Pairwise (fun a b => b ≤ a) ∧ (∀ c ∈ after, c ≤ 1024) ∧
        (∀ i, curve.length ≤ i → after[i]? = counters[i]?) ∧
        ∀ (i : Nat) (b : Breakpoint) (c : Nat), curve[i]? = some b → counters[i]? = some c →
          after[i]? = some (if rmin < b.level then min 1024 (c + 1) else c)

/-! ## Trackers -/

/-- SEEK, instant by instant (R46). -/
def Obligations.TrackerInSeek : Prop :=
  ∀ (t : Tracker) (g : Settings) (sign : Sign), g.tracks → t.sync = .seek →
    let x := t.instant g sign
    x.jump = none ∧
      (t.crosses sign → t.count = none →
        x.answer = .countStarted ∧ x.tracker = { t with last := some sign, count := some 1 }) ∧
      (¬ t.crosses sign → t.count = none → x.answer = .noBoundary ∧ x.tracker = { t with last := some sign }) ∧
      ∀ c, t.count = some c →
        (¬ t.crosses sign ∨ c < g.n / 4 →
          x.answer = .noBoundary ∧ x.tracker = { t with last := some sign, count := some (min 255 (c + 1)) }) ∧
        (t.crosses sign → g.n - g.w ≤ c → c ≤ g.n + g.w →
          x.answer = .boundaryHere ∧
            x.tracker = { sync := .locked, count := some 1, coast := 0, search := none, last := some sign,
                          hc := t.hc + 1#8 }) ∧
        (t.crosses sign → g.n / 4 ≤ c → c < g.n - g.w ∨ g.n + g.w < c →
          x.answer = .countStarted ∧ x.tracker = { t with last := some sign, count := some 1 })

/-- LOCKED, instant by instant (R47, R48). -/
def Obligations.TrackerInLocked : Prop :=
  ∀ (t : Tracker) (g : Settings) (sign : Sign) (c : Nat), g.tracks → t.sync = .locked → t.count = some c →
    c ≤ g.n + g.w →
    let x := t.instant g sign
    let here : Tracker :=
      { sync := .locked, count := some 1, coast := 0, search := none, last := some sign, hc := t.hc + 1#8 }
    (t.crosses sign → c < g.n / 4 →
        x = ⟨{ t with last := some sign, count := some (min 255 (c + 1)) }, .noBoundary, none⟩) ∧
      (t.crosses sign → g.n / 4 ≤ c → c < g.n - g.w → x = ⟨here, .boundaryHere, some ((c : Int) - g.n)⟩) ∧
      (t.crosses sign → g.n - g.w ≤ c → x = ⟨here, .boundaryHere, none⟩) ∧
      (¬ t.crosses sign → c < g.n + g.w →
        x = ⟨{ t with last := some sign, count := some (min 255 (c + 1)) }, .noBoundary, none⟩) ∧
      (¬ t.crosses sign → c = g.n + g.w →
        x.answer = .boundaryAtN ∧ x.jump = none ∧ x.tracker.count = some (g.w + 1) ∧
          x.tracker.hc = t.hc + 1#8 ∧ x.tracker.coast = 1 ∧ x.tracker.last = some sign ∧
          (g.coastLimit = 1 → x.tracker.sync = .lost ∧ x.tracker.search = none) ∧
          (1 < g.coastLimit → x.tracker.sync = .coasting))

/-- COASTING, instant by instant (R49, R50). -/
def Obligations.TrackerInCoasting : Prop :=
  ∀ (t : Tracker) (g : Settings) (sign : Sign) (c : Nat), g.tracks → t.sync = .coasting → t.count = some c →
    c ≤ g.n + g.w →
    let x := t.instant g sign
    (t.crosses sign →
        x.answer = .boundaryHere ∧
          x.tracker = { sync := .locked, count := some 1, coast := 0, search := none, last := some sign,
                        hc := t.hc + 1#8 } ∧
          (g.n - g.w ≤ c → x.jump = none) ∧
          (g.n / 4 ≤ c → c < g.n - g.w → x.jump = some ((c : Int) - g.n)) ∧
          (c < g.n / 4 → x.jump = some (c : Int))) ∧
      (¬ t.crosses sign → c < g.n + g.w →
        x = ⟨{ t with last := some sign, count := some (min 255 (c + 1)) }, .noBoundary, none⟩) ∧
      (¬ t.crosses sign → c = g.n + g.w →
        x.answer = .boundaryAtN ∧ x.jump = none ∧ x.tracker.count = some (g.w + 1) ∧
          x.tracker.hc = t.hc + 1#8 ∧ x.tracker.coast = t.coast + 1 ∧ x.tracker.last = some sign ∧
          (g.coastLimit ≤ t.coast + 1 → x.tracker.sync = .lost ∧ x.tracker.search = none) ∧
          (t.coast + 1 < g.coastLimit → x.tracker.sync = .coasting))

/-- LOST, instant by instant (R51, R52). That a crossing with a search count below N/4 adds 1 to the search count, as an
instant without a crossing does, is the model's choice: R51 gives the added 1 to instants without a crossing (log entry
30). -/
def Obligations.TrackerInLost : Prop :=
  ∀ (t : Tracker) (g : Settings) (sign : Sign) (c : Nat), g.tracks → t.sync = .lost → t.count = some c →
    c ≤ g.n + g.w →
    let x := t.instant g sign
    let relocks := ∃ k, t.search = some k ∧ t.crosses sign ∧ g.n - g.w ≤ k ∧ k ≤ g.n + g.w
    x.jump = none ∧ x.tracker.last = some sign ∧
      (relocks → x.answer = .boundaryHere ∧
        x.tracker = { sync := .locked, count := some 1, coast := 0, search := none, last := some sign,
                      hc := t.hc + 1#8 }) ∧
      (¬ relocks →
        x.tracker.sync = .lost ∧ x.tracker.coast = t.coast ∧
          (c < g.n + g.w → x.answer = .noBoundary ∧ x.tracker.count = some (min 255 (c + 1)) ∧
            x.tracker.hc = t.hc) ∧
          (c = g.n + g.w → x.answer = .boundaryAtN ∧ x.tracker.count = some (g.w + 1) ∧
            x.tracker.hc = t.hc + 1#8) ∧
          (t.search = none → t.crosses sign → x.tracker.search = some 1) ∧
          (t.search = none → ¬ t.crosses sign → x.tracker.search = none) ∧
          ∀ k, t.search = some k →
            (¬ t.crosses sign ∨ k < g.n / 4 → x.tracker.search = some (min 255 (k + 1))) ∧
              (t.crosses sign → g.n / 4 ≤ k → x.tracker.search = some 1))

/-! ## Records and replies judged -/

/-- The seven checks of a completed record, in order: the first that fails gives the result (R96). -/
def Obligations.RecordJudgedInOrder : Prop :=
  ∀ (s : State) (f : Fid) (a : Assembly) (w7 : Word),
    let r := s.judgeRecord f a w7
    let seq := a.word0.extractLsb' 8 8
    let d := distance (a.word0.extractLsb' 16 8) (s.trackers.get f).hc
    let riding := (s.ctl.get f).state = .watch ∨ (s.ctl.get f).state = .ride
    let sum := (a.words.map fun w => w.getD 0#32).foldl (· + ·) (a.word0 + w7)
    let named := (a.word0.extractLsb' 0 8).toNat = f.val ∧ a.word0.extractLsb' 24 8 = 0#8
    (a.broken = true → r = some .broken) ∧
      (a.broken = false → none ∈ a.words → r = some .incomplete) ∧
      (a.broken = false → none ∉ a.words →
        (sum ≠ 0#32 → r = some .checkFailed) ∧
        (sum = 0#32 →
          (¬ named → r = some .wrongFeeder) ∧
          (named →
            ((s.stagers.get f).lastSeq = some seq → r = some .duplicate) ∧
            ((s.stagers.get f).lastSeq ≠ some seq →
              (d = 0 ∨ 128 ≤ d → r = some .late) ∧
              (3 ≤ d → d ≤ 127 → r = some .tooEarly) ∧
              (d = 1 ∨ d = 2 → ¬ riding → r = some .notRiding) ∧
              (d = 1 ∨ d = 2 → riding → r = none)))))

/-- The checks of a reply, in order, and what a good reply says (R114, R119). Bytes after the reply's length are no part
of it: log entry 26. -/
def Obligations.ReplyJudgedInOrder : Prop :=
  ∀ (frame : FrameKind) (unit : BitVec 4) (lead : Byte) (rest : List Byte) (stops : Bool),
    let r := judgeReply frame unit (lead :: rest) stops
    let kind := (lead.extractLsb' 4 3).toNat
    (lead.getLsbD 7 = false ∨ kind < 5 ∨ stops = false → r = .error .malformed) ∧
      (lead.getLsbD 7 = true → stops = true →
        (kind = 5 → rest.length < 3 → r = .error .malformed) ∧
        (kind = 6 ∨ kind = 7 → rest.length < 2 → r = .error .malformed) ∧
        (∀ lo hi c, kind = 5 → rest = [lo, hi, c] →
          (c ≠ crc8 [lead, lo, hi] → r = .error .crc) ∧
          (c = crc8 [lead, lo, hi] →
            (lead.extractLsb' 0 4 ≠ unit → r = .error .wrongUnit) ∧
            (lead.extractLsb' 0 4 = unit → frame ≠ .engage → frame ≠ .release → r = .error .wrongKind) ∧
            (lead.extractLsb' 0 4 = unit → frame = .engage ∨ frame = .release →
              r = if lo.toNat + 256 * hi.toNat ≤ 1000 then .ok (.done (lo.toNat + 256 * hi.toNat))
                  else .error .malformed))) ∧
        (∀ x c, kind = 6 ∨ kind = 7 → rest = [x, c] →
          (c ≠ crc8 [lead, x] → r = .error .crc) ∧
          (c = crc8 [lead, x] →
            (lead.extractLsb' 0 4 ≠ unit → r = .error .wrongUnit) ∧
            (lead.extractLsb' 0 4 = unit →
              (kind = 7 → frame ≠ .statusq → r = .error .wrongKind) ∧
              (kind = 6 → frame = .resync → r = .error .wrongKind) ∧
              (kind = 6 → frame ≠ .resync →
                r = if x = 1#8 then .ok .notReady else if x = 2#8 then .ok .hot else .error .malformed) ∧
              (kind = 7 → frame = .statusq →
                r = if x = 1#8 then .ok (.status .ready) else if x = 2#8 then .ok (.status .ramping)
                    else if x = 3#8 then .ok (.status .hot) else .error .malformed)))))

/-- The CRC starts at 0xFF and takes each byte by an exclusive-or and eight steps; every frame the part sends ends in
the CRC over the bytes before it, and a reply whose last byte is another fails with CRC (R174). A frame has the length
R113 gives its kind, and what it carries can be read back from its bytes: unit, kind, half-cycle number, flags (in a
RELEASE the byte 0, so REHEARSE clear) and, in an ENGAGE, the three (amplitude, angle) pairs (Formats 12.2). -/
def Obligations.FramesReadBack : Prop :=
  let shift := fun r : Byte => if r.getLsbD 7 then (r <<< 1) ^^^ 0x2F#8 else r <<< 1
  crc8 [] = 0xFF#8 ∧
    (∀ (bytes : List Byte) (b : Byte),
      crc8 (bytes ++ [b]) = shift (shift (shift (shift (shift (shift (shift (shift (crc8 bytes ^^^ b))))))))) ∧
    (∀ bytes : List Byte, crc8 (bytes ++ [crc8 bytes]) = 0#8) ∧
    (∀ (frame : FrameKind) (unit : BitVec 4) (lead c : Byte) (body : List Byte),
      replyLength lead = some (body.length + 2) → c ≠ crc8 (lead :: body) →
        judgeReply frame unit (lead :: body ++ [c]) true = .error .crc) ∧
    resyncFrame.length = 3 ∧ resyncFrame.take 2 = [0xCF#8, 0xA5#8] ∧ resyncFrame.getLast? = some (crc8 [0xCF#8, 0xA5#8]) ∧
    ∀ (r : Request) (unit : BitVec 4),
      let bytes := r.frame unit
      let at' := fun i => bytes.getD i 0#8
      let half := fun i => (at' i).toNat + 256 * (at' (i + 1)).toNat
      bytes.length = (match r with | .engage .. => 16 | .release _ => 4 | .statusq _ => 3) ∧
        bytes.getLast? = some (crc8 bytes.dropLast) ∧
        (at' 0).getLsbD 7 = true ∧ (at' 0).extractLsb' 0 4 = unit ∧
        ((at' 0).extractLsb' 4 3).toNat = (match r with | .engage .. => 1 | .release _ => 2 | .statusq _ => 3) ∧
        at' 1 = r.hc ∧ (∀ hc, r = .release hc → at' 2 = 0#8) ∧
        ∀ ref hc source rehearse record, r = .engage ref hc source rehearse record →
          ref.a.amp ≤ 1000 → ref.b.amp ≤ 1000 → ref.c.amp ≤ 1000 →
          (at' 2).getLsbD 0 = rehearse ∧ ((at' 2).extractLsb' 1 2).toNat = source.code ∧
            half 3 = ref.a.amp ∧ half 5 = ref.a.angle.toNat ∧ half 7 = ref.b.amp ∧ half 9 = ref.b.angle.toNat ∧
            half 11 = ref.c.amp ∧ half 13 = ref.c.angle.toNat

/-! ## The energy account -/

/-- An admission request: refused with a notice outstanding (R84); judged on Free alone in rehearsal (R87); granted
where it is no greater than Free (R81); else met by taking back reservations of feeders of strictly lower priority with
rehearsal off, the lowest priority first, if they can cover it, and by none if they cannot (R82, R83). The taking stops
as soon as the request fits: with the reservation of the last victim, the one of the highest priority, put back, it
would not. What the requirement d makes of the account: at ride entry 0 admits with nothing asked unless a notice is
outstanding, and in a ride a requirement no greater than the reservation lowers it (R79, R80). -/
def Obligations.AdmissionOutcome : Prop :=
  ∀ (s : State) (f : Fid) (d : Nat),
    let r := s.requestEnergy f d
    let sum := fun a : Account => (Fid.all.map fun g => if (s.entry g).rehearsal then 0 else a.reserved.get g).sum
    let total := sum s.account + d
    let notice := (s.account.notice.get f).isSome
    let rehearsal := (s.entry f).rehearsal
    let held := s.account.reserved.get f
    let lower := fun g => decide ((s.entry f).priority < (s.entry g).priority) && !(s.entry g).rehearsal
    let candidates := (Fid.all.map fun g => if lower g then s.account.reserved.get g else 0).sum
    let granted := { s.account with reserved := s.account.reserved.set f (held + d) }
    let taken := fun g => s.account.reserved.get g ≠ 0 ∧ r.1.account.reserved.get g = 0
    s.sum = sum s.account ∧ (notice = true → r = (s, false)) ∧
      (notice = false → total ≤ s.account.usable → r.2 = true ∧ r.1.account = granted) ∧
      (notice = false → rehearsal = true → s.account.usable < total → r = (s, false)) ∧
      (notice = false → rehearsal = false → s.account.usable < total →
        (s.account.usable + candidates < total → r = (s, false)) ∧
        (total ≤ s.account.usable + candidates →
          r.2 = true ∧ r.1.account.usable = s.account.usable ∧ sum r.1.account ≤ s.account.usable ∧
            r.1.account.reserved.get f = held + d ∧ r.1.account.notice.get f = none ∧
            r.1.writer.staging = s.writer.staging ∧ r.1.blocks = State.blocks { s with account := r.1.account } ∧
            (∀ g, g ≠ f →
              (taken g → lower g = true ∧ r.1.account.notice.get g = some .preempted) ∧
              (¬ taken g → r.1.account.reserved.get g = s.account.reserved.get g ∧
                r.1.account.notice.get g = s.account.notice.get g) ∧
              (taken g → ∀ h, (s.entry g).priority < (s.entry h).priority → (s.entry h).rehearsal = false →
                r.1.account.reserved.get h = 0)) ∧
            ∃ last, last ≠ f ∧ taken last ∧
              (∀ g, g ≠ f → taken g → (s.entry last).priority ≤ (s.entry g).priority) ∧
              s.account.usable < sum r.1.account + s.account.reserved.get last)) ∧
      (d = 0 → notice = false → s.requestEntry f d = (s, true)) ∧
      (d ≠ 0 ∨ notice = true → s.requestEntry f d = r) ∧
      (d ≤ held → (s.requestRide f d).2 = true ∧
        (s.requestRide f d).1.account = { s.account with reserved := s.account.reserved.set f d }) ∧
      (held < d → s.requestRide f d = s.requestEnergy f (d - held))

/-- An update installs the new figure; where it falls below Sum the account first takes reservations back, the lowest
priority first, and stops as soon as Sum is no greater: with the reservation of the last victim, the one of the highest
priority, put back, it would be (R75, R76). Shedding makes one SHORTFALL record, with V, U before, the new U, Sum before
and after, and the victims in the order chosen, each with what was taken from it (R77). -/
def Obligations.UpdateInstallsWithinSum : Prop :=
  ∀ (s : State) (v : Nat),
    let t := s.updateUsable v
    let u := usableFigure s.settings v
    let taken := fun g => s.account.reserved.get g ≠ 0 ∧ t.account.reserved.get g = 0
    t.account.usable = u ∧ t.sum ≤ u ∧ t.blocks = State.blocks { s with account := t.account } ∧
      (s.sum ≤ u → t.account = { s.account with usable := u } ∧ t.writer.staging = s.writer.staging) ∧
      (u < s.sum →
        (∀ g,
          (taken g → (s.entry g).rehearsal = false ∧ t.account.notice.get g = some .shortfall ∧
            ∀ h, (s.entry g).priority < (s.entry h).priority → (s.entry h).rehearsal = false →
              t.account.reserved.get h = 0) ∧
          (¬ taken g → t.account.reserved.get g = s.account.reserved.get g ∧
            t.account.notice.get g = s.account.notice.get g)) ∧
        (∃ last, taken last ∧ (∀ g, taken g → (s.entry last).priority ≤ (s.entry g).priority) ∧
          u < t.sum + s.account.reserved.get last) ∧
        ∃ victims : List (Fid × Nat),
          t.writer.staging.length ≤ s.writer.staging.length + 1 ∧
            staged s t (.shortfall v s.account.usable u s.sum t.sum victims) ∧
            (∀ g n, (g, n) ∈ victims ↔ taken g ∧ n = s.account.reserved.get g) ∧
            (victims.map Prod.fst).Nodup ∧
            victims.Pairwise fun a b => (s.entry b.1).priority ≤ (s.entry a.1).priority)

/-! ## Staging (R155, R156) -/

/-- A record handed to the report writer enters staging while fewer than 16 are staged, else it is counted as dropped;
either way its conditions join the summary set and ATTN is judged. -/
def Obligations.RecordIsStagedOrCounted : Prop :=
  ∀ (s : State) (b : Body),
    let t := s.handRecord b
    t.writer.attn = t.attnWanted ∧
      (s.writer.staging.length < 16 →
        t.writer.staging = s.writer.staging ++
          [{ seq := s.writer.nextSeq, stamp := s.stamp,
             dropped := if s.writer.overrun then s.writer.dropped else 0, body := b }] ∧
        t.writer.nextSeq = s.writer.nextSeq + 1#16 ∧ t.writer.overrun = false ∧
        t.writer.dropped = (if s.writer.overrun then 0 else s.writer.dropped) ∧
        t.writer.summary = s.writer.summary ||| b.conditions) ∧
      (16 ≤ s.writer.staging.length →
        t.writer.staging = s.writer.staging ∧ t.writer.nextSeq = s.writer.nextSeq ∧ t.writer.overrun = true ∧
        t.writer.dropped = min 255 (s.writer.dropped + 1) ∧
        t.writer.summary = s.writer.summary ||| 0x08#8 ||| b.conditions) ∧
      (∀ f old new reason, b = .feederState f old new reason →
        b.conditions = if new = .shed then 0x01#8 else if new = .fault then 0x02#8 else 0#8) ∧
      (∀ f unit kind hc causes, b = .linkLadder f unit kind hc causes → b.conditions = 0x10#8) ∧
      (∀ addr tag kind f read, b = .busRefused addr tag kind f read → b.conditions = 0x20#8) ∧
      (∀ f offset prior hc, b = .phaseJump f offset prior hc → b.conditions = 0x40#8) ∧
      (∀ addr r w0 w1 w2, b = .tableRejected addr r w0 w1 w2 → b.conditions = 0x80#8) ∧
      (∀ f sag, b = .sagClosed f sag → b.conditions = 0#8) ∧
      (∀ f episode cause hc, b = .episodeClosed f episode cause hc → b.conditions = 0#8) ∧
      (∀ f result, b = .refRejected f result → b.conditions = 0#8) ∧
      (∀ f old new cause coast hc, b = .syncChange f old new cause coast hc → b.conditions = 0#8) ∧
      (∀ v u u' sum sum' victims, b = .shortfall v u u' sum sum' victims → b.conditions = 0#8) ∧
      (∀ offered c p part, b = .ringIndexRefused offered c p part → b.conditions = 0#8) ∧
      (∀ addr length identity windows reload resampled changed,
        b = .tableLoaded addr length identity windows reload resampled changed → b.conditions = 0#8)

/-- What the part writes to memory, word by word, with its values in the ranges the rules give them (Formats 12.1). An
event record: its first two words read back as sequence number, kind, feeder (15 for none), dropped count and stamp; its
words 2 to 7, by its kind, hold the fields of the table, each at its place, and nothing else. A result slot: number,
code, flags, source, page, identity, half-cycle and applied a_max (R109, R163); for a result without an identity or an
applied a_max its bit says so. The mirror: eight global words and four words for each feeder (R162). Every code is a
place in the lists that Formats gives. Which feeder a BUS_REFUSED record names in its first word, and the address 0 of a
TABLE_REJECTED record whose read failed at the start block, are the model's choices (log entry 21), and so is every zero
that no row of Formats gives: in the words of a result slot whose stager has made no result yet (log entry 37), in the
bits of a mirror word or a result word that no row names (log entry 40), and in a listed field with nothing to show,
such as the kind in a TABLE_REJECTED record with another reason than MISSING_WINDOW (log entry 41). That the flags of a
SAG_CLOSED record start with LIMITED in bit 16 is the model's choice too (log entry 42), and so is the whole word 1 of
the table as the length in word 5 of a TABLE_REJECTED record (log entry 46). -/
def Obligations.RecordHeadReadsBack : Prop :=
  let flag := fun (b : Bool) (place : Nat) => if b then 2 ^ place else 0
  let states := [FeederState.off, .arming, .standby, .watch, .ride, .recover, .shed, .fault]
  let reasons := [Reason.none, .table, .disabled, .ready, .onset, .admitted, .sagEnd, .released, .sync, .invalid,
    .episodeClosed, .cleared, .episodeLimit, .interruption, .noEnergy, .preempted, .shortfall, .rideLimit, .syncLost,
    .samplesInvalid, .alarm, .link, .modulator, .noSamples, .clearRefused]
  let syncs := [Sync.seek, .locked, .coasting, .lost]
  let kinds := [WindowKind.sample, .dclink, .reference, .control, .ring, .mirror, .guard]
  (∀ r : Record, r.dropped ≤ 255 →
    let w := fun i => r.words.getD i 0#32
    let n := fun i => (r.words.getD i 0#32).toNat
    let zeroFrom := fun k => ∀ i, k ≤ i → i < 8 → n i = 0
    r.words.length = 8 ∧ (w 0).extractLsb' 0 16 = r.seq ∧ ((w 0).extractLsb' 16 4).toNat = r.body.kind ∧
      ((w 0).extractLsb' 20 4).toNat = (match r.body.feeder with | some f => f.val | none => 15) ∧
      ((w 0).extractLsb' 24 8).toNat = r.dropped ∧ w 1 = r.stamp ∧
      (∀ f x outcome, r.body = .sagClosed f x → x.outcome = some outcome → x.largestGap ≤ 7 → x.minimum.a ≤ 1999 →
        x.minimum.b ≤ 1999 → x.minimum.c ≤ 1999 → x.duration ≤ 65535 → x.ridden ≤ 255 → x.autoHold ≤ 255 →
        r.body.kind = 1 ∧ r.body.feeder = some f ∧
        n 2 = x.onsetHc.toNat + 256 * (1 + [SagOutcome.tolerated, .protect, .shed, .fault, .off].idxOf outcome) +
            flag x.limited 16 + flag x.clampedSeen 17 + flag x.phaseJump 18 + flag x.toleranceExceeded 19 +
            flag x.interruption 20 + 16777216 * x.largestGap ∧
          w 3 = x.onsetStamp ∧ n 4 = x.minimum.a + 65536 * x.minimum.b ∧ n 5 = x.minimum.c + 65536 * x.duration ∧
          n 6 = x.ridden + 256 * x.autoHold ∧ zeroFrom 7) ∧
      (∀ f x cause hc, r.body = .episodeClosed f x cause hc → x.sagCount ≤ 255 → x.riddenTotal ≤ 65535 →
        r.body.kind = 2 ∧ r.body.feeder = some f ∧
        n 2 = x.sagCount + 256 * [WorstOutcome.tolerated, .protect, .shed, .tripped].idxOf x.worst +
            4096 * [CloseCause.window, .fault, .off].idxOf cause + 65536 * x.firstOnsetHc.toNat +
            16777216 * hc.toNat ∧
          w 3 = x.firstOnsetStamp ∧ n 4 = x.riddenTotal ∧ zeroFrom 5) ∧
      (∀ f old new reason, r.body = .feederState f old new reason →
        r.body.kind = 3 ∧ r.body.feeder = some f ∧
        n 2 = states.idxOf old + 16 * states.idxOf new + 256 * reasons.idxOf reason ∧ zeroFrom 3) ∧
      (∀ f x, r.body = .refRejected f x → r.body.kind = 4 ∧ r.body.feeder = some f ∧
        w 2 = x.words.getD 0 0#32 ∧ w 3 = x.words.getD 1 0#32 ∧ w 4 = x.words.getD 2 0#32 ∧ zeroFrom 5) ∧
      (∀ f offset prior hc, r.body = .phaseJump f offset prior hc → r.body.kind = 5 ∧ r.body.feeder = some f ∧
        n 2 = (offset % 65536).toNat + 65536 * syncs.idxOf prior + 16777216 * hc.toNat ∧ zeroFrom 3) ∧
      (∀ f old new cause coast hc, r.body = .syncChange f old new cause coast hc → coast ≤ 16 →
        r.body.kind = 6 ∧ r.body.feeder = some f ∧
        n 2 = syncs.idxOf old + 16 * syncs.idxOf new +
          256 * [SyncCause.lock, .coast, .relock, .restart, .silence, .table].idxOf cause + 65536 * coast +
          16777216 * hc.toNat ∧ zeroFrom 3) ∧
      (∀ f unit kind hc causes, r.body = .linkLadder f unit kind hc causes → r.body.kind = 7 ∧ r.body.feeder = some f ∧
        let c := fun i => (causes[i]?.map fun x =>
          1 + [LinkCause.noReply, .crc, .wrongUnit, .wrongKind, .malformed].idxOf x).getD 0
        n 2 = unit.toNat + 16 * (1 + [FrameKind.engage, .release, .statusq, .resync].idxOf kind) + 256 * hc.toNat ∧
          n 3 = c 0 + 256 * c 1 + 65536 * c 2 + 16777216 * c 3 ∧ zeroFrom 4) ∧
      (∀ v u u' sum sum' victims, r.body = .shortfall v u u' sum sum' victims → v ≤ 65535 → u ≤ 65535 → u' ≤ 65535 →
        sum ≤ 65535 → (∀ x ∈ victims, x.2 ≤ 65535) →
        let took := fun f : Fid => ((victims.find? fun x => x.1 = f).map Prod.snd).getD 0
        r.body.kind = 8 ∧ r.body.feeder = none ∧ n 2 = v + 65536 * u ∧ n 3 = u' + 65536 * sum ∧
          n 4 = took 0 + 65536 * took 1 ∧ n 5 = took 2 + 65536 * took 3 ∧ n 6 = took 4 + 65536 * took 5 ∧
          n 7 = took 6 + 65536 * took 7) ∧
      (∀ addr tag kind f read, r.body = .busRefused addr tag kind f read → r.body.kind = 9 ∧ r.body.feeder = f ∧
        w 2 = addr ∧ n 3 = tag.toNat + 16 * (kind.map fun x => 1 + kinds.idxOf x).getD 0 +
          256 * (f.map Fin.val).getD 0 + flag read 12 ∧ zeroFrom 4) ∧
      (∀ offered c p partialWrite, r.body = .ringIndexRefused offered c p partialWrite →
        r.body.kind = 10 ∧ r.body.feeder = none ∧ w 2 = offered ∧ n 3 = c.toNat + 65536 * p.toNat ∧
          n 4 = flag partialWrite 0 ∧ zeroFrom 5) ∧
      (∀ addr length identity windows reload resampled changed,
        r.body = .tableLoaded addr length identity windows reload resampled changed → length ≤ 512 → windows ≤ 32 →
        r.body.kind = 11 ∧ r.body.feeder = none ∧ w 2 = addr ∧
          n 3 = length + 65536 * windows + flag reload 24 + flag resampled 25 ∧ w 4 = identity ∧ n 5 < 256 ∧
          (∀ f : Fid, (w 5).getLsbD f.val = changed.contains f) ∧ zeroFrom 6) ∧
      (∀ addr x signature length identity, r.body = .tableRejected addr x signature length identity →
        x.index.getD 0 ≤ 1023 →
        r.body.kind = 12 ∧ r.body.feeder = none ∧ w 2 = addr.getD 0#32 ∧
          n 3 = 1 + [RejectReason.signature, .length, .checksum, .range, .priority, .unit, .curveOrder, .missingWindow,
              .duplicateWindow, .readFailed].idxOf x.reason + 256 * x.index.getD 0 + flag x.index.isSome 18 +
            1048576 * (x.kind.map fun y => 1 + kinds.idxOf y).getD 0 + 16777216 * (x.feeder.map Fin.val).getD 0 ∧
          w 4 = signature.getD 0#32 ∧ w 5 = length.getD 0#32 ∧ w 6 = identity.getD 0#32 ∧
          n 7 = flag signature.isSome 0 + flag length.isSome 1 + flag identity.isSome 2)) ∧
  (∀ x : Result,
    let n := fun i => (x.words.getD i 0#32).toNat
    x.words.length = 8 ∧
      n 0 = x.number.toNat + 256 * [ResultCode.none, .abandoned, .broken, .incomplete, .checkFailed, .wrongFeeder,
          .duplicate, .late, .tooEarly, .notRiding, .superseded, .stale, .refusedEnergy, .refusedByModulator,
          .linkFailed, .committed].idxOf x.code + flag x.clamped 16 + flag x.limited 17 + flag x.unflipped 18 +
        1048576 * [Source.none, .record, .autofill, .hold].idxOf x.source +
        16777216 * [Page.page0, .page1].idxOf x.page ∧
      (∀ y, x.ident = some y → n 1 = y.seq.toNat + 256 * y.target.toNat + 65536 * x.judgedAt.toNat + 2147483648) ∧
      (x.ident = none → n 1 / 65536 = x.judgedAt.toNat) ∧
      (∀ y, x.applied = some y → y ≤ 1000 → n 2 = y + 2147483648) ∧ (x.applied = none → n 2 < 2147483648) ∧
      ∀ i, 3 ≤ i → n i = 0) ∧
  ∀ (s : State) (f : Fid) (t : Table), s.table = some t →
    let c := s.ctl.get f
    let g := s.stagers.get f
    let n := fun i => (s.mirrorWord i).toNat
    (∀ i, (∀ x, g.latest = some x → s.resultWord f i = x.words.getD i 0#32) ∧
      (g.latest = none → s.resultWord f i = 0#32)) ∧
      n 0 = [Mode.loading, .failed, .active].idxOf s.loader.mode ∧
      n 1 = [Reload.none, .requested, .reading, .held].idxOf s.loader.reload ∧
      (s.account.usable ≤ 65535 → n 2 = s.account.usable) ∧ (s.sum ≤ 65535 → n 3 = s.sum) ∧
      n 4 = s.writer.producer.toNat ∧ n 5 = s.writer.consumer.toNat ∧ n 6 = s.writer.summary.toNat ∧
      s.mirrorWord 7 = t.identity ∧
      n (8 + 4 * f.val) = states.idxOf c.state + 256 * reasons.idxOf c.reason ∧
      n (9 + 4 * f.val) = syncs.idxOf (s.trackers.get f).sync + 256 * (s.trackers.get f).hc.toNat ∧
      (s.account.reserved.get f ≤ 65535 → c.rode ≤ 255 →
        n (10 + 4 * f.val) = s.account.reserved.get f + 65536 * c.rode) ∧
      ((∀ e, c.episode = some e → e.sagCount ≤ 255) → (∀ x, (s.evals.get f).ttt = some x → x ≤ 1023) →
        n (11 + 4 * f.val) =
          (c.episode.map Episode.sagCount).getD 0 + 65536 * ((s.evals.get f).ttt.getD 65535))

/-! ## Commands: reset -/

/-- POWER_ON, INIT_ASSERT and INIT_RELEASE (R140, R165). Full reset brings every block to its reset values; the queue,
the alarm pins, the model's own draw count and the accesses under way are what a reset does not reach. The start-up read
follows where INIT is released. The fourth clause, that an INIT_RELEASE with the mode not LOADING or with a read in
progress changes the level of INIT alone, is the model's choice for an event that cannot occur there (log entry 3). -/
def Obligations.ResetCommands : Prop :=
  ∀ (init : Bool) (s : State), (s.bus.port = .free → s.bus.waiting = []) →
    let after := fun (init : Bool) (read : Option TableRead) =>
      { State.reset with
        pending := s.pending, init := init, malm := s.malm, draws := s.draws
        loader := { Loader.reset with read := read }
        bus := { Bus.reset with current := s.bus.current, waiting := s.bus.waiting, answer := s.bus.answer } }
    Completes (.powerOn init) s (fun t =>
        t.offPort = (after init (if init then none else some ⟨none, 0, 0⟩)).offPort ∧ t.holds .released none ∧
          (s.bus.port ≠ .free → t.bus.port = s.bus.port.discarded) ∧
          (s.bus.port = .free → init = false → t.bus.port = .loader Config.tablePointer false)) ∧
      Completes .initAssert s (fun t =>
        t.offPort = (after true none).offPort ∧ t.holds .released none ∧ (s.bus.port ≠ .free → t.bus.port = s.bus.port.discarded)) ∧
      (s.settled → s.loader.mode = .loading → s.loader.read = none →
        Completes .initRelease s fun t =>
          t.offMarks = State.offMarks
              { s with init := false, loader := { s.loader with read := some ⟨none, 0, 0⟩, image := [] } } ∧
            (s.bus.port = .free → t.bus.port = .loader Config.tablePointer false)) ∧
      (s.settled → s.loader.mode ≠ .loading ∨ s.loader.read ≠ none →
        Completes .initRelease s fun t => t.offPort = State.offPort { s with init := false })

/-- START_WORD_RESTART and START_WORD_LOAD_REQUEST (R166): the write of 2 brings full reset and a start-up read, the
write of 1 begins a read in PASSTHRU-FAILED alone; while INIT is asserted neither is handed over (R165). The write
itself passes to memory. -/
def Obligations.StartWordWrites : Prop :=
  ∀ s : State, s.takesAtOnce →
    Completes .startWordRestart s (fun t =>
        t.bus.port = .upstream ∧ (s.init = false → t.holds .released none) ∧
          t.offPort = State.offPort
            (if s.init then s.taken (startWord 2#32)
             else { State.reset with
               pending := s.pending, malm := s.malm, draws := s.draws
               loader := { Loader.reset with read := some ⟨none, 0, 0⟩ }
               bus := { Bus.reset with
                 current := some ⟨startWord 2#32, .start, Config.startBlock⟩, answer := s.bus.answer } })) ∧
      Completes .startWordLoadRequest s (fun t =>
        t.bus.port = .upstream ∧
          t.offMarks = State.offMarks
            (if s.init = false ∧ s.loader.mode = .failed then
              { s.taken (startWord 1#32) with
                loader := { s.loader with mode := .loading, read := some ⟨none, 0, 0⟩, image := [] } }
             else s.taken (startWord 1#32)))

/-! ## Commands: upstream accesses -/

/-- Any access presented while the port carries a word waits behind those presented before it, and nothing else happens
(R148; that they are taken in the order presented is log entry 2). -/
def Obligations.AccessWaitsForThePort : Prop :=
  ∀ (c : Instr) (x : Access) (s : State), accessOf c = some x → s.bus.port ≠ .free →
    Completes c s fun t =>
      t.offPort = State.offPort { s with bus := { s.bus with waiting := s.bus.waiting ++ [x] } } ∧
        t.bus.port = s.bus.port

/-- Accesses that only pass to memory: START_BLOCK_WRITE with other words, values, enables or tags; PLAIN_ACCESS, in no
window, as a read of the start block, whose class is START, or as a read of a window; ALIAS_READ, which goes to the
committed page; CONTROL_OTHER_WRITE (R93, R141, R142, R145, R147). -/
def Obligations.PassingAccesses : Prop :=
  ∀ s : State, s.takesAtOnce →
    let passes := fun (c : Instr) (x : Access) =>
      Completes c s fun t => t.offPort = (s.taken x).offPort ∧ t.bus.port = .upstream
    (∀ tag a be v, a.aligned = true → a.inStartBlock = true → notStartCode tag a be v = true →
        passes (.startBlockWrite tag a be v) (taggedWrite tag a be v)) ∧
      (∀ x : Access, x.addr.inStartBlock = true → x.write = false →
        passes (.plainAccess x) x ∧ (s.taken x).bus.current = some ⟨x, .start, x.addr⟩) ∧
      (∀ x, s.classify x.addr = .plain → passes (.plainAccess x) x) ∧
      (∀ x w, s.classify x.addr = .window w → x.write = false → w.kind ≠ .guard → passes (.plainAccess x) x) ∧
      (∀ tag a w, s.classify a = .window w → w.kind = .reference → refSlot (w.offset a) = .alias0 →
        passes (.aliasRead tag a) (taggedRead tag a) ∧
          (s.taken (taggedRead tag a)).bus.current =
            some ⟨taggedRead tag a, .window w,
              (w.base + if (s.stagers.get w.feeder).committed = .page0 then 32#32 else 64#32) +
                (w.offset a &&& 31#32)⟩) ∧
      (∀ a be v w, s.classify a = .window w → w.kind = .control → 16 ≤ (w.offset a).toNat →
        passes (.controlOtherWrite a be v) (processorWrite a be v))

/-- REFUSED_WRITE and GUARD_READ: an error response without a memory cycle, and a BUS_REFUSED record (R143, R144). The
refused access leaves the port FREE and clears an owed turn: log entry 27. -/
def Obligations.RefusedAccesses : Prop :=
  ∀ (s : State) (tag : BitVec 2) (a : Word) (be : BitVec 4) (v : Word) (w : WindowEntry),
    s.takesAtOnce → s.classify a = .window w →
    let refused := fun (read : Bool) =>
      State.offPort (State.handRecord
        { s with bus := { s.bus with turnOwed := false, writerDeferred := false, answer := some ⟨tag, true, none⟩ } }
        (.busRefused a tag (some w.kind)
          (if w.kind = .sample ∨ w.kind = .reference then some w.feeder else none) read))
    ((w.kind = .sample ∨ w.kind = .dclink) ∧ tag ≠ tagSampler ∨
        w.kind = .reference ∧ (tag ≠ tagProcessor ∨ refSlot (w.offset a) ≠ .alias0) ∨
        w.kind = .control ∧ tag ≠ tagProcessor ∨ w.kind = .ring ∨ w.kind = .mirror ∨ w.kind = .guard →
      Completes (.refusedWrite tag a be v) s fun t => t.offPort = refused false) ∧
    (w.kind = .guard → Completes (.guardRead tag a) s fun t => t.offPort = refused true)

/-- SAMPLE_PHASE_WRITE: a full write holds the sample of its phase, a partial one marks the phase missing (R25). -/
def Obligations.SamplePhaseWrite : Prop :=
  ∀ (s : State) (a : Word) (be : BitVec 4) (v : Word) (w : WindowEntry),
    s.takesAtOnce → s.classify a = .window w → w.kind = .sample → a.groupPlace ≠ 3#2 →
    Completes (.samplePhaseWrite a be v) s fun t =>
      let m := s.monitors.get w.feeder
      let x : PhaseSlot := if be = 15#4 then .written (v.extractLsb' 0 16) else .missing
      let assembly : Phases PhaseSlot :=
        if a.groupPlace = 0#2 then { m.assembly with a := x }
        else if a.groupPlace = 1#2 then { m.assembly with b := x }
        else { m.assembly with c := x }
      t.bus.port = .upstream ∧
        t.offPort = State.offPort
          { s.taken (samplerWrite a be v) with
            monitors := s.monitors.set w.feeder { m with assembly := assembly } }

/-- SAMPLE_STAMP_WRITE: a partial write does nothing more than pass; a full one settles the phases, takes the sequence,
hands over the bridged instants of a bridged group or takes the restart actions, then hands over the group's own
instant, empties the assembly and restarts the silence timer unless the feeder is in OFF (R26 to R30, R40); a bridged
instant repeats the last valid values as they stood before, and the largest bridged gap follows an open sag record
(R28); which instant comes first within the event is log entry 15. What one instant does: the tracker takes its sign,
the monitor acts on the answer, and the instant is accumulated (R31, R32); at a boundary the half-cycle that closes is
head and tail, or the head alone with the tail left for the next (R33), and the four steps follow in the order of R54: a
changed sync state makes its SYNC_CHANGE record, unless the feeder is in OFF, and a move to LOST reaches the controller
(R18, R56; in that order: log entry 14; that the record's coast count is the one from before the instant, at a flywheel
boundary the one before it is raised, is the model's choice too: log entry 39); a phase jump makes its PHASE_JUMP
record with its summary condition, unless the feeder is in OFF, then makes the pending reference STALE, with its
REF_REJECTED record, and marks the open sag record (R55, R101, R110); the half-cycle closes with its residuals,
validity and verdicts, and the evaluator takes its part, a curve newly exceeded marking the sag record and raising
TRIPPED (R33 to R35, R68, R69); the controller and the stager receive the boundary. A result of the event, and the
REF_REJECTED records of the event, then take the injection source and the page after the event (R109; log entry 22). -/
def Obligations.SampleStampWrite : Prop :=
  (∀ (s : State) (f : Fid) (x : Instant),
    let g := s.settings
    let old := s.trackers.get f
    let r := old.instant g x.sign
    let new := r.tracker.sync
    let m := s.monitors.get f
    let empty : Accum := ⟨⟨0, 0, 0⟩, ⟨0, 0, 0⟩, false⟩
    let u := s.takeInstant f x
    let put := fun b : Monitor =>
      if r.tracker.count.all fun c => decide (c ≤ g.n) then { b with head := b.head.add x.values x.mark }
      else { b with tail := b.tail.add x.values x.mark }
    let begins := fun b : Monitor => u.offMarks =
      State.offMarks { s with trackers := s.trackers.set f r.tracker, monitors := s.monitors.set f (put b) }
    (r.answer = .noBoundary → begins m) ∧ (r.answer = .countStarted → begins { m with head := empty, tail := empty }) ∧
    (r.answer = .boundaryHere ∨ r.answer = .boundaryAtN →
      let here := decide (r.answer = .boundaryHere)
      let closed := if here then m.head.join m.tail else m.head
      let s₁ := State.putMonitor (s.putTracker f r.tracker) f
        { m with head := if here then empty else m.tail, tail := empty }
      let s₂ := s₁.reportSync f old
      let s₃ := s₂.reportJump f old.sync r.jump
      let close := s₃.closeHalfCycle f closed
      let s₄ := close.1
      let s₅ := s₄.boundary f close.2
      let s₆ := s₅.settleResults s₁ f
      let cause : SyncCause := if new = .locked then if old.sync = .seek then .lock else .relock else .coast
      let told := if (s₁.ctl.get f).state = .off then s₁
        else s₁.handRecord (.syncChange f old.sync new cause old.coast r.tracker.hc)
      let residuals := closed.residuals (s.entry f).nominal
      let judged := (s₃.monitors.get f).judge g (s₃.ctl.get f).sag.isSome (closed.valid g.n) residuals
      let e := (s₃.evals.get f).close (s.curve f) (closed.valid g.n) residuals
      let c₂ := s₂.ctl.get f
      let c₃ := s₃.ctl.get f
      let n := (s₁.stagers.get f).number
      let stale := endAll .stale (s₂.stagers.get f).pending.toList
      let settled := fun y : Result =>
        { y with source := (s₅.ctl.get f).source, page := (s₅.stagers.get f).committed }
      let settles := fun y : Record => match y.body with
        | .refRejected h x => if h = f then { y with body := .refRejected h (settled x) } else y
        | _ => y
      s₁.offMarks = State.offMarks
          { s with trackers := s.trackers.set f r.tracker
                   monitors := s.monitors.set f { m with head := if here then empty else m.tail, tail := empty } } ∧
        (old.sync = new → s₂ = s₁) ∧ (old.sync ≠ new → s₂ = if new = .lost then told.trackerLost f else told) ∧
        (r.jump = none → s₃ = s₂) ∧
        (∀ offset, r.jump = some offset →
          (c₂.state ≠ .off → staged s₂ s₃ (.phaseJump f offset old.sync r.tracker.hc)) ∧
            s₃.blocks = State.blocks
              { s₂ with stagers := s₃.stagers
                        ctl := s₂.ctl.set f { c₂ with sag := c₂.sag.map fun y => { y with phaseJump := true } } } ∧
            (s₃.stagers.get f).pending = none ∧ resultsMade s₂ s₃ f stale ∧
            recorded s₂ s₃ ((if c₂.state = .off then [] else [.phaseJump f offset old.sync r.tracker.hc]) ++
              refRecords f (endResults s₂ s₃ f stale)) ∧
            s₃.writer.summary.getLsbD 6 = (s₂.writer.summary.getLsbD 6 || decide (c₂.state ≠ .off))) ∧
        close.2 = judged.2 ∧
        s₄.blocks = State.blocks
          { s₃ with monitors := s₃.monitors.set f judged.1, evals := s₃.evals.set f e.1
                    ctl := if e.2 then
                        s₃.ctl.set f { c₃ with sag := c₃.sag.map fun y => { y with toleranceExceeded := true } }
                      else s₃.ctl } ∧
        s₄.writer.staging = s₃.writer.staging ∧
        s₄.writer.summary = (if e.2 then s₃.writer.summary ||| 0x04#8 else s₃.writer.summary) ∧
        ((s₅.stagers.get f).number = n → s₆ = s₅) ∧
        ((s₅.stagers.get f).number ≠ n →
          s₆.blocks = State.blocks { s₅ with stagers := s₆.stagers } ∧
            (∀ i, s₆.writer.staging[i]? =
              s₅.writer.staging[i]?.map fun y => if i < s₁.writer.staging.length then y else settles y) ∧
            s₆.stagers.get f = { s₅.stagers.get f with latest := (s₅.stagers.get f).latest.map settled }) ∧
        u = { s₆ with monitors := s₆.monitors.set f (put (s₆.monitors.get f)) })) ∧
  ∀ (s : State) (a : Word) (be : BitVec 4) (v : Word) (w : WindowEntry),
    s.takesAtOnce → s.classify a = .window w → w.kind = .sample → a.groupPlace = 3#2 →
    let f := w.feeder
    let m := s.monitors.get f
    let taken := s.taken (samplerWrite a be v)
    let q := v.extractLsb' 0 16
    let present := fun (slot : PhaseSlot) (i : Nat) =>
      match slot with | .written x => if v.getLsbD i then some x else none | .notWritten => none | .missing => none
    let values : Phases (Option Sample) := ⟨present m.assembly.a 16, present m.assembly.b 17, present m.assembly.c 18⟩
    let last : Phases Sample :=
      ⟨values.a.getD m.lastValid.a, values.b.getD m.lastValid.b, values.c.getD m.lastValid.c⟩
    let sign := fun y : Sample => if y.msb then Sign.negative else .positive
    let cls := classifyGroup s.settings.bridgeLimit m.seq q
    let own : Instant := ⟨values, sign last.a, decide (cls = .unbridged)⟩
    let again : Instant := ⟨⟨some m.lastValid.a, some m.lastValid.b, some m.lastValid.c⟩, sign m.lastValid.a, false⟩
    let start := { taken with monitors := s.monitors.set f { m with lastValid := last, seq := some q } }
    let completes := fun before : State => Completes (.sampleStampWrite a be v) s fun t =>
      let u := before.takeInstant f own
      let y := u.monitors.get f
      t.bus.port = .upstream ∧ t.offPort = State.offPort { u with
        monitors := u.monitors.set f { y with
          assembly := ⟨.notWritten, .notWritten, .notWritten⟩
          silence := if (u.ctl.get f).state = .off then y.silence else some s.settings.silenceLimit } }
    (be ≠ 15#4 → Completes (.sampleStampWrite a be v) s fun t =>
      t.offPort = taken.offPort ∧ t.bus.port = .upstream) ∧
    (be = 15#4 →
      (cls = .first ∨ cls = .normal ∨ cls = .unbridged → completes start) ∧
      (cls = .restart → completes (start.samplerRestart f)) ∧
      ∀ n, cls = .bridged n →
        let b := (List.replicate n again).foldl (fun b x => b.takeInstant f x) start
        let c := b.ctl.get f
        let gapped := { c with sag := c.sag.map fun y => { y with largestGap := max y.largestGap n } }
        completes { b with ctl := b.ctl.set f gapped })

/-- DCLINK_WRITE: partial writes and a repeated sequence count for nothing; else the sample counts, and every interval's
last one updates the usable figure from its own value (R41, R42). -/
def Obligations.DclinkWrite : Prop :=
  ∀ (s : State) (a : Word) (be : BitVec 4) (v : Word) (w : WindowEntry),
    s.takesAtOnce → s.classify a = .window w → w.kind = .dclink →
    let q := v.extractLsb' 16 16
    let taken := s.taken (samplerWrite a be v)
    Completes (.dclinkWrite a be v) s fun t =>
      t.bus.port = .upstream ∧
        (be ≠ 15#4 ∨ s.dclink.lastSeq = some q → t.offPort = taken.offPort) ∧
        (be = 15#4 → s.dclink.lastSeq ≠ some q →
          (s.dclink.count + 1 < s.settings.dcInterval →
            t.offPort = State.offPort { taken with dclink := ⟨some q, s.dclink.count + 1⟩ }) ∧
          (s.settings.dcInterval ≤ s.dclink.count + 1 →
            t.offPort = (State.updateUsable { taken with dclink := ⟨some q, 0⟩ } (v.extractLsb' 0 16).toNat).offPort ∧
              t.dclink = ⟨some q, 0⟩ ∧
              t.account.usable = usableFigure s.settings (v.extractLsb' 0 16).toNat))

/-- ALIAS_WORD0_WRITE: it goes on to memory at the open page (R93, R146), clears the page owner and opens an assembly,
with a result ABANDONED for one already open (R94, R104, R109), which marks its result slot dirty and makes its
REF_REJECTED record (R110, R163). -/
def Obligations.AliasWord0Write : Prop :=
  ∀ (s : State) (a : Word) (be : BitVec 4) (v : Word) (w : WindowEntry),
    s.takesAtOnce → s.classify a = .window w → w.kind = .reference → refSlot (w.offset a) = .alias0 →
    a.slotPlace = 0#3 →
    let f := w.feeder
    let g := s.stagers.get f
    let opened : Assembly :=
      { word0 := v &&& byteMask be, words := [none, none, none, none, none, none], broken := be != 15#4 }
    let x := processorWrite a be v
    let taken := s.taken x
    let openPage := w.base + if g.committed = .page0 then 64#32 else 32#32
    Completes (.aliasWord0Write a be v) s fun t =>
      t.bus.port = .upstream ∧ t.bus.current = some ⟨x, .window w, openPage + (w.offset a &&& 31#32)⟩ ∧
        (g.assembly = none →
          t.offPort = State.offPort
            { taken with stagers := s.stagers.set f { g with owner := none, assembly := some opened } }) ∧
        (∀ old, g.assembly = some old →
          let r : Result :=
            { number := g.number + 1#8, code := .abandoned, clamped := false, limited := false, unflipped := false,
              ident := some ⟨old.word0.extractLsb' 8 8, old.word0.extractLsb' 16 8⟩,
              judgedAt := (s.trackers.get f).hc, applied := none, source := (s.ctl.get f).source, page := g.committed }
          t.stagers = s.stagers.set f
              { g with owner := none, assembly := some opened, number := g.number + 1#8, latest := some r } ∧
            slotMarked s t f ∧ t.blocks = State.blocks { s with stagers := t.stagers } ∧ sameSurroundings taken t ∧
            staged s t (.refRejected f r) ∧ recorded s t [.refRejected f r])

/-- ALIAS_WORD_WRITE: it goes on to memory at the open page (R93, R146); a full write of word 1 to 6 is held in the open
assembly, a partial one breaks it; with no assembly open only the page owner is cleared (R95, R104). -/
def Obligations.AliasWordWrite : Prop :=
  ∀ (s : State) (a : Word) (be : BitVec 4) (v : Word) (w : WindowEntry),
    s.takesAtOnce → s.classify a = .window w → w.kind = .reference → refSlot (w.offset a) = .alias0 →
    a.slotPlace ≠ 0#3 → a.slotPlace ≠ 7#3 →
    let g := s.stagers.get w.feeder
    let x := processorWrite a be v
    let openPage := w.base + if g.committed = .page0 then 64#32 else 32#32
    Completes (.aliasWordWrite a be v) s fun t =>
      t.bus.port = .upstream ∧ t.bus.current = some ⟨x, .window w, openPage + (w.offset a &&& 31#32)⟩ ∧
        t.offPort = State.offPort
          { s.taken x with
            stagers := s.stagers.set w.feeder
              { g with
                owner := none
                assembly := g.assembly.map fun x =>
                  if be = 15#4 then { x with words := x.words.set (a.slotPlace.toNat - 1) (some v) }
                  else { x with broken := true } } }

/-- ALIAS_WORD7_WRITE: it goes on to memory at the open page (R93, R146) and completes the open assembly, which is judged
and ends: a record that fails a check makes that check's result, with its REF_REJECTED record; one that passes all is
accepted, clamped, pending and page owner, a pending one before it ending SUPERSEDED, and no record is made; each result
marks its result slot dirty (R96, R99, R104, R109, R110, R163). The serial number that an accepted record takes, and that
goes on by one with each, is the model's own: log entry 25. -/
def Obligations.AliasWord7Write : Prop :=
  ∀ (s : State) (a : Word) (be : BitVec 4) (v : Word) (w : WindowEntry),
    s.takesAtOnce → s.classify a = .window w → w.kind = .reference → refSlot (w.offset a) = .alias0 →
    a.slotPlace = 7#3 →
    let f := w.feeder
    let g := s.stagers.get f
    let write := processorWrite a be v
    let taken := s.taken write
    let openPage := w.base + if g.committed = .page0 then 64#32 else 32#32
    Completes (.aliasWord7Write a be v) s fun t =>
      let quiet := t.offPort = State.offPort { taken with stagers := t.stagers }
      t.bus.port = .upstream ∧ t.bus.current = some ⟨write, .window w, openPage + (w.offset a &&& 31#32)⟩ ∧
        t.blocks = State.blocks { s with stagers := t.stagers } ∧ sameSurroundings taken t ∧
        (∀ h, h ≠ f → t.stagers.get h = s.stagers.get h) ∧
        (g.assembly = none → t.stagers.get f = { g with owner := none } ∧ quiet) ∧
        ∀ x, g.assembly = some x →
          let x' : Assembly := { x with broken := x.broken || be != 15#4 }
          let result := fun (n : BitVec 8) (code : ResultCode) (clamped : Bool) (i : Ident) (page : Page) =>
            ({ number := n, code := code, clamped := clamped, limited := false, unflipped := false, ident := some i,
               judgedAt := (s.trackers.get f).hc, applied := none, source := (s.ctl.get f).source,
               page := page } : Result)
          let ident : Ident := ⟨x.word0.extractLsb' 8 8, x.word0.extractLsb' 16 8⟩
          (∀ code, s.judgeRecord f x' v = some code →
            t.stagers.get f =
                { g with owner := none, assembly := none, number := g.number + 1#8,
                         latest := some (result (g.number + 1#8) code false ident g.committed) } ∧
              slotMarked s t f ∧
              (let r := Body.refRejected f (result (g.number + 1#8) code false ident g.committed)
               staged s t r ∧ recorded s t [r])) ∧
          (s.judgeRecord f x' v = none →
            let word := fun i => (x.words.getD i none).getD 0#32
            let low := fun i => (word i).toNat % 65536
            let limit := (s.entry f).injectionLimit
            let r : Accepted :=
              { serial := g.nextSerial, seq := ident.seq, target := ident.target
                ref := ⟨⟨min limit (low 0), (word 1).extractLsb' 0 10⟩, ⟨min limit (low 2), (word 3).extractLsb' 0 10⟩,
                  ⟨min limit (low 4), (word 5).extractLsb' 0 10⟩⟩
                clamped := decide (limit < low 0) || decide (limit < low 2) || decide (limit < low 4) }
            let accepted : Stager :=
              { g with owner := some r, assembly := none, pending := some r, lastSeq := some r.seq,
                       nextSerial := g.nextSerial + 1 }
            (g.pending = none → t.stagers.get f = accepted ∧ quiet) ∧
              ∀ p, g.pending = some p →
                t.stagers.get f =
                  { accepted with
                    number := g.number + 1#8
                    latest := some
                      (result (g.number + 1#8) .superseded p.clamped ⟨p.seq, p.target⟩ g.committed) } ∧
                  slotMarked s t f ∧ t.offMarks = State.offMarks { taken with stagers := t.stagers })

/-- CLEAR_WRITE: a full write asks each feeder whose bit is set: one in FAULT goes to ARMING where its alarm is
released, and stays with a record CLEAR_REFUSED where it is asserted; any other feeder is not touched. A partial write
asks nothing (R5, R21). Either goes on to memory at its own address. The records are one FEEDER_STATE record for each
feeder asked in FAULT, with reason CLEARED or CLEAR_REFUSED (R4); that they come in order of feeder number is the
model's choice (log entry 16). -/
def Obligations.ClearWrite : Prop :=
  ∀ (s : State) (a : Word) (be : BitVec 4) (v : Word) (w : WindowEntry),
    s.takesAtOnce → s.classify a = .window w → w.kind = .control → (w.offset a).toNat < 4 →
    let x := processorWrite a be v
    Completes (.clearWrite a be v) s fun t =>
      t.bus.port = .upstream ∧ t.bus.current = some ⟨x, .window w, a⟩ ∧
        (be ≠ 15#4 → t.offPort = (s.taken x).offPort) ∧
        (be = 15#4 →
          sameSurroundings (s.taken x) t ∧ t.trackers = s.trackers ∧ t.evals = s.evals ∧ t.account = s.account ∧
            t.stagers = s.stagers ∧ t.link = s.link ∧ t.malm = s.malm ∧ t.draws = s.draws ∧
            ∀ f,
              let c := s.ctl.get f
              (v.getLsbD f.val = false ∨ c.state ≠ .fault ∨ s.malm.get f = true → sameFeeder s t f) ∧
                (v.getLsbD f.val = true → c.state = .fault → s.malm.get f = false →
                  t.ctl.get f =
                      { c with
                        state := .arming, reason := .cleared, ready := false, notReadyRun := 0, rode := 0,
                        source := .none, lastRef := ⟨⟨0, 0#10⟩, ⟨0, 0#10⟩, ⟨0, 0#10⟩⟩ } ∧
                    t.monitors.get f = { s.monitors.get f with silence := some s.settings.silenceLimit }) ∧
                ((∀ h, h ≠ f → v.getLsbD h.val = false) → v.getLsbD f.val = true → c.state = .fault →
                  s.malm.get f = true → staged s t (.feederState f .fault .fault .clearRefused))) ∧
        (be = 15#4 → recorded s t
          ((Fid.all.filter fun f => v.getLsbD f.val && (s.ctl.get f).state == .fault).map fun f =>
            if s.malm.get f then .feederState f .fault .fault .clearRefused
            else .feederState f .fault .arming .cleared))

/-- RELOAD_WRITE: a nonzero request moves the reload state to REQUESTED, abandoning a read or discarding a held image;
where the part is already quiescent the read begins in the same event (R170, R171; log entry 29). -/
def Obligations.ReloadWrite : Prop :=
  ∀ (s : State) (a : Word) (be : BitVec 4) (v : Word) (w : WindowEntry),
    s.takesAtOnce → s.classify a = .window w → w.kind = .control → 4 ≤ (w.offset a).toNat →
    (w.offset a).toNat < 8 →
    let l := s.loader
    let taken := s.taken (processorWrite a be v)
    let requested : Loader :=
      match l.reload with
      | .none => { l with reload := .requested }
      | .requested => l
      | .reading => { l with reload := .requested, read := none, image := [] }
      | .held => { l with reload := .requested, image := [], heldAddr := none }
    Completes (.reloadWrite a be v) s fun t =>
      t.bus.port = .upstream ∧ (v &&& byteMask be = 0#32 → t.offPort = taken.offPort) ∧
        (v &&& byteMask be ≠ 0#32 →
          t.offMarks = State.offMarks
            { taken with
              loader :=
                if s.quiescent then { requested with reload := .reading, read := some ⟨none, 0, 0⟩, image := [] }
                else requested })

/-- CONSUMED_WRITE: an index from C to P becomes C, and ATTN is judged again; any other, and a partial write, is refused
with a record (R160). That the record of an index out of range holds the whole written word is the model's choice: R160
says what it holds for the partial write alone (log entry 36). SUMCLEAR_WRITE: the conditions named in the enabled bytes
leave the summary set, and ATTN is judged again (R161). -/
def Obligations.ConsumedAndSumclearWrites : Prop :=
  ∀ (s : State) (a : Word) (be : BitVec 4) (v : Word) (w : WindowEntry),
    s.takesAtOnce → s.classify a = .window w → w.kind = .control →
    let c := v.extractLsb' 0 16
    let taken := s.taken (processorWrite a be v)
    let accepted := (s.writer.producer - c).toNat ≤ s.ringSize ∧ (c - s.writer.consumer).toNat ≤ s.ringSize
    let refused := fun (offered : Word) (partialWrite : Bool) =>
      State.offPort (taken.handRecord (.ringIndexRefused offered s.writer.consumer s.writer.producer partialWrite))
    (8 ≤ (w.offset a).toNat → (w.offset a).toNat < 12 →
      Completes (.consumedWrite a be v) s fun t =>
        t.bus.port = .upstream ∧
          (be = 15#4 → accepted →
            t.offMarks = State.offMarks
                { taken with writer := { s.writer with consumer := c, attn := t.writer.attn } } ∧
              t.writer.attn = t.attnWanted) ∧
          (be = 15#4 → ¬ accepted → t.offPort = refused v false) ∧
          (be ≠ 15#4 → t.offPort = refused (v &&& byteMask be) true)) ∧
    (12 ≤ (w.offset a).toNat → (w.offset a).toNat < 16 →
      Completes (.sumclearWrite a be v) s fun t =>
        t.bus.port = .upstream ∧ t.writer.attn = t.attnWanted ∧
          t.offMarks = State.offMarks
            { taken with writer := { s.writer with
                summary := s.writer.summary &&& ~~~ ((v &&& byteMask be).extractLsb' 0 8)
                attn := t.writer.attn } })

/-- UPSTREAM_ACCESS_COMPLETE: the answer goes back to the access's master and the port is no longer its (R151). What
gets the port is given by R148 and R158: with HOLD released, the access that has waited longest (that order is log entry
2), in the same event, or where it is refused its error response, a record of which can bring HOLD at once, with the
burst ahead of the next access (R149; log entries 9, 27); with none waiting the word a loader's read waits for (R167);
else a word of the writer, at the address and with the value its place gives it: the mirror's producer word if it is
dirty, else the next word of the record in progress, or the first of one that starts (R157), in its ring slot, else the
lowest dirty mirror word, else the lowest dirty result word of a feeder that has a REFERENCE window (R163); else
nothing, and the port is FREE. With HOLD asserted for the writer its burst begins with the first word of the record,
whatever was written in gaps (R149); that a producer word still dirty from an earlier record then waits for the burst's
own is the model's choice (log entry 38). With HOLD asserted for the loader its read goes out, or HOLD is released where
that read has been abandoned (R150); accesses that wait then wait on. An access that has waited alone is taken as its
command is where it comes to a FREE port with nothing waiting, in the state that the answer leaves: so a write is handed
to its owner then (R146, R148), a RELOAD write that finds READING among them (R170). -/
def Obligations.UpstreamAccessComplete : Prop :=
  ∀ (s : State) (c : Current) (data : Word) (err : Bool), s.settled → s.bus.port = .upstream →
    s.bus.current = some c →
    let answer : Answer := ⟨c.access.tag, err, if err || c.access.write then none else some data⟩
    let answered := { s with bus := { s.bus with current := none, answer := some answer } }
    let completes := Completes (.upstreamAccessComplete data err) s
    let room := (s.writer.producer - s.writer.consumer).toNat < s.ringSize
    let inProgress :=
      if s.writer.inProgress = none ∧ s.writer.staging ≠ [] ∧ room then some ⟨0, false⟩ else s.writer.inProgress
    let readAddr := fun r : TableRead =>
      match r.addr with | none => 0x00FFFF04#32 | some a => a + BitVec.ofNat 32 (4 * r.index)
    let slot := fun w : WindowEntry => w.base + BitVec.ofNat 32 (32 * (s.writer.producer.toNat % (2 ^ w.sizeLog / 32)))
    let dirty := fun i => s.writer.mirrorDirty.getD i false
    let resultDirty := fun f i => (s.writer.resultDirty.get f).getD i false
    (s.bus.hold = .released → s.bus.waiting = [] → completes fun t =>
      t.offPort = answered.offPort ∧ t.holds .released none ∧ t.bus.port ≠ .upstream ∧
        t.writer.inProgress = inProgress ∧
        (∀ r, s.loader.read = some r → t.bus.port = .loader (readAddr r) false) ∧
        (s.loader.read = none → s.table = none → t.bus.port = .free) ∧
        ∀ tab m w, s.loader.read = none → s.table = some tab → tab.window .mirror = some m → tab.window .ring = some w →
          let sends := fun target addr value => t.bus.port = .writer ⟨target, addr, value, false, false, false⟩ false
          let none' := fun f => tab.windowOf .reference f = none ∨ ∀ i < 8, resultDirty f i = false
          (dirty 4 = true → sends (.mirror 4) (m.base + 16#32) (s.writer.producer.setWidth 32)) ∧
            (dirty 4 = false →
              (∀ p r rest, inProgress = some p → s.writer.staging = r :: rest →
                sends (.record p.words) (slot w + BitVec.ofNat 32 (4 * p.words)) (r.words.getD p.words 0#32)) ∧
              (inProgress = none →
                (∀ i < 40, dirty i = true → (∀ j < i, dirty j = false) →
                  sends (.mirror i) (m.base + BitVec.ofNat 32 (4 * i)) (s.mirrorWord i)) ∧
                ((∀ i < 40, dirty i = false) →
                  (∀ f x, ∀ i < 8, tab.windowOf .reference f = some x → resultDirty f i = true →
                    (∀ j < i, resultDirty f j = false) → (∀ g < f, none' g) →
                    sends (.result f i) (x.base + BitVec.ofNat 32 (96 + 4 * i)) (s.resultWord f i)) ∧
                  ((∀ f, none' f) → t.bus.port = .free))))) ∧
    (∀ x rest, s.bus.hold = .released → s.bus.waiting = x :: rest → accessPermitted (s.classify x.addr) x = true →
      completes fun t =>
        t.bus.port = .upstream ∧ t.bus.answer = some answer ∧ t.bus.waiting = rest ∧
          t.bus.current = some ⟨x, s.classify x.addr, s.downAddr (s.classify x.addr) x⟩) ∧
    (∀ x, s.bus.hold = .released → s.bus.waiting = [x] → accessPermitted (s.classify x.addr) x = false →
      completes fun t =>
        t.bus.port ≠ .upstream ∧ t.bus.answer = some ⟨x.tag, true, none⟩ ∧ t.bus.waiting = [] ∧
          t.bus.current = none) ∧
    (∀ x rest, s.bus.hold = .released → s.bus.waiting = x :: rest → accessPermitted (s.classify x.addr) x = false →
      7 ≤ s.writer.staging.length → room → HoldParty.loader ∉ s.bus.holdQueue → completes fun t =>
        t.holds .writer (some ⟨s.slotAddr, false, false⟩) ∧ t.bus.waiting = rest ∧ t.bus.turnOwed = false ∧
          ∃ w, t.bus.port = .writer w false ∧ w.target = .record 0 ∧ w.burst = true ∧ w.value = s.recordWord 0) ∧
    (∀ k x, accessOf k = some x → s.bus.waiting = [x] →
      let handed := fun b : Bus =>
        exec (.upstreamAccessComplete data err) s =
          exec k { answered with bus := { b with port := .free, waiting := [] } }
      (s.bus.hold = .released → handed answered.bus) ∧
        (s.bus.hold = .loader → s.loader.read = none ∨ s.bus.holdWithdrawn = true →
          handed { answered.bus with hold := .released, turnOwed := true, holdWithdrawn := false })) ∧
    (∀ w r rest p, s.bus.hold = .writer → s.writer.burst = none → s.ring = some w → s.writer.staging = r :: rest →
      inProgress = some p →
      completes fun t =>
        t.offPort = answered.offPort ∧ t.holds .writer (some ⟨slot w, false, false⟩) ∧
          t.writer.inProgress = some { p with words := 0 } ∧
          t.bus.port = .writer ⟨.record 0, slot w, r.words.getD 0 0#32, true, false, false⟩ false) ∧
    (∀ r, s.bus.hold = .loader → s.loader.read = some r → s.bus.holdWithdrawn = false →
      completes fun t =>
        t.offPort = answered.offPort ∧ t.holds .loader none ∧ t.bus.port = .loader (readAddr r) false) ∧
    (s.bus.hold = .loader → s.loader.read = none ∨ s.bus.holdWithdrawn = true → s.bus.waiting = [] →
      completes fun t =>
        t.bus.port ≠ .upstream ∧ t.holds .released none ∧
          t.offPort = State.offPort { answered with bus := { answered.bus with
            hold := .released, turnOwed := true, holdWithdrawn := false } })

/-! ## Commands: alarms, silence, shed notices -/

/-- MALM_ASSERT and MALM_RELEASE: the level changes; an assertion takes a feeder that is in neither OFF nor FAULT to
FAULT with reason ALARM, with the entry actions of R19; a release changes nothing more (R20). The stager ends with
NOT_RIDING the record on the line, the one in the slot and the pending one, in that order (R102, R107). The records of
the entry are the FEEDER_STATE record, those of these results, the open sag's, closed with outcome FAULT and added to
its episode's totals, and the episode's, closed with cause FAULT, in that order, and no others (R4, R132, R137, R138).
-/
def Obligations.AlarmEvents : Prop :=
  ∀ (f : Fid) (s : State), s.settled →
    let c := s.ctl.get f
    let g := s.stagers.get f
    let ends := endAll .notRiding (g.onLine.toList ++ g.inSlot.toList ++ g.pending.toList)
    Completes (.malmRelease f) s (fun t => t.offPort = State.offPort { s with malm := s.malm.set f false }) ∧
      (c.state = .off ∨ c.state = .fault →
        Completes (.malmAssert f) s fun t => t.offPort = State.offPort { s with malm := s.malm.set f true }) ∧
      (c.state ≠ .off → c.state ≠ .fault → Completes (.malmAssert f) s fun t =>
        t.malm = s.malm.set f true ∧
          t.ctl = s.ctl.set f
            { c with state := .fault, reason := .alarm, notReadyRun := 0, source := .none, sag := none,
                     episode := none } ∧
          t.account = { s.account with reserved := s.account.reserved.set f 0 } ∧
          (t.stagers.get f).pending = none ∧ (t.stagers.get f).onLine = none ∧ (t.stagers.get f).inSlot = none ∧
          (t.stagers.get f).committed = (s.stagers.get f).committed ∧
          (t.stagers.get f).assembly = (s.stagers.get f).assembly ∧
          (t.stagers.get f).lastSeq = (s.stagers.get f).lastSeq ∧
          (∀ g, g ≠ f → t.stagers.get g = s.stagers.get g) ∧
          t.link = { s.link with
            slots := s.link.slots.set f none
            exchange := s.link.exchange.map fun x => if x.feeder = f then { x with discard := true } else x } ∧
          t.evals = s.evals.set f
            (if c.sag.isSome then { s.evals.get f with sagOpen := false, applied := false, ttt := none }
             else s.evals.get f) ∧
          t.monitors = s.monitors ∧ t.trackers = s.trackers ∧ t.draws = s.draws ∧ sameSurroundings s t ∧
          staged s t (.feederState f c.state .fault .alarm) ∧ resultsMade s t f ends ∧
          recorded s t (faultRecords s t f .alarm [] ends))

/-- SILENCE_EXPIRY: a running timer stops, the monitor's assembly, sequence, accumulators and counts are cleared, the
tracker goes to SEEK keeping its half-cycle number, and a feeder that is in neither OFF nor FAULT goes to FAULT with
reason NO_SAMPLES, with the entry actions of R19 as an alarm has them: no reservation, the slot emptied, its exchange
marked for discard, its records ended, the open sag closed (R40, R53, R117). The records are those of the entry to
FAULT, as an alarm's, and then the SYNC_CHANGE record, unless the tracker was in SEEK or the feeder is in OFF (R4, R40,
R56, R107). With the feeder in OFF or FAULT the account, the link, the evaluators and the stagers stay. A stopped timer
does not expire: log entry 3. -/
def Obligations.SilenceExpiry : Prop :=
  ∀ (f : Fid) (s : State), s.settled →
    let c := s.ctl.get f
    ((s.monitors.get f).silence = none → Completes (.silenceExpiry f) s fun t => t.offPort = s.offPort) ∧
      ((s.monitors.get f).silence ≠ none → Completes (.silenceExpiry f) s fun t =>
        t.monitors = s.monitors.set f
            { s.monitors.get f with
              assembly := ⟨.notWritten, .notWritten, .notWritten⟩, seq := none, silence := none,
              head := ⟨⟨0, 0, 0⟩, ⟨0, 0, 0⟩, false⟩, tail := ⟨⟨0, 0, 0⟩, ⟨0, 0, 0⟩, false⟩, invalidRun := 0,
              endConfirm := 0 } ∧
          t.trackers = s.trackers.set f
            { sync := .seek, count := none, coast := 0, search := none, last := none,
              hc := (s.trackers.get f).hc } ∧
          t.ctl = (if c.state = .off ∨ c.state = .fault then s.ctl
            else s.ctl.set f
              { c with state := .fault, reason := .noSamples, notReadyRun := 0, source := .none, sag := none,
                       episode := none }) ∧
          t.malm = s.malm ∧ t.draws = s.draws ∧ (∀ g, g ≠ f → sameAt s t g) ∧ sameSurroundings s t ∧
          (let g := s.stagers.get f
           let old := s.trackers.get f
           let faults := c.state ≠ .off ∧ c.state ≠ .fault
           let ends := if faults then
             endAll .notRiding (g.onLine.toList ++ g.inSlot.toList ++ g.pending.toList) else []
           let moved : List Body := if old.sync = .seek ∨ c.state = .off then []
             else [.syncChange f old.sync .seek .silence old.coast old.hc]
           (faults →
              t.account = { s.account with reserved := s.account.reserved.set f 0 } ∧
              t.link = { s.link with
                slots := s.link.slots.set f none
                exchange := s.link.exchange.map fun x => if x.feeder = f then { x with discard := true } else x } ∧
              t.evals = s.evals.set f
                (if c.sag.isSome then { s.evals.get f with sagOpen := false, applied := false, ttt := none }
                 else s.evals.get f) ∧
              (t.stagers.get f).pending = none ∧ (t.stagers.get f).onLine = none ∧
              (t.stagers.get f).inSlot = none ∧ (t.stagers.get f).committed = g.committed ∧
              (t.stagers.get f).assembly = g.assembly ∧ (t.stagers.get f).lastSeq = g.lastSeq) ∧
             (¬ faults →
              t.account = s.account ∧ t.link = s.link ∧ t.evals = s.evals ∧ t.stagers = s.stagers) ∧
             resultsMade s t f ends ∧
             recorded s t ((if faults then faultRecords s t f .noSamples [] ends else []) ++ moved)))

/-- SHED_NOTICE_TAKEN: the notice is no longer outstanding; a feeder in RIDE goes to SHED with the notice's reason, its
reservation released, its injection source NONE, its pending reference dropped, its sag and episode kept open, and its
RELEASE placed; any other feeder is left as it is (R16, R17, R84). The record waiting in the slot, which the RELEASE
replaces, ends SUPERSEDED, and then the pending one NOT_RIDING, whose record follows the FEEDER_STATE record (R4, R102,
R106). That nothing changes where no notice is outstanding
is the model's choice for an event that cannot occur there (log entry 3). -/
def Obligations.ShedNoticeTaken : Prop :=
  ∀ (f : Fid) (s : State), s.settled →
    let c := s.ctl.get f
    let cleared : Account := { s.account with notice := s.account.notice.set f none }
    (s.account.notice.get f = none → Completes (.shedNoticeTaken f) s fun t => t.offPort = s.offPort) ∧
      ∀ cause, s.account.notice.get f = some cause →
        (c.state ≠ .ride → Completes (.shedNoticeTaken f) s fun t =>
          t.offPort = State.offPort { s with account := cleared }) ∧
        (c.state = .ride → Completes (.shedNoticeTaken f) s fun t =>
          let reason : Reason := match cause with | .preempted => .preempted | .shortfall => .shortfall
          t.ctl = s.ctl.set f { c with state := .shed, reason := reason, source := .none } ∧
            t.account = { cleared with reserved := s.account.reserved.set f 0 } ∧
            (t.stagers.get f).pending = none ∧ (t.stagers.get f).inSlot = none ∧
            (t.stagers.get f).onLine = (s.stagers.get f).onLine ∧
            (t.link.slots.get f = some (.release (s.trackers.get f).hc) ∨
              ∃ x, t.link.exchange = some x ∧ x.feeder = f ∧ x.request = .release (s.trackers.get f).hc ∧
                x.attempt = 1 ∧ t.link.line = .send) ∧
            t.monitors = s.monitors ∧ t.trackers = s.trackers ∧ t.evals = s.evals ∧ t.malm = s.malm ∧
            t.draws = s.draws ∧ sameSurroundings s t ∧ staged s t (.feederState f .ride .shed reason) ∧
            (let g := s.stagers.get f
             let ends := endAll .superseded g.inSlot.toList ++ endAll .notRiding g.pending.toList
             resultsMade s t f ends ∧
               recorded s t (.feederState f .ride .shed reason :: refRecords f (endResults s t f ends))))

/-! ## Commands: the modulator link -/

/-- FRAME_END, REPLY_START, RESYNC_END and QUIET_END: the line moves on (R119, R121, R124, R127, R128). What the part
puts on LTX: LTXEN is asserted exactly while a frame or a RESYNC is sent, and the line then carries the frame's bytes
back to back, ten bits to a byte (a start bit, eight data bits with the least significant first, a stop bit), a RESYNC
after a break of 20 bits at space; with LTXEN released it carries nothing (R113). That a start bit is at space, and a
stop bit and a data bit 1 at mark, is the model's choice (log entry 34). -/
def Obligations.LineMovesOn : Prop :=
  (∀ (s : State) (b : Byte),
    let sends := fun bytes : List Byte => s.txLine = bytes.flatMap lineBits
    (s.ltxen = true ↔ s.link.line = .send ∨ s.link.line = .resync) ∧
      (∀ x, s.link.line = .send → s.link.exchange = some x → sends (x.request.frame x.unit)) ∧
      (s.link.line = .resync → s.txLine = List.replicate 20 .space ++ resyncFrame.flatMap lineBits) ∧
      (s.ltxen = false → s.txLine = []) ∧
      (lineBits b).length = 10 ∧ (lineBits b)[0]? = some .space ∧ (lineBits b)[9]? = some .mark ∧
      ∀ i < 8, (lineBits b)[i + 1]? = some (if b.getLsbD i then .mark else .space)) ∧
  ∀ s : State, s.settled →
    let moves := fun (c : Instr) (l : Link) => Completes c s fun t => t.offPort = State.offPort { s with link := l }
    (s.link.line = .send →
        moves .frameEnd { s.link with line := .wait, wait := some ⟨s.settings.timeout, 0⟩ }) ∧
      (s.link.line = .wait → moves .replyStart { s.link with line := .receive, wait := none }) ∧
      (s.link.line = .resync → moves .resyncEnd { s.link with line := .quiet }) ∧
      (s.link.line = .quiet → s.link.exchange = none →
        moves .quietEnd { s.link with line := .settle, wait := none }) ∧
      ∀ x, s.link.line = .quiet → s.link.exchange = some x →
        (x.discard = true → moves .quietEnd { s.link with line := .settle, exchange := none, wait := none }) ∧
          (x.discard = false →
            moves .quietEnd { s.link with line := .send, exchange := some { x with attempt := x.attempt + 1 } })

/-- SETTLE_END: the next attempt sends the same frame; after attempt 4 the RESYNC step begins with its LINK_LADDER
record; with no exchange, or a discarded one, the line is IDLE and the arbiter sends an owed RESYNC, else takes the
waiting request of the highest priority as attempt 1, else leaves the line IDLE (R118, R120, R121, R124); that an
exchange marked for discard during SETTLE ends at SETTLE_END, and so leaves the line to the arbiter, is the model's
choice (log entry 32). How requests come to wait: a request placed is put in its feeder's slot, replacing the one that
waits, but a STATUSQ yields to a waiting ENGAGE or RELEASE; the record of a replaced ENGAGE is settled SUPERSEDED, and
nothing else is; no placement touches the exchange in flight (R116, R106). On an IDLE line with nothing else to send the
arbiter takes the request at once (R118; that this is in the same event is log entry 10). -/
def Obligations.SettleEnd : Prop :=
  (∀ s : State, s.settled → s.link.line = .settle →
     (∀ x, s.link.exchange = some x → x.discard = false →
       (x.attempt < 4 → Completes .settleEnd s fun t => t.offPort = State.offPort
         { s with link := { s.link with line := .send, exchange := some { x with attempt := x.attempt + 1 } } }) ∧
       (x.attempt = 4 → Completes .settleEnd s fun t =>
         t.link = { s.link with line := .resync } ∧ t.ctl = s.ctl ∧ t.stagers = s.stagers ∧ t.account = s.account ∧
           sameSurroundings s t ∧
           staged s t (.linkLadder x.feeder x.unit x.request.kind x.request.hc x.causes))) ∧
     ((∀ x, s.link.exchange = some x → x.discard = true) →
       (s.link.resyncOwed = true → Completes .settleEnd s fun t => t.offPort = State.offPort
         { s with link := { s.link with line := .resync, exchange := none, resyncOwed := false } }) ∧
       (s.link.resyncOwed = false → (∀ f, s.link.slots.get f = none) → Completes .settleEnd s fun t =>
         t.offPort = State.offPort { s with link := { s.link with line := .idle, exchange := none } }) ∧
       ∀ f r, s.link.resyncOwed = false → s.link.slots.get f = some r →
         (∀ g, g ≠ f → s.link.slots.get g ≠ none → (s.entry f).priority < (s.entry g).priority) →
         Completes .settleEnd s fun t =>
           t.offPort = State.offPort
             { s with
               link := { s.link with
                 line := .send, slots := s.link.slots.set f none
                 exchange := some { feeder := f, unit := (s.entry f).unit.setWidth 4, request := r, attempt := 1,
                                    causes := [], discard := false } }
               stagers := match r.record with
                 | none => s.stagers
                 | some a => s.stagers.set f { s.stagers.get f with onLine := some a, inSlot := none } })) ∧
  ∀ (s : State) (f : Fid) (r : Request),
    let t := s.placeRequest f r
    let g := s.stagers.get f
    let waiting := s.link.slots.get f
    let yields := (∃ h, r = .statusq h) ∧ ∃ w, waiting = some w ∧ ∀ h, w ≠ .statusq h
    let busy := s.link.line ≠ .idle
    (yields → t = s) ∧
      (¬ yields →
        t.blocks = State.blocks { s with link := t.link, stagers := t.stagers } ∧
          t.writer.staging = s.writer.staging ∧ (t.stagers.get f).pending = g.pending ∧
          (busy →
            t.link = { s.link with slots := s.link.slots.set f (some r) } ∧ (t.stagers.get f).inSlot = r.record ∧
              (t.stagers.get f).onLine = g.onLine ∧ ∀ h, h ≠ f → t.stagers.get h = s.stagers.get h) ∧
          (¬ busy → s.link.resyncOwed = false → (∀ h, h ≠ f → s.link.slots.get h = none) →
            t.link = { s.link with
                line := .send, slots := s.link.slots.set f none
                exchange := some { feeder := f, unit := (s.entry f).unit.setWidth 4, request := r, attempt := 1,
                                   causes := [], discard := false } } ∧
              (∀ a, r.record = some a → (t.stagers.get f).onLine = some a)) ∧
          (∀ a, g.inSlot = some a → (t.stagers.get f).number = g.number + 1#8 ∧ slotMarked s t f ∧
            (t.stagers.get f).latest.map (fun x => (x.code, x.ident)) = some (.superseded, some ⟨a.seq, a.target⟩)) ∧
          (g.inSlot = none → (t.stagers.get f).number = g.number ∧ (t.stagers.get f).latest = g.latest))

/-- RESPONSE_TIMEOUT, REPLY_BREAK_OFF, and REPLY_COMPLETE with a reply that fails a check: the attempt fails with its
cause; attempts 1 to 4 go to SETTLE with the cause recorded, a discarded exchange ends, and a fifth failure ends the
exchange and takes a feeder that is in neither OFF nor FAULT to FAULT with reason LINK (R119, R120, R122, R124). The
record on the line ends LINK_FAILED, before the change; the entry to FAULT then ends the one in the slot and the pending
one NOT_RIDING, and the records are those of the entry, behind the LINK_FAILED one's (R4, R102, R106, R107). -/
def Obligations.AttemptFails : Prop :=
  ∀ (s : State) (x : Exchange) (c : Instr) (cause : LinkCause), s.settled → s.link.exchange = some x →
    (s.link.line = .wait ∧ c = .responseTimeout ∧ cause = .noReply ∨
      s.link.line = .receive ∧ c = .replyBreakOff ∧ cause = .malformed ∨
      s.link.line = .receive ∧ ∃ bytes stops,
        c = .replyComplete bytes stops ∧ judgeReply x.request.kind x.unit bytes stops = .error cause) →
    let settled := fun (e : Option Exchange) => { s.link with line := .settle, exchange := e, wait := none }
    let f := x.feeder
    let g := s.stagers.get f
    let line := endAll .linkFailed g.onLine.toList
    let rest := endAll .notRiding (g.inSlot.toList ++ g.pending.toList)
    (x.discard = true → Completes c s fun t => t.offPort = State.offPort { s with link := settled none }) ∧
      (x.discard = false → x.attempt < 5 → Completes c s fun t => t.offPort = State.offPort
        { s with link := settled (some { x with causes := x.causes ++ [cause] }) }) ∧
      (x.discard = false → 5 ≤ x.attempt → Completes c s fun t =>
        t.link.line = .settle ∧ t.link.exchange = none ∧ t.link.wait = none ∧
          (t.stagers.get x.feeder).onLine = none ∧ (∀ g, g ≠ x.feeder → sameAt s t g) ∧ sameSurroundings s t ∧
          t.monitors = s.monitors ∧ t.trackers = s.trackers ∧
          ((s.ctl.get x.feeder).state = .off ∨ (s.ctl.get x.feeder).state = .fault → t.ctl = s.ctl ∧
            resultsMade s t f line ∧ recorded s t (refRecords f (endResults s t f line))) ∧
          ((s.ctl.get x.feeder).state ≠ .off → (s.ctl.get x.feeder).state ≠ .fault →
            t.ctl.get x.feeder =
                { s.ctl.get x.feeder with
                  state := .fault, reason := .link, notReadyRun := 0, source := .none, sag := none,
                  episode := none } ∧
              t.account.reserved.get x.feeder = 0 ∧ (t.stagers.get x.feeder).pending = none ∧
              (t.stagers.get x.feeder).inSlot = none ∧ t.link.slots.get x.feeder = none ∧
              resultsMade s t f (line ++ rest) ∧ recorded s t (faultRecords s t f .link line rest)))

/-- REPLY_COMPLETE, a DONE to an ENGAGE that reaches its feeder in RIDE: the cost is consumed, the rode count goes up,
the reference and the source are the frame's, the run is cleared, the sag record counts it, the evaluator has its
notice, and a record on the line is COMMITTED, the pages flipping if it owns the page (R13, R64, R85, R105, R131), and
its result slot is marked dirty (R110, R163). -/
def Obligations.DoneInRide : Prop :=
  ∀ (s : State) (x : Exchange) (ref : Reference) (hc : BitVec 8) (source : Source) (rehearse : Bool)
    (record : Option Accepted) (bytes : List Byte) (stops : Bool) (applied : Nat),
    s.settled → s.link.line = .receive → s.link.exchange = some x → x.discard = false →
    x.request = .engage ref hc source rehearse record →
    judgeReply .engage x.unit bytes stops = .ok (.done applied) → (s.ctl.get x.feeder).state = .ride →
    let f := x.feeder
    let c := s.ctl.get f
    let g := s.stagers.get f
    let top := max ref.a.amp (max ref.b.amp ref.c.amp)
    Completes (.replyComplete bytes stops) s fun t =>
      t.link = { s.link with line := .settle, exchange := none, wait := none } ∧
        t.account = { s.account with
          reserved := s.account.reserved.set f (s.account.reserved.get f - s.cost f ref) } ∧
        t.ctl = s.ctl.set f
          { c with
            rode := min 255 (c.rode + 1), lastRef := ref, source := source, notReadyRun := 0
            sag := c.sag.map fun r => { r with
              ridden := min 255 (r.ridden + 1)
              autoHold := if source = .autofill ∨ source = .hold then min 255 (r.autoHold + 1) else r.autoHold
              limited := r.limited || decide (applied < top) } } ∧
        t.evals = s.evals.set f
          (if hc = (s.trackers.get f).hc then { s.evals.get f with applied := true } else s.evals.get f) ∧
        t.monitors = s.monitors ∧ t.trackers = s.trackers ∧ t.malm = s.malm ∧ sameSurroundings s t ∧
        t.writer.staging = s.writer.staging ∧ (g.onLine = none → t.stagers = s.stagers) ∧
        ∀ r, g.onLine = some r →
          let owns := g.owner = some r
          let page := if owns then g.committed.other else g.committed
          slotMarked s t f ∧ t.stagers = s.stagers.set f
            { g with
              onLine := none, committed := page, owner := if owns then none else g.owner
              number := g.number + 1#8
              latest := some
                { number := g.number + 1#8, code := .committed, clamped := r.clamped,
                  limited := decide (applied < top), unflipped := decide (¬ owns),
                  ident := some ⟨r.seq, r.target⟩, judgedAt := (s.trackers.get f).hc, applied := some applied,
                  source := source, page := page } }

/-- REPLY_COMPLETE, the other replies: a discarded exchange hands nothing over; HOT takes the feeder to FAULT with
reason MODULATOR; a release that is done takes a feeder in RECOVER to STANDBY; a STATUS sets or clears the ready flag in
ARMING; NOT_READY to an ENGAGE counts in RIDE, and the fourth in a row is a fault; a DONE outside RIDE makes no charge
(R6, R13, R14, R15, R19, R123, R124). A refusal ends the record on the line REFUSED_BY_MODULATOR in RIDE; any reply ends
it NOT_RIDING outside RIDE, with the a_max of a DONE (R106). An entry to FAULT then ends the one in the slot and the
pending one NOT_RIDING, and makes its records behind that one's (R4, R102, R107). -/
def Obligations.OtherReplies : Prop :=
  ∀ (s : State) (x : Exchange) (bytes : List Byte) (stops : Bool) (reply : Reply),
    s.settled → s.link.line = .receive → s.link.exchange = some x →
    judgeReply x.request.kind x.unit bytes stops = .ok reply →
    let f := x.feeder
    let c := s.ctl.get f
    let link : Link := { s.link with line := .settle, exchange := none, wait := none }
    let g := s.stagers.get f
    let line := g.onLine.toList
    let waiting := endAll .notRiding (g.inSlot.toList ++ g.pending.toList)
    (x.discard = true → Completes (.replyComplete bytes stops) s fun t =>
        t.offPort = State.offPort { s with link := link }) ∧
      (x.discard = false → Completes (.replyComplete bytes stops) s fun t =>
        let ends := fun xs : List Ending =>
          resultsMade s t f xs ∧ recorded s t (refRecords f (endResults s t f xs))
        let faults := fun before : List Ending =>
          resultsMade s t f (before ++ waiting) ∧ recorded s t (faultRecords s t f .modulator before waiting)
        t.link.line = .settle ∧ t.link.exchange = none ∧ (∀ g, g ≠ f → sameAt s t g) ∧ sameSurroundings s t ∧
          (reply = .hot → c.state = .off ∨ c.state = .fault → x.request.kind = .engage → ends (endAll .notRiding line)) ∧
          (reply = .hot ∨ reply = .status .hot → c.state ≠ .off → c.state ≠ .fault →
            t.ctl.get f =
                { c with state := .fault, reason := .modulator, notReadyRun := 0, source := .none, sag := none,
                         episode := none } ∧
              t.account.reserved.get f = 0 ∧ t.link.slots.get f = none ∧
              (x.request.kind = .engage →
                faults (endAll (if c.state = .ride then .refusedByModulator else .notRiding) line)) ∧
              (x.request.kind ≠ .engage → line = [] → faults [])) ∧
          (∀ hc, x.request = .release hc → reply ≠ .hot →
            t.link = link ∧ t.account = s.account ∧ t.stagers = s.stagers ∧ t.evals = s.evals ∧
              t.ctl.get f =
                (if c.state = .recover then { c with state := .standby, reason := .released } else c) ∧
              (c.state = .recover → staged s t (.feederState f .recover .standby .released))) ∧
          (∀ hc, x.request = .statusq hc → reply ≠ .hot → reply ≠ .status .hot →
            t.link = link ∧ t.account = s.account ∧ t.stagers = s.stagers ∧ t.evals = s.evals ∧
              t.ctl.get f =
                (if c.state = .arming then
                  (if reply = .status .ready then
                    (if (s.trackers.get f).sync = .locked then
                      { c with ready := true, state := .standby, reason := .ready }
                     else { c with ready := true })
                   else { c with ready := false })
                 else c) ∧
              recorded s t (if c.state = .arming ∧ reply = .status .ready ∧ (s.trackers.get f).sync = .locked then
                [.feederState f .arming .standby .ready] else [])) ∧
          (∀ ref hc source rehearse record, x.request = .engage ref hc source rehearse record →
            reply ≠ .hot →
            (t.stagers.get f).onLine = none ∧ (t.stagers.get f).committed = (s.stagers.get f).committed ∧
              (c.state ≠ .ride → t.account = s.account ∧ t.ctl = s.ctl ∧ t.link = link ∧
                (∀ a, reply = .done a → ends (line.map fun r => ⟨.notRiding, r, some a⟩)) ∧
                (reply = .notReady → ends (endAll .notRiding line))) ∧
              (c.state = .ride → reply = .notReady → c.notReadyRun < 3 →
                t.account = s.account ∧ t.link = link ∧
                  t.ctl.get f = { c with notReadyRun := c.notReadyRun + 1 } ∧ ends (endAll .refusedByModulator line)) ∧
              (c.state = .ride → reply = .notReady → 3 ≤ c.notReadyRun →
                (t.ctl.get f).state = .fault ∧ (t.ctl.get f).reason = .modulator ∧
                  faults (endAll .refusedByModulator line))
            ∨ c.state = .ride ∧ ∃ a, reply = .done a))

/-! ## Commands: the downstream port -/

/-- WRITER_WORD_COMPLETE. In a gap: a word of the record in progress counts as written; the eighth takes the record out
of staging and moves P on, the producer word dirty; an error starts the second try, and an error of that gives the
record up, renumbering those behind; a mirror word is clean unless it changed, the producer word is published; a result
word is clean unless a result was made while it was on the port (R152, R157, R159, R162; where its value stays the same:
log entry 43). A word whose window has moved counts for nothing, but for an error of a record word (log entry 20). Where
HOLD was asserted meanwhile, the word counts the same; then the writer's burst begins with the record's first word, its
try kept, also ahead of a producer word still dirty (log entry 38), or the loader's read goes out (R149, R150, R152). In
a burst: the next word of the record follows at once in the burst's slot, then the producer word with the new P; an
error starts the second try within the burst, an error of that gives the record up and ends the burst; the producer word
ends it. At its end HOLD is released and an upstream turn is owed, and the first access that waits (that order: log
entry 2) is taken and clears it; HOLD is then asserted again at once where staging and room call for it (R149, R152). A
burst whose ring has moved writes its remaining words at the old place, counts no record and ends without a producer
word (R164); a burst's producer word that an installation has made out of date is followed by one with P as it is, at
the installed mirror (log entry 20). That an error of its producer word, or no record to write, ends a burst is log
entry 13. When the writer asks again is log entry 12. Wherever the word leaves HOLD released, an access that has waited
alone is taken as its command is at a FREE port, so a write is handed to its owner then (R146, R148). A word left over
from before a full reset counts for nothing: the port goes on (R140). -/
def Obligations.WriterWordComplete : Prop :=
  (∀ (s : State) (w : WriterWord), s.settled → s.bus.port = .writer w false →
    let answers := fun err => Completes (.writerWordComplete err) s
    let asks := fun x : Writer =>
      decide (8 ≤ x.staging.length) && decide ((x.producer - x.consumer).toNat < s.ringSize)
    let written : Writer :=
      { s.writer with staging := s.writer.staging.drop 1, producer := s.writer.producer + 1#16 }
    let givenUp := fun attn : Bool =>
      { s.writer with
        staging := (s.writer.staging.drop 1).map fun r => { r with seq := r.seq - 1#16 }
        nextSeq := s.writer.nextSeq - 1#16, dropped := min 255 (s.writer.dropped + 1), overrun := true
        summary := s.writer.summary ||| 0x08#8, attn := attn }
    let deferring := fun b : Bool => { s.bus with writerDeferred := b }
    let released := fun b : Bool =>
      { s.bus with hold := .released, turnOwed := true, holdWithdrawn := false, writerDeferred := b }
    let unasked := !s.bus.holdQueue.contains .writer
    let marksAfter := fun i => if w.changed then s.writer.mirrorDirty else s.writer.mirrorDirty.set i false
    (s.calm → w.burst = false →
      (∀ err, answers err fun t => t.holds .released none) ∧
      (∀ k p, w.target = .record k → s.writer.inProgress = some p →
        (w.moved = true → answers false fun t => t.offPort = s.offPort ∧ t.writer.inProgress = some p) ∧
        (w.moved = false → k ≠ 7 → answers false fun t =>
          t.offPort = s.offPort ∧ t.writer.inProgress = some { p with words := k + 1 }) ∧
        (w.moved = false → k = 7 → answers false fun t =>
          (s.marksInv → t.writer.mirrorDirty.getD 4 false = true) ∧
            t.offMarks = State.offMarks
              { s with bus := deferring (s.bus.writerDeferred && asks written), writer := written }) ∧
        (p.second = false → answers true fun t =>
          t.offPort = s.offPort ∧ t.writer.inProgress = some ⟨0, true⟩) ∧
        (p.second = true → answers true fun t =>
          t.offMarks = State.offMarks
              { s with bus := deferring (s.bus.writerDeferred && asks (givenUp true)), writer := givenUp t.writer.attn } ∧
            t.writer.attn = t.attnWanted)) ∧
      (∀ i, w.target = .mirror i →
        answers true (fun t => t.offPort = s.offPort) ∧
        (w.moved = true → answers false fun t => t.offPort = s.offPort) ∧
        (w.moved = false → answers false fun t =>
          t.writer.mirrorDirty = marksAfter i ∧ (i ≠ 4 → t.offMarks = s.offMarks) ∧
            (i = 4 → t.writer.attn = t.attnWanted ∧ t.offMarks = State.offMarks { s with writer := { s.writer with
              published := w.value.setWidth 16, attn := t.writer.attn } }))) ∧
      (∀ f i, w.target = .result f i →
        answers true (fun t => t.offPort = s.offPort) ∧
        answers false fun t =>
          t.offMarks = s.offMarks ∧
            t.writer.resultDirty =
              (if w.changed ∨ w.moved then s.writer.resultDirty
               else s.writer.resultDirty.set f ((s.writer.resultDirty.get f).set i false)))) ∧
    (s.bus.hold ≠ .released → w.burst = false → s.writer.burst = none → ∀ err u,
      exec (.writerWordComplete err)
        { s with bus := { s.bus with hold := .released, turnOwed := true, waiting := [] } } = .next u →
      answers err fun t => holdServed s u t) ∧
    (∀ b tab m, s.bus.hold = .writer → w.burst = true → s.writer.burst = some b → s.table = some tab →
      tab.window .mirror = some m →
      let burstWord := fun k (r : Record) => Port.writer
        ⟨.record k, b.slot + BitVec.ofNat 32 (4 * k), r.words.getD k 0#32, true, false, false⟩ false
      let producerOut := fun p : BitVec 16 =>
        Port.writer ⟨.mirror 4, m.base + 16#32, p.setWidth 32, true, false, false⟩ false
      (∀ k p r rest, w.target = .record k → b.recordDone = false → s.writer.inProgress = some p →
        s.writer.staging = r :: rest →
        (k ≠ 7 → answers false fun t =>
          t.offPort = s.offPort ∧ t.holds .writer (some b) ∧ t.bus.port = burstWord (k + 1) r ∧
            (b.moved = false → t.writer.inProgress = some { p with words := k + 1 })) ∧
        (k = 7 → b.moved = false → answers false fun t =>
          t.bus.port = producerOut (s.writer.producer + 1#16) ∧
            t.holds .writer (some { b with recordDone := true }) ∧
            (s.marksInv → t.writer.mirrorDirty.getD 4 false = true) ∧
            t.offMarks = State.offMarks { s with bus := deferring (asks written), writer := written }) ∧
        (k = 7 → b.moved = true → s.bus.waiting = [] → answers false fun t =>
          t.writer.inProgress = some p ∧ t.holds .released none ∧
            t.offPort = State.offPort
              { s with bus := released (s.bus.writerDeferred || asks s.writer && unasked) }) ∧
        (p.second = false → answers true fun t =>
          t.offPort = s.offPort ∧ t.holds .writer (some b) ∧ t.bus.port = burstWord 0 r ∧
            t.writer.inProgress = some ⟨0, true⟩) ∧
        (p.second = true → s.bus.waiting = [] → answers true fun t =>
          t.writer.attn = t.attnWanted ∧ t.holds .released none ∧
            t.offMarks = State.offMarks
              { s with bus := released ((s.bus.writerDeferred || unasked) && asks (givenUp true))
                       writer := givenUp t.writer.attn })) ∧
      (w.target = .mirror 4 → b.recordDone = true →
        (w.moved = false → s.bus.waiting = [] →
          let ended := released (s.bus.writerDeferred || asks s.writer && unasked)
          (answers false fun t =>
            t.writer.mirrorDirty = marksAfter 4 ∧ t.writer.attn = t.attnWanted ∧ t.holds .released none ∧
              t.offMarks = State.offMarks
                { s with bus := ended
                         writer := { s.writer with published := w.value.setWidth 16, attn := t.writer.attn } }) ∧
          answers true fun t => t.holds .released none ∧ t.offPort = State.offPort { s with bus := ended }) ∧
        (∀ x rest err, w.moved = false → s.bus.waiting = x :: rest → accessPermitted (s.classify x.addr) x = true →
          answers err fun t =>
            t.writer.burst = none ∧ t.bus.turnOwed = false ∧ t.bus.port = .upstream ∧ t.bus.waiting = rest ∧
              (asks t.writer = false → t.bus.hold ≠ .writer) ∧
              (asks t.writer = true → HoldParty.loader ∉ s.bus.holdQueue → t.bus.hold = .writer) ∧
              t.bus.current = some ⟨x, s.classify x.addr, s.downAddr (s.classify x.addr) x⟩) ∧
        (∀ err, w.moved = true → answers err fun t =>
          t.offPort = s.offPort ∧ t.holds .writer (some b) ∧ t.bus.port = producerOut s.writer.producer))) ∧
    ∀ k x err t, accessOf k = some x → s.bus.waiting = [x] → w.burst = false ∨ s.bus.hold = .writer →
      exec (.writerWordComplete err) { s with bus := { s.bus with waiting := [] } } = .next t →
      t.bus.hold = .released →
      ∃ e : State, e.takesAtOnce ∧ e.finish = t ∧ exec (.writerWordComplete err) s = exec k e) ∧
  ∀ (s : State) (w : WriterWord) (err : Bool), s.settled → s.bus.port = .writer w true → s.bus.hold = .released →
    (s.bus.waiting = [] → Completes (.writerWordComplete err) s fun t =>
      t.offPort = s.offPort ∧ t.holds .released none ∧ t.bus.port ≠ .writer w true ∧
        ∀ r, s.loader.read = some r → t.bus.port = .loader r.next false) ∧
    ∀ k x, accessOf k = some x → s.bus.waiting = [x] →
      exec (.writerWordComplete err) s = exec k { s with bus := { s.bus with port := .free, waiting := [] } }

/-- LOADER_READ_COMPLETE. Word 1 of the start block gives the table's address, a table word joins the image, an error is
tried up to three more times, and the fourth ends the read: a start-up read in PASSTHRU-FAILED with FLT still asserted,
a reload's with a TABLE_REJECTED record and the old table in force (R167, R169, R172; that the record's length is the
whole word 1: log entry 46). A third word that completes a header with a wrong signature or length ends the read there
in the same two ways, with that reason (R167 step 2, R168). The last word of a reload's read has the image validated in
the same event: one that fails is rejected; one that passes is installed, with its TABLE_LOADED record, where quiescence
holds, and else becomes the held image (R170, R171, R172). A word under HOLD is the loader's one word: HOLD is released,
a turn is owed, and the word counts as in a gap; the first access that waits (that order: log entry 2) is taken, clears
the turn, and HOLD is asserted at once for a writer that wants a burst (R149, R150). A gap word that completes with HOLD
asserted for the writer counts as in a gap, and the burst begins (R149), also ahead of a producer word still dirty (log
entry 38; no record to write: log entry 13). Where the read goes on with HOLD released, an access that has waited alone
is taken as at a FREE port with nothing waiting, so a write is handed to its owner then (R146, R148). A word of a read
that a full reset or a reload request has abandoned counts for nothing: the port goes to an access that has waited, or
to a later read's word (R140, R170); a HOLD that waited for the abandoned read is released then, and one asserted for a
later read stays (the moment is log entry 11). A last word that is installed does in every block what HELD_IMAGE_INSTALL
does on the same state with the image held and the word's own HOLD released, a settled one where no access waits and
HOLD is not the writer's (R172); the end of a start-up read is stated by itself. -/
def Obligations.LoaderReadComplete : Prop :=
  (∀ (s : State) (a : Word) (r : TableRead) (data : Word), s.bus.port = .loader a false → s.calm →
    s.loader.read = some r →
    let reads := fun (c : Instr) (r' : TableRead) (image : List Word) => Completes c s fun t =>
      t.offMarks = State.offMarks { s with loader := { s.loader with read := some r', image := image } } ∧
        t.holds .released none ∧ t.bus.port = .loader r'.next false
    let fails := fun (c : Instr) => Completes c s fun t =>
      t.offMarks = State.offMarks
        { s with loader := { s.loader with mode := .failed, read := none, image := [] } }
    let rejects := fun (c : Instr) (addr : Option Word) (reject : Reject) (ws : List Word) => Completes c s fun t =>
      t.loader = { s.loader with reload := .none, read := none, image := [] } ∧ t.table = s.table ∧
        t.blocks = State.blocks { s with loader := t.loader } ∧
        t.writer.summary = s.writer.summary ||| 0x80#8 ||| (if s.writer.staging.length < 16 then 0#8 else 0x08#8) ∧
        staged s t (.tableRejected addr reject ws[0]? ws[1]? ws[2]?)
    (r.tries < 3 →
        reads (.loaderReadComplete data true) { r with tries := r.tries + 1 } s.loader.image) ∧
      (3 ≤ r.tries → s.table = none → fails (.loaderReadComplete data true)) ∧
      (3 ≤ r.tries → s.table ≠ none → rejects (.loaderReadComplete data true) r.addr
        ⟨.readFailed, some (if r.addr = none then 0 else r.index + 1), none, none⟩ s.loader.image) ∧
      (r.addr = none → reads (.loaderReadComplete data false) ⟨some (data &&& 0xFFFFFFFC#32), 0, 0⟩ s.loader.image) ∧
      ∀ base, r.addr = some base →
        let image := s.loader.image ++ [data]
        let word := fun i => image.getD i 0#32
        let length := ((word 1).extractLsb' 0 10).toNat
        let signed := word 0 = 0x5C184E0D#32
        let sized := 99 ≤ length ∧ length ≤ 512
        (r.index + 1 < 3 ∨ r.index + 1 < length ∧ (r.index + 1 = 3 → signed ∧ sized) →
          reads (.loaderReadComplete data false) ⟨some base, r.index + 1, 0⟩ image) ∧
        (r.index + 1 = 3 → ¬ (signed ∧ sized) →
          let reject : Reject :=
            if signed then ⟨.length, some 1, none, none⟩ else ⟨.signature, some 0, none, none⟩
          (s.table = none → fails (.loaderReadComplete data false)) ∧
            (s.table ≠ none → rejects (.loaderReadComplete data false) (some base) reject image)) ∧
        ∀ old, s.table = some old → 3 < r.index + 1 → length ≤ r.index + 1 →
          (∀ reject, validate image = .error reject →
            rejects (.loaderReadComplete data false) (some base) reject image) ∧
          ∀ new, validate image = .ok new →
            (s.quiescent = false → Completes (.loaderReadComplete data false) s fun t =>
              t.offMarks = State.offMarks { s with loader := { s.loader with
                reload := .held, read := none, image := image, heldAddr := some base } }) ∧
            (s.quiescent = true → Completes (.loaderReadComplete data false) s fun t =>
              t.table = some new ∧
                t.loader = { s.loader with reload := .none, read := none, image := [], heldAddr := none } ∧
                staged s t (.tableLoaded base new.length new.identity new.windows.length true
                  (decide (old.settings.sample ≠ new.settings.sample))
                  (Fid.all.filter fun f => decide (old.entries.get f ≠ new.entries.get f))))) ∧
  (∀ (s : State) (a : Word) (r : TableRead) (base data : Word) (old new : Table), s.bus.port = .loader a false →
    s.loader.read = some r → r.addr = some base → s.table = some old → s.loader.reload = .reading →
    s.quiescent = true → 3 < r.index + 1 →
    let image := s.loader.image ++ [data]
    ((image.getD 1 0#32).extractLsb' 0 10).toNat ≤ r.index + 1 → validate image = .ok new →
    let bus := if s.bus.hold = .loader then
      { s.bus with hold := .released, turnOwed := true, holdWithdrawn := false } else s.bus
    let held := { s with
      bus := { bus with port := .free }
      loader := { s.loader with reload := .held, read := none, image := image, heldAddr := some base } }
    exec (.loaderReadComplete data false) s = exec .heldImageInstall held ∧
      (s.settled → s.bus.hold ≠ .writer → s.bus.waiting = [] → held.settled)) ∧
  (∀ (s : State) (a : Word) (r : TableRead) (data : Word) (err : Bool), s.bus.port = .loader a false →
    s.bus.hold = .loader → s.loader.read = some r →
    let released := { s.bus with hold := .released, turnOwed := true, holdWithdrawn := false }
    exec (.loaderReadComplete data err) s = exec (.loaderReadComplete data err) { s with bus := released } ∧
      ∀ x rest, r.tries < 3 → s.bus.waiting = x :: rest → accessPermitted (s.classify x.addr) x = true →
        Completes (.loaderReadComplete data true) s fun t =>
          t.bus.turnOwed = false ∧ t.bus.port = .upstream ∧ t.bus.waiting = rest ∧
            (t.burstWanted = false → t.bus.hold ≠ .writer) ∧
            (t.burstWanted = true → s.settled → t.bus.hold = .writer) ∧
            t.bus.current = some ⟨x, s.classify x.addr, s.downAddr (s.classify x.addr) x⟩) ∧
  (∀ (s : State) (a : Word) (r : TableRead) (data : Word) (err : Bool) (u : State), s.bus.port = .loader a false →
    s.settled → s.bus.hold = .writer → s.writer.burst = none → s.loader.read = some r →
    exec (.loaderReadComplete data err)
      { s with bus := { s.bus with hold := .released, turnOwed := true, waiting := [] } } = .next u →
    Completes (.loaderReadComplete data err) s fun t => holdServed s u t) ∧
  (∀ (s : State) (a : Word) (r : TableRead) (data : Word) (err : Bool) (k : Instr) (x : Access) (t : State),
    s.settled → s.bus.port = .loader a false → s.loader.read = some r → s.bus.waiting = [x] → accessOf k = some x →
    exec (.loaderReadComplete data err) { s with bus := { s.bus with waiting := [] } } = .next t →
    t.loader.read ≠ none → t.bus.hold = .released →
    ∃ e : State, e.takesAtOnce ∧ e.finish = t ∧ exec (.loaderReadComplete data err) s = exec k e) ∧
  ∀ (s : State) (a data : Word) (err : Bool), s.settled → s.bus.port = .loader a true →
    let released := { s.bus with hold := .released, turnOwed := true, holdWithdrawn := false }
    let freed := fun b : Bus =>
      (s.bus.waiting = [] → Completes (.loaderReadComplete data err) s fun t =>
        t.offPort = State.offPort { s with bus := b } ∧ t.holds .released none ∧ t.bus.port ≠ .loader a true ∧
          ∀ r, s.loader.read = some r → t.bus.port = .loader r.next false) ∧
      ∀ k x, accessOf k = some x → s.bus.waiting = [x] →
        exec (.loaderReadComplete data err) s = exec k { s with bus := { b with port := .free, waiting := [] } }
    (s.bus.hold = .released → freed s.bus) ∧ (s.bus.hold = .loader → s.bus.holdWithdrawn = true → freed released) ∧
      ∀ r, s.bus.hold = .loader → s.bus.holdWithdrawn = false → s.loader.read = some r →
        Completes (.loaderReadComplete data err) s fun t =>
          t.offPort = s.offPort ∧ t.holds .loader none ∧ t.bus.port = .loader r.next false

/-- LOADER_READ_COMPLETE with the word that completes a start-up read: an image that fails validation ends in
PASSTHRU-FAILED; one that passes is installed: the mode is ACTIVE, FLT is released, the TABLE_LOADED record comes first,
each enabled feeder is in ARMING, or in FAULT where its alarm is asserted, and an idle line sends a RESYNC (R5, R111,
R127, R167, R168, R169). With no sag, no episode and no record in a stager, as start-up has it, the records are
TABLE_LOADED and then, by feeder, the FEEDER_STATE records of these changes, and no others (R4). Validation takes its
eight steps in order, the first failure giving the reason and the index: signature, length, checksum, the ranges of the
items in word order, priorities and units of the enabled feeders, the order of the curves, the windows the table must
have, and no two entries for one window; an image that passes is read by the layout of Formats 12.1 (R24, R59, R168).
Which word an item names and which bits must be zero is log entry 18, that a base is judged against its size only where
the size is in range, so that an entry wrong in both is named by its second word, log entry 48, the first later entry of
several clashing windows log entry 33, and that a curve and a window entry are named by their first word log entry 44.
An installation marks all 40 mirror words dirty, and the result slots of its NONE results (R164). -/
def Obligations.StartUpInstallation : Prop :=
  (∀ ws : List Word,
    let word := fun i => ws.getD i 0#32
    let bits := fun i lo len => ((word i).extractLsb' lo len).toNat
    let zero := fun i (mask : Word) => word i &&& mask = 0#32
    let length := bits 1 0 10
    let n := bits 4 0 8
    let curve := fun (c : Fid) => (List.range (bits (42 + 7 * c.val) 0 3)).map fun k =>
      (⟨bits (43 + 7 * c.val + k) 0 10, bits (43 + 7 * c.val + k) 16 10⟩ : Breakpoint)
    let kindOf := fun k => [none, some WindowKind.sample, some .dclink, some .reference, some .control, some .ring,
      some .mirror, some .guard].getD k none
    let entries : Per8 Entry := Per8.ofFn fun f =>
      let i := 10 + 4 * f.val
      { enabled := (word i).getLsbD 0, autofill := (word i).getLsbD 1, rehearsal := (word i).getLsbD 2
        priority := Fin.ofNat 8 (bits i 4 3), curve := Fin.ofNat 8 (bits i 8 3), unit := (word i).extractLsb' 12 3
        sagLimit := bits i 16 4, injectionLimit := bits (i + 1) 0 16, rating := bits (i + 1) 16 8
        rideLimit := bits (i + 1) 24 8, nominal := (word (i + 2)).toNat, window := bits (i + 3) 0 16 }
    let settings : Settings :=
      { n := n, w := bits 4 8 8, coastLimit := bits 4 16 8, bridgeLimit := bits 4 24 8, onset := bits 5 0 16
        interruption := bits 5 16 16, recovery := bits 6 0 16, invalidLimit := bits 6 16 8, lead := bits 6 24 8
        silenceLimit := bits 7 0 16, dcInterval := bits 7 16 8, timeout := bits 7 24 8, floor := bits 8 0 16
        scale := bits 8 16 16, mask := (word 9).extractLsb' 0 8, ringThreshold := bits 9 16 13 }
    let windows := (List.range (bits 98 0 6)).filterMap fun k => (kindOf (bits (100 + 2 * k) 0 4)).map fun kind =>
      ({ kind := kind, feeder := Fin.ofNat 8 (bits (100 + 2 * k) 4 3), base := word (99 + 2 * k)
         sizeLog := bits (100 + 2 * k) 8 5 } : WindowEntry)
    let inRange := fun i : Nat =>
      (i = 1 → zero 1 0xFFFFFC00#32) ∧
        (i = 4 → 16 ≤ n ∧ n ≤ 128 ∧ 1 ≤ bits 4 8 8 ∧ bits 4 8 8 ≤ n / 8 ∧ 1 ≤ bits 4 16 8 ∧ bits 4 16 8 ≤ 16 ∧
          bits 4 24 8 ≤ 7) ∧
        (i = 5 → 300 ≤ bits 5 0 16 ∧ bits 5 0 16 ≤ 999 ∧ bits 5 16 16 ≤ 299) ∧
        (i = 6 → 300 ≤ bits 6 0 16 ∧ bits 6 0 16 ≤ 1000 ∧ 1 ≤ bits 6 16 8 ∧ bits 6 16 8 ≤ 8 ∧ bits 6 24 8 ≤ 8) ∧
        (i = 7 → 1000 ≤ bits 7 0 16 ∧ bits 7 0 16 ≤ 30000 ∧ 1 ≤ bits 7 16 8 ∧ bits 7 16 8 ≤ 64 ∧ 16 ≤ bits 7 24 8) ∧
        (i = 8 → 1 ≤ bits 8 16 16) ∧ (i = 9 → zero 9 0xE000FF00#32) ∧
        (∀ f : Fid, (i = 10 + 4 * f.val → 1 ≤ bits i 16 4 ∧ bits i 16 4 ≤ 8 ∧ zero i 0xFFF08888#32) ∧
          (i = 11 + 4 * f.val → 100 ≤ bits i 0 16 ∧ bits i 0 16 ≤ 1000 ∧ 1 ≤ bits i 16 8 ∧ 1 ≤ bits i 24 8) ∧
          (i = 12 + 4 * f.val → word i ≠ 0#32) ∧
          (i = 13 + 4 * f.val → 10 ≤ bits i 0 16 ∧ bits i 0 16 ≤ 6000 ∧ zero i 0xFFFF0000#32)) ∧
        (∀ c : Fid, (i = 42 + 7 * c.val → 1 ≤ bits i 0 3 ∧ bits i 0 3 ≤ 6) ∧
          ∀ k < 6, i = 43 + 7 * c.val + k →
            if k < bits (42 + 7 * c.val) 0 3 then bits i 0 10 ≤ 999 else word i = 0#32) ∧
        (i = 98 → 1 ≤ bits 98 0 6 ∧ bits 98 0 6 ≤ 32 ∧ zero 98 0xFFFFFFC0#32) ∧
        ∀ k < bits 98 0 6,
          (i = 99 + 2 * k → 101 + 2 * k ≤ length ∧
            (5 ≤ bits (i + 1) 8 5 → bits (i + 1) 8 5 ≤ 24 → (word i).toNat % 2 ^ bits (i + 1) 8 5 = 0)) ∧
          (i = 100 + 2 * k → 1 ≤ bits i 0 4 ∧ bits i 0 4 ≤ 7 ∧ 5 ≤ bits i 8 5 ∧ bits i 8 5 ≤ 24 ∧
            (bits i 0 4 = 3 → bits i 8 5 = 7))
    let table : Table :=
      { length := length, identity := word 2, settings := settings, entries := entries, curves := Per8.ofFn curve
        windows := windows }
    let fails := fun (reason : RejectReason) (index : Option Nat) => validate ws = .error ⟨reason, index, none, none⟩
    let clash := fun (key : Entry → Nat) (f : Fid) => (entries.get f).enabled = true ∧
      ∃ g < f, (entries.get g).enabled = true ∧ key (entries.get g) = key (entries.get f)
    let priority := fun e : Entry => e.priority.val
    let unit := fun e : Entry => e.unit.toNat
    let falls := fun c => (curve c).Pairwise fun x y => y.level < x.level ∧ y.duration < x.duration
    let lacks := fun (test : WindowEntry → Prop) => ∀ w ∈ windows, ¬ test w
    let missing := fun (kind : WindowKind) (f : Option Fid) => validate ws = .error ⟨.missingWindow, none, some kind, f⟩
    let lacksOf := fun (kind : WindowKind) f => (entries.get f).enabled = true ∧ lacks fun w => w.kind = kind ∧ w.feeder = f
    let noControl := lacks fun w => w.kind = .control
    let noMirror := lacks fun w => w.kind = .mirror ∧ 160 ≤ 2 ^ w.sizeLog
    let noRing := lacks fun w => w.kind = .ring ∧ 512 ≤ 2 ^ w.sizeLog ∧ 2 ^ w.sizeLog ≤ 131072 ∧
      1 ≤ settings.ringThreshold ∧ 32 * settings.ringThreshold ≤ 2 ^ w.sizeLog
    let lacksFeeder := fun f => lacksOf .sample f ∨ lacksOf .reference f
    let doubled := fun k => ∃ b, windows[k]? = some b ∧ b.kind ≠ .guard ∧ ∃ j < k, ∃ a, windows[j]? = some a ∧
      a.kind = b.kind ∧ (b.kind = .sample ∨ b.kind = .reference → a.feeder = b.feeder)
    (word 0 ≠ 0x5C184E0D#32 → fails .signature (some 0)) ∧
    (word 0 = 0x5C184E0D#32 →
      (¬ (99 ≤ length ∧ length ≤ 512) → fails .length (some 1)) ∧
      (99 ≤ length → length ≤ 512 →
        (ws.foldl (· + ·) 0#32 ≠ 0#32 → fails .checksum none) ∧
        (ws.foldl (· + ·) 0#32 = 0#32 →
          (∀ i, ¬ inRange i → (∀ j < i, inRange j) → fails .range (some i)) ∧
          ((∀ i, inRange i) →
            (∀ f, clash priority f → (∀ g < f, ¬ clash priority g) →
              fails .priority (some (10 + 4 * f.val))) ∧
            ((∀ f, ¬ clash priority f) →
              (∀ f, clash unit f → (∀ g < f, ¬ clash unit g) → fails .unit (some (10 + 4 * f.val))) ∧
              ((∀ f, ¬ clash unit f) →
                (∀ c, ¬ falls c → (∀ d < c, falls d) → fails .curveOrder (some (42 + 7 * c.val))) ∧
                ((∀ c, falls c) →
                  (noControl → missing .control none) ∧ (¬ noControl → noMirror → missing .mirror none) ∧
                  (¬ noControl → ¬ noMirror → noRing → missing .ring none) ∧
                  (¬ noControl → ¬ noMirror → ¬ noRing →
                    (∀ f, lacksFeeder f → (∀ g < f, ¬ lacksFeeder g) →
                      (lacksOf .sample f → missing .sample (some f)) ∧
                        (¬ lacksOf .sample f → missing .reference (some f))) ∧
                    ((∀ f, ¬ lacksFeeder f) →
                      (∀ k, doubled k → (∀ j < k, ¬ doubled j) → fails .duplicateWindow (some (99 + 2 * k))) ∧
                      ((∀ k, ¬ doubled k) → validate ws = .ok table))))))))))) ∧
  ∀ (s : State) (a : Word) (r : TableRead) (base data : Word), s.bus.port = .loader a false → s.calm →
    s.loader.read = some r → r.addr = some base → s.table = none → 3 ≤ r.index + 1 →
    let image := s.loader.image ++ [data]
    tableLength image ≤ r.index + 1 →
    (∀ reject, validate image = .error reject → Completes (.loaderReadComplete data false) s fun t =>
      t.offMarks = State.offMarks
        { s with loader := { s.loader with mode := .failed, read := none, image := [] } }) ∧
    ∀ table, validate image = .ok table → Completes (.loaderReadComplete data false) s fun t =>
      t.table = some table ∧
        t.loader = { s.loader with mode := .active, read := none, image := [], flt := false } ∧
        staged s t (.tableLoaded base table.length table.identity table.windows.length false false []) ∧
        ((∀ f, (s.ctl.get f).sag = none ∧ (s.ctl.get f).episode = none ∧ (s.stagers.get f).onLine = none ∧
            (s.stagers.get f).inSlot = none ∧ (s.stagers.get f).pending = none) →
          recorded s t (.tableLoaded base table.length table.identity table.windows.length false false [] ::
            (Fid.all.filter fun f => (table.entries.get f).enabled).flatMap fun f =>
              .feederState f (s.ctl.get f).state .arming .table ::
                (if s.malm.get f then [.feederState f .arming .fault .alarm] else []))) ∧
        (s.marksInv → ∀ i < 40, t.writer.mirrorDirty.getD i false = true) ∧
        t.writer.attn = t.attnWanted ∧ t.trackers = s.trackers ∧
        (s.link.line = .idle → t.link.line = .resync ∧ t.link.resyncOwed = false) ∧
        ∀ f,
          let c := s.ctl.get f
          let armed : FeederCtl :=
            { c with state := .arming, reason := .table, ready := false, notReadyRun := 0, rode := 0, source := .none,
                     lastRef := ⟨⟨0, 0#10⟩, ⟨0, 0#10⟩, ⟨0, 0#10⟩⟩ }
          ((table.entries.get f).enabled = false → t.ctl.get f = c ∧ t.monitors.get f = s.monitors.get f) ∧
            ((table.entries.get f).enabled = true →
              t.monitors.get f = { s.monitors.get f with silence := some table.settings.silenceLimit } ∧
              (s.malm.get f = false → t.ctl.get f = armed) ∧
              (s.malm.get f = true →
                t.ctl.get f = { armed with state := .fault, reason := .alarm, sag := none, episode := none })) ∧
            ((table.windowOf .reference f).isSome = true → slotMarked s t f) ∧
            ((table.windowOf .reference f).isSome = true → s.malm.get f = false →
              (t.stagers.get f).number = (s.stagers.get f).number + 1#8 ∧
                (t.stagers.get f).latest.map (fun x => (x.code, x.ident)) = some (.none, none))

/-- WRITER_BURST_HOLD, LOADER_HOLD, LOADER_GAP_TIMEOUT, and HOLD in every event. HOLD is asserted at once, in the event
that brings its conditions: no event leaves HOLD released, with no upstream turn owed, while staging holds 8 records
with room in the ring, or while a request waits (R149 step 1, R150; that the loader's is as prompt as the writer's is
log entry 45). An access that clears an owed turn brings it for the party whose request came first. From released HOLD
is asserted for a writer that wants a burst, or for a loader that reads; at a FREE port the burst begins with the first
word of the record, at the ring slot of P. Once asserted HOLD stays, and so does the burst's slot, in every event but a
full reset and memory's answers. Every event leaves the writer's request in the queue exactly while it wants a burst
that it has not been given, but from a burst's end to the upstream turn where staging has held 8 records ever since, and
the gap timer running exactly while the loader's read waits for the port. WRITER_BURST_HOLD and LOADER_HOLD find all
this done in a state that an event has left, and change nothing; in a state where a grant is still due they assert HOLD
(log entry 45). LOADER_GAP_TIMEOUT has HOLD asserted for the read, or makes a request behind those already there. That
requests are served first come first served, and are withdrawn so, is log entry 12; that HOLD is judged before the port
is given away is log entry 9. -/
def Obligations.HoldEvents : Prop :=
  (∀ (c : Instr) (s : State), Completes c s fun t =>
    let asks := 8 ≤ t.writer.staging.length ∧ (t.writer.producer - t.writer.consumer).toNat < t.ringSize
    let waits := t.loader.read ≠ none ∧ t.bus.port.carriesRead = false
    (¬ asks → HoldParty.writer ∉ t.bus.holdQueue) ∧
      (asks → t.bus.hold ≠ .writer → t.bus.writerDeferred = false → HoldParty.writer ∈ t.bus.holdQueue) ∧
      (waits → t.bus.gapTimer ≠ none) ∧
      (¬ waits → t.bus.gapTimer = none ∧ HoldParty.loader ∉ t.bus.holdQueue) ∧
      (s.settled →
        (t.bus.hold = .released → t.bus.turnOwed = false → ¬ asks ∧ t.bus.holdQueue = []) ∧
        (s.bus.hold = .released →
          (t.bus.hold = .writer → asks) ∧ (t.bus.hold = .loader → t.loader.read ≠ none) ∧
            (s.bus.port = .free → t.bus.hold = .writer → t.bus.port ≠ .upstream → t.writer.burst ≠ none) ∧
            (t.writer.burst ≠ none →
              t.holds .writer (some ⟨t.slotAddr, false, false⟩) ∧ t.writer.inProgress.map InProgress.words = some 0 ∧
                ∀ r rest, t.writer.staging = r :: rest → t.bus.port =
                  .writer ⟨.record 0, t.slotAddr, r.words.getD 0 0#32, true, false, false⟩ false)) ∧
        (s.bus.hold ≠ .released → (∀ init, c ≠ .powerOn init) → c ≠ .initAssert →
          (∀ data err, c ≠ .upstreamAccessComplete data err) → (∀ err, c ≠ .writerWordComplete err) →
          (∀ data err, c ≠ .loaderReadComplete data err) →
          t.bus.hold = s.bus.hold ∧ t.writer.burst.map Burst.slot = s.writer.burst.map Burst.slot ∧
            t.writer.burst.map Burst.recordDone = s.writer.burst.map Burst.recordDone))) ∧
  (∀ (s : State) (x : Access), s.takesAtOnce → s.classify x.addr = .plain → s.bus.turnOwed = true →
    Completes (.plainAccess x) s fun t =>
      t.bus.port = .upstream ∧ t.bus.turnOwed = false ∧
        t.bus.hold =
          match s.bus.holdQueue.head? with
          | some .writer => .writer
          | some .loader => .loader
          | none => if s.burstWanted then .writer else .released) ∧
  ∀ s : State,
    let free := s.bus.hold = .released ∧ s.bus.turnOwed = false
    let calls := s.holdInv ∧ (s.bus.port = .free → s.bus.hold = .released ∧ s.bus.waiting = [])
    let stays := fun t : State =>
      t.offPort = s.offPort ∧ t.holds s.bus.hold s.writer.burst ∧ (s.bus.port ≠ .free → t.bus.port = s.bus.port)
    (s.holdGranted .writer = true ↔ free ∧ s.bus.holdQueue.head? = some .writer) ∧
    (s.holdGranted .loader = true ↔ free ∧ s.bus.holdQueue.head? = some .loader) ∧
    (s.settled → Completes .writerBurstHold s stays ∧ Completes .loaderHold s stays) ∧
    (calls → s.holdGranted .writer = true → s.burstWanted = true → Completes .writerBurstHold s fun t =>
      t.bus.hold = .writer ∧ t.offPort = s.offPort ∧
        (s.bus.port ≠ .free → t.bus.port = s.bus.port ∧ t.writer.burst = none) ∧
        ∀ r rest, s.bus.port = .free → s.writer.staging = r :: rest →
          t.writer.burst = some ⟨s.slotAddr, false, false⟩ ∧
            t.bus.port = .writer ⟨.record 0, s.slotAddr, r.words.getD 0 0#32, true, false, false⟩ false ∧
            t.writer.inProgress = some ⟨0, (s.writer.inProgress.map InProgress.second).getD false⟩) ∧
    (∀ r, calls → s.holdGranted .loader = true → s.loader.read = some r → s.bus.port.carriesRead = false →
      Completes .loaderHold s fun t =>
        t.holds .loader none ∧ t.offPort = s.offPort ∧
          t.bus.port = (if s.bus.port = .free then .loader r.next false else s.bus.port)) ∧
    (s.settled → Completes .loaderGapTimeout s fun t =>
      t.offPort = s.offPort ∧ (s.loader.read = none → stays t) ∧
        ∀ r, s.loader.read = some r → s.bus.port.carriesRead = false →
          (free → t.holds .loader none ∧
            t.bus.port = (if s.bus.port = .free then .loader r.next false else s.bus.port)) ∧
          (¬ free → s.bus.port ≠ .free → stays t ∧
            (s.bus.hold ≠ .loader → HoldParty.loader ∉ s.bus.holdQueue →
              t.bus.holdQueue = s.bus.holdQueue ++ [.loader])))

/-! ## Commands: reloads -/

/-- RELOAD_READ_START: in REQUESTED, with quiescence holding, the loader moves to READING and begins a read (R170,
R171). HELD_IMAGE_INSTALL: with a held image and quiescence holding, the held table is installed, its TABLE_LOADED
record first, and feeders go to ARMING with the entry actions of R5 and R40, to OFF with those of R22, or stay, by what
changed for them (R22, R170, R172). With no sag open and no record pending, the other records are, feeder by feeder, an
abandoned assembly's REF_REJECTED, a sent-back tracker's SYNC_CHANGE, and the FEEDER_STATE records (R4, R172). The link
keeps its line, slots and exchange, and no RESYNC is owed anew, but the slot of a feeder that goes to OFF or FAULT is
emptied and its exchange marked for discard (R117, R127). Assemblies of groups are emptied and sequences unset;
accumulators and counts are cleared for a feeder whose entry changed or with a sample setting, and kept for any other
(R43); trackers go to SEEK with a sample setting, keeping their half-cycle number, and are kept without (R58). A ring
that moves or changes its size takes all three indexes to 0 and restarts the record in progress at its try, and a burst
whose record is not whole goes on at its old slot; another ring keeps them (R153, R164); a mirror that moves is dirty
whole (R164); a REFERENCE window that moves clears the page owner and dirties the result slot, and the stager keeps its
page, its sequence and, with no assembly to abandon, its results (R111; a window the old table had not counts as moved:
log entry 19). HOLD, once asserted, stays (R153). A word of the writer on the port completes where it was sent (R153);
that one of a window that moves counts for nothing is log entry 20, and that one of a REFERENCE window that is taken
away still counts is log entry 47. That either command, its conditions not met, changes
nothing is the model's choice (log entry 3). -/
def Obligations.ReloadEvents : Prop :=
  ∀ s : State, s.settled →
    (s.loader.reload = .requested → s.quiescent = true → Completes .reloadReadStart s fun t =>
      t.offMarks = State.offMarks
        { s with loader := { s.loader with reload := .reading, read := some ⟨none, 0, 0⟩, image := [] } }) ∧
    (s.loader.reload ≠ .requested ∨ s.quiescent = false →
      Completes .reloadReadStart s fun t => t.offPort = s.offPort) ∧
    (s.loader.reload ≠ .held ∨ s.quiescent = false →
      Completes .heldImageInstall s fun t => t.offPort = s.offPort) ∧
    ∀ old base new, s.loader.reload = .held → s.quiescent = true → s.table = some old →
      s.loader.heldAddr = some base → validate s.loader.image = .ok new →
      let sample := fun g : Settings =>
        [g.n, g.w, g.bridgeLimit, g.onset, g.interruption, g.recovery, g.invalidLimit]
      let resampled := sample old.settings ≠ sample new.settings
      let ring := fun tab : Table => (tab.window .ring).map fun w => (w.base, w.sizeLog)
      let mirror := fun tab : Table => (tab.window .mirror).map WindowEntry.base
      let reference := fun (tab : Table) f => (tab.windowOf .reference f).map WindowEntry.base
      let enabled := fun (tab : Table) f => (tab.entries.get f).enabled
      let resets := fun f =>
        enabled new f = true ∧ (enabled old f = false ∨ resampled ∨ old.entries.get f ≠ new.entries.get f)
      let leaves := fun f => s.malm.get f = true ∧ resets f ∨ enabled old f = true ∧ enabled new f = false
      let loaded := Body.tableLoaded base new.length new.identity new.windows.length true (decide resampled)
        (Fid.all.filter fun f => decide (old.entries.get f ≠ new.entries.get f))
      let abandons := fun (t : State) (f : Fid) => (s.stagers.get f).assembly.toList.map fun x => Body.refRejected f
        { number := (s.stagers.get f).number + 1#8, code := .abandoned, clamped := false, limited := false
          unflipped := false, ident := some ⟨x.word0.extractLsb' 8 8, x.word0.extractLsb' 16 8⟩
          judgedAt := (s.trackers.get f).hc, applied := none, source := (t.ctl.get f).source
          page := (s.stagers.get f).committed }
      let moves := fun f =>
        let k := s.trackers.get f
        if resampled ∧ k.sync ≠ .seek ∧ enabled new f = true then
          [Body.syncChange f k.sync .seek .table k.coast k.hc]
        else []
      let changes := fun f =>
        let state := (s.ctl.get f).state
        if enabled new f = true then
          if resets f then
            Body.feederState f state .arming .table ::
              (if s.malm.get f then [.feederState f .arming .fault .alarm] else [])
          else []
        else if enabled old f = true then [.feederState f state .off .disabled] else []
      Completes .heldImageInstall s fun t =>
        t.table = some new ∧
          t.loader = { s.loader with reload := .none, read := none, image := [], heldAddr := none } ∧
          t.dclink = { lastSeq := none, count := 0 } ∧ t.writer.attn = t.attnWanted ∧
          t.account.usable = s.account.usable ∧ t.account.notice = s.account.notice ∧
          t.pending = s.pending ∧ t.stamp = s.stamp ∧ t.init = s.init ∧ t.malm = s.malm ∧ t.draws = s.draws ∧
          (s.bus.hold ≠ .released → t.bus.hold = s.bus.hold) ∧ t.bus.turnOwed = s.bus.turnOwed ∧ t.bus.current = s.bus.current ∧
          t.link = { s.link with
              slots := Per8.ofFn fun f => if leaves f then none else s.link.slots.get f
              exchange := s.link.exchange.map fun x =>
                { x with discard := x.discard || decide (leaves x.feeder) } } ∧
          staged s t loaded ∧ s.writer.staging <+: t.writer.staging ∧
          ((∀ f, (s.ctl.get f).sag = none ∧ (s.stagers.get f).pending = none) →
            recorded s t (loaded :: Fid.all.flatMap fun f => abandons t f ++ moves f ++ changes f)) ∧
          (ring old = ring new →
            t.writer.producer = s.writer.producer ∧ t.writer.published = s.writer.published ∧
              t.writer.consumer = s.writer.consumer ∧
              (t.bus.hold = s.bus.hold → t.writer.burst = s.writer.burst ∧
                (s.writer.inProgress ≠ none → t.writer.inProgress = s.writer.inProgress))) ∧
          (ring old ≠ ring new →
            t.writer.producer = 0#16 ∧ t.writer.published = 0#16 ∧ t.writer.consumer = 0#16 ∧
              (∀ p, s.writer.inProgress = some p → t.writer.inProgress = some { p with words := 0 }) ∧
              (t.bus.hold = s.bus.hold →
                t.writer.burst = s.writer.burst.map fun b => { b with moved := b.moved || !b.recordDone })) ∧
          (mirror old ≠ mirror new → s.writer.mirrorDirty.length = 40 →
            ∀ i < 40, t.writer.mirrorDirty.getD i false = true) ∧
          (∀ w d, s.bus.port = .writer w d → ∃ w', t.bus.port = .writer w' d ∧ w'.target = w.target ∧
            w'.addr = w.addr ∧ w'.value = w.value ∧ w'.burst = w.burst ∧
            (w'.moved = true ↔ w.moved = true ∨ (∃ k, w.target = .record k ∧ ring old ≠ ring new) ∨
              (∃ i, w.target = .mirror i ∧ (mirror old ≠ mirror new ∨ i = 4 ∧ ring old ≠ ring new)) ∨
              ∃ f i, w.target = .result f i ∧ reference new f ≠ none ∧ reference old f ≠ reference new f)) ∧
          ∀ f,
            let c := s.ctl.get f
            let m := s.monitors.get f
            let g := s.stagers.get f
            let was := (old.entries.get f).enabled
            let now := (new.entries.get f).enabled
            let changed := resampled ∨ old.entries.get f ≠ new.entries.get f
            let armed : FeederCtl :=
              { c with state := .arming, reason := .table, ready := false, notReadyRun := 0, rode := 0, source := .none
                       lastRef := ⟨⟨0, 0#10⟩, ⟨0, 0#10⟩, ⟨0, 0#10⟩⟩ }
            (t.monitors.get f).seq = none ∧
              (t.monitors.get f).assembly = ⟨.notWritten, .notWritten, .notWritten⟩ ∧
              (t.monitors.get f).lastValid = m.lastValid ∧
              (changed → (t.monitors.get f).head = ⟨⟨0, 0, 0⟩, ⟨0, 0, 0⟩, false⟩ ∧
                (t.monitors.get f).tail = ⟨⟨0, 0, 0⟩, ⟨0, 0, 0⟩, false⟩ ∧ (t.monitors.get f).invalidRun = 0 ∧
                (t.monitors.get f).endConfirm = 0) ∧
              (¬ changed → t.monitors.get f =
                { m with assembly := ⟨.notWritten, .notWritten, .notWritten⟩, seq := none }) ∧
              (now = true → resets f → (t.monitors.get f).silence = some new.settings.silenceLimit ∧
                t.ctl.get f = (if s.malm.get f then
                    { armed with state := .fault, reason := .alarm, sag := none, episode := none } else armed)) ∧
              (was = true → now = false → (t.monitors.get f).silence = none ∧
                t.ctl.get f = { c with
                  state := .off, reason := .disabled, source := .none, sag := none, episode := none }) ∧
              (¬ resets f → (was = true → now = true) →
                (t.monitors.get f).silence = m.silence ∧ t.ctl.get f = c) ∧
              (c.sag = none → t.evals.get f = s.evals.get f) ∧
              t.account.reserved.get f = (if leaves f then 0 else s.account.reserved.get f) ∧
              ((t.stagers.get f).pending, (t.stagers.get f).onLine, (t.stagers.get f).inSlot) =
                (if leaves f then (none, none, none) else (g.pending, g.onLine, g.inSlot)) ∧
              (resampled → t.trackers.get f =
                { sync := .seek, count := none, coast := 0, search := none, last := none,
                  hc := (s.trackers.get f).hc }) ∧
              (¬ resampled → t.trackers.get f = s.trackers.get f) ∧
              (t.stagers.get f).assembly = none ∧ (t.stagers.get f).committed = g.committed ∧
              (t.stagers.get f).lastSeq = g.lastSeq ∧
              (∀ x, g.assembly = some x → slotMarked s t f) ∧
              (∀ x, g.assembly = some x → g.pending = none → (t.stagers.get f).number = g.number + 1#8 ∧
                (t.stagers.get f).latest.map (fun r => (r.code, r.ident)) =
                  some (.abandoned, some ⟨x.word0.extractLsb' 8 8, x.word0.extractLsb' 16 8⟩)) ∧
              (g.assembly = none → g.pending = none → (t.stagers.get f).number = g.number ∧
                (t.stagers.get f).latest = g.latest) ∧
              (reference new f ≠ none → reference old f ≠ reference new f →
                (t.stagers.get f).owner = none ∧ t.writer.resultDirty.get f = List.replicate 8 true) ∧
              (reference new f = none ∨ reference old f = reference new f → (t.stagers.get f).owner = g.owner)

/-! ## The feeder controllers at a boundary -/

/-- What a boundary does at its fourth step, by the feeder's state, the verdicts, and the quiet counter (R54). The sag
record and the last valid residuals follow the half-cycle (R130). An onset opens a sag record and counts the sag (R129,
R133); the feeder goes to SHED, or to WATCH with the ride decision at once (R7, R15). That decision (R9): a pending
record for this half-cycle, else the autofill reference (R12) where autofill is on and time-to-trip within the lead, is
put to the account for cost times ride limit (R79); the feeder rides with its ENGAGE placed, or is shed, the record
REFUSED_ENERGY. A ride chooses record, autofill or hold for cost times what is left of the limit, lowering its
reservation or asking for more, and holds where it is refused (R11, R80). An end closes the record into its episode's
totals and starts the quiet counter (R132, R134, R137). The entry actions are those of R5 and R16; only a reference with
a distance of 1 or 2 stays pending (R100). Every change of state has its FEEDER_STATE record, a closed sag's record
before it (R4, R132); every branch has all its records, in order, and its stager's results: SUPERSEDED for a record
whose slot a request takes, then NOT_RIDING for a pending one that the move ends, or LATE for one that has passed (R100,
R102, R106). A counter that reaches the window closes the episode with its record, and a feeder in SHED goes to ARMING
(R134, R135). The two orders of an onset and an expiry at one boundary (R136) are both stated, and which is taken is a
free value (log entry 5); that it also decides between an expiry and another change of state is the model's choice (log
entry 6), and so is that a boundary in OFF changes nothing: R57 has it ignored there, and what that leaves alone is log
entry 17. -/
def Obligations.BoundaryMoves : Prop :=
  ∀ (s : State) (f : Fid) (v : Verdicts),
    let c := s.ctl.get f
    let g := s.stagers.get f
    let e := s.entry f
    let hc := (s.trackers.get f).hc
    let t := s.boundary f v
    let quiet := c.episode.bind Episode.quiet
    let expires := ∃ q, quiet = some q ∧ e.window ≤ q + 1
    let closed := if v.valid then v.residuals else c.lastResiduals
    let update := fun x : SagRecord => { x with
      duration := min 65535 (x.duration + 1), minimum := if v.valid then x.minimum.zip min v.residuals else x.minimum }
    let aged := fun x : Episode => { x with quiet := x.quiet.map (· + 1) }
    let interrupted := fun x : SagRecord => { x with interruption := x.interruption || v.interruption }
    let clamped := fun (b : FeederCtl) (on : Bool) =>
      { b with sag := b.sag.map fun x => { x with clampedSeen := x.clampedSeen || on } }
    let atRest : FeederCtl := { c with lastResiduals := closed, sag := c.sag.map update }
    let base : FeederCtl := { atRest with episode := c.episode.map aged }
    let zero : Reference := ⟨⟨0, 0#10⟩, ⟨0, 0#10⟩, ⟨0, 0#10⟩⟩
    let ctl := fun b : FeederCtl => t.ctl.get f = b
    let pending := (t.stagers.get f).pending
    let endedAs := fun (r : Accepted) (code : ResultCode) =>
      (t.stagers.get f).latest.map (fun x => (x.code, x.ident)) = some (code, some ⟨r.seq, r.target⟩)
    let placed := fun r : Request => t.link.slots.get f = some r ∨
      ∃ x, t.link.exchange = some x ∧ x.feeder = f ∧ x.request = r ∧ x.attempt = 1 ∧ t.link.line = .send
    let engages := fun (ref : Reference) (source : Source) (record : Option Accepted) =>
      placed (.engage ref hc source e.rehearsal record)
    let fs := fun (old new : FeederState) (reason : Reason) => Body.feederState f old new reason
    let replaced := endAll .superseded g.inSlot.toList
    let late := endAll .late (g.pending.toList.filter fun r => !(distance r.target hc == 1 || distance r.target hc == 2))
    let dropped := fun code : ResultCode => replaced ++ endAll code g.pending.toList
    let refs := fun xs : List Ending => refRecords f (endResults s t f xs)
    let made := fun (l : List Body) (xs : List Ending) => resultsMade s t f xs ∧ recorded s t (l ++ refs xs)
    let begins := fun l : List Body => s.writer.staging.length + l.length ≤ 16 →
      s.writer.staging.map Record.body ++ l <+: t.writer.staging.map Record.body
    let alarmed := fs .arming .fault .alarm
    let rests := fun (l : List Body) (b : FeederCtl) =>
      ctl b ∧ t.account = s.account ∧ t.link = s.link ∧ made l late
    let arms := fun (b : FeederCtl) (reason : Reason) (l before : List Body) =>
      let b := { b with state := .arming, reason := reason, ready := false, notReadyRun := 0, rode := 0, source := .none
                        lastRef := zero }
      (t.monitors.get f).silence = some s.settings.silenceLimit ∧ (s.malm.get f = false → recorded s t l) ∧
        (s.malm.get f = true → begins (before ++ [alarmed])) ∧
        ctl (if s.malm.get f then { b with state := .fault, reason := .alarm, sag := none, episode := none } else b)
    let released := t.account = { s.account with reserved := s.account.reserved.set f 0 }
    let sheds := fun (l : List Body) (b : FeederCtl) (reason : Reason) (code : ResultCode) =>
      ctl { b with state := .shed, reason := reason, source := .none } ∧ released ∧ placed (.release hc) ∧
        pending = none ∧ made (l ++ [fs b.state .shed reason]) (dropped code)
    let stands := fs .arming .standby .ready
    let arming := fun (ready waits : List Body) (b : FeederCtl) =>
      if (s.trackers.get f).sync = .locked ∧ c.ready = true then
        rests ready { b with state := .standby, reason := .ready }
      else
        ctl b ∧ t.account = s.account ∧
          ((∀ r, s.link.slots.get f = some r → ∃ h, r = .statusq h) →
            placed (.statusq hc) ∧ made waits (replaced ++ late)) ∧
          (∀ r, s.link.slots.get f = some r → (∀ h, r ≠ .statusq h) → t.link = s.link ∧ made waits late)
    let noRecord := ∀ r, g.pending = some r → r.target ≠ hc
    let fill : Reference := closed.map fun r => ⟨min e.injectionLimit (1000 - r), 0#10⟩
    let lowered := closed.any fun r => decide (e.injectionLimit < 1000 - r)
    let enters := fun (l : List Body) (b : FeederCtl) (ref : Reference) (source : Source) (record : Option Accepted)
        (on : Bool) =>
      let ask := s.requestEntry f (s.cost f ref * e.rideLimit)
      (ask.2 = true → t.account = ask.1.account ∧ engages ref source record ∧ (record ≠ none → pending = none) ∧
        ctl { clamped b on with state := .ride, reason := .admitted, lastRef := ref } ∧
        made (l ++ [fs b.state .ride .admitted]) (if record.isSome then replaced else replaced ++ late)) ∧
      (ask.2 = false →
        sheds l (clamped b (on && record.isNone)) .noEnergy (if record.isSome then .refusedEnergy else .notRiding) ∧
          ∀ r, record = some r → endedAs r .refusedEnergy)
    let decides := fun (l : List Body) (b : FeederCtl) (ttt : Option Nat) =>
      let near := ∃ n, ttt = some n ∧ n ≤ s.settings.lead
      (∀ r, g.pending = some r → r.target = hc → enters l b r.ref .record (some r) r.clamped) ∧
        (noRecord → e.autofill = true → near → enters l b fill .autofill none lowered) ∧
        (noRecord → e.autofill = false ∨ ¬ near → rests l b)
    let opened : SagRecord :=
      { onsetHc := hc - 1#8, onsetStamp := s.stamp, minimum := v.residuals, duration := 1, ridden := 0, autoHold := 0
        limited := false, clampedSeen := false, phaseJump := false, toleranceExceeded := false
        interruption := v.interruption, largestGap := 0, outcome := none }
    let counted := fun old : Option Episode => match old with
      | none => ({ sagCount := 1, riddenTotal := 0, worst := .tolerated, firstOnsetHc := hc - 1#8
                   firstOnsetStamp := s.stamp, quiet := none } : Episode)
      | some x => { x with sagCount := min 255 (x.sagCount + 1), quiet := none }
    let onsetTtt := timeToTrip (s.curve f) (min v.residuals.a (min v.residuals.b v.residuals.c)) [0, 0, 0, 0, 0, 0]
    let opens := t.monitors.get f = { s.monitors.get f with endConfirm := 0 } ∧
      t.evals.get f = { s.evals.get f with
        counters := [0, 0, 0, 0, 0, 0], sagOpen := true, applied := false, exceeded := false, ttt := onsetTtt }
    let onset := fun (l : List Body) (old : Option Episode) =>
      let b : FeederCtl := { atRest with rode := 0, sag := some opened, episode := some (counted old) }
      opens ∧ (v.interruption = true → sheds l b .interruption .notRiding) ∧
        (v.interruption = false → e.sagLimit < (counted old).sagCount → sheds l b .episodeLimit .notRiding) ∧
        (v.interruption = false → (counted old).sagCount ≤ e.sagLimit →
          decides (l ++ [fs c.state .watch .onset]) { b with state := .watch, reason := .onset } onsetTtt)
    let shedOnset := fun old : Option Episode => opens ∧
      rests [] { atRest with rode := 0, sag := some opened, episode := some (counted old) }
    let ends := fun (outcome : SagOutcome) (rank : WorstOutcome) (l : List Body) (xs : List Ending)
        (b : FeederCtl → FeederCtl) => ∀ x y, c.sag = some x → c.episode = some y →
        let rank := if x.toleranceExceeded then .tripped else rank
        t.evals.get f = { s.evals.get f with sagOpen := false, applied := false, ttt := none } ∧
          staged s t (.sagClosed f { update x with outcome := some outcome }) ∧
          made (.sagClosed f { update x with outcome := some outcome } :: l) xs ∧
          ctl (b { base with sag := none, episode := some { y with
            riddenTotal := min 65535 (y.riddenTotal + x.ridden)
            worst := if y.worst.code < rank.code then rank else y.worst, quiet := some 0 } })
    let need := fun ref : Reference => s.cost f ref * (e.rideLimit - c.rode)
    let holds := engages c.lastRef .hold none ∧ t.account = s.account
    (∀ h, h ≠ f → sameFeeder s t h) ∧ (c.state = .off → t = s) ∧
    (c.state ≠ .off → ∀ r, pending = some r → distance r.target hc = 1 ∨ distance r.target hc = 2) ∧
    (¬ expires → t.draws = s.draws ∧
      (c.state = .arming → arming [stands] [] base) ∧ (c.state = .fault → rests [] base) ∧
      (c.state = .standby ∨ c.state = .recover →
        (v.onset = true → onset [] c.episode) ∧
        (v.onset = false → v.invalidLimit = true →
          if c.state = .standby then
            arms base .invalid (fs .standby .arming .invalid :: refs late) [fs .standby .arming .invalid] ∧
              (s.malm.get f = false → resultsMade s t f late)
          else sheds [] base .samplesInvalid .notRiding) ∧
        (v.onset = false → v.invalidLimit = false → rests [] base)) ∧
      (c.state = .shed →
        (v.onset = true → shedOnset c.episode) ∧
        (v.onset = false → v.ended = true → ends .shed .shed [] late id ∧ t.account = s.account ∧ t.link = s.link) ∧
        (v.onset = false → v.ended = false → rests [] { base with sag := base.sag.map interrupted })) ∧
      (c.state = .watch ∨ c.state = .ride →
        (v.invalidLimit = true → sheds [] base .samplesInvalid .notRiding) ∧
        (v.invalidLimit = false → v.interruption = true →
          sheds [] { base with sag := base.sag.map interrupted } .interruption .notRiding)) ∧
      (c.state = .watch → v.invalidLimit = false → v.interruption = false →
        (v.ended = true → pending = none ∧ t.account = s.account ∧ t.link = s.link ∧
          ends .tolerated .tolerated [fs .watch .standby .sagEnd] (endAll .notRiding g.pending.toList) fun b =>
             { b with state := .standby, reason := .sagEnd }) ∧
        (v.ended = false → decides [] base (s.evals.get f).ttt)) ∧
      (c.state = .ride → v.invalidLimit = false → v.interruption = false →
        (v.ended = true → released ∧ placed (.release hc) ∧ pending = none ∧
          ends .protect .protect [fs .ride .recover .sagEnd] (dropped .notRiding) fun b =>
             { b with state := .recover, reason := .sagEnd, source := .none }) ∧
        (v.ended = false → e.rideLimit ≤ c.rode → sheds [] base .rideLimit .notRiding) ∧
        (v.ended = false → c.rode < e.rideLimit →
          (∀ r, g.pending = some r → r.target = hc →
            let ask := s.requestRide f (need r.ref)
            pending = none ∧
              (ask.2 = true → t.account = ask.1.account ∧ engages r.ref .record (some r) ∧
                ctl (clamped base r.clamped) ∧ made [] replaced) ∧
              (ask.2 = false → holds ∧ ctl base ∧ made [] (endAll .refusedEnergy [r] ++ replaced))) ∧
          (noRecord → e.autofill = true →
            let ask := s.requestRide f (need fill)
            ctl (clamped base lowered) ∧ made [] (replaced ++ late) ∧
              (ask.2 = true → t.account = ask.1.account ∧ engages fill .autofill none) ∧ (ask.2 = false → holds)) ∧
          (noRecord → e.autofill = false → holds ∧ ctl base ∧ made [] (replaced ++ late))))) ∧
    (expires → ∀ y, c.episode = some y →
      let gone : FeederCtl := { atRest with episode := none }
      let close := Body.episodeClosed f y .window hc
      let closes := staged s t close
      let drawn := t.draws = s.draws + 1
      let first := Config.expiryFirst s.draws
      (c.state = .fault → closes ∧ rests [close] gone ∧ t.draws = s.draws) ∧
      (c.state = .arming →
        if (s.trackers.get f).sync = .locked ∧ c.ready = true then
          drawn ∧ arming (if first then [close, stands] else [stands, close]) [] gone ∧ (first = true → closes)
        else closes ∧ arming [] [close] gone ∧ t.draws = s.draws) ∧
      (c.state = .standby ∨ c.state = .recover →
        (v.onset = true →
          drawn ∧ (first = true → closes ∧ onset [close] none) ∧ (first = false → onset [] (some y))) ∧
        (v.onset = false → v.invalidLimit = false → closes ∧ rests [close] gone ∧ t.draws = s.draws) ∧
        (v.onset = false → v.invalidLimit = true → drawn ∧ (first = true → closes) ∧
          if c.state = .standby then
            let rearms := fs .standby .arming .invalid
            arms gone .invalid ((if first then [close, rearms] else [rearms, close]) ++ refs late)
                (if first then [close, rearms] else [rearms]) ∧
              (s.malm.get f = false → resultsMade s t f late)
          else if first = true then sheds [close] gone .samplesInvalid .notRiding
          else
            let l := fs .recover .shed .samplesInvalid :: refs (dropped .notRiding) ++
              [close, fs .shed .arming .episodeClosed]
            arms gone .episodeClosed l l ∧ (s.malm.get f = false → resultsMade s t f (dropped .notRiding)))) ∧
      (c.state = .shed →
        (v.onset = false ∨ first = true → closes ∧
          (let l := [close, fs .shed .arming .episodeClosed]
           arms gone .episodeClosed (l ++ refs late) l ∧ (s.malm.get f = false → resultsMade s t f late))) ∧
        (v.onset = true → first = false → shedOnset (some y)) ∧
        t.draws = if v.onset then s.draws + 1 else s.draws))

/-! ## Invariants that every step keeps -/

/-- The invariants hold right after reset, there is one dirty mark for each mirror word, and the port is settled, with
HOLD judged. -/
def Obligations.ResetMeetsInvariants : Prop :=
  State.reset.accountInv ∧ State.reset.stagingInv ∧ State.reset.ringInv ∧ State.reset.attnInv ∧
    State.reset.modeInv ∧ State.reset.lineInv ∧ State.reset.sagInv ∧ State.reset.settled ∧ State.reset.marksInv

/-- The sum of the reservations of feeders not in rehearsal never exceeds U (R74). Kept with it: only a feeder in RIDE
holds a reservation, and every feeder is in OFF until a table is installed. -/
def Obligations.SumStaysWithinUsable : Prop := Kept State.accountInv

/-- Staging never holds more than 16 records (R154, R155). -/
def Obligations.StagingStaysWithinSixteen : Prop := Kept State.stagingInv

/-- The ring never holds more unconsumed records than its size, and keeps room for a started one (R154, R157, R160). -/
def Obligations.RingKeepsRoom : Prop := Kept State.ringInv

/-- ATTN is asserted exactly while a table is installed and either the summary set and the attention mask have a condition
in common, or the published producer index less C, modulo 65536, is at or above the ring threshold; before a table is
installed it is released (R161). -/
def Obligations.AttnFollowsItsConditions : Prop := Kept State.attnInv

/-- The part is ACTIVE exactly while a table is installed, and FLT is asserted exactly while none is (R165, R169). -/
def Obligations.ModeFollowsTheTable : Prop := Kept State.modeInv

/-- The line, its exchange and its waiting requests stay in step (R112, R118, R119, R120, R121). -/
def Obligations.LineStaysInStep : Prop := Kept State.lineInv

/-- Sag records, evaluators, episodes and feeder states stay in step (R61, R129, R133, R134). Kept with it: every feeder
is in OFF until a table is installed. -/
def Obligations.SagRecordsFollowStates : Prop := Kept State.sagInv
end

