-- ==== Sys2Proof/Laws/Collections.lean ====
section
/-! SUPPORT. The small lemmas of the two fixed-size collections. -/

namespace Sys2Proof

namespace Per8

variable {α β : Type}

@[simp] theorem get_set_same (p : Per8 α) (i : Fid) (x : α) : (p.set i x).get i = x := by
  fin_cases i <;> rfl

theorem get_set_ne (p : Per8 α) {i j : Fid} (x : α) (h : i ≠ j) : (p.set j x).get i = p.get i := by
  fin_cases i <;> fin_cases j <;> first | rfl | exact absurd rfl h

/-- What a set collection reads, at every place. -/
theorem get_set (p : Per8 α) (i j : Fid) (x : α) : (p.set j x).get i = if i = j then x else p.get i := by
  by_cases h : i = j
  · subst h; simp
  · rw [get_set_ne p x h, if_neg h]

@[simp] theorem set_get_self (p : Per8 α) (i : Fid) : p.set i (p.get i) = p := by
  fin_cases i <;> rfl

@[simp] theorem set_set (p : Per8 α) (i : Fid) (x y : α) : (p.set i x).set i y = p.set i y := by
  fin_cases i <;> rfl

@[simp] theorem get_replicate (x : α) (i : Fid) : (Per8.replicate x).get i = x := by
  fin_cases i <;> rfl

@[simp] theorem get_ofFn (g : Fid → α) (i : Fid) : (Per8.ofFn g).get i = g i := by
  fin_cases i <;> rfl

@[simp] theorem get_map (g : α → β) (p : Per8 α) (i : Fid) : (p.map g).get i = g (p.get i) := by
  fin_cases i <;> rfl

/-- Two collections that read the same everywhere are equal. -/
theorem ext_get {p q : Per8 α} (h : ∀ i, p.get i = q.get i) : p = q := by
  have h0 := h 0
  have h1 := h 1
  have h2 := h 2
  have h3 := h 3
  have h4 := h 4
  have h5 := h 5
  have h6 := h 6
  have h7 := h 7
  cases p
  cases q
  simp only [get] at h0 h1 h2 h3 h4 h5 h6 h7
  subst h0 h1 h2 h3 h4 h5 h6 h7
  rfl

end Per8

/-- Every feeder stands in the list of feeders. -/
@[simp] theorem Fid.mem_all (f : Fid) : f ∈ Fid.all := by
  fin_cases f <;> decide

theorem Fid.nodup_all : Fid.all.Nodup := by decide

end Sys2Proof
end

