-- ==== Sys2Proof/Laws/State.lean ====
section
/-! SUPPORT. One lemma per field for each update of the state, so that no later proof unfolds a record update. -/

namespace Sys2Proof.Machine.State

/-! ## touchMirror and note -/

@[simp] theorem touchMirror_pending (s : State) (i : Nat) : (s.touchMirror i).pending = s.pending := rfl
@[simp] theorem touchMirror_stamp (s : State) (i : Nat) : (s.touchMirror i).stamp = s.stamp := rfl
@[simp] theorem touchMirror_init (s : State) (i : Nat) : (s.touchMirror i).init = s.init := rfl
@[simp] theorem touchMirror_malm (s : State) (i : Nat) : (s.touchMirror i).malm = s.malm := rfl
@[simp] theorem touchMirror_draws (s : State) (i : Nat) : (s.touchMirror i).draws = s.draws := rfl
@[simp] theorem touchMirror_loader (s : State) (i : Nat) : (s.touchMirror i).loader = s.loader := rfl
@[simp] theorem touchMirror_table (s : State) (i : Nat) : (s.touchMirror i).table = s.table := rfl
@[simp] theorem touchMirror_ctl (s : State) (i : Nat) : (s.touchMirror i).ctl = s.ctl := rfl
@[simp] theorem touchMirror_monitors (s : State) (i : Nat) : (s.touchMirror i).monitors = s.monitors := rfl
@[simp] theorem touchMirror_dclink (s : State) (i : Nat) : (s.touchMirror i).dclink = s.dclink := rfl
@[simp] theorem touchMirror_trackers (s : State) (i : Nat) : (s.touchMirror i).trackers = s.trackers := rfl
@[simp] theorem touchMirror_evals (s : State) (i : Nat) : (s.touchMirror i).evals = s.evals := rfl
@[simp] theorem touchMirror_account (s : State) (i : Nat) : (s.touchMirror i).account = s.account := rfl
@[simp] theorem touchMirror_stagers (s : State) (i : Nat) : (s.touchMirror i).stagers = s.stagers := rfl
@[simp] theorem touchMirror_link (s : State) (i : Nat) : (s.touchMirror i).link = s.link := rfl
@[simp] theorem touchMirror_bus_current (s : State) (i : Nat) : (s.touchMirror i).bus.current = s.bus.current := rfl
@[simp] theorem touchMirror_bus_hold (s : State) (i : Nat) : (s.touchMirror i).bus.hold = s.bus.hold := rfl
@[simp] theorem touchMirror_bus_turnOwed (s : State) (i : Nat) : (s.touchMirror i).bus.turnOwed = s.bus.turnOwed := rfl
@[simp] theorem touchMirror_bus_waiting (s : State) (i : Nat) : (s.touchMirror i).bus.waiting = s.bus.waiting := rfl
@[simp] theorem touchMirror_bus_answer (s : State) (i : Nat) : (s.touchMirror i).bus.answer = s.bus.answer := rfl
@[simp] theorem touchMirror_writer_staging (s : State) (i : Nat) : (s.touchMirror i).writer.staging = s.writer.staging := rfl
@[simp] theorem touchMirror_writer_inProgress (s : State) (i : Nat) : (s.touchMirror i).writer.inProgress = s.writer.inProgress := rfl
@[simp] theorem touchMirror_writer_nextSeq (s : State) (i : Nat) : (s.touchMirror i).writer.nextSeq = s.writer.nextSeq := rfl
@[simp] theorem touchMirror_writer_producer (s : State) (i : Nat) : (s.touchMirror i).writer.producer = s.writer.producer := rfl
@[simp] theorem touchMirror_writer_published (s : State) (i : Nat) : (s.touchMirror i).writer.published = s.writer.published := rfl
@[simp] theorem touchMirror_writer_consumer (s : State) (i : Nat) : (s.touchMirror i).writer.consumer = s.writer.consumer := rfl
@[simp] theorem touchMirror_writer_dropped (s : State) (i : Nat) : (s.touchMirror i).writer.dropped = s.writer.dropped := rfl
@[simp] theorem touchMirror_writer_overrun (s : State) (i : Nat) : (s.touchMirror i).writer.overrun = s.writer.overrun := rfl
@[simp] theorem touchMirror_writer_summary (s : State) (i : Nat) : (s.touchMirror i).writer.summary = s.writer.summary := rfl
@[simp] theorem touchMirror_writer_resultDirty (s : State) (i : Nat) : (s.touchMirror i).writer.resultDirty = s.writer.resultDirty := rfl
@[simp] theorem touchMirror_writer_attn (s : State) (i : Nat) : (s.touchMirror i).writer.attn = s.writer.attn := rfl
@[simp] theorem touchMirror_writer_burst (s : State) (i : Nat) : (s.touchMirror i).writer.burst = s.writer.burst := rfl

/-- Marking some of the words `ws` changes only the mirror's dirty marks and the word on the port. -/
theorem touchFold_shape (keep : Nat → Bool) (ws : List Nat) : ∀ s : State, ∃ d p,
    ws.foldl (fun s i => if keep i = true then s else s.touchMirror i) s =
      { s with writer := { s.writer with mirrorDirty := d }, bus := { s.bus with port := p } } := by
  induction ws with
  | nil => exact fun s => ⟨s.writer.mirrorDirty, s.bus.port, rfl⟩
  | cons i ws ih =>
    intro s
    rw [List.foldl_cons]
    cases keep i with
    | true => exact ih s
    | false =>
      obtain ⟨d, p, h⟩ := ih (s.touchMirror i)
      exact ⟨d, p, h⟩

/-- What note can do: only the mirror's dirty marks and the word on the port change. -/
theorem note_shape (ws : List Nat) (old s : State) : ∃ d p, State.note ws old s =
    { s with writer := { s.writer with mirrorDirty := d }, bus := { s.bus with port := p } } :=
  touchFold_shape (fun i => old.mirrorWord i == s.mirrorWord i) ws s

@[simp] theorem note_pending (ws : List Nat) (old s : State) : (State.note ws old s).pending = s.pending := by
  obtain ⟨d, p, h⟩ := note_shape ws old s
  rw [h]
@[simp] theorem note_stamp (ws : List Nat) (old s : State) : (State.note ws old s).stamp = s.stamp := by
  obtain ⟨d, p, h⟩ := note_shape ws old s
  rw [h]
@[simp] theorem note_init (ws : List Nat) (old s : State) : (State.note ws old s).init = s.init := by
  obtain ⟨d, p, h⟩ := note_shape ws old s
  rw [h]
@[simp] theorem note_malm (ws : List Nat) (old s : State) : (State.note ws old s).malm = s.malm := by
  obtain ⟨d, p, h⟩ := note_shape ws old s
  rw [h]
@[simp] theorem note_draws (ws : List Nat) (old s : State) : (State.note ws old s).draws = s.draws := by
  obtain ⟨d, p, h⟩ := note_shape ws old s
  rw [h]
@[simp] theorem note_loader (ws : List Nat) (old s : State) : (State.note ws old s).loader = s.loader := by
  obtain ⟨d, p, h⟩ := note_shape ws old s
  rw [h]
@[simp] theorem note_table (ws : List Nat) (old s : State) : (State.note ws old s).table = s.table := by
  obtain ⟨d, p, h⟩ := note_shape ws old s
  rw [h]
@[simp] theorem note_ctl (ws : List Nat) (old s : State) : (State.note ws old s).ctl = s.ctl := by
  obtain ⟨d, p, h⟩ := note_shape ws old s
  rw [h]
@[simp] theorem note_monitors (ws : List Nat) (old s : State) : (State.note ws old s).monitors = s.monitors := by
  obtain ⟨d, p, h⟩ := note_shape ws old s
  rw [h]
@[simp] theorem note_dclink (ws : List Nat) (old s : State) : (State.note ws old s).dclink = s.dclink := by
  obtain ⟨d, p, h⟩ := note_shape ws old s
  rw [h]
@[simp] theorem note_trackers (ws : List Nat) (old s : State) : (State.note ws old s).trackers = s.trackers := by
  obtain ⟨d, p, h⟩ := note_shape ws old s
  rw [h]
@[simp] theorem note_evals (ws : List Nat) (old s : State) : (State.note ws old s).evals = s.evals := by
  obtain ⟨d, p, h⟩ := note_shape ws old s
  rw [h]
@[simp] theorem note_account (ws : List Nat) (old s : State) : (State.note ws old s).account = s.account := by
  obtain ⟨d, p, h⟩ := note_shape ws old s
  rw [h]
@[simp] theorem note_stagers (ws : List Nat) (old s : State) : (State.note ws old s).stagers = s.stagers := by
  obtain ⟨d, p, h⟩ := note_shape ws old s
  rw [h]
@[simp] theorem note_link (ws : List Nat) (old s : State) : (State.note ws old s).link = s.link := by
  obtain ⟨d, p, h⟩ := note_shape ws old s
  rw [h]
@[simp] theorem note_bus_current (ws : List Nat) (old s : State) : (State.note ws old s).bus.current = s.bus.current := by
  obtain ⟨d, p, h⟩ := note_shape ws old s
  rw [h]
@[simp] theorem note_bus_hold (ws : List Nat) (old s : State) : (State.note ws old s).bus.hold = s.bus.hold := by
  obtain ⟨d, p, h⟩ := note_shape ws old s
  rw [h]
@[simp] theorem note_bus_turnOwed (ws : List Nat) (old s : State) : (State.note ws old s).bus.turnOwed = s.bus.turnOwed := by
  obtain ⟨d, p, h⟩ := note_shape ws old s
  rw [h]
@[simp] theorem note_bus_waiting (ws : List Nat) (old s : State) : (State.note ws old s).bus.waiting = s.bus.waiting := by
  obtain ⟨d, p, h⟩ := note_shape ws old s
  rw [h]
@[simp] theorem note_bus_answer (ws : List Nat) (old s : State) : (State.note ws old s).bus.answer = s.bus.answer := by
  obtain ⟨d, p, h⟩ := note_shape ws old s
  rw [h]
@[simp] theorem note_writer_staging (ws : List Nat) (old s : State) : (State.note ws old s).writer.staging = s.writer.staging := by
  obtain ⟨d, p, h⟩ := note_shape ws old s
  rw [h]
@[simp] theorem note_writer_inProgress (ws : List Nat) (old s : State) : (State.note ws old s).writer.inProgress = s.writer.inProgress := by
  obtain ⟨d, p, h⟩ := note_shape ws old s
  rw [h]
@[simp] theorem note_writer_nextSeq (ws : List Nat) (old s : State) : (State.note ws old s).writer.nextSeq = s.writer.nextSeq := by
  obtain ⟨d, p, h⟩ := note_shape ws old s
  rw [h]
@[simp] theorem note_writer_producer (ws : List Nat) (old s : State) : (State.note ws old s).writer.producer = s.writer.producer := by
  obtain ⟨d, p, h⟩ := note_shape ws old s
  rw [h]
@[simp] theorem note_writer_published (ws : List Nat) (old s : State) : (State.note ws old s).writer.published = s.writer.published := by
  obtain ⟨d, p, h⟩ := note_shape ws old s
  rw [h]
@[simp] theorem note_writer_consumer (ws : List Nat) (old s : State) : (State.note ws old s).writer.consumer = s.writer.consumer := by
  obtain ⟨d, p, h⟩ := note_shape ws old s
  rw [h]
@[simp] theorem note_writer_dropped (ws : List Nat) (old s : State) : (State.note ws old s).writer.dropped = s.writer.dropped := by
  obtain ⟨d, p, h⟩ := note_shape ws old s
  rw [h]
@[simp] theorem note_writer_overrun (ws : List Nat) (old s : State) : (State.note ws old s).writer.overrun = s.writer.overrun := by
  obtain ⟨d, p, h⟩ := note_shape ws old s
  rw [h]
@[simp] theorem note_writer_summary (ws : List Nat) (old s : State) : (State.note ws old s).writer.summary = s.writer.summary := by
  obtain ⟨d, p, h⟩ := note_shape ws old s
  rw [h]
@[simp] theorem note_writer_resultDirty (ws : List Nat) (old s : State) : (State.note ws old s).writer.resultDirty = s.writer.resultDirty := by
  obtain ⟨d, p, h⟩ := note_shape ws old s
  rw [h]
@[simp] theorem note_writer_attn (ws : List Nat) (old s : State) : (State.note ws old s).writer.attn = s.writer.attn := by
  obtain ⟨d, p, h⟩ := note_shape ws old s
  rw [h]
@[simp] theorem note_writer_burst (ws : List Nat) (old s : State) : (State.note ws old s).writer.burst = s.writer.burst := by
  obtain ⟨d, p, h⟩ := note_shape ws old s
  rw [h]

/-! ## touchResult -/

@[simp] theorem touchResult_pending (s : State) (f : Fid) : (s.touchResult f).pending = s.pending := rfl
@[simp] theorem touchResult_stamp (s : State) (f : Fid) : (s.touchResult f).stamp = s.stamp := rfl
@[simp] theorem touchResult_init (s : State) (f : Fid) : (s.touchResult f).init = s.init := rfl
@[simp] theorem touchResult_malm (s : State) (f : Fid) : (s.touchResult f).malm = s.malm := rfl
@[simp] theorem touchResult_draws (s : State) (f : Fid) : (s.touchResult f).draws = s.draws := rfl
@[simp] theorem touchResult_loader (s : State) (f : Fid) : (s.touchResult f).loader = s.loader := rfl
@[simp] theorem touchResult_table (s : State) (f : Fid) : (s.touchResult f).table = s.table := rfl
@[simp] theorem touchResult_ctl (s : State) (f : Fid) : (s.touchResult f).ctl = s.ctl := rfl
@[simp] theorem touchResult_monitors (s : State) (f : Fid) : (s.touchResult f).monitors = s.monitors := rfl
@[simp] theorem touchResult_dclink (s : State) (f : Fid) : (s.touchResult f).dclink = s.dclink := rfl
@[simp] theorem touchResult_trackers (s : State) (f : Fid) : (s.touchResult f).trackers = s.trackers := rfl
@[simp] theorem touchResult_evals (s : State) (f : Fid) : (s.touchResult f).evals = s.evals := rfl
@[simp] theorem touchResult_account (s : State) (f : Fid) : (s.touchResult f).account = s.account := rfl
@[simp] theorem touchResult_stagers (s : State) (f : Fid) : (s.touchResult f).stagers = s.stagers := rfl
@[simp] theorem touchResult_link (s : State) (f : Fid) : (s.touchResult f).link = s.link := rfl
@[simp] theorem touchResult_bus_current (s : State) (f : Fid) : (s.touchResult f).bus.current = s.bus.current := rfl
@[simp] theorem touchResult_bus_hold (s : State) (f : Fid) : (s.touchResult f).bus.hold = s.bus.hold := rfl
@[simp] theorem touchResult_bus_turnOwed (s : State) (f : Fid) : (s.touchResult f).bus.turnOwed = s.bus.turnOwed := rfl
@[simp] theorem touchResult_bus_waiting (s : State) (f : Fid) : (s.touchResult f).bus.waiting = s.bus.waiting := rfl
@[simp] theorem touchResult_bus_answer (s : State) (f : Fid) : (s.touchResult f).bus.answer = s.bus.answer := rfl
@[simp] theorem touchResult_writer_staging (s : State) (f : Fid) : (s.touchResult f).writer.staging = s.writer.staging := rfl
@[simp] theorem touchResult_writer_inProgress (s : State) (f : Fid) : (s.touchResult f).writer.inProgress = s.writer.inProgress := rfl
@[simp] theorem touchResult_writer_nextSeq (s : State) (f : Fid) : (s.touchResult f).writer.nextSeq = s.writer.nextSeq := rfl
@[simp] theorem touchResult_writer_producer (s : State) (f : Fid) : (s.touchResult f).writer.producer = s.writer.producer := rfl
@[simp] theorem touchResult_writer_published (s : State) (f : Fid) : (s.touchResult f).writer.published = s.writer.published := rfl
@[simp] theorem touchResult_writer_consumer (s : State) (f : Fid) : (s.touchResult f).writer.consumer = s.writer.consumer := rfl
@[simp] theorem touchResult_writer_dropped (s : State) (f : Fid) : (s.touchResult f).writer.dropped = s.writer.dropped := rfl
@[simp] theorem touchResult_writer_overrun (s : State) (f : Fid) : (s.touchResult f).writer.overrun = s.writer.overrun := rfl
@[simp] theorem touchResult_writer_summary (s : State) (f : Fid) : (s.touchResult f).writer.summary = s.writer.summary := rfl
@[simp] theorem touchResult_writer_resultDirty (s : State) (f : Fid) : (s.touchResult f).writer.resultDirty = s.writer.resultDirty.set f (List.replicate 8 true) := rfl
@[simp] theorem touchResult_writer_attn (s : State) (f : Fid) : (s.touchResult f).writer.attn = s.writer.attn := rfl
@[simp] theorem touchResult_writer_burst (s : State) (f : Fid) : (s.touchResult f).writer.burst = s.writer.burst := rfl

/-! ## putCtl -/

@[simp] theorem putCtl_pending (s : State) (f : Fid) (c : FeederCtl) : (s.putCtl f c).pending = s.pending := by simp [State.putCtl]
@[simp] theorem putCtl_stamp (s : State) (f : Fid) (c : FeederCtl) : (s.putCtl f c).stamp = s.stamp := by simp [State.putCtl]
@[simp] theorem putCtl_init (s : State) (f : Fid) (c : FeederCtl) : (s.putCtl f c).init = s.init := by simp [State.putCtl]
@[simp] theorem putCtl_malm (s : State) (f : Fid) (c : FeederCtl) : (s.putCtl f c).malm = s.malm := by simp [State.putCtl]
@[simp] theorem putCtl_draws (s : State) (f : Fid) (c : FeederCtl) : (s.putCtl f c).draws = s.draws := by simp [State.putCtl]
@[simp] theorem putCtl_loader (s : State) (f : Fid) (c : FeederCtl) : (s.putCtl f c).loader = s.loader := by simp [State.putCtl]
@[simp] theorem putCtl_table (s : State) (f : Fid) (c : FeederCtl) : (s.putCtl f c).table = s.table := by simp [State.putCtl]
@[simp] theorem putCtl_ctl (s : State) (f : Fid) (c : FeederCtl) : (s.putCtl f c).ctl = s.ctl.set f c := by simp [State.putCtl]
@[simp] theorem putCtl_monitors (s : State) (f : Fid) (c : FeederCtl) : (s.putCtl f c).monitors = s.monitors := by simp [State.putCtl]
@[simp] theorem putCtl_dclink (s : State) (f : Fid) (c : FeederCtl) : (s.putCtl f c).dclink = s.dclink := by simp [State.putCtl]
@[simp] theorem putCtl_trackers (s : State) (f : Fid) (c : FeederCtl) : (s.putCtl f c).trackers = s.trackers := by simp [State.putCtl]
@[simp] theorem putCtl_evals (s : State) (f : Fid) (c : FeederCtl) : (s.putCtl f c).evals = s.evals := by simp [State.putCtl]
@[simp] theorem putCtl_account (s : State) (f : Fid) (c : FeederCtl) : (s.putCtl f c).account = s.account := by simp [State.putCtl]
@[simp] theorem putCtl_stagers (s : State) (f : Fid) (c : FeederCtl) : (s.putCtl f c).stagers = s.stagers := by simp [State.putCtl]
@[simp] theorem putCtl_link (s : State) (f : Fid) (c : FeederCtl) : (s.putCtl f c).link = s.link := by simp [State.putCtl]
@[simp] theorem putCtl_bus_current (s : State) (f : Fid) (c : FeederCtl) : (s.putCtl f c).bus.current = s.bus.current := by simp [State.putCtl]
@[simp] theorem putCtl_bus_hold (s : State) (f : Fid) (c : FeederCtl) : (s.putCtl f c).bus.hold = s.bus.hold := by simp [State.putCtl]
@[simp] theorem putCtl_bus_turnOwed (s : State) (f : Fid) (c : FeederCtl) : (s.putCtl f c).bus.turnOwed = s.bus.turnOwed := by simp [State.putCtl]
@[simp] theorem putCtl_bus_waiting (s : State) (f : Fid) (c : FeederCtl) : (s.putCtl f c).bus.waiting = s.bus.waiting := by simp [State.putCtl]
@[simp] theorem putCtl_bus_answer (s : State) (f : Fid) (c : FeederCtl) : (s.putCtl f c).bus.answer = s.bus.answer := by simp [State.putCtl]
@[simp] theorem putCtl_writer_staging (s : State) (f : Fid) (c : FeederCtl) : (s.putCtl f c).writer.staging = s.writer.staging := by simp [State.putCtl]
@[simp] theorem putCtl_writer_inProgress (s : State) (f : Fid) (c : FeederCtl) : (s.putCtl f c).writer.inProgress = s.writer.inProgress := by simp [State.putCtl]
@[simp] theorem putCtl_writer_nextSeq (s : State) (f : Fid) (c : FeederCtl) : (s.putCtl f c).writer.nextSeq = s.writer.nextSeq := by simp [State.putCtl]
@[simp] theorem putCtl_writer_producer (s : State) (f : Fid) (c : FeederCtl) : (s.putCtl f c).writer.producer = s.writer.producer := by simp [State.putCtl]
@[simp] theorem putCtl_writer_published (s : State) (f : Fid) (c : FeederCtl) : (s.putCtl f c).writer.published = s.writer.published := by simp [State.putCtl]
@[simp] theorem putCtl_writer_consumer (s : State) (f : Fid) (c : FeederCtl) : (s.putCtl f c).writer.consumer = s.writer.consumer := by simp [State.putCtl]
@[simp] theorem putCtl_writer_dropped (s : State) (f : Fid) (c : FeederCtl) : (s.putCtl f c).writer.dropped = s.writer.dropped := by simp [State.putCtl]
@[simp] theorem putCtl_writer_overrun (s : State) (f : Fid) (c : FeederCtl) : (s.putCtl f c).writer.overrun = s.writer.overrun := by simp [State.putCtl]
@[simp] theorem putCtl_writer_summary (s : State) (f : Fid) (c : FeederCtl) : (s.putCtl f c).writer.summary = s.writer.summary := by simp [State.putCtl]
@[simp] theorem putCtl_writer_resultDirty (s : State) (f : Fid) (c : FeederCtl) : (s.putCtl f c).writer.resultDirty = s.writer.resultDirty := by simp [State.putCtl]
@[simp] theorem putCtl_writer_attn (s : State) (f : Fid) (c : FeederCtl) : (s.putCtl f c).writer.attn = s.writer.attn := by simp [State.putCtl]
@[simp] theorem putCtl_writer_burst (s : State) (f : Fid) (c : FeederCtl) : (s.putCtl f c).writer.burst = s.writer.burst := by simp [State.putCtl]

/-! ## putTracker -/

@[simp] theorem putTracker_pending (s : State) (f : Fid) (t : Tracker) : (s.putTracker f t).pending = s.pending := by simp [State.putTracker]
@[simp] theorem putTracker_stamp (s : State) (f : Fid) (t : Tracker) : (s.putTracker f t).stamp = s.stamp := by simp [State.putTracker]
@[simp] theorem putTracker_init (s : State) (f : Fid) (t : Tracker) : (s.putTracker f t).init = s.init := by simp [State.putTracker]
@[simp] theorem putTracker_malm (s : State) (f : Fid) (t : Tracker) : (s.putTracker f t).malm = s.malm := by simp [State.putTracker]
@[simp] theorem putTracker_draws (s : State) (f : Fid) (t : Tracker) : (s.putTracker f t).draws = s.draws := by simp [State.putTracker]
@[simp] theorem putTracker_loader (s : State) (f : Fid) (t : Tracker) : (s.putTracker f t).loader = s.loader := by simp [State.putTracker]
@[simp] theorem putTracker_table (s : State) (f : Fid) (t : Tracker) : (s.putTracker f t).table = s.table := by simp [State.putTracker]
@[simp] theorem putTracker_ctl (s : State) (f : Fid) (t : Tracker) : (s.putTracker f t).ctl = s.ctl := by simp [State.putTracker]
@[simp] theorem putTracker_monitors (s : State) (f : Fid) (t : Tracker) : (s.putTracker f t).monitors = s.monitors := by simp [State.putTracker]
@[simp] theorem putTracker_dclink (s : State) (f : Fid) (t : Tracker) : (s.putTracker f t).dclink = s.dclink := by simp [State.putTracker]
@[simp] theorem putTracker_trackers (s : State) (f : Fid) (t : Tracker) : (s.putTracker f t).trackers = s.trackers.set f t := by simp [State.putTracker]
@[simp] theorem putTracker_evals (s : State) (f : Fid) (t : Tracker) : (s.putTracker f t).evals = s.evals := by simp [State.putTracker]
@[simp] theorem putTracker_account (s : State) (f : Fid) (t : Tracker) : (s.putTracker f t).account = s.account := by simp [State.putTracker]
@[simp] theorem putTracker_stagers (s : State) (f : Fid) (t : Tracker) : (s.putTracker f t).stagers = s.stagers := by simp [State.putTracker]
@[simp] theorem putTracker_link (s : State) (f : Fid) (t : Tracker) : (s.putTracker f t).link = s.link := by simp [State.putTracker]
@[simp] theorem putTracker_bus_current (s : State) (f : Fid) (t : Tracker) : (s.putTracker f t).bus.current = s.bus.current := by simp [State.putTracker]
@[simp] theorem putTracker_bus_hold (s : State) (f : Fid) (t : Tracker) : (s.putTracker f t).bus.hold = s.bus.hold := by simp [State.putTracker]
@[simp] theorem putTracker_bus_turnOwed (s : State) (f : Fid) (t : Tracker) : (s.putTracker f t).bus.turnOwed = s.bus.turnOwed := by simp [State.putTracker]
@[simp] theorem putTracker_bus_waiting (s : State) (f : Fid) (t : Tracker) : (s.putTracker f t).bus.waiting = s.bus.waiting := by simp [State.putTracker]
@[simp] theorem putTracker_bus_answer (s : State) (f : Fid) (t : Tracker) : (s.putTracker f t).bus.answer = s.bus.answer := by simp [State.putTracker]
@[simp] theorem putTracker_writer_staging (s : State) (f : Fid) (t : Tracker) : (s.putTracker f t).writer.staging = s.writer.staging := by simp [State.putTracker]
@[simp] theorem putTracker_writer_inProgress (s : State) (f : Fid) (t : Tracker) : (s.putTracker f t).writer.inProgress = s.writer.inProgress := by simp [State.putTracker]
@[simp] theorem putTracker_writer_nextSeq (s : State) (f : Fid) (t : Tracker) : (s.putTracker f t).writer.nextSeq = s.writer.nextSeq := by simp [State.putTracker]
@[simp] theorem putTracker_writer_producer (s : State) (f : Fid) (t : Tracker) : (s.putTracker f t).writer.producer = s.writer.producer := by simp [State.putTracker]
@[simp] theorem putTracker_writer_published (s : State) (f : Fid) (t : Tracker) : (s.putTracker f t).writer.published = s.writer.published := by simp [State.putTracker]
@[simp] theorem putTracker_writer_consumer (s : State) (f : Fid) (t : Tracker) : (s.putTracker f t).writer.consumer = s.writer.consumer := by simp [State.putTracker]
@[simp] theorem putTracker_writer_dropped (s : State) (f : Fid) (t : Tracker) : (s.putTracker f t).writer.dropped = s.writer.dropped := by simp [State.putTracker]
@[simp] theorem putTracker_writer_overrun (s : State) (f : Fid) (t : Tracker) : (s.putTracker f t).writer.overrun = s.writer.overrun := by simp [State.putTracker]
@[simp] theorem putTracker_writer_summary (s : State) (f : Fid) (t : Tracker) : (s.putTracker f t).writer.summary = s.writer.summary := by simp [State.putTracker]
@[simp] theorem putTracker_writer_resultDirty (s : State) (f : Fid) (t : Tracker) : (s.putTracker f t).writer.resultDirty = s.writer.resultDirty := by simp [State.putTracker]
@[simp] theorem putTracker_writer_attn (s : State) (f : Fid) (t : Tracker) : (s.putTracker f t).writer.attn = s.writer.attn := by simp [State.putTracker]
@[simp] theorem putTracker_writer_burst (s : State) (f : Fid) (t : Tracker) : (s.putTracker f t).writer.burst = s.writer.burst := by simp [State.putTracker]

/-! ## putEval -/

@[simp] theorem putEval_pending (s : State) (f : Fid) (e : Evaluator) : (s.putEval f e).pending = s.pending := by simp [State.putEval]
@[simp] theorem putEval_stamp (s : State) (f : Fid) (e : Evaluator) : (s.putEval f e).stamp = s.stamp := by simp [State.putEval]
@[simp] theorem putEval_init (s : State) (f : Fid) (e : Evaluator) : (s.putEval f e).init = s.init := by simp [State.putEval]
@[simp] theorem putEval_malm (s : State) (f : Fid) (e : Evaluator) : (s.putEval f e).malm = s.malm := by simp [State.putEval]
@[simp] theorem putEval_draws (s : State) (f : Fid) (e : Evaluator) : (s.putEval f e).draws = s.draws := by simp [State.putEval]
@[simp] theorem putEval_loader (s : State) (f : Fid) (e : Evaluator) : (s.putEval f e).loader = s.loader := by simp [State.putEval]
@[simp] theorem putEval_table (s : State) (f : Fid) (e : Evaluator) : (s.putEval f e).table = s.table := by simp [State.putEval]
@[simp] theorem putEval_ctl (s : State) (f : Fid) (e : Evaluator) : (s.putEval f e).ctl = s.ctl := by simp [State.putEval]
@[simp] theorem putEval_monitors (s : State) (f : Fid) (e : Evaluator) : (s.putEval f e).monitors = s.monitors := by simp [State.putEval]
@[simp] theorem putEval_dclink (s : State) (f : Fid) (e : Evaluator) : (s.putEval f e).dclink = s.dclink := by simp [State.putEval]
@[simp] theorem putEval_trackers (s : State) (f : Fid) (e : Evaluator) : (s.putEval f e).trackers = s.trackers := by simp [State.putEval]
@[simp] theorem putEval_evals (s : State) (f : Fid) (e : Evaluator) : (s.putEval f e).evals = s.evals.set f e := by simp [State.putEval]
@[simp] theorem putEval_account (s : State) (f : Fid) (e : Evaluator) : (s.putEval f e).account = s.account := by simp [State.putEval]
@[simp] theorem putEval_stagers (s : State) (f : Fid) (e : Evaluator) : (s.putEval f e).stagers = s.stagers := by simp [State.putEval]
@[simp] theorem putEval_link (s : State) (f : Fid) (e : Evaluator) : (s.putEval f e).link = s.link := by simp [State.putEval]
@[simp] theorem putEval_bus_current (s : State) (f : Fid) (e : Evaluator) : (s.putEval f e).bus.current = s.bus.current := by simp [State.putEval]
@[simp] theorem putEval_bus_hold (s : State) (f : Fid) (e : Evaluator) : (s.putEval f e).bus.hold = s.bus.hold := by simp [State.putEval]
@[simp] theorem putEval_bus_turnOwed (s : State) (f : Fid) (e : Evaluator) : (s.putEval f e).bus.turnOwed = s.bus.turnOwed := by simp [State.putEval]
@[simp] theorem putEval_bus_waiting (s : State) (f : Fid) (e : Evaluator) : (s.putEval f e).bus.waiting = s.bus.waiting := by simp [State.putEval]
@[simp] theorem putEval_bus_answer (s : State) (f : Fid) (e : Evaluator) : (s.putEval f e).bus.answer = s.bus.answer := by simp [State.putEval]
@[simp] theorem putEval_writer_staging (s : State) (f : Fid) (e : Evaluator) : (s.putEval f e).writer.staging = s.writer.staging := by simp [State.putEval]
@[simp] theorem putEval_writer_inProgress (s : State) (f : Fid) (e : Evaluator) : (s.putEval f e).writer.inProgress = s.writer.inProgress := by simp [State.putEval]
@[simp] theorem putEval_writer_nextSeq (s : State) (f : Fid) (e : Evaluator) : (s.putEval f e).writer.nextSeq = s.writer.nextSeq := by simp [State.putEval]
@[simp] theorem putEval_writer_producer (s : State) (f : Fid) (e : Evaluator) : (s.putEval f e).writer.producer = s.writer.producer := by simp [State.putEval]
@[simp] theorem putEval_writer_published (s : State) (f : Fid) (e : Evaluator) : (s.putEval f e).writer.published = s.writer.published := by simp [State.putEval]
@[simp] theorem putEval_writer_consumer (s : State) (f : Fid) (e : Evaluator) : (s.putEval f e).writer.consumer = s.writer.consumer := by simp [State.putEval]
@[simp] theorem putEval_writer_dropped (s : State) (f : Fid) (e : Evaluator) : (s.putEval f e).writer.dropped = s.writer.dropped := by simp [State.putEval]
@[simp] theorem putEval_writer_overrun (s : State) (f : Fid) (e : Evaluator) : (s.putEval f e).writer.overrun = s.writer.overrun := by simp [State.putEval]
@[simp] theorem putEval_writer_summary (s : State) (f : Fid) (e : Evaluator) : (s.putEval f e).writer.summary = s.writer.summary := by simp [State.putEval]
@[simp] theorem putEval_writer_resultDirty (s : State) (f : Fid) (e : Evaluator) : (s.putEval f e).writer.resultDirty = s.writer.resultDirty := by simp [State.putEval]
@[simp] theorem putEval_writer_attn (s : State) (f : Fid) (e : Evaluator) : (s.putEval f e).writer.attn = s.writer.attn := by simp [State.putEval]
@[simp] theorem putEval_writer_burst (s : State) (f : Fid) (e : Evaluator) : (s.putEval f e).writer.burst = s.writer.burst := by simp [State.putEval]

/-! ## putReserved -/

@[simp] theorem putReserved_pending (s : State) (f : Fid) (r : Nat) : (s.putReserved f r).pending = s.pending := by simp [State.putReserved]
@[simp] theorem putReserved_stamp (s : State) (f : Fid) (r : Nat) : (s.putReserved f r).stamp = s.stamp := by simp [State.putReserved]
@[simp] theorem putReserved_init (s : State) (f : Fid) (r : Nat) : (s.putReserved f r).init = s.init := by simp [State.putReserved]
@[simp] theorem putReserved_malm (s : State) (f : Fid) (r : Nat) : (s.putReserved f r).malm = s.malm := by simp [State.putReserved]
@[simp] theorem putReserved_draws (s : State) (f : Fid) (r : Nat) : (s.putReserved f r).draws = s.draws := by simp [State.putReserved]
@[simp] theorem putReserved_loader (s : State) (f : Fid) (r : Nat) : (s.putReserved f r).loader = s.loader := by simp [State.putReserved]
@[simp] theorem putReserved_table (s : State) (f : Fid) (r : Nat) : (s.putReserved f r).table = s.table := by simp [State.putReserved]
@[simp] theorem putReserved_ctl (s : State) (f : Fid) (r : Nat) : (s.putReserved f r).ctl = s.ctl := by simp [State.putReserved]
@[simp] theorem putReserved_monitors (s : State) (f : Fid) (r : Nat) : (s.putReserved f r).monitors = s.monitors := by simp [State.putReserved]
@[simp] theorem putReserved_dclink (s : State) (f : Fid) (r : Nat) : (s.putReserved f r).dclink = s.dclink := by simp [State.putReserved]
@[simp] theorem putReserved_trackers (s : State) (f : Fid) (r : Nat) : (s.putReserved f r).trackers = s.trackers := by simp [State.putReserved]
@[simp] theorem putReserved_evals (s : State) (f : Fid) (r : Nat) : (s.putReserved f r).evals = s.evals := by simp [State.putReserved]
@[simp] theorem putReserved_account (s : State) (f : Fid) (r : Nat) : (s.putReserved f r).account = { s.account with reserved := s.account.reserved.set f r } := by simp [State.putReserved]
@[simp] theorem putReserved_stagers (s : State) (f : Fid) (r : Nat) : (s.putReserved f r).stagers = s.stagers := by simp [State.putReserved]
@[simp] theorem putReserved_link (s : State) (f : Fid) (r : Nat) : (s.putReserved f r).link = s.link := by simp [State.putReserved]
@[simp] theorem putReserved_bus_current (s : State) (f : Fid) (r : Nat) : (s.putReserved f r).bus.current = s.bus.current := by simp [State.putReserved]
@[simp] theorem putReserved_bus_hold (s : State) (f : Fid) (r : Nat) : (s.putReserved f r).bus.hold = s.bus.hold := by simp [State.putReserved]
@[simp] theorem putReserved_bus_turnOwed (s : State) (f : Fid) (r : Nat) : (s.putReserved f r).bus.turnOwed = s.bus.turnOwed := by simp [State.putReserved]
@[simp] theorem putReserved_bus_waiting (s : State) (f : Fid) (r : Nat) : (s.putReserved f r).bus.waiting = s.bus.waiting := by simp [State.putReserved]
@[simp] theorem putReserved_bus_answer (s : State) (f : Fid) (r : Nat) : (s.putReserved f r).bus.answer = s.bus.answer := by simp [State.putReserved]
@[simp] theorem putReserved_writer_staging (s : State) (f : Fid) (r : Nat) : (s.putReserved f r).writer.staging = s.writer.staging := by simp [State.putReserved]
@[simp] theorem putReserved_writer_inProgress (s : State) (f : Fid) (r : Nat) : (s.putReserved f r).writer.inProgress = s.writer.inProgress := by simp [State.putReserved]
@[simp] theorem putReserved_writer_nextSeq (s : State) (f : Fid) (r : Nat) : (s.putReserved f r).writer.nextSeq = s.writer.nextSeq := by simp [State.putReserved]
@[simp] theorem putReserved_writer_producer (s : State) (f : Fid) (r : Nat) : (s.putReserved f r).writer.producer = s.writer.producer := by simp [State.putReserved]
@[simp] theorem putReserved_writer_published (s : State) (f : Fid) (r : Nat) : (s.putReserved f r).writer.published = s.writer.published := by simp [State.putReserved]
@[simp] theorem putReserved_writer_consumer (s : State) (f : Fid) (r : Nat) : (s.putReserved f r).writer.consumer = s.writer.consumer := by simp [State.putReserved]
@[simp] theorem putReserved_writer_dropped (s : State) (f : Fid) (r : Nat) : (s.putReserved f r).writer.dropped = s.writer.dropped := by simp [State.putReserved]
@[simp] theorem putReserved_writer_overrun (s : State) (f : Fid) (r : Nat) : (s.putReserved f r).writer.overrun = s.writer.overrun := by simp [State.putReserved]
@[simp] theorem putReserved_writer_summary (s : State) (f : Fid) (r : Nat) : (s.putReserved f r).writer.summary = s.writer.summary := by simp [State.putReserved]
@[simp] theorem putReserved_writer_resultDirty (s : State) (f : Fid) (r : Nat) : (s.putReserved f r).writer.resultDirty = s.writer.resultDirty := by simp [State.putReserved]
@[simp] theorem putReserved_writer_attn (s : State) (f : Fid) (r : Nat) : (s.putReserved f r).writer.attn = s.writer.attn := by simp [State.putReserved]
@[simp] theorem putReserved_writer_burst (s : State) (f : Fid) (r : Nat) : (s.putReserved f r).writer.burst = s.writer.burst := by simp [State.putReserved]

/-! ## putUsable -/

@[simp] theorem putUsable_pending (s : State) (u : Nat) : (s.putUsable u).pending = s.pending := by simp [State.putUsable]
@[simp] theorem putUsable_stamp (s : State) (u : Nat) : (s.putUsable u).stamp = s.stamp := by simp [State.putUsable]
@[simp] theorem putUsable_init (s : State) (u : Nat) : (s.putUsable u).init = s.init := by simp [State.putUsable]
@[simp] theorem putUsable_malm (s : State) (u : Nat) : (s.putUsable u).malm = s.malm := by simp [State.putUsable]
@[simp] theorem putUsable_draws (s : State) (u : Nat) : (s.putUsable u).draws = s.draws := by simp [State.putUsable]
@[simp] theorem putUsable_loader (s : State) (u : Nat) : (s.putUsable u).loader = s.loader := by simp [State.putUsable]
@[simp] theorem putUsable_table (s : State) (u : Nat) : (s.putUsable u).table = s.table := by simp [State.putUsable]
@[simp] theorem putUsable_ctl (s : State) (u : Nat) : (s.putUsable u).ctl = s.ctl := by simp [State.putUsable]
@[simp] theorem putUsable_monitors (s : State) (u : Nat) : (s.putUsable u).monitors = s.monitors := by simp [State.putUsable]
@[simp] theorem putUsable_dclink (s : State) (u : Nat) : (s.putUsable u).dclink = s.dclink := by simp [State.putUsable]
@[simp] theorem putUsable_trackers (s : State) (u : Nat) : (s.putUsable u).trackers = s.trackers := by simp [State.putUsable]
@[simp] theorem putUsable_evals (s : State) (u : Nat) : (s.putUsable u).evals = s.evals := by simp [State.putUsable]
@[simp] theorem putUsable_account (s : State) (u : Nat) : (s.putUsable u).account = { s.account with usable := u } := by simp [State.putUsable]
@[simp] theorem putUsable_stagers (s : State) (u : Nat) : (s.putUsable u).stagers = s.stagers := by simp [State.putUsable]
@[simp] theorem putUsable_link (s : State) (u : Nat) : (s.putUsable u).link = s.link := by simp [State.putUsable]
@[simp] theorem putUsable_bus_current (s : State) (u : Nat) : (s.putUsable u).bus.current = s.bus.current := by simp [State.putUsable]
@[simp] theorem putUsable_bus_hold (s : State) (u : Nat) : (s.putUsable u).bus.hold = s.bus.hold := by simp [State.putUsable]
@[simp] theorem putUsable_bus_turnOwed (s : State) (u : Nat) : (s.putUsable u).bus.turnOwed = s.bus.turnOwed := by simp [State.putUsable]
@[simp] theorem putUsable_bus_waiting (s : State) (u : Nat) : (s.putUsable u).bus.waiting = s.bus.waiting := by simp [State.putUsable]
@[simp] theorem putUsable_bus_answer (s : State) (u : Nat) : (s.putUsable u).bus.answer = s.bus.answer := by simp [State.putUsable]
@[simp] theorem putUsable_writer_staging (s : State) (u : Nat) : (s.putUsable u).writer.staging = s.writer.staging := by simp [State.putUsable]
@[simp] theorem putUsable_writer_inProgress (s : State) (u : Nat) : (s.putUsable u).writer.inProgress = s.writer.inProgress := by simp [State.putUsable]
@[simp] theorem putUsable_writer_nextSeq (s : State) (u : Nat) : (s.putUsable u).writer.nextSeq = s.writer.nextSeq := by simp [State.putUsable]
@[simp] theorem putUsable_writer_producer (s : State) (u : Nat) : (s.putUsable u).writer.producer = s.writer.producer := by simp [State.putUsable]
@[simp] theorem putUsable_writer_published (s : State) (u : Nat) : (s.putUsable u).writer.published = s.writer.published := by simp [State.putUsable]
@[simp] theorem putUsable_writer_consumer (s : State) (u : Nat) : (s.putUsable u).writer.consumer = s.writer.consumer := by simp [State.putUsable]
@[simp] theorem putUsable_writer_dropped (s : State) (u : Nat) : (s.putUsable u).writer.dropped = s.writer.dropped := by simp [State.putUsable]
@[simp] theorem putUsable_writer_overrun (s : State) (u : Nat) : (s.putUsable u).writer.overrun = s.writer.overrun := by simp [State.putUsable]
@[simp] theorem putUsable_writer_summary (s : State) (u : Nat) : (s.putUsable u).writer.summary = s.writer.summary := by simp [State.putUsable]
@[simp] theorem putUsable_writer_resultDirty (s : State) (u : Nat) : (s.putUsable u).writer.resultDirty = s.writer.resultDirty := by simp [State.putUsable]
@[simp] theorem putUsable_writer_attn (s : State) (u : Nat) : (s.putUsable u).writer.attn = s.writer.attn := by simp [State.putUsable]
@[simp] theorem putUsable_writer_burst (s : State) (u : Nat) : (s.putUsable u).writer.burst = s.writer.burst := by simp [State.putUsable]

/-! ## putLoader -/

@[simp] theorem putLoader_pending (s : State) (l : Loader) : (s.putLoader l).pending = s.pending := by simp [State.putLoader]
@[simp] theorem putLoader_stamp (s : State) (l : Loader) : (s.putLoader l).stamp = s.stamp := by simp [State.putLoader]
@[simp] theorem putLoader_init (s : State) (l : Loader) : (s.putLoader l).init = s.init := by simp [State.putLoader]
@[simp] theorem putLoader_malm (s : State) (l : Loader) : (s.putLoader l).malm = s.malm := by simp [State.putLoader]
@[simp] theorem putLoader_draws (s : State) (l : Loader) : (s.putLoader l).draws = s.draws := by simp [State.putLoader]
@[simp] theorem putLoader_loader (s : State) (l : Loader) : (s.putLoader l).loader = l := by simp [State.putLoader]
@[simp] theorem putLoader_table (s : State) (l : Loader) : (s.putLoader l).table = s.table := by simp [State.putLoader]
@[simp] theorem putLoader_ctl (s : State) (l : Loader) : (s.putLoader l).ctl = s.ctl := by simp [State.putLoader]
@[simp] theorem putLoader_monitors (s : State) (l : Loader) : (s.putLoader l).monitors = s.monitors := by simp [State.putLoader]
@[simp] theorem putLoader_dclink (s : State) (l : Loader) : (s.putLoader l).dclink = s.dclink := by simp [State.putLoader]
@[simp] theorem putLoader_trackers (s : State) (l : Loader) : (s.putLoader l).trackers = s.trackers := by simp [State.putLoader]
@[simp] theorem putLoader_evals (s : State) (l : Loader) : (s.putLoader l).evals = s.evals := by simp [State.putLoader]
@[simp] theorem putLoader_account (s : State) (l : Loader) : (s.putLoader l).account = s.account := by simp [State.putLoader]
@[simp] theorem putLoader_stagers (s : State) (l : Loader) : (s.putLoader l).stagers = s.stagers := by simp [State.putLoader]
@[simp] theorem putLoader_link (s : State) (l : Loader) : (s.putLoader l).link = s.link := by simp [State.putLoader]
@[simp] theorem putLoader_bus_current (s : State) (l : Loader) : (s.putLoader l).bus.current = s.bus.current := by simp [State.putLoader]
@[simp] theorem putLoader_bus_hold (s : State) (l : Loader) : (s.putLoader l).bus.hold = s.bus.hold := by simp [State.putLoader]
@[simp] theorem putLoader_bus_turnOwed (s : State) (l : Loader) : (s.putLoader l).bus.turnOwed = s.bus.turnOwed := by simp [State.putLoader]
@[simp] theorem putLoader_bus_waiting (s : State) (l : Loader) : (s.putLoader l).bus.waiting = s.bus.waiting := by simp [State.putLoader]
@[simp] theorem putLoader_bus_answer (s : State) (l : Loader) : (s.putLoader l).bus.answer = s.bus.answer := by simp [State.putLoader]
@[simp] theorem putLoader_writer_staging (s : State) (l : Loader) : (s.putLoader l).writer.staging = s.writer.staging := by simp [State.putLoader]
@[simp] theorem putLoader_writer_inProgress (s : State) (l : Loader) : (s.putLoader l).writer.inProgress = s.writer.inProgress := by simp [State.putLoader]
@[simp] theorem putLoader_writer_nextSeq (s : State) (l : Loader) : (s.putLoader l).writer.nextSeq = s.writer.nextSeq := by simp [State.putLoader]
@[simp] theorem putLoader_writer_producer (s : State) (l : Loader) : (s.putLoader l).writer.producer = s.writer.producer := by simp [State.putLoader]
@[simp] theorem putLoader_writer_published (s : State) (l : Loader) : (s.putLoader l).writer.published = s.writer.published := by simp [State.putLoader]
@[simp] theorem putLoader_writer_consumer (s : State) (l : Loader) : (s.putLoader l).writer.consumer = s.writer.consumer := by simp [State.putLoader]
@[simp] theorem putLoader_writer_dropped (s : State) (l : Loader) : (s.putLoader l).writer.dropped = s.writer.dropped := by simp [State.putLoader]
@[simp] theorem putLoader_writer_overrun (s : State) (l : Loader) : (s.putLoader l).writer.overrun = s.writer.overrun := by simp [State.putLoader]
@[simp] theorem putLoader_writer_summary (s : State) (l : Loader) : (s.putLoader l).writer.summary = s.writer.summary := by simp [State.putLoader]
@[simp] theorem putLoader_writer_resultDirty (s : State) (l : Loader) : (s.putLoader l).writer.resultDirty = s.writer.resultDirty := by simp [State.putLoader]
@[simp] theorem putLoader_writer_attn (s : State) (l : Loader) : (s.putLoader l).writer.attn = s.writer.attn := by simp [State.putLoader]
@[simp] theorem putLoader_writer_burst (s : State) (l : Loader) : (s.putLoader l).writer.burst = s.writer.burst := by simp [State.putLoader]

/-! ## putMonitor, putStager -/

@[simp] theorem putMonitor_pending (s : State) (f : Fid) (m : Monitor) : (s.putMonitor f m).pending = s.pending := rfl
@[simp] theorem putMonitor_stamp (s : State) (f : Fid) (m : Monitor) : (s.putMonitor f m).stamp = s.stamp := rfl
@[simp] theorem putMonitor_init (s : State) (f : Fid) (m : Monitor) : (s.putMonitor f m).init = s.init := rfl
@[simp] theorem putMonitor_malm (s : State) (f : Fid) (m : Monitor) : (s.putMonitor f m).malm = s.malm := rfl
@[simp] theorem putMonitor_draws (s : State) (f : Fid) (m : Monitor) : (s.putMonitor f m).draws = s.draws := rfl
@[simp] theorem putMonitor_loader (s : State) (f : Fid) (m : Monitor) : (s.putMonitor f m).loader = s.loader := rfl
@[simp] theorem putMonitor_table (s : State) (f : Fid) (m : Monitor) : (s.putMonitor f m).table = s.table := rfl
@[simp] theorem putMonitor_ctl (s : State) (f : Fid) (m : Monitor) : (s.putMonitor f m).ctl = s.ctl := rfl
@[simp] theorem putMonitor_monitors (s : State) (f : Fid) (m : Monitor) : (s.putMonitor f m).monitors = s.monitors.set f m := rfl
@[simp] theorem putMonitor_dclink (s : State) (f : Fid) (m : Monitor) : (s.putMonitor f m).dclink = s.dclink := rfl
@[simp] theorem putMonitor_trackers (s : State) (f : Fid) (m : Monitor) : (s.putMonitor f m).trackers = s.trackers := rfl
@[simp] theorem putMonitor_evals (s : State) (f : Fid) (m : Monitor) : (s.putMonitor f m).evals = s.evals := rfl
@[simp] theorem putMonitor_account (s : State) (f : Fid) (m : Monitor) : (s.putMonitor f m).account = s.account := rfl
@[simp] theorem putMonitor_stagers (s : State) (f : Fid) (m : Monitor) : (s.putMonitor f m).stagers = s.stagers := rfl
@[simp] theorem putMonitor_link (s : State) (f : Fid) (m : Monitor) : (s.putMonitor f m).link = s.link := rfl
@[simp] theorem putMonitor_bus_current (s : State) (f : Fid) (m : Monitor) : (s.putMonitor f m).bus.current = s.bus.current := rfl
@[simp] theorem putMonitor_bus_hold (s : State) (f : Fid) (m : Monitor) : (s.putMonitor f m).bus.hold = s.bus.hold := rfl
@[simp] theorem putMonitor_bus_turnOwed (s : State) (f : Fid) (m : Monitor) : (s.putMonitor f m).bus.turnOwed = s.bus.turnOwed := rfl
@[simp] theorem putMonitor_bus_waiting (s : State) (f : Fid) (m : Monitor) : (s.putMonitor f m).bus.waiting = s.bus.waiting := rfl
@[simp] theorem putMonitor_bus_answer (s : State) (f : Fid) (m : Monitor) : (s.putMonitor f m).bus.answer = s.bus.answer := rfl
@[simp] theorem putMonitor_writer_staging (s : State) (f : Fid) (m : Monitor) : (s.putMonitor f m).writer.staging = s.writer.staging := rfl
@[simp] theorem putMonitor_writer_inProgress (s : State) (f : Fid) (m : Monitor) : (s.putMonitor f m).writer.inProgress = s.writer.inProgress := rfl
@[simp] theorem putMonitor_writer_nextSeq (s : State) (f : Fid) (m : Monitor) : (s.putMonitor f m).writer.nextSeq = s.writer.nextSeq := rfl
@[simp] theorem putMonitor_writer_producer (s : State) (f : Fid) (m : Monitor) : (s.putMonitor f m).writer.producer = s.writer.producer := rfl
@[simp] theorem putMonitor_writer_published (s : State) (f : Fid) (m : Monitor) : (s.putMonitor f m).writer.published = s.writer.published := rfl
@[simp] theorem putMonitor_writer_consumer (s : State) (f : Fid) (m : Monitor) : (s.putMonitor f m).writer.consumer = s.writer.consumer := rfl
@[simp] theorem putMonitor_writer_dropped (s : State) (f : Fid) (m : Monitor) : (s.putMonitor f m).writer.dropped = s.writer.dropped := rfl
@[simp] theorem putMonitor_writer_overrun (s : State) (f : Fid) (m : Monitor) : (s.putMonitor f m).writer.overrun = s.writer.overrun := rfl
@[simp] theorem putMonitor_writer_summary (s : State) (f : Fid) (m : Monitor) : (s.putMonitor f m).writer.summary = s.writer.summary := rfl
@[simp] theorem putMonitor_writer_resultDirty (s : State) (f : Fid) (m : Monitor) : (s.putMonitor f m).writer.resultDirty = s.writer.resultDirty := rfl
@[simp] theorem putMonitor_writer_attn (s : State) (f : Fid) (m : Monitor) : (s.putMonitor f m).writer.attn = s.writer.attn := rfl
@[simp] theorem putMonitor_writer_burst (s : State) (f : Fid) (m : Monitor) : (s.putMonitor f m).writer.burst = s.writer.burst := rfl
@[simp] theorem putStager_pending (s : State) (f : Fid) (g : Stager) : (s.putStager f g).pending = s.pending := rfl
@[simp] theorem putStager_stamp (s : State) (f : Fid) (g : Stager) : (s.putStager f g).stamp = s.stamp := rfl
@[simp] theorem putStager_init (s : State) (f : Fid) (g : Stager) : (s.putStager f g).init = s.init := rfl
@[simp] theorem putStager_malm (s : State) (f : Fid) (g : Stager) : (s.putStager f g).malm = s.malm := rfl
@[simp] theorem putStager_draws (s : State) (f : Fid) (g : Stager) : (s.putStager f g).draws = s.draws := rfl
@[simp] theorem putStager_loader (s : State) (f : Fid) (g : Stager) : (s.putStager f g).loader = s.loader := rfl
@[simp] theorem putStager_table (s : State) (f : Fid) (g : Stager) : (s.putStager f g).table = s.table := rfl
@[simp] theorem putStager_ctl (s : State) (f : Fid) (g : Stager) : (s.putStager f g).ctl = s.ctl := rfl
@[simp] theorem putStager_monitors (s : State) (f : Fid) (g : Stager) : (s.putStager f g).monitors = s.monitors := rfl
@[simp] theorem putStager_dclink (s : State) (f : Fid) (g : Stager) : (s.putStager f g).dclink = s.dclink := rfl
@[simp] theorem putStager_trackers (s : State) (f : Fid) (g : Stager) : (s.putStager f g).trackers = s.trackers := rfl
@[simp] theorem putStager_evals (s : State) (f : Fid) (g : Stager) : (s.putStager f g).evals = s.evals := rfl
@[simp] theorem putStager_account (s : State) (f : Fid) (g : Stager) : (s.putStager f g).account = s.account := rfl
@[simp] theorem putStager_stagers (s : State) (f : Fid) (g : Stager) : (s.putStager f g).stagers = s.stagers.set f g := rfl
@[simp] theorem putStager_link (s : State) (f : Fid) (g : Stager) : (s.putStager f g).link = s.link := rfl
@[simp] theorem putStager_bus_current (s : State) (f : Fid) (g : Stager) : (s.putStager f g).bus.current = s.bus.current := rfl
@[simp] theorem putStager_bus_hold (s : State) (f : Fid) (g : Stager) : (s.putStager f g).bus.hold = s.bus.hold := rfl
@[simp] theorem putStager_bus_turnOwed (s : State) (f : Fid) (g : Stager) : (s.putStager f g).bus.turnOwed = s.bus.turnOwed := rfl
@[simp] theorem putStager_bus_waiting (s : State) (f : Fid) (g : Stager) : (s.putStager f g).bus.waiting = s.bus.waiting := rfl
@[simp] theorem putStager_bus_answer (s : State) (f : Fid) (g : Stager) : (s.putStager f g).bus.answer = s.bus.answer := rfl
@[simp] theorem putStager_writer_staging (s : State) (f : Fid) (g : Stager) : (s.putStager f g).writer.staging = s.writer.staging := rfl
@[simp] theorem putStager_writer_inProgress (s : State) (f : Fid) (g : Stager) : (s.putStager f g).writer.inProgress = s.writer.inProgress := rfl
@[simp] theorem putStager_writer_nextSeq (s : State) (f : Fid) (g : Stager) : (s.putStager f g).writer.nextSeq = s.writer.nextSeq := rfl
@[simp] theorem putStager_writer_producer (s : State) (f : Fid) (g : Stager) : (s.putStager f g).writer.producer = s.writer.producer := rfl
@[simp] theorem putStager_writer_published (s : State) (f : Fid) (g : Stager) : (s.putStager f g).writer.published = s.writer.published := rfl
@[simp] theorem putStager_writer_consumer (s : State) (f : Fid) (g : Stager) : (s.putStager f g).writer.consumer = s.writer.consumer := rfl
@[simp] theorem putStager_writer_dropped (s : State) (f : Fid) (g : Stager) : (s.putStager f g).writer.dropped = s.writer.dropped := rfl
@[simp] theorem putStager_writer_overrun (s : State) (f : Fid) (g : Stager) : (s.putStager f g).writer.overrun = s.writer.overrun := rfl
@[simp] theorem putStager_writer_summary (s : State) (f : Fid) (g : Stager) : (s.putStager f g).writer.summary = s.writer.summary := rfl
@[simp] theorem putStager_writer_resultDirty (s : State) (f : Fid) (g : Stager) : (s.putStager f g).writer.resultDirty = s.writer.resultDirty := rfl
@[simp] theorem putStager_writer_attn (s : State) (f : Fid) (g : Stager) : (s.putStager f g).writer.attn = s.writer.attn := rfl
@[simp] theorem putStager_writer_burst (s : State) (f : Fid) (g : Stager) : (s.putStager f g).writer.burst = s.writer.burst := rfl

/-! ## judgeAttn -/

@[simp] theorem judgeAttn_pending (s : State) : (s.judgeAttn).pending = s.pending := rfl
@[simp] theorem judgeAttn_stamp (s : State) : (s.judgeAttn).stamp = s.stamp := rfl
@[simp] theorem judgeAttn_init (s : State) : (s.judgeAttn).init = s.init := rfl
@[simp] theorem judgeAttn_malm (s : State) : (s.judgeAttn).malm = s.malm := rfl
@[simp] theorem judgeAttn_draws (s : State) : (s.judgeAttn).draws = s.draws := rfl
@[simp] theorem judgeAttn_loader (s : State) : (s.judgeAttn).loader = s.loader := rfl
@[simp] theorem judgeAttn_table (s : State) : (s.judgeAttn).table = s.table := rfl
@[simp] theorem judgeAttn_ctl (s : State) : (s.judgeAttn).ctl = s.ctl := rfl
@[simp] theorem judgeAttn_monitors (s : State) : (s.judgeAttn).monitors = s.monitors := rfl
@[simp] theorem judgeAttn_dclink (s : State) : (s.judgeAttn).dclink = s.dclink := rfl
@[simp] theorem judgeAttn_trackers (s : State) : (s.judgeAttn).trackers = s.trackers := rfl
@[simp] theorem judgeAttn_evals (s : State) : (s.judgeAttn).evals = s.evals := rfl
@[simp] theorem judgeAttn_account (s : State) : (s.judgeAttn).account = s.account := rfl
@[simp] theorem judgeAttn_stagers (s : State) : (s.judgeAttn).stagers = s.stagers := rfl
@[simp] theorem judgeAttn_link (s : State) : (s.judgeAttn).link = s.link := rfl
@[simp] theorem judgeAttn_bus_current (s : State) : (s.judgeAttn).bus.current = s.bus.current := rfl
@[simp] theorem judgeAttn_bus_hold (s : State) : (s.judgeAttn).bus.hold = s.bus.hold := rfl
@[simp] theorem judgeAttn_bus_turnOwed (s : State) : (s.judgeAttn).bus.turnOwed = s.bus.turnOwed := rfl
@[simp] theorem judgeAttn_bus_waiting (s : State) : (s.judgeAttn).bus.waiting = s.bus.waiting := rfl
@[simp] theorem judgeAttn_bus_answer (s : State) : (s.judgeAttn).bus.answer = s.bus.answer := rfl
@[simp] theorem judgeAttn_writer_staging (s : State) : (s.judgeAttn).writer.staging = s.writer.staging := rfl
@[simp] theorem judgeAttn_writer_inProgress (s : State) : (s.judgeAttn).writer.inProgress = s.writer.inProgress := rfl
@[simp] theorem judgeAttn_writer_nextSeq (s : State) : (s.judgeAttn).writer.nextSeq = s.writer.nextSeq := rfl
@[simp] theorem judgeAttn_writer_producer (s : State) : (s.judgeAttn).writer.producer = s.writer.producer := rfl
@[simp] theorem judgeAttn_writer_published (s : State) : (s.judgeAttn).writer.published = s.writer.published := rfl
@[simp] theorem judgeAttn_writer_consumer (s : State) : (s.judgeAttn).writer.consumer = s.writer.consumer := rfl
@[simp] theorem judgeAttn_writer_dropped (s : State) : (s.judgeAttn).writer.dropped = s.writer.dropped := rfl
@[simp] theorem judgeAttn_writer_overrun (s : State) : (s.judgeAttn).writer.overrun = s.writer.overrun := rfl
@[simp] theorem judgeAttn_writer_summary (s : State) : (s.judgeAttn).writer.summary = s.writer.summary := rfl
@[simp] theorem judgeAttn_writer_resultDirty (s : State) : (s.judgeAttn).writer.resultDirty = s.writer.resultDirty := rfl
@[simp] theorem judgeAttn_writer_attn (s : State) : (s.judgeAttn).writer.attn = s.attnWanted := rfl
@[simp] theorem judgeAttn_writer_burst (s : State) : (s.judgeAttn).writer.burst = s.writer.burst := rfl

/-! ## putSummary -/

@[simp] theorem putSummary_pending (s : State) (c : BitVec 8) : (s.putSummary c).pending = s.pending := by simp [State.putSummary]
@[simp] theorem putSummary_stamp (s : State) (c : BitVec 8) : (s.putSummary c).stamp = s.stamp := by simp [State.putSummary]
@[simp] theorem putSummary_init (s : State) (c : BitVec 8) : (s.putSummary c).init = s.init := by simp [State.putSummary]
@[simp] theorem putSummary_malm (s : State) (c : BitVec 8) : (s.putSummary c).malm = s.malm := by simp [State.putSummary]
@[simp] theorem putSummary_draws (s : State) (c : BitVec 8) : (s.putSummary c).draws = s.draws := by simp [State.putSummary]
@[simp] theorem putSummary_loader (s : State) (c : BitVec 8) : (s.putSummary c).loader = s.loader := by simp [State.putSummary]
@[simp] theorem putSummary_table (s : State) (c : BitVec 8) : (s.putSummary c).table = s.table := by simp [State.putSummary]
@[simp] theorem putSummary_ctl (s : State) (c : BitVec 8) : (s.putSummary c).ctl = s.ctl := by simp [State.putSummary]
@[simp] theorem putSummary_monitors (s : State) (c : BitVec 8) : (s.putSummary c).monitors = s.monitors := by simp [State.putSummary]
@[simp] theorem putSummary_dclink (s : State) (c : BitVec 8) : (s.putSummary c).dclink = s.dclink := by simp [State.putSummary]
@[simp] theorem putSummary_trackers (s : State) (c : BitVec 8) : (s.putSummary c).trackers = s.trackers := by simp [State.putSummary]
@[simp] theorem putSummary_evals (s : State) (c : BitVec 8) : (s.putSummary c).evals = s.evals := by simp [State.putSummary]
@[simp] theorem putSummary_account (s : State) (c : BitVec 8) : (s.putSummary c).account = s.account := by simp [State.putSummary]
@[simp] theorem putSummary_stagers (s : State) (c : BitVec 8) : (s.putSummary c).stagers = s.stagers := by simp [State.putSummary]
@[simp] theorem putSummary_link (s : State) (c : BitVec 8) : (s.putSummary c).link = s.link := by simp [State.putSummary]
@[simp] theorem putSummary_bus_current (s : State) (c : BitVec 8) : (s.putSummary c).bus.current = s.bus.current := by simp [State.putSummary]
@[simp] theorem putSummary_bus_hold (s : State) (c : BitVec 8) : (s.putSummary c).bus.hold = s.bus.hold := by simp [State.putSummary]
@[simp] theorem putSummary_bus_turnOwed (s : State) (c : BitVec 8) : (s.putSummary c).bus.turnOwed = s.bus.turnOwed := by simp [State.putSummary]
@[simp] theorem putSummary_bus_waiting (s : State) (c : BitVec 8) : (s.putSummary c).bus.waiting = s.bus.waiting := by simp [State.putSummary]
@[simp] theorem putSummary_bus_answer (s : State) (c : BitVec 8) : (s.putSummary c).bus.answer = s.bus.answer := by simp [State.putSummary]
@[simp] theorem putSummary_writer_staging (s : State) (c : BitVec 8) : (s.putSummary c).writer.staging = s.writer.staging := by simp [State.putSummary]
@[simp] theorem putSummary_writer_inProgress (s : State) (c : BitVec 8) : (s.putSummary c).writer.inProgress = s.writer.inProgress := by simp [State.putSummary]
@[simp] theorem putSummary_writer_nextSeq (s : State) (c : BitVec 8) : (s.putSummary c).writer.nextSeq = s.writer.nextSeq := by simp [State.putSummary]
@[simp] theorem putSummary_writer_producer (s : State) (c : BitVec 8) : (s.putSummary c).writer.producer = s.writer.producer := by simp [State.putSummary]
@[simp] theorem putSummary_writer_published (s : State) (c : BitVec 8) : (s.putSummary c).writer.published = s.writer.published := by simp [State.putSummary]
@[simp] theorem putSummary_writer_consumer (s : State) (c : BitVec 8) : (s.putSummary c).writer.consumer = s.writer.consumer := by simp [State.putSummary]
@[simp] theorem putSummary_writer_dropped (s : State) (c : BitVec 8) : (s.putSummary c).writer.dropped = s.writer.dropped := by simp [State.putSummary]
@[simp] theorem putSummary_writer_overrun (s : State) (c : BitVec 8) : (s.putSummary c).writer.overrun = s.writer.overrun := by simp [State.putSummary]
@[simp] theorem putSummary_writer_summary (s : State) (c : BitVec 8) : (s.putSummary c).writer.summary = c := by simp [State.putSummary]
@[simp] theorem putSummary_writer_resultDirty (s : State) (c : BitVec 8) : (s.putSummary c).writer.resultDirty = s.writer.resultDirty := by simp [State.putSummary]
@[simp] theorem putSummary_writer_burst (s : State) (c : BitVec 8) : (s.putSummary c).writer.burst = s.writer.burst := by simp [State.putSummary]

/-! ## raise -/

@[simp] theorem raise_pending (s : State) (c : BitVec 8) : (s.raise c).pending = s.pending := by simp [State.raise]
@[simp] theorem raise_stamp (s : State) (c : BitVec 8) : (s.raise c).stamp = s.stamp := by simp [State.raise]
@[simp] theorem raise_init (s : State) (c : BitVec 8) : (s.raise c).init = s.init := by simp [State.raise]
@[simp] theorem raise_malm (s : State) (c : BitVec 8) : (s.raise c).malm = s.malm := by simp [State.raise]
@[simp] theorem raise_draws (s : State) (c : BitVec 8) : (s.raise c).draws = s.draws := by simp [State.raise]
@[simp] theorem raise_loader (s : State) (c : BitVec 8) : (s.raise c).loader = s.loader := by simp [State.raise]
@[simp] theorem raise_table (s : State) (c : BitVec 8) : (s.raise c).table = s.table := by simp [State.raise]
@[simp] theorem raise_ctl (s : State) (c : BitVec 8) : (s.raise c).ctl = s.ctl := by simp [State.raise]
@[simp] theorem raise_monitors (s : State) (c : BitVec 8) : (s.raise c).monitors = s.monitors := by simp [State.raise]
@[simp] theorem raise_dclink (s : State) (c : BitVec 8) : (s.raise c).dclink = s.dclink := by simp [State.raise]
@[simp] theorem raise_trackers (s : State) (c : BitVec 8) : (s.raise c).trackers = s.trackers := by simp [State.raise]
@[simp] theorem raise_evals (s : State) (c : BitVec 8) : (s.raise c).evals = s.evals := by simp [State.raise]
@[simp] theorem raise_account (s : State) (c : BitVec 8) : (s.raise c).account = s.account := by simp [State.raise]
@[simp] theorem raise_stagers (s : State) (c : BitVec 8) : (s.raise c).stagers = s.stagers := by simp [State.raise]
@[simp] theorem raise_link (s : State) (c : BitVec 8) : (s.raise c).link = s.link := by simp [State.raise]
@[simp] theorem raise_bus_current (s : State) (c : BitVec 8) : (s.raise c).bus.current = s.bus.current := by simp [State.raise]
@[simp] theorem raise_bus_hold (s : State) (c : BitVec 8) : (s.raise c).bus.hold = s.bus.hold := by simp [State.raise]
@[simp] theorem raise_bus_turnOwed (s : State) (c : BitVec 8) : (s.raise c).bus.turnOwed = s.bus.turnOwed := by simp [State.raise]
@[simp] theorem raise_bus_waiting (s : State) (c : BitVec 8) : (s.raise c).bus.waiting = s.bus.waiting := by simp [State.raise]
@[simp] theorem raise_bus_answer (s : State) (c : BitVec 8) : (s.raise c).bus.answer = s.bus.answer := by simp [State.raise]
@[simp] theorem raise_writer_staging (s : State) (c : BitVec 8) : (s.raise c).writer.staging = s.writer.staging := by simp [State.raise]
@[simp] theorem raise_writer_inProgress (s : State) (c : BitVec 8) : (s.raise c).writer.inProgress = s.writer.inProgress := by simp [State.raise]
@[simp] theorem raise_writer_nextSeq (s : State) (c : BitVec 8) : (s.raise c).writer.nextSeq = s.writer.nextSeq := by simp [State.raise]
@[simp] theorem raise_writer_producer (s : State) (c : BitVec 8) : (s.raise c).writer.producer = s.writer.producer := by simp [State.raise]
@[simp] theorem raise_writer_published (s : State) (c : BitVec 8) : (s.raise c).writer.published = s.writer.published := by simp [State.raise]
@[simp] theorem raise_writer_consumer (s : State) (c : BitVec 8) : (s.raise c).writer.consumer = s.writer.consumer := by simp [State.raise]
@[simp] theorem raise_writer_dropped (s : State) (c : BitVec 8) : (s.raise c).writer.dropped = s.writer.dropped := by simp [State.raise]
@[simp] theorem raise_writer_overrun (s : State) (c : BitVec 8) : (s.raise c).writer.overrun = s.writer.overrun := by simp [State.raise]
@[simp] theorem raise_writer_summary (s : State) (c : BitVec 8) : (s.raise c).writer.summary = s.writer.summary ||| c := by simp [State.raise]
@[simp] theorem raise_writer_resultDirty (s : State) (c : BitVec 8) : (s.raise c).writer.resultDirty = s.writer.resultDirty := by simp [State.raise]
@[simp] theorem raise_writer_burst (s : State) (c : BitVec 8) : (s.raise c).writer.burst = s.writer.burst := by simp [State.raise]

/-! ## putProducer -/

@[simp] theorem putProducer_pending (s : State) (p : BitVec 16) : (s.putProducer p).pending = s.pending := by simp [State.putProducer]
@[simp] theorem putProducer_stamp (s : State) (p : BitVec 16) : (s.putProducer p).stamp = s.stamp := by simp [State.putProducer]
@[simp] theorem putProducer_init (s : State) (p : BitVec 16) : (s.putProducer p).init = s.init := by simp [State.putProducer]
@[simp] theorem putProducer_malm (s : State) (p : BitVec 16) : (s.putProducer p).malm = s.malm := by simp [State.putProducer]
@[simp] theorem putProducer_draws (s : State) (p : BitVec 16) : (s.putProducer p).draws = s.draws := by simp [State.putProducer]
@[simp] theorem putProducer_loader (s : State) (p : BitVec 16) : (s.putProducer p).loader = s.loader := by simp [State.putProducer]
@[simp] theorem putProducer_table (s : State) (p : BitVec 16) : (s.putProducer p).table = s.table := by simp [State.putProducer]
@[simp] theorem putProducer_ctl (s : State) (p : BitVec 16) : (s.putProducer p).ctl = s.ctl := by simp [State.putProducer]
@[simp] theorem putProducer_monitors (s : State) (p : BitVec 16) : (s.putProducer p).monitors = s.monitors := by simp [State.putProducer]
@[simp] theorem putProducer_dclink (s : State) (p : BitVec 16) : (s.putProducer p).dclink = s.dclink := by simp [State.putProducer]
@[simp] theorem putProducer_trackers (s : State) (p : BitVec 16) : (s.putProducer p).trackers = s.trackers := by simp [State.putProducer]
@[simp] theorem putProducer_evals (s : State) (p : BitVec 16) : (s.putProducer p).evals = s.evals := by simp [State.putProducer]
@[simp] theorem putProducer_account (s : State) (p : BitVec 16) : (s.putProducer p).account = s.account := by simp [State.putProducer]
@[simp] theorem putProducer_stagers (s : State) (p : BitVec 16) : (s.putProducer p).stagers = s.stagers := by simp [State.putProducer]
@[simp] theorem putProducer_link (s : State) (p : BitVec 16) : (s.putProducer p).link = s.link := by simp [State.putProducer]
@[simp] theorem putProducer_bus_current (s : State) (p : BitVec 16) : (s.putProducer p).bus.current = s.bus.current := by simp [State.putProducer]
@[simp] theorem putProducer_bus_hold (s : State) (p : BitVec 16) : (s.putProducer p).bus.hold = s.bus.hold := by simp [State.putProducer]
@[simp] theorem putProducer_bus_turnOwed (s : State) (p : BitVec 16) : (s.putProducer p).bus.turnOwed = s.bus.turnOwed := by simp [State.putProducer]
@[simp] theorem putProducer_bus_waiting (s : State) (p : BitVec 16) : (s.putProducer p).bus.waiting = s.bus.waiting := by simp [State.putProducer]
@[simp] theorem putProducer_bus_answer (s : State) (p : BitVec 16) : (s.putProducer p).bus.answer = s.bus.answer := by simp [State.putProducer]
@[simp] theorem putProducer_writer_staging (s : State) (p : BitVec 16) : (s.putProducer p).writer.staging = s.writer.staging := by simp [State.putProducer]
@[simp] theorem putProducer_writer_inProgress (s : State) (p : BitVec 16) : (s.putProducer p).writer.inProgress = s.writer.inProgress := by simp [State.putProducer]
@[simp] theorem putProducer_writer_nextSeq (s : State) (p : BitVec 16) : (s.putProducer p).writer.nextSeq = s.writer.nextSeq := by simp [State.putProducer]
@[simp] theorem putProducer_writer_producer (s : State) (p : BitVec 16) : (s.putProducer p).writer.producer = p := by simp [State.putProducer]
@[simp] theorem putProducer_writer_published (s : State) (p : BitVec 16) : (s.putProducer p).writer.published = s.writer.published := by simp [State.putProducer]
@[simp] theorem putProducer_writer_consumer (s : State) (p : BitVec 16) : (s.putProducer p).writer.consumer = s.writer.consumer := by simp [State.putProducer]
@[simp] theorem putProducer_writer_dropped (s : State) (p : BitVec 16) : (s.putProducer p).writer.dropped = s.writer.dropped := by simp [State.putProducer]
@[simp] theorem putProducer_writer_overrun (s : State) (p : BitVec 16) : (s.putProducer p).writer.overrun = s.writer.overrun := by simp [State.putProducer]
@[simp] theorem putProducer_writer_summary (s : State) (p : BitVec 16) : (s.putProducer p).writer.summary = s.writer.summary := by simp [State.putProducer]
@[simp] theorem putProducer_writer_resultDirty (s : State) (p : BitVec 16) : (s.putProducer p).writer.resultDirty = s.writer.resultDirty := by simp [State.putProducer]
@[simp] theorem putProducer_writer_attn (s : State) (p : BitVec 16) : (s.putProducer p).writer.attn = s.writer.attn := by simp [State.putProducer]
@[simp] theorem putProducer_writer_burst (s : State) (p : BitVec 16) : (s.putProducer p).writer.burst = s.writer.burst := by simp [State.putProducer]

/-! ## putPublished -/

@[simp] theorem putPublished_pending (s : State) (p : BitVec 16) : (s.putPublished p).pending = s.pending := by simp [State.putPublished]
@[simp] theorem putPublished_stamp (s : State) (p : BitVec 16) : (s.putPublished p).stamp = s.stamp := by simp [State.putPublished]
@[simp] theorem putPublished_init (s : State) (p : BitVec 16) : (s.putPublished p).init = s.init := by simp [State.putPublished]
@[simp] theorem putPublished_malm (s : State) (p : BitVec 16) : (s.putPublished p).malm = s.malm := by simp [State.putPublished]
@[simp] theorem putPublished_draws (s : State) (p : BitVec 16) : (s.putPublished p).draws = s.draws := by simp [State.putPublished]
@[simp] theorem putPublished_loader (s : State) (p : BitVec 16) : (s.putPublished p).loader = s.loader := by simp [State.putPublished]
@[simp] theorem putPublished_table (s : State) (p : BitVec 16) : (s.putPublished p).table = s.table := by simp [State.putPublished]
@[simp] theorem putPublished_ctl (s : State) (p : BitVec 16) : (s.putPublished p).ctl = s.ctl := by simp [State.putPublished]
@[simp] theorem putPublished_monitors (s : State) (p : BitVec 16) : (s.putPublished p).monitors = s.monitors := by simp [State.putPublished]
@[simp] theorem putPublished_dclink (s : State) (p : BitVec 16) : (s.putPublished p).dclink = s.dclink := by simp [State.putPublished]
@[simp] theorem putPublished_trackers (s : State) (p : BitVec 16) : (s.putPublished p).trackers = s.trackers := by simp [State.putPublished]
@[simp] theorem putPublished_evals (s : State) (p : BitVec 16) : (s.putPublished p).evals = s.evals := by simp [State.putPublished]
@[simp] theorem putPublished_account (s : State) (p : BitVec 16) : (s.putPublished p).account = s.account := by simp [State.putPublished]
@[simp] theorem putPublished_stagers (s : State) (p : BitVec 16) : (s.putPublished p).stagers = s.stagers := by simp [State.putPublished]
@[simp] theorem putPublished_link (s : State) (p : BitVec 16) : (s.putPublished p).link = s.link := by simp [State.putPublished]
@[simp] theorem putPublished_bus_current (s : State) (p : BitVec 16) : (s.putPublished p).bus.current = s.bus.current := by simp [State.putPublished]
@[simp] theorem putPublished_bus_hold (s : State) (p : BitVec 16) : (s.putPublished p).bus.hold = s.bus.hold := by simp [State.putPublished]
@[simp] theorem putPublished_bus_turnOwed (s : State) (p : BitVec 16) : (s.putPublished p).bus.turnOwed = s.bus.turnOwed := by simp [State.putPublished]
@[simp] theorem putPublished_bus_waiting (s : State) (p : BitVec 16) : (s.putPublished p).bus.waiting = s.bus.waiting := by simp [State.putPublished]
@[simp] theorem putPublished_bus_answer (s : State) (p : BitVec 16) : (s.putPublished p).bus.answer = s.bus.answer := by simp [State.putPublished]
@[simp] theorem putPublished_writer_staging (s : State) (p : BitVec 16) : (s.putPublished p).writer.staging = s.writer.staging := by simp [State.putPublished]
@[simp] theorem putPublished_writer_inProgress (s : State) (p : BitVec 16) : (s.putPublished p).writer.inProgress = s.writer.inProgress := by simp [State.putPublished]
@[simp] theorem putPublished_writer_nextSeq (s : State) (p : BitVec 16) : (s.putPublished p).writer.nextSeq = s.writer.nextSeq := by simp [State.putPublished]
@[simp] theorem putPublished_writer_producer (s : State) (p : BitVec 16) : (s.putPublished p).writer.producer = s.writer.producer := by simp [State.putPublished]
@[simp] theorem putPublished_writer_published (s : State) (p : BitVec 16) : (s.putPublished p).writer.published = p := by simp [State.putPublished]
@[simp] theorem putPublished_writer_consumer (s : State) (p : BitVec 16) : (s.putPublished p).writer.consumer = s.writer.consumer := by simp [State.putPublished]
@[simp] theorem putPublished_writer_dropped (s : State) (p : BitVec 16) : (s.putPublished p).writer.dropped = s.writer.dropped := by simp [State.putPublished]
@[simp] theorem putPublished_writer_overrun (s : State) (p : BitVec 16) : (s.putPublished p).writer.overrun = s.writer.overrun := by simp [State.putPublished]
@[simp] theorem putPublished_writer_summary (s : State) (p : BitVec 16) : (s.putPublished p).writer.summary = s.writer.summary := by simp [State.putPublished]
@[simp] theorem putPublished_writer_resultDirty (s : State) (p : BitVec 16) : (s.putPublished p).writer.resultDirty = s.writer.resultDirty := by simp [State.putPublished]
@[simp] theorem putPublished_writer_burst (s : State) (p : BitVec 16) : (s.putPublished p).writer.burst = s.writer.burst := by simp [State.putPublished]

/-! ## putConsumer -/

@[simp] theorem putConsumer_pending (s : State) (c : BitVec 16) : (s.putConsumer c).pending = s.pending := by simp [State.putConsumer]
@[simp] theorem putConsumer_stamp (s : State) (c : BitVec 16) : (s.putConsumer c).stamp = s.stamp := by simp [State.putConsumer]
@[simp] theorem putConsumer_init (s : State) (c : BitVec 16) : (s.putConsumer c).init = s.init := by simp [State.putConsumer]
@[simp] theorem putConsumer_malm (s : State) (c : BitVec 16) : (s.putConsumer c).malm = s.malm := by simp [State.putConsumer]
@[simp] theorem putConsumer_draws (s : State) (c : BitVec 16) : (s.putConsumer c).draws = s.draws := by simp [State.putConsumer]
@[simp] theorem putConsumer_loader (s : State) (c : BitVec 16) : (s.putConsumer c).loader = s.loader := by simp [State.putConsumer]
@[simp] theorem putConsumer_table (s : State) (c : BitVec 16) : (s.putConsumer c).table = s.table := by simp [State.putConsumer]
@[simp] theorem putConsumer_ctl (s : State) (c : BitVec 16) : (s.putConsumer c).ctl = s.ctl := by simp [State.putConsumer]
@[simp] theorem putConsumer_monitors (s : State) (c : BitVec 16) : (s.putConsumer c).monitors = s.monitors := by simp [State.putConsumer]
@[simp] theorem putConsumer_dclink (s : State) (c : BitVec 16) : (s.putConsumer c).dclink = s.dclink := by simp [State.putConsumer]
@[simp] theorem putConsumer_trackers (s : State) (c : BitVec 16) : (s.putConsumer c).trackers = s.trackers := by simp [State.putConsumer]
@[simp] theorem putConsumer_evals (s : State) (c : BitVec 16) : (s.putConsumer c).evals = s.evals := by simp [State.putConsumer]
@[simp] theorem putConsumer_account (s : State) (c : BitVec 16) : (s.putConsumer c).account = s.account := by simp [State.putConsumer]
@[simp] theorem putConsumer_stagers (s : State) (c : BitVec 16) : (s.putConsumer c).stagers = s.stagers := by simp [State.putConsumer]
@[simp] theorem putConsumer_link (s : State) (c : BitVec 16) : (s.putConsumer c).link = s.link := by simp [State.putConsumer]
@[simp] theorem putConsumer_bus_current (s : State) (c : BitVec 16) : (s.putConsumer c).bus.current = s.bus.current := by simp [State.putConsumer]
@[simp] theorem putConsumer_bus_hold (s : State) (c : BitVec 16) : (s.putConsumer c).bus.hold = s.bus.hold := by simp [State.putConsumer]
@[simp] theorem putConsumer_bus_turnOwed (s : State) (c : BitVec 16) : (s.putConsumer c).bus.turnOwed = s.bus.turnOwed := by simp [State.putConsumer]
@[simp] theorem putConsumer_bus_waiting (s : State) (c : BitVec 16) : (s.putConsumer c).bus.waiting = s.bus.waiting := by simp [State.putConsumer]
@[simp] theorem putConsumer_bus_answer (s : State) (c : BitVec 16) : (s.putConsumer c).bus.answer = s.bus.answer := by simp [State.putConsumer]
@[simp] theorem putConsumer_writer_staging (s : State) (c : BitVec 16) : (s.putConsumer c).writer.staging = s.writer.staging := by simp [State.putConsumer]
@[simp] theorem putConsumer_writer_inProgress (s : State) (c : BitVec 16) : (s.putConsumer c).writer.inProgress = s.writer.inProgress := by simp [State.putConsumer]
@[simp] theorem putConsumer_writer_nextSeq (s : State) (c : BitVec 16) : (s.putConsumer c).writer.nextSeq = s.writer.nextSeq := by simp [State.putConsumer]
@[simp] theorem putConsumer_writer_producer (s : State) (c : BitVec 16) : (s.putConsumer c).writer.producer = s.writer.producer := by simp [State.putConsumer]
@[simp] theorem putConsumer_writer_published (s : State) (c : BitVec 16) : (s.putConsumer c).writer.published = s.writer.published := by simp [State.putConsumer]
@[simp] theorem putConsumer_writer_consumer (s : State) (c : BitVec 16) : (s.putConsumer c).writer.consumer = c := by simp [State.putConsumer]
@[simp] theorem putConsumer_writer_dropped (s : State) (c : BitVec 16) : (s.putConsumer c).writer.dropped = s.writer.dropped := by simp [State.putConsumer]
@[simp] theorem putConsumer_writer_overrun (s : State) (c : BitVec 16) : (s.putConsumer c).writer.overrun = s.writer.overrun := by simp [State.putConsumer]
@[simp] theorem putConsumer_writer_summary (s : State) (c : BitVec 16) : (s.putConsumer c).writer.summary = s.writer.summary := by simp [State.putConsumer]
@[simp] theorem putConsumer_writer_resultDirty (s : State) (c : BitVec 16) : (s.putConsumer c).writer.resultDirty = s.writer.resultDirty := by simp [State.putConsumer]
@[simp] theorem putConsumer_writer_burst (s : State) (c : BitVec 16) : (s.putConsumer c).writer.burst = s.writer.burst := by simp [State.putConsumer]

/-! ## handRecord -/

@[simp] theorem countDrop_pending (s : State) : (s.countDrop).pending = s.pending := by simp [State.countDrop]
@[simp] theorem countDrop_stamp (s : State) : (s.countDrop).stamp = s.stamp := by simp [State.countDrop]
@[simp] theorem countDrop_init (s : State) : (s.countDrop).init = s.init := by simp [State.countDrop]
@[simp] theorem countDrop_malm (s : State) : (s.countDrop).malm = s.malm := by simp [State.countDrop]
@[simp] theorem countDrop_draws (s : State) : (s.countDrop).draws = s.draws := by simp [State.countDrop]
@[simp] theorem countDrop_loader (s : State) : (s.countDrop).loader = s.loader := by simp [State.countDrop]
@[simp] theorem countDrop_table (s : State) : (s.countDrop).table = s.table := by simp [State.countDrop]
@[simp] theorem countDrop_ctl (s : State) : (s.countDrop).ctl = s.ctl := by simp [State.countDrop]
@[simp] theorem countDrop_monitors (s : State) : (s.countDrop).monitors = s.monitors := by simp [State.countDrop]
@[simp] theorem countDrop_dclink (s : State) : (s.countDrop).dclink = s.dclink := by simp [State.countDrop]
@[simp] theorem countDrop_trackers (s : State) : (s.countDrop).trackers = s.trackers := by simp [State.countDrop]
@[simp] theorem countDrop_evals (s : State) : (s.countDrop).evals = s.evals := by simp [State.countDrop]
@[simp] theorem countDrop_account (s : State) : (s.countDrop).account = s.account := by simp [State.countDrop]
@[simp] theorem countDrop_stagers (s : State) : (s.countDrop).stagers = s.stagers := by simp [State.countDrop]
@[simp] theorem countDrop_link (s : State) : (s.countDrop).link = s.link := by simp [State.countDrop]
@[simp] theorem countDrop_bus_current (s : State) : (s.countDrop).bus.current = s.bus.current := by simp [State.countDrop]
@[simp] theorem countDrop_bus_hold (s : State) : (s.countDrop).bus.hold = s.bus.hold := by simp [State.countDrop]
@[simp] theorem countDrop_bus_turnOwed (s : State) : (s.countDrop).bus.turnOwed = s.bus.turnOwed := by simp [State.countDrop]
@[simp] theorem countDrop_bus_waiting (s : State) : (s.countDrop).bus.waiting = s.bus.waiting := by simp [State.countDrop]
@[simp] theorem countDrop_bus_answer (s : State) : (s.countDrop).bus.answer = s.bus.answer := by simp [State.countDrop]
@[simp] theorem handRecord_pending (s : State) (b : Body) : (s.handRecord b).pending = s.pending := by
  simp only [State.handRecord, raise_pending]
  split <;> simp [State.enterStaging]
@[simp] theorem handRecord_stamp (s : State) (b : Body) : (s.handRecord b).stamp = s.stamp := by
  simp only [State.handRecord, raise_stamp]
  split <;> simp [State.enterStaging]
@[simp] theorem handRecord_init (s : State) (b : Body) : (s.handRecord b).init = s.init := by
  simp only [State.handRecord, raise_init]
  split <;> simp [State.enterStaging]
@[simp] theorem handRecord_malm (s : State) (b : Body) : (s.handRecord b).malm = s.malm := by
  simp only [State.handRecord, raise_malm]
  split <;> simp [State.enterStaging]
@[simp] theorem handRecord_draws (s : State) (b : Body) : (s.handRecord b).draws = s.draws := by
  simp only [State.handRecord, raise_draws]
  split <;> simp [State.enterStaging]
@[simp] theorem handRecord_loader (s : State) (b : Body) : (s.handRecord b).loader = s.loader := by
  simp only [State.handRecord, raise_loader]
  split <;> simp [State.enterStaging]
@[simp] theorem handRecord_table (s : State) (b : Body) : (s.handRecord b).table = s.table := by
  simp only [State.handRecord, raise_table]
  split <;> simp [State.enterStaging]
@[simp] theorem handRecord_ctl (s : State) (b : Body) : (s.handRecord b).ctl = s.ctl := by
  simp only [State.handRecord, raise_ctl]
  split <;> simp [State.enterStaging]
@[simp] theorem handRecord_monitors (s : State) (b : Body) : (s.handRecord b).monitors = s.monitors := by
  simp only [State.handRecord, raise_monitors]
  split <;> simp [State.enterStaging]
@[simp] theorem handRecord_dclink (s : State) (b : Body) : (s.handRecord b).dclink = s.dclink := by
  simp only [State.handRecord, raise_dclink]
  split <;> simp [State.enterStaging]
@[simp] theorem handRecord_trackers (s : State) (b : Body) : (s.handRecord b).trackers = s.trackers := by
  simp only [State.handRecord, raise_trackers]
  split <;> simp [State.enterStaging]
@[simp] theorem handRecord_evals (s : State) (b : Body) : (s.handRecord b).evals = s.evals := by
  simp only [State.handRecord, raise_evals]
  split <;> simp [State.enterStaging]
@[simp] theorem handRecord_account (s : State) (b : Body) : (s.handRecord b).account = s.account := by
  simp only [State.handRecord, raise_account]
  split <;> simp [State.enterStaging]
@[simp] theorem handRecord_stagers (s : State) (b : Body) : (s.handRecord b).stagers = s.stagers := by
  simp only [State.handRecord, raise_stagers]
  split <;> simp [State.enterStaging]
@[simp] theorem handRecord_link (s : State) (b : Body) : (s.handRecord b).link = s.link := by
  simp only [State.handRecord, raise_link]
  split <;> simp [State.enterStaging]
@[simp] theorem handRecord_bus_current (s : State) (b : Body) : (s.handRecord b).bus.current = s.bus.current := by
  simp only [State.handRecord, raise_bus_current]
  split <;> simp [State.enterStaging]
@[simp] theorem handRecord_bus_hold (s : State) (b : Body) : (s.handRecord b).bus.hold = s.bus.hold := by
  simp only [State.handRecord, raise_bus_hold]
  split <;> simp [State.enterStaging]
@[simp] theorem handRecord_bus_turnOwed (s : State) (b : Body) : (s.handRecord b).bus.turnOwed = s.bus.turnOwed := by
  simp only [State.handRecord, raise_bus_turnOwed]
  split <;> simp [State.enterStaging]
@[simp] theorem handRecord_bus_waiting (s : State) (b : Body) : (s.handRecord b).bus.waiting = s.bus.waiting := by
  simp only [State.handRecord, raise_bus_waiting]
  split <;> simp [State.enterStaging]
@[simp] theorem handRecord_bus_answer (s : State) (b : Body) : (s.handRecord b).bus.answer = s.bus.answer := by
  simp only [State.handRecord, raise_bus_answer]
  split <;> simp [State.enterStaging]
@[simp] theorem countDrop_writer_inProgress (s : State) : (s.countDrop).writer.inProgress = s.writer.inProgress := by simp [State.countDrop]
@[simp] theorem handRecord_writer_inProgress (s : State) (b : Body) : (s.handRecord b).writer.inProgress = s.writer.inProgress := by
  simp only [State.handRecord, raise_writer_inProgress]
  split <;> simp [State.enterStaging]
@[simp] theorem countDrop_writer_producer (s : State) : (s.countDrop).writer.producer = s.writer.producer := by simp [State.countDrop]
@[simp] theorem handRecord_writer_producer (s : State) (b : Body) : (s.handRecord b).writer.producer = s.writer.producer := by
  simp only [State.handRecord, raise_writer_producer]
  split <;> simp [State.enterStaging]
@[simp] theorem countDrop_writer_published (s : State) : (s.countDrop).writer.published = s.writer.published := by simp [State.countDrop]
@[simp] theorem handRecord_writer_published (s : State) (b : Body) : (s.handRecord b).writer.published = s.writer.published := by
  simp only [State.handRecord, raise_writer_published]
  split <;> simp [State.enterStaging]
@[simp] theorem countDrop_writer_consumer (s : State) : (s.countDrop).writer.consumer = s.writer.consumer := by simp [State.countDrop]
@[simp] theorem handRecord_writer_consumer (s : State) (b : Body) : (s.handRecord b).writer.consumer = s.writer.consumer := by
  simp only [State.handRecord, raise_writer_consumer]
  split <;> simp [State.enterStaging]
@[simp] theorem countDrop_writer_resultDirty (s : State) : (s.countDrop).writer.resultDirty = s.writer.resultDirty := by simp [State.countDrop]
@[simp] theorem handRecord_writer_resultDirty (s : State) (b : Body) : (s.handRecord b).writer.resultDirty = s.writer.resultDirty := by
  simp only [State.handRecord, raise_writer_resultDirty]
  split <;> simp [State.enterStaging]
@[simp] theorem countDrop_writer_burst (s : State) : (s.countDrop).writer.burst = s.writer.burst := by simp [State.countDrop]
@[simp] theorem handRecord_writer_burst (s : State) (b : Body) : (s.handRecord b).writer.burst = s.writer.burst := by
  simp only [State.handRecord, raise_writer_burst]
  split <;> simp [State.enterStaging]
@[simp] theorem countDrop_writer_staging (s : State) : (s.countDrop).writer.staging = s.writer.staging := by simp [State.countDrop]

/-! ## makeResult -/

@[simp] theorem makeResult_pending (s : State) (f : Fid) (x : Finding) : (s.makeResult f x).pending = s.pending := by
  simp only [State.makeResult]
  split <;> simp
@[simp] theorem makeResult_stamp (s : State) (f : Fid) (x : Finding) : (s.makeResult f x).stamp = s.stamp := by
  simp only [State.makeResult]
  split <;> simp
@[simp] theorem makeResult_init (s : State) (f : Fid) (x : Finding) : (s.makeResult f x).init = s.init := by
  simp only [State.makeResult]
  split <;> simp
@[simp] theorem makeResult_malm (s : State) (f : Fid) (x : Finding) : (s.makeResult f x).malm = s.malm := by
  simp only [State.makeResult]
  split <;> simp
@[simp] theorem makeResult_draws (s : State) (f : Fid) (x : Finding) : (s.makeResult f x).draws = s.draws := by
  simp only [State.makeResult]
  split <;> simp
@[simp] theorem makeResult_loader (s : State) (f : Fid) (x : Finding) : (s.makeResult f x).loader = s.loader := by
  simp only [State.makeResult]
  split <;> simp
@[simp] theorem makeResult_table (s : State) (f : Fid) (x : Finding) : (s.makeResult f x).table = s.table := by
  simp only [State.makeResult]
  split <;> simp
@[simp] theorem makeResult_ctl (s : State) (f : Fid) (x : Finding) : (s.makeResult f x).ctl = s.ctl := by
  simp only [State.makeResult]
  split <;> simp
@[simp] theorem makeResult_monitors (s : State) (f : Fid) (x : Finding) : (s.makeResult f x).monitors = s.monitors := by
  simp only [State.makeResult]
  split <;> simp
@[simp] theorem makeResult_dclink (s : State) (f : Fid) (x : Finding) : (s.makeResult f x).dclink = s.dclink := by
  simp only [State.makeResult]
  split <;> simp
@[simp] theorem makeResult_trackers (s : State) (f : Fid) (x : Finding) : (s.makeResult f x).trackers = s.trackers := by
  simp only [State.makeResult]
  split <;> simp
@[simp] theorem makeResult_evals (s : State) (f : Fid) (x : Finding) : (s.makeResult f x).evals = s.evals := by
  simp only [State.makeResult]
  split <;> simp
@[simp] theorem makeResult_account (s : State) (f : Fid) (x : Finding) : (s.makeResult f x).account = s.account := by
  simp only [State.makeResult]
  split <;> simp
@[simp] theorem makeResult_link (s : State) (f : Fid) (x : Finding) : (s.makeResult f x).link = s.link := by
  simp only [State.makeResult]
  split <;> simp
@[simp] theorem makeResult_bus_current (s : State) (f : Fid) (x : Finding) : (s.makeResult f x).bus.current = s.bus.current := by
  simp only [State.makeResult]
  split <;> simp
@[simp] theorem makeResult_bus_hold (s : State) (f : Fid) (x : Finding) : (s.makeResult f x).bus.hold = s.bus.hold := by
  simp only [State.makeResult]
  split <;> simp
@[simp] theorem makeResult_bus_turnOwed (s : State) (f : Fid) (x : Finding) : (s.makeResult f x).bus.turnOwed = s.bus.turnOwed := by
  simp only [State.makeResult]
  split <;> simp
@[simp] theorem makeResult_bus_waiting (s : State) (f : Fid) (x : Finding) : (s.makeResult f x).bus.waiting = s.bus.waiting := by
  simp only [State.makeResult]
  split <;> simp
@[simp] theorem makeResult_bus_answer (s : State) (f : Fid) (x : Finding) : (s.makeResult f x).bus.answer = s.bus.answer := by
  simp only [State.makeResult]
  split <;> simp
@[simp] theorem makeResult_writer_inProgress (s : State) (f : Fid) (x : Finding) : (s.makeResult f x).writer.inProgress = s.writer.inProgress := by
  simp only [State.makeResult]
  split <;> simp
@[simp] theorem makeResult_writer_producer (s : State) (f : Fid) (x : Finding) : (s.makeResult f x).writer.producer = s.writer.producer := by
  simp only [State.makeResult]
  split <;> simp
@[simp] theorem makeResult_writer_published (s : State) (f : Fid) (x : Finding) : (s.makeResult f x).writer.published = s.writer.published := by
  simp only [State.makeResult]
  split <;> simp
@[simp] theorem makeResult_writer_consumer (s : State) (f : Fid) (x : Finding) : (s.makeResult f x).writer.consumer = s.writer.consumer := by
  simp only [State.makeResult]
  split <;> simp
@[simp] theorem makeResult_writer_burst (s : State) (f : Fid) (x : Finding) : (s.makeResult f x).writer.burst = s.writer.burst := by
  simp only [State.makeResult]
  split <;> simp
@[simp] theorem makeResult_stagers (s : State) (f : Fid) (x : Finding) : (s.makeResult f x).stagers =
    s.stagers.set f { s.stagers.get f with latest := some (s.resultOf f x), number := (s.resultOf f x).number } := by
  simp only [State.makeResult]
  split <;> simp

end Sys2Proof.Machine.State
end

