-- ==== Sys2Proof/Laws/Account.lean ====
section
/-! SUPPORT. The energy account's arithmetic: what one write of a reservation does to Sum, what shedding does, and that
a grant always fits (R73, R81, R82, R76). -/

namespace Sys2Proof.Machine.State

/-! ## The tables and Sum through the shared operations -/

@[simp] theorem entry_putReserved (s : State) (f : Fid) (r : Nat) : (s.putReserved f r).entry = s.entry := by
  funext g; simp [entry]

@[simp] theorem byPriority_putReserved (s : State) (f : Fid) (r : Nat) :
    (s.putReserved f r).byPriority = s.byPriority := by
  simp [byPriority]

theorem counted_putReserved (s : State) (f g : Fid) (r : Nat) :
    (s.putReserved f r).counted g =
      if g = f then (if (s.entry f).rehearsal then 0 else r) else s.counted g := by
  unfold counted
  rw [entry_putReserved, putReserved_account, Per8.get_set]
  by_cases h : g = f
  · subst h; simp
  · simp [h]

/-- The sum over the feeders, with the value of one feeder replaced. -/
theorem sum_replace (a b : Fid → Nat) (f : Fid) (x : Nat) (hf : b f = x) (hg : ∀ g, g ≠ f → b g = a g) :
    (Fid.all.map b).sum + a f = (Fid.all.map a).sum + x := by
  subst hf
  fin_cases f <;>
    simp only [Fid.all, List.map_cons, List.map_nil, List.sum_cons, List.sum_nil] <;>
    simp (disch := decide) only [hg] <;> simp only [Fin.reduceFinMk, Fin.zero_eta, Fin.isValue, Fin.mk_one] <;> omega

/-- Sum after one reservation is written. -/
theorem sum_putReserved (s : State) (f : Fid) (r : Nat) :
    (s.putReserved f r).sum + s.counted f = s.sum + (if (s.entry f).rehearsal then 0 else r) :=
  sum_replace s.counted (s.putReserved f r).counted f _
    (by rw [counted_putReserved, if_pos rfl])
    (fun g h => by rw [counted_putReserved, if_neg h])

theorem counted_le (s : State) (f : Fid) : s.counted f ≤ s.account.reserved.get f := by
  unfold counted
  split
  · exact Nat.zero_le _
  · exact Nat.le_refl _

theorem counted_le_sum (s : State) (f : Fid) : s.counted f ≤ s.sum :=
  List.single_le_sum (fun _ _ => Nat.zero_le _) _ (List.mem_map.2 ⟨f, Fid.mem_all f, rfl⟩)

/-- A write that lowers a reservation does not raise Sum. -/
theorem sum_lower (s : State) (f : Fid) (r : Nat) (h : r ≤ s.account.reserved.get f) :
    (s.putReserved f r).sum ≤ s.sum := by
  have e := sum_putReserved s f r
  unfold counted at e
  split at e <;> omega

/-- A grant of `d` raises Sum by at most `d`. -/
theorem sum_grant (s : State) (f : Fid) (d : Nat) : (s.grant f d).sum ≤ s.sum + d := by
  have e := sum_putReserved s f (s.account.reserved.get f + d)
  unfold grant
  unfold counted at e
  split at e <;> omega

/-- A grant of `d` that fits keeps Sum within U (R74). -/
theorem grant_within (s : State) (f : Fid) (d : Nat) (h : s.fits d) : (s.grant f d).sum ≤ s.account.usable := by
  have e := sum_grant s f d
  have h := of_decide_eq_true h
  omega

/-! ## Shedding (R76, R82) -/

@[simp] theorem chooseVictim_table (s : State) (f : Fid) (c : ShedCause) : (s.chooseVictim f c).table = s.table :=
  putReserved_table s f 0

@[simp] theorem entry_chooseVictim (s : State) (f : Fid) (c : ShedCause) : (s.chooseVictim f c).entry = s.entry := by
  funext g; simp [entry]

@[simp] theorem chooseVictim_reserved (s : State) (f : Fid) (c : ShedCause) :
    (s.chooseVictim f c).account.reserved = s.account.reserved.set f 0 :=
  congrArg Account.reserved (putReserved_account s f 0)

@[simp] theorem chooseVictim_usable (s : State) (f : Fid) (c : ShedCause) :
    (s.chooseVictim f c).account.usable = s.account.usable :=
  (congrArg Account.usable (putReserved_account s f 0) :)

@[simp] theorem chooseVictim_ctl (s : State) (f : Fid) (c : ShedCause) : (s.chooseVictim f c).ctl = s.ctl :=
  putReserved_ctl s f 0

theorem chooseVictim_sum (s : State) (f : Fid) (c : ShedCause) : (s.chooseVictim f c).sum = (s.putReserved f 0).sum :=
  rfl

/-- What shedding keeps: the table, U, the controllers; a feeder's reservation stays or becomes 0, and stays where the
feeder is not on the list. -/
theorem shedUntil_keeps (fs : List Fid) (c : ShedCause) (p : State → Bool) :
    ∀ s : State, (s.shedUntil fs c p).table = s.table ∧
      (s.shedUntil fs c p).account.usable = s.account.usable ∧ (s.shedUntil fs c p).ctl = s.ctl ∧
      ∀ g, (s.shedUntil fs c p).account.reserved.get g = s.account.reserved.get g ∨
        ((s.shedUntil fs c p).account.reserved.get g = 0 ∧ g ∈ fs) := by
  induction fs with
  | nil => exact fun s => ⟨rfl, rfl, rfl, fun g => .inl rfl⟩
  | cons f fs ih =>
    intro s
    unfold shedUntil
    split
    · exact ⟨rfl, rfl, rfl, fun g => .inl rfl⟩
    · split
      · obtain ⟨a, b, d, e⟩ := ih (s.chooseVictim f c)
        refine ⟨a.trans (chooseVictim_table ..), b.trans (chooseVictim_usable ..), d.trans (chooseVictim_ctl ..), ?_⟩
        intro g
        rcases e g with e | ⟨e, m⟩
        · rw [chooseVictim_reserved, Per8.get_set] at e
          by_cases h : g = f
          · rw [if_pos h] at e
            exact .inr ⟨e, h ▸ List.mem_cons_self⟩
          · rw [if_neg h] at e
            exact .inl e
        · exact .inr ⟨e, List.mem_cons_of_mem _ m⟩
      · obtain ⟨a, b, d, e⟩ := ih s
        refine ⟨a, b, d, fun g => ?_⟩
        rcases e g with e | ⟨e, m⟩
        · exact .inl e
        · exact .inr ⟨e, List.mem_cons_of_mem _ m⟩

theorem entry_shedUntil (fs : List Fid) (c : ShedCause) (p : State → Bool) (s : State) :
    (s.shedUntil fs c p).entry = s.entry := by
  funext g
  unfold entry
  rw [(shedUntil_keeps fs c p s).1]

/-- Shedding ends with `enough`, or with every feeder on the list not counted. -/
theorem shedUntil_done (fs : List Fid) (c : ShedCause) (p : State → Bool) :
    ∀ s : State, p (s.shedUntil fs c p) ∨ ∀ g ∈ fs, (s.shedUntil fs c p).counted g = 0 := by
  induction fs with
  | nil => exact fun s => .inr fun g h => absurd h List.not_mem_nil
  | cons f fs ih =>
    intro s
    unfold shedUntil
    split
    · next h => exact .inl h
    · have zero : ∀ t : State, (t.entry = s.entry) → (t.account.reserved.get f = 0 ∨ (s.entry f).rehearsal) →
          (t.shedUntil fs c p).counted f = 0 := by
        intro t he hz
        unfold counted
        rw [entry_shedUntil, he]
        split
        · rfl
        · next hr =>
          rcases (shedUntil_keeps fs c p t).2.2.2 f with e | ⟨e, -⟩
          · rcases hz with hz | hz
            · exact e.trans hz
            · exact absurd hz hr
          · exact e
      split
      · next hs =>
        rcases ih (s.chooseVictim f c) with h | h
        · exact .inl h
        · refine .inr fun g hg => ?_
          rcases List.mem_cons.1 hg with rfl | hg
          · exact zero _ (entry_chooseVictim ..) (.inl (by simp))
          · exact h g hg
      · next hs =>
        rcases ih s with h | h
        · exact .inl h
        · refine .inr fun g hg => ?_
          rcases List.mem_cons.1 hg with rfl | hg
          · refine zero s rfl ?_
            unfold sheddable at hs
            by_cases hr : (s.entry g).rehearsal
            · exact .inr hr
            · refine .inl ?_
              simpa [hr] using hs
          · exact h g hg

/-- Shedding never raises Sum. -/
theorem sum_shedUntil_le (fs : List Fid) (c : ShedCause) (p : State → Bool) :
    ∀ s : State, (s.shedUntil fs c p).sum ≤ s.sum := by
  induction fs with
  | nil => exact fun s => Nat.le_refl _
  | cons f fs ih =>
    intro s
    unfold shedUntil
    split
    · exact Nat.le_refl _
    · split
      · exact (ih _).trans ((chooseVictim_sum s f c).le.trans (sum_lower s f 0 (Nat.zero_le _)))
      · exact ih s

theorem sum_eq_zero_of (s : State) (h : ∀ g, s.counted g = 0) : s.sum = 0 := by
  unfold State.sum
  rw [List.sum_eq_zero]
  intro x hx
  obtain ⟨g, -, rfl⟩ := List.mem_map.1 hx
  exact h g

/-! ## The order of priority -/

theorem mem_byPriority (s : State) (f : Fid) : f ∈ s.byPriority := by
  unfold byPriority
  rw [List.mem_flatMap]
  refine ⟨(s.entry f).priority, ?_, ?_⟩
  · generalize (s.entry f).priority = p
    fin_cases p <;> decide
  · simp

/-- Earlier in the order means a priority that is no lower. -/
theorem byPriority_sorted (s : State) :
    s.byPriority.Pairwise fun f g => (s.entry f).priority ≤ (s.entry g).priority := by
  unfold byPriority
  rw [List.pairwise_flatMap]
  refine ⟨fun p _ => ?_, ?_⟩
  · refine List.pairwise_of_forall_mem_list fun f hf g hg => ?_
    simp only [List.mem_filter, beq_iff_eq] at hf hg
    rw [hf.2, hg.2]
  · have h : ([0, 1, 2, 3, 4, 5, 6, 7] : List (Fin 8)).Pairwise (· ≤ ·) := by decide
    refine h.imp fun {p q} hpq f hf g hg => ?_
    simp only [List.mem_filter, beq_iff_eq] at hf hg
    rw [hf.2, hg.2]
    exact hpq

theorem mem_lowestFirst (s : State) (f : Fid) : f ∈ s.lowestFirst := List.mem_reverse.2 (mem_byPriority s f)

/-- Shedding the whole list for a figure `u` brings Sum to at most `u`. -/
theorem shed_all_within (s : State) (c : ShedCause) (u : Nat) :
    (s.shedUntil s.lowestFirst c fun t => decide (t.sum ≤ u)).sum ≤ u := by
  rcases shedUntil_done s.lowestFirst c (fun t => decide (t.sum ≤ u)) s with h | h
  · exact of_decide_eq_true h
  · rw [sum_eq_zero_of _ fun g => h g (mem_lowestFirst s g)]
    exact Nat.zero_le _

/-! ## Admission (R82) -/

theorem nodup_byPriority (s : State) : s.byPriority.Nodup := by
  unfold byPriority
  rw [List.nodup_flatMap]
  refine ⟨fun p _ => Fid.nodup_all.filter _, ?_⟩
  have h : ([0, 1, 2, 3, 4, 5, 6, 7] : List (Fin 8)).Pairwise (· ≠ ·) := by decide
  refine h.imp fun {p q} hpq => ?_
  intro f hf hg
  simp only [List.mem_filter, beq_iff_eq] at hf hg
  exact hpq (hf.2.symm.trans hg.2)

theorem nodup_candidates (s : State) (f : Fid) : (s.candidates f).Nodup :=
  (List.nodup_reverse.2 (nodup_byPriority s)).filter _

theorem candidates_sheddable (s : State) (f g : Fid) (h : g ∈ s.candidates f) :
    s.sheddable g ∧ (s.entry f).priority < (s.entry g).priority := by
  have h := (List.mem_filter.1 h).2
  simp only [Bool.and_eq_true, decide_eq_true_eq] at h
  exact ⟨h.2, h.1⟩

theorem counted_of_sheddable (s : State) (g : Fid) (h : s.sheddable g) : s.counted g = s.account.reserved.get g := by
  unfold sheddable at h
  unfold counted
  rw [if_neg]
  intro hr
  simp [hr] at h

/-- Shedding a list of feeders that can all be shed ends with `enough`, or takes all of their reservations. -/
theorem shedUntil_takes (fs : List Fid) (c : ShedCause) (p : State → Bool) :
    ∀ s : State, fs.Nodup → (∀ g ∈ fs, s.sheddable g) →
      p (s.shedUntil fs c p) ∨
        (s.shedUntil fs c p).sum + (fs.map fun g => s.account.reserved.get g).sum = s.sum := by
  induction fs with
  | nil => exact fun s _ _ => .inr rfl
  | cons f fs ih =>
    intro s hn hs
    obtain ⟨hf, hn⟩ := List.nodup_cons.1 hn
    unfold shedUntil
    split
    · next h => exact .inl h
    · rw [if_pos (hs f List.mem_cons_self)]
      have keep : ∀ g ∈ fs, (s.chooseVictim f c).account.reserved.get g = s.account.reserved.get g := by
        intro g hg
        rw [chooseVictim_reserved, Per8.get_set_ne]
        rintro rfl
        exact hf hg
      rcases ih (s.chooseVictim f c) hn (fun g hg => by
          unfold sheddable
          rw [keep g hg, entry_chooseVictim]
          exact hs g (List.mem_cons_of_mem _ hg)) with h | h
      · exact .inl h
      · refine .inr ?_
        have hm : (fs.map fun g => (s.chooseVictim f c).account.reserved.get g)
            = fs.map fun g => s.account.reserved.get g := List.map_congr_left keep
        rw [hm, chooseVictim_sum] at h
        have e := sum_putReserved s f 0
        rw [counted_of_sheddable s f (hs f List.mem_cons_self)] at e
        simp only [List.map_cons, List.sum_cons]
        split at e <;> omega

/-- A request that the candidates' reservations can meet fits once they are shed (R82). -/
theorem candidates_enough (s : State) (f : Fid) (d : Nat)
    (h : s.sum + d ≤ s.account.usable + s.candidateTotal f) :
    (s.shedUntil (s.candidates f) .preempted fun t => t.fits d).fits d := by
  rcases shedUntil_takes (s.candidates f) .preempted (fun t => t.fits d) s (nodup_candidates s f)
      (fun g hg => (candidates_sheddable s f g hg).1) with h' | h'
  · exact h'
  · have hu := (shedUntil_keeps (s.candidates f) .preempted (fun t => t.fits d) s).2.1
    unfold candidateTotal at h
    generalize (s.shedUntil (s.candidates f) .preempted fun t => t.fits d) = t at h' hu ⊢
    apply decide_eq_true
    omega

/-- Sum stays within U through an admission request (R74, R81-R83). -/
theorem requestEnergy_within (s : State) (f : Fid) (d : Nat) (h : s.sum ≤ s.account.usable) :
    (s.requestEnergy f d).1.sum ≤ (s.requestEnergy f d).1.account.usable := by
  have g : ∀ t : State, t.fits d → (t.grant f d).sum ≤ (t.grant f d).account.usable := by
    intro t ht
    refine (grant_within t f d ht).trans (Nat.le_of_eq ?_)
    unfold grant
    rw [putReserved_account]
  unfold requestEnergy
  split
  · exact h
  · split
    · split
      · next hf => exact g s hf
      · exact h
    · split
      · next hf => exact g s hf
      · split
        · next hc => exact g _ (candidates_enough s f d hc)
        · exact h

end Sys2Proof.Machine.State
end

