-- ==== Sys2Proof/Laws/Moves.lean ====
section
/-! SUPPORT. What the feeders' side of the part (account, stagers, link, controllers, monitors, trackers) can do to the
state, said once for every operation of those blocks: each is a sequence of the moves listed here. So a property that
every move keeps is kept by all of them, and what no move touches none of them touches. -/

namespace Sys2Proof.Machine

/-- One write by the feeders' side. A reservation rises only by a grant that fits, and U falls to no less than Sum. -/
inductive Move (s : State) : State → Prop where
  | ctl (f : Fid) (c : FeederCtl) : Move s (s.putCtl f c)
  | tracker (f : Fid) (t : Tracker) : Move s (s.putTracker f t)
  | eval (f : Fid) (e : Evaluator) : Move s (s.putEval f e)
  | lower (f : Fid) (r : Nat) (h : r ≤ s.account.reserved.get f) : Move s (s.putReserved f r)
  | grant (f : Fid) (d : Nat) (h : s.fits d) : Move s (s.grant f d)
  | usable (u : Nat) (h : s.sum ≤ u) : Move s (s.putUsable u)
  | notice (n : Per8 (Option ShedCause)) : Move s { s with account := { s.account with notice := n } }
  | monitor (f : Fid) (m : Monitor) : Move s (s.putMonitor f m)
  | stager (f : Fid) (g : Stager) : Move s (s.putStager f g)
  | result (f : Fid) : Move s (s.touchResult f)
  | record (b : Body) : Move s (s.handRecord b)
  | raise (c : BitVec 8) : Move s (s.raise c)
  | settle (before : State) (f : Fid) : Move s (s.settleResults before f)
  | link (l : Link) : Move s { s with link := l }
  | draws (n : Nat) : Move s { s with draws := n }

/-- Any number of moves. -/
inductive Moves (s : State) : State → Prop where
  | refl : Moves s s
  | tail {t u : State} (h : Moves s t) (m : Move t u) : Moves s u

theorem Moves.trans {s t u : State} (h : Moves s t) (k : Moves t u) : Moves s u := by
  induction k with
  | refl => exact h
  | tail _ m ih => exact ih.tail m

/-- A property that every move keeps is kept by any number. -/
theorem Moves.keeps {p : State → Prop} (step : ∀ s t, Move s t → p s → p t) {s t : State} (h : Moves s t)
    (hs : p s) : p t := by
  induction h with
  | refl => exact hs
  | tail _ m ih => exact step _ _ m ih

namespace State

/-! ## The moves themselves -/

@[simp] theorem putCtl_moves {s₀ : State} (s : State) (f : Fid) (c : FeederCtl) (h : Moves s₀ s) :
    Moves s₀ (s.putCtl f c) := h.tail (.ctl f c)

@[simp] theorem putTracker_moves {s₀ : State} (s : State) (f : Fid) (t : Tracker) (h : Moves s₀ s) :
    Moves s₀ (s.putTracker f t) := h.tail (.tracker f t)

@[simp] theorem putEval_moves {s₀ : State} (s : State) (f : Fid) (e : Evaluator) (h : Moves s₀ s) :
    Moves s₀ (s.putEval f e) := h.tail (.eval f e)

@[simp] theorem putMonitor_moves {s₀ : State} (s : State) (f : Fid) (m : Monitor) (h : Moves s₀ s) :
    Moves s₀ (s.putMonitor f m) := h.tail (.monitor f m)

@[simp] theorem putStager_moves {s₀ : State} (s : State) (f : Fid) (g : Stager) (h : Moves s₀ s) :
    Moves s₀ (s.putStager f g) := h.tail (.stager f g)

@[simp] theorem touchResult_moves {s₀ : State} (s : State) (f : Fid) (h : Moves s₀ s) :
    Moves s₀ (s.touchResult f) := h.tail (.result f)

@[simp] theorem handRecord_moves {s₀ : State} (s : State) (b : Body) (h : Moves s₀ s) :
    Moves s₀ (s.handRecord b) := h.tail (.record b)

@[simp] theorem raise_moves {s₀ : State} (s : State) (c : BitVec 8) (h : Moves s₀ s) :
    Moves s₀ (s.raise c) := h.tail (.raise c)

theorem lower_moves {s₀ : State} (s : State) (f : Fid) (r : Nat) (hr : r ≤ s.account.reserved.get f)
    (h : Moves s₀ s) : Moves s₀ (s.putReserved f r) := h.tail (.lower f r hr)

theorem withLink_moves {s₀ : State} (s : State) (l : Link) (h : Moves s₀ s) :
    Moves s₀ { s with link := l } := h.tail (.link l)

/-! ## The account -/

@[simp] theorem chooseVictim_moves {s₀ : State} (s : State) (f : Fid) (c : ShedCause) (h : Moves s₀ s) :
    Moves s₀ (s.chooseVictim f c) :=
  ((h.tail (.lower f 0 (Nat.zero_le _))).tail (.notice _))

@[simp] theorem shedUntil_moves {s₀ : State} (fs : List Fid) (c : ShedCause) (p : State → Bool) :
    ∀ s : State, Moves s₀ s → Moves s₀ (s.shedUntil fs c p) := by
  induction fs with
  | nil => exact fun s h => h
  | cons f fs ih =>
    intro s h
    unfold shedUntil
    split
    · exact h
    · split
      · exact ih _ (chooseVictim_moves s f c h)
      · exact ih s h

@[simp] theorem grant_moves {s₀ : State} (s : State) (f : Fid) (d : Nat) (hf : s.fits d) (h : Moves s₀ s) :
    Moves s₀ (s.grant f d) := h.tail (.grant f d hf)

@[simp] theorem requestEnergy_moves {s₀ : State} (s : State) (f : Fid) (d : Nat) (h : Moves s₀ s) :
    Moves s₀ (s.requestEnergy f d).1 := by
  unfold requestEnergy
  split
  · exact h
  · split
    · split
      · next hf => exact grant_moves s f d hf h
      · exact h
    · split
      · next hf => exact grant_moves s f d hf h
      · split
        · next hc => exact grant_moves _ f d (candidates_enough s f d hc) (shedUntil_moves _ _ _ s h)
        · exact h

@[simp] theorem requestEntry_moves {s₀ : State} (s : State) (f : Fid) (d : Nat) (h : Moves s₀ s) :
    Moves s₀ (s.requestEntry f d).1 := by
  unfold requestEntry
  split <;> simp (maxDischargeDepth := 30) [h]

@[simp] theorem requestRide_moves {s₀ : State} (s : State) (f : Fid) (d : Nat) (h : Moves s₀ s) :
    Moves s₀ (s.requestRide f d).1 := by
  unfold requestRide
  dsimp only
  split
  · exact lower_moves s f _ (Nat.min_le_right _ _) h
  · exact requestEnergy_moves s f _ h

@[simp] theorem consume_moves {s₀ : State} (s : State) (f : Fid) (c : Nat) (h : Moves s₀ s) :
    Moves s₀ (s.consume f c) := lower_moves s f _ (Nat.sub_le _ _) h

@[simp] theorem releaseEnergy_moves {s₀ : State} (s : State) (f : Fid) (h : Moves s₀ s) :
    Moves s₀ (s.releaseEnergy f) := lower_moves s f 0 (Nat.zero_le _) h

@[simp] theorem clearNotice_moves {s₀ : State} (s : State) (f : Fid) (h : Moves s₀ s) :
    Moves s₀ (s.clearNotice f) := h.tail (.notice _)

@[simp] theorem updateUsable_moves {s₀ : State} (s : State) (v : Nat) (h : Moves s₀ s) :
    Moves s₀ (s.updateUsable v) := by
  unfold updateUsable
  dsimp only
  split
  · next hu => exact h.tail (.usable _ hu)
  · exact handRecord_moves _ _ ((shedUntil_moves _ _ _ s h).tail (.usable _ (shed_all_within s _ _)))

/-! ## The stagers -/

@[simp] theorem makeResult_moves {s₀ : State} (s : State) (f : Fid) (x : Finding) (h : Moves s₀ s) :
    Moves s₀ (s.makeResult f x) := by
  simp only [makeResult]
  split <;> simp (maxDischargeDepth := 30) [h]

@[simp] theorem settleResults_moves {s₀ : State} (s before : State) (f : Fid) (h : Moves s₀ s) :
    Moves s₀ (s.settleResults before f) := h.tail (.settle before f)

@[simp] theorem asEventOf_moves {s₀ : State} (s : State) (f : Fid) (e : State → State) (h : Moves s₀ (e s)) :
    Moves s₀ (s.asEventOf f e) := by
  simp [asEventOf, h]

@[simp] theorem endPending_moves {s₀ : State} (s : State) (f : Fid) (c : ResultCode) (h : Moves s₀ s) :
    Moves s₀ (s.endPending f c) := by
  simp only [endPending]
  split <;> simp (maxDischargeDepth := 30) [h]

@[simp] theorem endLate_moves {s₀ : State} (s : State) (f : Fid) (h : Moves s₀ s) :
    Moves s₀ (s.endLate f) := by
  simp only [endLate]
  repeat' split
  all_goals simp (maxDischargeDepth := 30) [h]

@[simp] theorem takePending_moves {s₀ : State} (s : State) (f : Fid) (h : Moves s₀ s) :
    Moves s₀ (s.takePending f) := putStager_moves s f _ h

@[simp] theorem settleSlot_moves {s₀ : State} (s : State) (f : Fid) (c : ResultCode) (h : Moves s₀ s) :
    Moves s₀ (s.settleSlot f c) := by
  simp only [settleSlot]
  split <;> simp (maxDischargeDepth := 30) [h]

@[simp] theorem settleLine_moves {s₀ : State} (s : State) (f : Fid) (c : ResultCode) (a : Option Nat) (h : Moves s₀ s) :
    Moves s₀ (s.settleLine f c a) := by
  simp only [settleLine]
  split <;> simp (maxDischargeDepth := 30) [h]

@[simp] theorem commitLine_moves {s₀ : State} (s : State) (f : Fid) (a m : Nat) (h : Moves s₀ s) :
    Moves s₀ (s.commitLine f a m) := by
  simp only [commitLine]
  split <;> simp (maxDischargeDepth := 30) [h]

@[simp] theorem acceptRecord_moves {s₀ : State} (s : State) (f : Fid) (a : Assembly) (h : Moves s₀ s) :
    Moves s₀ (s.acceptRecord f a) := by
  simp (maxDischargeDepth := 30) [acceptRecord, h]

@[simp] theorem aliasWord0_moves {s₀ : State} (s : State) (f : Fid) (be : BitVec 4) (v : Word) (h : Moves s₀ s) :
    Moves s₀ (s.aliasWord0 f be v) := by
  simp only [aliasWord0]
  split <;> simp (maxDischargeDepth := 30) [h]

@[simp] theorem aliasMiddle_moves {s₀ : State} (s : State) (f : Fid) (i : Nat) (be : BitVec 4) (v : Word) (h : Moves s₀ s) :
    Moves s₀ (s.aliasMiddle f i be v) := by
  simp only [aliasMiddle]
  split <;> simp (maxDischargeDepth := 30) [h]

@[simp] theorem aliasWord7_moves {s₀ : State} (s : State) (f : Fid) (be : BitVec 4) (v : Word) (h : Moves s₀ s) :
    Moves s₀ (s.aliasWord7 f be v) := by
  simp only [aliasWord7]
  split
  · exact h
  · split <;> simp (maxDischargeDepth := 30) [h]

@[simp] theorem disown_moves {s₀ : State} (s : State) (f : Fid) (h : Moves s₀ s) :
    Moves s₀ (s.disown f) := putStager_moves s f _ h

@[simp] theorem stagerWrite_moves {s₀ : State} (s : State) (f : Fid) (i : Nat) (be : BitVec 4) (v : Word) (h : Moves s₀ s) :
    Moves s₀ (s.stagerWrite f i be v) := by
  simp only [stagerWrite]
  repeat' split
  all_goals simp (maxDischargeDepth := 30) [h]

/-! ## The link -/

@[simp] theorem takeRequest_moves {s₀ : State} (s : State) (f : Fid) (r : Request) (h : Moves s₀ s) :
    Moves s₀ (s.takeRequest f r) := by
  unfold takeRequest
  dsimp only
  split
  · exact withLink_moves s _ h
  · exact putStager_moves _ _ _ (withLink_moves s _ h)

@[simp] theorem arbitrateLine_moves {s₀ : State} (s : State) (h : Moves s₀ s) :
    Moves s₀ s.arbitrateLine := by
  unfold arbitrateLine
  split
  · exact withLink_moves s _ h
  · split
    · exact takeRequest_moves s _ _ h
    · exact h

@[simp] theorem lineIdle_moves {s₀ : State} (s : State) (h : Moves s₀ s) :
    Moves s₀ s.lineIdle := arbitrateLine_moves _ (withLink_moves s _ h)

@[simp] theorem placeRequest_moves {s₀ : State} (s : State) (f : Fid) (r : Request) (h : Moves s₀ s) :
    Moves s₀ (s.placeRequest f r) := by
  have k : Moves s₀ (s.settleSlot f .superseded) := settleSlot_moves s f _ h
  unfold placeRequest
  dsimp only
  split
  · exact h
  · split
    · exact arbitrateLine_moves _ (withLink_moves _ _ (putStager_moves _ _ _ k))
    · exact withLink_moves _ _ (putStager_moves _ _ _ k)

@[simp] theorem emptySlot_moves {s₀ : State} (s : State) (f : Fid) (h : Moves s₀ s) :
    Moves s₀ (s.emptySlot f) := withLink_moves s _ h

@[simp] theorem lineSettle_moves {s₀ : State} (s : State) (x : Option Exchange) (h : Moves s₀ s) :
    Moves s₀ (s.lineSettle x) := withLink_moves s _ h

@[simp] theorem frameEnd_moves {s₀ : State} (s : State) (h : Moves s₀ s) :
    Moves s₀ s.frameEnd := by
  unfold frameEnd
  split <;> first | exact h | exact withLink_moves s _ h

@[simp] theorem replyStart_moves {s₀ : State} (s : State) (h : Moves s₀ s) :
    Moves s₀ s.replyStart := by
  unfold replyStart
  split <;> first | exact h | exact withLink_moves s _ h

@[simp] theorem failAttempt_moves {s₀ : State} (s : State) (c : LinkCause) (h : Moves s₀ s) :
    Moves s₀ (s.failAttempt c).1 := by
  unfold failAttempt
  split
  · exact lineSettle_moves s _ h
  · split
    · exact lineSettle_moves s _ h
    · split <;> exact lineSettle_moves s _ h

@[simp] theorem resend_moves {s₀ : State} (s : State) (x : Exchange) (h : Moves s₀ s) :
    Moves s₀ (s.resend x) := withLink_moves s _ h

@[simp] theorem ladderResync_moves {s₀ : State} (s : State) (x : Exchange) (h : Moves s₀ s) :
    Moves s₀ (s.ladderResync x) := handRecord_moves _ _ (withLink_moves s _ h)

@[simp] theorem settleEnd_moves {s₀ : State} (s : State) (h : Moves s₀ s) :
    Moves s₀ s.settleEnd := by
  unfold settleEnd
  split
  · split
    · exact lineIdle_moves s h
    · split
      · exact lineIdle_moves _ (withLink_moves s _ h)
      · split
        · exact resend_moves s _ h
        · exact ladderResync_moves s _ h
  all_goals exact h

@[simp] theorem resyncEnd_moves {s₀ : State} (s : State) (h : Moves s₀ s) :
    Moves s₀ s.resyncEnd := by
  unfold resyncEnd
  split <;> first | exact h | exact withLink_moves s _ h

@[simp] theorem quietEnd_moves {s₀ : State} (s : State) (h : Moves s₀ s) :
    Moves s₀ s.quietEnd := by
  unfold quietEnd
  split
  · split
    · exact lineSettle_moves s _ h
    · split
      · exact lineSettle_moves s _ h
      · exact resend_moves s _ h
  all_goals exact h

/-! ## The feeder controllers -/

@[simp] theorem onSag_moves {s₀ : State} (s : State) (f : Fid) (g : SagRecord → SagRecord) (h : Moves s₀ s) :
    Moves s₀ (s.onSag f g) := by
  simp (maxDischargeDepth := 30) [onSag, h]

@[simp] theorem openSag_moves {s₀ : State} (s : State) (f : Fid) (r : Phases Nat) (i : Bool) (h : Moves s₀ s) :
    Moves s₀ (s.openSag f r i) := by
  simp (maxDischargeDepth := 30) [openSag, h]

@[simp] theorem closeSag_moves {s₀ : State} (s : State) (f : Fid) (o : SagOutcome) (h : Moves s₀ s) :
    Moves s₀ (s.closeSag f o) := by
  simp only [closeSag]
  split <;> simp (maxDischargeDepth := 30) [h]

@[simp] theorem startQuiet_moves {s₀ : State} (s : State) (f : Fid) (h : Moves s₀ s) :
    Moves s₀ (s.startQuiet f) := by
  simp (maxDischargeDepth := 30) [startQuiet, h]

@[simp] theorem closeEpisode_moves {s₀ : State} (s : State) (f : Fid) (c : CloseCause) (h : Moves s₀ s) :
    Moves s₀ (s.closeEpisode f c) := by
  simp only [closeEpisode]
  split <;> simp (maxDischargeDepth := 30) [h]

@[simp] theorem setState_moves {s₀ : State} (s : State) (f : Fid) (n : FeederState) (r : Reason) (h : Moves s₀ s) :
    Moves s₀ (s.setState f n r) := by
  simp (maxDischargeDepth := 30) [setState, h]

@[simp] theorem stopSource_moves {s₀ : State} (s : State) (f : Fid) (h : Moves s₀ s) :
    Moves s₀ (s.stopSource f) := by
  simp (maxDischargeDepth := 30) [stopSource, h]

@[simp] theorem standDown_moves {s₀ : State} (s : State) (f : Fid) (o : SagOutcome) (c : CloseCause) (h : Moves s₀ s) :
    Moves s₀ (s.standDown f o c) := by
  simp (maxDischargeDepth := 30) [standDown, h]

@[simp] theorem enterFault_moves {s₀ : State} (s : State) (f : Fid) (r : Reason) (h : Moves s₀ s) :
    Moves s₀ (s.enterFault f r) := by
  simp (maxDischargeDepth := 30) [enterFault, h]

@[simp] theorem fault_moves {s₀ : State} (s : State) (f : Fid) (r : Reason) (h : Moves s₀ s) :
    Moves s₀ (s.fault f r) := by
  unfold fault
  split <;> simp (maxDischargeDepth := 30) [h]

@[simp] theorem startSilence_moves {s₀ : State} (s : State) (f : Fid) (h : Moves s₀ s) :
    Moves s₀ (s.startSilence f) := putMonitor_moves s f _ h

@[simp] theorem enterArming_moves {s₀ : State} (s : State) (f : Fid) (r : Reason) (h : Moves s₀ s) :
    Moves s₀ (s.enterArming f r) := by
  simp only [enterArming]
  split <;> simp (maxDischargeDepth := 30) [h]

@[simp] theorem enterOff_moves {s₀ : State} (s : State) (f : Fid) (h : Moves s₀ s) :
    Moves s₀ (s.enterOff f) := by
  simp (maxDischargeDepth := 30) [enterOff, h]

@[simp] theorem placeRelease_moves {s₀ : State} (s : State) (f : Fid) (h : Moves s₀ s) :
    Moves s₀ (s.placeRelease f) := by
  simp (maxDischargeDepth := 30) [placeRelease, h]

@[simp] theorem enterShed_moves {s₀ : State} (s : State) (f : Fid) (r : Reason) (c : ResultCode) (h : Moves s₀ s) :
    Moves s₀ (s.enterShed f r c) := by
  simp (maxDischargeDepth := 30) [enterShed, h]

@[simp] theorem formAutofill_moves {s₀ : State} (s : State) (f : Fid) (h : Moves s₀ s) :
    Moves s₀ (s.formAutofill f).1 := by
  simp only [formAutofill]
  split <;> simp (maxDischargeDepth := 30) [h]

@[simp] theorem placeEngage_moves {s₀ : State} (s : State) (f : Fid) (r : Reference) (o : Source) (a : Option Accepted) (h : Moves s₀ s) :
    Moves s₀ (s.placeEngage f r o a) := by
  simp (maxDischargeDepth := 30) [placeEngage, h]

@[simp] theorem takeRecord_moves {s₀ : State} (s : State) (f : Fid) (r : Accepted) (h : Moves s₀ s) :
    Moves s₀ (s.takeRecord f r) := by
  simp only [takeRecord]
  split <;> simp (maxDischargeDepth := 30) [h]

@[simp] theorem takeChosen_moves {s₀ : State} (s : State) (f : Fid) (r : Option Accepted) (h : Moves s₀ s) :
    Moves s₀ (s.takeChosen f r) := by
  unfold takeChosen
  split <;> simp (maxDischargeDepth := 30) [h]

@[simp] theorem tryEntry_moves {s₀ : State} (s : State) (f : Fid) (r : Reference) (o : Source) (a : Option Accepted) (h : Moves s₀ s) :
    Moves s₀ (s.tryEntry f r o a) := by
  simp only [tryEntry]
  split <;> simp (maxDischargeDepth := 30) [h]

@[simp] theorem rideDecision_moves {s₀ : State} (s : State) (f : Fid) (h : Moves s₀ s) :
    Moves s₀ (s.rideDecision f) := by
  simp only [rideDecision]
  repeat' split
  all_goals simp (maxDischargeDepth := 30) [h]

@[simp] theorem hold_moves {s₀ : State} (s : State) (f : Fid) (h : Moves s₀ s) :
    Moves s₀ (s.hold f) := by
  simp (maxDischargeDepth := 30) [hold, h]

@[simp] theorem chooseReference_moves {s₀ : State} (s : State) (f : Fid) (h : Moves s₀ s) :
    Moves s₀ (s.chooseReference f) := by
  simp only [chooseReference]
  repeat' split
  all_goals simp (maxDischargeDepth := 30) [h]

@[simp] theorem takeOnset_moves {s₀ : State} (s : State) (f : Fid) (v : Verdicts) (h : Moves s₀ s) :
    Moves s₀ (s.takeOnset f v) := by
  simp only [takeOnset]
  repeat' split
  all_goals simp (maxDischargeDepth := 30) [h]

@[simp] theorem actOn_moves {s₀ : State} (s : State) (f : Fid) (v : Verdicts) (h : Moves s₀ s) :
    Moves s₀ (s.actOn f v) := by
  unfold actOn
  split
  · exact h
  · unfold armingBoundary; split <;> simp (maxDischargeDepth := 30) [h]
  · unfold standbyBoundary; repeat' split
    all_goals simp (maxDischargeDepth := 30) [h]
  · simp only [watchBoundary, flagInterruption]; repeat' split
    all_goals simp (maxDischargeDepth := 30) [h]
  · simp only [rideBoundary, flagInterruption]; repeat' split
    all_goals simp (maxDischargeDepth := 30) [h]
  · unfold recoverBoundary; repeat' split
    all_goals simp (maxDischargeDepth := 30) [h]
  · simp only [shedBoundary, flagInterruption]; repeat' split
    all_goals simp (maxDischargeDepth := 30) [h]
  · exact h

@[simp] theorem advanceQuiet_moves {s₀ : State} (s : State) (f : Fid) (h : Moves s₀ s) :
    Moves s₀ (s.advanceQuiet f) := by
  simp (maxDischargeDepth := 30) [advanceQuiet, h]

@[simp] theorem expire_moves {s₀ : State} (s : State) (f : Fid) (h : Moves s₀ s) :
    Moves s₀ (s.expire f) := by
  unfold expire
  dsimp only
  split <;> simp (maxDischargeDepth := 30) [h]

@[simp] theorem drawOrder_moves {s₀ : State} (s : State) (h : Moves s₀ s) :
    Moves s₀ s.drawOrder.1 := h.tail (.draws _)

@[simp] theorem expireThenAct_moves {s₀ : State} (s : State) (f : Fid) (v : Verdicts) (h : Moves s₀ s) :
    Moves s₀ (s.expireThenAct f v) := by
  unfold expireThenAct
  split <;> simp (maxDischargeDepth := 30) [h]

@[simp] theorem actThenExpire_moves {s₀ : State} (s : State) (f : Fid) (v : Verdicts) (h : Moves s₀ s) :
    Moves s₀ (s.actThenExpire f v) := by
  unfold actThenExpire
  dsimp only
  split <;> simp (maxDischargeDepth := 30) [h]

@[simp] theorem verdictsAndQuiet_moves {s₀ : State} (s : State) (f : Fid) (v : Verdicts) (h : Moves s₀ s) :
    Moves s₀ (s.verdictsAndQuiet f v) := by
  have hd : Moves s₀ s.drawOrder.1 := drawOrder_moves s h
  unfold verdictsAndQuiet
  split
  · split
    · generalize s.drawOrder = p at hd ⊢
      dsimp only
      split
      · exact expireThenAct_moves _ f v hd
      · exact actThenExpire_moves _ f v hd
    · exact expireThenAct_moves s f v h
  · exact actOn_moves _ f v (advanceQuiet_moves s f h)

@[simp] theorem boundary_moves {s₀ : State} (s : State) (f : Fid) (v : Verdicts) (h : Moves s₀ s) :
    Moves s₀ (s.boundary f v) := by
  simp only [boundary]
  split <;> simp (maxDischargeDepth := 30) [h]

@[simp] theorem trackerLost_moves {s₀ : State} (s : State) (f : Fid) (h : Moves s₀ s) :
    Moves s₀ (s.trackerLost f) := by
  unfold trackerLost
  split <;> simp (maxDischargeDepth := 30) [h]

@[simp] theorem bridgedGap_moves {s₀ : State} (s : State) (f : Fid) (g : Nat) (h : Moves s₀ s) :
    Moves s₀ (s.bridgedGap f g) := by
  simp (maxDischargeDepth := 30) [bridgedGap, h]

@[simp] theorem engageReply_moves {s₀ : State} (s : State) (f : Fid) (r : Reference) (hc : BitVec 8) (o : Source) (x : Reply) (h : Moves s₀ s) :
    Moves s₀ (s.engageReply f r hc o x) := by
  simp only [engageReply, engageDone, engageNotReady]
  repeat' split
  all_goals simp (maxDischargeDepth := 30) [h]

@[simp] theorem releaseReply_moves {s₀ : State} (s : State) (f : Fid) (x : Reply) (h : Moves s₀ s) :
    Moves s₀ (s.releaseReply f x) := by
  simp only [releaseReply, released]
  repeat' split
  all_goals simp (maxDischargeDepth := 30) [h]

@[simp] theorem setReady_moves {s₀ : State} (s : State) (f : Fid) (b : Bool) (h : Moves s₀ s) :
    Moves s₀ (s.setReady f b) := by
  simp only [setReady]
  split <;> simp (maxDischargeDepth := 30) [h]

@[simp] theorem statusReply_moves {s₀ : State} (s : State) (f : Fid) (x : Reply) (h : Moves s₀ s) :
    Moves s₀ (s.statusReply f x) := by
  simp only [statusReply]
  repeat' split
  all_goals simp (maxDischargeDepth := 30) [h]

@[simp] theorem handReply_moves {s₀ : State} (s : State) (x : Exchange) (r : Reply) (h : Moves s₀ s) :
    Moves s₀ (s.handReply x r) := by
  unfold handReply
  apply asEventOf_moves
  split <;> simp (maxDischargeDepth := 30) [h]

@[simp] theorem ladderFailed_moves {s₀ : State} (s : State) (x : Exchange) (h : Moves s₀ s) :
    Moves s₀ (s.ladderFailed x) := by
  unfold ladderFailed
  apply asEventOf_moves
  simp (maxDischargeDepth := 30) [h]

@[simp] theorem attemptFails_moves {s₀ : State} (s : State) (c : LinkCause) (h : Moves s₀ s) :
    Moves s₀ (s.attemptFails c) := by
  have k := failAttempt_moves s c h
  unfold attemptFails
  split
  · next e => rw [e] at k; exact k
  · next e => rw [e] at k; exact ladderFailed_moves _ _ k

@[simp] theorem replyComplete_moves {s₀ : State} (s : State) (bs : List Byte) (b : Bool) (h : Moves s₀ s) :
    Moves s₀ (s.replyComplete bs b) := by
  simp only [replyComplete]
  repeat' split
  all_goals simp (maxDischargeDepth := 30) [h]

@[simp] theorem responseTimeout_moves {s₀ : State} (s : State) (h : Moves s₀ s) :
    Moves s₀ s.responseTimeout := by
  unfold responseTimeout
  split <;> simp (maxDischargeDepth := 30) [h]

@[simp] theorem replyBreakOff_moves {s₀ : State} (s : State) (h : Moves s₀ s) :
    Moves s₀ s.replyBreakOff := by
  unfold replyBreakOff
  split <;> simp (maxDischargeDepth := 30) [h]

@[simp] theorem takeNotice_moves {s₀ : State} (s : State) (f : Fid) (h : Moves s₀ s) :
    Moves s₀ (s.takeNotice f) := by
  unfold takeNotice
  split
  · exact h
  · apply asEventOf_moves
    dsimp only
    split <;> simp (maxDischargeDepth := 30) [h]

@[simp] theorem clearFeeder_moves {s₀ : State} (s : State) (f : Fid) (h : Moves s₀ s) :
    Moves s₀ (s.clearFeeder f) := by
  unfold clearFeeder
  repeat' split
  all_goals simp (maxDischargeDepth := 30) [h]

@[simp] theorem clearWord_moves {s₀ : State} (s : State) (be : BitVec 4) (v : Word) (h : Moves s₀ s) :
    Moves s₀ (s.clearWord be v) := by
  have k : ∀ (fs : List Fid) (t : State), Moves s₀ t →
      Moves s₀ (fs.foldl (fun s f => if flag v f.val then s.clearFeeder f else s) t) := by
    intro fs
    induction fs with
    | nil => exact fun t ht => ht
    | cons f fs ih =>
      intro t ht
      rw [List.foldl_cons]
      split
      · exact ih _ (clearFeeder_moves t f ht)
      · exact ih t ht
  unfold clearWord
  split
  · exact k _ _ h
  · exact h

/-! ## The sample monitors -/

@[simp] theorem recordSync_moves {s₀ : State} (s : State) (f : Fid) (t : Tracker) (c : SyncCause) (h : Moves s₀ s) :
    Moves s₀ (s.recordSync f t c) := by
  unfold recordSync
  split <;> simp (maxDischargeDepth := 30) [h]

@[simp] theorem reportSync_moves {s₀ : State} (s : State) (f : Fid) (t : Tracker) (h : Moves s₀ s) :
    Moves s₀ (s.reportSync f t) := by
  simp only [reportSync]
  repeat' split
  all_goals simp (maxDischargeDepth := 30) [h]

@[simp] theorem reportJump_moves {s₀ : State} (s : State) (f : Fid) (p : Sync) (j : Option Int) (h : Moves s₀ s) :
    Moves s₀ (s.reportJump f p j) := by
  unfold reportJump
  split
  · exact h
  · dsimp only
    split <;> simp (maxDischargeDepth := 30) [h]

@[simp] theorem evaluate_moves {s₀ : State} (s : State) (f : Fid) (b : Bool) (r : Phases Nat) (h : Moves s₀ s) :
    Moves s₀ (s.evaluate f b r) := by
  simp only [evaluate]
  split <;> simp (maxDischargeDepth := 30) [h]

@[simp] theorem closeHalfCycle_moves {s₀ : State} (s : State) (f : Fid) (a : Accum) (h : Moves s₀ s) :
    Moves s₀ (s.closeHalfCycle f a).1 := by
  simp (maxDischargeDepth := 30) [closeHalfCycle, h]

@[simp] theorem atBoundary_moves {s₀ : State} (s : State) (f : Fid) (t : Tracker) (j : Option Int) (a : Accum) (h : Moves s₀ s) :
    Moves s₀ (s.atBoundary f t j a) := by
  unfold atBoundary
  apply asEventOf_moves
  simp (maxDischargeDepth := 30) [h]

@[simp] theorem onAnswer_moves {s₀ : State} (s : State) (f : Fid) (t : Tracker) (a : TrackAnswer) (j : Option Int) (h : Moves s₀ s) :
    Moves s₀ (s.onAnswer f t a j) := by
  simp only [onAnswer]
  split <;> simp (maxDischargeDepth := 30) [h]

@[simp] theorem accumulate_moves {s₀ : State} (s : State) (f : Fid) (x : Instant) (h : Moves s₀ s) :
    Moves s₀ (s.accumulate f x) := by
  simp (maxDischargeDepth := 30) [accumulate, h]

@[simp] theorem takeInstant_moves {s₀ : State} (s : State) (f : Fid) (x : Instant) (h : Moves s₀ s) :
    Moves s₀ (s.takeInstant f x) := by
  simp (maxDischargeDepth := 30) [takeInstant, h]

@[simp] theorem takeInstants_moves {s₀ : State} (f : Fid) (xs : List Instant) :
    ∀ s : State, Moves s₀ s → Moves s₀ (s.takeInstants f xs) := by
  induction xs with
  | nil => exact fun s h => h
  | cons x xs ih => exact fun s h => ih _ (takeInstant_moves s f x h)

@[simp] theorem sendToSeek_moves {s₀ : State} (s : State) (f : Fid) (c : SyncCause) (h : Moves s₀ s) :
    Moves s₀ (s.sendToSeek f c) := by
  simp only [sendToSeek]
  split <;> simp (maxDischargeDepth := 30) [h]

@[simp] theorem samplerRestart_moves {s₀ : State} (s : State) (f : Fid) (h : Moves s₀ s) :
    Moves s₀ (s.samplerRestart f) := by
  have k : Moves s₀ (s.putMonitor f (s.monitors.get f).clearCounts) := putMonitor_moves s f _ h
  unfold samplerRestart
  dsimp only
  apply asEventOf_moves
  split
  · exact sendToSeek_moves _ f _ k
  · exact trackerLost_moves _ f (sendToSeek_moves _ f _ k)

@[simp] theorem beforeOwn_moves {s₀ : State} (s : State) (f : Fid) (c : GroupClass) (l : Phases Sample) (h : Moves s₀ s) :
    Moves s₀ (s.beforeOwn f c l) := by
  unfold beforeOwn
  split <;> simp (maxDischargeDepth := 30) [h]

@[simp] theorem restartSilence_moves {s₀ : State} (s : State) (f : Fid) (h : Moves s₀ s) :
    Moves s₀ (s.restartSilence f) := by
  unfold restartSilence
  split <;> simp (maxDischargeDepth := 30) [h]

@[simp] theorem completeGroup_moves {s₀ : State} (s : State) (f : Fid) (v : Word) (h : Moves s₀ s) :
    Moves s₀ (s.completeGroup f v) := by
  simp (maxDischargeDepth := 30) [completeGroup, h]

@[simp] theorem sampleWrite_moves {s₀ : State} (s : State) (f : Fid) (p : BitVec 2) (be : BitVec 4) (v : Word) (h : Moves s₀ s) :
    Moves s₀ (s.sampleWrite f p be v) := by
  simp only [sampleWrite]
  split
  · simp (maxDischargeDepth := 30) [h]
  · simp (maxDischargeDepth := 30) [h]
  · simp (maxDischargeDepth := 30) [h]
  · split <;> simp (maxDischargeDepth := 30) [h]

@[simp] theorem silenceExpires_moves {s₀ : State} (s : State) (f : Fid) (h : Moves s₀ s) :
    Moves s₀ (s.silenceExpires f) := by
  unfold silenceExpires
  split
  · exact h
  · apply asEventOf_moves
    simp (maxDischargeDepth := 30) [h]

end State

/-! ## What no move touches, and what every move keeps -/

/-- The word on the port without its dirty mark. -/
def Port.plain : Port → Port
  | .writer w d => .writer { w with changed := false } d
  | .free => .free
  | .upstream => .upstream
  | .loader a d => .loader a d

@[simp] theorem Port.plain_touch (t : WriterTarget) (p : Port) : (p.touch t).plain = p.plain := by
  cases p <;> rfl

/-- The part of the state that no move touches: the queue, the stamp, the pins, the loader, the table, the DC-link
monitor, the bus pass unit but for the dirty mark of the word on the port, and the report writer's indexes, record in
progress and burst. -/
def State.outer (s : State) : State :=
  { State.reset with
    pending := s.pending, stamp := s.stamp, init := s.init, malm := s.malm, loader := s.loader, table := s.table,
    dclink := s.dclink
    bus := { s.bus with port := s.bus.port.plain }
    writer := { Writer.reset with
      inProgress := s.writer.inProgress, producer := s.writer.producer, published := s.writer.published,
      consumer := s.writer.consumer, burst := s.writer.burst } }

namespace State

theorem touchMirror_outer (s : State) (i : Nat) : (s.touchMirror i).outer = s.outer := by
  simp [touchMirror, outer]

theorem note_outer (ws : List Nat) (old s : State) : (State.note ws old s).outer = s.outer := by
  unfold State.note
  generalize (fun i => old.mirrorWord i == s.mirrorWord i) = keep
  have h : ∀ t : State,
      (ws.foldl (fun t i => if old.mirrorWord i == s.mirrorWord i then t else t.touchMirror i) t).outer = t.outer := by
    induction ws with
    | nil => exact fun t => rfl
    | cons i ws ih =>
      intro t
      rw [List.foldl_cons, ih]
      split
      · rfl
      · exact touchMirror_outer t i
  exact h s

theorem raise_outer (s : State) (c : BitVec 8) : (s.raise c).outer = s.outer :=
  (note_outer [6] s { s with writer := { s.writer with summary := s.writer.summary ||| c } }).trans rfl

theorem handRecord_outer (s : State) (b : Body) : (s.handRecord b).outer = s.outer := by
  rw [handRecord, raise_outer]
  split
  · rfl
  · exact raise_outer _ _

theorem settleResults_outer (s before : State) (f : Fid) : (s.settleResults before f).outer = s.outer := by
  simp only [settleResults]
  split <;> rfl

end State

theorem Move.outer {s t : State} (h : Move s t) : t.outer = s.outer := by
  cases h with
  | ctl f c => exact State.note_outer _ _ _
  | tracker f t => exact State.note_outer _ _ _
  | eval f e => exact State.note_outer _ _ _
  | lower f r _ => exact State.note_outer _ _ _
  | grant f d _ => exact State.note_outer _ _ _
  | usable u _ => exact State.note_outer _ _ _
  | notice n => rfl
  | monitor f m => rfl
  | stager f g => rfl
  | result f => simp [State.touchResult, State.outer]
  | record b => exact State.handRecord_outer _ _
  | raise c => exact State.raise_outer _ _
  | settle before f => exact State.settleResults_outer _ _ _
  | link l => rfl
  | draws n => rfl

theorem Moves.outer {s t : State} (h : Moves s t) : t.outer = s.outer :=
  h.keeps (p := fun u => u.outer = s.outer) (fun _ _ m e => m.outer.trans e) rfl

/-- Sum stays within U (R74). -/
theorem Moves.sum_within {s t : State} (h : Moves s t) (hs : s.sum ≤ s.account.usable) :
    t.sum ≤ t.account.usable := by
  refine h.keeps (p := fun u => u.sum ≤ u.account.usable) (fun s t m hs => ?_) hs
  have same : t.entry = s.entry → t.account = s.account → t.sum ≤ t.account.usable := by
    intro he ha
    have : t.sum = s.sum := by
      unfold State.sum
      congr 1
      refine List.map_congr_left fun g _ => ?_
      unfold State.counted
      rw [he, ha]
    rw [this, ha]
    exact hs
  have table : t.table = s.table → t.entry = s.entry := by
    intro h
    funext g
    unfold State.entry
    rw [h]
  cases m with
  | ctl f c => exact same (table (by simp)) (by simp)
  | tracker f t => exact same (table (by simp)) (by simp)
  | eval f e => exact same (table (by simp)) (by simp)
  | lower f r hr =>
    rw [State.putReserved_account]
    exact (State.sum_lower s f r hr).trans hs
  | grant f d hf =>
    refine (State.grant_within s f d hf).trans (Nat.le_of_eq ?_)
    unfold State.grant
    rw [State.putReserved_account]
  | usable u hu =>
    have e : (s.putUsable u).sum = s.sum := by
      unfold State.sum
      congr 1
      refine List.map_congr_left fun g _ => ?_
      unfold State.counted State.entry
      rw [State.putUsable_table, State.putUsable_account]
    rw [e, State.putUsable_account]
    exact hu
  | notice n => exact hs
  | monitor f m => exact hs
  | stager f g => exact hs
  | result f => exact same (table (by simp)) (by simp)
  | record b => exact same (table (by simp)) (by simp)
  | raise c => exact same (table (by simp)) (by simp)
  | settle before f =>
    have h : (s.settleResults before f).table = s.table ∧ (s.settleResults before f).account = s.account := by
      simp only [State.settleResults]
      split <;> exact ⟨rfl, rfl⟩
    exact same (table h.1) h.2
  | link l => exact hs
  | draws n => exact hs

/-- Staging holds at most 16 records (R154, R155). -/
theorem Moves.staging_within {s t : State} (h : Moves s t)
    (hs : s.writer.staging.length ≤ Config.stagingDepth) : t.writer.staging.length ≤ Config.stagingDepth := by
  refine h.keeps (p := fun u => u.writer.staging.length ≤ Config.stagingDepth) (fun s t m hs => ?_) hs
  have record : ∀ b, (s.handRecord b).writer.staging.length ≤ Config.stagingDepth := by
    intro b
    unfold State.handRecord
    rw [State.raise_writer_staging]
    split
    · next hl => simpa [State.enterStaging] using hl
    · simpa using hs
  cases m with
  | ctl f c => simpa using hs
  | tracker f t => simpa using hs
  | eval f e => simpa using hs
  | lower f r _ => simpa using hs
  | grant f d _ => simpa [State.grant] using hs
  | usable u _ => simpa using hs
  | notice n => exact hs
  | monitor f m => exact hs
  | stager f g => exact hs
  | result f => simpa using hs
  | record b => exact record b
  | raise c => simpa using hs
  | settle before f =>
    simp only [State.settleResults]
    split
    · exact hs
    · simp only [State.putStager, List.length_append, List.length_map, List.length_take, List.length_drop]
      omega
  | link l => exact hs
  | draws n => exact hs

/-- ATTN stays as judged (R161). -/
theorem Moves.attn_judged {s t : State} (h : Moves s t) (hs : s.writer.attn = s.attnWanted) :
    t.writer.attn = t.attnWanted := by
  refine h.keeps (p := fun u => u.writer.attn = u.attnWanted) (fun s t m hs => ?_) hs
  have same : t.table = s.table → t.writer.summary = s.writer.summary → t.writer.attn = s.writer.attn →
      t.outer = s.outer → t.writer.attn = t.attnWanted := by
    intro ht hc ha ho
    have hp : t.writer.published = s.writer.published := (congrArg (fun u => u.writer.published) ho :)
    have hk : t.writer.consumer = s.writer.consumer := (congrArg (fun u => u.writer.consumer) ho :)
    rw [ha, hs]
    unfold State.attnWanted
    rw [ht, hc, hp, hk]
  have ho := m.outer
  cases m with
  | ctl f c => exact same (by simp) (by simp) (by simp) ho
  | tracker f t => exact same (by simp) (by simp) (by simp) ho
  | eval f e => exact same (by simp) (by simp) (by simp) ho
  | lower f r _ => exact same (by simp) (by simp) (by simp) ho
  | grant f d _ => exact same (by simp [State.grant]) (by simp [State.grant]) (by simp [State.grant]) ho
  | usable u _ => exact same (by simp) (by simp) (by simp) ho
  | notice n => exact hs
  | monitor f m => exact hs
  | stager f g => exact hs
  | result f => exact same rfl rfl rfl ho
  | record b => rfl
  | raise c => rfl
  | settle before f =>
    have h : (s.settleResults before f).table = s.table ∧
        (s.settleResults before f).writer.summary = s.writer.summary ∧
        (s.settleResults before f).writer.attn = s.writer.attn := by
      simp only [State.settleResults]
      split <;> exact ⟨rfl, rfl, rfl⟩
    exact same h.1 h.2.1 h.2.2 ho
  | link l => exact hs
  | draws n => exact hs

end Sys2Proof.Machine
end

