-- ==== Sys2Proof/Laws/Bus.lean ====
section
/-! SUPPORT. What the end of an event can do (State.finish): nothing but give the port away at a settled port, and
leave the port settled in any state. What the taking of an access leaves on the port, and what the moves of the blocks
leave around them. -/

namespace Sys2Proof.Machine

@[simp] theorem Port.plain_upstream_iff (p : Port) : p.plain = .upstream ↔ p = .upstream := by
  cases p <;> simp [Port.plain]

@[simp] theorem Port.plain_free_iff (p : Port) : p.plain = .free ↔ p = .free := by
  cases p <;> simp [Port.plain]

@[simp] theorem Port.discarded_upstream_iff (p : Port) : p.discarded = .upstream ↔ p = .upstream := by
  cases p <;> simp [Port.discarded]

@[simp] theorem Port.discarded_free_iff (p : Port) : p.discarded = .free ↔ p = .free := by
  cases p <;> simp [Port.discarded]

@[simp] theorem Port.moved_upstream_iff (t : WriterTarget → Bool) (p : Port) :
    p.moved t = .upstream ↔ p = .upstream := by
  cases p <;> simp [Port.moved]

@[simp] theorem Port.moved_free_iff (t : WriterTarget → Bool) (p : Port) : p.moved t = .free ↔ p = .free := by
  cases p <;> simp [Port.moved]

namespace State

/-! ## What surrounds the arbiter in `finish` -/

@[simp] theorem startRecord_offPort (s : State) : s.startRecord.offPort = s.offPort := by
  unfold startRecord; split <;> rfl

@[simp] theorem startRecord_port (s : State) : s.startRecord.bus.port = s.bus.port := by
  unfold startRecord; split <;> rfl

@[simp] theorem setGapTimer_offPort (s : State) : s.setGapTimer.offPort = s.offPort := by
  unfold setGapTimer; split <;> rfl

@[simp] theorem setGapTimer_port (s : State) : s.setGapTimer.bus.port = s.bus.port := by
  unfold setGapTimer; split <;> rfl

@[simp] theorem releaseHold_blocks (s : State) : s.releaseHold.blocks = s.blocks := rfl

@[simp] theorem releaseHold_writer (s : State) : s.releaseHold.writer = s.writer := rfl

@[simp] theorem releaseHold_port (s : State) : s.releaseHold.bus.port = s.bus.port := rfl

@[simp] theorem deferBurst_blocks (s : State) (served : Bool) : (s.deferBurst served).blocks = s.blocks := rfl

@[simp] theorem deferBurst_writer (s : State) (served : Bool) : (s.deferBurst served).writer = s.writer := rfl

@[simp] theorem deferBurst_port (s : State) (served : Bool) : (s.deferBurst served).bus.port = s.bus.port := rfl

theorem finish_offPort_eq (s : State) : s.finish.offPort = (s.arbitrate (s.bus.waiting.length + 3)).offPort := by
  simp [finish]

theorem finish_port_eq (s : State) :
    s.finish.bus.port = (s.arbitrate (s.bus.waiting.length + 3)).bus.port := by
  simp [finish]

/-- Two states with the same `offPort` have the same waiting accesses. -/
theorem waiting_of_offPort {s t : State} (h : s.offPort = t.offPort) : s.bus.waiting = t.bus.waiting :=
  congrArg (fun u => u.bus.waiting) h

/-! ## The judgement of HOLD -/

/-- The state with HOLD, the requests for it and the gap timer as given. -/
def withHold (s : State) (h : Hold) (q : List HoldParty) (g : Option Nat) : State :=
  { s with bus := { s.bus with hold := h, holdQueue := q, gapTimer := g } }

@[simp] theorem withHold_offPort (s : State) (h : Hold) (q : List HoldParty) (g : Option Nat) :
    (s.withHold h q g).offPort = s.offPort := rfl

theorem askBurst_eq (s : State) : ∃ q, s.askBurst = s.withHold s.bus.hold q s.bus.gapTimer := by
  unfold askBurst
  split
  · split
    · exact ⟨s.bus.holdQueue, rfl⟩
    · exact ⟨_, rfl⟩
  · exact ⟨_, rfl⟩

theorem setGapTimer_eq (s : State) : ∃ q g, s.setGapTimer = s.withHold s.bus.hold q g := by
  unfold setGapTimer
  split
  · exact ⟨s.bus.holdQueue, _, rfl⟩
  · exact ⟨_, _, rfl⟩

theorem holdWriter_eq (s : State) :
    s.holdWriter = s ∨
      s.bus.hold = .released ∧ s.burstWanted ∧ ∃ q, s.holdWriter = s.withHold .writer q s.bus.gapTimer := by
  unfold holdWriter
  split
  · next h =>
    simp only [holdGranted, Bool.and_eq_true, decide_eq_true_eq] at h
    exact .inr ⟨h.1.1.1, h.2, _, rfl⟩
  · exact .inl rfl

theorem holdLoader_eq (s : State) :
    s.holdLoader = s ∨
      s.bus.hold = .released ∧ s.loaderWaiting ∧ ∃ q, s.holdLoader = s.withHold .loader q s.bus.gapTimer := by
  unfold holdLoader
  split
  · next h =>
    simp only [holdGranted, Bool.and_eq_true, decide_eq_true_eq] at h
    exact .inr ⟨h.1.1.1, h.2, _, rfl⟩
  · exact .inl rfl

/-- All that the judgement of HOLD can do: HOLD stays, or from released it is asserted for a writer that wants a burst or
for a loader that waits; beside it only the requests and the gap timer change (R149, R150). -/
theorem judgeHold_eq (s : State) :
    ∃ h q g, s.judgeHold = s.withHold h q g ∧
      (h = s.bus.hold ∨ s.bus.hold = .released ∧ (h = .writer ∧ s.burstWanted ∨ h = .loader ∧ s.loaderWaiting)) := by
  obtain ⟨q₁, e₁⟩ := askBurst_eq s
  obtain ⟨q₂, g₂, e₂⟩ := setGapTimer_eq s.askBurst
  have e : s.askBurst.setGapTimer = s.withHold s.bus.hold q₂ g₂ := by rw [e₂, e₁]; rfl
  unfold judgeHold
  rw [e]
  rcases holdWriter_eq (s.withHold s.bus.hold q₂ g₂) with h | ⟨hr, hb, q, h⟩
  · rw [h]
    rcases holdLoader_eq (s.withHold s.bus.hold q₂ g₂) with k | ⟨kr, kl, q, k⟩
    · exact ⟨_, _, _, k, .inl rfl⟩
    · exact ⟨_, _, _, k, .inr ⟨kr, .inr ⟨rfl, kl⟩⟩⟩
  · have hq : (s.withHold s.bus.hold q₂ g₂).holdWriter = s.withHold .writer q g₂ := h
    rw [hq]
    rcases holdLoader_eq (s.withHold .writer q g₂) with k | ⟨kr, -⟩
    · exact ⟨_, _, _, k, .inr ⟨hr, .inl ⟨rfl, hb⟩⟩⟩
    · have kr' : Hold.writer = .released := kr
      cases kr'

@[simp] theorem judgeHold_offPort (s : State) : s.judgeHold.offPort = s.offPort := by
  obtain ⟨h, q, g, e, -⟩ := judgeHold_eq s
  rw [e, withHold_offPort]

@[simp] theorem judgeHold_port (s : State) : s.judgeHold.bus.port = s.bus.port := by
  obtain ⟨h, q, g, e, -⟩ := judgeHold_eq s
  rw [e]; rfl

/-- What goes with HOLD is kept by its judgement. -/
theorem judgeHold_holdInv (s : State) (hi : s.holdInv) : s.judgeHold.holdInv := by
  obtain ⟨h, q, g, e, hc⟩ := judgeHold_eq s
  rw [e]
  rcases hc with rfl | ⟨hr, -⟩
  · exact hi
  · refine ⟨fun hb => ?_, fun hw => ?_, fun hd => ?_⟩
    · have := hi.1 hb; rw [hr] at this; cases this
    · have := hi.2.1 hw; rw [hr] at this; cases this
    · rcases hi.2.2 hd with ht | ht
      · exact .inl ht
      · rw [hr] at ht; cases ht

/-! ## The arbiter -/

theorem arbitrate_succ (n : Nat) (s : State) :
    s.arbitrate (n + 1) = s.judgeHold.givePort fun t => t.arbitrate n := rfl

theorem arbitrate_busy (n : Nat) (s : State) (h : s.bus.port ≠ .free) : s.arbitrate (n + 1) = s.judgeHold := by
  rw [arbitrate_succ, givePort, if_neg (by simpa using h)]

/-- The turn of the arbiter at a FREE port with HOLD released and no access waiting. -/
theorem givePort_gap (again : State → State) (s : State) (h : s.bus.port = .free) (hh : s.bus.hold = .released)
    (hw : s.bus.waiting = []) : s.givePort again = s.gapChoice := by
  rw [givePort, if_pos h, hh, hw]

/-- The turn of the arbiter at a FREE port with HOLD released and an access waiting. -/
theorem givePort_access (again : State → State) (s : State) (x : Access) (rest : List Access)
    (h : s.bus.port = .free) (hh : s.bus.hold = .released) (hw : s.bus.waiting = x :: rest) :
    s.givePort again = again (takeAccess { s with bus := { s.bus with waiting := rest } } x) := by
  rw [givePort, if_pos h, hh, hw]

/-- The turn of the arbiter at a FREE port with HOLD asserted for the writer and a word of the burst to send. -/
theorem givePort_burst (again : State → State) (s : State) (w : WriterWord) (writer : Writer)
    (h : s.bus.port = .free) (hh : s.bus.hold = .writer) (hw : s.startRecord.burstWord = some (w, writer)) :
    s.givePort again = sendWriter { s with writer := writer } w := by
  rw [givePort, if_pos h, hh, hw]

/-- The turn of the arbiter at a FREE port with HOLD asserted for the loader's read. -/
theorem givePort_read (again : State → State) (s : State) (r : TableRead) (h : s.bus.port = .free)
    (hh : s.bus.hold = .loader) (hr : s.loader.read = some r) (hw : s.bus.holdWithdrawn = false) :
    s.givePort again = s.sendLoader r := by
  rw [givePort, if_pos h, hh, hr, hw]
  rfl

theorem gapChoice_offPort (s : State) : s.gapChoice.offPort = s.offPort := by
  unfold gapChoice
  split
  · rfl
  · split
    · exact startRecord_offPort s
    · rfl

/-- A writer that wants a burst has a record to start with. -/
theorem inProgress_of_burstWanted (s : State) (h : s.burstWanted) : ∃ p, s.startRecord.writer.inProgress = some p := by
  simp only [burstWanted, Bool.and_eq_true, decide_eq_true_eq] at h
  have hne : s.writer.staging.isEmpty = false := by
    cases hs : s.writer.staging with
    | nil => rw [hs] at h; exact absurd h.1 (by decide)
    | cons r rs => rfl
  unfold startRecord
  cases hp : s.writer.inProgress with
  | some p => exact ⟨p, by simp [hp]⟩
  | none => exact ⟨⟨0, false⟩, by simp [hne, h.2]⟩

/-- The burst that begins where none stands changes only what `offPort` sets aside. -/
theorem burstWord_begins (s : State) (hb : s.writer.burst = none) (h : s.burstWanted) :
    ∃ w writer, s.startRecord.burstWord = some (w, writer) ∧
      (sendWriter { s.startRecord with writer := writer } w).offPort = s.offPort := by
  obtain ⟨p, hp⟩ := inProgress_of_burstWanted s h
  have hb' : s.startRecord.writer.burst = none := by
    unfold startRecord
    split <;> exact hb
  refine ⟨s.startRecord.wordOfRecord s.startRecord.slotAddr 0 true,
    { s.startRecord.writer with
      inProgress := some { p with words := 0 }, burst := some ⟨s.startRecord.slotAddr, false, false⟩ }, ?_, ?_⟩
  · unfold burstWord
    rw [hb', hp]
    rfl
  · rw [← startRecord_offPort s]
    rfl

/-- At a FREE port with HOLD released and no access waiting, the arbiter rearranges only what `offPort` sets aside. -/
theorem arbitrate_idle (n : Nat) (s : State) (h : s.bus.port = .free) (hh : s.bus.hold = .released)
    (hw : s.bus.waiting = []) (hi : s.holdInv) : (s.arbitrate (n + 1)).offPort = s.offPort := by
  have hb : s.writer.burst = none := by
    by_contra hb
    have := hi.1 hb
    rw [hh] at this
    cases this
  obtain ⟨h', q, g, e, hc⟩ := judgeHold_eq s
  rw [hh] at hc
  rw [arbitrate_succ, e]
  rcases hc with rfl | ⟨-, ⟨rfl, hburst⟩ | ⟨rfl, hl⟩⟩
  · rw [givePort_gap _ (s.withHold .released q g) h rfl hw]
    exact gapChoice_offPort _
  · obtain ⟨w, writer, ew, eo⟩ := burstWord_begins (s.withHold .writer q g) hb hburst
    rw [givePort_burst _ (s.withHold .writer q g) w writer h rfl ew]
    have e2 : (sendWriter { s.withHold .writer q g with writer := writer } w).offPort
        = (sendWriter { (s.withHold .writer q g).startRecord with writer := writer } w).offPort := by
      unfold startRecord
      split <;> rfl
    exact e2.trans eo
  · have hwd : s.bus.holdWithdrawn = false := by
      cases hx : s.bus.holdWithdrawn with
      | false => rfl
      | true => have := hi.2.1 hx; rw [hh] at this; cases this
    cases hr : s.loader.read with
    | some r => rw [givePort_read _ (s.withHold .loader q g) r h rfl hr hwd]; rfl
    | none => simp [loaderWaiting, hr] at hl

/-- At a settled port the end of an event changes nothing but what `offPort` sets aside. -/
theorem finish_settled (s : State) (h : s.settled) : s.finish.offPort = s.offPort := by
  rw [finish_offPort_eq]
  by_cases hp : s.bus.port = .free
  · exact arbitrate_idle _ s hp (h.1 hp).1 (h.1 hp).2 h.2.1
  · rw [arbitrate_busy _ s hp, judgeHold_offPort]

theorem finish_busy (s : State) (h : s.bus.port ≠ .free) :
    s.finish.offPort = s.offPort ∧ s.finish.bus.port = s.bus.port := by
  rw [finish_offPort_eq, finish_port_eq, arbitrate_busy _ s h]
  exact ⟨judgeHold_offPort s, judgeHold_port s⟩

/-! ## Taking an access -/

/-- The part of the bus pass unit that a hand-off to a block's controller cannot change (`outer`), read from it. -/
theorem port_of_outer {s t : State} (h : t.outer = s.outer) :
    (t.bus.port = .upstream ↔ s.bus.port = .upstream) ∧ (t.bus.port = .free ↔ s.bus.port = .free) ∧
      t.bus.hold = s.bus.hold ∧ t.bus.waiting = s.bus.waiting ∧ t.bus.current = s.bus.current := by
  have hb : t.outer.bus = s.outer.bus := congrArg State.bus h
  have hp : t.bus.port.plain = s.bus.port.plain := congrArg Bus.port hb
  have field : ∀ {α : Type} (g : State → α), g t.outer = g s.outer := fun g => congrArg g h
  refine ⟨?_, ?_, field (fun u => u.bus.hold), field (fun u => u.bus.waiting), field (fun u => u.bus.current)⟩
  · rw [← Port.plain_upstream_iff, hp, Port.plain_upstream_iff]
  · rw [← Port.plain_free_iff, hp, Port.plain_free_iff]

/-- What every hand-off keeps of the bus pass unit. -/
def KeepsBus (s t : State) : Prop :=
  (t.bus.port = .upstream ↔ s.bus.port = .upstream) ∧ (t.bus.port = .free ↔ s.bus.port = .free) ∧
    (t.bus.hold = s.bus.hold ∨ t.bus.hold = .released) ∧ t.bus.waiting = s.bus.waiting ∧
    t.bus.current = s.bus.current

theorem KeepsBus.of_outer {s t : State} (h : t.outer = s.outer) : KeepsBus s t :=
  let ⟨a, b, c, d, e⟩ := port_of_outer h
  ⟨a, b, .inl c, d, e⟩

theorem KeepsBus.refl (s : State) : KeepsBus s s := ⟨Iff.rfl, Iff.rfl, .inl rfl, rfl, rfl⟩

theorem KeepsBus.trans {s t u : State} (h : KeepsBus s t) (k : KeepsBus t u) : KeepsBus s u := by
  obtain ⟨a, b, c, d, e⟩ := h
  obtain ⟨a', b', c', d', e'⟩ := k
  refine ⟨a'.trans a, b'.trans b, ?_, d'.trans d, e'.trans e⟩
  rcases c' with c' | c'
  · rcases c with c | c
    · exact .inl (c'.trans c)
    · exact .inr (c'.trans c)
  · exact .inr c'

theorem note_keepsBus (ws : List Nat) (old s : State) : KeepsBus s (State.note ws old s) :=
  .of_outer (note_outer ws old s)

theorem KeepsBus.of_moves {s t : State} (h : Moves s t) : KeepsBus s t := .of_outer h.outer

theorem putSummary_keepsBus (s : State) (c : BitVec 8) : KeepsBus s (s.putSummary c) :=
  (KeepsBus.refl s).trans (note_keepsBus [6] s _)

theorem putLoader_keepsBus (s : State) (l : Loader) : KeepsBus s (s.putLoader l) :=
  (KeepsBus.refl s).trans (note_keepsBus [0, 1] s { s with loader := l })

theorem putProducer_keepsBus (s : State) (p : BitVec 16) : KeepsBus s (s.putProducer p) :=
  (KeepsBus.refl s).trans (note_keepsBus _ s _)

theorem putConsumer_keepsBus (s : State) (p : BitVec 16) : KeepsBus s (s.putConsumer p) :=
  (KeepsBus.refl s).trans (note_keepsBus _ s _)

theorem abandonRead_keepsBus (s : State) : KeepsBus s s.abandonRead := by
  refine ⟨?_, ?_, .inl rfl, rfl, rfl⟩ <;> (simp only [abandonRead]; split <;> simp)

theorem startReload_keepsBus (s : State) : KeepsBus s s.startReload := by
  unfold startReload
  split
  · exact (putLoader_keepsBus _ _).trans (putLoader_keepsBus _ _)
  · exact .refl s

theorem requestReload_keepsBus (s : State) : KeepsBus s s.requestReload := by
  unfold requestReload
  split
  · exact putLoader_keepsBus _ _
  · exact .refl s
  · exact (abandonRead_keepsBus s).trans (putLoader_keepsBus _ _)
  · exact putLoader_keepsBus _ _

theorem reloadWord_keepsBus (s : State) (be : BitVec 4) (v : Word) : KeepsBus s (s.reloadWord be v) := by
  unfold reloadWord
  split
  · exact .refl s
  · exact (requestReload_keepsBus s).trans (startReload_keepsBus _)

theorem consumedWord_keepsBus (s : State) (be : BitVec 4) (v : Word) : KeepsBus s (s.consumedWord be v) := by
  unfold consumedWord
  split
  · exact .of_moves (handRecord_moves _ _ .refl)
  · split
    · exact putConsumer_keepsBus _ _
    · exact .of_moves (handRecord_moves _ _ .refl)

theorem controlTake_keepsBus (s : State) (o : Word) (be : BitVec 4) (v : Word) :
    KeepsBus s (s.controlTake o be v) := by
  unfold controlTake
  split
  · exact .of_moves (clearWord_moves _ _ _ .refl)
  · exact reloadWord_keepsBus _ _ _
  · exact consumedWord_keepsBus _ _ _
  · exact putSummary_keepsBus _ _
  · exact .refl s

theorem dclinkTake_keepsBus (s : State) (be : BitVec 4) (v : Word) : KeepsBus s (s.dclinkTake be v) := by
  unfold dclinkTake
  dsimp only
  split
  · exact .refl s
  · split
    · exact KeepsBus.trans (t := { s with dclink := ⟨some (v.extractLsb' 16 16), 0⟩ }) (.refl s)
        (.of_moves (updateUsable_moves _ _ .refl))
    · exact .refl s

theorem windowTake_keepsBus (s : State) (w : WindowEntry) (x : Access) : KeepsBus s (s.windowTake w x) := by
  unfold windowTake
  split
  · exact .of_moves (sampleWrite_moves _ _ _ _ _ .refl)
  · exact dclinkTake_keepsBus _ _ _
  · exact .of_moves (stagerWrite_moves _ _ _ _ _ .refl)
  · exact controlTake_keepsBus _ _ _ _
  · exact .refl s
  · exact .refl s
  · exact .refl s

theorem fullReset_keepsBus (s : State) : KeepsBus s s.fullReset := by
  refine ⟨?_, ?_, .inr rfl, rfl, rfl⟩ <;> simp [fullReset]

theorem restart_keepsBus (s : State) : KeepsBus s s.restart := by
  unfold restart
  dsimp only
  split
  · exact fullReset_keepsBus s
  · exact (fullReset_keepsBus s).trans (putLoader_keepsBus _ _)

theorem loadRequest_keepsBus (s : State) : KeepsBus s s.loadRequest := by
  unfold loadRequest
  split
  · exact (putLoader_keepsBus _ _).trans (putLoader_keepsBus _ _)
  · exact .refl s

theorem startBlockTake_keepsBus (s : State) (a : Word) (be : BitVec 4) (v : Word) :
    KeepsBus s (s.startBlockTake a be v) := by
  unfold startBlockTake
  split
  · split
    · exact restart_keepsBus s
    · split
      · exact loadRequest_keepsBus s
      · exact .refl s
  · exact .refl s

/-- A hand-off never frees the port, asserts HOLD, or drops a waiting access. -/
theorem handOff_keepsBus (s : State) (c : AccessClass) (x : Access) : KeepsBus s (s.handOff c x) := by
  unfold handOff
  split
  · split
    · exact startBlockTake_keepsBus _ _ _ _
    · exact .refl s
  · exact .refl s
  · exact windowTake_keepsBus _ _ _

/-- A permitted access that is taken is on the port (R148). -/
theorem takeAccess_permitted (s : State) (x : Access) (h : accessPermitted (s.classify x.addr) x) :
    (s.takeAccess x).bus.port = .upstream ∧ (s.takeAccess x).bus.waiting = s.bus.waiting := by
  have hc : (State.classify { s with bus := { s.bus with turnOwed := false, writerDeferred := false } } x.addr)
      = s.classify x.addr := rfl
  unfold takeAccess
  dsimp only
  rw [hc, if_pos h]
  unfold admitAccess
  dsimp only
  split
  · exact ⟨(handOff_keepsBus _ _ x).1.2 rfl, (handOff_keepsBus _ _ x).2.2.2.1⟩
  · exact ⟨rfl, rfl⟩

/-- A refused access leaves the port FREE (R144). -/
theorem takeAccess_refused (s : State) (x : Access) (h : ¬ accessPermitted (s.classify x.addr) x) :
    KeepsBus s (s.takeAccess x) := by
  have hc : (State.classify { s with bus := { s.bus with turnOwed := false, writerDeferred := false } } x.addr)
      = s.classify x.addr := rfl
  unfold takeAccess
  dsimp only
  rw [hc, if_neg h]
  unfold refuse
  dsimp only
  exact KeepsBus.trans (t := { s with bus := { s.bus with
      turnOwed := false, writerDeferred := false, answer := some ⟨x.tag, true, none⟩ } })
    ⟨Iff.rfl, Iff.rfl, .inl rfl, rfl, rfl⟩ (.of_moves (handRecord_moves _ _ .refl))

/-- What goes with HOLD is kept where `outer` is. -/
theorem holdInv_of_outer {s t : State} (h : t.outer = s.outer) (hs : s.holdInv) : t.holdInv := by
  have field : ∀ {α : Type} (g : State → α), g t.outer = g s.outer := fun g => congrArg g h
  have hb : t.writer.burst = s.writer.burst := field fun u => u.writer.burst
  have hh : t.bus.hold = s.bus.hold := field fun u => u.bus.hold
  have hw : t.bus.holdWithdrawn = s.bus.holdWithdrawn := field fun u => u.bus.holdWithdrawn
  have hd : t.bus.writerDeferred = s.bus.writerDeferred := field fun u => u.bus.writerDeferred
  have ht : t.bus.turnOwed = s.bus.turnOwed := field fun u => u.bus.turnOwed
  unfold holdInv
  rw [hb, hh, hw, hd, ht]
  exact hs

/-- A refused access takes nothing from what goes with HOLD. -/
theorem takeAccess_refused_holdInv (s : State) (x : Access) (h : ¬ accessPermitted (s.classify x.addr) x)
    (hi : s.holdInv) : (s.takeAccess x).holdInv := by
  have hc : (State.classify { s with bus := { s.bus with turnOwed := false, writerDeferred := false } } x.addr)
      = s.classify x.addr := rfl
  unfold takeAccess
  dsimp only
  rw [hc, if_neg h]
  exact holdInv_of_outer (handRecord_moves _ _ .refl).outer ⟨hi.1, hi.2.1, fun h => nomatch h⟩

/-- The judgement of HOLD does not depend on the accesses that wait. -/
theorem judgeHold_waiting (s : State) (xs : List Access) :
    judgeHold { s with bus := { s.bus with waiting := xs } } =
      { s.judgeHold with bus := { s.judgeHold.bus with waiting := xs } } := by
  have hq : ∀ (s : State), askBurst { s with bus := { s.bus with waiting := xs } } =
      { s.askBurst with bus := { s.askBurst.bus with waiting := xs } } := by
    intro s
    unfold askBurst
    change (if s.burstWanted then (if s.writerAsked || s.bus.writerDeferred then _ else _) else _) = _
    split
    · split <;> rfl
    · rfl
  have hg : ∀ (s : State), setGapTimer { s with bus := { s.bus with waiting := xs } } =
      { s.setGapTimer with bus := { s.setGapTimer.bus with waiting := xs } } := by
    intro s
    unfold setGapTimer
    change (if s.loaderWaiting then _ else _) = _
    split <;> rfl
  have hw : ∀ (s : State), holdWriter { s with bus := { s.bus with waiting := xs } } =
      { s.holdWriter with bus := { s.holdWriter.bus with waiting := xs } } := by
    intro s
    unfold holdWriter
    change (if s.holdGranted .writer && s.burstWanted then _ else _) = _
    split <;> rfl
  have hl : ∀ (s : State), holdLoader { s with bus := { s.bus with waiting := xs } } =
      { s.holdLoader with bus := { s.holdLoader.bus with waiting := xs } } := by
    intro s
    unfold holdLoader
    change (if s.holdGranted .loader && s.loaderWaiting then _ else _) = _
    split <;> rfl
  unfold judgeHold
  rw [hq, hg, hw, hl]

/-- An access presented at a port that takes it at once is taken in the same event, and nothing else is. -/
theorem present_taken (s : State) (x : Access) (h : s.takesAtOnce) :
    (s.present x).finish.offPort = (s.takeAccess x).offPort ∧
      (accessPermitted (s.classify x.addr) x → (s.present x).finish.bus.port = .upstream) := by
  obtain ⟨hp, hs, hi, hj⟩ := h
  obtain ⟨hh, hw⟩ := hs hp
  have hpw : (s.present x).bus.waiting = [x] := by simp [present, hw]
  have hjx : (s.present x).judgeHold = s.present x := by
    have := judgeHold_waiting s (s.bus.waiting ++ [x])
    rw [hj] at this
    exact this
  have hrest : { s.present x with bus := { (s.present x).bus with waiting := [] } } = s := by
    simp only [present]
    rw [← hw]
  have e : (s.present x).arbitrate (3 + 1) = (s.takeAccess x).arbitrate 3 := by
    rw [arbitrate_succ, hjx, givePort_access _ (s.present x) x [] hp hh hpw, hrest]
  rw [finish_offPort_eq, finish_port_eq, hpw]
  change ((s.present x).arbitrate (3 + 1)).offPort = _ ∧ (_ → ((s.present x).arbitrate (3 + 1)).bus.port = _)
  rw [e]
  by_cases hperm : accessPermitted (s.classify x.addr) x
  · obtain ⟨hup, -⟩ := takeAccess_permitted s x hperm
    have hb : (s.takeAccess x).bus.port ≠ .free := by rw [hup]; exact fun h => nomatch h
    rw [arbitrate_busy _ _ hb]
    exact ⟨judgeHold_offPort _, fun _ => (judgeHold_port _).trans hup⟩
  · obtain ⟨-, hf, hho, hwa, -⟩ := takeAccess_refused s x hperm
    have hho' : (s.takeAccess x).bus.hold = .released := by
      rcases hho with h | h
      · exact h.trans hh
      · exact h
    exact ⟨arbitrate_idle 2 _ (hf.2 hp) hho' (hwa.trans hw) (takeAccess_refused_holdInv s x hperm hi),
      fun h => absurd h hperm⟩

/-- An access presented while the port carries a word waits (R148). -/
theorem present_waits (s : State) (x : Access) (h : s.bus.port ≠ .free) :
    (s.present x).finish.offPort = (s.present x).offPort ∧ (s.present x).finish.bus.port = s.bus.port :=
  finish_busy (s.present x) h

/-- A permitted access that is taken: the state `taken`, with a write handed to its owner (R146). -/
theorem takeAccess_eq (s : State) (x : Access) (h : accessPermitted (s.classify x.addr) x) :
    s.takeAccess x = if x.write then (s.taken x).handOff (s.classify x.addr) x else s.taken x := by
  have hc : (State.classify { s with bus := { s.bus with turnOwed := false, writerDeferred := false } } x.addr)
      = s.classify x.addr := rfl
  unfold takeAccess
  dsimp only
  rw [hc, if_pos h]
  rfl

end State

/-- Every upstream-access command presents its access. -/
theorem exec_access (c : Instr) (x : Access) (s : State) (h : accessOf c = some x) :
    exec c s = .next (s.present x).finish := by
  cases c <;> first | (injection h with h; subst h; rfl) | exact absurd h (by simp [accessOf])

/-- A permitted access command at a port that takes it at once. -/
theorem completes_access (c : Instr) (x : Access) (s : State) (h : accessOf c = some x) (ht : s.takesAtOnce)
    (hp : accessPermitted (s.classify x.addr) x) :
    Completes c s fun t => t.offPort = (s.takeAccess x).offPort ∧ t.bus.port = .upstream :=
  ⟨_, exec_access c x s h, (State.present_taken s x ht).1, (State.present_taken s x ht).2 hp⟩

/-- An event whose effect leaves a settled port changes only that, and what `offPort` sets aside. -/
theorem finish_settled_offPort (s t : State) (h : t.settled) (e : t.offPort = s.offPort) :
    t.finish.offPort = s.offPort := (State.finish_settled t h).trans e

/-- The moves of the blocks leave what is outside them alone. -/
theorem Moves.surroundings {s t : State} (h : Moves s t) : sameSurroundings s t := by
  have field : ∀ {α : Type} (g : State → α), g t.outer = g s.outer := fun g => congrArg g h.outer
  exact ⟨field (fun u => u.pending), field (fun u => u.stamp), field (fun u => u.init), field (fun u => u.loader),
    field (fun u => u.table), field (fun u => u.dclink),
    field (fun u => { u.bus with port := .free, hold := .released, holdQueue := [], gapTimer := none }),
    field (fun u => u.writer.producer), field (fun u => u.writer.published), field (fun u => u.writer.consumer)⟩

/-- A state that differs at the port alone has the same surroundings. -/
theorem sameSurroundings_of_offPort {s t u : State} (h : sameSurroundings s t) (e : u.offPort = t.offPort) :
    sameSurroundings s u := by
  have field : ∀ {α : Type} (g : State → α), g u.offPort = g t.offPort := fun g => congrArg g e
  obtain ⟨pending, stamp, init, loader, table, dclink, bus, producer, published, consumer⟩ := h
  exact ⟨(field (fun u => u.pending)).trans pending, (field (fun u => u.stamp)).trans stamp,
    (field (fun u => u.init)).trans init, (field (fun u => u.loader)).trans loader,
    (field (fun u => u.table)).trans table, (field (fun u => u.dclink)).trans dclink, (congrArg State.bus e).trans bus,
    (field (fun u => u.writer.producer)).trans producer, (field (fun u => u.writer.published)).trans published,
    (field (fun u => u.writer.consumer)).trans consumer⟩

end Sys2Proof.Machine
end

