-- ==== Sys2Proof/Laws/Dirty.lean ====
section
/-! SUPPORT. The dirty marks of the mirror (R162): what the feeders' side of the part does never cleans a mark, and marks
each word whose value it changes. Said once for every move, and so for every operation made of moves. -/

namespace Sys2Proof.Machine

/-- From `s` to `t` no mirror word is cleaned, and one whose value is another is dirty. -/
structure MarksUp (s t : State) : Prop where
  length : t.writer.mirrorDirty.length = s.writer.mirrorDirty.length
  stays : ∀ i, s.writer.mirrorDirty.getD i false = true → t.writer.mirrorDirty.getD i false = true
  changed : ∀ i < 40, i < s.writer.mirrorDirty.length → t.mirrorWord i ≠ s.mirrorWord i →
    t.writer.mirrorDirty.getD i false = true

/-- Nothing the mirror shows has changed, and no mark. -/
theorem MarksUp.of_same {s t : State} (hm : t.writer.mirrorDirty = s.writer.mirrorDirty)
    (hw : ∀ i < 40, t.mirrorWord i = s.mirrorWord i) : MarksUp s t :=
  ⟨by rw [hm], fun i h => by rwa [hm], fun i hi _ h => absurd (hw i hi) h⟩

theorem MarksUp.refl (s : State) : MarksUp s s := .of_same rfl fun _ _ => rfl

theorem MarksUp.trans {s t u : State} (h : MarksUp s t) (k : MarksUp t u) : MarksUp s u := by
  refine ⟨k.length.trans h.length, fun i hi => k.stays i (h.stays i hi), fun i hi hl hne => ?_⟩
  by_cases he : t.mirrorWord i = s.mirrorWord i
  · exact k.changed i hi (h.length ▸ hl) (he ▸ hne)
  · exact k.stays i (h.changed i hi hl he)

namespace State

@[simp] theorem touchMirror_mirrorWord (s : State) (i j : Nat) : (s.touchMirror i).mirrorWord j = s.mirrorWord j := rfl

@[simp] theorem touchMirror_length (s : State) (i : Nat) :
    (s.touchMirror i).writer.mirrorDirty.length = s.writer.mirrorDirty.length := by
  simp [touchMirror]

theorem touchMirror_stays (s : State) (i j : Nat) (h : s.writer.mirrorDirty.getD j false = true) :
    (s.touchMirror i).writer.mirrorDirty.getD j false = true := by
  simp only [touchMirror, List.getD_eq_getElem?_getD, List.getElem?_set] at h ⊢
  split
  · split
    · rfl
    · next hij hl => subst hij; simp [List.getElem?_eq_none (Nat.le_of_not_lt hl)] at h
  · exact h

theorem touchMirror_marks (s : State) (i : Nat) (h : i < s.writer.mirrorDirty.length) :
    (s.touchMirror i).writer.mirrorDirty.getD i false = true := by
  simp [touchMirror, h]

/-- Marking the words `ws` where they differ: what a fold of touchMirror does. -/
theorem note_marksUp {old new : State} (ws : List Nat) (hm : new.writer.mirrorDirty = old.writer.mirrorDirty)
    (hw : ∀ i < 40, i ∉ ws → new.mirrorWord i = old.mirrorWord i) : MarksUp old (State.note ws old new) := by
  unfold State.note
  have h : ∀ (us : List Nat) (t : State),
      (us.foldl (fun t i => if old.mirrorWord i == new.mirrorWord i then t else t.touchMirror i) t).mirrorWord =
          t.mirrorWord ∧
        (us.foldl (fun t i => if old.mirrorWord i == new.mirrorWord i then t else t.touchMirror i)
            t).writer.mirrorDirty.length = t.writer.mirrorDirty.length ∧
        (∀ j, t.writer.mirrorDirty.getD j false = true →
          (us.foldl (fun t i => if old.mirrorWord i == new.mirrorWord i then t else t.touchMirror i)
            t).writer.mirrorDirty.getD j false = true) ∧
        ∀ j ∈ us, j < t.writer.mirrorDirty.length → old.mirrorWord j ≠ new.mirrorWord j →
          (us.foldl (fun t i => if old.mirrorWord i == new.mirrorWord i then t else t.touchMirror i)
            t).writer.mirrorDirty.getD j false = true := by
    intro us
    induction us with
    | nil => exact fun t => ⟨rfl, rfl, fun _ h => h, fun j hj => absurd hj (by simp)⟩
    | cons i us ih =>
      intro t
      rw [List.foldl_cons]
      by_cases he : old.mirrorWord i = new.mirrorWord i
      · rw [if_pos (by simpa using he)]
        obtain ⟨a, b, c, d⟩ := ih t
        refine ⟨a, b, c, fun j hj hl hne => ?_⟩
        rcases List.mem_cons.1 hj with rfl | hj
        · exact absurd he hne
        · exact d j hj hl hne
      · rw [if_neg (by simpa using he)]
        obtain ⟨a, b, c, d⟩ := ih (t.touchMirror i)
        refine ⟨a, b.trans (touchMirror_length t i), fun j hj => c j (touchMirror_stays t i j hj), fun j hj hl hne => ?_⟩
        rcases List.mem_cons.1 hj with rfl | hj
        · exact c j (touchMirror_marks t j hl)
        · exact d j hj (by rwa [touchMirror_length]) hne
  obtain ⟨a, b, c, d⟩ := h ws new
  refine ⟨b.trans (by rw [hm]), fun i hi => c i (by rwa [hm]), fun i hi hl hne => ?_⟩
  rw [a] at hne
  by_cases hi' : i ∈ ws
  · exact d i hi' (by rwa [hm]) (Ne.symm hne)
  · exact absurd (hw i hi hi') hne

/-! ## The words of the mirror -/

/-- The word of feeder `f` at place `k`. -/
theorem mirrorWord_feederWord (s : State) (f : Fid) (k : Nat) (hk : k < 4) :
    s.mirrorWord (feederWord f k) = s.feederMirrorWord f k := by
  have e : feederWord f k = (4 * f.val + k) + 8 := by unfold feederWord; omega
  have d : (4 * f.val + k) / 4 = f.val := by omega
  have m : (4 * f.val + k) % 4 = k := by omega
  have w : s.mirrorWord ((4 * f.val + k) + 8) =
      s.feederMirrorWord (Fin.ofNat 8 ((4 * f.val + k) / 4)) ((4 * f.val + k) % 4) := rfl
  rw [e, w, d, m]
  congr 1
  exact Fin.ext (Nat.mod_eq_of_lt f.isLt)

/-- Every word is a global one or a feeder's. -/
theorem word_cases (i : Nat) (h : i < 40) : i < 8 ∨ ∃ (f : Fid) (k : Nat), k < 4 ∧ i = feederWord f k := by
  by_cases hi : i < 8
  · exact .inl hi
  · refine .inr ⟨⟨(i - 8) / 4, by omega⟩, (i - 8) % 4, Nat.mod_lt _ (by decide), ?_⟩
    simp only [feederWord]
    omega

/-- Two states show the same but for the words `ws`: the eight global words and each feeder's four, looked at apart. -/
theorem same_but {s t : State} (ws : List Nat) (hg : ∀ i < 8, i ∉ ws → t.mirrorWord i = s.mirrorWord i)
    (hf : ∀ f, ∀ k < 4, feederWord f k ∉ ws → t.feederMirrorWord f k = s.feederMirrorWord f k) :
    ∀ i < 40, i ∉ ws → t.mirrorWord i = s.mirrorWord i := by
  intro i hi hn
  rcases word_cases i hi with h | ⟨f, k, hk, rfl⟩
  · exact hg i h hn
  · rw [mirrorWord_feederWord _ _ _ hk, mirrorWord_feederWord _ _ _ hk]
    exact hf f k hk hn

/-! ## The writes of the shared items -/

theorem putCtl_marksUp (s : State) (f : Fid) (c : FeederCtl) : MarksUp s (s.putCtl f c) := by
  refine note_marksUp _ rfl (same_but _ (fun i hi _ => by interval_cases i <;> rfl) fun g k hk hn => ?_)
  by_cases hg : g = f
  · subst hg
    interval_cases k
    · simp at hn
    · rfl
    · simp at hn
    · simp at hn
  · have e : ({ s with ctl := s.ctl.set f c } : State).ctl.get g = s.ctl.get g := Per8.get_set_ne _ _ hg
    interval_cases k <;> simp only [feederMirrorWord, e]

theorem putTracker_marksUp (s : State) (f : Fid) (x : Tracker) : MarksUp s (s.putTracker f x) := by
  refine note_marksUp _ rfl (same_but _ (fun i hi _ => by interval_cases i <;> rfl) fun g k hk hn => ?_)
  by_cases hg : g = f
  · subst hg
    interval_cases k
    · rfl
    · simp at hn
    · rfl
    · rfl
  · have e : ({ s with trackers := s.trackers.set f x } : State).trackers.get g = s.trackers.get g :=
      Per8.get_set_ne _ _ hg
    interval_cases k <;> simp only [feederMirrorWord, e]

theorem putEval_marksUp (s : State) (f : Fid) (x : Evaluator) : MarksUp s (s.putEval f x) := by
  refine note_marksUp _ rfl (same_but _ (fun i hi _ => by interval_cases i <;> rfl) fun g k hk hn => ?_)
  by_cases hg : g = f
  · subst hg
    interval_cases k
    · rfl
    · rfl
    · rfl
    · simp at hn
  · have e : ({ s with evals := s.evals.set f x } : State).evals.get g = s.evals.get g := Per8.get_set_ne _ _ hg
    interval_cases k <;> simp only [feederMirrorWord, e]

theorem putReserved_marksUp (s : State) (f : Fid) (r : Nat) : MarksUp s (s.putReserved f r) := by
  refine note_marksUp _ rfl (same_but _ (fun i hi hn => ?_) fun g k hk hn => ?_)
  · interval_cases i <;> first | rfl | simp at hn
  · by_cases hg : g = f
    · subst hg
      interval_cases k <;> first | rfl | simp at hn
    · have e : (s.account.reserved.set f r).get g = s.account.reserved.get g := Per8.get_set_ne _ _ hg
      interval_cases k <;> simp only [feederMirrorWord, e]

theorem putUsable_marksUp (s : State) (u : Nat) : MarksUp s (s.putUsable u) := by
  refine note_marksUp _ rfl (same_but _ (fun i hi hn => ?_) fun g k hk hn => ?_)
  · interval_cases i <;> first | rfl | simp at hn
  · interval_cases k <;> rfl

theorem putLoader_marksUp (s : State) (l : Loader) : MarksUp s (s.putLoader l) := by
  refine note_marksUp _ rfl (same_but _ (fun i hi hn => ?_) fun g k hk hn => ?_)
  · interval_cases i <;> first | rfl | simp at hn
  · interval_cases k <;> rfl

theorem putProducer_marksUp (s : State) (p : BitVec 16) : MarksUp s (s.putProducer p) := by
  refine note_marksUp _ rfl (same_but _ (fun i hi hn => ?_) fun g k hk hn => ?_)
  · interval_cases i <;> first | rfl | simp [producerWord] at hn
  · interval_cases k <;> rfl

theorem judgeAttn_marksUp (s : State) : MarksUp s s.judgeAttn := .of_same rfl fun _ _ => rfl

theorem putConsumer_marksUp (s : State) (c : BitVec 16) : MarksUp s (s.putConsumer c) := by
  refine MarksUp.trans ?_ (judgeAttn_marksUp _)
  refine note_marksUp [5] rfl (same_but _ (fun i hi hn => ?_) fun g k hk hn => ?_)
  · interval_cases i <;> first | rfl | simp at hn
  · interval_cases k <;> rfl

theorem putSummary_marksUp (s : State) (c : BitVec 8) : MarksUp s (s.putSummary c) := by
  refine MarksUp.trans ?_ (judgeAttn_marksUp _)
  refine note_marksUp [6] rfl (same_but _ (fun i hi hn => ?_) fun g k hk hn => ?_)
  · interval_cases i <;> first | rfl | simp at hn
  · interval_cases k <;> rfl

theorem handRecord_marksUp (s : State) (b : Body) : MarksUp s (s.handRecord b) := by
  unfold handRecord
  refine MarksUp.trans ?_ (putSummary_marksUp _ _)
  split
  · exact .of_same rfl fun _ _ => rfl
  · refine MarksUp.trans (t := { s with writer := { s.writer with
      dropped := min 255 (s.writer.dropped + 1), overrun := true } }) (.of_same rfl fun _ _ => rfl) ?_
    exact putSummary_marksUp _ _

end State

/-- Every move marks what it changes, and cleans nothing. -/
theorem Move.marksUp {s t : State} (h : Move s t) : MarksUp s t := by
  cases h with
  | ctl f c => exact s.putCtl_marksUp f c
  | tracker f x => exact s.putTracker_marksUp f x
  | eval f x => exact s.putEval_marksUp f x
  | lower f r _ => exact s.putReserved_marksUp f r
  | grant f d _ => exact s.putReserved_marksUp f _
  | usable u _ => exact s.putUsable_marksUp u
  | notice n => exact .of_same rfl fun _ _ => rfl
  | monitor f m => exact .of_same rfl fun _ _ => rfl
  | stager f g => exact .of_same rfl fun _ _ => rfl
  | result f => exact .of_same rfl fun _ _ => rfl
  | record b => exact s.handRecord_marksUp b
  | raise c => exact s.putSummary_marksUp _
  | settle before f =>
    unfold State.settleResults
    dsimp only
    split
    · exact .refl s
    · exact .of_same rfl fun _ _ => rfl
  | link l => exact .of_same rfl fun _ _ => rfl
  | draws n => exact .of_same rfl fun _ _ => rfl

/-- Any number of moves mark what they change, and clean nothing (R162). -/
theorem Moves.marksUp {s t : State} (h : Moves s t) : MarksUp s t :=
  h.keeps (p := MarksUp s) (fun _ _ m k => k.trans m.marksUp) (.refl s)

end Sys2Proof.Machine
end

