-- ==== Sys2Proof/Laws/Marks.lean ====
section
/-! SUPPORT. The writes of the shared items, up to the dirty marks (`offMarks`): each is then the plain record update that
it stands for. -/

namespace Sys2Proof.Machine.State

theorem offMarks_of_offPort {s t : State} (h : s.offPort = t.offPort) : s.offMarks = t.offMarks := by
  unfold offMarks
  rw [h]

@[simp] theorem touchMirror_offMarks (s : State) (i : Nat) : (s.touchMirror i).offMarks = s.offMarks := rfl

@[simp] theorem touchResult_offMarks (s : State) (f : Fid) : (s.touchResult f).offMarks = s.offMarks := rfl

@[simp] theorem note_offMarks (ws : List Nat) (old s : State) : (State.note ws old s).offMarks = s.offMarks := by
  unfold State.note
  have h : ∀ t : State,
      (ws.foldl (fun t i => if old.mirrorWord i == s.mirrorWord i then t else t.touchMirror i) t).offMarks
        = t.offMarks := by
    induction ws with
    | nil => exact fun t => rfl
    | cons i ws ih =>
      intro t
      rw [List.foldl_cons, ih]
      split
      · rfl
      · exact touchMirror_offMarks t i
  exact h s

theorem putCtl_offMarks (s : State) (f : Fid) (c : FeederCtl) :
    (s.putCtl f c).offMarks = offMarks { s with ctl := s.ctl.set f c } := note_offMarks _ _ _

theorem putTracker_offMarks (s : State) (f : Fid) (t : Tracker) :
    (s.putTracker f t).offMarks = offMarks { s with trackers := s.trackers.set f t } := note_offMarks _ _ _

theorem putEval_offMarks (s : State) (f : Fid) (e : Evaluator) :
    (s.putEval f e).offMarks = offMarks { s with evals := s.evals.set f e } := note_offMarks _ _ _

theorem putReserved_offMarks (s : State) (f : Fid) (r : Nat) :
    (s.putReserved f r).offMarks =
      offMarks { s with account := { s.account with reserved := s.account.reserved.set f r } } :=
  note_offMarks _ _ _

theorem putUsable_offMarks (s : State) (u : Nat) :
    (s.putUsable u).offMarks = offMarks { s with account := { s.account with usable := u } } :=
  note_offMarks _ _ _

theorem putLoader_offMarks (s : State) (l : Loader) :
    (s.putLoader l).offMarks = offMarks { s with loader := l } := note_offMarks _ _ _

theorem putProducer_offMarks (s : State) (p : BitVec 16) :
    (s.putProducer p).offMarks = offMarks { s with writer := { s.writer with producer := p } } :=
  note_offMarks _ _ _

/-- ATTN judged, up to the marks: nothing but ATTN changes. -/
theorem judgeAttn_offMarks {s t : State} (h : s.offMarks = t.offMarks) :
    s.judgeAttn.offMarks = offMarks { t with writer := { t.writer with attn := s.attnWanted } } := by
  have e : s.judgeAttn.offMarks = { s.offMarks with writer := { s.offMarks.writer with attn := s.attnWanted } } := rfl
  rw [e, h]
  rfl

theorem putConsumer_offMarks (s : State) (c : BitVec 16) :
    (s.putConsumer c).offMarks =
      offMarks { s with writer := { s.writer with consumer := c, attn := (s.putConsumer c).writer.attn } } :=
  judgeAttn_offMarks (note_offMarks _ _ _)

theorem putSummary_offMarks (s : State) (c : BitVec 8) :
    (s.putSummary c).offMarks =
      offMarks { s with writer := { s.writer with summary := c, attn := (s.putSummary c).writer.attn } } :=
  judgeAttn_offMarks (note_offMarks _ _ _)

theorem putPublished_offMarks (s : State) (p : BitVec 16) :
    (s.putPublished p).offMarks =
      offMarks { s with writer := { s.writer with published := p, attn := (s.putPublished p).writer.attn } } :=
  judgeAttn_offMarks rfl

end Sys2Proof.Machine.State
end

