-- ==== Sys2Proof/Laws/PerInstr.lean ====
section
/-! SUPPORT. What holds of every command, one lemma per constructor: the access that a well-formed command presents
addresses an aligned word. -/

namespace Sys2Proof.Laws.Aligned

open Sys2Proof Sys2Proof.Machine

/-- The access a well-formed command presents, if it presents one, has an aligned address (09 introduction). -/
def Statement (i : Instr) : Prop := i.wf = true → ∀ x, accessOf i = some x → x.addr.aligned = true

/-- A command that presents no access has nothing to align. -/
theorem of_none {i : Instr} (h : accessOf i = none) : Statement i := by
  intro _ x hx
  rw [h] at hx
  cases hx

/-- A command that presents one access needs that one aligned. -/
theorem of_some {i : Instr} {x : Access} (h : accessOf i = some x) (k : i.wf = true → x.addr.aligned = true) :
    Statement i := by
  intro hw y hy
  rw [h] at hy
  cases hy
  exact k hw

theorem powerOn (init : Bool) : Statement (.powerOn init) :=
  of_none rfl

theorem initAssert : Statement .initAssert :=
  of_none rfl

theorem initRelease : Statement .initRelease :=
  of_none rfl

theorem startWordRestart : Statement .startWordRestart :=
  of_some rfl fun _ => by decide

theorem startWordLoadRequest : Statement .startWordLoadRequest :=
  of_some rfl fun _ => by decide

theorem startBlockWrite (tag : BitVec 2) (addr : Word) (be : BitVec 4) (value : Word) : Statement (.startBlockWrite tag addr be value) :=
  of_some rfl fun h => by simp_all [Instr.wf, taggedWrite]

theorem plainAccess (a : Access) : Statement (.plainAccess a) :=
  of_some rfl fun h => by simp_all [Instr.wf]

theorem samplePhaseWrite (addr : Word) (be : BitVec 4) (value : Word) : Statement (.samplePhaseWrite addr be value) :=
  of_some rfl fun h => by simp_all [Instr.wf, samplerWrite]

theorem sampleStampWrite (addr : Word) (be : BitVec 4) (value : Word) : Statement (.sampleStampWrite addr be value) :=
  of_some rfl fun h => by simp_all [Instr.wf, samplerWrite]

theorem dclinkWrite (addr : Word) (be : BitVec 4) (value : Word) : Statement (.dclinkWrite addr be value) :=
  of_some rfl fun h => by simp_all [Instr.wf, samplerWrite]

theorem aliasWord0Write (addr : Word) (be : BitVec 4) (value : Word) : Statement (.aliasWord0Write addr be value) :=
  of_some rfl fun h => by simp_all [Instr.wf, processorWrite]

theorem aliasWordWrite (addr : Word) (be : BitVec 4) (value : Word) : Statement (.aliasWordWrite addr be value) :=
  of_some rfl fun h => by simp_all [Instr.wf, processorWrite]

theorem aliasWord7Write (addr : Word) (be : BitVec 4) (value : Word) : Statement (.aliasWord7Write addr be value) :=
  of_some rfl fun h => by simp_all [Instr.wf, processorWrite]

theorem aliasRead (tag : BitVec 2) (addr : Word) : Statement (.aliasRead tag addr) :=
  of_some rfl fun h => by simp_all [Instr.wf, taggedRead]

theorem clearWrite (addr : Word) (be : BitVec 4) (value : Word) : Statement (.clearWrite addr be value) :=
  of_some rfl fun h => by simp_all [Instr.wf, processorWrite]

theorem reloadWrite (addr : Word) (be : BitVec 4) (value : Word) : Statement (.reloadWrite addr be value) :=
  of_some rfl fun h => by simp_all [Instr.wf, processorWrite]

theorem consumedWrite (addr : Word) (be : BitVec 4) (value : Word) : Statement (.consumedWrite addr be value) :=
  of_some rfl fun h => by simp_all [Instr.wf, processorWrite]

theorem sumclearWrite (addr : Word) (be : BitVec 4) (value : Word) : Statement (.sumclearWrite addr be value) :=
  of_some rfl fun h => by simp_all [Instr.wf, processorWrite]

theorem controlOtherWrite (addr : Word) (be : BitVec 4) (value : Word) : Statement (.controlOtherWrite addr be value) :=
  of_some rfl fun h => by simp_all [Instr.wf, processorWrite]

theorem refusedWrite (tag : BitVec 2) (addr : Word) (be : BitVec 4) (value : Word) : Statement (.refusedWrite tag addr be value) :=
  of_some rfl fun h => by simp_all [Instr.wf, taggedWrite]

theorem guardRead (tag : BitVec 2) (addr : Word) : Statement (.guardRead tag addr) :=
  of_some rfl fun h => by simp_all [Instr.wf, taggedRead]

theorem upstreamAccessComplete (data : Word) (err : Bool) : Statement (.upstreamAccessComplete data err) :=
  of_none rfl

theorem malmAssert (f : Fid) : Statement (.malmAssert f) :=
  of_none rfl

theorem malmRelease (f : Fid) : Statement (.malmRelease f) :=
  of_none rfl

theorem silenceExpiry (f : Fid) : Statement (.silenceExpiry f) :=
  of_none rfl

theorem shedNoticeTaken (f : Fid) : Statement (.shedNoticeTaken f) :=
  of_none rfl

theorem frameEnd : Statement .frameEnd :=
  of_none rfl

theorem replyStart : Statement .replyStart :=
  of_none rfl

theorem responseTimeout : Statement .responseTimeout :=
  of_none rfl

theorem replyComplete (bytes : List Byte) (stops : Bool) : Statement (.replyComplete bytes stops) :=
  of_none rfl

theorem replyBreakOff : Statement .replyBreakOff :=
  of_none rfl

theorem settleEnd : Statement .settleEnd :=
  of_none rfl

theorem resyncEnd : Statement .resyncEnd :=
  of_none rfl

theorem quietEnd : Statement .quietEnd :=
  of_none rfl

theorem writerWordComplete (err : Bool) : Statement (.writerWordComplete err) :=
  of_none rfl

theorem loaderReadComplete (data : Word) (err : Bool) : Statement (.loaderReadComplete data err) :=
  of_none rfl

theorem writerBurstHold : Statement .writerBurstHold :=
  of_none rfl

theorem loaderGapTimeout : Statement .loaderGapTimeout :=
  of_none rfl

theorem loaderHold : Statement .loaderHold :=
  of_none rfl

theorem reloadReadStart : Statement .reloadReadStart :=
  of_none rfl

theorem heldImageInstall : Statement .heldImageInstall :=
  of_none rfl

end Sys2Proof.Laws.Aligned
end

