-- ==== Sys2Proof/Laws/Results.lean ====
section
/-! SUPPORT. The small lemmas of the lists that statements about records and results are made with: endings, the results
they make, their REF_REJECTED records, and the records of an event. -/

namespace Sys2Proof.Machine

@[simp] theorem endAll_nil (code : ResultCode) : endAll code [] = [] := rfl

@[simp] theorem endAll_cons (code : ResultCode) (r : Accepted) (rs : List Accepted) :
    endAll code (r :: rs) = ⟨code, r, none⟩ :: endAll code rs := rfl

@[simp] theorem length_endAll (code : ResultCode) (rs : List Accepted) : (endAll code rs).length = rs.length := by
  simp [endAll]

@[simp] theorem endResults_nil (s t : State) (f : Fid) : endResults s t f [] = [] := rfl

@[simp] theorem length_endResults (s t : State) (f : Fid) (xs : List Ending) :
    (endResults s t f xs).length = xs.length := by
  simp [endResults]

@[simp] theorem refRecords_nil (f : Fid) : refRecords f [] = [] := rfl

/-- No ending: the number and the latest result are as they were, and no mark is set. -/
@[simp] theorem resultsMade_nil (s t : State) (f : Fid) :
    resultsMade s t f [] ↔
      (t.stagers.get f).number = (s.stagers.get f).number ∧ (t.stagers.get f).latest = (s.stagers.get f).latest := by
  simp [resultsMade]

/-- No record is handed over where staging keeps what it held. -/
theorem recorded_nil (s t : State) (h : t.writer.staging = s.writer.staging) : recorded s t [] := by
  intro _
  simp [h]

/-- The records of two parts of an event are those of the whole. -/
theorem recorded_append {s t u : State} {xs ys : List Body} (h : recorded s t xs) (k : recorded t u ys) :
    recorded s u (xs ++ ys) := by
  intro room
  rw [List.length_append] at room
  have first := h (by omega)
  have len : t.writer.staging.length = s.writer.staging.length + xs.length := by
    simpa using congrArg List.length first
  rw [k (by omega), first, List.append_assoc]

/-- A record handed in where staging has room is entered at its end. -/
theorem staged_handRecord (s : State) (b : Body) : staged s (s.handRecord b) b := by
  intro h
  unfold State.handRecord
  rw [if_pos h]
  simp [State.enterStaging]

/-- So an event that hands one record over has recorded it. -/
theorem recorded_handRecord (s : State) (b : Body) : recorded s (s.handRecord b) [b] := by
  intro h
  have h' : s.writer.staging.length < Config.stagingDepth := by simpa using h
  unfold State.handRecord
  rw [if_pos h']
  simp [State.enterStaging]

end Sys2Proof.Machine
end

