-- ==== Sys2Proof/Laws/Waiting.lean ====
section
/-! SUPPORT. The list of waiting accesses beside what the part's own words bring: the word that completes neither reads
the list nor changes it, so an access can be set to wait before it or after it. -/

namespace Sys2Proof.Machine

/-- The state with this list of waiting accesses. -/
def State.withWaiting (s : State) (xs : List Access) : State := { s with bus := { s.bus with waiting := xs } }

namespace State

variable (s : State) (xs : List Access)

@[simp] theorem withWaiting_waiting : (s.withWaiting xs).bus.waiting = xs := rfl

@[simp] theorem withWaiting_port : (s.withWaiting xs).bus.port = s.bus.port := rfl

@[simp] theorem withWaiting_hold : (s.withWaiting xs).bus.hold = s.bus.hold := rfl

@[simp] theorem withWaiting_self : s.withWaiting s.bus.waiting = s := rfl

@[simp] theorem withWaiting_withWaiting (ys : List Access) : (s.withWaiting xs).withWaiting ys = s.withWaiting ys := rfl

/-- An access presented where none waits is the one that waits. -/
theorem present_withWaiting (x : Access) : (s.withWaiting []).present x = s.withWaiting [x] := rfl

theorem note_withWaiting (ws : List Nat) (old : State) :
    State.note ws (old.withWaiting xs) (s.withWaiting xs) = (State.note ws old s).withWaiting xs := by
  unfold State.note
  have h : ∀ t : State,
      ws.foldl (fun t i => if (old.withWaiting xs).mirrorWord i == (s.withWaiting xs).mirrorWord i then t
          else t.touchMirror i) (t.withWaiting xs)
        = (ws.foldl (fun t i => if old.mirrorWord i == s.mirrorWord i then t else t.touchMirror i) t).withWaiting xs := by
    induction ws with
    | nil => exact fun t => rfl
    | cons i ws ih =>
      intro t
      rw [List.foldl_cons, List.foldl_cons, ← ih]
      congr 1
      change (if old.mirrorWord i == s.mirrorWord i then _ else _) = _
      split <;> rfl
  exact h s

theorem putLoader_withWaiting (l : Loader) :
    (s.withWaiting xs).putLoader l = (s.putLoader l).withWaiting xs :=
  note_withWaiting { s with loader := l } xs [0, 1] s

theorem putProducer_withWaiting (p : BitVec 16) :
    (s.withWaiting xs).putProducer p = (s.putProducer p).withWaiting xs :=
  note_withWaiting { s with writer := { s.writer with producer := p } } xs [producerWord] s

theorem putSummary_withWaiting (c : BitVec 8) :
    (s.withWaiting xs).putSummary c = (s.putSummary c).withWaiting xs :=
  congrArg judgeAttn (note_withWaiting { s with writer := { s.writer with summary := c } } xs [6] s)

theorem countDrop_withWaiting : (s.withWaiting xs).countDrop = s.countDrop.withWaiting xs :=
  putSummary_withWaiting
    { s with writer := { s.writer with dropped := min 255 (s.writer.dropped + 1), overrun := true } } xs _

theorem handRecord_withWaiting (b : Body) : (s.withWaiting xs).handRecord b = (s.handRecord b).withWaiting xs := by
  unfold handRecord
  change State.raise (if s.writer.staging.length < Config.stagingDepth then _ else _) _ = _
  split
  · exact putSummary_withWaiting (s.enterStaging b) xs _
  · rw [countDrop_withWaiting]
    exact putSummary_withWaiting s.countDrop xs _

theorem deferBurst_withWaiting (served : Bool) :
    (s.withWaiting xs).deferBurst served = (s.deferBurst served).withWaiting xs := rfl

theorem giveUp_withWaiting : (s.withWaiting xs).giveUp = s.giveUp.withWaiting xs := by
  unfold giveUp
  dsimp only
  rw [← deferBurst_withWaiting, ← countDrop_withWaiting]
  rfl

theorem recordDone_withWaiting : (s.withWaiting xs).recordDone = s.recordDone.withWaiting xs :=
  congrArg (deferBurst · s.writer.burst.isSome)
    (putProducer_withWaiting
      { s with writer := { s.writer with
          staging := s.writer.staging.drop 1, inProgress := none,
          burst := s.writer.burst.map fun b => { b with recordDone := true } } } xs _)

theorem recordError_withWaiting (burst : Bool) :
    (s.withWaiting xs).recordError burst = (s.recordError burst).withWaiting xs := by
  unfold recordError
  change (match s.writer.inProgress with | none => _ | some _ => _) = _
  cases s.writer.inProgress with
  | none => rfl
  | some p =>
    dsimp only
    rw [giveUp_withWaiting]
    split
    · split <;> rfl
    · rfl

theorem recordWritten_withWaiting (k : Nat) :
    (s.withWaiting xs).recordWritten k = (s.recordWritten k).withWaiting xs := by
  unfold recordWritten
  change (match s.writer.inProgress with | none => _ | some _ => _) = _
  cases s.writer.inProgress with
  | none => rfl
  | some p =>
    dsimp only
    rw [recordDone_withWaiting]
    split <;> rfl

theorem movedBurstWritten_withWaiting (k : Nat) (slot : Word) :
    (s.withWaiting xs).movedBurstWritten k slot = (s.movedBurstWritten k slot).withWaiting xs := by
  unfold movedBurstWritten
  split <;> rfl

theorem recordWordComplete_withWaiting (w : WriterWord) (k : Nat) (err : Bool) :
    (s.withWaiting xs).recordWordComplete w k err = (s.recordWordComplete w k err).withWaiting xs := by
  unfold recordWordComplete
  rw [recordError_withWaiting, recordWritten_withWaiting]
  change (if err then _ else match w.burst, s.writer.burst with | true, some _ => _ | true, none => _ | false, _ => _) = _
  split
  · rfl
  · cases w.burst with
    | false => dsimp only; split <;> rfl
    | true =>
      cases s.writer.burst with
      | none => rfl
      | some b =>
        dsimp only
        rw [movedBurstWritten_withWaiting]
        split <;> rfl

theorem mirrorWordComplete_withWaiting (w : WriterWord) (i : Nat) (err : Bool) :
    (s.withWaiting xs).mirrorWordComplete w i err = (s.mirrorWordComplete w i err).withWaiting xs := by
  unfold mirrorWordComplete cleanMirror publish
  dsimp only
  split <;> split <;> (try split) <;> (try split) <;> rfl

theorem resultWordComplete_withWaiting (w : WriterWord) (f : Fid) (i : Nat) (err : Bool) :
    (s.withWaiting xs).resultWordComplete w f i err = (s.resultWordComplete w f i err).withWaiting xs := by
  unfold resultWordComplete
  split <;> rfl

/-- What a completed word of the writer brings is the same with any list of accesses waiting. -/
theorem wordComplete_withWaiting (w : WriterWord) (err : Bool) :
    (s.withWaiting xs).wordComplete w err = (s.wordComplete w err).withWaiting xs := by
  unfold wordComplete
  split
  · exact recordWordComplete_withWaiting ..
  · exact mirrorWordComplete_withWaiting ..
  · exact resultWordComplete_withWaiting ..

/-- Memory's answer to a word of the writer does the same with any list of accesses waiting. -/
theorem writerAnswered_withWaiting (err : Bool) :
    (s.withWaiting xs).writerAnswered err = (s.writerAnswered err).withWaiting xs := by
  unfold writerAnswered
  rw [withWaiting_port]
  cases s.bus.port with
  | writer w discard =>
    dsimp only
    split
    · rfl
    · exact wordComplete_withWaiting { s with bus := { s.bus with port := .free } } xs w err
  | free => rfl
  | upstream => rfl
  | loader a d => rfl

theorem rejectTable_withWaiting (a : Option Word) (r : Reject) :
    (s.withWaiting xs).rejectTable a r = (s.rejectTable a r).withWaiting xs := by
  unfold rejectTable
  change (if s.table.isSome then _ else _) = _
  split
  · exact (congrArg (handRecord · _) (putLoader_withWaiting s xs _)).trans (handRecord_withWaiting _ xs _)
  · exact putLoader_withWaiting s xs _

end State
end Sys2Proof.Machine
end

