-- ==== Sys2Proof/Tests/Slice0.lean ====
section
/-! SUPPORT. Tests: ill-formed commands refused by the check, the spec's worked figures, small tests of the commands, and for
every statement with hypotheses a state and operands that meet them. -/

namespace Sys2Proof.Tests

open Sys2Proof Sys2Proof.Machine

set_option Elab.async false

/-! ## Well-formedness: one ill-formed term for each check -/

theorem test_wf_start_aligned : Instr.wf (.startBlockWrite 1#2 0x00FFFF05#32 15#4 0#32) = false := by decide
theorem test_wf_start_block : Instr.wf (.startBlockWrite 1#2 0x00FFFF10#32 15#4 0#32) = false := by decide
theorem test_wf_start_code : Instr.wf (.startBlockWrite 1#2 0x00FFFF00#32 15#4 2#32) = false := by decide
theorem test_wf_plain_aligned : Instr.wf (.plainAccess ⟨0x102#32, false, 1#2, 15#4, 0#32⟩) = false := by decide
theorem test_wf_phase_place : Instr.wf (.samplePhaseWrite 0x1000C#32 15#4 0#32) = false := by decide
theorem test_wf_phase_start : Instr.wf (.samplePhaseWrite 0x00FFFF04#32 15#4 0#32) = false := by decide
theorem test_wf_stamp_place : Instr.wf (.sampleStampWrite 0x10008#32 15#4 0#32) = false := by decide
theorem test_wf_dclink_aligned : Instr.wf (.dclinkWrite 0x30001#32 15#4 0#32) = false := by decide
theorem test_wf_word0_place : Instr.wf (.aliasWord0Write 0x20004#32 15#4 0#32) = false := by decide
theorem test_wf_word_place0 : Instr.wf (.aliasWordWrite 0x20000#32 15#4 0#32) = false := by decide
theorem test_wf_word_place7 : Instr.wf (.aliasWordWrite 0x2001C#32 15#4 0#32) = false := by decide
theorem test_wf_word7_place : Instr.wf (.aliasWord7Write 0x20018#32 15#4 0#32) = false := by decide
theorem test_wf_alias_read : Instr.wf (.aliasRead 1#2 0x20002#32) = false := by decide
theorem test_wf_clear_place : Instr.wf (.clearWrite 0x31004#32 15#4 0#32) = false := by decide
theorem test_wf_reload_place : Instr.wf (.reloadWrite 0x31000#32 15#4 0#32) = false := by decide
theorem test_wf_consumed_place : Instr.wf (.consumedWrite 0x3100C#32 15#4 0#32) = false := by decide
theorem test_wf_sumclear_place : Instr.wf (.sumclearWrite 0x31008#32 15#4 0#32) = false := by decide
theorem test_wf_control_other : Instr.wf (.controlOtherWrite 0x31011#32 15#4 0#32) = false := by decide
theorem test_wf_refused_write : Instr.wf (.refusedWrite 1#2 0x32003#32 15#4 0#32) = false := by decide
theorem test_wf_guard_read : Instr.wf (.guardRead 1#2 0x34002#32) = false := by decide
theorem test_wf_reply_empty : Instr.wf (.replyComplete [] true) = false := by decide
theorem test_wf_reply_long : Instr.wf (.replyComplete [1#8, 2#8, 3#8, 4#8, 5#8] true) = false := by decide
theorem test_wf_accepts : Instr.wf (.sampleStampWrite 0x1000C#32 15#4 0#32) = true := by decide

/-- No row of the table gives bits, so no word spells a command. -/
theorem test_no_word_spells_a_command : decodeTableWord 32 0 = none := by decide

/-! ## The table of the tests -/

/-- The settings of the tests. -/
def settings : Settings :=
  { n := 64, w := 4, coastLimit := 3, bridgeLimit := 3, onset := 900, interruption := 100, recovery := 950,
    invalidLimit := 3, lead := 1, silenceLimit := 5000, dcInterval := 2, timeout := 200, floor := 100,
    scale := 65535, mask := 0xFF#8, ringThreshold := 8 }

/-- A feeder entry of the tests: the energy figures of the spec's worked sequence (section 5.8), a nominal mean square of
16384 squared. -/
def entry (priority : Fin 8) (rating rideLimit : Nat) : Entry :=
  { enabled := true, autofill := true, rehearsal := false, priority := priority, curve := 2,
    unit := BitVec.ofNat 3 priority.val, sagLimit := 3, injectionLimit := 1000, rating := rating, rideLimit := rideLimit,
    nominal := 268435456, window := 20 }

/-- Curve 2 of the spec's section 4.7. -/
def curve2 : List Breakpoint := [⟨900, 20⟩, ⟨700, 6⟩, ⟨500, 2⟩, ⟨300, 0⟩]

/-- Curve 5 of the spec's section 4.7. -/
def curve5 : List Breakpoint := [⟨800, 60⟩, ⟨500, 12⟩, ⟨200, 3⟩]

def sample0 : WindowEntry := ⟨.sample, 0, 0x10000#32, 12⟩
def sample1 : WindowEntry := ⟨.sample, 1, 0x11000#32, 12⟩
def reference0 : WindowEntry := ⟨.reference, 0, 0x20000#32, 7⟩
def reference1 : WindowEntry := ⟨.reference, 1, 0x20080#32, 7⟩
def dclink : WindowEntry := ⟨.dclink, 0, 0x30000#32, 8⟩
def control : WindowEntry := ⟨.control, 0, 0x31000#32, 5⟩
def ring : WindowEntry := ⟨.ring, 0, 0x32000#32, 9⟩
def mirror : WindowEntry := ⟨.mirror, 0, 0x33000#32, 8⟩
def guard : WindowEntry := ⟨.guard, 0, 0x34000#32, 12⟩

def windows : List WindowEntry :=
  [sample0, sample1, reference0, reference1, dclink, control, ring, mirror, guard]

/-- The table of the tests: feeders 0 to 3 are those of the worked sequence of section 5.8, of which 2 and 3 have no
windows; 4 to 7 are disabled. -/
def table : Table :=
  { length := 117, identity := 7#32, settings := settings
    entries := ⟨entry 0 40 8, entry 1 30 10, entry 2 20 10, entry 3 20 10,
      { Entry.absent with priority := 4 }, { Entry.absent with priority := 5 }, { Entry.absent with priority := 6 },
      { Entry.absent with priority := 7 }⟩
    curves := ⟨curve5, curve5, curve2, curve5, curve5, curve5, curve5, curve5⟩
    windows := windows }

/-- The part with that table and nothing else happened: the port is FREE and the line IDLE. -/
def base : State :=
  { State.reset with table := some table, loader := { Loader.reset with mode := .active, flt := false } }

/-- What a command leaves, where it answers a next state. -/
def after (c : Instr) (s : State) : State :=
  match exec c s with
  | .next t => t
  | .fault _ => s
  | .refused _ => s

/-- Feeder `f` put in a state of the controller. -/
def inState (s : State) (f : Fid) (x : FeederState) : State :=
  { s with ctl := s.ctl.set f { s.ctl.get f with state := x } }

/-- The line put in a state, with an exchange. -/
def onLine (s : State) (l : LineState) (x : Option Exchange) : State :=
  { s with link := { s.link with line := l, exchange := x, wait := if l = .wait then some ⟨200, 0⟩ else none } }

/-- Whether a state is settled, as a Bool. -/
def settles (s : State) : Bool :=
  (decide (s.bus.port ≠ .free) || decide (s.bus.hold = .released ∧ s.bus.waiting = [])) &&
    (decide (s.writer.burst = none) || decide (s.bus.hold = .writer)) &&
    (!s.bus.holdWithdrawn || decide (s.bus.hold = .loader)) &&
    (!s.bus.writerDeferred || s.bus.turnOwed || decide (s.bus.hold = .writer)) && decide (s.judgeHold = s)

theorem settled_of {s : State} (h : settles s = true) : s.settled := by
  simp only [settles, Bool.and_eq_true, Bool.or_eq_true, decide_eq_true_eq, Bool.not_eq_true', or_assoc] at h
  obtain ⟨⟨⟨⟨a, b⟩, c⟩, d⟩, e⟩ := h
  refine ⟨fun hp => a.resolve_left (fun hn => hn hp), ⟨fun hb => b.resolve_left hb, fun hw => ?_, fun hd => ?_⟩, e⟩
  · exact c.resolve_left (by simp [hw])
  · exact d.resolve_left (by simp [hd])

theorem takes_of {s : State} (h : (decide (s.bus.port = .free) && settles s) = true) : s.takesAtOnce := by
  rw [Bool.and_eq_true, decide_eq_true_eq] at h
  exact ⟨h.1, settled_of h.2⟩

theorem calm_of {s : State} (h : (decide (s.bus.hold = .released ∧ s.bus.waiting = []) && settles s) = true) :
    s.calm := by
  rw [Bool.and_eq_true, decide_eq_true_eq] at h
  exact ⟨h.1.1, h.1.2, settled_of h.2⟩

theorem base_takes : base.takesAtOnce := takes_of (by decide +kernel)

theorem base_settled : base.settled := settled_of (by decide +kernel)

/-! ## The spec's worked figures -/

/-- The residuals of the worked example of section 2.5. -/
theorem test_residuals_of_worked_example :
    Machine.residual 17179869184 64 268435456 = 1000 ∧ Machine.residual 8589934592 64 268435456 = 707 ∧
      Machine.residual 1546188288 64 268435456 = 300 ∧ Machine.residual (24159191 * 64) 64 268435456 = 299 ∧
      Machine.residual 5 0 1 = 0 ∧ Machine.residual (2 ^ 48) 1 1 = 1999 := by
  decide

/-- The worked check word of section 12.1: the eight words sum to zero. -/
theorem test_worked_check_word :
    wordSum [0x00332902#32, 0#32, 0#32, 450#32, 341#32, 900#32, 683#32, 0xFFCCCDB8#32] = 0#32 := by
  decide

/-- The classes of the worked example of section 2.3 (bridge limit 3) and the gaps where the classes meet. -/
theorem test_gap_classes :
    classifyGroup 3 none 5#16 = .first ∧ classifyGroup 3 (some 100#16) 101#16 = .normal ∧
      classifyGroup 3 (some 101#16) 104#16 = .bridged 2 ∧ classifyGroup 3 (some 104#16) 110#16 = .unbridged ∧
      classifyGroup 3 (some 0#16) 4#16 = .bridged 3 ∧ classifyGroup 3 (some 0#16) 5#16 = .unbridged ∧
      classifyGroup 3 (some 0#16) 2#16 = .bridged 1 ∧ classifyGroup 7 (some 0#16) 8#16 = .bridged 7 ∧
      classifyGroup 3 (some 0#16) 1024#16 = .unbridged ∧ classifyGroup 3 (some 0#16) 1025#16 = .restart ∧
      classifyGroup 3 (some 9#16) 9#16 = .restart ∧ gap 9#16 9#16 = 65535 ∧
      classifyGroup 3 (some 0xFFFF#16) 0#16 = .normal := by
  decide

/-- The distances where the judgements of R97 meet. -/
theorem test_distances :
    judgeDistance (distance 7#8 7#8) = some .late ∧ judgeDistance (distance 8#8 7#8) = none ∧
      judgeDistance (distance 9#8 7#8) = none ∧ judgeDistance (distance 10#8 7#8) = some .tooEarly ∧
      judgeDistance (distance 134#8 7#8) = some .tooEarly ∧ judgeDistance (distance 135#8 7#8) = some .late ∧
      judgeDistance (distance 6#8 7#8) = some .late ∧ distance 134#8 7#8 = 127 ∧ distance 135#8 7#8 = 128 ∧
      judgeDistance (distance 0#8 255#8) = none := by
  decide

/-- The costs of the worked sequence of section 5.8. -/
theorem test_costs :
    cost 40 300 = 12 ∧ cost 30 300 = 9 ∧ cost 20 300 = 6 ∧ cost 40 500 = 20 ∧ cost 20 800 = 16 ∧ cost 40 800 = 32 ∧
      cost 255 0 = 0 ∧ cost 255 1 = 1 ∧ cost 255 1000 = 255 := by
  decide

/-- The counters and time-to-trip of feeder 1 in section 4.7, at the boundaries closing 60 to 67. -/
theorem test_tolerance_of_worked_judgement :
    timeToTrip curve2 640 [0, 0, 0, 0, 0, 0] = some 6 ∧
      advanceCounters curve2 610 [0, 0, 0, 0, 0, 0] = [1, 1, 0, 0, 0, 0] ∧
      timeToTrip curve2 610 [1, 1, 0, 0, 0, 0] = some 5 ∧
      advanceCounters curve2 455 [1, 1, 0, 0, 0, 0] = [2, 2, 1, 0, 0, 0] ∧
      timeToTrip curve2 455 [2, 2, 1, 0, 0, 0] = some 1 ∧
      advanceCounters curve2 680 [2, 2, 1, 0, 0, 0] = [3, 3, 1, 0, 0, 0] ∧
      timeToTrip curve2 680 [3, 3, 1, 0, 0, 0] = some 3 ∧ timeToTrip curve2 720 [3, 3, 1, 0, 0, 0] = some 17 ∧
      timeToTrip curve2 960 [3, 3, 1, 0, 0, 0] = none ∧ timeToTrip curve5 455 [2, 1, 0, 0, 0, 0] = some 11 := by
  decide

/-- The usable figure at the floor, just above it, and held at its limit. -/
theorem test_usable_figure :
    usableFigure settings 100 = 0 ∧ usableFigure settings 99 = 0 ∧ usableFigure settings 400 = 2 ∧
      usableFigure settings 70000 = 65535 := by
  decide

/-- The account of events 14 and 22 of the worked sequence: feeder 3 is preempted; feeder 2 is shed for shortfall. -/
def ridersAt (u r0 r1 r2 r3 : Nat) : State :=
  { base with account := { base.account with usable := u, reserved := ⟨r0, r1, r2, r3, 0, 0, 0, 0⟩ } }

theorem test_preemption_of_worked_sequence :
    (((ridersAt 434 0 150 100 100).requestEnergy 0 160).2 = true ∧
      ((ridersAt 434 0 150 100 100).requestEnergy 0 160).1.account.reserved = ⟨160, 150, 100, 0, 0, 0, 0, 0⟩ ∧
      ((ridersAt 434 0 150 100 100).requestEnergy 0 160).1.account.notice.get 3 = some .preempted) ∧
      ((ridersAt 389 140 135 90 0).requestEnergy 2 54).2 = false ∧
      ((ridersAt 220 0 60 0 0).requestEnergy 0 256).2 = false ∧
      ((ridersAt 400 0 150 100 100).requestEnergy 0 160).1.account.reserved = ⟨160, 150, 0, 0, 0, 0, 0, 0⟩ := by
  decide +kernel

theorem test_shortfall_of_worked_sequence :
    usableFigure settings 4130 = 260 ∧
      ((ridersAt 344 100 105 70 0).updateUsable 4130).account.reserved = ⟨100, 105, 0, 0, 0, 0, 0, 0⟩ ∧
      ((ridersAt 344 100 105 70 0).updateUsable 4130).account.notice.get 2 = some .shortfall ∧
      (((ridersAt 344 100 105 70 0).updateUsable 4130).writer.staging.map Record.body) =
        [.shortfall 4130 344 260 275 205 [(2, 70)]] := by
  decide +kernel

/-- The early jump of section 3's first worked example: LOCKED, a crossing at count 44 with N = 64 and W = 4. -/
def locked (c : Nat) : Tracker := { sync := .locked, count := some c, coast := 0, search := none, hc := 120#8, last := some .positive }

theorem test_early_jump :
    (locked 44).instant settings .negative = ⟨{ (locked 1) with hc := 121#8, last := some .negative }, .boundaryHere, some (-20)⟩ := by
  decide

/-- The late jump through COASTING of section 3's second worked example. -/
theorem test_late_jump :
    (locked 68).instant settings .positive =
        ⟨{ (locked 5) with sync := .coasting, coast := 1, hc := 121#8 }, .boundaryAtN, none⟩ ∧
      ({ (locked 10) with sync := .coasting, coast := 1 }).instant settings .negative =
        ⟨{ (locked 1) with hc := 121#8, last := some .negative }, .boundaryHere, some 10⟩ := by
  decide

/-- The CRC of no bytes is the register's start; the RESYNC frame ends in its own CRC. -/
theorem test_crc : crc8 [] = 0xFF#8 ∧ crc8 resyncFrame = 0#8 ∧ resyncFrame.take 2 = [0xCF#8, 0xA5#8] := by
  decide +kernel

/-! ## The machine: hypotheses met -/

theorem test_hyps_StepRunsFrontCommand :
    ({ base with pending := [.frameEnd, .settleEnd] }).pending = .frameEnd :: [.settleEnd] ∧
      step { base with pending := [.frameEnd, .settleEnd] } = .next { base with pending := [.settleEnd] } :=
  ⟨rfl, rfl⟩

/-- With an empty queue one period passes; none passes while INIT is asserted. -/
theorem test_hyps_EmptyQueuePassesOnePeriod :
    base.pending = [] ∧ base.init = false ∧ step base = .next { base with stamp := 1#32 } ∧
      ({ base with init := true }).pending = [] ∧ step { base with init := true } = .next { base with init := true } :=
  ⟨rfl, rfl, rfl, rfl, rfl⟩

/-- The invariants' hypothesis, `Inv s` and a step that answers a next state, is met by the reset state. -/
theorem test_hyps_invariants :
    step State.reset = .next { State.reset with stamp := 1#32 } ∧ State.reset.accountInv ∧ State.reset.stagingInv ∧
      State.reset.ringInv ∧ State.reset.attnInv ∧ State.reset.modeInv ∧ State.reset.lineInv ∧ State.reset.sagInv := by
  refine ⟨rfl, ?_, ?_, ?_, ?_, ?_, ?_, ?_⟩
  · exact ⟨by decide +kernel, by intro f _; revert f; decide, by intro _ f; revert f; decide⟩
  · simp [State.stagingInv, State.reset, Writer.reset]
  · exact ⟨by decide +kernel, by decide +kernel, by decide +kernel⟩
  · simp [State.attnInv, State.reset, Writer.reset]
  · exact ⟨by decide +kernel, by decide +kernel⟩
  · refine ⟨fun _ => ⟨rfl, rfl, by decide⟩, by decide +kernel, by decide +kernel, ?_⟩
    intro x h; cases h
  · refine ⟨?_, by intro _ f; revert f; decide⟩
    intro f
    refine ⟨?_, ?_, ?_, ?_, ?_⟩ <;> revert f <;> decide

/-! ## Trackers: hypotheses met, at the counts where the clauses meet -/

theorem settings_track : settings.tracks := by unfold Settings.tracks; decide

theorem crosses_negative (s : Sync) (c : Option Nat) :
    Tracker.crosses { (locked 1) with sync := s, count := c } .negative := ⟨.positive, rfl, by decide⟩

/-- A SEEK tracker without a count and with one. -/
def seek (c : Option Nat) : Tracker := { Tracker.reset with count := c, last := some .positive }

theorem test_hyps_TrackerInSeek :
    settings.tracks ∧ (seek none).sync = .seek ∧ (seek none).crosses .negative ∧ ¬ (seek none).crosses .positive ∧
      ((seek none).instant settings .negative).answer = .countStarted ∧
      ((seek none).instant settings .positive).answer = .noBoundary ∧
      ((seek (some 15)).instant settings .negative).answer = .noBoundary ∧
      ((seek (some 16)).instant settings .negative).answer = .countStarted ∧
      ((seek (some 59)).instant settings .negative).answer = .countStarted ∧
      ((seek (some 60)).instant settings .negative).answer = .boundaryHere ∧
      ((seek (some 68)).instant settings .negative).answer = .boundaryHere ∧
      ((seek (some 69)).instant settings .negative).answer = .countStarted :=
  ⟨settings_track, rfl, ⟨.positive, rfl, by decide⟩, by rintro ⟨l, h, k⟩; cases h; exact k rfl, by decide⟩

theorem test_hyps_TrackerInLocked :
    settings.tracks ∧ (locked 68).sync = .locked ∧ (locked 68).count = some 68 ∧ 68 ≤ settings.n + settings.w ∧
      (locked 68).crosses .negative ∧ ¬ (locked 68).crosses .positive ∧
      ((locked 15).instant settings .negative).answer = .noBoundary ∧
      ((locked 16).instant settings .negative).jump = some (-48) ∧
      ((locked 59).instant settings .negative).jump = some (-5) ∧
      ((locked 60).instant settings .negative).jump = none ∧
      ((locked 68).instant settings .negative).answer = .boundaryHere ∧
      ((locked 67).instant settings .positive).answer = .noBoundary ∧
      ((locked 68).instant settings .positive).answer = .boundaryAtN ∧
      ((locked 68).instant { settings with coastLimit := 1 } .positive).tracker.sync = .lost :=
  ⟨settings_track, rfl, rfl, by decide, ⟨.positive, rfl, by decide⟩, by rintro ⟨l, h, k⟩; cases h; exact k rfl, by decide⟩

/-- A COASTING tracker. -/
def coasting (c k : Nat) : Tracker := { (locked c) with sync := .coasting, coast := k }

theorem test_hyps_TrackerInCoasting :
    settings.tracks ∧ (coasting 5 1).sync = .coasting ∧ (coasting 5 1).count = some 5 ∧
      (coasting 5 1).crosses .negative ∧ ¬ (coasting 68 1).crosses .positive ∧
      ((coasting 15 1).instant settings .negative).jump = some 15 ∧
      ((coasting 16 1).instant settings .negative).jump = some (-48) ∧
      ((coasting 59 1).instant settings .negative).jump = some (-5) ∧
      ((coasting 60 1).instant settings .negative).jump = none ∧
      ((coasting 67 1).instant settings .positive).answer = .noBoundary ∧
      ((coasting 68 1).instant settings .positive).tracker.sync = .coasting ∧
      ((coasting 68 2).instant settings .positive).tracker.sync = .lost :=
  ⟨settings_track, rfl, rfl, ⟨.positive, rfl, by decide⟩, by rintro ⟨l, h, k⟩; cases h; exact k rfl, by decide⟩

/-- A LOST tracker with a search. -/
def lost (c : Nat) (k : Option Nat) : Tracker := { (locked c) with sync := .lost, coast := 3, search := k }

theorem test_hyps_TrackerInLost :
    settings.tracks ∧ (lost 68 none).sync = .lost ∧ (lost 68 none).count = some 68 ∧
      (lost 5 (some 60)).crosses .negative ∧ ¬ (lost 5 none).crosses .positive ∧
      ((lost 5 none).instant settings .negative).tracker.search = some 1 ∧
      ((lost 5 none).instant settings .positive).tracker.search = none ∧
      ((lost 5 (some 15)).instant settings .negative).tracker.search = some 16 ∧
      ((lost 5 (some 16)).instant settings .negative).tracker.search = some 1 ∧
      ((lost 5 (some 59)).instant settings .negative).tracker.sync = .lost ∧
      ((lost 5 (some 60)).instant settings .negative).tracker.sync = .locked ∧
      ((lost 5 (some 68)).instant settings .negative).tracker.sync = .locked ∧
      ((lost 5 (some 69)).instant settings .negative).tracker.sync = .lost ∧
      ((lost 67 none).instant settings .positive).answer = .noBoundary ∧
      ((lost 68 none).instant settings .positive).answer = .boundaryAtN :=
  ⟨settings_track, rfl, rfl, ⟨.positive, rfl, by decide⟩, by rintro ⟨l, h, k⟩; cases h; exact k rfl, by decide⟩

/-- The counters of a curve whose levels decrease: hypotheses met, and a counter that stops at 1024. -/
theorem test_hyps_CountersNeverIncreaseAlongCurve :
    strictlyDecreasing curve2 = true ∧ [1024, 6, 2, 0, 0, 0].Pairwise (fun a b => b ≤ a) ∧
      (∀ c ∈ [1024, 6, 2, 0, 0, 0], c ≤ 1024) ∧ curve2.length ≤ [1024, 6, 2, 0, 0, 0].length ∧
      advanceCounters curve2 699 [1024, 6, 2, 0, 0, 0] = [1024, 7, 2, 0, 0, 0] ∧
      advanceCounters curve2 700 [1024, 6, 2, 0, 0, 0] = [1024, 6, 2, 0, 0, 0] := by
  decide

/-! ## Records and replies: each check, in order -/

/-- The record of the worked check word, but for its words 1 to 6 shifted to feeder 0: sequence 41, target 51. -/
def record0 (w0 : Word) : Assembly :=
  { word0 := w0, words := [some 0#32, some 0#32, some 450#32, some 341#32, some 900#32, some 683#32], broken := false }

/-- Its check word. -/
def check0 (w0 : Word) : Word := 0#32 - (w0 + 2374#32)

/-- Feeder 0 in a state, its half-cycle number at 50. -/
def at50 (x : FeederState) : State :=
  { inState base 0 x with trackers := base.trackers.set 0 { Tracker.reset with sync := .locked, count := some 1, hc := 50#8 } }

theorem test_hyps_RecordJudgedInOrder :
    let judge := fun (s : State) (w0 : Word) => s.judgeRecord 0 (record0 w0) (check0 w0)
    judge (at50 .watch) 0x00332900#32 = none ∧ judge (at50 .ride) 0x00342900#32 = none ∧
      judge (at50 .standby) 0x00342900#32 = some .notRiding ∧ judge (at50 .watch) 0x00322900#32 = some .late ∧
      judge (at50 .watch) 0x00352900#32 = some .tooEarly ∧ judge (at50 .watch) 0x00B12900#32 = some .tooEarly ∧
      judge (at50 .watch) 0x00B22900#32 = some .late ∧ judge (at50 .watch) 0x00332901#32 = some .wrongFeeder ∧
      judge (at50 .watch) 0x01332900#32 = some .wrongFeeder ∧
      (at50 .watch).judgeRecord 0 (record0 0x00332900#32) 0#32 = some .checkFailed ∧
      (at50 .watch).judgeRecord 0 { record0 0#32 with broken := true } 0#32 = some .broken ∧
      (at50 .watch).judgeRecord 0 { record0 0#32 with words := [some 0#32, none, none, none, none, none] } 0#32 =
        some .incomplete ∧
      State.judgeRecord { at50 .watch with stagers := base.stagers.set 0 { Stager.reset with lastSeq := some 41#8 } } 0
        (record0 0x00332900#32) (check0 0x00332900#32) = some .duplicate := by
  decide +kernel

/-- A reply with its CRC. -/
def replyOf (bytes : List Byte) : List Byte := bytes ++ [crc8 bytes]

/-- The judgement is this reply. -/
def givesReply (r : Except LinkCause Reply) (x : Reply) : Bool :=
  match r with
  | .ok y => y == x
  | .error _ => false

/-- The judgement is this cause. -/
def failsWith (r : Except LinkCause Reply) (c : LinkCause) : Bool :=
  match r with
  | .ok _ => false
  | .error d => d == c

theorem test_hyps_ReplyJudgedInOrder :
    givesReply (judgeReply .engage 2#4 (replyOf [0xD2#8, 0xE8#8, 0x03#8]) true) (.done 1000) = true ∧
      failsWith (judgeReply .release 2#4 (replyOf [0xD2#8, 0xE9#8, 0x03#8]) true) .malformed = true ∧
      failsWith (judgeReply .statusq 2#4 (replyOf [0xD2#8, 0#8, 0#8]) true) .wrongKind = true ∧
      failsWith (judgeReply .engage 3#4 (replyOf [0xD2#8, 0#8, 0#8]) true) .wrongUnit = true ∧
      failsWith (judgeReply .engage 2#4 [0xD2#8, 0#8, 0#8, 0#8] true) .crc = true ∧
      failsWith (judgeReply .engage 2#4 [0xD2#8, 0#8, 0#8] true) .malformed = true ∧
      failsWith (judgeReply .engage 2#4 (replyOf [0xD2#8, 0#8, 0#8]) false) .malformed = true ∧
      failsWith (judgeReply .engage 2#4 (replyOf [0xC2#8, 0#8]) true) .malformed = true ∧
      failsWith (judgeReply .engage 2#4 (replyOf [0x52#8, 0#8]) true) .malformed = true ∧
      givesReply (judgeReply .engage 2#4 (replyOf [0xE2#8, 1#8]) true) .notReady = true ∧
      givesReply (judgeReply .statusq 2#4 (replyOf [0xE2#8, 2#8]) true) .hot = true ∧
      failsWith (judgeReply .release 2#4 (replyOf [0xE2#8, 3#8]) true) .malformed = true ∧
      failsWith (judgeReply .resync 2#4 (replyOf [0xE2#8, 1#8]) true) .wrongKind = true ∧
      givesReply (judgeReply .statusq 2#4 (replyOf [0xF2#8, 1#8]) true) (.status .ready) = true ∧
      givesReply (judgeReply .statusq 2#4 (replyOf [0xF2#8, 2#8]) true) (.status .ramping) = true ∧
      givesReply (judgeReply .statusq 2#4 (replyOf [0xF2#8, 3#8]) true) (.status .hot) = true ∧
      failsWith (judgeReply .statusq 2#4 (replyOf [0xF2#8, 4#8]) true) .malformed = true ∧
      failsWith (judgeReply .engage 2#4 (replyOf [0xF2#8, 1#8]) true) .wrongKind = true := by
  decide +kernel

/-- The three frames, with an ENGAGE whose amplitudes are within the limit. -/
def request0 : Request := .engage ⟨⟨0, 0#10⟩, ⟨450, 341#10⟩, ⟨1000, 683#10⟩⟩ 51#8 .record false none

theorem test_hyps_FramesReadBack :
    (request0.frame 2#4).take 15 =
        [0x92#8, 51#8, 2#8, 0#8, 0#8, 0#8, 0#8, 0xC2#8, 1#8, 0x55#8, 1#8, 0xE8#8, 3#8, 0xAB#8, 2#8] ∧
      (Request.frame (.release 9#8) 2#4).take 3 = [0xA2#8, 9#8, 0#8] ∧
      (Request.frame (.statusq 9#8) 2#4).take 2 = [0xB2#8, 9#8] := by
  decide +kernel

/-! ## The account and staging -/

theorem test_hyps_AdmissionOutcome :
    let grants := fun (s : State) (f : Fid) (d : Nat) => (s.requestEnergy f d).2
    grants (ridersAt 100 0 40 0 0) 0 60 = true ∧ grants (ridersAt 100 0 40 0 0) 0 61 = true ∧
      grants (ridersAt 100 0 40 0 0) 0 100 = true ∧ grants (ridersAt 100 0 40 0 0) 0 101 = false ∧
      grants (ridersAt 100 40 0 0 0) 1 61 = false ∧
      grants { ridersAt 100 0 0 0 0 with account := { (ridersAt 100 0 0 0 0).account with
        notice := Per8.replicate (some .preempted) } } 0 0 = false ∧
      grants { ridersAt 100 0 90 0 0 with table := some { table with
        entries := table.entries.set 0 { entry 0 40 8 with rehearsal := true } } } 0 101 = false := by
  decide +kernel

theorem test_hyps_UpdateInstallsWithinSum :
    usableFigure base.settings 4130 = 260 ∧ (ridersAt 344 100 105 55 0).sum = 260 ∧
      ((ridersAt 344 100 105 55 0).updateUsable 4130).account.reserved.get 2 = 55 ∧
      ((ridersAt 344 100 105 56 0).updateUsable 4130).account.reserved.get 2 = 0 := by
  decide +kernel

/-- A staged record of the tests. -/
def rec0 : Record := { seq := 9#16, stamp := 5#32, dropped := 255, body := .feederState 3 .ride .shed .preempted }

/-- The part with so many records in staging. -/
def withStaged (n : Nat) : State := { base with writer := { base.writer with staging := List.replicate n rec0 } }

theorem test_hyps_RecordIsStagedOrCounted :
    ((withStaged 15).handRecord rec0.body).writer.staging.length = 16 ∧
      ((withStaged 16).handRecord rec0.body).writer.staging.length = 16 ∧
      ((withStaged 16).handRecord rec0.body).writer.dropped = 1 ∧
      ((withStaged 16).handRecord rec0.body).writer.summary = 0x09#8 ∧
      ((withStaged 15).handRecord rec0.body).writer.attn = true ∧
      (let asked := (withStaged 0).handRecord (.ringIndexRefused 9#32 4#16 10#16 false)
       asked.writer.staging.length = 1 ∧ asked.writer.summary = 0#8 ∧ asked.writer.attn = false) := by
  decide +kernel

/-- ATTN's two conditions at their edges: a summary condition the mask holds and one it does not, and 8 unconsumed records
against a threshold of 8, modulo 65536, against 7. -/
theorem test_attn_conditions :
    let wanted := fun (summary mask : BitVec 8) (published consumer : BitVec 16) =>
      { base with
        table := some { table with settings := { settings with mask := mask } }
        writer := { base.writer with summary := summary, published := published, consumer := consumer } }.attnWanted
    wanted 0x08#8 0xFF#8 0#16 0#16 = true ∧ wanted 0x08#8 0xF7#8 0#16 0#16 = false ∧
      wanted 0#8 0xFF#8 4#16 0xFFFC#16 = true ∧ wanted 0#8 0xFF#8 3#16 0xFFFC#16 = false ∧
      { withStaged 16 with table := none }.attnWanted = false := by
  decide +kernel

theorem test_hyps_RecordHeadReadsBack :
    rec0.dropped ≤ 255 ∧ rec0.words = [0xFF330009#32, 5#32, 0x00000F64#32, 0#32, 0#32, 0#32, 0#32, 0#32] ∧
      ({ rec0 with body := .ringIndexRefused 9#32 4#16 10#16 false }.words.getD 0 0#32).extractLsb' 20 4 = 15#4 := by
  decide +kernel

/-! ## Commands: reset -/

/-- Full reset, with INIT at either level, at a FREE port and at a port with a word on it. -/
theorem test_hyps_ResetCommands :
    (after (.powerOn false) base).bus.port = .loader 0x00FFFF04#32 false ∧ (after (.powerOn false) base).table = none ∧
      (after (.powerOn true) base).bus.port = .free ∧ (after .initAssert base).init = true ∧
      (after .initAssert (after (.powerOn false) base)).bus.port = .loader 0x00FFFF04#32 true ∧
      State.reset.loader.mode = .loading ∧ State.reset.loader.read = none ∧
      (after .initRelease (after .initAssert base)).bus.port = .loader 0x00FFFF04#32 false ∧
      base.loader.mode ≠ .loading ∧ (after .initRelease base).bus.port = .free := by
  decide +kernel

/-- The start codes: restart, and a load request in PASSTHRU-FAILED and elsewhere; neither while INIT is asserted. -/
theorem test_hyps_StartWordWrites :
    let failed : State := { State.reset with loader := { Loader.reset with mode := .failed } }
    base.takesAtOnce ∧ failed.takesAtOnce ∧
      (after .startWordRestart base).table = none ∧ (after .startWordRestart { base with init := true }).table = some table ∧
      (after .startWordRestart base).bus.port = .upstream ∧
      (after .startWordLoadRequest failed).loader.mode = .loading ∧
      (after .startWordLoadRequest { failed with init := true }).loader.mode = .failed ∧
      (after .startWordLoadRequest base).loader.mode = .active :=
  ⟨base_takes, takes_of (by decide +kernel), by decide +kernel⟩

/-! ## Commands: upstream accesses -/

/-- The part with an upstream access on the port. -/
def busy : State := after (.plainAccess ⟨0x100#32, false, 1#2, 15#4, 0#32⟩) base

theorem test_hyps_AccessWaitsForThePort :
    busy.bus.port ≠ .free ∧ accessOf (.clearWrite 0x31000#32 15#4 1#32) = some ⟨0x31000#32, true, 1#2, 15#4, 1#32⟩ ∧
      (after (.clearWrite 0x31000#32 15#4 1#32) busy).bus.waiting = [⟨0x31000#32, true, 1#2, 15#4, 1#32⟩] := by
  decide +kernel

/-- Feeder 0's committed page is page 1. -/
def onPage1 : State :=
  { base with stagers := base.stagers.set 0 { Stager.reset with committed := .page1 } }

theorem test_hyps_PassingAccesses :
    base.takesAtOnce ∧ Word.aligned 0x00FFFF0C#32 = true ∧ Word.inStartBlock 0x00FFFF0C#32 = true ∧
      notStartCode 1#2 0x00FFFF0C#32 15#4 2#32 = true ∧
      (after (.startBlockWrite 1#2 0x00FFFF0C#32 15#4 2#32) base).table = some table ∧
      ((after (.plainAccess ⟨0x00FFFF04#32, false, 2#2, 15#4, 0#32⟩) base).bus.current.map Current.cls) = some .start ∧
      base.classify 0xFFFC#32 = .plain ∧ base.classify 0x10000#32 = .window sample0 ∧
      base.classify 0x10FFC#32 = .window sample0 ∧
      base.classify 0x2001C#32 = .window reference0 ∧ refSlot (reference0.offset 0x2001C#32) = .alias0 ∧
      ((after (.aliasRead 1#2 0x2001C#32) base).bus.current.map Current.downAddr) = some 0x2003C#32 ∧
      ((after (.aliasRead 1#2 0x20000#32) onPage1).bus.current.map Current.downAddr) = some 0x20040#32 ∧
      base.classify 0x31010#32 = .window control ∧ 16 ≤ (control.offset 0x31010#32).toNat ∧
      (after (.controlOtherWrite 0x31010#32 15#4 1#32) base).bus.port = .upstream :=
  ⟨base_takes, by decide +kernel⟩

/-- The command is refused: nothing goes to memory, the answer is an error, and one record is made. -/
def refuses (c : Instr) (tag : BitVec 2) (b : Body) : Bool :=
  let t := after c base
  decide (t.bus.current = none) && decide (t.bus.answer = some ⟨tag, true, none⟩) &&
    decide (t.writer.staging.map Record.body = [b])

/-- A refused write or read of each kind: an error response, no memory cycle, a BUS_REFUSED record. -/
theorem test_hyps_RefusedAccesses :
    base.takesAtOnce ∧ base.classify 0x34FFC#32 = .window guard ∧
      refuses (.refusedWrite 1#2 0x10000#32 15#4 0#32) 1#2 (.busRefused 0x10000#32 1#2 (some .sample) (some 0) false) = true ∧
      refuses (.refusedWrite 0#2 0x30000#32 15#4 0#32) 0#2 (.busRefused 0x30000#32 0#2 (some .dclink) none false) = true ∧
      refuses (.refusedWrite 2#2 0x20000#32 15#4 0#32) 2#2 (.busRefused 0x20000#32 2#2 (some .reference) (some 0) false) = true ∧
      refuses (.refusedWrite 1#2 0x20020#32 15#4 0#32) 1#2 (.busRefused 0x20020#32 1#2 (some .reference) (some 0) false) = true ∧
      refuses (.refusedWrite 2#2 0x31000#32 15#4 0#32) 2#2 (.busRefused 0x31000#32 2#2 (some .control) none false) = true ∧
      refuses (.refusedWrite 1#2 0x32000#32 15#4 0#32) 1#2 (.busRefused 0x32000#32 1#2 (some .ring) none false) = true ∧
      refuses (.refusedWrite 1#2 0x33000#32 15#4 0#32) 1#2 (.busRefused 0x33000#32 1#2 (some .mirror) none false) = true ∧
      refuses (.refusedWrite 1#2 0x34000#32 15#4 0#32) 1#2 (.busRefused 0x34000#32 1#2 (some .guard) none false) = true ∧
      refuses (.guardRead 3#2 0x34FFC#32) 3#2 (.busRefused 0x34FFC#32 3#2 (some .guard) none true) = true :=
  ⟨base_takes, by decide +kernel⟩

theorem test_hyps_SamplePhaseWrite :
    base.takesAtOnce ∧ base.classify 0x10008#32 = .window sample0 ∧ Word.groupPlace 0x10008#32 ≠ 3#2 ∧
      ((after (.samplePhaseWrite 0x10000#32 15#4 0x12345678#32) base).monitors.get 0).assembly =
        ⟨.written 0x5678#16, .notWritten, .notWritten⟩ ∧
      ((after (.samplePhaseWrite 0x10004#32 15#4 5#32) base).monitors.get 0).assembly =
        ⟨.notWritten, .written 5#16, .notWritten⟩ ∧
      ((after (.samplePhaseWrite 0x10008#32 7#4 5#32) base).monitors.get 0).assembly =
        ⟨.notWritten, .notWritten, .missing⟩ :=
  ⟨base_takes, by decide +kernel⟩

/-- Feeder 0's monitor at the start of the worked example of section 2.3, with ten instants in the head. -/
def gapStart : State :=
  { inState base 0 .standby with
    monitors := base.monitors.set 0
      { Monitor.reset with
        assembly := ⟨.written 2#16, .written 3#16, .written 4#16⟩, seq := some 100#16, lastValid := ⟨1#16, 1#16, 1#16⟩
        head := { Accum.empty with count := ⟨10, 10, 10⟩ } }
    trackers := base.trackers.set 0 { (locked 11) with last := some .positive } }

theorem test_hyps_SampleStampWrite :
    gapStart.takesAtOnce ∧ gapStart.classify 0x1000C#32 = .window sample0 ∧ Word.groupPlace 0x1000C#32 = 3#2 ∧
      (let m := (after (.sampleStampWrite 0x1000C#32 15#4 0x00070065#32) gapStart).monitors.get 0
       m.head.count = ⟨11, 11, 11⟩ ∧ m.head.sum = ⟨4, 9, 16⟩ ∧ m.seq = some 101#16 ∧ m.silence = some 5000) ∧
      (let m := (after (.sampleStampWrite 0x1000C#32 15#4 0x00030067#32) gapStart).monitors.get 0
       m.head.count = ⟨13, 13, 12⟩ ∧ m.head.mark = false ∧ m.lastValid = ⟨2#16, 3#16, 1#16⟩) ∧
      (let m := (after (.sampleStampWrite 0x1000C#32 15#4 0x0007006A#32) gapStart).monitors.get 0
       m.head.count = ⟨11, 11, 11⟩ ∧ m.head.mark = true) ∧
      (after (.sampleStampWrite 0x1000C#32 14#4 0x00070065#32) gapStart).monitors = gapStart.monitors ∧
      ((after (.sampleStampWrite 0x1000C#32 15#4 0x00070005#32) base).monitors.get 0).seq = some 5#16 :=
  ⟨takes_of (by decide +kernel), by decide +kernel⟩

theorem test_hyps_DclinkWrite :
    base.takesAtOnce ∧ base.classify 0x30004#32 = .window dclink ∧
      (after (.dclinkWrite 0x30004#32 15#4 0x00011022#32) base).dclink = ⟨some 1#16, 1⟩ ∧
      (after (.dclinkWrite 0x30004#32 7#4 0x00011022#32) base).dclink = ⟨none, 0⟩ ∧
      (let one : State := { base with dclink := ⟨some 1#16, 1⟩ }
       (after (.dclinkWrite 0x30004#32 15#4 0x00011022#32) one).dclink = ⟨some 1#16, 1⟩ ∧
         (after (.dclinkWrite 0x30004#32 15#4 0x00021022#32) one).dclink = ⟨some 2#16, 0⟩ ∧
         (after (.dclinkWrite 0x30004#32 15#4 0x00021022#32) one).account.usable = 260) :=
  ⟨base_takes, by decide +kernel⟩

/-- Feeder 0 riding at half-cycle 50 with an assembly open. -/
def assembling : State :=
  { at50 .ride with stagers := base.stagers.set 0 { Stager.reset with assembly := some (record0 0x00332900#32) } }

theorem test_hyps_AliasWord0Write :
    base.takesAtOnce ∧ base.classify 0x20000#32 = .window reference0 ∧ refSlot (reference0.offset 0x20000#32) = .alias0 ∧
      Word.slotPlace 0x20000#32 = 0#3 ∧ assembling.takesAtOnce ∧
      ((after (.aliasWord0Write 0x20000#32 3#4 0x00332900#32) base).stagers.get 0).assembly =
        some ⟨0x00002900#32, [none, none, none, none, none, none], true⟩ ∧
      ((after (.aliasWord0Write 0x20000#32 15#4 0x00342A00#32) assembling).stagers.get 0).latest.map Result.code =
        some .abandoned ∧
      ((after (.aliasWord0Write 0x20000#32 3#4 0x00332900#32) base).bus.current.map Current.downAddr) = some 0x20040#32 ∧
      ((after (.aliasWord0Write 0x20000#32 15#4 0x00342A00#32) onPage1).bus.current.map Current.downAddr) =
        some 0x20020#32 :=
  ⟨base_takes, by decide +kernel, by decide +kernel, by decide +kernel, takes_of (by decide +kernel), by decide +kernel⟩

theorem test_hyps_AliasWordWrite :
    assembling.takesAtOnce ∧ Word.slotPlace 0x20004#32 = 1#3 ∧ Word.slotPlace 0x20018#32 = 6#3 ∧
      (let a := ((after (.aliasWordWrite 0x20018#32 15#4 9#32) assembling).stagers.get 0).assembly
       a.map (fun x => (x.words.getD 5 none, x.broken)) = some (some 9#32, false)) ∧
      (let a := ((after (.aliasWordWrite 0x20004#32 1#4 9#32) assembling).stagers.get 0).assembly
       a.map (fun x => (x.words.getD 0 none, x.broken)) = some (some 0#32, true)) ∧
      ((after (.aliasWordWrite 0x20004#32 15#4 9#32) base).stagers.get 0).assembly = none ∧
      ((after (.aliasWordWrite 0x20018#32 15#4 9#32) assembling).bus.current.map Current.downAddr) = some 0x20058#32 :=
  ⟨takes_of (by decide +kernel), by decide +kernel⟩

/-- The same with a record pending. -/
def superseding : State :=
  let g := { assembling.stagers.get 0 with pending := some ⟨0, 40#8, 51#8, Reference.zero, false⟩ }
  { assembling with stagers := assembling.stagers.set 0 g }

/-- The worked record accepted, one refused, and one that supersedes. -/
theorem test_hyps_AliasWord7Write :
    assembling.takesAtOnce ∧ base.classify 0x2001C#32 = .window reference0 ∧ Word.slotPlace 0x2001C#32 = 7#3 ∧
      (let g := (after (.aliasWord7Write 0x2001C#32 15#4 (check0 0x00332900#32)) assembling).stagers.get 0
       (g.pending.map fun r => (r.seq, r.target, r.ref.b)) = some (41#8, 51#8, ⟨450, 341#10⟩) ∧ g.owner = g.pending ∧
         g.latest = none) ∧
      (let g := (after (.aliasWord7Write 0x2001C#32 7#4 (check0 0x00332900#32)) assembling).stagers.get 0
       g.pending = none ∧ g.latest.map Result.code = some .broken) ∧
      (let g := (after (.aliasWord7Write 0x2001C#32 15#4 (check0 0x00332900#32)) superseding).stagers.get 0
       g.latest.map Result.code = some .superseded ∧ g.pending.map Accepted.seq = some 41#8) ∧
      ((after (.aliasWord7Write 0x2001C#32 15#4 0#32) base).stagers.get 0).latest = none ∧
      ((after (.aliasWord7Write 0x2001C#32 15#4 0#32) base).bus.current.map Current.downAddr) = some 0x2005C#32 ∧
      (after (.aliasWord7Write 0x2001C#32 15#4 (check0 0x00332900#32)) superseding).writer.staging = [] :=
  ⟨takes_of (by decide +kernel), by decide +kernel⟩

theorem test_hyps_ClearWrite :
    let faulted := inState base 0 .fault
    faulted.takesAtOnce ∧ faulted.classify 0x31000#32 = .window control ∧ (control.offset 0x31000#32).toNat < 4 ∧
      ((after (.clearWrite 0x31000#32 15#4 1#32) faulted).ctl.get 0).state = .arming ∧
      ((after (.clearWrite 0x31000#32 1#4 1#32) faulted).ctl.get 0).state = .fault ∧
      ((after (.clearWrite 0x31000#32 15#4 0xFE#32) faulted).ctl.get 0).state = .fault ∧
      ((after (.clearWrite 0x31000#32 15#4 1#32) (inState base 0 .shed)).ctl.get 0).state = .shed ∧
      ((after (.clearWrite 0x31000#32 15#4 1#32) { faulted with malm := Per8.replicate true }).writer.staging.map
        Record.body) = [.feederState 0 .fault .fault .clearRefused] ∧
      (after (.clearWrite 0x31000#32 15#4 1#32) faulted).bus.current =
        some ⟨processorWrite 0x31000#32 15#4 1#32, .window control, 0x31000#32⟩ :=
  ⟨takes_of (by decide +kernel), by decide +kernel⟩

/-- A held image. -/
def withImage (ws : List Word) (s : State) : State :=
  { s with loader := { s.loader with reload := .held, heldAddr := some 0x1000#32, image := ws } }

theorem test_hyps_ReloadWrite :
    let riding := inState base 0 .ride
    riding.takesAtOnce ∧ base.quiescent = true ∧ riding.quiescent = false ∧ base.classify 0x31004#32 = .window control ∧
      (control.offset 0x31004#32).toNat = 4 ∧
      (after (.reloadWrite 0x31004#32 15#4 1#32) base).loader.reload = .reading ∧
      (after (.reloadWrite 0x31004#32 15#4 1#32) riding).loader.reload = .requested ∧
      (after (.reloadWrite 0x31004#32 1#4 0x100#32) riding).loader.reload = .none ∧
      (after (.reloadWrite 0x31004#32 15#4 1#32) (withImage [1#32] riding)).loader.image = [] :=
  ⟨takes_of (by decide +kernel), by decide +kernel⟩

/-- A ring of 16 with P = 10 and C = 4: C and P are accepted, one below and one above are refused. -/
theorem test_hyps_ConsumedAndSumclearWrites :
    let s : State := { base with writer := { base.writer with producer := 10#16, published := 10#16, consumer := 4#16,
                                                              summary := 0xFF#8, attn := true } }
    let held := fun (v : Word) (be : BitVec 4) => (after (.consumedWrite 0x31008#32 be v) s).writer.consumer
    s.takesAtOnce ∧ s.classify 0x31008#32 = .window control ∧ (control.offset 0x31008#32).toNat = 8 ∧
      (control.offset 0x3100C#32).toNat = 12 ∧ s.ringSize = 16 ∧ held 4#32 15#4 = 4#16 ∧ held 10#32 15#4 = 10#16 ∧
      held 3#32 15#4 = 4#16 ∧ held 11#32 15#4 = 4#16 ∧ held 10#32 3#4 = 4#16 ∧
      (after (.sumclearWrite 0x3100C#32 15#4 0x81#32) s).writer.summary = 0x7E#8 ∧
      (after (.sumclearWrite 0x3100C#32 2#4 0xFF#32) s).writer.summary = 0xFF#8 ∧
      (after (.sumclearWrite 0x3100C#32 15#4 0xFF#32) s).writer.attn = false :=
  ⟨takes_of (by decide +kernel), by decide +kernel⟩

theorem test_hyps_UpstreamAccessComplete :
    let waits := after (.clearWrite 0x31000#32 15#4 1#32) busy
    busy.bus.port = .upstream ∧ busy.bus.hold = .released ∧
      busy.bus.current = some ⟨⟨0x100#32, false, 1#2, 15#4, 0#32⟩, .plain, 0x100#32⟩ ∧
      (after (.upstreamAccessComplete 7#32 false) busy).bus.answer = some ⟨1#2, false, some 7#32⟩ ∧
      (after (.upstreamAccessComplete 7#32 true) busy).bus.answer = some ⟨1#2, true, none⟩ ∧
      (after (.upstreamAccessComplete 7#32 false) busy).bus.port = .free ∧
      waits.bus.waiting = [⟨0x31000#32, true, 1#2, 15#4, 1#32⟩] ∧
      accessPermitted (waits.classify 0x31000#32) ⟨0x31000#32, true, 1#2, 15#4, 1#32⟩ = true ∧
      (after (.upstreamAccessComplete 7#32 false) waits).bus.port = .upstream ∧
      (after (.upstreamAccessComplete 7#32 false) waits).bus.waiting = [] := by
  decide +kernel

/-! ## Commands: alarms, silence, shed notices -/

theorem test_hyps_AlarmEvents :
    base.settled ∧ (after (.malmAssert 0) (inState base 0 .standby)).ctl.get 0 =
        { FeederCtl.reset with state := .fault, reason := .alarm } ∧
      (after (.malmAssert 0) base).malm.get 0 = true ∧ ((after (.malmAssert 0) base).ctl.get 0).state = .off ∧
      (after (.malmRelease 0) (after (.malmAssert 0) base)).malm.get 0 = false :=
  ⟨base_settled, by decide +kernel⟩

/-- Feeder 0 with its silence timer running. -/
def timed (x : FeederState) : State :=
  { inState base 0 x with monitors := base.monitors.set 0 { Monitor.reset with silence := some 0, seq := some 5#16 } }

theorem test_hyps_SilenceExpiry :
    (timed .ride).settled ∧ ((timed .ride).monitors.get 0).silence = some 0 ∧ (base.monitors.get 0).silence = none ∧
      ((after (.silenceExpiry 0) (timed .ride)).ctl.get 0).reason = .noSamples ∧
      (after (.silenceExpiry 0) (timed .ride)).monitors.get 0 = Monitor.reset ∧
      (after (.silenceExpiry 0) (timed .ride)).account.reserved.get 0 = 0 ∧
      (after (.silenceExpiry 0) (timed .ride)).link.slots.get 0 = none ∧
      ((after (.silenceExpiry 0) (timed .off)).ctl.get 0).state = .off ∧
      ((after (.silenceExpiry 0) (timed .fault)).ctl.get 0).reason = .none :=
  ⟨settled_of (by decide +kernel), by decide +kernel⟩

/-- Feeder 0 with a shed notice outstanding. -/
def noticed (x : FeederState) (c : ShedCause) : State :=
  { inState base 0 x with account := { base.account with notice := base.account.notice.set 0 (some c) } }

theorem test_hyps_ShedNoticeTaken :
    (noticed .ride .preempted).settled ∧ (noticed .ride .preempted).account.notice.get 0 = some .preempted ∧
      base.account.notice.get 0 = none ∧
      ((after (.shedNoticeTaken 0) (noticed .ride .preempted)).ctl.get 0).reason = .preempted ∧
      ((after (.shedNoticeTaken 0) (noticed .ride .shortfall)).ctl.get 0).reason = .shortfall ∧
      ((after (.shedNoticeTaken 0) (noticed .ride .shortfall)).link.exchange.map Exchange.request) =
        some (.release 0#8) ∧
      ((after (.shedNoticeTaken 0) (noticed .recover .shortfall)).ctl.get 0).state = .recover ∧
      (after (.shedNoticeTaken 0) (noticed .recover .shortfall)).account.notice.get 0 = none :=
  ⟨settled_of (by decide +kernel), by decide +kernel⟩

/-! ## Commands: the modulator link -/

/-- An exchange of feeder 0 with unit 0. -/
def exchange0 (r : Request) (attempt : Nat) : Exchange :=
  { feeder := 0, unit := 0#4, request := r, attempt := attempt, causes := List.replicate (attempt - 1) .crc,
    discard := false }

theorem test_hyps_LineMovesOn :
    (onLine base .send (some (exchange0 request0 1))).settled ∧
      (after .frameEnd (onLine base .send (some (exchange0 request0 1)))).link.line = .wait ∧
      (after .replyStart (onLine base .wait (some (exchange0 request0 1)))).link.line = .receive ∧
      (after .resyncEnd (onLine base .resync none)).link.line = .quiet ∧
      (after .quietEnd (onLine base .quiet none)).link.line = .settle ∧
      (after .quietEnd (onLine base .quiet (some (exchange0 request0 4)))).link.exchange = some
        { exchange0 request0 4 with attempt := 5 } ∧
      (after .quietEnd (onLine base .quiet (some { exchange0 request0 4 with discard := true }))).link.line = .settle :=
  ⟨settled_of (by decide +kernel), by decide +kernel⟩

/-- Requests waiting on feeders 1 and 0, of priorities 1 and 0. -/
def twoWaiting (s : State) : State :=
  { s with link := { s.link with slots := ⟨some (.statusq 1#8), some (.release 2#8), none, none, none, none, none, none⟩ } }

theorem test_hyps_SettleEnd :
    let failed := fun (n : Nat) => some { exchange0 request0 n with causes := List.replicate n .crc }
    (onLine base .settle none).settled ∧
      (after .settleEnd (onLine base .settle (failed 3))).link.exchange.map Exchange.attempt = some 4 ∧
      (after .settleEnd (onLine base .settle (failed 3))).link.line = .send ∧
      (after .settleEnd (onLine base .settle (failed 4))).link.line = .resync ∧
      (after .settleEnd (onLine base .settle (failed 4))).writer.staging.map Record.body =
        [.linkLadder 0 0#4 .engage 51#8 [.crc, .crc, .crc, .crc]] ∧
      (after .settleEnd (onLine base .settle none)).link.line = .idle ∧
      (let t := after .settleEnd (twoWaiting (onLine base .settle none))
       t.link.exchange.map Exchange.feeder = some 0 ∧ t.link.slots.get 0 = none ∧
         t.link.slots.get 1 = some (.release 2#8)) ∧
      (after .settleEnd { onLine base .settle none with link := { (onLine base .settle none).link with
        resyncOwed := true } }).link.line = .resync :=
  ⟨settled_of (by decide +kernel), by decide +kernel⟩

/-- Feeder 0 riding, an attempt of its ENGAGE on the line. -/
def riding (l : LineState) (attempt : Nat) : State := onLine (at50 .ride) l (some (exchange0 request0 attempt))

theorem test_hyps_AttemptFails :
    (riding .wait 4).settled ∧ (riding .receive 5).settled ∧
      (after .responseTimeout (riding .wait 4)).link.exchange.map Exchange.causes = some [.crc, .crc, .crc, .noReply] ∧
      ((after .responseTimeout (riding .wait 5)).ctl.get 0).reason = .link ∧
      (after .replyBreakOff (riding .receive 1)).link.exchange.map Exchange.causes = some [.malformed] ∧
      ((after .replyBreakOff (riding .receive 5)).ctl.get 0).state = .fault ∧
      failsWith (judgeReply .engage 0#4 (replyOf [0xD1#8, 0#8, 0#8]) true) .wrongUnit = true ∧
      (after (.replyComplete (replyOf [0xD1#8, 0#8, 0#8]) true) (riding .receive 1)).link.exchange.map Exchange.causes =
        some [.wrongUnit] :=
  ⟨settled_of (by decide +kernel), settled_of (by decide +kernel), by decide +kernel⟩

/-- The reference of the tests costs its feeder the rating, 40; the unit applied 900. -/
theorem test_hyps_DoneInRide :
    (riding .receive 1).settled ∧ (riding .receive 1).link.line = .receive ∧
      (riding .receive 1).link.exchange = some (exchange0 request0 1) ∧ (exchange0 request0 1).discard = false ∧
      ((riding .receive 1).ctl.get 0).state = .ride ∧
      givesReply (judgeReply .engage 0#4 (replyOf [0xD0#8, 0x84#8, 3#8]) true) (.done 900) = true ∧
      (let s := { riding .receive 1 with account := (ridersAt 100 90 0 0 0).account }
       let t := after (.replyComplete (replyOf [0xD0#8, 0x84#8, 3#8]) true) s
       t.account.reserved.get 0 = 50 ∧ (t.ctl.get 0).rode = 1 ∧ (t.ctl.get 0).source = .record ∧
         (t.ctl.get 0).lastRef.c.amp = 1000 ∧ t.link.line = .settle) :=
  ⟨settled_of (by decide +kernel), rfl, rfl, rfl, by decide +kernel⟩

/-- Feeder 0 riding, three ENGAGEs in a row refused. -/
def thirdRefusal : State :=
  let c := { FeederCtl.reset with state := .ride, notReadyRun := 3 }
  { riding .receive 1 with ctl := base.ctl.set 0 c }

/-- Each other reply, to a feeder in the state it matters in. -/
theorem test_hyps_OtherReplies :
    let replied := fun (x : FeederState) (r : Request) (bytes : List Byte) =>
      (after (.replyComplete (replyOf bytes) true) (onLine (at50 x) .receive (some (exchange0 r 1)))).ctl.get 0
    (riding .receive 1).settled ∧ givesReply (judgeReply .engage 0#4 (replyOf [0xE0#8, 2#8]) true) .hot = true ∧
      (replied .ride request0 [0xE0#8, 2#8]).reason = .modulator ∧
      (replied .ride request0 [0xE0#8, 1#8]).notReadyRun = 1 ∧
      (replied .shed request0 [0xD0#8, 0#8, 0#8]).rode = 0 ∧
      (replied .recover (.release 50#8) [0xD0#8, 0#8, 0#8]).reason = .released ∧
      (replied .recover (.release 50#8) [0xE0#8, 1#8]).state = .standby ∧
      (replied .shed (.release 50#8) [0xD0#8, 0#8, 0#8]).state = .shed ∧
      (replied .arming (.statusq 50#8) [0xF0#8, 1#8]).state = .standby ∧
      (replied .arming (.statusq 50#8) [0xF0#8, 2#8]).ready = false ∧
      (replied .arming (.statusq 50#8) [0xF0#8, 3#8]).state = .fault ∧
      (replied .standby (.statusq 50#8) [0xF0#8, 1#8]).ready = false ∧
      ((after (.replyComplete (replyOf [0xE0#8, 1#8]) true) thirdRefusal).ctl.get 0).reason = .modulator :=
  ⟨settled_of (by decide +kernel), by decide +kernel⟩

/-! ## Commands: the downstream port -/

/-- The writer with a record in progress and its word `k` on the port. -/
def writing (k : Nat) (second : Bool) : State :=
  { withStaged 2 with
    writer := { (withStaged 2).writer with inProgress := some ⟨k, second⟩, nextSeq := 11#16 }
    bus := { base.bus with port := .writer ⟨.record k, 0x32000#32, 0#32, false, false, false⟩ false } }

/-- A mirror word or a result word on the port. -/
def writingTo (x : WriterTarget) (v : Word) : State :=
  { base with
    writer := { base.writer with producer := 3#16, mirrorDirty := (List.replicate 40 false).set 4 true
                                 resultDirty := base.writer.resultDirty.set 0 ((List.replicate 8 false).set 7 true) }
    bus := { base.bus with port := .writer ⟨x, 0#32, v, false, false, false⟩ false } }

theorem test_hyps_WriterWordComplete :
    (writing 6 false).calm ∧ (writingTo (.mirror 4) 3#32).calm ∧ (writing 7 false).writer.burst = none ∧
      (after (.writerWordComplete false) (writing 6 false)).writer.inProgress = some ⟨7, false⟩ ∧
      (after (.writerWordComplete false) (writing 7 false)).writer.staging.length = 1 ∧
      (after (.writerWordComplete false) (writing 7 false)).writer.producer = 1#16 ∧
      (after (.writerWordComplete true) (writing 3 false)).writer.inProgress = some ⟨0, true⟩ ∧
      (after (.writerWordComplete true) (writing 3 true)).writer.staging.map Record.seq = [8#16] ∧
      (after (.writerWordComplete true) (writing 3 true)).writer.dropped = 1 ∧
      (after (.writerWordComplete false) (writingTo (.mirror 4) 3#32)).writer.published = 3#16 ∧
      (after (.writerWordComplete true) (writingTo (.mirror 4) 3#32)).writer.published = 0#16 ∧
      (after (.writerWordComplete false) (writingTo (.result 0 7) 3#32)).writer.resultDirty =
        base.writer.resultDirty ∧
      (after (.writerWordComplete true) (writingTo (.result 0 7) 3#32)).writer.resultDirty ≠
        base.writer.resultDirty :=
  ⟨calm_of (by decide +kernel), calm_of (by decide +kernel), by decide +kernel⟩

/-- Global words 4 to 9 of the table image. -/
def globalWords : List Word :=
  [pack [(64, 0, 8), (4, 8, 8), (3, 16, 8), (3, 24, 8)], pack [(900, 0, 16), (100, 16, 16)],
   pack [(950, 0, 16), (3, 16, 8), (1, 24, 8)], pack [(5000, 0, 16), (2, 16, 8), (200, 24, 8)],
   pack [(100, 0, 16), (65535, 16, 16)], pack [(255, 0, 8), (8, 16, 13)]]

/-- The image of a feeder entry, on curve 0, with feeder 0 alone enabled. -/
def entryWords (f : Nat) : List Word :=
  [pack [(bit (f == 0), 0, 1), (1, 1, 1), (f, 4, 3), (f, 12, 3), (3, 16, 4)], pack [(1000, 0, 16), (20, 16, 8), (10, 24, 8)],
   10000#32, 20#32]

/-- The image of a curve of one breakpoint. -/
def curveWords : List Word := [1#32, pack [(900, 0, 10), (20, 16, 10)], 0#32, 0#32, 0#32, 0#32, 0#32]

/-- The image of the window entries. -/
def windowWords : List Word :=
  [6#32, 0x10000#32, pack [(1, 0, 4), (12, 8, 5)], 0x20000#32, pack [(3, 0, 4), (7, 8, 5)], 0x30000#32,
   pack [(2, 0, 4), (8, 8, 5)], 0x31000#32, pack [(4, 0, 4), (5, 8, 5)], 0x32000#32, pack [(5, 0, 4), (9, 8, 5)], 0x33000#32,
   pack [(6, 0, 4), (8, 8, 5)]]

/-- The same word of the writer, out of date since an installation moved its window. -/
def outdated (s : State) : State :=
  match s.bus.port with
  | .writer w d => { s with bus := { s.bus with port := .writer { w with moved := true } d } }
  | .free => s
  | .upstream => s
  | .loader _ _ => s

/-- The state with HOLD asserted while a word is on the port. -/
def heldFor (h : Hold) (s : State) : State := { s with bus := { s.bus with hold := h } }

/-- A gap word out of date counts for nothing, an error of a record word for a try. -/
theorem test_hyps_WriterWordComplete_moved :
    (outdated (writing 7 false)).calm ∧
      (after (.writerWordComplete false) (outdated (writing 7 false))).writer.inProgress = some ⟨7, false⟩ ∧
      (after (.writerWordComplete false) (outdated (writing 7 false))).writer.staging.length = 2 ∧
      (after (.writerWordComplete true) (outdated (writing 7 false))).writer.inProgress = some ⟨0, true⟩ ∧
      (after (.writerWordComplete false) (outdated (writingTo (.mirror 4) 3#32))).writer.published = 0#16 ∧
      (after (.writerWordComplete false) (outdated (writingTo (.result 0 7) 3#32))).writer.resultDirty =
        (writingTo (.result 0 7) 3#32).writer.resultDirty :=
  ⟨calm_of (by decide +kernel), by decide +kernel⟩

/-- A gap word that completes under HOLD: the burst begins at word 0 at the record's try, with the record that follows where
that word was a record's eighth; the loader's read goes out; a HOLD with no record to write is released. -/
theorem test_hyps_WriterWordComplete_held :
    let bursts := fun (s : State) (err : Bool) =>
      let t := after (.writerWordComplete err) (heldFor .writer s)
      (t.bus.port, t.writer.inProgress)
    let word := fun slot => Port.writer ⟨.record 0, slot, 0xFF330009#32, true, false, false⟩ false
    let reads : State := { writing 3 false with loader := { base.loader with read := some ⟨none, 0, 0⟩ } }
    let loads := heldFor .loader { reads with bus := { reads.bus with gapTimer := some 64 } }
    settles (heldFor .writer (writing 3 true)) = true ∧ settles loads = true ∧
      bursts (writing 3 true) false = (word 0x32000#32, some ⟨0, true⟩) ∧
      bursts (writing 3 false) true = (word 0x32000#32, some ⟨0, true⟩) ∧
      bursts (writing 7 false) false = (word 0x32020#32, some ⟨0, false⟩) ∧
      (after (.writerWordComplete false) loads).bus.port = .loader 0x00FFFF04#32 false ∧
      (after (.writerWordComplete false) loads).bus.hold = .loader ∧
      (after (.writerWordComplete false) (heldFor .writer (writingTo (.mirror 4) 3#32))).bus.turnOwed = true := by
  decide +kernel

/-- Words 4 on. -/
def bodyWords : List Word :=
  globalWords ++ (List.range 8).flatMap entryWords ++ (List.range 8).flatMap (fun _ => curveWords) ++ windowWords

/-- A whole table image, its check word making the sum zero. -/
def image : List Word :=
  [Config.signature, 111#32, 7#32, 0#32 - wordSum ([Config.signature, 111#32, 7#32] ++ bodyWords)] ++ bodyWords

/-- The judgement of an image: none where it passes. -/
def rejection (ws : List Word) : Option Reject :=
  match validate ws with
  | .error r => some r
  | .ok _ => none

theorem validate_of_passes (ws : List Word) (h : rejection ws = none) : ∃ t, validate ws = .ok t := by
  unfold rejection at h
  split at h
  · cases h
  · exact ⟨_, by assumption⟩

/-- The first failing check of each step of R168. -/
theorem test_validation :
    rejection image = none ∧ image.length = 111 ∧ rejection (image.set 0 0#32) = some (.at .signature (some 0)) ∧
      rejection (image.set 1 98#32) = some (.at .length (some 1)) ∧
      rejection (image.set 1 513#32) = some (.at .length (some 1)) ∧
      rejection (image.set 2 8#32) = some (.at .checksum none) := by
  decide +kernel

/-- The loader with so many words of the image read and the next on the port. -/
def loading (n : Nat) (tries : Nat) (s : State) : State :=
  { s with
    loader := { s.loader with read := some ⟨some 0x1000#32, n, tries⟩, image := image.take n }
    bus := { s.bus with port := .loader (0x1000#32 + BitVec.ofNat 32 (4 * n)) false } }

/-- The loader asking for word 1 of the start block. -/
def asking (s : State) : State :=
  { s with
    loader := { s.loader with read := some ⟨none, 0, 0⟩, image := [] }
    bus := { s.bus with port := .loader Config.tablePointer false } }

theorem test_hyps_LoaderReadComplete :
    let read := fun (s : State) (d : Word) (e : Bool) => (after (.loaderReadComplete d e) s).loader
    (loading 5 2 State.reset).calm ∧ (loading 5 2 State.reset).bus.port = .loader 0x1014#32 false ∧
      (read (loading 5 2 State.reset) 9#32 true).read = some ⟨some 0x1000#32, 5, 3⟩ ∧
      (read (loading 5 3 State.reset) 9#32 true).mode = .failed ∧
      (read (loading 5 3 base) 9#32 true).mode = .active ∧
      (after (.loaderReadComplete 9#32 true) (loading 5 3 base)).writer.staging.map Record.body =
        [.tableRejected (some 0x1000#32) ⟨.readFailed, some 6, none, none⟩ image[0]? image[1]? image[2]?] ∧
      (read (asking State.reset) 0x1003#32 false).read = some ⟨some 0x1000#32, 0, 0⟩ ∧
      (read (loading 1 0 State.reset) 111#32 false).read = some ⟨some 0x1000#32, 2, 0⟩ ∧
      (read (loading 2 0 State.reset) 7#32 false).read = some ⟨some 0x1000#32, 3, 0⟩ ∧
      (read (loading 109 0 State.reset) 0x33000#32 false).read = some ⟨some 0x1000#32, 110, 0⟩ ∧
      tableLength image = 111 ∧ headerReject (image.take 3) = none :=
  ⟨calm_of (by decide +kernel), by decide +kernel⟩

/-- A word of the loader's that completes with HOLD asserted for the writer is read, and the burst begins. -/
theorem test_hyps_LoaderReadComplete_held :
    let s := heldFor .writer (loading 5 2 (withStaged 8))
    let t := after (.loaderReadComplete 9#32 true) s
    settles s = true ∧ s.bus.port = .loader 0x1014#32 false ∧ s.writer.burst = none ∧ t.loader.read = some ⟨some 0x1000#32, 5, 3⟩ ∧
      t.bus.hold = .writer ∧ t.writer.burst = some ⟨0x32000#32, false, false⟩ ∧
      t.bus.port = .writer ⟨.record 0, 0x32000#32, 0xFF330009#32, true, false, false⟩ false := by
  decide +kernel

/-- The last word of the image at start-up: the table is installed; with another last word it fails. -/
theorem test_hyps_StartUpInstallation :
    let s := loading 110 0 State.reset
    let t := after (.loaderReadComplete (image.getD 110 0#32) false) s
    s.calm ∧ s.table = none ∧ s.loader.image ++ [image.getD 110 0#32] = image ∧ tableLength image ≤ 110 + 1 ∧
      rejection image = none ∧ rejection (s.loader.image ++ [0#32]) = some (.at .checksum none) ∧
      t.loader.mode = .active ∧ t.loader.flt = false ∧ (t.ctl.get 0).state = .arming ∧ (t.ctl.get 1).state = .off ∧
      t.link.line = .resync ∧ (t.writer.staging.map fun r => r.body.kind) = [11, 3] ∧
      (after (.loaderReadComplete 0#32 false) s).loader.mode = .failed :=
  ⟨calm_of (by decide +kernel), by decide +kernel⟩

/-! ## Commands: HOLD and reloads -/

/-- Eight records staged, with the writer first in the queue for a HOLD that no event has judged yet. -/
def urgent (p : Port) : State :=
  { withStaged 8 with bus := { base.bus with port := p, holdQueue := [.writer] } }

/-- The loader first in the queue for HOLD, waiting to read. -/
def loaderFirst (p : Port) : State :=
  { base with
    loader := { base.loader with read := some ⟨none, 0, 0⟩ }
    bus := { base.bus with port := p, holdQueue := [.loader], gapTimer := some 64 } }

/-- The same with an upstream turn owed, or with no request made. -/
def owing (s : State) : State := { s with bus := { s.bus with turnOwed := true } }

def unasked (s : State) : State := { s with bus := { s.bus with holdQueue := [] } }

theorem test_hyps_HoldEvents :
    let burst := Port.writer ⟨.record 0, 0x32000#32, 0xFF330009#32, true, false, false⟩ false
    let loads := after .loaderGapTimeout (unasked (loaderFirst .upstream))
    (urgent .upstream).holdGranted .writer = true ∧ (urgent .free).burstWanted = true ∧
      (urgent .free).writer.burst = none ∧ (urgent .free).bus.holdWithdrawn = false ∧
      (after .writerBurstHold (urgent .upstream)).bus.hold = .writer ∧
      (after .writerBurstHold (urgent .upstream)).bus.port = .upstream ∧
      (after .writerBurstHold (urgent .free)).bus.hold = .writer ∧
      (after .writerBurstHold (urgent .free)).writer.burst.map Burst.slot = some 0x32000#32 ∧
      (after .writerBurstHold (urgent .free)).bus.port = burst ∧
      settles base = true ∧ (after .writerBurstHold base).bus.hold = .released ∧
      (after .loaderHold base).bus.hold = .released ∧
      (loaderFirst .upstream).holdGranted .loader = true ∧
      (after .loaderHold (loaderFirst .upstream)).bus.hold = .loader ∧
      (after .loaderHold (loaderFirst .free)).bus.port = .loader 0x00FFFF04#32 false ∧
      settles (unasked (loaderFirst .upstream)) = true ∧ loads.bus.hold = .loader ∧ loads.bus.holdQueue = [] ∧
      settles (owing (unasked (loaderFirst .upstream))) = true ∧
      (after .loaderGapTimeout (owing (unasked (loaderFirst .upstream)))).bus.holdQueue = [.loader] := by
  decide +kernel

/-- The record that brings staging to 8 has HOLD asserted in its own event (R149 step 1): at a busy port the access on it
goes on; at a FREE port the burst begins; with a turn owed the request waits. -/
theorem test_hold_asserted_at_once :
    let eighth := fun (p : Port) (owed : Bool) =>
      let s := inState (withStaged 7) 0 .standby
      after (.malmAssert 0) { s with bus := { s.bus with port := p, turnOwed := owed } }
    (eighth .upstream false).writer.staging.length = 8 ∧ (eighth .upstream false).bus.hold = .writer ∧
      (eighth .upstream false).bus.port = .upstream ∧ (eighth .upstream false).writer.burst = none ∧
      (eighth .free false).bus.hold = .writer ∧
      (eighth .free false).bus.port =
        .writer ⟨.record 0, 0x32000#32, 0xFF330009#32, true, false, false⟩ false ∧
      (eighth .upstream true).bus.hold = .released ∧ (eighth .upstream true).bus.holdQueue = [.writer] := by
  decide +kernel

/-- The access that clears an owed turn has HOLD asserted in its own event for the party whose request came first. -/
theorem test_hold_after_the_owed_turn :
    let read : Access := ⟨0x100#32, false, 1#2, 15#4, 0#32⟩
    let turn := fun s : State => (after (.plainAccess read) (owing s)).bus
    settles (owing (urgent .free)) = true ∧ base.classify 0x100#32 = .plain ∧
      (turn (urgent .free)).hold = .writer ∧ (turn (urgent .free)).port = .upstream ∧
      (turn (urgent .free)).holdQueue = [] ∧ (turn (loaderFirst .free)).hold = .loader ∧
      (turn base).hold = .released := by
  decide +kernel

/-- A refused write that has waited brings the eighth record: HOLD is asserted before the next access is taken, and the burst
begins (R148, R149). -/
theorem test_hold_before_the_next_access :
    let write : Access := ⟨0x32000#32, true, 1#2, 15#4, 0#32⟩
    let read : Access := ⟨0x100#32, false, 1#2, 15#4, 0#32⟩
    let s : State := { busy with
      writer := (withStaged 7).writer
      bus := { busy.bus with waiting := [write, read] } }
    let t := after (.upstreamAccessComplete 7#32 false) s
    settles s = true ∧ accessPermitted (s.classify write.addr) write = false ∧ t.writer.staging.length = 8 ∧
      t.bus.hold = .writer ∧ t.bus.waiting = [read] ∧
      t.bus.port = .writer ⟨.record 0, 0x32000#32, 0xFF330009#32, true, false, false⟩ false := by
  decide +kernel

/-- The held image of the tests, installed in the part at rest. -/
def held : State := withImage image base

theorem test_hyps_ReloadEvents :
    let requested : State := { base with loader := { base.loader with reload := .requested } }
    let t := after .heldImageInstall held
    held.settled ∧ requested.settled ∧ held.quiescent = true ∧ held.table = some table ∧ held.loader.reload = .held ∧
      held.loader.heldAddr = some 0x1000#32 ∧ rejection held.loader.image = none ∧
      (after .reloadReadStart requested).loader.reload = .reading ∧
      (after .reloadReadStart base).loader.reload = .none ∧
      (t.ctl.get 0).state = .arming ∧ (t.ctl.get 1).state = .off ∧ (t.ctl.get 1).reason = .disabled ∧
      (t.ctl.get 4).reason = .none ∧ t.loader.reload = .none ∧
      (after .heldImageInstall (withImage image (inState base 0 .ride))).loader.reload = .held :=
  ⟨settled_of (by decide +kernel), settled_of (by decide +kernel), by decide +kernel⟩

/-! ## The feeder controllers at a boundary -/

/-- Verdicts of a boundary. -/
def verdicts (onset interruption ended invalidLimit : Bool) : Verdicts :=
  { residuals := ⟨700, 900, 900⟩, valid := true, onset := onset, interruption := interruption, ended := ended,
    invalidLimit := invalidLimit }

/-- An episode of so many sags, its quiet counter at `q`. -/
def episodeOf (sags : Nat) (q : Option Nat) : Episode :=
  { sagCount := sags, riddenTotal := 0, worst := .tolerated, firstOnsetHc := 0#8, firstOnsetStamp := 0#32, quiet := q }

/-- Where a boundary takes feeder 0: the state and the reason. -/
def moved (c : FeederCtl) (v : Verdicts) : FeederState × Reason :=
  let t := State.boundary { at50 .off with ctl := base.ctl.set 0 c } 0 v
  ((t.ctl.get 0).state, (t.ctl.get 0).reason)

/-- A controller in a state. -/
def ctlIn (x : FeederState) : FeederCtl := { FeederCtl.reset with state := x }

theorem test_hyps_BoundaryMoves :
    let calm := verdicts false false false false
    let onset := verdicts true false false false
    (at50 .standby).quietExpires 0 = false ∧
      State.quietExpires { base with ctl := base.ctl.set 0 { ctlIn .shed with episode := some (episodeOf 1 (some 18)) } } 0
        = false ∧
      moved (ctlIn .off) onset = (.off, .none) ∧ moved (ctlIn .fault) onset = (.fault, .none) ∧
      moved { ctlIn .arming with ready := true } calm = (.standby, .ready) ∧
      moved (ctlIn .arming) calm = (.arming, .none) ∧ moved (ctlIn .standby) onset = (.watch, .onset) ∧
      moved (ctlIn .recover) (verdicts true true false false) = (.shed, .interruption) ∧
      moved { ctlIn .standby with episode := some (episodeOf 3 none) } onset = (.shed, .episodeLimit) ∧
      moved { ctlIn .standby with episode := some (episodeOf 2 none) } onset = (.watch, .onset) ∧
      moved (ctlIn .standby) (verdicts false false false true) = (.arming, .invalid) ∧
      moved (ctlIn .recover) (verdicts false false false true) = (.shed, .samplesInvalid) ∧
      moved (ctlIn .ride) (verdicts false true true true) = (.shed, .samplesInvalid) ∧
      moved (ctlIn .watch) (verdicts false true true false) = (.shed, .interruption) ∧
      moved (ctlIn .watch) (verdicts false false true false) = (.standby, .sagEnd) ∧
      moved (ctlIn .ride) (verdicts false false true false) = (.recover, .sagEnd) ∧
      moved { ctlIn .ride with rode := 8 } calm = (.shed, .rideLimit) ∧
      moved { ctlIn .ride with rode := 7 } calm = (.ride, .none) ∧ moved (ctlIn .shed) calm = (.shed, .none) := by
  decide +kernel

/-! ## Figures, groups, evaluators and the account -/

/-- Sums and counts at their largest values, a half-cycle with N/2 samples and one short of it, the head's last count,
and the verdicts where the levels and the confirm count meet. -/
theorem test_hyps_ResidualIsLargest :
    let full : Accum := { sum := ⟨2 ^ 48 - 2, 0, 5⟩, count := ⟨65535, 0, 31⟩, mark := false }
    let judge := fun (confirm run : Nat) (sagOpen valid : Bool) (r : Phases Nat) =>
      let x := Monitor.judge { Monitor.reset with endConfirm := confirm, invalidRun := run } settings sagOpen valid r
      (x.1.endConfirm, x.1.invalidRun, [x.2.onset, x.2.interruption, x.2.ended, x.2.invalidLimit])
    full.add ⟨some 2#16, none, some 0xFFFD#16⟩ true = ⟨⟨2 ^ 48 - 1, 0, 14⟩, ⟨65535, 0, 32⟩, true⟩ ∧
      (full.join ⟨⟨3, 2, 1⟩, ⟨1, 2, 3⟩, false⟩) = ⟨⟨2 ^ 48 - 1, 2, 6⟩, ⟨65535, 2, 34⟩, false⟩ ∧
      Accum.valid ⟨⟨0, 0, 0⟩, ⟨32, 32, 32⟩, false⟩ 64 = true ∧ Accum.valid ⟨⟨0, 0, 0⟩, ⟨32, 31, 32⟩, false⟩ 64 = false ∧
      Accum.valid ⟨⟨0, 0, 0⟩, ⟨32, 32, 32⟩, true⟩ 64 = false ∧
      goesToHead 64 none = true ∧ goesToHead 64 (some 64) = true ∧ goesToHead 64 (some 65) = false ∧
      judge 0 2 false true ⟨900, 900, 900⟩ = (0, 0, [false, false, false, false]) ∧
      judge 1 2 false true ⟨900, 899, 900⟩ = (1, 0, [true, false, false, false]) ∧
      judge 1 0 true true ⟨99, 99, 99⟩ = (0, 0, [false, true, false, false]) ∧
      judge 1 0 true true ⟨99, 99, 100⟩ = (0, 0, [false, false, false, false]) ∧
      judge 0 0 true true ⟨950, 950, 950⟩ = (1, 0, [false, false, false, false]) ∧
      judge 1 0 true true ⟨950, 950, 950⟩ = (0, 0, [false, false, true, false]) ∧
      judge 1 0 true true ⟨950, 950, 949⟩ = (0, 0, [false, false, false, false]) ∧
      judge 1 1 true false ⟨0, 0, 0⟩ = (1, 2, [false, false, false, false]) ∧
      judge 1 2 true false ⟨0, 0, 0⟩ = (1, 3, [false, false, false, true]) ∧
      judge 1 3 true false ⟨0, 0, 0⟩ = (1, 4, [false, false, false, false]) := by
  decide +kernel

/-- A restart group and a lost tracker in each state they matter in: what feeder 0 goes to, with its reason. -/
theorem test_hyps_GapClasses :
    let went := fun s : State => ((s.ctl.get 0).state, (s.ctl.get 0).reason)
    let alarmed : State := { at50 .standby with malm := Per8.replicate true }
    let t := (at50 .ride).samplerRestart 0
    (3 : Nat) ≤ 7 ∧ went ((at50 .off).trackerLost 0) = (.off, .none) ∧ went ((at50 .arming).trackerLost 0) = (.arming, .none) ∧
      went ((at50 .standby).trackerLost 0) = (.arming, .sync) ∧ went (alarmed.trackerLost 0) = (.fault, .alarm) ∧
      went ((at50 .watch).trackerLost 0) = (.shed, .syncLost) ∧ went ((at50 .recover).trackerLost 0) = (.shed, .syncLost) ∧
      went t = (.shed, .syncLost) ∧ (t.trackers.get 0).sync = .seek ∧ (t.trackers.get 0).hc = 50#8 ∧
      (t.writer.staging.map Record.body) =
        [.syncChange 0 .locked .seek .restart 0 50#8, .feederState 0 .ride .shed .syncLost] ∧
      went ((inState base 0 .standby).samplerRestart 0) = (.standby, .none) ∧
      ((inState base 0 .standby).samplerRestart 0).writer.staging = [] ∧
      (((at50 .standby).samplerRestart 0).monitors.get 0).silence = some 5000 := by
  decide +kernel

/-- The evaluator with a sag open at the boundaries of section 4.7, with none open, and with the applied mark set. -/
theorem test_hyps_TimeToTripIsLeast :
    let e : Evaluator := Evaluator.reset.openSag curve2 640
    let spent : Evaluator := { e with counters := [0, 0, 2, 0, 0, 0] }
    e.counters = [0, 0, 0, 0, 0, 0] ∧ e.sagOpen = true ∧ e.ttt = some 6 ∧ e.lastLowest = 1000 ∧
      (e.close curve2 true ⟨640, 610, 980⟩).1.counters = [1, 1, 0, 0, 0, 0] ∧
      (e.close curve2 true ⟨640, 610, 980⟩).1.lastLowest = 610 ∧
      ({ e with applied := true }.close curve2 true ⟨640, 610, 980⟩).1.counters = [0, 0, 0, 0, 0, 0] ∧
      ({ e with applied := true }.close curve2 true ⟨640, 610, 980⟩).1.applied = false ∧
      ({ e with lastLowest := 455 }.close curve2 false ⟨0, 0, 0⟩).1.counters = [1, 1, 1, 0, 0, 0] ∧
      (Evaluator.reset.close curve2 true ⟨640, 610, 980⟩).1 = { Evaluator.reset with lastLowest := 610 } ∧
      (e.close curve2 true ⟨640, 610, 980⟩).2 = false ∧ (spent.close curve2 true ⟨455, 610, 980⟩).2 = true ∧
      (spent.close curve2 true ⟨455, 610, 980⟩).1.exceeded = true ∧
      ({ spent with exceeded := true }.close curve2 true ⟨455, 610, 980⟩).2 = false ∧
      (e.closeSag).ttt = none ∧ (e.applyNotice 7#8 7#8).applied = true ∧ (e.applyNotice 7#8 8#8).applied = false := by
  decide +kernel

/-- The last victim is the one whose reservation is needed; a requirement of 0 asks nothing; one within the reservation
lowers it. -/
theorem test_victims_stop_at_the_request :
    let s := ridersAt 400 0 150 100 100
    (s.requestEnergy 0 50).1.account.reserved = ⟨50, 150, 100, 100, 0, 0, 0, 0⟩ ∧
      (s.requestEnergy 0 150).1.account.reserved = ⟨150, 150, 100, 0, 0, 0, 0, 0⟩ ∧
      (s.requestEnergy 0 151).1.account.reserved = ⟨151, 150, 0, 0, 0, 0, 0, 0⟩ ∧
      s.requestEntry 0 0 = (s, true) ∧ s.requestRide 1 40 = (s.putReserved 1 40, true) ∧
      (s.requestRide 1 150).1 = s ∧ (s.requestRide 1 201).1.account.reserved = ⟨0, 201, 100, 0, 0, 0, 0, 0⟩ := by
  decide +kernel

/-! ## Words to memory; boundaries of an instant -/

/-- A closed sag record with every value within its range. -/
def sag0 : SagRecord :=
  { onsetHc := 61#8, onsetStamp := 9#32, minimum := ⟨455, 1999, 300⟩, duration := 8, ridden := 5, autoHold := 2
    limited := true, clampedSeen := false, phaseJump := true, toleranceExceeded := false, interruption := true
    largestGap := 7, outcome := some .protect }

/-- A result with an identity, and the NONE result of a start-up. -/
def result0 : Result :=
  { number := 3#8, code := .committed, clamped := true, limited := false, unflipped := true, ident := some ⟨41#8, 51#8⟩
    judgedAt := 50#8, applied := some 1000, source := .record, page := .page1 }

/-- What the part writes for a record of each shape, for a result, and in the mirror. -/
theorem test_words_to_memory :
    Body.words (.sagClosed 0 sag0) = [0x0715023D#32, 9#32, 0x07CF01C7#32, 0x0008012C#32, 0x0205#32, 0#32] ∧
      Body.words (.phaseJump 0 (-20) .coasting 121#8) = [0x7902FFEC#32, 0#32, 0#32, 0#32, 0#32, 0#32] ∧
      Body.words (.linkLadder 0 2#4 .engage 51#8 [.crc, .noReply, .malformed, .crc]) =
        [0x3312#32, 0x02050102#32, 0#32, 0#32, 0#32, 0#32] ∧
      Body.words (.shortfall 4130 344 260 275 205 [(2, 70)]) =
        [0x01581022#32, 0x01130104#32, 0#32, 70#32, 0#32, 0#32] ∧
      Body.words (.tableRejected none ⟨.readFailed, some 0, none, none⟩ none none none) =
        [0#32, 0x0004000A#32, 0#32, 0#32, 0#32, 0#32] ∧
      result0.words = [0x01150F03#32, 0x80323329#32, 0x800003E8#32, 0#32, 0#32, 0#32, 0#32, 0#32] ∧
      (List.range 8).map base.mirrorWord = [2#32, 0#32, 0#32, 0#32, 0#32, 0#32, 0#32, 7#32] ∧
      (at50 .ride).mirrorWord 8 = 4#32 ∧ (at50 .ride).mirrorWord 9 = 0x3201#32 ∧ (at50 .ride).mirrorWord 11 = 0xFFFF0000#32 ∧
      (∀ i : Fin 8, base.resultWord 0 i.val = 0#32) := by
  decide +kernel

/-- Feeder 0's tracker LOCKED with a count, its half-cycle open with enough samples on every phase. -/
def beforeBoundary (x : FeederState) (c : Nat) : State :=
  { inState gapStart 0 x with
    monitors := gapStart.monitors.set 0
      { gapStart.monitors.get 0 with
        head := ⟨Phases.replicate (40 * 268435456), ⟨40, 40, 40⟩, false⟩, tail := ⟨⟨0, 0, 0⟩, ⟨4, 4, 4⟩, false⟩ }
    trackers := base.trackers.set 0 { locked c with last := some .negative } }

/-- An instant at a crossing in the window, at an early crossing, at N + W without one, and a move to LOST. -/
theorem test_boundaries_of_an_instant :
    let up : Instant := ⟨⟨some 2#16, some 3#16, some 4#16⟩, .positive, false⟩
    let down : Instant := ⟨⟨some 2#16, some 3#16, some 4#16⟩, .negative, false⟩
    let here := (beforeBoundary .off 64).takeInstant 0 up
    let early := (beforeBoundary .standby 44).takeInstant 0 up
    let late := (beforeBoundary .standby 68).takeInstant 0 down
    let last : State :=
      { beforeBoundary .ride 68 with table := some { table with settings := { settings with coastLimit := 1 } } }
    let gone := last.takeInstant 0 down
    (here.trackers.get 0).hc = 121#8 ∧ (here.monitors.get 0).head.count = ⟨1, 1, 1⟩ ∧
      (here.monitors.get 0).tail.count = ⟨0, 0, 0⟩ ∧
      early.writer.staging.map Record.body = [.phaseJump 0 (-20) .locked 121#8] ∧
      (late.monitors.get 0).head.count = ⟨5, 5, 5⟩ ∧ (late.trackers.get 0).sync = .coasting ∧
      (late.writer.staging.map Record.body).head? = some (.syncChange 0 .locked .coasting .coast 0 121#8) ∧
      (gone.writer.staging.map Record.body).take 2 =
        [.syncChange 0 .locked .lost .coast 0 121#8, .feederState 0 .ride .shed .syncLost] := by
  decide +kernel

/-- A pending record of amplitude 1000 that targets half-cycle `t`. -/
def pendingFor (t : BitVec 8) (s : State) : State :=
  let r : Accepted := ⟨0, 41#8, t, ⟨⟨1000, 1#10⟩, ⟨0, 0#10⟩, ⟨0, 0#10⟩⟩, false⟩
  { s with stagers := s.stagers.set 0 { Stager.reset with pending := some r } }

/-- An early jump of a feeder in OFF makes no PHASE_JUMP record and sets no condition; elsewhere the record stands before that
of a pending reference that ends STALE, with the injection source and the page after the event. -/
theorem test_jump_records :
    let up : Instant := ⟨⟨some 2#16, some 3#16, some 4#16⟩, .positive, false⟩
    let quiet := (beforeBoundary .off 44).takeInstant 0 up
    let stale := (pendingFor 130#8 (beforeBoundary .standby 44)).takeInstant 0 up
    quiet.writer.staging = [] ∧ quiet.writer.summary = 0#8 ∧ (quiet.trackers.get 0).hc = 121#8 ∧
      stale.writer.summary = 0x40#8 ∧ (stale.stagers.get 0).pending = none ∧
      stale.writer.staging.map Record.body =
        [.phaseJump 0 (-20) .locked 121#8,
         .refRejected 0 ⟨1#8, .stale, false, false, false, some ⟨41#8, 130#8⟩, 121#8, none, .none, .page0⟩] := by
  decide +kernel

/-! ## The port, bursts, the line and the request slots -/

/-- An upstream access on the port over what the part has to write: dirty mirror words, a dirty result word. -/
def busyOver (mirror : List Nat) (result : Bool) (staged : Nat) : State :=
  { busy with writer := { busy.writer with
      staging := List.replicate staged rec0, producer := 17#16, consumer := 17#16
      mirrorDirty := mirror.foldl (fun l i => l.set i true) busy.writer.mirrorDirty
      resultDirty := if result then busy.writer.resultDirty.set 0 ((List.replicate 8 false).set 2 true)
                     else busy.writer.resultDirty } }

/-- What gets the port at the end of an access: each word of the writer in its turn, a loader's read, nothing, and the
first word under HOLD. -/
theorem test_port_after_an_access :
    let next := fun s : State => (after (.upstreamAccessComplete 7#32 false) s).bus.port
    let word := fun (x : WriterTarget) (a v : Word) (burst : Bool) => Port.writer ⟨x, a, v, burst, false, false⟩ false
    let reading := fun s : State => { s with loader := { s.loader with read := some ⟨some 0x1000#32, 5, 0⟩ } }
    let holding := fun (h : Hold) (s : State) => { s with bus := { s.bus with hold := h } }
    let withdrawn := holding .loader { busy with bus := { busy.bus with holdWithdrawn := true } }
    next (busyOver [4, 9] true 1) = word (.mirror 4) 0x33010#32 17#32 false ∧
      next (busyOver [9] true 1) = word (.record 0) 0x32020#32 0xFF330009#32 false ∧
      next (busyOver [9, 12] true 0) = word (.mirror 9) 0x33024#32 0#32 false ∧
      next (busyOver [] true 0) = word (.result 0 2) 0x20068#32 0#32 false ∧ next (busyOver [] false 0) = .free ∧
      next (reading (busyOver [4] true 1)) = .loader 0x1014#32 false ∧
      next (holding .writer (busyOver [4] true 8)) = word (.record 0) 0x32020#32 0xFF330009#32 true ∧
      next (holding .loader (reading busy)) = .loader 0x1014#32 false ∧
      next withdrawn = .free ∧ (after (.upstreamAccessComplete 7#32 false) withdrawn).bus.hold = .released := by
  decide +kernel

/-- The refused access that waits alone: its answer is the error response, and the port goes on to the part's own word. -/
theorem test_refused_access_in_its_turn :
    let x : Access := ⟨0x32000#32, true, 1#2, 15#4, 0#32⟩
    let s : State := { busy with bus := { busy.bus with waiting := [x] } }
    let t := after (.upstreamAccessComplete 7#32 false) s
    accessPermitted (s.classify x.addr) x = false ∧ t.bus.answer = some ⟨1#2, true, none⟩ ∧ t.bus.waiting = [] ∧
      t.bus.current = none ∧ t.bus.port = .writer ⟨.record 0, 0x32000#32, 0x00F90000#32, false, false, false⟩ false := by
  decide +kernel

/-- HOLD asserted for the writer, so many records staged, a burst at ring slot 0 with a word on the port. -/
def bursting (n : Nat) (b : Burst) (x : WriterTarget) (second : Bool) : State :=
  { withStaged n with
    writer := { (withStaged n).writer with
      inProgress := if b.recordDone then none else some ⟨0, second⟩, nextSeq := 17#16, burst := some b }
    bus := { base.bus with hold := .writer, port := .writer ⟨x, 0#32, 1#32, true, false, false⟩ false } }

/-- The words of a burst: the next record word, the producer word, the end with and without a waiting access, the errors,
the ring moved under it, and a producer word out of date. -/
theorem test_words_of_a_burst :
    let answer := fun (err : Bool) (s : State) => after (.writerWordComplete err) s
    let slot : Burst := ⟨0x32000#32, false, false⟩
    let done : Burst := ⟨0x32000#32, false, true⟩
    let word := fun (x : WriterTarget) (a v : Word) => Port.writer ⟨x, a, v, true, false, false⟩ false
    let last := answer false (bursting 8 slot (.record 7) false)
    let ended := answer false (bursting 8 done (.mirror 4) false)
    let s : State := bursting 8 done (.mirror 4) false
    let waited := answer false { s with bus := { s.bus with waiting := [⟨0x100#32, false, 1#2, 15#4, 0#32⟩] } }
    let stale := answer false { s with bus := { s.bus with port := .writer ⟨.mirror 4, 0#32, 1#32, true, false, true⟩ false } }
    settles (bursting 8 slot (.record 7) true) = true ∧ settles (bursting 8 { slot with moved := true } (.record 7) false) = true ∧
      settles (bursting 7 done (.mirror 4) false) = true ∧
      (answer false (bursting 8 slot (.record 0) false)).bus.port = word (.record 1) 0x32004#32 5#32 ∧
      last.bus.port = word (.mirror 4) 0x33010#32 1#32 ∧ last.writer.staging.length = 7 ∧ last.bus.hold = .writer ∧
      ended.bus.hold = .released ∧ ended.bus.turnOwed = true ∧ ended.writer.published = 1#16 ∧ ended.writer.burst = none ∧
      ended.bus.writerDeferred = true ∧ waited.bus.port = .upstream ∧ waited.bus.turnOwed = false ∧
      waited.bus.hold = .writer ∧ waited.bus.holdQueue = [] ∧
      (answer true (bursting 8 slot (.record 3) false)).writer.inProgress = some ⟨0, true⟩ ∧
      (answer true (bursting 8 slot (.record 3) false)).bus.port = word (.record 0) 0x32000#32 0xFF330009#32 ∧
      (answer true (bursting 8 slot (.record 3) true)).bus.hold = .released ∧
      (answer true (bursting 8 slot (.record 3) true)).writer.dropped = 1 ∧
      (answer false (bursting 8 { slot with moved := true } (.record 3) false)).bus.port =
        word (.record 4) 0x32010#32 0#32 ∧
      (answer false (bursting 8 { slot with moved := true } (.record 7) false)).bus.hold = .released ∧
      (answer false (bursting 8 { slot with moved := true } (.record 7) false)).writer.staging.length = 8 ∧
      stale.bus.hold = .writer ∧ stale.bus.port = word (.mirror 4) 0x33010#32 0#32 := by
  decide +kernel

/-- A record that brings staging back to 8 before the owed turn makes a request that waits before a loader's (R149). -/
theorem test_request_made_before_the_owed_turn :
    let ended := after (.writerWordComplete false) (bursting 7 ⟨0x32000#32, false, true⟩ (.mirror 4) false)
    let again := after (.malmAssert 0) (inState ended 0 .standby)
    let reading := { again with loader := { again.loader with read := some ⟨some 0x1000#32, 5, 0⟩ } }
    ended.bus.writerDeferred = false ∧ ended.bus.holdQueue = [] ∧ ended.bus.turnOwed = true ∧
      again.writer.staging.length = 8 ∧ again.bus.holdQueue = [.writer] ∧
      (after .loaderGapTimeout reading).bus.holdQueue = [.writer, .loader] := by
  decide +kernel

/-- The line at every level: a frame byte, a RESYNC after its break, nothing while LTXEN is released. -/
theorem test_line_output :
    let sent := (onLine base .send (some (exchange0 (.statusq 9#8) 1))).txLine
    let resync := (onLine base .resync none).txLine
    lineBits 0xB0#8 = [.space, .space, .space, .space, .space, .mark, .mark, .space, .mark, .mark] ∧
      sent.length = 30 ∧ sent.take 10 = lineBits 0xB0#8 ∧ resync.length = 50 ∧ resync.take 20 = List.replicate 20 .space ∧
      (onLine base .idle none).txLine = [] ∧ (onLine base .wait (some (exchange0 (.statusq 9#8) 1))).txLine = [] ∧
      (onLine base .send none).ltxen = true ∧ (onLine base .quiet none).ltxen = false := by
  decide +kernel

/-- A request placed on a busy line and on an IDLE one; a STATUSQ that yields; a replaced record. -/
theorem test_placed_requests :
    let record : Accepted := ⟨0, 41#8, 51#8, Reference.zero, false⟩
    let engage : Request := .engage Reference.zero 51#8 .record false (some record)
    let waiting := fun r : Request =>
      let s := onLine (at50 .ride) .send (some (exchange0 (.statusq 1#8) 1))
      { s with link := { s.link with slots := s.link.slots.set 0 (some r) }
               stagers := s.stagers.set 0 { Stager.reset with inSlot := r.record } }
    let replaced := (waiting engage).placeRequest 0 (.release 2#8)
    (waiting engage).placeRequest 0 (.statusq 2#8) = waiting engage ∧
      ((waiting (.statusq 1#8)).placeRequest 0 (.statusq 2#8)).link.slots.get 0 = some (.statusq 2#8) ∧
      replaced.link.slots.get 0 = some (.release 2#8) ∧ (replaced.stagers.get 0).inSlot = none ∧
      (replaced.stagers.get 0).latest.map Result.code = some .superseded ∧
      ((at50 .ride).placeRequest 0 engage).link.line = .send ∧
      (((at50 .ride).placeRequest 0 engage).stagers.get 0).onLine = some record := by
  decide +kernel

/-! ## Validation, the end of a reload's read, windows that move -/

/-- An image with its check word made right again. -/
def checked (ws : List Word) : List Word :=
  let w := ws.set 3 0#32
  w.set 3 (0#32 - wordSum w)

/-- Each later step of validation, the first failure giving the reason and the index; a good MIRROR entry after a bad one
is the second of two (steps 7 and 8). -/
theorem test_validation_steps :
    let judged := fun (i : Nat) (fields : List (Nat × Nat × Nat)) => rejection (checked (image.set i (pack fields)))
    judged 4 [(15, 0, 8), (1, 8, 8), (3, 16, 8)] = some (.at .range (some 4)) ∧
      judged 4 [(16, 0, 8), (2, 8, 8), (3, 16, 8)] = none ∧
      judged 4 [(16, 0, 8), (3, 8, 8), (3, 16, 8)] = some (.at .range (some 4)) ∧
      judged 14 [(1, 0, 1), (0, 4, 3), (1, 12, 3), (3, 16, 4)] = some (.at .priority (some 14)) ∧
      judged 14 [(1, 0, 1), (1, 4, 3), (0, 12, 3), (3, 16, 4)] = some (.at .unit (some 14)) ∧
      rejection (checked ((image.set 42 2#32).set 44 (image.getD 43 0#32))) = some (.at .curveOrder (some 42)) ∧
      judged 106 [(7, 0, 4), (5, 8, 5)] = some ⟨.missingWindow, none, some .control, none⟩ ∧
      judged 110 [(6, 0, 4), (7, 8, 5)] = some ⟨.missingWindow, none, some .mirror, none⟩ ∧
      judged 108 [(5, 0, 4), (8, 8, 5)] = some ⟨.missingWindow, none, some .ring, none⟩ ∧
      judged 100 [(1, 0, 4), (1, 4, 3), (12, 8, 5)] = some ⟨.missingWindow, none, some .sample, some 0⟩ ∧
      judged 104 [(4, 0, 4), (8, 8, 5)] = some (.at .duplicateWindow (some 105)) ∧
      judged 104 [(6, 0, 4), (7, 8, 5)] = some (.at .duplicateWindow (some 109)) ∧
      judged 104 [(7, 0, 4), (8, 8, 5)] = none := by
  decide +kernel

/-- A window entry with a size out of range is named by its second word whatever its base; one with a base not aligned to
its size, by its first (log entry 48). -/
theorem test_window_entry_named :
    let judged := fun (base second : Word) => rejection (checked ((image.set 99 base).set 100 second))
    judged 0x10001#32 (pack [(1, 0, 4), (4, 8, 5)]) = some (.at .range (some 100)) ∧
      judged 0x10010#32 (pack [(1, 0, 4), (12, 8, 5)]) = some (.at .range (some 99)) ∧
      judged 0x10000#32 (pack [(1, 0, 4), (25, 8, 5)]) = some (.at .range (some 100)) := by
  decide +kernel

/-- The part reading a table again, so many words of an image read. -/
def rereading (n : Nat) (ws : List Word) (s : State) : State :=
  let s := loading n 0 { s with loader := { s.loader with reload := .reading } }
  { s with loader := { s.loader with image := ws.take n } }

/-- A reload's header and last word: rejected, held, and installed. -/
theorem test_end_of_a_reload_read :
    let read := fun (n : Nat) (ws : List Word) (s : State) =>
      after (.loaderReadComplete (ws.getD n 0#32) false) (rereading n ws s)
    let bodies := fun s : State => s.writer.staging.map Record.body
    let bad := image.set 0 0#32
    let short := image.set 1 98#32
    (bodies (read 2 bad base)) =
        [.tableRejected (some 0x1000#32) (.at .signature (some 0)) (some 0#32) (some 111#32) (some 7#32)] ∧
      (read 2 bad base).loader.reload = .none ∧
      (bodies (read 2 short base)).map Body.words =
        [[0x1000#32, 0x00040102#32, Config.signature, 98#32, 7#32, 7#32]] ∧
      (read 2 bad { base with table := none }).loader.mode = .failed ∧
      (bodies (read 110 (image.set 110 0#32) base)).map Body.kind = [12] ∧
      (read 110 image (inState base 0 .ride)).loader.reload = .held ∧
      (read 110 image (inState base 0 .ride)).loader.image = image ∧
      (read 110 image base).loader.reload = .none ∧ ((bodies (read 110 image base)).map Body.kind).head? = some 11 ∧
      ((read 110 image base).table.map Table.identity) = some 7#32 := by
  decide +kernel

/-- The last word of a reload's read that is installed, with HOLD released and with the loader's HOLD: the event is the
installation of the held image. -/
theorem test_hyps_installed_at_the_last_word :
    let installs := fun h : Hold =>
      let s := heldFor h (rereading 110 image base)
      let bus := if h = .loader then { s.bus with hold := .released, turnOwed := true, holdWithdrawn := false } else s.bus
      let held := { s with
        bus := { bus with port := .free }
        loader := { s.loader with reload := .held, read := none, image := image, heldAddr := some 0x1000#32 } }
      settles s && settles held && s.quiescent && decide (s.loader.image ++ [image.getD 110 0#32] = image) &&
        decide (after (.loaderReadComplete (image.getD 110 0#32) false) s = after .heldImageInstall held)
    installs .released = true ∧ installs .loader = true ∧ rejection image = none ∧ tableLength image ≤ 110 + 1 ∧
      (rereading 110 image base).bus.port = .loader 0x11B8#32 false := by
  decide +kernel

/-- A reload that takes away feeder 0's REFERENCE window with a word of its result slot on the port: that word is clean where
its write completes, the other seven stay dirty (log entry 47). -/
theorem test_result_word_of_a_window_taken_away :
    let without := checked ((image.set 10 (pack [(1, 1, 1), (3, 16, 4)])).set 102 (pack [(3, 0, 4), (1, 4, 3), (7, 8, 5)]))
    let port : State := { withImage without base with
      writer := { base.writer with resultDirty := base.writer.resultDirty.set 0 (List.replicate 8 true) }
      bus := { base.bus with port := .writer ⟨.result 0 2, 0x20068#32, 5#32, false, false, false⟩ false } }
    let moved := after .heldImageInstall port
    rejection without = none ∧ moved.loader.reload = .none ∧
      (moved.table.bind fun t => t.windowOf .reference 0) = none ∧ moved.bus.port = port.bus.port ∧
      moved.writer.resultDirty.get 0 = List.replicate 8 true ∧
      (after (.writerWordComplete false) moved).writer.resultDirty.get 0 = (List.replicate 8 true).set 2 false ∧
      (after (.writerWordComplete true) moved).writer.resultDirty.get 0 = List.replicate 8 true := by
  decide +kernel

/-- The loader's one word under HOLD: HOLD is released with a turn owed, which an access that waits clears. -/
theorem test_loader_word_under_hold :
    let held := fun waiting : List Access =>
      let s := loading 5 0 State.reset
      { s with bus := { s.bus with hold := .loader, waiting := waiting } }
    let t := after (.loaderReadComplete 9#32 false) (held [])
    let u := after (.loaderReadComplete 9#32 true) (held [⟨0x100#32, false, 1#2, 15#4, 0#32⟩])
    t.bus.hold = .released ∧ t.bus.turnOwed = true ∧ t.bus.port = .loader 0x1018#32 false ∧
      accessPermitted ((held []).classify 0x100#32) ⟨0x100#32, false, 1#2, 15#4, 0#32⟩ = true ∧
      u.bus.hold = .released ∧ u.bus.turnOwed = false ∧ u.bus.port = .upstream ∧ u.bus.waiting = [] ∧
      u.loader.read = some ⟨some 0x1000#32, 5, 1⟩ := by
  decide +kernel

/-- A held image whose ring, mirror or REFERENCE window has moved, or one of whose sample settings has changed, over a
record in progress and a word on the port. -/
theorem test_windows_that_move :
    let old : State := { base with
      trackers := base.trackers.set 0 (locked 5)
      writer := { base.writer with staging := [rec0], inProgress := some ⟨3, true⟩, producer := 9#16, published := 8#16
                                   consumer := 8#16, mirrorDirty := List.replicate 40 false }
      bus := { base.bus with port := .writer ⟨.record 2, 0x32108#32, 5#32, false, false, false⟩ false } }
    let install := fun ws : List Word => after .heldImageInstall (withImage (checked ws) old)
    let ring := install (image.set 107 0x36000#32)
    let mirror := install (image.set 109 0x36000#32)
    let reference := install (image.set 101 0x36000#32)
    let sample := install (image.set 5 (pack [(901, 0, 16), (100, 16, 16)]))
    let same := install image
    ring.writer.producer = 0#16 ∧ ring.writer.consumer = 0#16 ∧ ring.writer.inProgress = some ⟨0, true⟩ ∧
      ring.bus.port = .writer ⟨.record 2, 0x32108#32, 5#32, false, false, true⟩ false ∧
      same.bus.port = old.bus.port ∧ same.writer.producer = 9#16 ∧
      same.writer.inProgress = some ⟨3, true⟩ ∧ mirror.writer.mirrorDirty = List.replicate 40 true ∧
      reference.writer.resultDirty.get 0 = List.replicate 8 true ∧
      same.writer.resultDirty.get 0 = List.replicate 8 false ∧
      (sample.trackers.get 0).sync = .seek ∧ (same.trackers.get 0).sync = .locked ∧
      ((sample.writer.staging.map Record.body).map Body.kind).take 2 = [3, 11] := by
  decide +kernel

/-! ## Decisions at a boundary -/

/-- Feeder 0 at half-cycle 50 in a state, with so much energy, a rode count, and time-to-trip 1. -/
def deciding (x : FeederState) (usable rode : Nat) : State :=
  let s := at50 x
  { s with
    ctl := s.ctl.set 0
      { s.ctl.get 0 with rode := rode, sag := some { sag0 with outcome := none }, episode := some (episodeOf 1 none) }
    evals := s.evals.set 0 { Evaluator.reset with sagOpen := true, ttt := some 1 }
    account := (ridersAt usable 0 0 0 0).account }

/-- The ride decision: a record, whose cost 40 is asked 8 times; the autofill reference, whose cost 12 is asked 8 times;
time-to-trip above the lead; and a refused one. -/
theorem test_ride_decisions :
    let calm := verdicts false false false false
    let close := fun s : State => s.boundary 0 calm
    let went := fun s : State => (((close s).ctl.get 0).state, (close s).account.reserved.get 0,
      (close s).link.exchange.map Exchange.request)
    let record : Accepted := ⟨0, 41#8, 50#8, ⟨⟨1000, 1#10⟩, ⟨0, 0#10⟩, ⟨0, 0#10⟩⟩, false⟩
    let fill : Reference := ⟨⟨300, 0#10⟩, ⟨100, 0#10⟩, ⟨100, 0#10⟩⟩
    went (pendingFor 50#8 (deciding .watch 320 0)) =
        (.ride, 320, some (.engage record.ref 50#8 .record false (some record))) ∧
      went (pendingFor 50#8 (deciding .watch 319 0)) = (.shed, 0, some (.release 50#8)) ∧
      went (pendingFor 51#8 (deciding .watch 96 0)) = (.ride, 96, some (.engage fill 50#8 .autofill false none)) ∧
      went (deciding .watch 95 0) = (.shed, 0, some (.release 50#8)) ∧
      went { deciding .watch 96 0 with evals := base.evals } = (.watch, 0, none) := by
  decide +kernel

/-- The choice of a ride: a record lowers or raises the reservation to its cost times what is left of the limit, autofill
follows, and a refused one is held; and the sag's end closes its record into the episode. -/
theorem test_ride_choices :
    let calm := verdicts false false false false
    let ended := verdicts false false true false
    let went := fun (s : State) (v : Verdicts) => ((s.boundary 0 v).account.reserved.get 0,
      (s.boundary 0 v).link.exchange.map fun x => match x.request with
        | .engage _ _ source _ _ => some source | .release _ => none | .statusq _ => none)
    let held := fun (n : Nat) (s : State) => { s with account := { s.account with reserved := s.account.reserved.set 0 n } }
    let t := (deciding .ride 400 3).boundary 0 ended
    went (pendingFor 50#8 (held 300 (deciding .ride 400 3))) calm = (200, some (some .record)) ∧
      went (pendingFor 50#8 (held 100 (deciding .ride 200 3))) calm = (200, some (some .record)) ∧
      went (pendingFor 50#8 (held 100 (deciding .ride 199 3))) calm = (100, some (some .hold)) ∧
      went (held 100 (deciding .ride 400 3)) calm = (60, some (some .autofill)) ∧
      went (held 10 (deciding .ride 59 3)) calm = (10, some (some .hold)) ∧
      went (held 100 (deciding .ride 400 8)) calm = (0, some none) ∧
      (t.ctl.get 0).state = .recover ∧ (t.ctl.get 0).sag = none ∧
      (t.ctl.get 0).episode.map (fun e => (e.riddenTotal, e.worst, e.quiet)) = some (5, .protect, some 0) ∧
      ((t.writer.staging.map Record.body).map Body.kind) = [1, 3] := by
  decide +kernel

/-- The quiet counter reaches its window, 20, in STANDBY, FAULT and SHED; at 18 it does not. -/
theorem test_quiet_counter :
    let calm := verdicts false false false false
    let close := fun (x : FeederState) (q : Nat) =>
      State.boundary { at50 .off with ctl := base.ctl.set 0 { ctlIn x with episode := some (episodeOf 1 (some q)) } } 0 calm
    let shows := fun (t : State) => ((t.ctl.get 0).state, ((t.ctl.get 0).episode.bind Episode.quiet),
      (t.writer.staging.map Record.body).map Body.kind)
    shows (close .standby 18) = (.standby, some 19, []) ∧ shows (close .standby 19) = (.standby, none, [2]) ∧
      shows (close .fault 19) = (.fault, none, [2]) ∧ shows (close .recover 19) = (.recover, none, [2]) ∧
      shows (close .shed 18) = (.shed, some 19, []) ∧ shows (close .shed 19) = (.arming, none, [2, 3]) ∧
      shows (close .off 19) = (.off, some 19, []) := by
  decide +kernel

/-- An alarm over an open sag and its episode: the records of the entry, in order. -/
theorem test_records_of_an_alarm :
    let t := after (.malmAssert 0) (deciding .ride 400 3)
    (deciding .ride 400 3).settled ∧ ((deciding .ride 400 3).stagers.get 0).pending = none ∧
      t.writer.staging.map Record.body =
        [.feederState 0 .ride .fault .alarm, .sagClosed 0 { sag0 with outcome := some .fault },
         .episodeClosed 0 { episodeOf 1 none with riddenTotal := 5, worst := .shed } .fault 50#8] :=
  ⟨settled_of (by decide +kernel), by decide +kernel⟩

/-! ## Waiting accesses, results and records -/

/-- A RELOAD write that has waited is handed to the loader as its access is taken: after memory's answer, where it finds
READING and abandons the read (R170); after the last word of a burst; and after a word of a loader's read. -/
theorem test_waiting_reload_write :
    let x := processorWrite 0x31004#32 15#4 1#32
    let waits := fun s : State => { inState s 0 .ride with bus := { s.bus with waiting := [x] } }
    let reading : State := { busy with loader := { busy.loader with reload := .reading, read := some ⟨none, 0, 0⟩ } }
    let burst := bursting 8 ⟨0x32000#32, false, true⟩ (.mirror 4) false
    let taken := after (.upstreamAccessComplete 7#32 false) (waits reading)
    let ended := after (.writerWordComplete false) (waits burst)
    let word := after (.loaderReadComplete 9#32 true) (waits (rereading 5 image base))
    accessOf (.reloadWrite 0x31004#32 15#4 1#32) = some x ∧ (waits reading).bus.waiting = [x] ∧
      taken.loader.reload = .requested ∧ taken.loader.read = none ∧ taken.bus.port = .upstream ∧
      (waits burst).bus.hold = .writer ∧ (after (.writerWordComplete false) burst).bus.hold = .released ∧
      ended.loader.reload = .requested ∧ ended.bus.port = .upstream ∧
      (after (.loaderReadComplete 9#32 true) (rereading 5 image base)).loader.read = some ⟨some 0x1000#32, 5, 1⟩ ∧
      word.loader.reload = .requested ∧ word.loader.read = none := by
  decide +kernel

/-- A record of feeder 0's, told by its sequence number. -/
def acceptedAs (seq : BitVec 8) : Accepted := ⟨0, seq, 51#8, ⟨⟨1000, 1#10⟩, ⟨0, 0#10⟩, ⟨0, 0#10⟩⟩, false⟩

/-- Feeder 0 riding with a record on the line, one in the slot and one pending. -/
def threeRecords (s : State) : State :=
  { s with stagers := s.stagers.set 0 { Stager.reset with
      onLine := some (acceptedAs 1#8), inSlot := some (acceptedAs 2#8), pending := some (acceptedAs 3#8) } }

/-- The stager's results, in order, and the FEEDER_STATE record among them: at an alarm (R107), a failed ladder, a hot
modulator and a refusal (R106). -/
theorem test_results_in_order :
    let shown := fun s : State => (s.writer.staging.map Record.body).filterMap fun b => match b with
      | .refRejected _ x => some (x.number, x.code.code, x.ident.map Ident.seq)
      | .feederState .. => some (0#8, 0, none)
      | _ => none
    let change := (0#8, 0, (none : Option (BitVec 8)))
    let three := fun (a b c : ResultCode) => [(1#8, a.code, some 1#8), (2#8, b.code, some 2#8), (3#8, c.code, some 3#8)]
    let replied := fun bytes => after (.replyComplete (replyOf bytes) true) (threeRecords (riding .receive 1))
    let alarm := after (.malmAssert 0) (threeRecords (at50 .ride))
    let failed := after .responseTimeout (threeRecords (riding .wait 5))
    (threeRecords (at50 .ride)).settled ∧
      shown alarm = change :: three .notRiding .notRiding .notRiding ∧
      (alarm.stagers.get 0).number = 3#8 ∧ (alarm.stagers.get 0).latest.map Result.code = some .notRiding ∧
      shown failed = (1#8, ResultCode.linkFailed.code, some 1#8) :: change ::
        (three .linkFailed .notRiding .notRiding).drop 1 ∧
      shown (replied [0xE0#8, 2#8]) = (1#8, ResultCode.refusedByModulator.code, some 1#8) :: change ::
        (three .linkFailed .notRiding .notRiding).drop 1 ∧
      shown (replied [0xE0#8, 1#8]) = [(1#8, ResultCode.refusedByModulator.code, some 1#8)] ∧
      ((replied [0xE0#8, 1#8]).stagers.get 0).pending = some (acceptedAs 3#8) :=
  ⟨settled_of (by decide +kernel), by decide +kernel⟩

/-- The FEEDER_STATE records of a clear request, an expired silence timer, a start-up and a reload, over a feeder whose
alarm is asserted. -/
theorem test_records_of_changes :
    let bodies := fun s : State => s.writer.staging.map Record.body
    let faulted := inState (inState base 0 .fault) 1 .fault
    let alarmed := fun s : State => { s with malm := s.malm.set 0 true }
    bodies (after (.clearWrite 0x31000#32 15#4 3#32) faulted) =
        [.feederState 0 .fault .arming .cleared, .feederState 1 .fault .arming .cleared] ∧
      bodies (after (.silenceExpiry 0) (timed .standby)) = [.feederState 0 .standby .fault .noSamples] ∧
      (bodies (after (.loaderReadComplete (image.getD 110 0#32) false) (loading 110 0 (alarmed State.reset)))).drop 1 =
        [.feederState 0 .off .arming .table, .feederState 0 .arming .fault .alarm] ∧
      (bodies (after .heldImageInstall (alarmed (withImage image (inState base 1 .standby))))).drop 1 =
        [.feederState 0 .off .arming .table, .feederState 0 .arming .fault .alarm,
         .feederState 1 .standby .off .disabled, .feederState 2 .off .off .disabled,
         .feederState 3 .off .off .disabled] := by
  decide +kernel

/-- The records of a boundary, in order: a change of state before the records of its results, a closed sag before the
change, an expired episode before it, and a late record after it. -/
theorem test_records_of_a_boundary :
    let calm := verdicts false false false false
    let kinds := fun (s : State) (v : Verdicts) => (((s.boundary 0 v).writer.staging.map Record.body).map Body.kind)
    let last := fun (s : State) (v : Verdicts) =>
      ((s.boundary 0 v).stagers.get 0).latest.map fun x => (x.code, x.ident.map Ident.seq)
    let waiting := fun (x : FeederState) => pendingFor 51#8 (deciding x 400 8)
    kinds (waiting .ride) calm = [3, 4] ∧ last (waiting .ride) calm = some (.notRiding, some 41#8) ∧
      kinds (waiting .watch) (verdicts false false true false) = [1, 3, 4] ∧
      last (waiting .watch) (verdicts false false true false) = some (.notRiding, some 41#8) ∧
      last (pendingFor 50#8 (deciding .watch 319 0)) calm = some (.refusedEnergy, some 41#8) ∧
      last (pendingFor 49#8 (deciding .ride 400 3)) calm = some (.late, some 41#8) ∧
      kinds (pendingFor 49#8 (deciding .watch 96 0)) calm = [3, 4] ∧
      kinds { at50 .off with ctl := base.ctl.set 0 { ctlIn .shed with episode := some (episodeOf 1 (some 19)) } } calm
        = [2, 3] := by
  decide +kernel

/-! ## Dirty marks, left-over words and the link at a reload -/

/-- Marks set by a change: two words of a feeder that goes to FAULT, one of them on the port; the producer word by a record's
eighth word; all 40 by a start-up; a result slot by a result. -/
theorem test_marks_set :
    let marks := fun s : State => (List.range 40).filter fun i => s.writer.mirrorDirty.getD i false
    let clean := fun s : State => { s with writer := { s.writer with mirrorDirty := List.replicate 40 false } }
    let onPort := fun (x : WriterTarget) (s : State) =>
      { s with bus := { s.bus with port := .writer ⟨x, 0#32, 0#32, false, false, false⟩ false } }
    let changed := fun s : State => match s.bus.port with
      | .writer w _ => w.changed
      | .free => false
      | .upstream => false
      | .loader _ _ => false
    let alarm := fun x : WriterTarget => after (.malmAssert 0) (clean (onPort x (threeRecords (at50 .ride))))
    let started := after (.loaderReadComplete (image.getD 110 0#32) false) (loading 110 0 State.reset)
    (clean (writing 7 false)).marksInv ∧ marks (alarm (.mirror 8)) = [6, 8] ∧ changed (alarm (.mirror 8)) = true ∧
      changed (alarm (.mirror 9)) = false ∧ changed (alarm (.result 0 1)) = true ∧ changed (alarm (.result 1 1)) = false ∧
      (alarm (.mirror 8)).writer.resultDirty.get 0 = List.replicate 8 true ∧
      marks (after (.writerWordComplete false) (clean (writing 7 false))) = [4] ∧
      marks started = List.range 40 ∧ started.writer.resultDirty.get 0 = List.replicate 8 true :=
  ⟨rfl, by decide +kernel⟩

/-- A word left over from before a full reset, and a word of an abandoned read: they count for nothing, and the port goes to
the start-up read, to the access that has waited, or to a later read; a HOLD that waited for the abandoned one falls. -/
theorem test_words_left_over :
    let x := processorWrite 0x31004#32 15#4 1#32
    let reset := after (.powerOn false) { writing 7 false with init := false }
    let wrote := after (.writerWordComplete false) reset
    let abandoned := fun h : Hold =>
      { inState base 0 .ride with bus := { base.bus with port := .loader 0x1000#32 true, hold := h, holdWithdrawn := true } }
    let waits := { abandoned .released with bus := { (abandoned .released).bus with waiting := [x] } }
    let handed := after (.loaderReadComplete 9#32 true) waits
    let freed := after (.loaderReadComplete 9#32 false) (abandoned .loader)
    let later := { abandoned .loader with
      bus := { (abandoned .loader).bus with holdWithdrawn := false }
      loader := { base.loader with read := some ⟨none, 0, 0⟩ } }
    let next := after (.loaderReadComplete 9#32 false) later
    reset.bus.port = .writer ⟨.record 7, 0x32000#32, 0#32, false, false, false⟩ true ∧
      wrote.bus.port = .loader Config.tablePointer false ∧ wrote.writer.producer = 0#16 ∧
      handed.loader.reload = .requested ∧ handed.bus.port = .upstream ∧
      freed.bus.port = .free ∧ freed.bus.hold = .released ∧ freed.bus.turnOwed = true ∧ freed.loader.image = [] ∧
      next.bus.hold = .loader ∧ next.bus.port = .loader Config.tablePointer false := by
  decide +kernel

/-- A reload that takes feeder 1 to OFF and feeder 0 to ARMING: feeder 1's slot is emptied and its exchange marked, feeder
0's request waits on, no RESYNC is owed; the entry actions of both. -/
theorem test_link_at_a_reload :
    let c := { FeederCtl.reset with state := .fault, ready := true, rode := 3, notReadyRun := 2, source := .hold }
    let s := onLine held .wait (some { exchange0 (.statusq 9#8) 1 with feeder := 1 })
    let s := { s with ctl := (s.ctl.set 0 c).set 1 c
                      link := { s.link with slots := ⟨some (.statusq 5#8), some (.statusq 6#8), none, none, none, none, none, none⟩ }
                      monitors := Per8.replicate { Monitor.reset with silence := some 7 } }
    let t := after .heldImageInstall s
    s.settled ∧ s.quiescent = true ∧ t.link.slots.get 0 = some (.statusq 5#8) ∧ t.link.slots.get 1 = none ∧
      t.link.exchange.map Exchange.discard = some true ∧ t.link.line = .wait ∧ t.link.resyncOwed = false ∧
      t.ctl.get 0 = { FeederCtl.reset with state := .arming, reason := .table } ∧
      t.ctl.get 1 = { c with state := .off, reason := .disabled, source := .none } ∧
      (t.monitors.get 0).silence = some 5000 ∧ (t.monitors.get 1).silence = none :=
  ⟨settled_of (by decide +kernel), by decide +kernel⟩

end Sys2Proof.Tests
end

section
/-! What the events of one feeder hand over: the records they stage and the results their stager makes, in order, kept as
a log. Each operation of the feeders' side adds its items to the log; what statements say of records and results is
read off the log at the end of the event. -/

namespace Sys2Proof.Machine

/-! ## The word on the port -/

/-- What a feeder's event can do to the port: a word of the writer on it stays there, and a mark that its value has
changed stays on it (R162). -/
inductive PortKept : Port → Port → Prop where
  | same (p : Port) : PortKept p p
  | word (w w' : WriterWord) (d : Bool) (target : w'.target = w.target)
      (changed : w.changed = true → w'.changed = true) : PortKept (.writer w d) (.writer w' d)

theorem PortKept.trans {p q r : Port} (h : PortKept p q) (k : PortKept q r) : PortKept p r := by
  cases h with
  | same => exact k
  | word w w' d target changed =>
    cases k with
    | same => exact .word w w' d target changed
    | word _ w'' _ target' changed' => exact .word w w'' d (target'.trans target) fun h => changed' (changed h)

theorem PortKept.touch (t : WriterTarget) (p : Port) : PortKept p (p.touch t) := by
  cases p with
  | writer w d => exact .word w _ d rfl fun h => by simp [h]
  | free => exact .same _
  | upstream => exact .same _
  | loader a d => exact .same _

theorem PortKept.moved (t : WriterTarget → Bool) (p : Port) : PortKept p (p.moved t) := by
  cases p with
  | writer w d => exact .word w _ d rfl id
  | free => exact .same _
  | upstream => exact .same _
  | loader a d => exact .same _

theorem PortKept.touchAll (ts : List WriterTarget) (p : Port) : PortKept p (ts.foldl (fun p t => p.touch t) p) := by
  induction ts generalizing p with
  | nil => exact .same p
  | cons t ts ih => exact (PortKept.touch t p).trans (ih _)

theorem State.note_portKept (ws : List Nat) (old s : State) : PortKept s.bus.port (State.note ws old s).bus.port := by
  unfold State.note
  generalize s.mirrorWord = word
  induction ws generalizing s with
  | nil => exact .same _
  | cons i ws ih =>
    rw [List.foldl_cons]
    split
    · exact ih s
    · exact (PortKept.touch (.mirror i) s.bus.port).trans (ih (s.touchMirror i))

theorem State.touchResult_portKept (s : State) (f : Fid) : PortKept s.bus.port (s.touchResult f).bus.port :=
  PortKept.touchAll (List.map (WriterTarget.result f) [0, 1, 2, 3, 4, 5, 6, 7]) s.bus.port

theorem State.putSummary_portKept (s : State) (c : BitVec 8) : PortKept s.bus.port (s.putSummary c).bus.port :=
  State.note_portKept [6] s { s with writer := { s.writer with summary := c } }

theorem State.handRecord_portKept (s : State) (b : Body) : PortKept s.bus.port (s.handRecord b).bus.port := by
  unfold State.handRecord
  refine PortKept.trans ?_ (State.putSummary_portKept _ _)
  split
  · exact .same _
  · exact State.putSummary_portKept
      { s with writer := { s.writer with dropped := min 255 (s.writer.dropped + 1), overrun := true } } _

theorem Move.portKept {s t : State} (h : Move s t) : PortKept s.bus.port t.bus.port := by
  cases h with
  | ctl f c => exact State.note_portKept _ s { s with ctl := s.ctl.set f c }
  | tracker f x => exact State.note_portKept _ s { s with trackers := s.trackers.set f x }
  | eval f x => exact State.note_portKept _ s { s with evals := s.evals.set f x }
  | lower f r _ =>
    exact State.note_portKept _ s { s with account := { s.account with reserved := s.account.reserved.set f r } }
  | grant f d _ =>
    exact State.note_portKept _ s { s with account := { s.account with reserved := s.account.reserved.set f _ } }
  | usable u _ => exact State.note_portKept _ s { s with account := { s.account with usable := u } }
  | notice n => exact .same _
  | monitor f m => exact .same _
  | stager f g => exact .same _
  | result f => exact State.touchResult_portKept s f
  | record b => exact State.handRecord_portKept s b
  | raise c => exact State.putSummary_portKept s _
  | settle before f =>
    simp only [State.settleResults]
    split <;> exact .same _
  | link l => exact .same _
  | draws n => exact .same _

theorem Moves.portKept {s t : State} (h : Moves s t) : PortKept s.bus.port t.bus.port :=
  h.keeps (p := fun u => PortKept s.bus.port u.bus.port) (fun _ _ m k => k.trans m.portKept) (.same _)

/-- The marks of feeder `f`'s result slot are set, and a word of it on the port will stay dirty (R110, R162, R163). -/
def SlotDirty (f : Fid) (s : State) : Prop :=
  s.writer.resultDirty.get f = List.replicate 8 true ∧
    ∀ w d, ∀ i < 8, s.bus.port = .writer w d → w.target = .result f i → w.changed = true

theorem SlotDirty.kept {f : Fid} {s t : State} (h : SlotDirty f s)
    (hd : s.writer.resultDirty.get f = List.replicate 8 true → t.writer.resultDirty.get f = List.replicate 8 true)
    (hp : PortKept s.bus.port t.bus.port) : SlotDirty f t := by
  refine ⟨hd h.1, ?_⟩
  have hs := h.2
  revert hs hp
  generalize s.bus.port = p
  generalize t.bus.port = q
  intro hp hs w d i hi hq ht
  cases hp with
  | same => exact hs w d i hi hq ht
  | word w₀ w' d' target changed =>
    cases hq
    exact changed (hs w₀ d i hi rfl (target ▸ ht))

/-- A word that is touched, alone or among others, has its value marked as changed. -/
theorem Port.touchAll_changed (ts : List WriterTarget) {p : Port} {w : WriterWord} {d : Bool}
    (h : ts.foldl (fun p t => p.touch t) p = .writer w d) (ht : w.target ∈ ts) : w.changed = true := by
  induction ts generalizing p with
  | nil => cases ht
  | cons t ts ih =>
    rw [List.foldl_cons] at h
    rcases List.mem_cons.1 ht with e | ht
    · have kept : PortKept (p.touch t) (.writer w d) := h ▸ PortKept.touchAll ts (p.touch t)
      have touched : ∀ w₀, p.touch t = .writer w₀ d → w₀.target = t → w₀.changed = true := by
        intro w₀ hp ht
        cases p with
        | writer w₁ d₁ =>
          cases hp
          simpa using .inr ht
        | free => cases hp
        | upstream => cases hp
        | loader a b => cases hp
      revert kept touched
      generalize p.touch t = q
      intro kept touched
      cases kept with
      | same => exact touched w rfl e
      | word w₀ _ _ target changed => exact changed (touched w₀ rfl (target ▸ e))
    · exact ih h ht

theorem State.touchResult_slotDirty (s : State) (f : Fid) : SlotDirty f (s.touchResult f) := by
  refine ⟨by simp [State.touchResult], fun w d i hi hp ht => ?_⟩
  refine Port.touchAll_changed (List.map (WriterTarget.result f) [0, 1, 2, 3, 4, 5, 6, 7]) hp ?_
  rw [ht]
  interval_cases i <;> simp

theorem Move.slotDirty {f : Fid} {s t : State} (h : Move s t) (hs : SlotDirty f s) : SlotDirty f t := by
  refine hs.kept (fun hd => ?_) h.portKept
  cases h with
  | result g =>
    by_cases e : f = g
    · subst e; exact (State.touchResult_slotDirty s f).1
    · simpa [State.touchResult, Per8.get_set_ne _ _ e] using hd
  | settle before g =>
    simp only [State.settleResults]
    split <;> exact hd
  | notice n => exact hd
  | monitor f m => exact hd
  | stager f g => exact hd
  | link l => exact hd
  | draws n => exact hd
  | ctl f c => simpa using hd
  | tracker f x => simpa using hd
  | eval f x => simpa using hd
  | lower f r _ => simpa using hd
  | grant f d _ => simpa [State.grant] using hd
  | usable u _ => simpa using hd
  | record b => simpa using hd
  | raise c => simpa using hd

theorem Moves.slotDirty {f : Fid} {s t : State} (h : Moves s t) (hs : SlotDirty f s) : SlotDirty f t :=
  h.keeps (p := SlotDirty f) (fun _ _ m k => m.slotDirty k) hs

theorem slotMarked_of_slotDirty {f : Fid} {s t : State} (h : SlotDirty f t) (k : PortKept s.bus.port t.bus.port) :
    slotMarked s t f := by
  refine ⟨h.1, fun w d i hi hp ht _ => ?_⟩
  have ht' := h.2
  revert k ht'
  rw [hp]
  generalize t.bus.port = q
  intro k dirty
  cases k with
  | same => exact ⟨w, rfl, ht, dirty w d i hi rfl ht⟩
  | word _ w' _ target _ => exact ⟨w', rfl, target.trans ht, dirty w' d i hi rfl (target.trans ht)⟩

/-! ## The records an event hands over -/

/-- From `s` to `t` the records `bs` and no others were handed over, in this order (R155). -/
structure Hands (s t : State) (bs : List Body) : Prop where
  stamp : t.stamp = s.stamp
  grows : s.writer.staging <+: t.writer.staging
  all : recorded s t bs
  first : ∀ b ∈ bs.head?, staged s t b
  none : bs = [] → t.writer.staging = s.writer.staging ∧ t.writer.nextSeq = s.writer.nextSeq ∧
    t.writer.overrun = s.writer.overrun ∧ t.writer.dropped = s.writer.dropped

/-- An operation that leaves staging, the next sequence number and the overrun owed alone hands nothing over. -/
theorem Hands.nothing {s t : State} (stamp : t.stamp = s.stamp) (staging : t.writer.staging = s.writer.staging)
    (seq : t.writer.nextSeq = s.writer.nextSeq) (overrun : t.writer.overrun = s.writer.overrun)
    (dropped : t.writer.dropped = s.writer.dropped) : Hands s t [] :=
  ⟨stamp, staging ▸ List.prefix_rfl, recorded_nil s t staging, (fun _ h => nomatch h),
    fun _ => ⟨staging, seq, overrun, dropped⟩⟩

theorem Hands.refl (s : State) : Hands s s [] := .nothing rfl rfl rfl rfl rfl

/-- A record that is staged stays staged while staging grows. -/
theorem staged_of_grows {s t u : State} {b : Body} (h : staged s t b) (k : t.writer.staging <+: u.writer.staging) :
    staged s u b := by
  intro room
  obtain ⟨rest, e⟩ := k
  have h := h room
  rw [← e, List.getElem?_append_left (List.getElem?_eq_some_iff.1 h).1, h]

theorem Hands.trans {s t u : State} {xs ys : List Body} (h : Hands s t xs) (k : Hands t u ys) :
    Hands s u (xs ++ ys) where
  stamp := k.stamp.trans h.stamp
  grows := h.grows.trans k.grows
  all := recorded_append h.all k.all
  first := by
    intro b hb
    cases xs with
    | cons x xs => exact staged_of_grows (h.first b hb) k.grows
    | nil =>
      obtain ⟨staging, seq, overrun, dropped⟩ := h.none rfl
      have := k.first b hb
      unfold staged at this ⊢
      rwa [staging, seq, overrun, dropped, h.stamp] at this
  none := by
    intro e
    obtain ⟨rfl, rfl⟩ := List.append_eq_nil_iff.1 e
    obtain ⟨a, b, c, d⟩ := h.none rfl
    obtain ⟨a', b', c', d'⟩ := k.none rfl
    exact ⟨a'.trans a, b'.trans b, c'.trans c, d'.trans d⟩

theorem Hands.handRecord (s : State) (b : Body) : Hands s (s.handRecord b) [b] where
  stamp := by simp
  grows := by
    unfold State.handRecord
    rw [State.raise_writer_staging]
    split
    · exact List.prefix_append _ _
    · rw [State.countDrop_writer_staging]
  all := recorded_handRecord s b
  first := by
    rintro _ ⟨⟩
    exact staged_handRecord s b
  none := fun h => nomatch h

end Sys2Proof.Machine
end

section
namespace Sys2Proof.Machine

/-! ## The log of a feeder's event -/

/-- What an event of a feeder hands over: a record of its own, or the end of a reference record, with the injection source
and the committed page as they are when its result is made. -/
inductive LogItem where
  | record (b : Body)
  | ending (x : Ending) (source : Source) (page : Page)

/-- The result numbered `n` of a reference record that ends. -/
def endedResult (n hc : BitVec 8) (x : Ending) (source : Source) (page : Page) : Result :=
  { number := n, code := x.code, clamped := x.record.clamped, limited := false, unflipped := false
    ident := some ⟨x.record.seq, x.record.target⟩, judgedAt := hc, applied := x.applied, source := source, page := page }

/-- The results of a log, numbered on from `n`. -/
def logResults (hc : BitVec 8) : BitVec 8 → List LogItem → List Result
  | _, [] => []
  | n, .record _ :: log => logResults hc n log
  | n, .ending x source page :: log => endedResult (n + 1#8) hc x source page :: logResults hc (n + 1#8) log

/-- The records of a log of feeder `f`, its results numbered on from `n`. -/
def logBodies (f : Fid) (hc : BitVec 8) : BitVec 8 → List LogItem → List Body
  | _, [] => []
  | n, .record b :: log => b :: logBodies f hc n log
  | n, .ending x source page :: log =>
    refRecords f [endedResult (n + 1#8) hc x source page] ++ logBodies f hc (n + 1#8) log

/-- The endings of a list, made with one source and page. -/
def endings (source : Source) (page : Page) (xs : List Ending) : List LogItem := xs.map fun x => .ending x source page

/-- The records of a list, as items of a log. -/
def records (bs : List Body) : List LogItem := bs.map .record

@[simp] theorem endings_nil (source : Source) (page : Page) : endings source page [] = [] := rfl

@[simp] theorem endings_cons (source : Source) (page : Page) (x : Ending) (xs : List Ending) :
    endings source page (x :: xs) = .ending x source page :: endings source page xs := rfl

theorem endings_append (source : Source) (page : Page) (xs ys : List Ending) :
    endings source page (xs ++ ys) = endings source page xs ++ endings source page ys := List.map_append

@[simp] theorem records_nil : records [] = [] := rfl

@[simp] theorem records_cons (b : Body) (bs : List Body) : records (b :: bs) = .record b :: records bs := rfl

theorem records_append (bs cs : List Body) : records (bs ++ cs) = records bs ++ records cs := List.map_append

theorem number_succ (n : BitVec 8) (k : Nat) : n + 1#8 + BitVec.ofNat 8 k = n + BitVec.ofNat 8 (k + 1) := by
  bv_omega

theorem logResults_append (hc n : BitVec 8) (a b : List LogItem) :
    logResults hc n (a ++ b) =
      logResults hc n a ++ logResults hc (n + BitVec.ofNat 8 (logResults hc n a).length) b := by
  induction a generalizing n with
  | nil => simp [logResults]
  | cons i a ih =>
    cases i with
    | record _ => exact ih n
    | ending x source page => simp [logResults, ih, number_succ]

theorem logBodies_append (f : Fid) (hc n : BitVec 8) (a b : List LogItem) :
    logBodies f hc n (a ++ b) =
      logBodies f hc n a ++ logBodies f hc (n + BitVec.ofNat 8 (logResults hc n a).length) b := by
  induction a generalizing n with
  | nil => simp [logBodies, logResults]
  | cons i a ih =>
    cases i with
    | record _ => simp [logBodies, logResults, ih]
    | ending x source page => simp [logBodies, logResults, ih, number_succ]

@[simp] theorem logResults_records (hc n : BitVec 8) (bs : List Body) : logResults hc n (records bs) = [] := by
  induction bs with
  | nil => rfl
  | cons b bs ih => exact ih

@[simp] theorem logBodies_records (f : Fid) (hc n : BitVec 8) (bs : List Body) :
    logBodies f hc n (records bs) = bs := by
  induction bs with
  | nil => rfl
  | cons b bs ih => exact congrArg (b :: ·) ih

@[simp] theorem length_logResults_endings (hc n : BitVec 8) (source : Source) (page : Page) (xs : List Ending) :
    (logResults hc n (endings source page xs)).length = xs.length := by
  induction xs generalizing n with
  | nil => rfl
  | cons x xs ih => exact congrArg (· + 1) (ih _)

theorem refRecords_append (f : Fid) (rs qs : List Result) :
    refRecords f (rs ++ qs) = refRecords f rs ++ refRecords f qs := by
  simp [refRecords]

@[simp] theorem logBodies_endings (f : Fid) (hc n : BitVec 8) (source : Source) (page : Page) (xs : List Ending) :
    logBodies f hc n (endings source page xs) = refRecords f (logResults hc n (endings source page xs)) := by
  induction xs generalizing n with
  | nil => rfl
  | cons x xs ih =>
    rw [endings_cons]
    simp only [logBodies, logResults, ih]
    rw [← refRecords_append, List.singleton_append]

/-- The results that a statement lists are those of the log of its endings. -/
theorem endResults_eq (s t : State) (f : Fid) (xs : List Ending) :
    endResults s t f xs =
      logResults (s.trackers.get f).hc (s.stagers.get f).number
        (endings (t.ctl.get f).source (t.stagers.get f).committed xs) := by
  have shifted : ∀ (k : Nat) (ys : List Ending) (n : BitVec 8), n = (s.stagers.get f).number + BitVec.ofNat 8 k →
      (ys.zipIdx k).map (fun y => endedResult ((s.stagers.get f).number + BitVec.ofNat 8 (y.2 + 1))
          (s.trackers.get f).hc y.1 (t.ctl.get f).source (t.stagers.get f).committed) =
        logResults (s.trackers.get f).hc n (endings (t.ctl.get f).source (t.stagers.get f).committed ys) := by
    intro k ys
    induction ys generalizing k with
    | nil => exact fun _ _ => rfl
    | cons y ys ih =>
      rintro n rfl
      have next : (s.stagers.get f).number + BitVec.ofNat 8 k + 1#8 =
          (s.stagers.get f).number + BitVec.ofNat 8 (k + 1) := by bv_omega
      simp only [List.zipIdx_cons, List.map_cons, endings_cons, logResults, next, ih (k + 1) _ rfl]
  exact shifted 0 xs _ (by simp)

/-- The log with every result taking this source and page (R109). -/
def settleLog (source : Source) (page : Page) (log : List LogItem) : List LogItem :=
  log.map fun
    | .record b => .record b
    | .ending x _ _ => .ending x source page

@[simp] theorem settleLog_append (source : Source) (page : Page) (a b : List LogItem) :
    settleLog source page (a ++ b) = settleLog source page a ++ settleLog source page b := List.map_append

@[simp] theorem settleLog_endings (source source' : Source) (page page' : Page) (xs : List Ending) :
    settleLog source page (endings source' page' xs) = endings source page xs := by
  simp [settleLog, endings]

@[simp] theorem settleLog_records (source : Source) (page : Page) (bs : List Body) :
    settleLog source page (records bs) = records bs := by
  simp [settleLog, records]

@[simp] theorem settleLog_nil (source : Source) (page : Page) : settleLog source page [] = [] := rfl

@[simp] theorem settleLog_record (source : Source) (page : Page) (b : Body) (log : List LogItem) :
    settleLog source page (.record b :: log) = .record b :: settleLog source page log := rfl

/-- From `s` to `t` the feeders' side has moved and, for feeder `f`, handed over this log and no more: its records in
order, and its stager's results, the latest of them held and its result slot marked (R109, R110, R155). -/
structure Logs (f : Fid) (s t : State) (log : List LogItem) : Prop where
  moves : Moves s t
  hc : (t.trackers.get f).hc = (s.trackers.get f).hc
  hands : Hands s t (logBodies f (s.trackers.get f).hc (s.stagers.get f).number log)
  number : (t.stagers.get f).number = (s.stagers.get f).number +
    BitVec.ofNat 8 (logResults (s.trackers.get f).hc (s.stagers.get f).number log).length
  latest : (t.stagers.get f).latest =
    (logResults (s.trackers.get f).hc (s.stagers.get f).number log).getLast?.or (s.stagers.get f).latest
  dirty : logResults (s.trackers.get f).hc (s.stagers.get f).number log ≠ [] → SlotDirty f t

namespace Logs

variable {f : Fid} {s t u : State} {log : List LogItem}

theorem refl (f : Fid) (s : State) : Logs f s s [] :=
  ⟨.refl, rfl, .refl s, by simp [logResults], by simp [logResults], fun h => absurd rfl h⟩

theorem trans {a b : List LogItem} (h : Logs f s t a) (k : Logs f t u b) : Logs f s u (a ++ b) := by
  have khands := k.hands
  have knumber := k.number
  have klatest := k.latest
  have kdirty := k.dirty
  rw [h.hc, h.number] at khands knumber klatest kdirty
  refine ⟨h.moves.trans k.moves, k.hc.trans h.hc, ?_, ?_, ?_, ?_⟩
  · rw [logBodies_append]
    exact h.hands.trans khands
  · rw [logResults_append, List.length_append, knumber]
    simp [BitVec.add_assoc, BitVec.ofNat_add]
  · rw [logResults_append, klatest, h.latest, List.getLast?_append, Option.or_assoc]
  · intro ne
    rw [logResults_append] at ne
    by_cases e : logResults (s.trackers.get f).hc
        ((s.stagers.get f).number + BitVec.ofNat 8 (logResults (s.trackers.get f).hc (s.stagers.get f).number a).length)
        b = []
    · rw [e, List.append_nil] at ne
      exact k.moves.slotDirty (h.dirty ne)
    · exact kdirty e

/-- An operation that hands nothing over and makes no result of feeder `f`. -/
theorem quiet (moves : Moves s t) (hc : (t.trackers.get f).hc = (s.trackers.get f).hc)
    (hands : Hands s t []) (number : (t.stagers.get f).number = (s.stagers.get f).number)
    (latest : (t.stagers.get f).latest = (s.stagers.get f).latest) : Logs f s t [] :=
  ⟨moves, hc, hands, by simp [logResults, number], by simp [logResults, latest], fun h => absurd rfl h⟩

/-- The log goes on by an operation that adds nothing to it. -/
theorem andQuiet (h : Logs f s t log) (moves : Moves t u) (hc : (u.trackers.get f).hc = (t.trackers.get f).hc)
    (hands : Hands t u []) (number : (u.stagers.get f).number = (t.stagers.get f).number)
    (latest : (u.stagers.get f).latest = (t.stagers.get f).latest) : Logs f s u log := by
  have := h.trans (quiet moves hc hands number latest)
  rwa [List.append_nil] at this

/-! ### The operations that add nothing -/

theorem putCtl (h : Logs f s t log) (g : Fid) (c : FeederCtl) : Logs f s (t.putCtl g c) log :=
  h.andQuiet (State.putCtl_moves t g c .refl) (by simp) (.nothing (by simp) (by simp) (by simp) (by simp) (by simp)) (by simp) (by simp)

theorem putEval (h : Logs f s t log) (g : Fid) (e : Evaluator) : Logs f s (t.putEval g e) log :=
  h.andQuiet (State.putEval_moves t g e .refl) (by simp) (.nothing (by simp) (by simp) (by simp) (by simp) (by simp)) (by simp) (by simp)

theorem putTracker (h : Logs f s t log) (g : Fid) (k : Tracker) (hk : k.hc = (t.trackers.get g).hc) :
    Logs f s (t.putTracker g k) log := by
  refine h.andQuiet (State.putTracker_moves t g k .refl) ?_
    (.nothing (by simp) (by simp) (by simp) (by simp) (by simp)) (by simp) (by simp)
  rw [State.putTracker_trackers, Per8.get_set]
  split
  · next e => rw [hk, e]
  · rfl

theorem putMonitor (h : Logs f s t log) (g : Fid) (m : Monitor) : Logs f s (t.putMonitor g m) log :=
  h.andQuiet (State.putMonitor_moves t g m .refl) rfl (.nothing rfl rfl rfl rfl rfl) rfl rfl

theorem lower (h : Logs f s t log) (g : Fid) (r : Nat) (hr : r ≤ t.account.reserved.get g) :
    Logs f s (t.putReserved g r) log :=
  h.andQuiet (State.lower_moves t g r hr .refl) (by simp) (.nothing (by simp) (by simp) (by simp) (by simp) (by simp)) (by simp) (by simp)

theorem releaseEnergy (h : Logs f s t log) (g : Fid) : Logs f s (t.releaseEnergy g) log :=
  h.lower g 0 (Nat.zero_le _)

theorem withLink (h : Logs f s t log) (l : Link) : Logs f s { t with link := l } log :=
  h.andQuiet (State.withLink_moves t l .refl) rfl (.nothing rfl rfl rfl rfl rfl) rfl rfl

theorem withNotice (h : Logs f s t log) (n : Per8 (Option ShedCause)) :
    Logs f s { t with account := { t.account with notice := n } } log :=
  h.andQuiet (Moves.refl.tail (.notice n)) rfl (.nothing rfl rfl rfl rfl rfl) rfl rfl

theorem withDraws (h : Logs f s t log) (n : Nat) : Logs f s { t with draws := n } log :=
  h.andQuiet (Moves.refl.tail (.draws n)) rfl (.nothing rfl rfl rfl rfl rfl) rfl rfl

/-- A write of a stager that leaves its number and its latest result alone. -/
theorem putStager (h : Logs f s t log) (g : Fid) (x : Stager) (hn : x.number = (t.stagers.get g).number)
    (hl : x.latest = (t.stagers.get g).latest) : Logs f s (t.putStager g x) log := by
  refine h.andQuiet (State.putStager_moves t g x .refl) rfl (.nothing rfl rfl rfl rfl rfl) ?_ ?_
  · change ((t.stagers.set g x).get f).number = _
    rw [Per8.get_set]
    split
    · next e => rw [hn, e]
    · rfl
  · change ((t.stagers.set g x).get f).latest = _
    rw [Per8.get_set]
    split
    · next e => rw [hl, e]
    · rfl

/-! ### The operations that add to the log -/

theorem handRecord (h : Logs f s t log) (b : Body) : Logs f s (t.handRecord b) (log ++ [.record b]) :=
  h.trans ⟨State.handRecord_moves t b .refl, by simp, .handRecord t b, by simp [logResults], by simp [logResults],
    fun h => absurd rfl h⟩

/-- The REF_REJECTED record of one result, made or not by its code (R110). -/
theorem refRecords_single (f : Fid) (r : Result) :
    refRecords f [r] = if r.code.rejected then [.refRejected f r] else [] := by
  unfold refRecords
  cases h : r.code <;> simp [h, ResultCode.rejected]

theorem makeResult_hands (s : State) (f : Fid) (x : Finding) :
    Hands s (s.makeResult f x) (refRecords f [s.resultOf f x]) := by
  have quiet : Hands s
      ((s.putStager f { s.stagers.get f with latest := some (s.resultOf f x), number := (s.resultOf f x).number }).touchResult f)
      [] := .nothing rfl rfl rfl rfl rfl
  rw [refRecords_single]
  unfold State.makeResult
  change Hands s (if x.code.rejected then _ else _) (if x.code.rejected then _ else _)
  split
  · exact quiet.trans (.handRecord _ _)
  · exact quiet

/-- The stager of feeder `f` ends a reference record: it is no longer held where it was (`x`), and its result is made. -/
theorem ended (h : Logs f s t log) (x : Stager) (e : Ending) (hn : x.number = (t.stagers.get f).number)
    (hl : x.latest = (t.stagers.get f).latest) :
    Logs f s ((t.putStager f x).makeResult f { Finding.ofRecord e.code e.record with applied := e.applied })
      (log ++ [.ending e (t.ctl.get f).source x.committed]) := by
  refine (h.putStager f x hn hl).trans ?_
  have result : (t.putStager f x).resultOf f { Finding.ofRecord e.code e.record with applied := e.applied } =
      endedResult (((t.putStager f x).stagers.get f).number + 1#8) ((t.putStager f x).trackers.get f).hc e
        (t.ctl.get f).source x.committed := by
    simp [State.resultOf, State.putStager, endedResult, Finding.ofRecord]
  generalize State.putStager t f x = v at result ⊢
  refine ⟨State.makeResult_moves v f _ .refl, by simp, ?_, ?_, ?_, fun _ => ?_⟩
  · have := makeResult_hands v f { Finding.ofRecord e.code e.record with applied := e.applied }
    rw [result] at this
    simpa [logBodies] using this
  · simp [logResults, result, endedResult]
  · simp [logResults, result]
  · unfold State.makeResult
    dsimp only
    split
    · exact (State.handRecord_moves _ _ .refl).slotDirty (State.touchResult_slotDirty _ f)
    · exact State.touchResult_slotDirty _ f

end Logs

end Sys2Proof.Machine
end

section
namespace Sys2Proof.Machine

/-! ## The stagers' operations and the line's, field by field -/

/-- A stager with its result number and its latest result set aside. -/
def Stager.bare (g : Stager) : Stager := { g with number := 0#8, latest := none }

/-- A request stands in feeder `f`'s slot, or has gone out as a first attempt (R116, R118). -/
def Placed (t : State) (f : Fid) (r : Request) : Prop :=
  t.link.slots.get f = some r ∨
    ∃ x, t.link.exchange = some x ∧ x.feeder = f ∧ x.request = r ∧ x.attempt = 1 ∧ t.link.line = .send

namespace State

theorem makeResult_bare (s : State) (f : Fid) (x : Stager) (y : Finding) :
    (((s.putStager f x).makeResult f y).stagers.get f).bare = x.bare := by
  simp [Stager.bare, putStager]

theorem makeResult_stager_ne (s : State) {f g : Fid} (x : Stager) (y : Finding) (h : g ≠ f) :
    ((s.putStager f x).makeResult f y).stagers.get g = s.stagers.get g := by
  simp [putStager, Per8.get_set_ne _ _ h]

/-! ### The ends of reference records -/

theorem endPending_blocks (s : State) (f : Fid) (c : ResultCode) :
    (s.endPending f c).blocks = State.blocks { s with stagers := (s.endPending f c).stagers } := by
  unfold endPending
  split
  · rfl
  · simp [State.blocks, putStager]

@[simp] theorem endPending_malm (s : State) (f : Fid) (c : ResultCode) : (s.endPending f c).malm = s.malm :=
  (congrArg (fun u : State => u.malm) (endPending_blocks s f c) :)
@[simp] theorem endPending_draws (s : State) (f : Fid) (c : ResultCode) : (s.endPending f c).draws = s.draws :=
  (congrArg (fun u : State => u.draws) (endPending_blocks s f c) :)
@[simp] theorem endPending_table (s : State) (f : Fid) (c : ResultCode) : (s.endPending f c).table = s.table :=
  (congrArg (fun u : State => u.table) (endPending_blocks s f c) :)
@[simp] theorem endPending_ctl (s : State) (f : Fid) (c : ResultCode) : (s.endPending f c).ctl = s.ctl :=
  (congrArg (fun u : State => u.ctl) (endPending_blocks s f c) :)
@[simp] theorem endPending_monitors (s : State) (f : Fid) (c : ResultCode) : (s.endPending f c).monitors = s.monitors :=
  (congrArg (fun u : State => u.monitors) (endPending_blocks s f c) :)
@[simp] theorem endPending_trackers (s : State) (f : Fid) (c : ResultCode) : (s.endPending f c).trackers = s.trackers :=
  (congrArg (fun u : State => u.trackers) (endPending_blocks s f c) :)
@[simp] theorem endPending_evals (s : State) (f : Fid) (c : ResultCode) : (s.endPending f c).evals = s.evals :=
  (congrArg (fun u : State => u.evals) (endPending_blocks s f c) :)
@[simp] theorem endPending_account (s : State) (f : Fid) (c : ResultCode) : (s.endPending f c).account = s.account :=
  (congrArg (fun u : State => u.account) (endPending_blocks s f c) :)
@[simp] theorem endPending_link (s : State) (f : Fid) (c : ResultCode) : (s.endPending f c).link = s.link :=
  (congrArg (fun u : State => u.link) (endPending_blocks s f c) :)

/-- The record is no longer held, and the stager is as it was but for its results. -/
theorem endPending_bare (s : State) (f : Fid) (c : ResultCode) :
    ((s.endPending f c).stagers.get f).bare = { (s.stagers.get f).bare with pending := none } := by
  unfold endPending
  split
  · next h => simp [Stager.bare, ← h]
  · exact makeResult_bare ..

theorem endPending_stager_ne (s : State) (f : Fid) (c : ResultCode) {g : Fid} (h : g ≠ f) :
    (s.endPending f c).stagers.get g = s.stagers.get g := by
  unfold endPending
  split
  · rfl
  · exact makeResult_stager_ne s _ _ h

theorem settleSlot_blocks (s : State) (f : Fid) (c : ResultCode) :
    (s.settleSlot f c).blocks = State.blocks { s with stagers := (s.settleSlot f c).stagers } := by
  unfold settleSlot
  split
  · rfl
  · simp [State.blocks, putStager]

@[simp] theorem settleSlot_malm (s : State) (f : Fid) (c : ResultCode) : (s.settleSlot f c).malm = s.malm :=
  (congrArg (fun u : State => u.malm) (settleSlot_blocks s f c) :)
@[simp] theorem settleSlot_draws (s : State) (f : Fid) (c : ResultCode) : (s.settleSlot f c).draws = s.draws :=
  (congrArg (fun u : State => u.draws) (settleSlot_blocks s f c) :)
@[simp] theorem settleSlot_table (s : State) (f : Fid) (c : ResultCode) : (s.settleSlot f c).table = s.table :=
  (congrArg (fun u : State => u.table) (settleSlot_blocks s f c) :)
@[simp] theorem settleSlot_ctl (s : State) (f : Fid) (c : ResultCode) : (s.settleSlot f c).ctl = s.ctl :=
  (congrArg (fun u : State => u.ctl) (settleSlot_blocks s f c) :)
@[simp] theorem settleSlot_monitors (s : State) (f : Fid) (c : ResultCode) : (s.settleSlot f c).monitors = s.monitors :=
  (congrArg (fun u : State => u.monitors) (settleSlot_blocks s f c) :)
@[simp] theorem settleSlot_trackers (s : State) (f : Fid) (c : ResultCode) : (s.settleSlot f c).trackers = s.trackers :=
  (congrArg (fun u : State => u.trackers) (settleSlot_blocks s f c) :)
@[simp] theorem settleSlot_evals (s : State) (f : Fid) (c : ResultCode) : (s.settleSlot f c).evals = s.evals :=
  (congrArg (fun u : State => u.evals) (settleSlot_blocks s f c) :)
@[simp] theorem settleSlot_account (s : State) (f : Fid) (c : ResultCode) : (s.settleSlot f c).account = s.account :=
  (congrArg (fun u : State => u.account) (settleSlot_blocks s f c) :)
@[simp] theorem settleSlot_link (s : State) (f : Fid) (c : ResultCode) : (s.settleSlot f c).link = s.link :=
  (congrArg (fun u : State => u.link) (settleSlot_blocks s f c) :)

/-- The record is no longer held, and the stager is as it was but for its results. -/
theorem settleSlot_bare (s : State) (f : Fid) (c : ResultCode) :
    ((s.settleSlot f c).stagers.get f).bare = { (s.stagers.get f).bare with inSlot := none } := by
  unfold settleSlot
  split
  · next h => simp [Stager.bare, ← h]
  · exact makeResult_bare ..

theorem settleSlot_stager_ne (s : State) (f : Fid) (c : ResultCode) {g : Fid} (h : g ≠ f) :
    (s.settleSlot f c).stagers.get g = s.stagers.get g := by
  unfold settleSlot
  split
  · rfl
  · exact makeResult_stager_ne s _ _ h

theorem settleLine_blocks (s : State) (f : Fid) (c : ResultCode) (a : Option Nat) :
    (s.settleLine f c a).blocks = State.blocks { s with stagers := (s.settleLine f c a).stagers } := by
  unfold settleLine
  split
  · rfl
  · simp [State.blocks, putStager]

@[simp] theorem settleLine_malm (s : State) (f : Fid) (c : ResultCode) (a : Option Nat) : (s.settleLine f c a).malm = s.malm :=
  (congrArg (fun u : State => u.malm) (settleLine_blocks s f c a) :)
@[simp] theorem settleLine_draws (s : State) (f : Fid) (c : ResultCode) (a : Option Nat) : (s.settleLine f c a).draws = s.draws :=
  (congrArg (fun u : State => u.draws) (settleLine_blocks s f c a) :)
@[simp] theorem settleLine_table (s : State) (f : Fid) (c : ResultCode) (a : Option Nat) : (s.settleLine f c a).table = s.table :=
  (congrArg (fun u : State => u.table) (settleLine_blocks s f c a) :)
@[simp] theorem settleLine_ctl (s : State) (f : Fid) (c : ResultCode) (a : Option Nat) : (s.settleLine f c a).ctl = s.ctl :=
  (congrArg (fun u : State => u.ctl) (settleLine_blocks s f c a) :)
@[simp] theorem settleLine_monitors (s : State) (f : Fid) (c : ResultCode) (a : Option Nat) : (s.settleLine f c a).monitors = s.monitors :=
  (congrArg (fun u : State => u.monitors) (settleLine_blocks s f c a) :)
@[simp] theorem settleLine_trackers (s : State) (f : Fid) (c : ResultCode) (a : Option Nat) : (s.settleLine f c a).trackers = s.trackers :=
  (congrArg (fun u : State => u.trackers) (settleLine_blocks s f c a) :)
@[simp] theorem settleLine_evals (s : State) (f : Fid) (c : ResultCode) (a : Option Nat) : (s.settleLine f c a).evals = s.evals :=
  (congrArg (fun u : State => u.evals) (settleLine_blocks s f c a) :)
@[simp] theorem settleLine_account (s : State) (f : Fid) (c : ResultCode) (a : Option Nat) : (s.settleLine f c a).account = s.account :=
  (congrArg (fun u : State => u.account) (settleLine_blocks s f c a) :)
@[simp] theorem settleLine_link (s : State) (f : Fid) (c : ResultCode) (a : Option Nat) : (s.settleLine f c a).link = s.link :=
  (congrArg (fun u : State => u.link) (settleLine_blocks s f c a) :)

/-- The record is no longer held, and the stager is as it was but for its results. -/
theorem settleLine_bare (s : State) (f : Fid) (c : ResultCode) (a : Option Nat) :
    ((s.settleLine f c a).stagers.get f).bare = { (s.stagers.get f).bare with onLine := none } := by
  unfold settleLine
  split
  · next h => simp [Stager.bare, ← h]
  · exact makeResult_bare ..

theorem settleLine_stager_ne (s : State) (f : Fid) (c : ResultCode) (a : Option Nat) {g : Fid} (h : g ≠ f) :
    (s.settleLine f c a).stagers.get g = s.stagers.get g := by
  unfold settleLine
  split
  · rfl
  · exact makeResult_stager_ne s _ _ h

/-! ### Taking the pending record -/

theorem takePending_blocks (s : State) (f : Fid) :
    (s.takePending f).blocks = State.blocks { s with stagers := (s.takePending f).stagers } := rfl

@[simp] theorem takePending_malm (s : State) (f : Fid) : (s.takePending f).malm = s.malm :=
  (congrArg (fun u : State => u.malm) (takePending_blocks s f) :)
@[simp] theorem takePending_draws (s : State) (f : Fid) : (s.takePending f).draws = s.draws :=
  (congrArg (fun u : State => u.draws) (takePending_blocks s f) :)
@[simp] theorem takePending_table (s : State) (f : Fid) : (s.takePending f).table = s.table :=
  (congrArg (fun u : State => u.table) (takePending_blocks s f) :)
@[simp] theorem takePending_ctl (s : State) (f : Fid) : (s.takePending f).ctl = s.ctl :=
  (congrArg (fun u : State => u.ctl) (takePending_blocks s f) :)
@[simp] theorem takePending_monitors (s : State) (f : Fid) : (s.takePending f).monitors = s.monitors :=
  (congrArg (fun u : State => u.monitors) (takePending_blocks s f) :)
@[simp] theorem takePending_trackers (s : State) (f : Fid) : (s.takePending f).trackers = s.trackers :=
  (congrArg (fun u : State => u.trackers) (takePending_blocks s f) :)
@[simp] theorem takePending_evals (s : State) (f : Fid) : (s.takePending f).evals = s.evals :=
  (congrArg (fun u : State => u.evals) (takePending_blocks s f) :)
@[simp] theorem takePending_account (s : State) (f : Fid) : (s.takePending f).account = s.account :=
  (congrArg (fun u : State => u.account) (takePending_blocks s f) :)
@[simp] theorem takePending_link (s : State) (f : Fid) : (s.takePending f).link = s.link :=
  (congrArg (fun u : State => u.link) (takePending_blocks s f) :)

/-! ### Requests -/

theorem takeRequest_blocks (s : State) (f : Fid) (r : Request) :
    (s.takeRequest f r).blocks =
      State.blocks { s with stagers := (s.takeRequest f r).stagers, link := (s.takeRequest f r).link } := by
  unfold takeRequest
  dsimp only
  split <;> rfl

theorem arbitrateLine_blocks (s : State) :
    s.arbitrateLine.blocks =
      State.blocks { s with stagers := s.arbitrateLine.stagers, link := s.arbitrateLine.link } := by
  unfold arbitrateLine
  split
  · rfl
  · split
    · exact takeRequest_blocks s _ _
    · rfl

@[simp] theorem arbitrateLine_malm (s : State)  : (s.arbitrateLine).malm = s.malm :=
  (congrArg (fun u : State => u.malm) (arbitrateLine_blocks s) :)
@[simp] theorem arbitrateLine_draws (s : State)  : (s.arbitrateLine).draws = s.draws :=
  (congrArg (fun u : State => u.draws) (arbitrateLine_blocks s) :)
@[simp] theorem arbitrateLine_table (s : State)  : (s.arbitrateLine).table = s.table :=
  (congrArg (fun u : State => u.table) (arbitrateLine_blocks s) :)
@[simp] theorem arbitrateLine_ctl (s : State)  : (s.arbitrateLine).ctl = s.ctl :=
  (congrArg (fun u : State => u.ctl) (arbitrateLine_blocks s) :)
@[simp] theorem arbitrateLine_monitors (s : State)  : (s.arbitrateLine).monitors = s.monitors :=
  (congrArg (fun u : State => u.monitors) (arbitrateLine_blocks s) :)
@[simp] theorem arbitrateLine_trackers (s : State)  : (s.arbitrateLine).trackers = s.trackers :=
  (congrArg (fun u : State => u.trackers) (arbitrateLine_blocks s) :)
@[simp] theorem arbitrateLine_evals (s : State)  : (s.arbitrateLine).evals = s.evals :=
  (congrArg (fun u : State => u.evals) (arbitrateLine_blocks s) :)
@[simp] theorem arbitrateLine_account (s : State)  : (s.arbitrateLine).account = s.account :=
  (congrArg (fun u : State => u.account) (arbitrateLine_blocks s) :)

/-- The state in which feeder `f`'s request stands in its slot, and the arbiter has not acted (R116). -/
def slotRequest (s : State) (f : Fid) (r : Request) : State :=
  let s' := s.settleSlot f .superseded
  let s' := s'.putStager f { s'.stagers.get f with inSlot := r.record }
  { s' with link := { s'.link with slots := s'.link.slots.set f (some r) } }

theorem placeRequest_eq (s : State) (f : Fid) (r : Request) (h : s.yields f r = false) :
    s.placeRequest f r =
      if s.link.line = .idle then (s.slotRequest f r).arbitrateLine else s.slotRequest f r := by
  unfold placeRequest
  rw [h]
  change (if (s.settleSlot f .superseded).link.line = .idle then _ else _) = _
  rw [settleSlot_link]
  rfl

theorem slotRequest_blocks (s : State) (f : Fid) (r : Request) :
    (s.slotRequest f r).blocks =
      State.blocks { s with stagers := (s.slotRequest f r).stagers, link := (s.slotRequest f r).link } := by
  change ({ (s.settleSlot f .superseded).blocks with
    stagers := (s.slotRequest f r).stagers, link := (s.slotRequest f r).link } : State) = _
  rw [settleSlot_blocks]
  rfl

theorem placeRequest_blocks (s : State) (f : Fid) (r : Request) :
    (s.placeRequest f r).blocks =
      State.blocks { s with stagers := (s.placeRequest f r).stagers, link := (s.placeRequest f r).link } := by
  cases h : s.yields f r with
  | true => simp [placeRequest, h, State.blocks]
  | false =>
    rw [placeRequest_eq s f r h]
    split
    · refine (arbitrateLine_blocks _).trans ?_
      change ({ (s.slotRequest f r).blocks with
        stagers := (s.slotRequest f r).arbitrateLine.stagers
        link := (s.slotRequest f r).arbitrateLine.link } : State) = _
      rw [slotRequest_blocks]
      rfl
    · exact slotRequest_blocks s f r

@[simp] theorem placeRequest_malm (s : State) (f : Fid) (r : Request) : (s.placeRequest f r).malm = s.malm :=
  (congrArg (fun u : State => u.malm) (placeRequest_blocks s f r) :)
@[simp] theorem placeRequest_draws (s : State) (f : Fid) (r : Request) : (s.placeRequest f r).draws = s.draws :=
  (congrArg (fun u : State => u.draws) (placeRequest_blocks s f r) :)
@[simp] theorem placeRequest_table (s : State) (f : Fid) (r : Request) : (s.placeRequest f r).table = s.table :=
  (congrArg (fun u : State => u.table) (placeRequest_blocks s f r) :)
@[simp] theorem placeRequest_ctl (s : State) (f : Fid) (r : Request) : (s.placeRequest f r).ctl = s.ctl :=
  (congrArg (fun u : State => u.ctl) (placeRequest_blocks s f r) :)
@[simp] theorem placeRequest_monitors (s : State) (f : Fid) (r : Request) : (s.placeRequest f r).monitors = s.monitors :=
  (congrArg (fun u : State => u.monitors) (placeRequest_blocks s f r) :)
@[simp] theorem placeRequest_trackers (s : State) (f : Fid) (r : Request) : (s.placeRequest f r).trackers = s.trackers :=
  (congrArg (fun u : State => u.trackers) (placeRequest_blocks s f r) :)
@[simp] theorem placeRequest_evals (s : State) (f : Fid) (r : Request) : (s.placeRequest f r).evals = s.evals :=
  (congrArg (fun u : State => u.evals) (placeRequest_blocks s f r) :)
@[simp] theorem placeRequest_account (s : State) (f : Fid) (r : Request) : (s.placeRequest f r).account = s.account :=
  (congrArg (fun u : State => u.account) (placeRequest_blocks s f r) :)

end State
end Sys2Proof.Machine
end

section
namespace Sys2Proof.Machine

/-! ## Requests: what becomes of the feeder's slot and of its stager -/

namespace State

theorem nextRequest_slot {s : State} {f : Fid} {r : Request} (h : s.nextRequest = some (f, r)) :
    s.link.slots.get f = some r := by
  obtain ⟨g, -, hg⟩ := List.exists_of_findSome?_eq_some h
  obtain ⟨r', hr, e⟩ := Option.map_eq_some_iff.1 hg
  cases e
  exact hr

/-- The request leaves its slot and is the exchange in flight (R113, R118). -/
theorem takeRequest_link (s : State) (f : Fid) (r : Request) :
    (s.takeRequest f r).link = { s.link with
      line := .send, slots := s.link.slots.set f none
      exchange := some { feeder := f, unit := (s.entry f).unit.setWidth 4, request := r, attempt := 1, causes := []
                         discard := false } } := by
  unfold takeRequest
  dsimp only
  split <;> rfl

/-- A request in its slot stays there or goes out when the arbiter acts (R118). -/
theorem arbitrateLine_placed (s : State) (f : Fid) (r : Request) (h : s.link.slots.get f = some r) :
    Placed s.arbitrateLine f r := by
  unfold arbitrateLine
  split
  · exact .inl h
  · split
    · next g r' hn =>
      by_cases e : g = f
      · subst e
        have := (nextRequest_slot hn).symm.trans h
        cases this
        unfold Placed
        rw [takeRequest_link]
        exact .inr ⟨_, rfl, rfl, rfl, rfl, rfl⟩
      · refine .inl ?_
        rw [takeRequest_link]
        exact (Per8.get_set_ne _ _ (Ne.symm e)).trans h
    · exact .inl h

/-- Taking a request, the arbiter moves the record it carries from the slot to the line, and leaves the rest of the
stager alone (R103, R118). -/
theorem arbitrateLine_stager (s : State) (f : Fid) :
    s.arbitrateLine.stagers.get f = s.stagers.get f ∨
      ∃ r a, s.link.slots.get f = some r ∧ r.record = some a ∧
        s.arbitrateLine.stagers.get f = { s.stagers.get f with onLine := some a, inSlot := none } := by
  unfold arbitrateLine
  split
  · exact .inl rfl
  · split
    · next g r hn =>
      unfold takeRequest
      dsimp only
      split
      · exact .inl rfl
      · next a ha =>
        by_cases e : f = g
        · subst e
          exact .inr ⟨r, a, nextRequest_slot hn, ha, by simp [putStager]⟩
        · exact .inl (by simp [putStager, Per8.get_set_ne _ _ e])
    · exact .inl rfl

theorem slotRequest_slot (s : State) (f : Fid) (r : Request) : (s.slotRequest f r).link.slots.get f = some r := by
  simp [slotRequest]

theorem slotRequest_bare (s : State) (f : Fid) (r : Request) :
    ((s.slotRequest f r).stagers.get f).bare = { (s.stagers.get f).bare with inSlot := r.record } := by
  have h := settleSlot_bare s f .superseded
  have e : (s.slotRequest f r).stagers.get f =
      { (s.settleSlot f .superseded).stagers.get f with inSlot := r.record } := by simp [slotRequest, putStager]
  rw [e]
  change ({ ((s.settleSlot f .superseded).stagers.get f).bare with inSlot := r.record } : Stager) = _
  rw [h]

/-- A request that does not yield stands in its slot, or has gone out (R116, R118). -/
theorem placeRequest_placed (s : State) (f : Fid) (r : Request) (h : s.yields f r = false) :
    Placed (s.placeRequest f r) f r := by
  rw [placeRequest_eq s f r h]
  split
  · exact arbitrateLine_placed _ f r (slotRequest_slot s f r)
  · exact .inl (slotRequest_slot s f r)

theorem placeRequest_of_yields (s : State) (f : Fid) (r : Request) (h : s.yields f r = true) :
    s.placeRequest f r = s := by
  simp [placeRequest, h]

/-- The stager of a feeder whose request has been placed: the record of the request waits in the slot or is on the line,
and but for these and its results the stager is as it was (R103, R116). -/
theorem placeRequest_stager (s : State) (f : Fid) (r : Request) (h : s.yields f r = false) :
    ((s.placeRequest f r).stagers.get f).bare = { (s.stagers.get f).bare with inSlot := r.record } ∨
      ∃ a, r.record = some a ∧ ((s.placeRequest f r).stagers.get f).bare =
        { (s.stagers.get f).bare with onLine := some a, inSlot := none } := by
  rw [placeRequest_eq s f r h]
  split
  · rcases arbitrateLine_stager (s.slotRequest f r) f with e | ⟨r', a, hr, ha, e⟩
    · rw [e]
      exact .inl (slotRequest_bare s f r)
    · rw [slotRequest_slot] at hr
      cases hr
      refine .inr ⟨a, ha, ?_⟩
      rw [e]
      change ({ ((s.slotRequest f r).stagers.get f).bare with onLine := some a, inSlot := none } : Stager) = _
      rw [slotRequest_bare]
  · exact .inl (slotRequest_bare s f r)

theorem placeRequest_pending (s : State) (f : Fid) (r : Request) :
    ((s.placeRequest f r).stagers.get f).pending = (s.stagers.get f).pending := by
  cases h : s.yields f r with
  | true => rw [placeRequest_of_yields s f r h]
  | false =>
    rcases placeRequest_stager s f r h with e | ⟨a, -, e⟩
    · exact (congrArg Stager.pending e :)
    · exact (congrArg Stager.pending e :)

theorem placeRequest_committed (s : State) (f : Fid) (r : Request) :
    ((s.placeRequest f r).stagers.get f).committed = (s.stagers.get f).committed := by
  cases h : s.yields f r with
  | true => rw [placeRequest_of_yields s f r h]
  | false =>
    rcases placeRequest_stager s f r h with e | ⟨a, -, e⟩
    · exact (congrArg Stager.committed e :)
    · exact (congrArg Stager.committed e :)

/-- A request that carries no record leaves the line's record alone and the slot without one. -/
theorem placeRequest_unrecorded (s : State) (f : Fid) (r : Request) (h : s.yields f r = false)
    (hr : r.record = none) :
    ((s.placeRequest f r).stagers.get f).bare = { (s.stagers.get f).bare with inSlot := none } := by
  rcases placeRequest_stager s f r h with e | ⟨a, ha, -⟩
  · rw [e, hr]
  · rw [hr] at ha
    cases ha

end State

/-! ## The log of the stagers' and the link's operations -/

namespace Logs

variable {f : Fid} {s t u : State} {log : List LogItem}

theorem endPending (h : Logs f s t log) (code : ResultCode) :
    Logs f s (t.endPending f code)
      (log ++ endings (t.ctl.get f).source (t.stagers.get f).committed (endAll code (t.stagers.get f).pending.toList)) := by
  unfold State.endPending
  split
  · next e => simpa [e] using h
  · next r e =>
    rw [e]
    exact h.ended { t.stagers.get f with pending := none } ⟨code, r, none⟩ rfl rfl

theorem settleSlot (h : Logs f s t log) (code : ResultCode) :
    Logs f s (t.settleSlot f code)
      (log ++ endings (t.ctl.get f).source (t.stagers.get f).committed (endAll code (t.stagers.get f).inSlot.toList)) := by
  unfold State.settleSlot
  split
  · next e => simpa [e] using h
  · next r e =>
    rw [e]
    exact h.ended { t.stagers.get f with inSlot := none } ⟨code, r, none⟩ rfl rfl

theorem settleLine (h : Logs f s t log) (code : ResultCode) (applied : Option Nat) :
    Logs f s (t.settleLine f code applied)
      (log ++ endings (t.ctl.get f).source (t.stagers.get f).committed
        ((t.stagers.get f).onLine.toList.map fun r => ⟨code, r, applied⟩)) := by
  unfold State.settleLine
  split
  · next e => simpa [e] using h
  · next r e =>
    rw [e]
    exact h.ended { t.stagers.get f with onLine := none } ⟨code, r, applied⟩ rfl rfl

theorem emptySlot (h : Logs f s t log) : Logs f s (t.emptySlot f) log := h.withLink _

theorem arbitrateLine (h : Logs f s t log) : Logs f s t.arbitrateLine log := by
  unfold State.arbitrateLine
  split
  · exact h.withLink _
  · split
    · unfold State.takeRequest
      dsimp only
      split
      · exact h.withLink _
      · exact (h.withLink _).putStager _ _ rfl rfl
    · exact h

/-- A request that does not yield ends the record in the slot it takes SUPERSEDED (R106, R116). -/
theorem placeRequest (h : Logs f s t log) (r : Request) (hy : t.yields f r = false) :
    Logs f s (t.placeRequest f r)
      (log ++ endings (t.ctl.get f).source (t.stagers.get f).committed
        (endAll .superseded (t.stagers.get f).inSlot.toList)) := by
  have slotted : Logs f s (t.slotRequest f r) _ :=
    ((h.settleSlot .superseded).putStager f
      { (t.settleSlot f .superseded).stagers.get f with inSlot := r.record } rfl rfl).withLink
        { (t.settleSlot f .superseded).link with
          slots := (t.settleSlot f .superseded).link.slots.set f (some r) }
  rw [State.placeRequest_eq t f r hy]
  split
  · exact slotted.arbitrateLine
  · exact slotted

/-! ## What a statement reads off the log -/

/-- The records of a log, where the source and page of its results are those that `u` has. -/
theorem resultsMade_of (h : Logs f s t log) {xs : List Ending}
    (e : logResults (s.trackers.get f).hc (s.stagers.get f).number log = endResults s t f xs) :
    resultsMade s t f xs := by
  have number := h.number
  have latest := h.latest
  have dirty := h.dirty
  rw [e] at number latest dirty
  rw [length_endResults] at number
  refine ⟨number, latest, fun ne => slotMarked_of_slotDirty (dirty ?_) h.moves.portKept⟩
  intro nil
  have := congrArg List.length nil
  rw [length_endResults] at this
  exact ne (List.length_eq_zero_iff.1 this)

/-- An event that hands over records of its own and then ends reference records. -/
theorem made {l : List Body} {xs : List Ending}
    (h : Logs f s t (records l ++ endings (t.ctl.get f).source (t.stagers.get f).committed xs)) :
    resultsMade s t f xs ∧ recorded s t (l ++ refRecords f (endResults s t f xs)) := by
  refine ⟨h.resultsMade_of ?_, ?_⟩
  · rw [logResults_append, logResults_records, endResults_eq]
    simp
  · have := h.hands.all
    rw [logBodies_append, logBodies_records, logResults_records, logBodies_endings] at this
    rw [endResults_eq]
    simpa using this

/-- An event that ends reference records, enters FAULT or OFF with a record `b`, ends more of them, and closes what is
open with the records `l`. -/
theorem entered {b : Body} {l : List Body} {before after : List Ending}
    (h : Logs f s t (endings (t.ctl.get f).source (t.stagers.get f).committed before ++
      (.record b :: endings (t.ctl.get f).source (t.stagers.get f).committed after) ++ records l)) :
    resultsMade s t f (before ++ after) ∧
      recorded s t (refRecords f ((endResults s t f (before ++ after)).take before.length) ++ [b] ++
        refRecords f ((endResults s t f (before ++ after)).drop before.length) ++ l) := by
  have split := logResults_append (s.trackers.get f).hc (s.stagers.get f).number
    (endings (t.ctl.get f).source (t.stagers.get f).committed before)
    (endings (t.ctl.get f).source (t.stagers.get f).committed after)
  rw [← endings_append, ← endResults_eq] at split
  refine ⟨h.resultsMade_of ?_, ?_⟩
  · rw [split]
    simp only [logResults_append, logResults, logResults_records, List.append_nil]
  · have all := h.hands.all
    rw [split, List.take_left' (length_logResults_endings ..), List.drop_left' (length_logResults_endings ..)]
    simpa only [logBodies_append, logBodies, logBodies_endings, logBodies_records, logResults_append, logResults,
      List.append_assoc, List.cons_append, List.nil_append] using all

end Logs

/-! ## Settling the results at the end of an event (R109) -/

/-- A record's body with the source and page that its event ends with. -/
def Body.settled (f : Fid) (source : Source) (page : Page) : Body → Body
  | .refRejected g x => if g = f then .refRejected g { x with source := source, page := page } else .refRejected g x
  | b => b

theorem Record.settleSource_eq (r : Record) (f : Fid) (source : Source) (page : Page) :
    r.settleSource f source page = { r with body := r.body.settled f source page } := by
  obtain ⟨seq, stamp, dropped, body⟩ := r
  cases body with
  | refRejected g x =>
    simp only [Record.settleSource, Body.settled]
    split <;> rfl
  | _ => rfl

/-- The record is no result's. -/
def Body.own : Body → Bool
  | .refRejected .. => false
  | _ => true

theorem Body.settled_of_own {b : Body} (h : b.own = true) (f : Fid) (source : Source) (page : Page) :
    b.settled f source page = b := by
  cases b with
  | refRejected g x => cases h
  | _ => rfl

theorem logResults_settleLog (hc n : BitVec 8) (source : Source) (page : Page) (log : List LogItem) :
    logResults hc n (settleLog source page log) =
      (logResults hc n log).map fun r => { r with source := source, page := page } := by
  induction log generalizing n with
  | nil => rfl
  | cons i log ih =>
    cases i with
    | record b => exact ih n
    | ending x _ _ => exact congrArg (_ :: ·) (ih _)

theorem length_logResults_le (hc n : BitVec 8) (log : List LogItem) : (logResults hc n log).length ≤ log.length := by
  induction log generalizing n with
  | nil => exact Nat.le_refl _
  | cons i log ih =>
    cases i with
    | record b => exact (ih n).trans (Nat.le_succ _)
    | ending x _ _ => exact Nat.succ_le_succ (ih _)

theorem settleLog_of_no_results {hc n : BitVec 8} {source : Source} {page : Page} {log : List LogItem}
    (h : logResults hc n log = []) : settleLog source page log = log := by
  induction log generalizing n with
  | nil => rfl
  | cons i log ih =>
    cases i with
    | record b => exact congrArg (_ :: ·) (ih (n := n) h)
    | ending x _ _ => cases h

theorem refRecords_settled (f : Fid) (source : Source) (page : Page) (r : Result) :
    (refRecords f [r]).map (Body.settled f source page) =
      refRecords f [{ r with source := source, page := page }] := by
  rw [Logs.refRecords_single, Logs.refRecords_single]
  change _ = if r.code.rejected then _ else _
  split
  · simp [Body.settled]
  · rfl

theorem logBodies_settleLog (f : Fid) (hc n : BitVec 8) (source : Source) (page : Page) (log : List LogItem)
    (plain : ∀ b, .record b ∈ log → b.settled f source page = b) :
    logBodies f hc n (settleLog source page log) = (logBodies f hc n log).map (Body.settled f source page) := by
  induction log generalizing n with
  | nil => rfl
  | cons i log ih =>
    have ih := fun n => ih n fun b hb => plain b (List.mem_cons_of_mem _ hb)
    cases i with
    | record b =>
      change b :: logBodies f hc n (settleLog source page log) = _ :: _
      rw [ih, plain b List.mem_cons_self]
    | ending x _ _ =>
      change refRecords f _ ++ logBodies f hc (n + 1#8) (settleLog source page log) = List.map _ (_ ++ _)
      rw [ih, List.map_append, refRecords_settled]
      rfl

/-- Settling results rewrites the records staged since the event began, each with the source and page it ended with. -/
theorem Hands.settle {s t u : State} {f : Fid} {source : Source} {page : Page} {bs : List Body} (h : Hands s t bs)
    (stamp : u.stamp = t.stamp) (seq : u.writer.nextSeq = t.writer.nextSeq)
    (overrun : u.writer.overrun = t.writer.overrun) (dropped : u.writer.dropped = t.writer.dropped)
    (staging : u.writer.staging = t.writer.staging.take s.writer.staging.length ++
      (t.writer.staging.drop s.writer.staging.length).map fun r => r.settleSource f source page) :
    Hands s u (bs.map (Body.settled f source page)) := by
  obtain ⟨rest, grows⟩ := h.grows
  have staging : u.writer.staging = s.writer.staging ++ rest.map fun r => r.settleSource f source page := by
    rw [staging, ← grows, List.take_left, List.drop_left]
  refine ⟨stamp.trans h.stamp, ⟨_, staging.symm⟩, fun room => ?_, ?_, fun nil => ?_⟩
  · rw [List.length_map] at room
    have all := h.all room
    rw [← grows, List.map_append] at all
    have bodies := List.append_cancel_left all
    rw [staging, List.map_append, ← bodies, List.map_map, List.map_map]
    congr 2
    funext r
    exact congrArg Record.body (Record.settleSource_eq r f source page)
  · intro b hb room
    rw [List.head?_map, Option.mem_map] at hb
    obtain ⟨b', hb', rfl⟩ := hb
    have first := h.first b' hb' room
    rw [← grows, List.getElem?_append_right (Nat.le_refl _), Nat.sub_self] at first
    rw [staging, List.getElem?_append_right (Nat.le_refl _), Nat.sub_self, List.getElem?_map, first]
    simp [Record.settleSource_eq]
  · obtain ⟨a, b, c, d⟩ := h.none (List.map_eq_nil_iff.1 nil)
    have : rest = [] := by
      rw [← grows] at a
      exact List.append_right_eq_self.1 a
    exact ⟨by simp [staging, this], seq.trans b, overrun.trans c, dropped.trans d⟩

/-- At the end of a feeder's event its results take the source and page as they then are (R109; log entry 22). -/
theorem Logs.settle {f : Fid} {s t : State} {log : List LogItem} (h : Logs f s t log) (few : log.length < 256)
    (plain : ∀ b, .record b ∈ log → b.settled f (t.ctl.get f).source (t.stagers.get f).committed = b) :
    Logs f s (t.settleResults s f) (settleLog (t.ctl.get f).source (t.stagers.get f).committed log) := by
  have moves := State.settleResults_moves t s f h.moves
  have fewer : (logResults (s.trackers.get f).hc (s.stagers.get f).number log).length < 256 :=
    (length_logResults_le _ _ log).trans_lt few
  have dirty : SlotDirty f t → SlotDirty f (t.settleResults s f) := (Move.settle s f).slotDirty
  revert moves dirty
  unfold State.settleResults
  dsimp only
  split
  · next same =>
    intro moves _
    have none : logResults (s.trackers.get f).hc (s.stagers.get f).number log = [] := by
      rw [h.number] at same
      have := congrArg BitVec.toNat (BitVec.add_right_eq_self.1 same)
      rw [BitVec.toNat_ofNat] at this
      exact List.length_eq_zero_iff.1 (by simp at this; omega)
    rwa [settleLog_of_no_results none]
  · next changed =>
    intro moves dirty
    refine ⟨moves, h.hc, ?_, ?_, ?_, fun ne => dirty (h.dirty ?_)⟩
    · rw [logBodies_settleLog _ _ _ _ _ _ plain]
      exact h.hands.settle rfl rfl rfl rfl rfl
    · rw [logResults_settleLog, List.length_map, ← h.number]
      simp [State.putStager]
    · rw [logResults_settleLog, List.getLast?_map]
      have latest := h.latest
      cases last : (logResults (s.trackers.get f).hc (s.stagers.get f).number log).getLast? with
      | some r => simp [State.putStager, latest, last]
      | none =>
        rw [List.getLast?_eq_none_iff] at last
        exact absurd (by simp [h.number, last]) changed
    · rw [logResults_settleLog] at ne
      exact fun nil => ne (by rw [nil, List.map_nil])

end Sys2Proof.Machine
end

section
namespace Sys2Proof.Machine

/-! ## The feeder controllers' operations, field by field -/

/-- An episode after the sag record that was open in it, if one was, has closed and counts in it (R132, R137). -/
def closedEpisode (sag : Option SagRecord) (episode : Option Episode) (o : SagOutcome) : Option Episode :=
  match sag with
  | none => episode
  | some g => episode.map fun e => e.addSag { g with outcome := some o }

@[simp] theorem closedEpisode_none (y : Option Episode) (o : SagOutcome) : closedEpisode none y o = y := rfl

@[simp] theorem closedEpisode_some (g : SagRecord) (y : Option Episode) (o : SagOutcome) :
    closedEpisode (some g) y o = y.map fun e => e.addSag { g with outcome := some o } := rfl

/-- A controller after its open sag record, if one was open, has closed. -/
def FeederCtl.sagClosed (c : FeederCtl) (o : SagOutcome) : FeederCtl :=
  { c with sag := none, episode := closedEpisode c.sag c.episode o }

/-- The link with feeder `f`'s slot emptied and its exchange marked for discard (R117). -/
def Link.without (l : Link) (f : Fid) : Link :=
  { l with
    slots := l.slots.set f none
    exchange := l.exchange.map fun x => if x.feeder = f then { x with discard := true } else x }

/-- The records that a stand-down hands over after its results: the open sag's and the open episode's (R132, R138). -/
def standDownRecords (f : Fid) (c : FeederCtl) (hc : BitVec 8) (o : SagOutcome)
    (k : CloseCause) : List Body :=
  (c.sag.toList.map fun x => .sagClosed f { x with outcome := some o }) ++
    (closedEpisode c.sag c.episode o).toList.map fun y => .episodeClosed f y k hc

/-- The reference records that a stand-down ends, in order (R107). -/
def Stager.held (g : Stager) : List Accepted :=
  g.onLine.toList ++ g.inSlot.toList ++ g.pending.toList

namespace State

@[simp] theorem endPending_get_pending (s : State) (f : Fid) (c : ResultCode) :
    ((s.endPending f c).stagers.get f).pending = none :=
  (congrArg Stager.pending (endPending_bare s f c) :)
@[simp] theorem endPending_get_onLine (s : State) (f : Fid) (c : ResultCode) :
    ((s.endPending f c).stagers.get f).onLine = (s.stagers.get f).onLine :=
  (congrArg Stager.onLine (endPending_bare s f c) :)
@[simp] theorem endPending_get_inSlot (s : State) (f : Fid) (c : ResultCode) :
    ((s.endPending f c).stagers.get f).inSlot = (s.stagers.get f).inSlot :=
  (congrArg Stager.inSlot (endPending_bare s f c) :)
@[simp] theorem endPending_get_committed (s : State) (f : Fid) (c : ResultCode) :
    ((s.endPending f c).stagers.get f).committed = (s.stagers.get f).committed :=
  (congrArg Stager.committed (endPending_bare s f c) :)
@[simp] theorem settleSlot_get_pending (s : State) (f : Fid) (c : ResultCode) :
    ((s.settleSlot f c).stagers.get f).pending = (s.stagers.get f).pending :=
  (congrArg Stager.pending (settleSlot_bare s f c) :)
@[simp] theorem settleSlot_get_onLine (s : State) (f : Fid) (c : ResultCode) :
    ((s.settleSlot f c).stagers.get f).onLine = (s.stagers.get f).onLine :=
  (congrArg Stager.onLine (settleSlot_bare s f c) :)
@[simp] theorem settleSlot_get_inSlot (s : State) (f : Fid) (c : ResultCode) :
    ((s.settleSlot f c).stagers.get f).inSlot = none :=
  (congrArg Stager.inSlot (settleSlot_bare s f c) :)
@[simp] theorem settleSlot_get_committed (s : State) (f : Fid) (c : ResultCode) :
    ((s.settleSlot f c).stagers.get f).committed = (s.stagers.get f).committed :=
  (congrArg Stager.committed (settleSlot_bare s f c) :)
@[simp] theorem settleLine_get_pending (s : State) (f : Fid) (c : ResultCode) (a : Option Nat) :
    ((s.settleLine f c a).stagers.get f).pending = (s.stagers.get f).pending :=
  (congrArg Stager.pending (settleLine_bare s f c a) :)
@[simp] theorem settleLine_get_onLine (s : State) (f : Fid) (c : ResultCode) (a : Option Nat) :
    ((s.settleLine f c a).stagers.get f).onLine = none :=
  (congrArg Stager.onLine (settleLine_bare s f c a) :)
@[simp] theorem settleLine_get_inSlot (s : State) (f : Fid) (c : ResultCode) (a : Option Nat) :
    ((s.settleLine f c a).stagers.get f).inSlot = (s.stagers.get f).inSlot :=
  (congrArg Stager.inSlot (settleLine_bare s f c a) :)
@[simp] theorem settleLine_get_committed (s : State) (f : Fid) (c : ResultCode) (a : Option Nat) :
    ((s.settleLine f c a).stagers.get f).committed = (s.stagers.get f).committed :=
  (congrArg Stager.committed (settleLine_bare s f c a) :)

/-! ### Sags and episodes -/

theorem closeSag_of_none (s : State) {f : Fid} (o : SagOutcome) (h : (s.ctl.get f).sag = none) :
    s.closeSag f o = s := by
  simp [closeSag, h]

theorem closeSag_of_some (s : State) {f : Fid} (o : SagOutcome) {g : SagRecord} (h : (s.ctl.get f).sag = some g) :
    s.closeSag f o = ((s.handRecord (.sagClosed f { g with outcome := some o })).putCtl f
      ((s.ctl.get f).sagClosed o)).putEval f (s.evals.get f).closeSag := by
  simp [closeSag, h, FeederCtl.sagClosed]

theorem closeSag_ctl (s : State) (f : Fid) (o : SagOutcome) :
    (s.closeSag f o).ctl = s.ctl.set f ((s.ctl.get f).sagClosed o) := by
  cases h : (s.ctl.get f).sag with
  | none =>
    have same : (s.ctl.get f).sagClosed o = s.ctl.get f := by
      simp only [FeederCtl.sagClosed, h, closedEpisode_none]
      rw [← h]
    rw [closeSag_of_none s o h, same, Per8.set_get_self]
  | some g =>
    rw [closeSag_of_some s o h]
    simp

theorem closeSag_evals (s : State) (f : Fid) (o : SagOutcome) :
    (s.closeSag f o).evals = s.evals.set f
      (if (s.ctl.get f).sag.isSome then (s.evals.get f).closeSag else s.evals.get f) := by
  unfold closeSag
  split
  · next h => simp [h]
  · next h => simp [h]

theorem closeSag_blocks (s : State) (f : Fid) (o : SagOutcome) :
    (s.closeSag f o).blocks =
      State.blocks { s with ctl := (s.closeSag f o).ctl, evals := (s.closeSag f o).evals } := by
  unfold closeSag
  split
  · rfl
  · simp [State.blocks]

@[simp] theorem closeSag_malm (s : State) (f : Fid) (o : SagOutcome) : (s.closeSag f o).malm = s.malm :=
  (congrArg (fun u : State => u.malm) (closeSag_blocks s f o) :)
@[simp] theorem closeSag_draws (s : State) (f : Fid) (o : SagOutcome) : (s.closeSag f o).draws = s.draws :=
  (congrArg (fun u : State => u.draws) (closeSag_blocks s f o) :)
@[simp] theorem closeSag_table (s : State) (f : Fid) (o : SagOutcome) : (s.closeSag f o).table = s.table :=
  (congrArg (fun u : State => u.table) (closeSag_blocks s f o) :)
@[simp] theorem closeSag_monitors (s : State) (f : Fid) (o : SagOutcome) : (s.closeSag f o).monitors = s.monitors :=
  (congrArg (fun u : State => u.monitors) (closeSag_blocks s f o) :)
@[simp] theorem closeSag_trackers (s : State) (f : Fid) (o : SagOutcome) : (s.closeSag f o).trackers = s.trackers :=
  (congrArg (fun u : State => u.trackers) (closeSag_blocks s f o) :)
@[simp] theorem closeSag_account (s : State) (f : Fid) (o : SagOutcome) : (s.closeSag f o).account = s.account :=
  (congrArg (fun u : State => u.account) (closeSag_blocks s f o) :)
@[simp] theorem closeSag_stagers (s : State) (f : Fid) (o : SagOutcome) : (s.closeSag f o).stagers = s.stagers :=
  (congrArg (fun u : State => u.stagers) (closeSag_blocks s f o) :)
@[simp] theorem closeSag_link (s : State) (f : Fid) (o : SagOutcome) : (s.closeSag f o).link = s.link :=
  (congrArg (fun u : State => u.link) (closeSag_blocks s f o) :)

theorem closeEpisode_ctl (s : State) (f : Fid) (k : CloseCause) :
    (s.closeEpisode f k).ctl = s.ctl.set f { s.ctl.get f with episode := none } := by
  unfold closeEpisode
  split
  · next h =>
    have e : ({ s.ctl.get f with episode := none } : FeederCtl) = s.ctl.get f := by rw [← h]
    rw [e, Per8.set_get_self]
  · simp

theorem closeEpisode_blocks (s : State) (f : Fid) (k : CloseCause) :
    (s.closeEpisode f k).blocks = State.blocks { s with ctl := (s.closeEpisode f k).ctl } := by
  unfold closeEpisode
  split
  · rfl
  · simp [State.blocks]

@[simp] theorem closeEpisode_malm (s : State) (f : Fid) (k : CloseCause) : (s.closeEpisode f k).malm = s.malm :=
  (congrArg (fun u : State => u.malm) (closeEpisode_blocks s f k) :)
@[simp] theorem closeEpisode_draws (s : State) (f : Fid) (k : CloseCause) : (s.closeEpisode f k).draws = s.draws :=
  (congrArg (fun u : State => u.draws) (closeEpisode_blocks s f k) :)
@[simp] theorem closeEpisode_table (s : State) (f : Fid) (k : CloseCause) : (s.closeEpisode f k).table = s.table :=
  (congrArg (fun u : State => u.table) (closeEpisode_blocks s f k) :)
@[simp] theorem closeEpisode_monitors (s : State) (f : Fid) (k : CloseCause) : (s.closeEpisode f k).monitors = s.monitors :=
  (congrArg (fun u : State => u.monitors) (closeEpisode_blocks s f k) :)
@[simp] theorem closeEpisode_trackers (s : State) (f : Fid) (k : CloseCause) : (s.closeEpisode f k).trackers = s.trackers :=
  (congrArg (fun u : State => u.trackers) (closeEpisode_blocks s f k) :)
@[simp] theorem closeEpisode_account (s : State) (f : Fid) (k : CloseCause) : (s.closeEpisode f k).account = s.account :=
  (congrArg (fun u : State => u.account) (closeEpisode_blocks s f k) :)
@[simp] theorem closeEpisode_stagers (s : State) (f : Fid) (k : CloseCause) : (s.closeEpisode f k).stagers = s.stagers :=
  (congrArg (fun u : State => u.stagers) (closeEpisode_blocks s f k) :)
@[simp] theorem closeEpisode_link (s : State) (f : Fid) (k : CloseCause) : (s.closeEpisode f k).link = s.link :=
  (congrArg (fun u : State => u.link) (closeEpisode_blocks s f k) :)
@[simp] theorem closeEpisode_evals (s : State) (f : Fid) (k : CloseCause) : (s.closeEpisode f k).evals = s.evals :=
  (congrArg (fun u : State => u.evals) (closeEpisode_blocks s f k) :)

/-! ### Standing down (R19, R22) -/

theorem emptySlot_eq (s : State) (f : Fid) : s.emptySlot f = { s with link := s.link.without f } := rfl

theorem standDown_ctl (s : State) (f : Fid) (o : SagOutcome) (k : CloseCause) :
    (s.standDown f o k).ctl =
      s.ctl.set f { s.ctl.get f with source := .none, sag := none, episode := none } := by
  simp [standDown, closeEpisode_ctl, closeSag_ctl, emptySlot_eq, releaseEnergy, stopSource, FeederCtl.sagClosed]

theorem standDown_account (s : State) (f : Fid) (o : SagOutcome) (k : CloseCause) :
    (s.standDown f o k).account = { s.account with reserved := s.account.reserved.set f 0 } := by
  simp [standDown, emptySlot_eq, releaseEnergy, stopSource]

theorem standDown_link (s : State) (f : Fid) (o : SagOutcome) (k : CloseCause) :
    (s.standDown f o k).link = s.link.without f := by
  simp [standDown, emptySlot_eq, releaseEnergy, stopSource]

theorem standDown_evals (s : State) (f : Fid) (o : SagOutcome) (k : CloseCause) :
    (s.standDown f o k).evals = s.evals.set f
      (if (s.ctl.get f).sag.isSome then (s.evals.get f).closeSag else s.evals.get f) := by
  simp [standDown, closeSag_evals, emptySlot_eq, releaseEnergy, stopSource]

theorem standDown_bare (s : State) (f : Fid) (o : SagOutcome) (k : CloseCause) :
    ((s.standDown f o k).stagers.get f).bare =
      { (s.stagers.get f).bare with pending := none, onLine := none, inSlot := none } := by
  simp [standDown, emptySlot_eq, releaseEnergy, stopSource, endPending_bare, settleSlot_bare, settleLine_bare]

theorem standDown_stager_ne (s : State) (f : Fid) (o : SagOutcome) (k : CloseCause) {g : Fid} (h : g ≠ f) :
    (s.standDown f o k).stagers.get g = s.stagers.get g := by
  simp [standDown, emptySlot_eq, releaseEnergy, stopSource, endPending_stager_ne _ _ _ h,
    settleSlot_stager_ne _ _ _ h, settleLine_stager_ne _ _ _ _ h]

@[simp] theorem standDown_malm (s : State) (f : Fid) (o : SagOutcome) (k : CloseCause) :
    (s.standDown f o k).malm = s.malm := by
  simp [standDown, emptySlot_eq, releaseEnergy, stopSource]

@[simp] theorem standDown_draws (s : State) (f : Fid) (o : SagOutcome) (k : CloseCause) :
    (s.standDown f o k).draws = s.draws := by
  simp [standDown, emptySlot_eq, releaseEnergy, stopSource]

@[simp] theorem standDown_table (s : State) (f : Fid) (o : SagOutcome) (k : CloseCause) :
    (s.standDown f o k).table = s.table := by
  simp [standDown, emptySlot_eq, releaseEnergy, stopSource]

@[simp] theorem standDown_monitors (s : State) (f : Fid) (o : SagOutcome) (k : CloseCause) :
    (s.standDown f o k).monitors = s.monitors := by
  simp [standDown, emptySlot_eq, releaseEnergy, stopSource]

@[simp] theorem standDown_trackers (s : State) (f : Fid) (o : SagOutcome) (k : CloseCause) :
    (s.standDown f o k).trackers = s.trackers := by
  simp [standDown, emptySlot_eq, releaseEnergy, stopSource]

/-! ### Entry to FAULT (R19) -/

theorem enterFault_ctl (s : State) (f : Fid) (r : Reason) :
    (s.enterFault f r).ctl = s.ctl.set f
      { s.ctl.get f with
        state := .fault, reason := r, notReadyRun := 0, source := .none, sag := none, episode := none } := by
  simp [enterFault, setState, standDown_ctl]

theorem enterFault_account (s : State) (f : Fid) (r : Reason) :
    (s.enterFault f r).account = { s.account with reserved := s.account.reserved.set f 0 } := by
  simp [enterFault, setState, standDown_account]

theorem enterFault_link (s : State) (f : Fid) (r : Reason) : (s.enterFault f r).link = s.link.without f := by
  simp [enterFault, setState, standDown_link]

theorem enterFault_evals (s : State) (f : Fid) (r : Reason) :
    (s.enterFault f r).evals = s.evals.set f
      (if (s.ctl.get f).sag.isSome then (s.evals.get f).closeSag else s.evals.get f) := by
  simp [enterFault, setState, standDown_evals]

theorem enterFault_bare (s : State) (f : Fid) (r : Reason) :
    ((s.enterFault f r).stagers.get f).bare =
      { (s.stagers.get f).bare with pending := none, onLine := none, inSlot := none } := by
  simp [enterFault, setState, standDown_bare]

theorem enterFault_stager_ne (s : State) (f : Fid) (r : Reason) {g : Fid} (h : g ≠ f) :
    (s.enterFault f r).stagers.get g = s.stagers.get g := by
  simp [enterFault, setState, standDown_stager_ne _ _ _ _ h]

@[simp] theorem enterFault_malm (s : State) (f : Fid) (r : Reason) : (s.enterFault f r).malm = s.malm := by
  simp [enterFault, setState]

@[simp] theorem enterFault_draws (s : State) (f : Fid) (r : Reason) : (s.enterFault f r).draws = s.draws := by
  simp [enterFault, setState]

@[simp] theorem enterFault_table (s : State) (f : Fid) (r : Reason) : (s.enterFault f r).table = s.table := by
  simp [enterFault, setState]

@[simp] theorem enterFault_monitors (s : State) (f : Fid) (r : Reason) : (s.enterFault f r).monitors = s.monitors := by
  simp [enterFault, setState]

@[simp] theorem enterFault_trackers (s : State) (f : Fid) (r : Reason) : (s.enterFault f r).trackers = s.trackers := by
  simp [enterFault, setState]

/-- A cause of R19 does nothing in OFF and in FAULT. -/
theorem fault_idle (s : State) (f : Fid) (r : Reason) (h : (s.ctl.get f).state = .off ∨ (s.ctl.get f).state = .fault) :
    s.fault f r = s := by
  unfold fault
  rcases h with h | h <;> rw [h]

theorem fault_enters (s : State) (f : Fid) (r : Reason) (h : (s.ctl.get f).state ≠ .off)
    (k : (s.ctl.get f).state ≠ .fault) : s.fault f r = s.enterFault f r := by
  unfold fault
  cases e : (s.ctl.get f).state <;> first | rfl | exact absurd e h | exact absurd e k

end State

/-! ## The log of the controllers' operations -/

namespace Logs

variable {f : Fid} {s t u : State} {log : List LogItem}

theorem of_eq {log' : List LogItem} (h : Logs f s t log) (e : log = log') : Logs f s t log' := e ▸ h

theorem setState (h : Logs f s t log) (new : FeederState) (reason : Reason) :
    Logs f s (t.setState f new reason) (log ++ [.record (.feederState f (t.ctl.get f).state new reason)]) :=
  (h.putCtl f _).handRecord _

theorem stopSource (h : Logs f s t log) : Logs f s (t.stopSource f) log := h.putCtl f _

theorem onSag (h : Logs f s t log) (g : SagRecord → SagRecord) : Logs f s (t.onSag f g) log := h.putCtl f _

theorem startQuiet (h : Logs f s t log) : Logs f s (t.startQuiet f) log := h.putCtl f _

theorem closeSag (h : Logs f s t log) (o : SagOutcome) :
    Logs f s (t.closeSag f o)
      (log ++ records ((t.ctl.get f).sag.toList.map fun x => .sagClosed f { x with outcome := some o })) := by
  unfold State.closeSag
  split
  · next e => simpa [e] using h
  · next g e =>
    rw [e]
    exact ((h.handRecord _).putCtl f _).putEval f _

theorem closeEpisode (h : Logs f s t log) (k : CloseCause) :
    Logs f s (t.closeEpisode f k)
      (log ++ records ((t.ctl.get f).episode.toList.map fun y => .episodeClosed f y k (t.trackers.get f).hc)) := by
  unfold State.closeEpisode
  split
  · next e => simpa [e] using h
  · next y e =>
    rw [e]
    exact (h.handRecord _).putCtl f _

theorem standDown (h : Logs f s t log) (o : SagOutcome) (k : CloseCause) :
    Logs f s (t.standDown f o k)
      (log ++ endings .none (t.stagers.get f).committed (endAll .notRiding (t.stagers.get f).held) ++
        records (standDownRecords f (t.ctl.get f) (t.trackers.get f).hc o k)) := by
  refine Logs.of_eq (((((((h.stopSource).releaseEnergy f).settleLine .notRiding none).settleSlot .notRiding).endPending
    .notRiding).emptySlot).closeSag o |>.closeEpisode k) ?_
  simp [State.stopSource, State.releaseEnergy, State.emptySlot_eq, State.closeSag_ctl, standDownRecords, Stager.held,
    records_append, endings_append, endAll, FeederCtl.sagClosed]

end Logs

end Sys2Proof.Machine
end

section
namespace Sys2Proof.Machine

/-! ## Entry to FAULT in an event: its log and its records -/

namespace Logs

variable {f : Fid} {s t u : State} {log : List LogItem}

theorem enterFault (h : Logs f s t log) (r : Reason) :
    Logs f s (t.enterFault f r)
      (log ++ (.record (.feederState f (t.ctl.get f).state .fault r) ::
        endings .none (t.stagers.get f).committed (endAll .notRiding (t.stagers.get f).held)) ++
        records (standDownRecords f (t.ctl.get f) (t.trackers.get f).hc .fault .fault)) :=
  (((h.setState .fault r).putCtl f _).standDown .fault .fault).of_eq
    (by simp [State.setState, standDownRecords])

end Logs

/-- The records of an entry to FAULT, as a stand-down hands them over. -/
theorem faultRecords_eq (s t : State) (f : Fid) (r : Reason) (before after : List Ending) :
    faultRecords s t f r before after =
      refRecords f ((endResults s t f (before ++ after)).take before.length) ++
          [.feederState f (s.ctl.get f).state .fault r] ++
        refRecords f ((endResults s t f (before ++ after)).drop before.length) ++
        standDownRecords f (s.ctl.get f) (s.trackers.get f).hc .fault .fault := by
  unfold faultRecords standDownRecords closedEpisode
  dsimp only
  rw [List.append_assoc _ (List.map _ _) (List.map _ _)]
  congr 2
  cases (s.ctl.get f).sag with
  | none => rfl
  | some g => cases (s.ctl.get f).episode <;> rfl

theorem Logs.faulted {f : Fid} {s t : State} {r : Reason} {before after : List Ending}
    (h : Logs f s t (endings (t.ctl.get f).source (t.stagers.get f).committed before ++
      (.record (.feederState f (s.ctl.get f).state .fault r) ::
        endings (t.ctl.get f).source (t.stagers.get f).committed after) ++
      records (standDownRecords f (s.ctl.get f) (s.trackers.get f).hc .fault .fault))) :
    resultsMade s t f (before ++ after) ∧ recorded s t (faultRecords s t f r before after) := by
  rw [faultRecords_eq]
  exact h.entered

/-! ## The end of a feeder's event -/

namespace State

@[simp] theorem settleResults_malm (s before : State) (f : Fid) : (s.settleResults before f).malm = s.malm := by
  unfold settleResults; dsimp only; split <;> rfl

@[simp] theorem settleResults_draws (s before : State) (f : Fid) : (s.settleResults before f).draws = s.draws := by
  unfold settleResults; dsimp only; split <;> rfl

@[simp] theorem settleResults_table (s before : State) (f : Fid) : (s.settleResults before f).table = s.table := by
  unfold settleResults; dsimp only; split <;> rfl

@[simp] theorem settleResults_ctl (s before : State) (f : Fid) : (s.settleResults before f).ctl = s.ctl := by
  unfold settleResults; dsimp only; split <;> rfl

@[simp] theorem settleResults_monitors (s before : State) (f : Fid) : (s.settleResults before f).monitors = s.monitors := by
  unfold settleResults; dsimp only; split <;> rfl

@[simp] theorem settleResults_trackers (s before : State) (f : Fid) : (s.settleResults before f).trackers = s.trackers := by
  unfold settleResults; dsimp only; split <;> rfl

@[simp] theorem settleResults_evals (s before : State) (f : Fid) : (s.settleResults before f).evals = s.evals := by
  unfold settleResults; dsimp only; split <;> rfl

@[simp] theorem settleResults_account (s before : State) (f : Fid) : (s.settleResults before f).account = s.account := by
  unfold settleResults; dsimp only; split <;> rfl

@[simp] theorem settleResults_link (s before : State) (f : Fid) : (s.settleResults before f).link = s.link := by
  unfold settleResults; dsimp only; split <;> rfl

theorem settleResults_bare (s before : State) (f g : Fid) :
    ((s.settleResults before f).stagers.get g).bare = (s.stagers.get g).bare := by
  unfold settleResults
  dsimp only
  split
  · rfl
  · change ((s.stagers.set f _).get g).bare = _
    rw [Per8.get_set]
    split
    · next e => rw [e]; rfl
    · rfl

theorem settleResults_committed (s before : State) (f g : Fid) :
    ((s.settleResults before f).stagers.get g).committed = (s.stagers.get g).committed :=
  (congrArg Stager.committed (settleResults_bare s before f g) :)

theorem settleResults_stager_ne (s before : State) {f g : Fid} (h : g ≠ f) :
    (s.settleResults before f).stagers.get g = s.stagers.get g := by
  unfold settleResults
  dsimp only
  split
  · rfl
  · exact Per8.get_set_ne _ _ h

end State

/-- The state `u` in which an event ends whose effect is `t`: the same but for what the end of an event rearranges, and
with the same word on the port where one is there. -/
structure EndsAs (t u : State) : Prop where
  offPort : u.offPort = t.offPort
  port : t.bus.port ≠ .free → u.bus.port = t.bus.port

/-- What of a settled port the end of an event turns on: a FREE port has HOLD released and no access waiting, and a burst,
a withdrawal and a deferred request stand only where HOLD allows it (R148, R149, R150). -/
def State.portSettled (s : State) : Prop :=
  (s.bus.port = .free → s.bus.hold = .released ∧ s.bus.waiting = []) ∧ s.holdInv

theorem State.settled.portSettled {s : State} (h : s.settled) : s.portSettled := ⟨h.1, h.2.1⟩

/-- The end of an event that leaves a settled port's owner, HOLD and waiting accesses as they were (`outer`). -/
theorem finish_endsAs {s t : State} (h : s.portSettled) (outer : t.outer = s.outer) : EndsAs t t.finish := by
  by_cases free : t.bus.port = .free
  · obtain ⟨-, isFree, hold, waiting, -⟩ := State.port_of_outer outer
    obtain ⟨released, none⟩ := h.1 (isFree.1 free)
    refine ⟨?_, fun busy => absurd free busy⟩
    rw [State.finish_offPort_eq]
    exact State.arbitrate_idle _ t free (hold.trans released) (waiting.trans none)
      (State.holdInv_of_outer outer h.2)
  · exact ⟨(State.finish_busy t free).1, fun _ => (State.finish_busy t free).2⟩

/-- An event whose effect moves the feeders' side alone completes with that effect. -/
theorem completes_of_moves {c : Instr} {s r t : State} {P : State → Prop} (hx : exec c s = .next t.finish)
    (hs : r.portSettled) (hm : Moves r t) (hP : ∀ u, EndsAs t u → P u) : Completes c s P :=
  ⟨_, hx, hP _ (finish_endsAs hs hm.outer)⟩

namespace EndsAs

variable {s t u : State}

theorem pending (e : EndsAs t u) : u.pending = t.pending := (congrArg (fun v : State => v.pending) e.offPort :)
theorem stamp (e : EndsAs t u) : u.stamp = t.stamp := (congrArg (fun v : State => v.stamp) e.offPort :)
theorem init (e : EndsAs t u) : u.init = t.init := (congrArg (fun v : State => v.init) e.offPort :)
theorem malm (e : EndsAs t u) : u.malm = t.malm := (congrArg (fun v : State => v.malm) e.offPort :)
theorem draws (e : EndsAs t u) : u.draws = t.draws := (congrArg (fun v : State => v.draws) e.offPort :)
theorem loader (e : EndsAs t u) : u.loader = t.loader := (congrArg (fun v : State => v.loader) e.offPort :)
theorem table (e : EndsAs t u) : u.table = t.table := (congrArg (fun v : State => v.table) e.offPort :)
theorem ctl (e : EndsAs t u) : u.ctl = t.ctl := (congrArg (fun v : State => v.ctl) e.offPort :)
theorem monitors (e : EndsAs t u) : u.monitors = t.monitors := (congrArg (fun v : State => v.monitors) e.offPort :)
theorem dclink (e : EndsAs t u) : u.dclink = t.dclink := (congrArg (fun v : State => v.dclink) e.offPort :)
theorem trackers (e : EndsAs t u) : u.trackers = t.trackers := (congrArg (fun v : State => v.trackers) e.offPort :)
theorem evals (e : EndsAs t u) : u.evals = t.evals := (congrArg (fun v : State => v.evals) e.offPort :)
theorem account (e : EndsAs t u) : u.account = t.account := (congrArg (fun v : State => v.account) e.offPort :)
theorem stagers (e : EndsAs t u) : u.stagers = t.stagers := (congrArg (fun v : State => v.stagers) e.offPort :)
theorem link (e : EndsAs t u) : u.link = t.link := (congrArg (fun v : State => v.link) e.offPort :)

theorem staging (e : EndsAs t u) : u.writer.staging = t.writer.staging :=
  (congrArg (fun v : State => v.writer.staging) e.offPort :)

theorem resultDirty (e : EndsAs t u) : u.writer.resultDirty = t.writer.resultDirty :=
  (congrArg (fun v : State => v.writer.resultDirty) e.offPort :)

theorem staged {b : Body} (e : EndsAs t u) (h : Machine.staged s t b) : Machine.staged s u b := by
  unfold Machine.staged at h ⊢
  rwa [e.staging]

theorem recorded {bs : List Body} (e : EndsAs t u) (h : Machine.recorded s t bs) : Machine.recorded s u bs := by
  unfold Machine.recorded at h ⊢
  rwa [e.staging]

theorem endResults (e : EndsAs t u) (s : State) (f : Fid) (xs : List Ending) :
    Machine.endResults s u f xs = Machine.endResults s t f xs := by
  unfold Machine.endResults
  rw [e.ctl, e.stagers]

theorem faultRecords (e : EndsAs t u) (s : State) (f : Fid) (r : Reason) (before after : List Ending) :
    Machine.faultRecords s u f r before after = Machine.faultRecords s t f r before after := by
  rw [faultRecords_eq, faultRecords_eq, e.endResults]

theorem slotMarked {f : Fid} (e : EndsAs t u) (h : Machine.slotMarked s t f) : Machine.slotMarked s u f := by
  obtain ⟨dirty, port⟩ := h
  refine ⟨e.resultDirty ▸ dirty, fun w d i hi hp ht hne => ?_⟩
  have word : u.resultWord f i = t.resultWord f i := by
    unfold State.resultWord
    rw [e.stagers]
  obtain ⟨w', hp', ht', hc'⟩ := port w d i hi hp ht (word ▸ hne)
  exact ⟨w', (e.port (by rw [hp']; exact fun h => nomatch h)).trans hp', ht', hc'⟩

theorem resultsMade {f : Fid} {xs : List Ending} (e : EndsAs t u) (h : Machine.resultsMade s t f xs) :
    Machine.resultsMade s u f xs := by
  obtain ⟨number, latest, marked⟩ := h
  unfold Machine.resultsMade
  rw [e.endResults, e.stagers]
  exact ⟨number, latest, fun ne => e.slotMarked (marked ne)⟩

theorem surroundings (e : EndsAs t u) (h : sameSurroundings s t) : sameSurroundings s u :=
  sameSurroundings_of_offPort h e.offPort

end EndsAs

end Sys2Proof.Machine
end

section
namespace Sys2Proof.Machine

/-! ## Entry to FAULT as an event of its own -/

/-- What an entry to FAULT does to its feeder's controller (R19). -/
def FeederCtl.faulted (c : FeederCtl) (r : Reason) : FeederCtl :=
  { c with state := .fault, reason := r, notReadyRun := 0, source := .none, sag := none, episode := none }

/-- What an event that only takes feeder `f` from `s` to FAULT leaves (R19). -/
structure Faulted (s t : State) (f : Fid) (r : Reason) : Prop where
  ctl : t.ctl = s.ctl.set f ((s.ctl.get f).faulted r)
  account : t.account = { s.account with reserved := s.account.reserved.set f 0 }
  link : t.link = s.link.without f
  evals : t.evals = s.evals.set f
    (if (s.ctl.get f).sag.isSome then { s.evals.get f with sagOpen := false, applied := false, ttt := none }
     else s.evals.get f)
  stager : (t.stagers.get f).bare =
    { (s.stagers.get f).bare with pending := none, onLine := none, inSlot := none }
  stagers : ∀ g, g ≠ f → t.stagers.get g = s.stagers.get g
  malm : t.malm = s.malm
  draws : t.draws = s.draws

theorem enterFault_faulted (s : State) (f : Fid) (r : Reason) : Faulted s (s.enterFault f r) f r where
  ctl := State.enterFault_ctl s f r
  account := State.enterFault_account s f r
  link := State.enterFault_link s f r
  evals := State.enterFault_evals s f r
  stager := State.enterFault_bare s f r
  stagers _ h := State.enterFault_stager_ne s f r h
  malm := by simp
  draws := by simp

/-- Settling its results leaves what an entry to FAULT has done. -/
theorem Faulted.settle {s t : State} {f : Fid} {r : Reason} (h : Faulted s t f r) (before : State) :
    Faulted s (t.settleResults before f) f r where
  ctl := by rw [State.settleResults_ctl, h.ctl]
  account := by rw [State.settleResults_account, h.account]
  link := by rw [State.settleResults_link, h.link]
  evals := by rw [State.settleResults_evals, h.evals]
  stager := by rw [State.settleResults_bare, h.stager]
  stagers g ne := by rw [State.settleResults_stager_ne _ _ ne, h.stagers g ne]
  malm := by rw [State.settleResults_malm, h.malm]
  draws := by rw [State.settleResults_draws, h.draws]

theorem length_held_le (g : Stager) : g.held.length ≤ 3 := by
  have h₁ : g.onLine.toList.length ≤ 1 := by cases g.onLine <;> simp
  have h₂ : g.inSlot.toList.length ≤ 1 := by cases g.inSlot <;> simp
  have h₃ : g.pending.toList.length ≤ 1 := by cases g.pending <;> simp
  unfold Stager.held
  simp only [List.length_append]
  omega

theorem length_standDownRecords_le (f : Fid) (c : FeederCtl) (hc : BitVec 8) (o : SagOutcome) (k : CloseCause) :
    (standDownRecords f c hc o k).length ≤ 2 := by
  have h₁ : c.sag.toList.length ≤ 1 := by cases c.sag <;> simp
  have h₂ : (closedEpisode c.sag c.episode o).toList.length ≤ 1 := by cases closedEpisode c.sag c.episode o <;> simp
  unfold standDownRecords
  simp only [List.length_append, List.length_map]
  omega

/-- The records of a stand-down are no results', so the end of the event leaves them alone. -/
theorem standDownRecords_own (f : Fid) (c : FeederCtl) (hc : BitVec 8) (o : SagOutcome) (k : CloseCause) :
    ∀ b ∈ standDownRecords f c hc o k, b.own = true := by
  intro b h
  rcases List.mem_append.1 h with h | h <;> obtain ⟨x, -, rfl⟩ := List.mem_map.1 h <;> rfl

/-- Settled at the end of its event, the log of an entry to a state has its results with the source and page of the end. -/
theorem Logs.settle_entry {f : Fid} {s t u : State} {source source' : Source} {page page' : Page}
    {before after : List Ending} {b : Body} {l : List Body}
    (h : Logs f s t (endings source page before ++ (.record b :: endings source' page' after) ++ records l))
    (hu : u = t.settleResults s f) (few : before.length + after.length + l.length ≤ 16)
    (own : b.own = true) (owns : ∀ b ∈ l, b.own = true) :
    Logs f s u (endings (u.ctl.get f).source (u.stagers.get f).committed before ++
      (.record b :: endings (u.ctl.get f).source (u.stagers.get f).committed after) ++ records l) := by
  subst hu
  refine (h.settle ?_ ?_).of_eq ?_
  · simp only [endings, records, List.length_append, List.length_cons, List.length_map]
    omega
  · intro b' hb
    simp only [endings, records, List.mem_append, List.mem_cons, List.mem_map, reduceCtorEq, and_false,
      exists_false, LogItem.record.injEq, exists_eq_right, or_false, false_or] at hb
    rcases hb with rfl | hb
    · exact Body.settled_of_own own ..
    · exact Body.settled_of_own (owns b' hb) ..
  · rw [State.settleResults_committed]
    simp

/-- The same of a log of records followed by ends. -/
theorem Logs.settle_made {f : Fid} {s t u : State} {source : Source} {page : Page} {xs : List Ending} {l : List Body}
    (h : Logs f s t (records l ++ endings source page xs)) (hu : u = t.settleResults s f)
    (few : xs.length + l.length ≤ 16) (owns : ∀ b ∈ l, b.own = true) :
    Logs f s u (records l ++ endings (u.ctl.get f).source (u.stagers.get f).committed xs) := by
  subst hu
  refine (h.settle ?_ ?_).of_eq ?_
  · simp only [endings, records, List.length_append, List.length_map]
    omega
  · intro b hb
    simp only [endings, records, List.mem_append, List.mem_map, reduceCtorEq, and_false, exists_false,
      LogItem.record.injEq, exists_eq_right, or_false] at hb
    exact Body.settled_of_own (owns b hb) ..
  · rw [State.settleResults_committed]
    simp

/-- The log of an entry to FAULT behind the ends `before`, settled at the end of its event. -/
theorem Logs.enterFault_settled {f : Fid} {s t u : State} {source : Source} {page : Page} {before : List Ending}
    {r : Reason} (h : Logs f s t (endings source page before)) (few : before.length ≤ 8)
    (ctl : t.ctl = s.ctl) (trackers : t.trackers = s.trackers) (hu : u = (t.enterFault f r).settleResults s f) :
    Logs f s u (endings (u.ctl.get f).source (u.stagers.get f).committed before ++
      (.record (.feederState f (s.ctl.get f).state .fault r) ::
        endings (u.ctl.get f).source (u.stagers.get f).committed (endAll .notRiding (t.stagers.get f).held)) ++
      records (standDownRecords f (s.ctl.get f) (s.trackers.get f).hc .fault .fault)) := by
  have held := length_held_le (t.stagers.get f)
  have closed := length_standDownRecords_le f (t.ctl.get f) (t.trackers.get f).hc .fault .fault
  have := (h.enterFault r).settle_entry hu (by simp only [length_endAll]; omega) rfl (standDownRecords_own _ _ _ _ _)
  rwa [ctl, trackers] at this

/-- The first item of a log, where it is a record, is in staging if there is room for it (R155). -/
theorem Logs.staged_first {f : Fid} {s t : State} {b : Body} {log : List LogItem} (h : Logs f s t (.record b :: log)) :
    staged s t b := h.hands.first b rfl

namespace State

/-- As an event of its own, a cause of R19 does nothing in OFF and in FAULT. -/
theorem fault_event_idle (s : State) (f : Fid) (r : Reason)
    (h : (s.ctl.get f).state = .off ∨ (s.ctl.get f).state = .fault) : s.asEventOf f (fun s => s.fault f r) = s := by
  unfold asEventOf
  dsimp only
  rw [fault_idle s f r h]
  unfold settleResults
  rw [if_pos rfl]

theorem fault_event_enters (s : State) (f : Fid) (r : Reason) (h : (s.ctl.get f).state ≠ .off)
    (k : (s.ctl.get f).state ≠ .fault) :
    s.asEventOf f (fun s => s.fault f r) = (s.enterFault f r).settleResults s f := by
  unfold asEventOf
  dsimp only
  rw [fault_enters s f r h k]

end State

end Sys2Proof.Machine
end

section
namespace Sys2Proof.Machine

theorem getD_replicate_false (n i : Nat) : (List.replicate n false).getD i false = false := by
  simp [List.getD_eq_getElem?_getD, List.getElem?_replicate]
  split <;> rfl

/-- Settles O4. -/
theorem resetState : Obligations.ResetState := by
  unfold Obligations.ResetState
  refine ⟨rfl, rfl, rfl, fun f => ?_, rfl, rfl, rfl, rfl, rfl, rfl, rfl, rfl, rfl, rfl, rfl, rfl, rfl, rfl, rfl, rfl, rfl,
    rfl, rfl, rfl, rfl, fun i => ?_, fun f i => ?_, rfl, rfl⟩
  · fin_cases f <;> exact ⟨rfl, rfl, rfl, rfl, rfl, rfl, rfl, rfl, rfl, rfl, rfl, rfl, rfl, rfl, rfl, rfl, rfl⟩
  · exact getD_replicate_false 40 i
  · have clean : State.reset.writer.resultDirty.get f = List.replicate 8 false := by fin_cases f <;> rfl
    rw [clean]
    exact getD_replicate_false 8 i

theorem FeederState.bypassed_iff (x : FeederState) :
    x.bypassed = true ↔ x = .off ∨ x = .arming ∨ x = .shed ∨ x = .fault := by
  cases x <;> simp [FeederState.bypassed]

/-- Settles O5. -/
theorem bypassFollowsState : Obligations.BypassFollowsState := by
  refine ⟨fun f => ?_, fun s f => ⟨FeederState.bypassed_iff _, fun off none => ?_⟩⟩
  · fin_cases f <;> rfl
  · exact (FeederState.bypassed_iff _).2 (.inl (off none f))

/-- Settles O39: a release changes the level alone, and so does an assertion in OFF and in FAULT; in any other state the
assertion is an entry to FAULT, whose records are read off its log. -/
theorem alarmEvents : Obligations.AlarmEvents := by
  intro f s hs c g ends
  have port (b : Bool) : State.portSettled { s with malm := s.malm.set f b } := ⟨hs.1, hs.2.1⟩
  have moves : Moves { s with malm := s.malm.set f true } (s.alarm f) :=
    State.asEventOf_moves _ _ _ (State.fault_moves _ _ _ .refl)
  refine ⟨completes_of_moves rfl (port false) .refl fun u e => e.offPort, fun idle => ?_, fun off fault => ?_⟩
  · refine completes_of_moves (t := s.alarm f) rfl (port true) moves fun u e => ?_
    have same : s.alarm f = { s with malm := s.malm.set f true } :=
      State.fault_event_idle { s with malm := s.malm.set f true } f .alarm idle
    exact same ▸ e.offPort
  · refine completes_of_moves (t := s.alarm f) rfl (port true) moves fun u e => ?_
    have enters : s.alarm f = _ := State.fault_event_enters { s with malm := s.malm.set f true } f .alarm off fault
    have effect : Faulted { s with malm := s.malm.set f true } (s.alarm f) f .alarm :=
      enters ▸ (enterFault_faulted _ f .alarm).settle _
    have log := (Logs.refl f { s with malm := s.malm.set f true }).enterFault_settled (source := .none) (page := .page0)
      (before := []) (Nat.zero_le _) rfl rfl enters
    obtain ⟨results, records⟩ := log.faulted
    have bare := effect.stager
    rw [← e.stagers] at bare
    exact ⟨e.malm.trans effect.malm, e.ctl.trans effect.ctl, e.account.trans effect.account,
      (congrArg Stager.pending bare :), (congrArg Stager.onLine bare :), (congrArg Stager.inSlot bare :),
      (congrArg Stager.committed bare :), (congrArg Stager.assembly bare :), (congrArg Stager.lastSeq bare :),
      fun g hg => (congrArg (fun p => p.get g) e.stagers).trans (effect.stagers g hg), e.link.trans effect.link,
      e.evals.trans effect.evals, e.monitors.trans (by rw [enters]; simp), e.trackers.trans (by rw [enters]; simp),
      e.draws.trans effect.draws, e.surroundings moves.surroundings, e.staged log.staged_first, e.resultsMade results,
      (e.faultRecords ..).symm ▸ e.recorded records⟩

end Sys2Proof.Machine
end

section
namespace Sys2Proof.Machine

/-! ## Silence (R40) -/

/-- The record of a tracker sent to SEEK, if there is one: its state changes and its feeder is not in OFF (R53, R56). -/
def seekRecords (f : Fid) (old : Tracker) (state : FeederState) (cause : SyncCause) : List Body :=
  if old.sync = .seek ∨ state = .off then [] else [.syncChange f old.sync .seek cause old.coast old.hc]

namespace State

theorem sendToSeek_trackers (s : State) (f : Fid) (k : SyncCause) :
    (s.sendToSeek f k).trackers = s.trackers.set f (s.trackers.get f).toSeek := by
  unfold sendToSeek recordSync
  dsimp only
  split
  · simp
  · split <;> simp

theorem sendToSeek_blocks (s : State) (f : Fid) (k : SyncCause) :
    (s.sendToSeek f k).blocks = State.blocks { s with trackers := (s.sendToSeek f k).trackers } := by
  unfold sendToSeek recordSync
  dsimp only
  split
  · simp [State.blocks]
  · split <;> simp [State.blocks]

end State

theorem Logs.sendToSeek {f : Fid} {s t : State} {log : List LogItem} (h : Logs f s t log) (k : SyncCause) :
    Logs f s (t.sendToSeek f k)
      (log ++ records (seekRecords f (t.trackers.get f) (t.ctl.get f).state k)) := by
  have sought : Logs f s (t.putTracker f (t.trackers.get f).toSeek) log := h.putTracker f _ rfl
  unfold State.sendToSeek State.recordSync seekRecords
  dsimp only
  by_cases seek : (t.trackers.get f).sync = .seek
  · simpa [seek] using sought
  · by_cases off : (t.ctl.get f).state = .off
    · simpa [seek, off] using sought
    · have := sought.handRecord (.syncChange f (t.trackers.get f).sync .seek k (t.trackers.get f).coast (t.trackers.get f).hc)
      simpa [seek, off, Tracker.toSeek] using this

/-- A monitor whose silence timer has expired (R40). -/
def Monitor.silenced (m : Monitor) : Monitor :=
  { m.clearCounts with assembly := Phases.replicate .notWritten, seq := none, silence := none }

/-- What the expiry of feeder `f`'s silence timer does after the cause of R19 (R40). -/
def State.silence (s : State) (f : Fid) : State :=
  (s.putMonitor f (s.monitors.get f).silenced).sendToSeek f .silence

theorem State.silenceExpires_running (s : State) (f : Fid) (h : (s.monitors.get f).silence ≠ none) :
    s.silenceExpires f = ((s.fault f .noSamples).silence f).settleResults s f := by
  unfold silenceExpires
  split
  · next e => exact absurd e h
  · rfl

namespace State

theorem silence_blocks (s : State) (f : Fid) :
    (s.silence f).blocks =
      State.blocks { s with monitors := (s.silence f).monitors, trackers := (s.silence f).trackers } := by
  refine (sendToSeek_blocks (s.putMonitor f (s.monitors.get f).silenced) f .silence).trans ?_
  have same := congrArg State.monitors (sendToSeek_blocks (s.putMonitor f (s.monitors.get f).silenced) f .silence)
  change (s.silence f).monitors = _ at same
  rw [same]
  rfl

theorem silence_monitors (s : State) (f : Fid) :
    (s.silence f).monitors = s.monitors.set f (s.monitors.get f).silenced :=
  (congrArg State.monitors (sendToSeek_blocks (s.putMonitor f (s.monitors.get f).silenced) f .silence) :)

theorem silence_trackers (s : State) (f : Fid) :
    (s.silence f).trackers = s.trackers.set f (s.trackers.get f).toSeek := sendToSeek_trackers _ f .silence

@[simp] theorem silence_ctl (s : State) (f : Fid) : (s.silence f).ctl = s.ctl :=
  (congrArg (fun u : State => u.ctl) (silence_blocks s f) :)

@[simp] theorem silence_malm (s : State) (f : Fid) : (s.silence f).malm = s.malm :=
  (congrArg (fun u : State => u.malm) (silence_blocks s f) :)

@[simp] theorem silence_draws (s : State) (f : Fid) : (s.silence f).draws = s.draws :=
  (congrArg (fun u : State => u.draws) (silence_blocks s f) :)

@[simp] theorem silence_account (s : State) (f : Fid) : (s.silence f).account = s.account :=
  (congrArg (fun u : State => u.account) (silence_blocks s f) :)

@[simp] theorem silence_link (s : State) (f : Fid) : (s.silence f).link = s.link :=
  (congrArg (fun u : State => u.link) (silence_blocks s f) :)

@[simp] theorem silence_evals (s : State) (f : Fid) : (s.silence f).evals = s.evals :=
  (congrArg (fun u : State => u.evals) (silence_blocks s f) :)

@[simp] theorem silence_stagers (s : State) (f : Fid) : (s.silence f).stagers = s.stagers :=
  (congrArg (fun u : State => u.stagers) (silence_blocks s f) :)

/-- With no result made since, nothing is settled. -/
theorem settleResults_of_stagers {s before : State} (f : Fid) (h : s.stagers = before.stagers) :
    s.settleResults before f = s := by
  unfold settleResults
  rw [h]
  exact if_pos rfl

end State

theorem length_seekRecords_le (f : Fid) (old : Tracker) (x : FeederState) (k : SyncCause) :
    (seekRecords f old x k).length ≤ 1 := by
  unfold seekRecords
  split <;> simp

theorem seekRecords_own (f : Fid) (old : Tracker) (x : FeederState) (k : SyncCause) :
    ∀ b ∈ seekRecords f old x k, b.own = true := by
  unfold seekRecords
  split <;> simp [Body.own]

theorem Logs.silence {f : Fid} {s t : State} {log : List LogItem} (h : Logs f s t log) :
    Logs f s (t.silence f) (log ++ records (seekRecords f (t.trackers.get f) (t.ctl.get f).state .silence)) :=
  (h.putMonitor f _).sendToSeek .silence

/-- The records of an entry to FAULT and of what follows it in the same event. -/
theorem Logs.faulted_then {f : Fid} {s t : State} {r : Reason} {after : List Ending} {l : List Body}
    (h : Logs f s t (.record (.feederState f (s.ctl.get f).state .fault r) ::
      endings (t.ctl.get f).source (t.stagers.get f).committed after ++
      records (standDownRecords f (s.ctl.get f) (s.trackers.get f).hc .fault .fault ++ l))) :
    resultsMade s t f after ∧ recorded s t (faultRecords s t f r [] after ++ l) := by
  have := h.entered (before := [])
  rw [faultRecords_eq]
  simpa using this

/-- Everything kept for another feeder is as it was where each block has changed at feeder `f` alone. -/
theorem sameAt_of_sets {s t : State} {g : Fid} (ctl : t.ctl.get g = s.ctl.get g)
    (monitors : t.monitors.get g = s.monitors.get g) (trackers : t.trackers.get g = s.trackers.get g)
    (evals : t.evals.get g = s.evals.get g) (stagers : t.stagers.get g = s.stagers.get g)
    (link : t.link.slots.get g = s.link.slots.get g) (account : t.account.reserved.get g = s.account.reserved.get g)
    (notice : t.account.notice = s.account.notice) : sameAt s t g :=
  ⟨⟨ctl, monitors, trackers, evals⟩, stagers, link, account, by rw [notice]⟩

/-- Settles O40: behind the cause of R19, which does nothing in OFF and in FAULT and is an entry to FAULT elsewhere, the
monitor is cleared and the tracker sent to SEEK. -/
theorem silenceExpiry : Obligations.SilenceExpiry := by
  intro f s hs c
  have moves : Moves s (s.silenceExpires f) := State.silenceExpires_moves s f .refl
  refine ⟨fun stopped => ?_, fun running => ?_⟩
  · refine completes_of_moves (t := s.silenceExpires f) rfl hs.portSettled moves fun u e => ?_
    have same : s.silenceExpires f = s := by
      unfold State.silenceExpires
      split
      · rfl
      · next h => rw [stopped] at h; cases h
    exact same ▸ e.offPort
  refine completes_of_moves (t := s.silenceExpires f) rfl hs.portSettled moves fun u e => ?_
  have ends := State.silenceExpires_running s f running
  by_cases idle : c.state = .off ∨ c.state = .fault
  · have idle' : ¬ (c.state ≠ .off ∧ c.state ≠ .fault) := fun h => idle.elim h.1 h.2
    rw [State.fault_idle s f .noSamples idle, State.settleResults_of_stagers f (s.silence_stagers f)] at ends
    have log : Logs f s (s.silence f) _ := (Logs.refl f s).silence
    rw [← ends] at log
    have result := e.resultsMade (log.resultsMade_of (xs := []) (by simp))
    have record := e.recorded log.hands.all
    rw [e.monitors, e.trackers, e.ctl, e.malm, e.draws, if_pos idle]
    simp only [if_neg idle']
    refine ⟨by rw [ends, State.silence_monitors]; rfl, by rw [ends, State.silence_trackers]; rfl, by rw [ends]; simp,
      by rw [ends]; simp, by rw [ends]; simp, fun g hg => ?_, e.surroundings moves.surroundings,
      fun h => absurd h idle', fun _ => ⟨e.account.trans ?_, e.link.trans ?_, e.evals.trans ?_, e.stagers.trans ?_⟩,
      result, by simpa [seekRecords] using record⟩
    · refine sameAt_of_sets ?_ ?_ ?_ ?_ ?_ ?_ ?_ ?_ <;>
        simp [e.ctl, e.monitors, e.trackers, e.evals, e.stagers, e.link, e.account, ends, State.silence_monitors,
          State.silence_trackers, Per8.get_set_ne _ _ hg]
    all_goals simp [ends]
  · have off : c.state ≠ .off := fun h => idle (.inl h)
    have fault : c.state ≠ .fault := fun h => idle (.inr h)
    rw [State.fault_enters s f .noSamples off fault] at ends
    have effect := enterFault_faulted s f .noSamples
    have bare := State.settleResults_bare ((s.enterFault f .noSamples).silence f) s f f
    rw [← ends, State.silence_stagers, effect.stager, ← e.stagers] at bare
    have log := (((Logs.refl f s).enterFault .noSamples).silence.of_eq (log' :=
        endings .none .page0 [] ++ (.record (.feederState f c.state .fault .noSamples) ::
          endings .none (s.stagers.get f).committed (endAll .notRiding (s.stagers.get f).held)) ++
        records (standDownRecords f c (s.trackers.get f).hc .fault .fault ++
          seekRecords f (s.trackers.get f) .fault .silence))
      (by simp [effect.ctl, FeederCtl.faulted, records_append, c])).settle_entry ends
        (by
          have := length_held_le (s.stagers.get f)
          have := length_standDownRecords_le f c (s.trackers.get f).hc .fault .fault
          have := length_seekRecords_le f (s.trackers.get f) .fault .silence
          simp only [List.length_nil, length_endAll, List.length_append]
          omega)
        rfl (List.forall_mem_append.2 ⟨standDownRecords_own f c (s.trackers.get f).hc .fault .fault,
          seekRecords_own f (s.trackers.get f) .fault .silence⟩)
    obtain ⟨results, record⟩ := Logs.faulted_then log
    have result := e.resultsMade results
    have record := e.recorded record
    rw [e.monitors, e.trackers, e.ctl, e.malm, e.draws, if_neg idle]
    simp only [if_pos (And.intro off fault)]
    refine ⟨by rw [ends, State.settleResults_monitors, State.silence_monitors]; simp; rfl,
      by rw [ends, State.settleResults_trackers, State.silence_trackers]; simp; rfl,
      by rw [ends, State.settleResults_ctl, State.silence_ctl, effect.ctl]; rfl,
      by rw [ends, State.settleResults_malm, State.silence_malm, effect.malm],
      by rw [ends, State.settleResults_draws, State.silence_draws, effect.draws], fun g hg => ?_,
      e.surroundings moves.surroundings, fun _ => ⟨?_, ?_, ?_, (congrArg Stager.pending bare :),
        (congrArg Stager.onLine bare :), (congrArg Stager.inSlot bare :), (congrArg Stager.committed bare :),
        (congrArg Stager.assembly bare :), (congrArg Stager.lastSeq bare :)⟩, fun h => absurd ⟨off, fault⟩ h, result, ?_⟩
    · refine sameAt_of_sets ?_ ?_ ?_ ?_ ?_ ?_ ?_ ?_ <;>
        simp [e.ctl, e.monitors, e.trackers, e.evals, e.stagers, e.link, e.account, ends, State.silence_monitors,
          State.silence_trackers, State.settleResults_stager_ne _ _ hg, effect.ctl, effect.evals, effect.account,
          effect.link, effect.stagers g hg, Link.without, Per8.get_set_ne _ _ hg]
    · rw [e.account, ends, State.settleResults_account, State.silence_account, effect.account]
    · rw [e.link, ends, State.settleResults_link, State.silence_link, effect.link]; rfl
    · rw [e.evals, ends, State.settleResults_evals, State.silence_evals, effect.evals]
    · rw [← e.faultRecords] at record
      simpa [seekRecords, off, Stager.held] using record

end Sys2Proof.Machine
end

section
namespace Sys2Proof.Machine

/-! ## Entry to SHED (R16) -/

/-- What an entry to SHED does to its feeder's controller (R16). -/
def FeederCtl.shed (c : FeederCtl) (r : Reason) : FeederCtl := { c with state := .shed, reason := r, source := .none }

/-- The ends that an entry to SHED brings: the record whose slot the RELEASE takes, and the pending one (R102, R106). -/
def Stager.shedEnds (g : Stager) (dropped : ResultCode) : List Ending :=
  endAll .superseded g.inSlot.toList ++ endAll dropped g.pending.toList

/-- What an entry of feeder `f` to SHED leaves of the state `s` it comes from (R16). -/
structure Shed (s t : State) (f : Fid) (r : Reason) : Prop where
  ctl : t.ctl = s.ctl.set f ((s.ctl.get f).shed r)
  account : t.account = { s.account with reserved := s.account.reserved.set f 0 }
  placed : Placed t f (.release (s.trackers.get f).hc)
  stager : (t.stagers.get f).bare = { (s.stagers.get f).bare with pending := none, inSlot := none }
  evals : t.evals = s.evals
  monitors : t.monitors = s.monitors
  trackers : t.trackers = s.trackers
  malm : t.malm = s.malm
  draws : t.draws = s.draws
  table : t.table = s.table

/-- The state of an entry to SHED at which its RELEASE is placed. -/
def State.toShed (s : State) (f : Fid) (r : Reason) : State := ((s.setState f .shed r).releaseEnergy f).stopSource f

theorem State.enterShed_eq (s : State) (f : Fid) (r : Reason) (dropped : ResultCode) :
    s.enterShed f r dropped = ((s.toShed f r).placeRelease f).endPending f dropped := rfl

theorem State.toShed_ctl (s : State) (f : Fid) (r : Reason) :
    (s.toShed f r).ctl = s.ctl.set f ((s.ctl.get f).shed r) := by
  simp [toShed, setState, releaseEnergy, stopSource, FeederCtl.shed]

theorem State.toShed_account (s : State) (f : Fid) (r : Reason) :
    (s.toShed f r).account = { s.account with reserved := s.account.reserved.set f 0 } := by
  simp [toShed, setState, releaseEnergy, stopSource]

theorem State.toShed_blocks (s : State) (f : Fid) (r : Reason) :
    (s.toShed f r).blocks =
      State.blocks { s with ctl := (s.toShed f r).ctl, account := (s.toShed f r).account } := by
  simp [State.blocks, toShed, setState, releaseEnergy, stopSource]

theorem enterShed_shed (s : State) (f : Fid) (r : Reason) (dropped : ResultCode) :
    Shed s (s.enterShed f r dropped) f r := by
  have field : ∀ {α : Type} (g : State → α), g (s.toShed f r).blocks = g (State.blocks
      { s with ctl := (s.toShed f r).ctl, account := (s.toShed f r).account }) :=
    fun g => congrArg g (State.toShed_blocks s f r)
  have trackers : (s.toShed f r).trackers = s.trackers := field State.trackers
  have stagers : (s.toShed f r).stagers = s.stagers := field State.stagers
  have yields : (s.toShed f r).yields f (.release (s.trackers.get f).hc) = false := rfl
  rw [State.enterShed_eq]
  unfold State.placeRelease
  rw [trackers]
  constructor
  case ctl => simp [State.toShed_ctl]
  case account => simp [State.toShed_account]
  case placed =>
    have := State.placeRequest_placed _ f _ yields
    unfold Placed at this ⊢
    simpa using this
  case stager => rw [State.endPending_bare, State.placeRequest_unrecorded _ f _ yields rfl, stagers]
  case evals =>
    rw [State.endPending_evals, State.placeRequest_evals]
    exact field State.evals
  case monitors =>
    rw [State.endPending_monitors, State.placeRequest_monitors]
    exact field State.monitors
  case trackers => rw [State.endPending_trackers, State.placeRequest_trackers, trackers]
  case malm =>
    rw [State.endPending_malm, State.placeRequest_malm]
    exact field State.malm
  case draws =>
    rw [State.endPending_draws, State.placeRequest_draws]
    exact field State.draws
  case table =>
    rw [State.endPending_table, State.placeRequest_table]
    exact field State.table

theorem Logs.enterShed {f : Fid} {s t : State} {log : List LogItem} (h : Logs f s t log) (r : Reason)
    (dropped : ResultCode) :
    Logs f s (t.enterShed f r dropped)
      (log ++ .record (.feederState f (t.ctl.get f).state .shed r) ::
        endings .none (t.stagers.get f).committed ((t.stagers.get f).shedEnds dropped)) := by
  have stagers : (t.toShed f r).stagers = t.stagers := (congrArg State.stagers (State.toShed_blocks t f r) :)
  have placed := ((((h.setState .shed r).releaseEnergy f).stopSource).placeRequest
    (.release ((t.toShed f r).trackers.get f).hc) rfl).endPending dropped
  refine placed.of_eq ?_
  change _ ++ endings ((t.toShed f r).ctl.get f).source ((t.toShed f r).stagers.get f).committed
    (endAll .superseded ((t.toShed f r).stagers.get f).inSlot.toList) ++
      endings (((t.toShed f r).placeRequest f _).ctl.get f).source
        (((t.toShed f r).placeRequest f _).stagers.get f).committed
        (endAll dropped (((t.toShed f r).placeRequest f _).stagers.get f).pending.toList) = _
  rw [State.placeRequest_pending, State.placeRequest_committed, State.placeRequest_ctl, stagers, State.toShed_ctl]
  simp [FeederCtl.shed, Stager.shedEnds, endings_append]

/-- Settling its results leaves what an entry to SHED has done. -/
theorem Shed.settle {s t : State} {f : Fid} {r : Reason} (h : Shed s t f r) (before : State) :
    Shed s (t.settleResults before f) f r where
  ctl := by rw [State.settleResults_ctl, h.ctl]
  account := by rw [State.settleResults_account, h.account]
  placed := by
    unfold Placed
    rw [State.settleResults_link]
    exact h.placed
  stager := by rw [State.settleResults_bare, h.stager]
  evals := by rw [State.settleResults_evals, h.evals]
  monitors := by rw [State.settleResults_monitors, h.monitors]
  trackers := by rw [State.settleResults_trackers, h.trackers]
  malm := by rw [State.settleResults_malm, h.malm]
  draws := by rw [State.settleResults_draws, h.draws]
  table := by
    have : (t.settleResults before f).table = t.table := by
      unfold State.settleResults
      dsimp only
      split <;> rfl
    rw [this, h.table]

theorem length_shedEnds_le (g : Stager) (dropped : ResultCode) : (g.shedEnds dropped).length ≤ 2 := by
  have h₁ : g.inSlot.toList.length ≤ 1 := by cases g.inSlot <;> simp
  have h₂ : g.pending.toList.length ≤ 1 := by cases g.pending <;> simp
  unfold Stager.shedEnds
  simp only [List.length_append, length_endAll]
  omega

/-! ## Taking a shed notice (R17) -/

theorem takeNotice_none (s : State) (f : Fid) (h : s.account.notice.get f = none) : s.takeNotice f = s := by
  simp [State.takeNotice, h]

theorem takeNotice_elsewhere (s : State) (f : Fid) (cause : ShedCause) (h : s.account.notice.get f = some cause)
    (state : (s.ctl.get f).state ≠ .ride) : s.takeNotice f = s.clearNotice f := by
  have same : (if ((s.clearNotice f).ctl.get f).state = .ride then
      (s.clearNotice f).enterShed f cause.reason .notRiding else s.clearNotice f) = s.clearNotice f := if_neg state
  simp only [State.takeNotice, h, State.asEventOf]
  rw [same]
  exact State.settleResults_of_stagers f rfl

theorem takeNotice_ride (s : State) (f : Fid) (cause : ShedCause) (h : s.account.notice.get f = some cause)
    (state : (s.ctl.get f).state = .ride) :
    s.takeNotice f = ((s.clearNotice f).enterShed f cause.reason .notRiding).settleResults s f := by
  have same : (if ((s.clearNotice f).ctl.get f).state = .ride then
      (s.clearNotice f).enterShed f cause.reason .notRiding else s.clearNotice f) =
        (s.clearNotice f).enterShed f cause.reason .notRiding := if_pos state
  simp only [State.takeNotice, h, State.asEventOf]
  rw [same]

theorem Logs.clearNotice {f : Fid} {s t : State} {log : List LogItem} (h : Logs f s t log) :
    Logs f s (t.clearNotice f) log := h.withNotice _

/-- The log of a notice taken in RIDE. -/
theorem takeNotice_log (s : State) (f : Fid) (cause : ShedCause) (h : s.account.notice.get f = some cause)
    (state : (s.ctl.get f).state = .ride) :
    Logs f s (s.takeNotice f)
      (endings ((s.takeNotice f).ctl.get f).source ((s.takeNotice f).stagers.get f).committed [] ++
        (.record (.feederState f .ride .shed cause.reason) ::
          endings ((s.takeNotice f).ctl.get f).source ((s.takeNotice f).stagers.get f).committed
            ((s.stagers.get f).shedEnds .notRiding)) ++ records []) := by
  refine (((Logs.refl f s).clearNotice.enterShed cause.reason .notRiding).of_eq (log' :=
    endings .none .page0 [] ++ (.record (.feederState f .ride .shed cause.reason) ::
      endings .none (s.stagers.get f).committed ((s.stagers.get f).shedEnds .notRiding)) ++ records [])
    ?_).settle_entry (takeNotice_ride s f cause h state) ?_ rfl (fun _ h => nomatch h)
  · simp [State.clearNotice, state]
  · have := length_shedEnds_le (s.stagers.get f) .notRiding
    simp only [List.length_nil]
    omega

/-- Settles O41: without a notice nothing happens, elsewhere than in RIDE the notice alone goes, and in RIDE the feeder
enters SHED from the state without the notice. -/
theorem shedNoticeTaken : Obligations.ShedNoticeTaken := by
  intro f s hs c cleared
  have moves : Moves s (s.takeNotice f) := State.takeNotice_moves s f .refl
  refine ⟨fun none => ?_, fun cause notice => ⟨fun elsewhere => ?_, fun ride => ?_⟩⟩ <;>
    refine completes_of_moves (t := s.takeNotice f) rfl hs.portSettled moves fun u e => ?_
  · rw [e.offPort, takeNotice_none s f none]
  · rw [e.offPort, takeNotice_elsewhere s f cause notice elsewhere]
    rfl
  have effect : Shed (s.clearNotice f) (s.takeNotice f) f cause.reason :=
    takeNotice_ride s f cause notice ride ▸ (enterShed_shed (s.clearNotice f) f cause.reason .notRiding).settle s
  have log := takeNotice_log s f cause notice ride
  have made := log.entered
  have bare := effect.stager
  rw [← e.stagers] at bare
  have placed := effect.placed
  unfold Placed at placed
  rw [← e.link] at placed
  have record := e.recorded made.2
  rw [← e.endResults] at record
  cases cause <;>
    refine ⟨e.ctl.trans effect.ctl, e.account.trans effect.account, (congrArg Stager.pending bare :),
      (congrArg Stager.inSlot bare :), (congrArg Stager.onLine bare :), placed, e.monitors.trans effect.monitors,
      e.trackers.trans effect.trackers, e.evals.trans effect.evals, e.malm.trans effect.malm,
      e.draws.trans effect.draws, e.surroundings moves.surroundings, e.staged (Logs.staged_first log),
      e.resultsMade made.1, ?_⟩ <;>
    simpa [Stager.shedEnds, ShedCause.reason] using record

end Sys2Proof.Machine
end

section
namespace Sys2Proof.Machine

/-! ## A record on the line ends and a cause of R19 follows (R106, R107) -/

/-- The log of the end of the record on the line and of an entry to FAULT behind it, in one event of feeder `f`. -/
theorem Logs.line_then_fault {f : Fid} {s m u : State} {code : ResultCode} {r : Reason} (h : Logs f s m [])
    (state : (m.ctl.get f).state = (s.ctl.get f).state) (sag : (m.ctl.get f).sag = (s.ctl.get f).sag)
    (episode : (m.ctl.get f).episode = (s.ctl.get f).episode) (trackers : m.trackers = s.trackers)
    (hu : u = ((m.settleLine f code none).enterFault f r).settleResults s f) :
    resultsMade s u f (endAll code (m.stagers.get f).onLine.toList ++
        endAll .notRiding ((m.stagers.get f).inSlot.toList ++ (m.stagers.get f).pending.toList)) ∧
      recorded s u (faultRecords s u f r (endAll code (m.stagers.get f).onLine.toList)
        (endAll .notRiding ((m.stagers.get f).inSlot.toList ++ (m.stagers.get f).pending.toList))) := by
  have held : ((m.settleLine f code none).stagers.get f).held =
      (m.stagers.get f).inSlot.toList ++ (m.stagers.get f).pending.toList := by simp [Stager.held]
  have few : (endAll code (m.stagers.get f).onLine.toList).length ≤ 1 := by
    cases (m.stagers.get f).onLine <;> simp
  have few' := length_held_le ((m.settleLine f code none).stagers.get f)
  have closed := length_standDownRecords_le f (m.ctl.get f) (s.trackers.get f).hc .fault .fault
  have records : standDownRecords f (m.ctl.get f) (s.trackers.get f).hc .fault .fault =
      standDownRecords f (s.ctl.get f) (s.trackers.get f).hc .fault .fault := by
    unfold standDownRecords
    rw [sag, episode]
  have log := ((h.settleLine code none).enterFault r).settle_entry hu
    (by simp only [State.settleLine_ctl, State.settleLine_trackers, trackers, length_endAll]
        change (endAll code _).length + _ + _ ≤ 16
        omega)
    rfl (standDownRecords_own _ _ _ _ _)
  rw [State.settleLine_ctl, State.settleLine_trackers, state, trackers, records, held] at log
  exact log.faulted

theorem line_then_fault_faulted (m before : State) (f : Fid) (code : ResultCode) (r : Reason) :
    Faulted m (((m.settleLine f code none).enterFault f r).settleResults before f) f r := by
  have h := (enterFault_faulted (m.settleLine f code none) f r).settle before
  constructor
  case ctl => rw [h.ctl, State.settleLine_ctl]
  case account => rw [h.account, State.settleLine_account]
  case link => rw [h.link, State.settleLine_link]
  case evals => rw [h.evals, State.settleLine_ctl, State.settleLine_evals]
  case stager => rw [h.stager, State.settleLine_bare]
  case stagers => exact fun g ne => by rw [h.stagers g ne, State.settleLine_stager_ne m f code none ne]
  case malm => rw [h.malm, State.settleLine_malm]
  case draws => rw [h.draws, State.settleLine_draws]

/-- An entry to FAULT leaves what is kept for another feeder alone. -/
theorem Faulted.sameAt {s t : State} {f g : Fid} {r : Reason} (h : Faulted s t f r) (ne : g ≠ f)
    (monitors : t.monitors = s.monitors) (trackers : t.trackers = s.trackers) : sameAt s t g := by
  refine sameAt_of_sets ?_ ?_ ?_ ?_ (h.stagers g ne) ?_ ?_ ?_
  all_goals simp [h.ctl, monitors, trackers, h.evals, h.link, h.account, Link.without, Per8.get_set_ne _ _ ne]

/-! ## An attempt that fails (R119, R120, R122, R124) -/

/-- The link in SETTLE with this exchange, or with none. -/
def Link.settled (l : Link) (e : Option Exchange) : Link := { l with line := .settle, exchange := e, wait := none }

theorem attemptFails_discarded (s : State) (x : Exchange) (k : LinkCause) (h : s.link.exchange = some x)
    (hd : x.discard = true) : s.attemptFails k = { s with link := s.link.settled none } := by
  simp [State.attemptFails, State.failAttempt, h, hd, State.lineSettle, Link.settled]

theorem attemptFails_again (s : State) (x : Exchange) (k : LinkCause) (h : s.link.exchange = some x)
    (hd : x.discard = false) (hn : x.attempt < 5) :
    s.attemptFails k = { s with link := s.link.settled (some { x with causes := x.causes ++ [k] }) } := by
  simp [State.attemptFails, State.failAttempt, h, hd, hn, State.lineSettle, Link.settled]

theorem attemptFails_last (s : State) (x : Exchange) (k : LinkCause) (h : s.link.exchange = some x)
    (hd : x.discard = false) (hn : 5 ≤ x.attempt) :
    s.attemptFails k = State.ladderFailed { s with link := s.link.settled none } x := by
  simp [State.attemptFails, State.failAttempt, h, hd, Nat.not_lt.2 hn, State.lineSettle, Link.settled]

/-- The commands whose event is the failure of an attempt (R119). -/
theorem exec_attemptFails (s : State) (x : Exchange) (c : Instr) (cause : LinkCause) (h : s.link.exchange = some x)
    (hc : s.link.line = .wait ∧ c = .responseTimeout ∧ cause = .noReply ∨
      s.link.line = .receive ∧ c = .replyBreakOff ∧ cause = .malformed ∨
      s.link.line = .receive ∧ ∃ bytes stops,
        c = .replyComplete bytes stops ∧ judgeReply x.request.kind x.unit bytes stops = .error cause) :
    exec c s = .next (s.attemptFails cause).finish := by
  rcases hc with ⟨line, rfl, rfl⟩ | ⟨line, rfl, rfl⟩ | ⟨line, bytes, stops, rfl, judged⟩
  · change State.done s.responseTimeout = _
    rw [State.responseTimeout, if_pos line]
    rfl
  · change State.done s.replyBreakOff = _
    rw [State.replyBreakOff, if_pos line]
    rfl
  · change State.done (s.replyComplete bytes stops) = _
    have : s.replyComplete bytes stops = s.attemptFails cause := by
      simp [State.replyComplete, line, h, judged]
    rw [this]
    rfl

/-- The last failure of a ladder, in OFF and in FAULT: the record on the line ends, and no more (R106, R122). -/
theorem ladderFailed_idle (s : State) (x : Exchange)
    (h : (s.ctl.get x.feeder).state = .off ∨ (s.ctl.get x.feeder).state = .fault) :
    s.ladderFailed x = (s.settleLine x.feeder .linkFailed none).settleResults s x.feeder := by
  unfold State.ladderFailed State.asEventOf
  dsimp only
  rw [State.fault_idle _ _ _ (by rwa [State.settleLine_ctl])]

/-- The last failure of a ladder elsewhere: the record on the line ends, and the feeder enters FAULT (R106, R122). -/
theorem ladderFailed_fault (s : State) (x : Exchange) (h : (s.ctl.get x.feeder).state ≠ .off)
    (k : (s.ctl.get x.feeder).state ≠ .fault) :
    s.ladderFailed x =
      ((s.settleLine x.feeder .linkFailed none).enterFault x.feeder .link).settleResults s x.feeder := by
  unfold State.ladderFailed State.asEventOf
  dsimp only
  rw [State.fault_enters _ _ _ (by rwa [State.settleLine_ctl]) (by rwa [State.settleLine_ctl])]

/-- The end of the record on the line as an event of its own: its results and records, and what stays. -/
theorem settleLine_event (s : State) (f : Fid) (code : ResultCode) (applied : Option Nat) :
    let t := (s.settleLine f code applied).settleResults s f
    let xs := (s.stagers.get f).onLine.toList.map fun r => ⟨code, r, applied⟩
    resultsMade s t f xs ∧ recorded s t (refRecords f (endResults s t f xs)) ∧
      (t.stagers.get f).bare = { (s.stagers.get f).bare with onLine := none } ∧
      ∀ g, g ≠ f → t.stagers.get g = s.stagers.get g := by
  intro t xs
  have few : xs.length ≤ 1 := by
    change ((s.stagers.get f).onLine.toList.map _).length ≤ 1
    cases (s.stagers.get f).onLine <;> simp
  have made := (((Logs.refl f s).settleLine code applied).settle_made (l := []) (u := t) rfl
    (Nat.le_trans few (by omega : 1 ≤ 16)) (fun _ h => nomatch h)).made
  refine ⟨made.1, made.2, ?_, fun g ne => ?_⟩
  · rw [State.settleResults_bare, State.settleLine_bare]
  · rw [State.settleResults_stager_ne _ _ ne, State.settleLine_stager_ne _ _ _ _ ne]

/-- Settles O44: the attempts that leave the ladder standing change the link alone; behind the fifth failure the record on
the line ends, and the cause of R19 does nothing in OFF and in FAULT and is an entry to FAULT elsewhere. -/
theorem attemptFails : Obligations.AttemptFails := by
  intro s x c cause hs exchange hc settled f g line rest
  have exec := exec_attemptFails s x c cause exchange hc
  have moves : Moves s (s.attemptFails cause) := State.attemptFails_moves s cause .refl
  refine ⟨fun discard => ?_, fun live again => ?_, fun live last => ?_⟩ <;>
    refine completes_of_moves exec hs.portSettled moves fun u e => ?_
  · rw [e.offPort, attemptFails_discarded s x cause exchange discard]
    rfl
  · rw [e.offPort, attemptFails_again s x cause exchange live again]
    rfl
  have ends := attemptFails_last s x cause exchange live last
  have surroundings := e.surroundings moves.surroundings
  by_cases idle : (s.ctl.get f).state = .off ∨ (s.ctl.get f).state = .fault
  · rw [ladderFailed_idle { s with link := s.link.settled none } x idle] at ends
    obtain ⟨results, record, bare, others⟩ := settleLine_event { s with link := s.link.settled none } f .linkFailed none
    rw [← ends] at results record bare others
    have ctl : u.ctl = s.ctl := by rw [e.ctl, ends]; simp
    have monitors : u.monitors = s.monitors := by rw [e.monitors, ends]; simp
    have trackers : u.trackers = s.trackers := by rw [e.trackers, ends]; simp
    have evals : u.evals = s.evals := by rw [e.evals, ends]; simp
    have account : u.account = s.account := by rw [e.account, ends]; simp
    have link : u.link = s.link.settled none := by rw [e.link, ends]; simp
    rw [← e.stagers] at bare others
    refine ⟨by rw [link]; rfl, by rw [link]; rfl, by rw [link]; rfl, (congrArg Stager.onLine bare :), fun g ne => ?_,
      surroundings, monitors, trackers, fun _ => ⟨ctl, e.resultsMade results, ?_⟩,
      fun off fault => absurd idle (not_or.2 ⟨off, fault⟩)⟩
    · exact sameAt_of_sets (by rw [ctl]) (by rw [monitors]) (by rw [trackers]) (by rw [evals]) (others g ne)
        (by rw [link]; rfl) (by rw [account]) (by rw [account])
    · rw [e.endResults]
      exact e.recorded record
  · have off : (s.ctl.get f).state ≠ .off := fun h => idle (.inl h)
    have fault : (s.ctl.get f).state ≠ .fault := fun h => idle (.inr h)
    rw [ladderFailed_fault { s with link := s.link.settled none } x off fault] at ends
    have effect := ends ▸ line_then_fault_faulted { s with link := s.link.settled none } _ f .linkFailed .link
    obtain ⟨results, record⟩ := (Logs.refl f { s with link := s.link.settled none }).line_then_fault rfl rfl rfl rfl ends
    have bare := effect.stager
    rw [← e.stagers] at bare
    have monitors : u.monitors = s.monitors := by rw [e.monitors, ends]; simp
    have trackers : u.trackers = s.trackers := by rw [e.trackers, ends]; simp
    have link := e.link.trans effect.link
    have others : ∀ g, g ≠ f → sameAt s u g := fun g ne => by
      refine sameAt_of_sets ?_ (by rw [monitors]) (by rw [trackers]) ?_ ((congrArg (Per8.get · g) e.stagers).trans
        (effect.stagers g ne)) ?_ ?_ ?_
      all_goals
        simp [e.ctl, e.evals, e.account, effect.ctl, effect.evals, effect.account, link, Link.without, Link.settled,
          Per8.get_set_ne _ _ ne]
    refine ⟨by rw [link]; rfl, by rw [link]; rfl, by rw [link]; rfl, (congrArg Stager.onLine bare :), others,
      surroundings, monitors, trackers, fun h => absurd h idle, fun _ _ => ⟨?_, ?_, (congrArg Stager.pending bare :),
        (congrArg Stager.inSlot bare :), ?_, e.resultsMade results, (e.faultRecords ..).symm ▸ e.recorded record⟩⟩
    · rw [e.ctl, effect.ctl, Per8.get_set_same]
      rfl
    · rw [e.account, effect.account, Per8.get_set_same]
    · rw [link]
      exact Per8.get_set_same _ _ _

end Sys2Proof.Machine
end

section
namespace Sys2Proof.Machine

/-! ## A DONE in RIDE (R13, R64, R85, R105, R131) -/

/-- The stager after a DONE has committed the record on its line: the pages flip if the record owns the page, and the result
is made (R105, R109). -/
def Stager.committedBy (g : Stager) (r : Accepted) (applied top : Nat) (hc : BitVec 8) (source : Source) : Stager :=
  let page := if g.owner = some r then g.committed.other else g.committed
  { g with
    onLine := none, committed := page, owner := if g.owner = some r then none else g.owner
    number := g.number + 1#8
    latest := some
      { number := g.number + 1#8, code := .committed, clamped := r.clamped, limited := decide (applied < top)
        unflipped := decide (¬ g.owner = some r), ident := some ⟨r.seq, r.target⟩, judgedAt := hc
        applied := some applied, source := source, page := page } }

namespace State

theorem commitLine_none (s : State) (f : Fid) (applied top : Nat) (h : (s.stagers.get f).onLine = none) :
    s.commitLine f applied top = s := by
  simp [commitLine, h]

/-- A committed record makes no REF_REJECTED record: its result is made and its slot marked, and no more (R105, R110). -/
theorem commitLine_some (s : State) (f : Fid) (applied top : Nat) {r : Accepted} (h : (s.stagers.get f).onLine = some r) :
    s.commitLine f applied top = (s.putStager f
      ((s.stagers.get f).committedBy r applied top (s.trackers.get f).hc (s.ctl.get f).source)).touchResult f := by
  by_cases owns : (s.stagers.get f).owner = some r <;>
    simp [commitLine, h, makeResult, resultOf, Finding.ofRecord, Stager.committedBy, ResultCode.rejected, putStager, owns]

/-- Settling a result made with the source and page that its event ends with changes nothing, where no record is made. -/
theorem settleResults_committed_done (s t : State) (f : Fid) (staging : t.writer.staging = s.writer.staging)
    (latest : (t.stagers.get f).latest.map (fun r => (r.source, r.page)) =
      some ((t.ctl.get f).source, (t.stagers.get f).committed)) : t.settleResults s f = t := by
  obtain ⟨r, hr, pair⟩ := Option.map_eq_some_iff.1 latest
  obtain ⟨source, page⟩ := Prod.mk.inj pair
  have same : ({ t.stagers.get f with latest := (t.stagers.get f).latest.map fun r =>
      { r with source := (t.ctl.get f).source, page := (t.stagers.get f).committed } } : Stager) = t.stagers.get f := by
    rw [hr, Option.map_some, ← source, ← page, ← hr]
  unfold settleResults
  dsimp only
  split
  · rfl
  · rw [same]
    simp only [putStager, Per8.set_get_self, ← staging, List.take_length, List.drop_length, List.map_nil,
      List.append_nil]

end State

/-- What a DONE in RIDE does to its feeder's controller (R13, R131). -/
def FeederCtl.doneInRide (c : FeederCtl) (ref : Reference) (source : Source) (applied : Nat) : FeederCtl :=
  { c with
    rode := min 255 (c.rode + 1), lastRef := ref, source := source, notReadyRun := 0
    sag := c.sag.map fun r => { r with
      ridden := min 255 (r.ridden + 1)
      autoHold := if source = .autofill ∨ source = .hold then min 255 (r.autoHold + 1) else r.autoHold
      limited := r.limited || decide (applied < amax ref) } }

/-- A DONE in RIDE but for the record on the line: the charge, the counts and the evaluator's notice. -/
def State.charged (s : State) (f : Fid) (ref : Reference) (hc : BitVec 8) (source : Source) (applied : Nat) : State :=
  ((s.consume f (s.cost f ref)).putCtl f ((s.ctl.get f).doneInRide ref source applied)).putEval f
    ((s.evals.get f).applyNotice hc (s.trackers.get f).hc)

theorem State.engageDone_eq (s : State) (f : Fid) (ref : Reference) (hc : BitVec 8) (source : Source) (applied : Nat) :
    s.engageDone f ref hc source applied =
      (s.charged f ref hc source applied).commitLine f applied (amax ref) := by
  simp [State.engageDone, State.charged, State.consume, FeederCtl.doneInRide]

namespace State

theorem charged_ctl (s : State) (f : Fid) (ref : Reference) (hc : BitVec 8) (source : Source) (applied : Nat) :
    (s.charged f ref hc source applied).ctl = s.ctl.set f ((s.ctl.get f).doneInRide ref source applied) := by
  simp [charged, consume]

theorem charged_account (s : State) (f : Fid) (ref : Reference) (hc : BitVec 8) (source : Source) (applied : Nat) :
    (s.charged f ref hc source applied).account =
      { s.account with reserved := s.account.reserved.set f (s.account.reserved.get f - s.cost f ref) } := by
  simp [charged, consume]

theorem charged_evals (s : State) (f : Fid) (ref : Reference) (hc : BitVec 8) (source : Source) (applied : Nat) :
    (s.charged f ref hc source applied).evals =
      s.evals.set f ((s.evals.get f).applyNotice hc (s.trackers.get f).hc) := by
  simp [charged, consume]

theorem charged_blocks (s : State) (f : Fid) (ref : Reference) (hc : BitVec 8) (source : Source) (applied : Nat) :
    (s.charged f ref hc source applied).blocks = State.blocks { s with
      ctl := (s.charged f ref hc source applied).ctl, account := (s.charged f ref hc source applied).account
      evals := (s.charged f ref hc source applied).evals } := by
  simp [State.blocks, charged, consume]

@[simp] theorem charged_link (s : State) (f : Fid) (ref : Reference) (hc : BitVec 8) (source : Source) (applied : Nat) :
    (s.charged f ref hc source applied).link = s.link :=
  (congrArg (fun u : State => u.link) (charged_blocks s f ref hc source applied) :)

@[simp] theorem charged_monitors (s : State) (f : Fid) (ref : Reference) (hc : BitVec 8) (source : Source) (applied : Nat) :
    (s.charged f ref hc source applied).monitors = s.monitors :=
  (congrArg (fun u : State => u.monitors) (charged_blocks s f ref hc source applied) :)

@[simp] theorem charged_trackers (s : State) (f : Fid) (ref : Reference) (hc : BitVec 8) (source : Source) (applied : Nat) :
    (s.charged f ref hc source applied).trackers = s.trackers :=
  (congrArg (fun u : State => u.trackers) (charged_blocks s f ref hc source applied) :)

@[simp] theorem charged_malm (s : State) (f : Fid) (ref : Reference) (hc : BitVec 8) (source : Source) (applied : Nat) :
    (s.charged f ref hc source applied).malm = s.malm :=
  (congrArg (fun u : State => u.malm) (charged_blocks s f ref hc source applied) :)

@[simp] theorem charged_stagers (s : State) (f : Fid) (ref : Reference) (hc : BitVec 8) (source : Source) (applied : Nat) :
    (s.charged f ref hc source applied).stagers = s.stagers :=
  (congrArg (fun u : State => u.stagers) (charged_blocks s f ref hc source applied) :)

@[simp] theorem charged_staging (s : State) (f : Fid) (ref : Reference) (hc : BitVec 8) (source : Source) (applied : Nat) :
    (s.charged f ref hc source applied).writer.staging = s.writer.staging := by
  simp [charged, consume]

/-- A whole good reply of a live exchange is handed to its feeder (R123). -/
theorem replyComplete_handed (s : State) (x : Exchange) (bytes : List Byte) (stops : Bool) (reply : Reply)
    (line : s.link.line = .receive) (exchange : s.link.exchange = some x) (live : x.discard = false)
    (judged : judgeReply x.request.kind x.unit bytes stops = .ok reply) :
    s.replyComplete bytes stops = State.handReply { s with link := s.link.settled none } x reply := by
  simp [replyComplete, line, exchange, judged, live, lineSettle, Link.settled]

end State

/-- The effect of a DONE in RIDE, handed over by an exchange that has ended: the record on the line, if there is one, is
committed, and its result already has the source and page that the event ends with. -/
theorem handReply_done (s : State) (x : Exchange) (ref : Reference) (hc : BitVec 8) (source : Source) (rehearse : Bool)
    (record : Option Accepted) (applied : Nat) (request : x.request = .engage ref hc source rehearse record)
    (ride : (s.ctl.get x.feeder).state = .ride) :
    s.handReply x (.done applied) =
      match (s.stagers.get x.feeder).onLine with
      | none => s.charged x.feeder ref hc source applied
      | some r => ((s.charged x.feeder ref hc source applied).putStager x.feeder
          ((s.stagers.get x.feeder).committedBy r applied (amax ref) (s.trackers.get x.feeder).hc source)).touchResult
            x.feeder := by
  generalize hm : s.charged x.feeder ref hc source applied = m
  have ctl : (m.ctl.get x.feeder).source = source := by
    rw [← hm, State.charged_ctl, Per8.get_set_same]
    rfl
  have stagers : m.stagers = s.stagers := by rw [← hm, State.charged_stagers]
  have trackers : m.trackers = s.trackers := by rw [← hm, State.charged_trackers]
  have staging : m.writer.staging = s.writer.staging := by rw [← hm, State.charged_staging]
  have ends : s.handReply x (.done applied) = (m.commitLine x.feeder applied (amax ref)).settleResults s x.feeder := by
    simp only [State.handReply, State.asEventOf, request, State.engageReply]
    rw [if_pos ride, State.engageDone_eq, hm]
  rw [ends]
  cases onLine : (s.stagers.get x.feeder).onLine with
  | none =>
    rw [State.commitLine_none _ _ _ _ (by rw [stagers, onLine])]
    exact State.settleResults_of_stagers _ stagers
  | some r =>
    rw [State.commitLine_some _ _ _ _ (by rw [stagers]; exact onLine), stagers, trackers, ctl]
    refine State.settleResults_committed_done _ _ _ staging ?_
    simp [Stager.committedBy, State.putStager, ctl]

/-- Settles O45: the charge and the counts, and behind them the record on the line committed. -/
theorem doneInRide : Obligations.DoneInRide := by
  intro s x ref hc source rehearse record bytes stops applied hs line exchange live request judged ride f c g top
  have moves : Moves s (s.replyComplete bytes stops) := State.replyComplete_moves s bytes stops .refl
  refine completes_of_moves (t := s.replyComplete bytes stops) rfl hs.portSettled moves fun u e => ?_
  have surroundings := e.surroundings moves.surroundings
  have ends := (State.replyComplete_handed s x bytes stops (.done applied) line exchange live
    (by rw [request]; exact judged)).trans
      (handReply_done { s with link := s.link.settled none } x ref hc source rehearse record applied request ride)
  generalize hm : State.charged { s with link := s.link.settled none } x.feeder ref hc source applied = m at ends
  have ctl : m.ctl = s.ctl.set f (c.doneInRide ref source applied) := by rw [← hm, State.charged_ctl]
  have account : m.account = { s.account with
      reserved := s.account.reserved.set f (s.account.reserved.get f - s.cost f ref) } := by
    rw [← hm, State.charged_account]
    rfl
  have evals : m.evals = s.evals.set f ((s.evals.get f).applyNotice hc (s.trackers.get f).hc) := by
    rw [← hm, State.charged_evals]
  have link : m.link = s.link.settled none := by rw [← hm, State.charged_link]
  have monitors : m.monitors = s.monitors := by rw [← hm, State.charged_monitors]
  have trackers : m.trackers = s.trackers := by rw [← hm, State.charged_trackers]
  have malm : m.malm = s.malm := by rw [← hm, State.charged_malm]
  have stagers : m.stagers = s.stagers := by rw [← hm, State.charged_stagers]
  have staging : m.writer.staging = s.writer.staging := by rw [← hm, State.charged_staging]
  cases onLine : g.onLine with
  | none =>
    have same : s.replyComplete bytes stops = m := by
      rw [ends]
      change (match g.onLine with | none => _ | some _ => _) = _
      rw [onLine]
    rw [same] at e
    exact ⟨e.link.trans link, e.account.trans account, e.ctl.trans ctl, e.evals.trans evals, e.monitors.trans monitors,
      e.trackers.trans trackers, e.malm.trans malm, surroundings, e.staging.trans staging,
      fun _ => e.stagers.trans stagers, fun _ h => nomatch h⟩
  | some r =>
    have same : s.replyComplete bytes stops =
        (m.putStager f (g.committedBy r applied top (s.trackers.get f).hc source)).touchResult f := by
      rw [ends]
      change (match g.onLine with | none => _ | some _ => _) = _
      rw [onLine]
      rfl
    have dirty : SlotDirty f (s.replyComplete bytes stops) := by
      rw [same]
      exact State.touchResult_slotDirty _ f
    have marked := e.slotMarked (slotMarked_of_slotDirty dirty moves.portKept)
    rw [same] at e
    refine ⟨e.link.trans link, e.account.trans account, e.ctl.trans ctl, e.evals.trans evals, e.monitors.trans monitors,
      e.trackers.trans trackers, e.malm.trans malm, surroundings, e.staging.trans staging,
      (fun h => nomatch h), fun r' h => ?_⟩
    cases h
    refine ⟨marked, e.stagers.trans ?_⟩
    change m.stagers.set f _ = _
    rw [stagers]
    rfl

end Sys2Proof.Machine
end

section
namespace Sys2Proof.Machine

/-! ## The other replies (R6, R13, R14, R15, R106, R123) -/

/-- The reply kinds that a frame accepts (R114): a STATUS answers a STATUSQ alone, and no STATUSQ has a DONE. -/
theorem judgeReply_kind {frame : FrameKind} {unit : BitVec 4} {bytes : List Byte} {stops : Bool} {r : Reply}
    (h : judgeReply frame unit bytes stops = .ok r) :
    (frame ≠ .statusq → ∀ st, r ≠ .status st) ∧ (frame = .statusq → ∀ a, r ≠ .done a) := by
  have fields : ∀ (kind : BitVec 3) (content : List Byte), replyFields kind content = some r →
      ((∃ st, r = .status st) → kind = 7#3) ∧ ((∃ a, r = .done a) → kind = 5#3) := by
    intro kind content e
    unfold replyFields at e
    split at e
    · dsimp only at e
      split at e <;> cases e
      exact ⟨fun ⟨_, h⟩ => (nomatch h), fun _ => rfl⟩
    · split at e <;> cases e <;> exact ⟨fun ⟨_, h⟩ => (nomatch h), fun ⟨_, h⟩ => (nomatch h)⟩
    · split at e <;> cases e <;> exact ⟨fun _ => rfl, fun ⟨_, h⟩ => (nomatch h)⟩
    · cases e
  unfold judgeReply at h
  split at h
  · cases h
  split at h
  · cases h
  dsimp only at h
  split at h
  · cases h
  split at h
  · cases h
  split at h
  · cases h
  split at h
  · cases h
  next accepted =>
  split at h
  · next r' e =>
    cases h
    obtain ⟨status, done⟩ := fields _ _ e
    refine ⟨fun other st hs => accepted ?_, fun statusq a ha => accepted ?_⟩
    · rw [status ⟨st, hs⟩]
      cases frame with
      | engage => rfl
      | release => rfl
      | resync => rfl
      | statusq => exact absurd rfl other
    · rw [done ⟨a, ha⟩, statusq]
      rfl
  · cases h

theorem EndsAs.sameAt {s t u : State} {g : Fid} (e : EndsAs t u) (h : Machine.sameAt s t g) : Machine.sameAt s u g := by
  unfold Machine.sameAt sameFeeder at h ⊢
  rwa [e.ctl, e.monitors, e.trackers, e.evals, e.stagers, e.link, e.account]

/-- A change of one feeder's controller alone leaves the others alone. -/
theorem sameAt_of_ctl {s t : State} {f g : Fid} (ne : g ≠ f) (c : FeederCtl) (ctl : t.ctl = s.ctl.set f c)
    (monitors : t.monitors = s.monitors) (trackers : t.trackers = s.trackers) (evals : t.evals = s.evals)
    (stagers : t.stagers.get g = s.stagers.get g) (link : t.link = s.link) (account : t.account = s.account) :
    sameAt s t g :=
  sameAt_of_sets (by rw [ctl, Per8.get_set_ne _ _ ne]) (by rw [monitors]) (by rw [trackers]) (by rw [evals]) stagers
    (by rw [link]) (by rw [account]) (by rw [account])

/-- What a reply leaves that ends the record on the line and changes no more than its feeder's controller. -/
structure LineEnded (s t : State) (f : Fid) (c : FeederCtl) (xs : List Ending) : Prop where
  ctl : t.ctl = s.ctl.set f c
  account : t.account = s.account
  link : t.link = s.link
  onLine : (t.stagers.get f).onLine = none
  committed : (t.stagers.get f).committed = (s.stagers.get f).committed
  others : ∀ g, g ≠ f → sameAt s t g
  results : resultsMade s t f xs
  records : recorded s t (refRecords f (endResults s t f xs))

/-- The record on the line ends in an event that has changed its feeder's controller (R106). -/
theorem lineEnded (s : State) (f : Fid) (c : FeederCtl) (code : ResultCode) (applied : Option Nat) :
    LineEnded s (((s.putCtl f c).settleLine f code applied).settleResults s f) f c
      ((s.stagers.get f).onLine.toList.map fun r => ⟨code, r, applied⟩) := by
  have bare := State.settleResults_bare ((s.putCtl f c).settleLine f code applied) s f f
  rw [State.settleLine_bare, State.putCtl_stagers] at bare
  have few : ((s.stagers.get f).onLine.toList.map fun r => (⟨code, r, applied⟩ : Ending)).length ≤ 1 := by
    cases (s.stagers.get f).onLine <;> simp
  have made := (((((Logs.refl f s).putCtl f c).settleLine code applied).of_eq (List.nil_append _)).settle_made (l := [])
    rfl (by rw [State.putCtl_stagers]; exact Nat.le_trans few (by omega : 1 ≤ 16)) (fun _ h => nomatch h)).made
  rw [State.putCtl_stagers] at made
  constructor
  case ctl => simp
  case account => simp
  case link => simp
  case onLine => exact (congrArg Stager.onLine bare :)
  case committed => exact (congrArg Stager.committed bare :)
  case results => exact made.1
  case records => exact made.2
  case others =>
    refine fun g ne => sameAt_of_ctl ne c (by simp) (by simp) (by simp) (by simp) ?_ (by simp) (by simp)
    rw [State.settleResults_stager_ne _ _ ne, State.settleLine_stager_ne _ _ _ _ ne, State.putCtl_stagers]

/-- A write of a controller with what it already holds changes nothing. -/
theorem State.putCtl_self (s : State) (f : Fid) : s.putCtl f (s.ctl.get f) = s := by
  unfold State.putCtl
  rw [Per8.set_get_self]
  simp [State.note]

/-- The record on the line ends, and nothing else (R106). -/
theorem lineEnded_alone (s : State) (f : Fid) (code : ResultCode) (applied : Option Nat) :
    LineEnded s ((s.settleLine f code applied).settleResults s f) f (s.ctl.get f)
      ((s.stagers.get f).onLine.toList.map fun r => ⟨code, r, applied⟩) := by
  have := lineEnded s f (s.ctl.get f) code applied
  rwa [State.putCtl_self] at this

/-- What a reply leaves that takes its feeder to FAULT (R19). -/
structure FaultedBy (s t : State) (f : Fid) : Prop where
  ctl : t.ctl.get f = (s.ctl.get f).faulted .modulator
  reserved : t.account.reserved.get f = 0
  slot : t.link.slots.get f = none
  line : t.link.line = s.link.line
  exchange : s.link.exchange = none → t.link.exchange = none
  onLine : (t.stagers.get f).onLine = none
  committed : (t.stagers.get f).committed = (s.stagers.get f).committed
  others : ∀ g, g ≠ f → sameAt s t g

/-- The results and records of a reply that takes its feeder to FAULT behind the ends `before` (R106, R107). -/
def FaultRecorded (s t : State) (f : Fid) (before : List Ending) : Prop :=
  resultsMade s t f
      (before ++ endAll .notRiding ((s.stagers.get f).inSlot.toList ++ (s.stagers.get f).pending.toList)) ∧
    recorded s t (faultRecords s t f .modulator before
      (endAll .notRiding ((s.stagers.get f).inSlot.toList ++ (s.stagers.get f).pending.toList)))

/-- An entry to FAULT in an event that has changed its feeder's run of NOT_READY alone (R14). -/
theorem faultedBy_of_run {s t : State} {f : Fid} {run : Nat}
    (effect : Faulted (s.putCtl f { s.ctl.get f with notReadyRun := run }) t f .modulator)
    (monitors : t.monitors = s.monitors) (trackers : t.trackers = s.trackers) : FaultedBy s t f := by
  have bare := effect.stager
  constructor
  case ctl => rw [effect.ctl, Per8.get_set_same, State.putCtl_ctl, Per8.get_set_same]; rfl
  case reserved => rw [effect.account, Per8.get_set_same]
  case slot => rw [effect.link]; exact Per8.get_set_same _ _ _
  case line => rw [effect.link, State.putCtl_link]; rfl
  case exchange => intro none; rw [effect.link, State.putCtl_link]; simp [Link.without, none]
  case onLine => exact (congrArg Stager.onLine bare :)
  case committed =>
    rw [State.putCtl_stagers] at bare
    exact (congrArg Stager.committed bare :)
  case others =>
    intro g ne
    refine sameAt_of_sets ?_ (by rw [monitors]) (by rw [trackers]) ?_ ((effect.stagers g ne).trans (by simp)) ?_ ?_ ?_
    · rw [effect.ctl, Per8.get_set_ne _ _ ne, State.putCtl_ctl, Per8.get_set_ne _ _ ne]
    · rw [effect.evals, Per8.get_set_ne _ _ ne, State.putCtl_evals]
    · rw [effect.link, State.putCtl_link]
      exact Per8.get_set_ne _ _ ne
    · rw [effect.account, State.putCtl_account]
      exact Per8.get_set_ne _ _ ne
    · rw [effect.account, State.putCtl_account]

/-- The record on the line ends and the feeder enters FAULT, in an event that has changed its controller's run of
NOT_READY alone (R14, R106). -/
theorem faultedBy_line (s : State) (f : Fid) (run : Nat) (code : ResultCode) :
    let t := (((s.putCtl f { s.ctl.get f with notReadyRun := run }).settleLine f code none).enterFault f
      .modulator).settleResults s f
    FaultedBy s t f ∧ FaultRecorded s t f (endAll code (s.stagers.get f).onLine.toList) := by
  intro t
  have effect := line_then_fault_faulted (s.putCtl f { s.ctl.get f with notReadyRun := run }) s f code .modulator
  have log := ((Logs.refl f s).putCtl f { s.ctl.get f with notReadyRun := run }).line_then_fault (code := code)
    (r := .modulator) (by simp) (by simp) (by simp) (by simp) rfl
  rw [State.putCtl_stagers] at log
  refine ⟨faultedBy_of_run effect ?_ ?_, log⟩
  · rw [State.settleResults_monitors, State.enterFault_monitors, State.settleLine_monitors, State.putCtl_monitors]
  · rw [State.settleResults_trackers, State.enterFault_trackers, State.settleLine_trackers, State.putCtl_trackers]

/-- The same with no change of the run. -/
theorem faultedBy_line_alone (s : State) (f : Fid) (code : ResultCode) :
    let t := ((s.settleLine f code none).enterFault f .modulator).settleResults s f
    FaultedBy s t f ∧ FaultRecorded s t f (endAll code (s.stagers.get f).onLine.toList) := by
  have := faultedBy_line s f (s.ctl.get f).notReadyRun code
  rwa [State.putCtl_self] at this

/-- The feeder enters FAULT, and its records are an entry's where none is on the line (R19, R107). -/
theorem faultedBy_alone (s : State) (f : Fid) :
    let t := (s.enterFault f .modulator).settleResults s f
    FaultedBy s t f ∧ ((s.stagers.get f).onLine.toList = [] → FaultRecorded s t f []) := by
  intro t
  have effect := (enterFault_faulted (s.putCtl f (s.ctl.get f)) f .modulator).settle s
  refine ⟨faultedBy_of_run (run := (s.ctl.get f).notReadyRun) ?_
    (by rw [State.settleResults_monitors, State.enterFault_monitors])
    (by rw [State.settleResults_trackers, State.enterFault_trackers]), fun none => ?_⟩
  · change Faulted (s.putCtl f (s.ctl.get f)) t f .modulator
    rw [State.putCtl_self] at effect ⊢
    exact effect
  · have log := (Logs.refl f s).enterFault_settled (source := .none) (page := .page0) (before := []) (r := .modulator)
      (Nat.zero_le _) rfl rfl rfl
    have := log.faulted
    unfold Stager.held at this
    rw [none, List.nil_append] at this
    exact this

/-- What a reply leaves that changes its feeder's controller and hands over these records, and no more. -/
structure ReplyAnswered (s t : State) (f : Fid) (c : FeederCtl) (bs : List Body) : Prop where
  ctl : t.ctl = s.ctl.set f c
  account : t.account = s.account
  link : t.link = s.link
  stagers : t.stagers = s.stagers
  evals : t.evals = s.evals
  others : ∀ g, g ≠ f → sameAt s t g
  hands : Hands s t bs

theorem answered_nothing (s : State) (f : Fid) : ReplyAnswered s s f (s.ctl.get f) [] where
  ctl := (Per8.set_get_self _ _).symm
  account := rfl
  link := rfl
  stagers := rfl
  evals := rfl
  others _ _ := ⟨⟨rfl, rfl, rfl, rfl⟩, rfl, rfl, rfl, rfl⟩
  hands := .refl s

theorem answered_putCtl (s : State) (f : Fid) (c : FeederCtl) : ReplyAnswered s (s.putCtl f c) f c [] where
  ctl := by simp
  account := by simp
  link := by simp
  stagers := by simp
  evals := by simp
  others g ne := sameAt_of_ctl ne c (by simp) (by simp) (by simp) (by simp) (by simp) (by simp) (by simp)
  hands := .nothing (by simp) (by simp) (by simp) (by simp) (by simp)

theorem ReplyAnswered.setState {s t : State} {f : Fid} {c : FeederCtl} {bs : List Body} (h : ReplyAnswered s t f c bs)
    (new : FeederState) (r : Reason) :
    ReplyAnswered s (t.setState f new r) f { c with state := new, reason := r }
      (bs ++ [.feederState f c.state new r]) := by
  have ctl : t.ctl.get f = c := by rw [h.ctl, Per8.get_set_same]
  refine ⟨?_, ?_, ?_, ?_, ?_, fun g ne => ?_, ?_⟩
  · simp [State.setState, h.ctl]
  · simp [State.setState, h.account]
  · simp [State.setState, h.link]
  · simp [State.setState, h.stagers]
  · simp [State.setState, h.evals]
  · have := h.others g ne
    unfold sameAt sameFeeder at this ⊢
    simpa [State.setState, Per8.get_set_ne _ _ ne] using this
  · have hands := (answered_putCtl t f { t.ctl.get f with state := new, reason := r }).hands.trans
      (.handRecord _ (.feederState f (t.ctl.get f).state new r))
    have state : (t.ctl.get f).state = c.state := by rw [ctl]
    rw [← state]
    exact h.hands.trans hands

/-- The event that a reply is, for each of the three requests. -/
theorem handReply_engage (s : State) (x : Exchange) (reply : Reply) {ref : Reference} {hc : BitVec 8} {source : Source}
    {rehearse : Bool} {record : Option Accepted} (request : x.request = .engage ref hc source rehearse record) :
    s.handReply x reply = s.asEventOf x.feeder fun s => s.engageReply x.feeder ref hc source reply := by
  unfold State.handReply
  rw [request]

theorem handReply_release (s : State) (x : Exchange) (reply : Reply) {hc : BitVec 8} (request : x.request = .release hc) :
    s.handReply x reply = s.asEventOf x.feeder fun s => s.releaseReply x.feeder reply := by
  unfold State.handReply
  rw [request]

theorem handReply_statusq (s : State) (x : Exchange) (reply : Reply) {hc : BitVec 8} (request : x.request = .statusq hc) :
    s.handReply x reply = s.asEventOf x.feeder fun s => s.statusReply x.feeder reply := by
  unfold State.handReply
  rw [request]

/-! ### What a reply leaves is left when the event has ended -/

theorem EndsAs.lineEnded {s t u : State} {f : Fid} {c : FeederCtl} {xs : List Ending} (e : EndsAs t u)
    (h : LineEnded s t f c xs) : LineEnded s u f c xs where
  ctl := e.ctl.trans h.ctl
  account := e.account.trans h.account
  link := e.link.trans h.link
  onLine := by rw [e.stagers]; exact h.onLine
  committed := by rw [e.stagers]; exact h.committed
  others g ne := e.sameAt (h.others g ne)
  results := e.resultsMade h.results
  records := by
    rw [e.endResults]
    exact e.recorded h.records

theorem EndsAs.faultedBy {s t u : State} {f : Fid} (e : EndsAs t u) (h : FaultedBy s t f) : FaultedBy s u f where
  ctl := by rw [e.ctl]; exact h.ctl
  reserved := by rw [e.account]; exact h.reserved
  slot := by rw [e.link]; exact h.slot
  line := by rw [e.link]; exact h.line
  exchange none := by rw [e.link]; exact h.exchange none
  onLine := by rw [e.stagers]; exact h.onLine
  committed := by rw [e.stagers]; exact h.committed
  others g ne := e.sameAt (h.others g ne)

theorem EndsAs.faultRecorded {s t u : State} {f : Fid} {before : List Ending} (e : EndsAs t u)
    (h : FaultRecorded s t f before) : FaultRecorded s u f before := by
  obtain ⟨results, records⟩ := h
  unfold FaultRecorded
  rw [e.faultRecords]
  exact ⟨e.resultsMade results, e.recorded records⟩

/-! ### The effect of a reply, by its request -/

/-- The effect on its own feeder of a good reply that is handed to it (R6, R13, R14, R15, R106). -/
def ReplyEffect (s : State) (x : Exchange) (reply : Reply) (t : State) : Prop :=
  let f := x.feeder
  let c := s.ctl.get f
  let link : Link := { s.link with line := .settle, exchange := none, wait := none }
  let g := s.stagers.get f
  let line := g.onLine.toList
  let ends := fun xs : List Ending => resultsMade s t f xs ∧ recorded s t (refRecords f (endResults s t f xs))
  (reply = .hot → c.state = .off ∨ c.state = .fault → x.request.kind = .engage → ends (endAll .notRiding line)) ∧
    (reply = .hot ∨ reply = .status .hot → c.state ≠ .off → c.state ≠ .fault →
      t.ctl.get f = c.faulted .modulator ∧ t.account.reserved.get f = 0 ∧ t.link.slots.get f = none ∧
        (x.request.kind = .engage →
          FaultRecorded s t f (endAll (if c.state = .ride then .refusedByModulator else .notRiding) line)) ∧
        (x.request.kind ≠ .engage → line = [] → FaultRecorded s t f [])) ∧
    (∀ hc, x.request = .release hc → reply ≠ .hot →
      t.link = link ∧ t.account = s.account ∧ t.stagers = s.stagers ∧ t.evals = s.evals ∧
        t.ctl.get f = (if c.state = .recover then { c with state := .standby, reason := .released } else c) ∧
        (c.state = .recover → staged s t (.feederState f .recover .standby .released))) ∧
    (∀ hc, x.request = .statusq hc → reply ≠ .hot → reply ≠ .status .hot →
      t.link = link ∧ t.account = s.account ∧ t.stagers = s.stagers ∧ t.evals = s.evals ∧
        t.ctl.get f =
          (if c.state = .arming then
            (if reply = .status .ready then
              (if (s.trackers.get f).sync = .locked then { c with ready := true, state := .standby, reason := .ready }
               else { c with ready := true })
             else { c with ready := false })
           else c) ∧
        recorded s t (if c.state = .arming ∧ reply = .status .ready ∧ (s.trackers.get f).sync = .locked then
          [.feederState f .arming .standby .ready] else [])) ∧
    (∀ ref hc source rehearse record, x.request = .engage ref hc source rehearse record → reply ≠ .hot →
      (t.stagers.get f).onLine = none ∧ (t.stagers.get f).committed = (s.stagers.get f).committed ∧
        (c.state ≠ .ride → t.account = s.account ∧ t.ctl = s.ctl ∧ t.link = link ∧
          (∀ a, reply = .done a → ends (line.map fun r => ⟨.notRiding, r, some a⟩)) ∧
          (reply = .notReady → ends (endAll .notRiding line))) ∧
        (c.state = .ride → reply = .notReady → c.notReadyRun < 3 →
          t.account = s.account ∧ t.link = link ∧
            t.ctl.get f = { c with notReadyRun := c.notReadyRun + 1 } ∧ ends (endAll .refusedByModulator line)) ∧
        (c.state = .ride → reply = .notReady → 3 ≤ c.notReadyRun →
          (t.ctl.get f).state = .fault ∧ (t.ctl.get f).reason = .modulator ∧
            FaultRecorded s t f (endAll .refusedByModulator line))
      ∨ c.state = .ride ∧ ∃ a, reply = .done a)

/-- A HOT that takes its feeder to FAULT. -/
theorem replyEffect_hot {s t : State} {x : Exchange} {reply : Reply}
    (hot : reply = .hot ∨ reply = .status .hot ∧ x.request.kind = .statusq)
    (off : (s.ctl.get x.feeder).state ≠ .off) (fault : (s.ctl.get x.feeder).state ≠ .fault)
    (faulted : FaultedBy s t x.feeder)
    (engage : x.request.kind = .engage → FaultRecorded s t x.feeder
      (endAll (if (s.ctl.get x.feeder).state = .ride then .refusedByModulator else .notRiding)
        (s.stagers.get x.feeder).onLine.toList))
    (others : x.request.kind ≠ .engage → (s.stagers.get x.feeder).onLine.toList = [] → FaultRecorded s t x.feeder []) :
    ReplyEffect s x reply t := by
  refine ⟨fun _ idle => ?_, fun _ _ _ => ⟨faulted.ctl, faulted.reserved, faulted.slot, engage, others⟩,
    fun hc request other => ?_, fun hc request other other' => ?_, fun ref hc source rehearse record request other => ?_⟩
  · exact (idle.elim off fault).elim
  all_goals
    rcases hot with hot | ⟨hot, statusq⟩
    · exact absurd hot other
  · rw [request] at statusq
    cases statusq
  · exact absurd hot other'
  · rw [request] at statusq
    cases statusq

/-- A HOT to a feeder that it does not fault. -/
theorem replyEffect_idle {s t : State} {x : Exchange} {reply : Reply}
    (hot : reply = .hot ∨ reply = .status .hot ∧ x.request.kind = .statusq)
    (idle : (s.ctl.get x.feeder).state = .off ∨ (s.ctl.get x.feeder).state = .fault)
    (engage : x.request.kind = .engage →
      resultsMade s t x.feeder (endAll .notRiding (s.stagers.get x.feeder).onLine.toList) ∧
        recorded s t (refRecords x.feeder (endResults s t x.feeder
          (endAll .notRiding (s.stagers.get x.feeder).onLine.toList)))) :
    ReplyEffect s x reply t := by
  refine ⟨fun _ _ => engage, fun _ off fault => (idle.elim off fault).elim,
    fun hc request other => ?_, fun hc request other other' => ?_, fun ref hc source rehearse record request other => ?_⟩
  all_goals
    rcases hot with hot | ⟨hot, statusq⟩
    · exact absurd hot other
  · rw [request] at statusq
    cases statusq
  · exact absurd hot other'
  · rw [request] at statusq
    cases statusq

/-- A release that is done, or that is not ready (R15). -/
theorem replyEffect_release {s t : State} {x : Exchange} {reply : Reply} {hc : BitVec 8} {bs : List Body}
    (settled : s.link.settled none = s.link) (request : x.request = .release hc) (cold : reply ≠ .hot)
    (query : ∀ st, reply ≠ .status st)
    (answered : ReplyAnswered s t x.feeder (if (s.ctl.get x.feeder).state = .recover then
        { s.ctl.get x.feeder with state := .standby, reason := .released } else s.ctl.get x.feeder) bs)
    (first : (s.ctl.get x.feeder).state = .recover → bs = [.feederState x.feeder .recover .standby .released]) :
    ReplyEffect s x reply t := by
  refine ⟨fun hot => absurd hot cold, fun hot => ?_,
    fun _ _ _ => ⟨answered.link.trans settled.symm, answered.account, answered.stagers, answered.evals, ?_, fun h => ?_⟩,
    fun _ other => ?_, fun _ _ _ _ _ other => ?_⟩
  · exact (hot.elim cold (query _)).elim
  · rw [answered.ctl, Per8.get_set_same]
  · exact answered.hands.first _ (by rw [first h]; rfl)
  · rw [request] at other
    cases other
  · rw [request] at other
    cases other

/-- An answer to a STATUSQ that is not hot (R6). -/
theorem replyEffect_statusq {s t : State} {x : Exchange} {reply : Reply} {hc : BitVec 8} {c : FeederCtl} {bs : List Body}
    (settled : s.link.settled none = s.link) (request : x.request = .statusq hc) (cold : reply ≠ .hot)
    (cold' : reply ≠ .status .hot) (answered : ReplyAnswered s t x.feeder c bs)
    (ctl : c = if (s.ctl.get x.feeder).state = .arming then
        (if reply = .status .ready then
          (if (s.trackers.get x.feeder).sync = .locked then
            { s.ctl.get x.feeder with ready := true, state := .standby, reason := .ready }
           else { s.ctl.get x.feeder with ready := true })
         else { s.ctl.get x.feeder with ready := false })
       else s.ctl.get x.feeder)
    (records : bs = if (s.ctl.get x.feeder).state = .arming ∧ reply = .status .ready ∧
        (s.trackers.get x.feeder).sync = .locked then [.feederState x.feeder .arming .standby .ready] else []) :
    ReplyEffect s x reply t := by
  refine ⟨fun hot => absurd hot cold, fun hot => (hot.elim cold cold').elim, fun _ other => ?_,
    fun _ _ _ _ => ⟨answered.link.trans settled.symm, answered.account, answered.stagers, answered.evals, ?_, ?_⟩,
    fun _ _ _ _ _ other => ?_⟩
  · rw [request] at other
    cases other
  · rw [answered.ctl, Per8.get_set_same, ctl]
  · have := answered.hands.all
    rwa [records] at this
  · rw [request] at other
    cases other

/-- A DONE or a NOT_READY to an ENGAGE, outside RIDE (R106). -/
theorem replyEffect_outside_ride {s t : State} {x : Exchange} {reply : Reply} {applied : Option Nat}
    (settled : s.link.settled none = s.link) (engage : x.request.kind = .engage) (cold : reply ≠ .hot)
    (query : ∀ st, reply ≠ .status st) (outside : (s.ctl.get x.feeder).state ≠ .ride)
    (ended : LineEnded s t x.feeder (s.ctl.get x.feeder)
      ((s.stagers.get x.feeder).onLine.toList.map fun r => ⟨.notRiding, r, applied⟩))
    (done : ∀ a, reply = .done a → applied = some a) (notReady : reply = .notReady → applied = none) :
    ReplyEffect s x reply t := by
  refine ⟨fun hot => absurd hot cold, fun hot => (hot.elim cold (query _)).elim, fun _ other => ?_, fun _ other => ?_,
    fun ref hc source rehearse record _ _ => .inl ⟨ended.onLine, ended.committed,
      fun _ => ⟨ended.account, ?_, ended.link.trans settled.symm, fun a h => ?_, fun h => ?_⟩,
      fun ride => absurd ride outside, fun ride => absurd ride outside⟩⟩
  · rw [other] at engage
    cases engage
  · rw [other] at engage
    cases engage
  · rw [ended.ctl, Per8.set_get_self]
  · have := And.intro ended.results ended.records
    rwa [done a h] at this
  · have := And.intro ended.results ended.records
    rwa [notReady h] at this

/-- A NOT_READY to an ENGAGE in RIDE: the run of them is counted, and the fourth in a row is a fault (R14). -/
theorem replyEffect_notReady_ride {s t : State} {x : Exchange} (settled : s.link.settled none = s.link)
    (engage : x.request.kind = .engage) (ride : (s.ctl.get x.feeder).state = .ride)
    (counted : (s.ctl.get x.feeder).notReadyRun < 3 → LineEnded s t x.feeder
      { s.ctl.get x.feeder with notReadyRun := (s.ctl.get x.feeder).notReadyRun + 1 }
      (endAll .refusedByModulator (s.stagers.get x.feeder).onLine.toList))
    (fourth : 3 ≤ (s.ctl.get x.feeder).notReadyRun → FaultedBy s t x.feeder ∧
      FaultRecorded s t x.feeder (endAll .refusedByModulator (s.stagers.get x.feeder).onLine.toList)) :
    ReplyEffect s x .notReady t := by
  refine ⟨fun hot => (nomatch hot), fun hot => absurd hot (by simp),
    fun _ other => ?_, fun _ other => ?_,
    fun ref hc source rehearse record _ _ => .inl ⟨?_, ?_, fun outside => absurd ride outside, fun _ _ few => ?_,
      fun _ _ many => ?_⟩⟩
  · rw [other] at engage
    cases engage
  · rw [other] at engage
    cases engage
  · rcases Nat.lt_or_ge (s.ctl.get x.feeder).notReadyRun 3 with few | many
    · exact (counted few).onLine
    · exact (fourth many).1.onLine
  · rcases Nat.lt_or_ge (s.ctl.get x.feeder).notReadyRun 3 with few | many
    · exact (counted few).committed
    · exact (fourth many).1.committed
  · have ended := counted few
    exact ⟨ended.account, ended.link.trans settled.symm, by rw [ended.ctl, Per8.get_set_same], ended.results,
      ended.records⟩
  · obtain ⟨faulted, records⟩ := fourth many
    exact ⟨by rw [faulted.ctl]; rfl, by rw [faulted.ctl]; rfl, records⟩

/-- What every one of these replies leaves alone: the link beside its feeder's slot, and the other feeders. -/
structure ReplyKeeps (s t : State) (f : Fid) : Prop where
  line : t.link.line = s.link.line
  exchange : s.link.exchange = none → t.link.exchange = none
  others : ∀ g, g ≠ f → sameAt s t g

theorem LineEnded.keeps {s t : State} {f : Fid} {c : FeederCtl} {xs : List Ending} (h : LineEnded s t f c xs) :
    ReplyKeeps s t f where
  line := by rw [h.link]
  exchange none := by rw [h.link, none]
  others := h.others

theorem FaultedBy.keeps {s t : State} {f : Fid} (h : FaultedBy s t f) : ReplyKeeps s t f where
  line := h.line
  exchange := h.exchange
  others := h.others

theorem ReplyAnswered.keeps {s t : State} {f : Fid} {c : FeederCtl} {bs : List Body} (h : ReplyAnswered s t f c bs) :
    ReplyKeeps s t f where
  line := by rw [h.link]
  exchange none := by rw [h.link, none]
  others := h.others

theorem EndsAs.keeps {s t u : State} {f : Fid} (e : EndsAs t u) (h : ReplyKeeps s t f) : ReplyKeeps s u f where
  line := by rw [e.link]; exact h.line
  exchange none := by rw [e.link]; exact h.exchange none
  others g ne := e.sameAt (h.others g ne)

theorem EndsAs.hands {s t u : State} {bs : List Body} (e : EndsAs t u) (h : Hands s t bs) : Hands s u bs where
  stamp := e.stamp.trans h.stamp
  grows := by rw [e.staging]; exact h.grows
  all := e.recorded h.all
  first b hb := e.staged (h.first b hb)
  none empty := by
    obtain ⟨staging, seq, overrun, dropped⟩ := h.none empty
    exact ⟨e.staging.trans staging, (congrArg (fun v : State => v.writer.nextSeq) e.offPort :).trans seq,
      (congrArg (fun v : State => v.writer.overrun) e.offPort :).trans overrun,
      (congrArg (fun v : State => v.writer.dropped) e.offPort :).trans dropped⟩

theorem EndsAs.answered {s t u : State} {f : Fid} {c : FeederCtl} {bs : List Body} (e : EndsAs t u)
    (h : ReplyAnswered s t f c bs) : ReplyAnswered s u f c bs where
  ctl := e.ctl.trans h.ctl
  account := e.account.trans h.account
  link := e.link.trans h.link
  stagers := e.stagers.trans h.stagers
  evals := e.evals.trans h.evals
  others g ne := e.sameAt (h.others g ne)
  hands := e.hands h.hands

/-! ### The events -/

/-- A reply to an ENGAGE, but for a DONE in RIDE. -/
theorem engageReply_effect {s t u : State} {x : Exchange} {reply : Reply} {ref : Reference} {hc : BitVec 8}
    {source : Source} {rehearse : Bool} {record : Option Accepted} (settled : s.link.settled none = s.link)
    (request : x.request = .engage ref hc source rehearse record) (query : ∀ st, reply ≠ .status st)
    (other : (s.ctl.get x.feeder).state = .ride → ∀ a, reply ≠ .done a)
    (event : t = s.asEventOf x.feeder fun s => s.engageReply x.feeder ref hc source reply) (e : EndsAs t u) :
    ReplyKeeps s u x.feeder ∧ ReplyEffect s x reply u := by
  have engage : x.request.kind = .engage := by rw [request]; rfl
  by_cases ride : (s.ctl.get x.feeder).state = .ride
  · cases reply with
    | done a => exact absurd rfl (other ride a)
    | status st => exact absurd rfl (query st)
    | notReady =>
      rcases Nat.lt_or_ge (s.ctl.get x.feeder).notReadyRun 3 with few | many
      · have ends : t = ((s.putCtl x.feeder { s.ctl.get x.feeder with
            notReadyRun := (s.ctl.get x.feeder).notReadyRun + 1 }).settleLine x.feeder .refusedByModulator
              none).settleResults s x.feeder := by
          rw [event]
          unfold State.asEventOf State.engageReply
          dsimp only
          rw [if_pos ride]
          unfold State.engageNotReady
          dsimp only
          rw [Nat.min_eq_right (by omega), if_neg]
          rw [State.settleLine_ctl, State.putCtl_ctl, Per8.get_set_same]
          dsimp only
          omega
        have ended := e.lineEnded (ends ▸ lineEnded s x.feeder _ .refusedByModulator none)
        exact ⟨ended.keeps, replyEffect_notReady_ride settled engage ride (fun _ => ended) (fun _ => by omega)⟩
      · have ends : t = (((s.putCtl x.feeder { s.ctl.get x.feeder with notReadyRun := 4 }).settleLine x.feeder
            .refusedByModulator none).enterFault x.feeder .modulator).settleResults s x.feeder := by
          rw [event]
          unfold State.asEventOf State.engageReply
          dsimp only
          rw [if_pos ride]
          unfold State.engageNotReady
          dsimp only
          rw [Nat.min_eq_left (by omega), if_pos, State.fault_enters]
          all_goals rw [State.settleLine_ctl, State.putCtl_ctl, Per8.get_set_same]
          all_goals simp [ride]
        obtain ⟨faulted, records⟩ := faultedBy_line s x.feeder 4 .refusedByModulator
        rw [← ends] at faulted records
        have faulted := e.faultedBy faulted
        exact ⟨faulted.keeps, replyEffect_notReady_ride settled engage ride (fun _ => by omega)
          fun _ => ⟨faulted, e.faultRecorded records⟩⟩
    | hot =>
      have ends : t = ((s.settleLine x.feeder .refusedByModulator none).enterFault x.feeder .modulator).settleResults s
          x.feeder := by
        rw [event]
        unfold State.asEventOf State.engageReply
        dsimp only
        rw [if_pos ride, State.fault_enters]
        all_goals simp [ride]
      obtain ⟨faulted, records⟩ := faultedBy_line_alone s x.feeder .refusedByModulator
      rw [← ends] at faulted records
      have faulted := e.faultedBy faulted
      refine ⟨faulted.keeps, replyEffect_hot (.inl rfl) (by simp [ride]) (by simp [ride]) faulted (fun _ => ?_)
        fun other => absurd engage other⟩
      rw [if_pos ride]
      exact e.faultRecorded records
  · cases reply with
    | status st => exact absurd rfl (query st)
    | done a =>
      have ends : t = (s.settleLine x.feeder .notRiding (some a)).settleResults s x.feeder := by
        rw [event]
        unfold State.asEventOf State.engageReply
        dsimp only
        rw [if_neg ride]
      have ended := e.lineEnded (ends ▸ lineEnded_alone s x.feeder .notRiding (some a))
      exact ⟨ended.keeps, replyEffect_outside_ride settled engage (fun h => nomatch h) query ride ended
        (fun _ h => by cases h; rfl) (fun h => nomatch h)⟩
    | notReady =>
      have ends : t = (s.settleLine x.feeder .notRiding none).settleResults s x.feeder := by
        rw [event]
        unfold State.asEventOf State.engageReply
        dsimp only
        rw [if_neg ride]
      have ended := e.lineEnded (ends ▸ lineEnded_alone s x.feeder .notRiding none)
      exact ⟨ended.keeps, replyEffect_outside_ride settled engage (fun h => nomatch h) query ride ended
        (fun _ h => nomatch h) (fun _ => rfl)⟩
    | hot =>
      by_cases idle : (s.ctl.get x.feeder).state = .off ∨ (s.ctl.get x.feeder).state = .fault
      · have ends : t = (s.settleLine x.feeder .notRiding none).settleResults s x.feeder := by
          rw [event]
          unfold State.asEventOf State.engageReply
          dsimp only
          rw [if_neg ride, State.fault_idle _ _ _ (by rwa [State.settleLine_ctl])]
        have ended := e.lineEnded (ends ▸ lineEnded_alone s x.feeder .notRiding none)
        exact ⟨ended.keeps, replyEffect_idle (.inl rfl) idle fun _ => ⟨ended.results, ended.records⟩⟩
      · have off : (s.ctl.get x.feeder).state ≠ .off := fun h => idle (.inl h)
        have fault : (s.ctl.get x.feeder).state ≠ .fault := fun h => idle (.inr h)
        have ends : t = ((s.settleLine x.feeder .notRiding none).enterFault x.feeder .modulator).settleResults s
            x.feeder := by
          rw [event]
          unfold State.asEventOf State.engageReply
          dsimp only
          rw [if_neg ride, State.fault_enters _ _ _ (by rwa [State.settleLine_ctl]) (by rwa [State.settleLine_ctl])]
        obtain ⟨faulted, records⟩ := faultedBy_line_alone s x.feeder .notRiding
        rw [← ends] at faulted records
        have faulted := e.faultedBy faulted
        refine ⟨faulted.keeps, replyEffect_hot (.inl rfl) off fault faulted (fun _ => ?_)
          fun other => absurd engage other⟩
        rw [if_neg ride]
        exact e.faultRecorded records

/-- A HOT to a RELEASE or to a STATUSQ. -/
theorem hotReply_effect {s t u : State} {x : Exchange} {reply : Reply}
    (hot : reply = .hot ∨ reply = .status .hot ∧ x.request.kind = .statusq) (other : x.request.kind ≠ .engage)
    (event : t = s.asEventOf x.feeder fun s => s.fault x.feeder .modulator) (e : EndsAs t u) :
    ReplyKeeps s u x.feeder ∧ ReplyEffect s x reply u := by
  by_cases idle : (s.ctl.get x.feeder).state = .off ∨ (s.ctl.get x.feeder).state = .fault
  · rw [State.fault_event_idle s x.feeder .modulator idle] at event
    rw [event] at e
    exact ⟨(e.answered (answered_nothing s x.feeder)).keeps, replyEffect_idle hot idle fun h => absurd h other⟩
  · have off : (s.ctl.get x.feeder).state ≠ .off := fun h => idle (.inl h)
    have fault : (s.ctl.get x.feeder).state ≠ .fault := fun h => idle (.inr h)
    rw [State.fault_event_enters s x.feeder .modulator off fault] at event
    subst event
    obtain ⟨faulted, records⟩ := faultedBy_alone s x.feeder
    have faulted := e.faultedBy faulted
    exact ⟨faulted.keeps, replyEffect_hot hot off fault faulted (fun h => absurd h other)
      fun _ none => e.faultRecorded (records none)⟩

/-- A reply to a RELEASE. -/
theorem releaseReply_effect {s t u : State} {x : Exchange} {reply : Reply} {hc : BitVec 8}
    (settled : s.link.settled none = s.link) (request : x.request = .release hc) (query : ∀ st, reply ≠ .status st)
    (event : t = s.asEventOf x.feeder fun s => s.releaseReply x.feeder reply) (e : EndsAs t u) :
    ReplyKeeps s u x.feeder ∧ ReplyEffect s x reply u := by
  by_cases hot : reply = .hot
  · subst hot
    exact hotReply_effect (.inl rfl) (by rw [request]; exact fun h => nomatch h) event e
  have released : s.releaseReply x.feeder reply = s.released x.feeder := by
    cases reply with
    | done a => rfl
    | notReady => rfl
    | hot => exact absurd rfl hot
    | status st => exact absurd rfl (query st)
  by_cases recover : (s.ctl.get x.feeder).state = .recover
  · have answered := (answered_nothing s x.feeder).setState .standby .released
    have ends : t = s.setState x.feeder .standby .released := by
      rw [event]
      unfold State.asEventOf
      dsimp only
      rw [released, State.released, if_pos recover]
      exact State.settleResults_of_stagers _ answered.stagers
    have answered := e.answered (ends ▸ answered)
    exact ⟨answered.keeps, replyEffect_release settled request hot query (by rw [if_pos recover]; exact answered)
      fun _ => by rw [recover]; rfl⟩
  · have ends : t = s := by
      rw [event]
      unfold State.asEventOf
      dsimp only
      rw [released, State.released, if_neg recover]
      exact State.settleResults_of_stagers _ rfl
    rw [ends] at e
    have answered := e.answered (answered_nothing s x.feeder)
    exact ⟨answered.keeps, replyEffect_release settled request hot query (by rw [if_neg recover]; exact answered)
      fun h => absurd h recover⟩

/-- A controller's ready flag in ARMING. -/
theorem answered_setReady (s : State) (f : Fid) (ready : Bool) :
    ReplyAnswered s (s.setReady f ready) f
      (if (s.ctl.get f).state = .arming then { s.ctl.get f with ready := ready } else s.ctl.get f) [] := by
  unfold State.setReady
  split
  · exact answered_putCtl s f _
  · exact answered_nothing s f

/-- A reply to a STATUSQ. -/
theorem statusReply_effect {s t u : State} {x : Exchange} {reply : Reply} {hc : BitVec 8}
    (settled : s.link.settled none = s.link) (request : x.request = .statusq hc) (done : ∀ a, reply ≠ .done a)
    (event : t = s.asEventOf x.feeder fun s => s.statusReply x.feeder reply) (e : EndsAs t u) :
    ReplyKeeps s u x.feeder ∧ ReplyEffect s x reply u := by
  have kind : x.request.kind = .statusq := by rw [request]; rfl
  have other : x.request.kind ≠ .engage := by rw [kind]; exact fun h => nomatch h
  have plain : ∀ {c bs}, ReplyAnswered s (s.statusReply x.feeder reply) x.feeder c bs → ReplyAnswered s u x.feeder c bs :=
    fun answered => e.answered (by
      rw [event]
      unfold State.asEventOf
      dsimp only
      rwa [State.settleResults_of_stagers _ answered.stagers])
  have unready : ∀ {reply}, reply ≠ .hot → reply ≠ .status .hot → reply ≠ .status .ready →
      ReplyAnswered s u x.feeder (if (s.ctl.get x.feeder).state = .arming then { s.ctl.get x.feeder with ready := false }
        else s.ctl.get x.feeder) [] → ReplyKeeps s u x.feeder ∧ ReplyEffect s x reply u :=
    fun cold cold' unready answered =>
      ⟨answered.keeps, replyEffect_statusq settled request cold cold' answered (by rw [if_neg unready])
        (by rw [if_neg fun h => unready h.2.1])⟩
  cases reply with
  | done a => exact absurd rfl (done a)
  | hot => exact hotReply_effect (.inl rfl) other event e
  | notReady =>
    exact unready (by simp) (by simp) (by simp) (plain (answered_setReady s x.feeder false))
  | status st =>
    cases st with
    | hot => exact hotReply_effect (.inr ⟨rfl, kind⟩) other event e
    | ramping =>
      exact unready (by simp) (by simp) (by simp) (plain (answered_setReady s x.feeder false))
    | ready =>
      have set := answered_setReady s x.feeder true
      have trackers : (s.setReady x.feeder true).trackers = s.trackers := by
        unfold State.setReady
        split
        · simp
        · rfl
      by_cases arms : (s.ctl.get x.feeder).state = .arming ∧ (s.trackers.get x.feeder).sync = .locked
      · obtain ⟨arming, locked⟩ := arms
        have answered := set.setState .standby .ready
        rw [if_pos arming] at answered
        have same : s.statusReply x.feeder (.status .ready) =
            (s.setReady x.feeder true).setState x.feeder .standby .ready := by
          unfold State.statusReply
          dsimp only
          rw [if_pos]
          rw [set.ctl, Per8.get_set_same, if_pos arming, trackers]
          exact ⟨arming, locked⟩
        have answered := plain (same ▸ answered)
        exact ⟨answered.keeps, replyEffect_statusq settled request (fun h => nomatch h) (fun h => nomatch h) answered
          (by simp [arming, locked]) (by simp [arming, locked])⟩
      · have same : s.statusReply x.feeder (.status .ready) = s.setReady x.feeder true := by
          unfold State.statusReply
          dsimp only
          rw [if_neg]
          rw [set.ctl, Per8.get_set_same, trackers]
          intro h
          split at h
          · exact arms h
          · exact arms h
        have answered := plain (same ▸ set)
        refine ⟨answered.keeps, replyEffect_statusq settled request (fun h => nomatch h) (fun h => nomatch h) answered
          ?_ ?_⟩
        · rw [if_pos rfl]
          split
          · next arming => rw [if_neg fun locked => arms ⟨arming, locked⟩]
          · rfl
        · rw [if_neg fun h => arms ⟨h.1, h.2.2⟩]

/-- A DONE in RIDE leaves the same alone as the others. -/
theorem doneReply_keeps {s t : State} {f : Fid} {ref : Reference} {hc : BitVec 8} {source : Source} {applied : Nat}
    (ends : t = match (s.stagers.get f).onLine with
      | none => s.charged f ref hc source applied
      | some r => ((s.charged f ref hc source applied).putStager f
          ((s.stagers.get f).committedBy r applied (amax ref) (s.trackers.get f).hc source)).touchResult f) :
    ReplyKeeps s t f := by
  subst ends
  have charged : ReplyKeeps s (s.charged f ref hc source applied) f := by
    refine ⟨by rw [State.charged_link], fun none => by rw [State.charged_link, none], fun g ne => ?_⟩
    refine sameAt_of_sets ?_ (by rw [State.charged_monitors]) (by rw [State.charged_trackers]) ?_
      (by rw [State.charged_stagers]) (by rw [State.charged_link]) ?_ (by rw [State.charged_account])
    · rw [State.charged_ctl, Per8.get_set_ne _ _ ne]
    · rw [State.charged_evals, Per8.get_set_ne _ _ ne]
    · rw [State.charged_account]
      exact Per8.get_set_ne _ _ ne
  cases (s.stagers.get f).onLine with
  | none => exact charged
  | some r =>
    refine ⟨by simp, fun none => by simp [none], fun g ne => ?_⟩
    have := charged.others g ne
    unfold sameAt sameFeeder at this ⊢
    simpa [Per8.get_set_ne _ _ ne] using this

/-- Settles O46: a discarded reply is dropped, and the others are taken by the request that they answer. -/
theorem otherReplies : Obligations.OtherReplies := by
  intro s x bytes stops reply hs line exchange judged f c link g own waiting
  have moves : Moves s (s.replyComplete bytes stops) := State.replyComplete_moves s bytes stops .refl
  refine ⟨fun discard => ?_, fun live => ?_⟩ <;>
    refine completes_of_moves (t := s.replyComplete bytes stops) rfl hs.portSettled moves fun u e => ?_
  · rw [e.offPort]
    simp [State.replyComplete, line, exchange, judged, discard, State.lineSettle, link]
  have ends := State.replyComplete_handed s x bytes stops reply line exchange live judged
  obtain ⟨query, done⟩ := judgeReply_kind judged
  have settled : (s.link.settled none).settled none = s.link.settled none := rfl
  by_cases engaged : (s.ctl.get f).state = .ride ∧ x.request.kind = .engage ∧ ∃ a, reply = .done a
  · obtain ⟨ride, engage, a, rfl⟩ := engaged
    cases request : x.request with
    | engage ref hc source rehearse record =>
      have ends := ends.trans (handReply_done { s with link := s.link.settled none } x ref hc source rehearse record a
        request ride)
      have keeps := e.keeps (doneReply_keeps ends)
      exact ⟨keeps.line, keeps.exchange rfl, keeps.others, e.surroundings moves.surroundings, fun hot => (nomatch hot),
        fun hot => absurd hot (by simp), fun _ other => (nomatch other), fun _ other => (nomatch other),
        fun _ _ _ _ _ _ _ => .inr ⟨ride, a, rfl⟩⟩
    | release hc =>
      rw [request] at engage
      cases engage
    | statusq hc =>
      rw [request] at engage
      cases engage
  · have effect : ReplyKeeps { s with link := s.link.settled none } u f ∧
        ReplyEffect { s with link := s.link.settled none } x reply u := by
      cases request : x.request with
      | engage ref hc source rehearse record =>
        rw [handReply_engage _ x reply request] at ends
        exact engageReply_effect settled request (query (by rw [request]; exact fun h => nomatch h))
          (fun ride a done => engaged ⟨ride, by rw [request]; rfl, a, done⟩) ends e
      | release hc =>
        rw [handReply_release _ x reply request] at ends
        exact releaseReply_effect settled request (query (by rw [request]; exact fun h => nomatch h)) ends e
      | statusq hc =>
        rw [handReply_statusq _ x reply request] at ends
        exact statusReply_effect settled request (done (by rw [request]; rfl)) ends e
    obtain ⟨keeps, effect⟩ := effect
    exact ⟨keeps.line, keeps.exchange rfl, keeps.others, e.surroundings moves.surroundings, effect⟩

end Sys2Proof.Machine
end

section
namespace Sys2Proof.Machine

/-! ## Entry to ARMING (R5, R40) -/

/-- A controller that has entered ARMING. -/
def FeederCtl.armed (c : FeederCtl) (r : Reason) : FeederCtl :=
  { c with state := .arming, reason := r, ready := false, notReadyRun := 0, rode := 0, source := .none
           lastRef := Reference.zero }

/-- The entry to ARMING itself, before MALMn is looked at. -/
def State.beginArming (s : State) (f : Fid) (r : Reason) : State :=
  ((s.setState f .arming r).putCtl f ((s.ctl.get f).armed r)).startSilence f

namespace State

@[simp] theorem setState_ctl (s : State) (f : Fid) (x : FeederState) (r : Reason) :
    (s.setState f x r).ctl = s.ctl.set f { s.ctl.get f with state := x, reason := r } := by
  simp [setState]

@[simp] theorem setState_monitors (s : State) (f : Fid) (x : FeederState) (r : Reason) :
    (s.setState f x r).monitors = s.monitors := by
  simp [setState]

@[simp] theorem setState_trackers (s : State) (f : Fid) (x : FeederState) (r : Reason) :
    (s.setState f x r).trackers = s.trackers := by
  simp [setState]

@[simp] theorem setState_evals (s : State) (f : Fid) (x : FeederState) (r : Reason) :
    (s.setState f x r).evals = s.evals := by
  simp [setState]

@[simp] theorem setState_account (s : State) (f : Fid) (x : FeederState) (r : Reason) :
    (s.setState f x r).account = s.account := by
  simp [setState]

@[simp] theorem setState_stagers (s : State) (f : Fid) (x : FeederState) (r : Reason) :
    (s.setState f x r).stagers = s.stagers := by
  simp [setState]

@[simp] theorem setState_link (s : State) (f : Fid) (x : FeederState) (r : Reason) :
    (s.setState f x r).link = s.link := by
  simp [setState]

@[simp] theorem setState_malm (s : State) (f : Fid) (x : FeederState) (r : Reason) :
    (s.setState f x r).malm = s.malm := by
  simp [setState]

@[simp] theorem setState_draws (s : State) (f : Fid) (x : FeederState) (r : Reason) :
    (s.setState f x r).draws = s.draws := by
  simp [setState]

@[simp] theorem setState_table (s : State) (f : Fid) (x : FeederState) (r : Reason) :
    (s.setState f x r).table = s.table := by
  simp [setState]

theorem enterArming_eq (s : State) (f : Fid) (r : Reason) :
    s.enterArming f r =
      if s.malm.get f then (s.beginArming f r).enterFault f .alarm else s.beginArming f r := by
  have malm : (s.beginArming f r).malm = s.malm := by simp [beginArming, startSilence]
  have begun : ((s.setState f .arming r).putCtl f { (s.setState f .arming r).ctl.get f with
      ready := false, notReadyRun := 0, rode := 0, source := .none, lastRef := Reference.zero }).startSilence f =
        s.beginArming f r := by
    unfold beginArming FeederCtl.armed
    rw [setState_ctl, Per8.get_set_same]
  unfold enterArming
  dsimp only
  rw [begun, malm]

@[simp] theorem beginArming_ctl (s : State) (f : Fid) (r : Reason) :
    (s.beginArming f r).ctl = s.ctl.set f ((s.ctl.get f).armed r) := by
  simp [beginArming, startSilence]

@[simp] theorem beginArming_monitors (s : State) (f : Fid) (r : Reason) :
    (s.beginArming f r).monitors =
      s.monitors.set f { s.monitors.get f with silence := some s.settings.silenceLimit } := by
  simp [beginArming, startSilence, settings]

@[simp] theorem beginArming_trackers (s : State) (f : Fid) (r : Reason) : (s.beginArming f r).trackers = s.trackers := by
  simp [beginArming, startSilence]

@[simp] theorem beginArming_evals (s : State) (f : Fid) (r : Reason) : (s.beginArming f r).evals = s.evals := by
  simp [beginArming, startSilence]

@[simp] theorem beginArming_account (s : State) (f : Fid) (r : Reason) : (s.beginArming f r).account = s.account := by
  simp [beginArming, startSilence]

@[simp] theorem beginArming_stagers (s : State) (f : Fid) (r : Reason) : (s.beginArming f r).stagers = s.stagers := by
  simp [beginArming, startSilence]

@[simp] theorem beginArming_link (s : State) (f : Fid) (r : Reason) : (s.beginArming f r).link = s.link := by
  simp [beginArming, startSilence]

@[simp] theorem beginArming_malm (s : State) (f : Fid) (r : Reason) : (s.beginArming f r).malm = s.malm := by
  simp [beginArming, startSilence]

@[simp] theorem beginArming_draws (s : State) (f : Fid) (r : Reason) : (s.beginArming f r).draws = s.draws := by
  simp [beginArming, startSilence]

@[simp] theorem beginArming_table (s : State) (f : Fid) (r : Reason) : (s.beginArming f r).table = s.table := by
  simp [beginArming, startSilence]

end State

theorem hands_beginArming (s : State) (f : Fid) (r : Reason) :
    Hands s (s.beginArming f r) [.feederState f (s.ctl.get f).state .arming r] := by
  have entered := ((answered_nothing s f).setState .arming r).hands.trans
    (answered_putCtl _ f ((s.ctl.get f).armed r)).hands
  refine entered.trans (u := s.beginArming f r) (.nothing ?_ ?_ ?_ ?_ ?_)
  all_goals simp [State.beginArming, State.startSilence]

/-! ## The CLEAR word (R5, R21) -/

/-- From `s` to `t` a clear request was taken by the feeders of `fs` whose bit is set, and nothing else was done. -/
structure ClearedOver (v : Word) (s t : State) (fs : List Fid) : Prop where
  table : t.table = s.table
  malm : t.malm = s.malm
  draws : t.draws = s.draws
  trackers : t.trackers = s.trackers
  evals : t.evals = s.evals
  account : t.account = s.account
  stagers : t.stagers = s.stagers
  link : t.link = s.link
  ctl : ∀ f, t.ctl.get f =
    if f ∈ fs ∧ v.getLsbD f.val = true ∧ (s.ctl.get f).state = .fault ∧ s.malm.get f = false then
      (s.ctl.get f).armed .cleared
    else s.ctl.get f
  monitors : ∀ f, t.monitors.get f =
    if f ∈ fs ∧ v.getLsbD f.val = true ∧ (s.ctl.get f).state = .fault ∧ s.malm.get f = false then
      { s.monitors.get f with silence := some s.settings.silenceLimit }
    else s.monitors.get f
  hands : Hands s t ((fs.filter fun f => v.getLsbD f.val && (s.ctl.get f).state == .fault).map fun f =>
    if s.malm.get f then .feederState f .fault .fault .clearRefused else .feederState f .fault .arming .cleared)

theorem ClearedOver.refl (v : Word) (s : State) : ClearedOver v s s [] := by
  constructor
  case hands => exact .refl s
  case ctl => simp
  case monitors => simp
  all_goals rfl

/-- A feeder that takes no request, or refuses it, joins those that have been asked. -/
theorem ClearedOver.pass {v : Word} {s t : State} {fs : List Fid} {f : Fid} (h : ClearedOver v s t fs)
    (stays : ¬ (v.getLsbD f.val = true ∧ (s.ctl.get f).state = .fault)) : ClearedOver v s t (fs ++ [f]) := by
  have same : ∀ (g : Fid) (p : Prop), (g ∈ fs ++ [f] ∧ v.getLsbD g.val = true ∧ (s.ctl.get g).state = .fault ∧ p) ↔
      (g ∈ fs ∧ v.getLsbD g.val = true ∧ (s.ctl.get g).state = .fault ∧ p) := by
    intro g p
    rw [List.mem_append, List.mem_singleton]
    constructor
    · rintro ⟨before | rfl, bit, fault, rest⟩
      · exact ⟨before, bit, fault, rest⟩
      · exact absurd ⟨bit, fault⟩ stays
    · exact fun ⟨before, rest⟩ => ⟨.inl before, rest⟩
  refine { h with ctl := fun g => ?_, monitors := fun g => ?_, hands := ?_ }
  · rw [h.ctl]
    simp only [same]
  · rw [h.monitors]
    simp only [same]
  · have none : [f].filter (fun f => v.getLsbD f.val && (s.ctl.get f).state == .fault) = [] := by
      simp only [List.filter_eq_nil_iff, List.mem_singleton, forall_eq, Bool.and_eq_true, beq_iff_eq]
      exact stays
    rw [List.filter_append, none, List.append_nil]
    exact h.hands

theorem ClearedOver.next {v : Word} {s t : State} {fs : List Fid} {f : Fid} (h : ClearedOver v s t fs) (fresh : f ∉ fs) :
    ClearedOver v s (if flag v f.val then t.clearFeeder f else t) (fs ++ [f]) := by
  have ctl : t.ctl.get f = s.ctl.get f := by rw [h.ctl, if_neg fun ⟨before, _⟩ => fresh before]
  by_cases bit : v.getLsbD f.val = true
  swap
  · rw [if_neg (by exact bit)]
    exact h.pass fun ⟨b, _⟩ => bit b
  rw [if_pos (by exact bit)]
  unfold State.clearFeeder
  rw [ctl, h.malm]
  by_cases fault : (s.ctl.get f).state = .fault
  swap
  · rw [if_neg fault]
    exact h.pass fun ⟨_, b⟩ => fault b
  rw [if_pos fault]
  have one : [f].filter (fun f => v.getLsbD f.val && (s.ctl.get f).state == .fault) = [f] := by simp [bit, fault]
  by_cases alarm : s.malm.get f = true
  · rw [if_pos alarm]
    have same : ∀ g : Fid, (g ∈ fs ++ [f] ∧ v.getLsbD g.val = true ∧ (s.ctl.get g).state = .fault ∧ s.malm.get g = false) ↔
        (g ∈ fs ∧ v.getLsbD g.val = true ∧ (s.ctl.get g).state = .fault ∧ s.malm.get g = false) := by
      intro g
      rw [List.mem_append, List.mem_singleton]
      constructor
      · rintro ⟨before | rfl, bit, fault, calm⟩
        · exact ⟨before, bit, fault, calm⟩
        · rw [alarm] at calm
          cases calm
      · exact fun ⟨before, rest⟩ => ⟨.inl before, rest⟩
    refine ⟨?_, ?_, ?_, ?_, ?_, ?_, ?_, ?_, fun g => ?_, fun g => ?_, ?_⟩
    case refine_9 => rw [State.handRecord_ctl, h.ctl]; simp only [same]
    case refine_10 => rw [State.handRecord_monitors, h.monitors]; simp only [same]
    case refine_11 =>
      rw [List.filter_append, one, List.map_append, List.map_singleton, if_pos alarm]
      exact h.hands.trans (.handRecord t _)
    all_goals simp [h.table, h.malm, h.draws, h.trackers, h.evals, h.account, h.stagers, h.link]
  · rw [if_neg alarm, State.enterArming_eq, h.malm, if_neg alarm]
    have settings : t.settings = s.settings := by
      unfold State.settings
      rw [h.table]
    refine ⟨?_, ?_, ?_, ?_, ?_, ?_, ?_, ?_, fun g => ?_, fun g => ?_, ?_⟩
    case refine_9 =>
      rw [State.beginArming_ctl]
      by_cases eq : g = f
      · subst eq
        rw [Per8.get_set_same, ctl, if_pos ⟨by simp, bit, fault, by simpa using alarm⟩]
      · rw [Per8.get_set_ne _ _ eq, h.ctl]
        simp [eq]
    case refine_10 =>
      rw [State.beginArming_monitors]
      by_cases eq : g = f
      · subst eq
        rw [Per8.get_set_same, h.monitors, settings, if_neg fun ⟨before, _⟩ => fresh before,
          if_pos ⟨by simp, bit, fault, by simpa using alarm⟩]
      · rw [Per8.get_set_ne _ _ eq, h.monitors]
        simp [eq]
    case refine_11 =>
      rw [List.filter_append, one, List.map_append, List.map_singleton, if_neg alarm]
      have := hands_beginArming t f .cleared
      rw [ctl, fault] at this
      exact h.hands.trans this
    all_goals simp [h.table, h.malm, h.draws, h.trackers, h.evals, h.account, h.stagers, h.link]

theorem ClearedOver.fold {v : Word} {s : State} (fs : List Fid) : ∀ {t : State} {before : List Fid},
    ClearedOver v s t before → (before ++ fs).Nodup →
      ClearedOver v s (fs.foldl (fun s f => if flag v f.val then s.clearFeeder f else s) t) (before ++ fs) := by
  induction fs with
  | nil =>
    intro t before h _
    rwa [List.append_nil]
  | cons f fs ih =>
    intro t before h nodup
    have fresh : f ∉ before := fun mem => (List.disjoint_of_nodup_append nodup) mem List.mem_cons_self
    rw [List.append_cons] at nodup ⊢
    exact ih (h.next fresh) nodup

/-- A full write of the CLEAR word asks every feeder whose bit is set (R21). -/
theorem clearWord_cleared (s : State) (v : Word) : ClearedOver v s (s.clearWord 15#4 v) Fid.all := by
  unfold State.clearWord
  rw [if_pos (by rfl)]
  exact (ClearedOver.refl v s).fold Fid.all (by decide)

theorem filter_all_eq_singleton {p : Fid → Bool} {f : Fid} (own : p f = true) (others : ∀ g, g ≠ f → p g = false) :
    Fid.all.filter p = [f] := by
  have same : p = fun g => decide (g = f) := by
    funext g
    by_cases eq : g = f
    · rw [eq, own, decide_eq_true rfl]
    · rw [others g eq, decide_eq_false eq]
  rw [same]
  fin_cases f <;> rfl

/-- Settles O35: the write is handed to the CLEAR word, which asks the feeders in turn. -/
theorem clearWrite : Obligations.ClearWrite := by
  intro s a be v w once window control first x
  have permitted : accessPermitted (s.classify x.addr) x = true := by
    change (if true then writePermitted (s.classify a) a tagProcessor else _) = true
    rw [if_pos rfl, window, writePermitted, control]
    rfl
  obtain ⟨t, run, ends, up⟩ := completes_access (.clearWrite a be v) x s rfl once permitted
  have place : (w.offset a).toNat / 4 = 0 := Nat.div_eq_of_lt first
  have taken : s.takeAccess x = (s.taken x).clearWord be v := by
    rw [State.takeAccess_eq s x permitted]
    change (s.taken x).handOff (s.classify a) x = _
    rw [window]
    change (s.taken x).windowTake w x = _
    unfold State.windowTake
    rw [control]
    change (s.taken x).controlTake (w.offset a) be v = _
    unfold State.controlTake
    rw [place]
    rfl
  have e : EndsAs ((s.taken x).clearWord be v) t :=
    taken ▸ ⟨ends, fun _ => up.trans (State.takeAccess_permitted s x permitted).1.symm⟩
  have down : (s.taken x).bus.current = some ⟨x, .window w, a⟩ := by
    change some (⟨x, s.classify a, s.downAddr (s.classify a) x⟩ : Current) = _
    rw [window]
    unfold State.downAddr
    dsimp only
    rw [control]
    rfl
  have moves : Moves (s.taken x) ((s.taken x).clearWord be v) := State.clearWord_moves _ be v .refl
  have surroundings := e.surroundings moves.surroundings
  refine ⟨t, run, up, ?_, fun part => ?_, fun full => ?_, fun full => ?_⟩
  · obtain ⟨-, -, -, -, -, -, bus, -⟩ := surroundings
    exact ((congrArg (fun b : Bus => b.current) bus :)).trans down
  · rw [e.offPort]
    unfold State.clearWord
    rw [if_neg (by exact part)]
  · subst full
    have cleared := clearWord_cleared (s.taken x) v
    refine ⟨surroundings, e.trackers.trans cleared.trackers, e.evals.trans cleared.evals,
      e.account.trans cleared.account, e.stagers.trans cleared.stagers, e.link.trans cleared.link,
      e.malm.trans cleared.malm, e.draws.trans cleared.draws, fun f => ⟨fun out => ?_, fun bit fault calm => ⟨?_, ?_⟩,
      fun others bit fault alarm => e.staged (cleared.hands.first _ ?_)⟩⟩
    · have stays : ¬ (f ∈ Fid.all ∧ v.getLsbD f.val = true ∧ (s.ctl.get f).state = .fault ∧ s.malm.get f = false) := by
        rintro ⟨-, bit, fault, calm⟩
        rcases out with out | out | out
        · exact absurd (bit.symm.trans out) (by decide)
        · exact out fault
        · exact absurd (calm.symm.trans out) (by decide)
      refine ⟨?_, ?_, ?_, ?_⟩
      · rw [e.ctl, cleared.ctl]
        exact if_neg stays
      · rw [e.monitors, cleared.monitors]
        exact if_neg stays
      · rw [e.trackers, cleared.trackers]
        rfl
      · rw [e.evals, cleared.evals]
        rfl
    · rw [e.ctl, cleared.ctl]
      exact if_pos ⟨Fid.mem_all f, bit, fault, calm⟩
    · rw [e.monitors, cleared.monitors]
      exact if_pos ⟨Fid.mem_all f, bit, fault, calm⟩
    · have asked : (v.getLsbD f.val && ((s.taken x).ctl.get f).state == .fault) = true :=
        Bool.and_eq_true_iff.2 ⟨bit, beq_iff_eq.2 fault⟩
      rw [filter_all_eq_singleton (f := f) asked fun g ne => by simp [others g ne], List.map_singleton,
        if_pos (by exact alarm)]
      rfl
  · subst full
    exact e.recorded (clearWord_cleared (s.taken x) v).hands.all

end Sys2Proof.Machine
end

section
namespace Sys2Proof.Machine

/-! ## What an admission request changes, and on what it depends (R79-R84) -/

/-- From `s` to `t` the account alone has changed, and no record was handed over. -/
structure AccountOnly (s t : State) : Prop where
  blocks : t.blocks = State.blocks { s with account := t.account }
  hands : Hands s t []

namespace AccountOnly

variable {s t u : State}

theorem refl (s : State) : AccountOnly s s := ⟨rfl, .refl s⟩

theorem trans (h : AccountOnly s t) (k : AccountOnly t u) : AccountOnly s u where
  blocks := k.blocks.trans (congrArg (fun v : State => { v with account := u.account }) h.blocks)
  hands := h.hands.trans k.hands

theorem field {α : Type} (h : AccountOnly s t) (g : State → α) :
    g t.blocks = g (State.blocks { s with account := t.account }) := congrArg g h.blocks

theorem ctl (h : AccountOnly s t) : t.ctl = s.ctl := h.field State.ctl
theorem monitors (h : AccountOnly s t) : t.monitors = s.monitors := h.field State.monitors
theorem trackers (h : AccountOnly s t) : t.trackers = s.trackers := h.field State.trackers
theorem evals (h : AccountOnly s t) : t.evals = s.evals := h.field State.evals
theorem stagers (h : AccountOnly s t) : t.stagers = s.stagers := h.field State.stagers
theorem link (h : AccountOnly s t) : t.link = s.link := h.field State.link
theorem table (h : AccountOnly s t) : t.table = s.table := h.field State.table
theorem malm (h : AccountOnly s t) : t.malm = s.malm := h.field State.malm
theorem draws (h : AccountOnly s t) : t.draws = s.draws := h.field State.draws

end AccountOnly

theorem putReserved_accountOnly (s : State) (f : Fid) (r : Nat) : AccountOnly s (s.putReserved f r) where
  blocks := by simp [State.blocks]
  hands := .nothing (by simp) (by simp) (by simp) (by simp) (by simp)

theorem chooseVictim_accountOnly (s : State) (f : Fid) (cause : ShedCause) : AccountOnly s (s.chooseVictim f cause) where
  blocks := by simp [State.blocks, State.chooseVictim]
  hands := (putReserved_accountOnly s f 0).hands.trans (.nothing rfl rfl rfl rfl rfl)

theorem shedUntil_accountOnly (fs : List Fid) (cause : ShedCause) (enough : State → Bool) :
    ∀ s : State, AccountOnly s (s.shedUntil fs cause enough) := by
  induction fs with
  | nil => exact .refl
  | cons f fs ih =>
    intro s
    unfold State.shedUntil
    split
    · exact .refl s
    · split
      · exact (chooseVictim_accountOnly s f cause).trans (ih _)
      · exact ih s

theorem requestEnergy_accountOnly (s : State) (f : Fid) (d : Nat) : AccountOnly s (s.requestEnergy f d).1 := by
  unfold State.requestEnergy
  split
  · exact .refl s
  split
  · split
    · exact putReserved_accountOnly s f _
    · exact .refl s
  split
  · exact putReserved_accountOnly s f _
  split
  · exact (shedUntil_accountOnly _ _ _ s).trans (putReserved_accountOnly _ f _)
  · exact .refl s

theorem requestEntry_accountOnly (s : State) (f : Fid) (need : Nat) : AccountOnly s (s.requestEntry f need).1 := by
  unfold State.requestEntry
  split
  · exact .refl s
  · exact requestEnergy_accountOnly s f need

theorem requestRide_accountOnly (s : State) (f : Fid) (need : Nat) : AccountOnly s (s.requestRide f need).1 := by
  unfold State.requestRide
  dsimp only
  split
  · exact putReserved_accountOnly s f _
  · exact requestEnergy_accountOnly s f _

/-- The two states have the same account and the same table, on which alone admission depends. -/
structure AccountLike (s m : State) : Prop where
  account : m.account = s.account
  table : m.table = s.table

namespace AccountLike

variable {s m : State}

theorem entry (h : AccountLike s m) : m.entry = s.entry := by
  funext f
  unfold State.entry
  rw [h.table]

theorem cost (h : AccountLike s m) (f : Fid) (r : Reference) : m.cost f r = s.cost f r := by
  unfold State.cost
  rw [h.entry]

theorem sum (h : AccountLike s m) : m.sum = s.sum := by
  have counted : m.counted = s.counted := by
    funext f
    unfold State.counted
    rw [h.entry, h.account]
  unfold State.sum
  rw [counted]

theorem fits (h : AccountLike s m) (d : Nat) : m.fits d = s.fits d := by
  unfold State.fits
  rw [h.sum, h.account]

theorem sheddable (h : AccountLike s m) : m.sheddable = s.sheddable := by
  funext f
  unfold State.sheddable
  rw [h.entry, h.account]

theorem candidates (h : AccountLike s m) (f : Fid) : m.candidates f = s.candidates f := by
  unfold State.candidates State.lowestFirst State.byPriority
  rw [h.entry, h.sheddable]

theorem candidateTotal (h : AccountLike s m) (f : Fid) : m.candidateTotal f = s.candidateTotal f := by
  unfold State.candidateTotal
  rw [h.candidates, h.account]

theorem putReserved (h : AccountLike s m) (f : Fid) (r : Nat) :
    AccountLike (s.putReserved f r) (m.putReserved f r) := by
  constructor
  · rw [State.putReserved_account, State.putReserved_account, h.account]
  · rw [State.putReserved_table, State.putReserved_table, h.table]

theorem chooseVictim (h : AccountLike s m) (f : Fid) (cause : ShedCause) :
    AccountLike (s.chooseVictim f cause) (m.chooseVictim f cause) := by
  obtain ⟨account, table⟩ := h.putReserved f 0
  refine ⟨?_, table⟩
  unfold State.chooseVictim
  dsimp only
  rw [account]

theorem shedUntil (fs : List Fid) (cause : ShedCause) (d : Nat) : ∀ {s m : State}, AccountLike s m →
    AccountLike (s.shedUntil fs cause fun v => v.fits d) (m.shedUntil fs cause fun v => v.fits d) := by
  induction fs with
  | nil => exact fun h => h
  | cons f fs ih =>
    intro s m h
    unfold State.shedUntil
    rw [h.fits, h.sheddable]
    by_cases enough : s.fits d = true
    · rwa [if_pos enough, if_pos enough]
    · rw [if_neg enough, if_neg enough]
      by_cases shed : s.sheddable f = true
      · rw [if_pos shed, if_pos shed]
        exact ih (h.chooseVictim f cause)
      · rw [if_neg shed, if_neg shed]
        exact ih h

theorem grant (h : AccountLike s m) (f : Fid) (d : Nat) : AccountLike (s.grant f d) (m.grant f d) := by
  unfold State.grant
  rw [h.account]
  exact h.putReserved f _

/-- Requests of the same amount have the same answer, and leave the accounts the same. -/
theorem requestEnergy (h : AccountLike s m) (f : Fid) (d : Nat) :
    (m.requestEnergy f d).2 = (s.requestEnergy f d).2 ∧
      AccountLike (s.requestEnergy f d).1 (m.requestEnergy f d).1 := by
  unfold State.requestEnergy
  rw [h.account, h.entry, h.fits, h.sum, h.candidateTotal, h.candidates]
  by_cases notice : (s.account.notice.get f).isSome = true
  · rw [if_pos notice, if_pos notice]
    exact ⟨rfl, h⟩
  rw [if_neg notice, if_neg notice]
  by_cases rehearsal : (s.entry f).rehearsal = true
  · rw [if_pos rehearsal, if_pos rehearsal]
    by_cases fits : s.fits d = true
    · rw [if_pos fits, if_pos fits]
      exact ⟨rfl, h.grant f d⟩
    · rw [if_neg fits, if_neg fits]
      exact ⟨rfl, h⟩
  rw [if_neg rehearsal, if_neg rehearsal]
  by_cases fits : s.fits d = true
  · rw [if_pos fits, if_pos fits]
    exact ⟨rfl, h.grant f d⟩
  rw [if_neg fits, if_neg fits]
  by_cases enough : s.sum + d ≤ s.account.usable + s.candidateTotal f
  · rw [if_pos enough, if_pos enough]
    exact ⟨rfl, (shedUntil _ _ d h).grant f d⟩
  · rw [if_neg enough, if_neg enough]
    exact ⟨rfl, h⟩

theorem requestEntry (h : AccountLike s m) (f : Fid) (need : Nat) :
    (m.requestEntry f need).2 = (s.requestEntry f need).2 ∧
      AccountLike (s.requestEntry f need).1 (m.requestEntry f need).1 := by
  unfold State.requestEntry
  rw [h.account]
  by_cases free : (need = 0 && (s.account.notice.get f).isNone) = true
  · rw [if_pos free, if_pos free]
    exact ⟨rfl, h⟩
  · rw [if_neg free, if_neg free]
    exact h.requestEnergy f need

theorem requestRide (h : AccountLike s m) (f : Fid) (need : Nat) :
    (m.requestRide f need).2 = (s.requestRide f need).2 ∧
      AccountLike (s.requestRide f need).1 (m.requestRide f need).1 := by
  unfold State.requestRide
  dsimp only
  rw [h.account]
  by_cases lower : need ≤ s.account.reserved.get f
  · rw [if_pos lower, if_pos lower]
    exact ⟨rfl, h.putReserved f _⟩
  · rw [if_neg lower, if_neg lower]
    exact h.requestEnergy f _

end AccountLike

/-- A refused request leaves the account as it was. -/
theorem requestEnergy_refused (s : State) (f : Fid) (d : Nat) (h : (s.requestEnergy f d).2 = false) :
    (s.requestEnergy f d).1 = s := by
  revert h
  unfold State.requestEnergy
  split
  · exact fun _ => rfl
  split
  · split
    · exact fun h => nomatch h
    · exact fun _ => rfl
  split
  · exact fun h => nomatch h
  split
  · exact fun h => nomatch h
  · exact fun _ => rfl

theorem requestEntry_refused (s : State) (f : Fid) (need : Nat) (h : (s.requestEntry f need).2 = false) :
    (s.requestEntry f need).1 = s := by
  revert h
  unfold State.requestEntry
  split
  · exact fun h => nomatch h
  · exact requestEnergy_refused s f need

theorem requestRide_refused (s : State) (f : Fid) (need : Nat) (h : (s.requestRide f need).2 = false) :
    (s.requestRide f need).1 = s := by
  revert h
  unfold State.requestRide
  dsimp only
  split
  · exact fun h => nomatch h
  · exact requestEnergy_refused s f _

/-- A request adds nothing to a log. -/
theorem Logs.asked {f : Fid} {s t u : State} {log : List LogItem} (h : Logs f s t log) (moves : Moves t u)
    (ask : AccountOnly t u) : Logs f s u log :=
  h.andQuiet moves (by rw [ask.trackers]) ask.hands (by rw [ask.stagers]) (by rw [ask.stagers])

end Sys2Proof.Machine
end

section
namespace Sys2Proof.Machine

/-! ## What a boundary leaves alone -/

/-- From `s` to `t` no more than feeder `f`'s own controller, monitor and evaluator has changed of what is kept feeder by
feeder before the stager, and the trackers, MALMn, the free values and the table are the same. -/
structure Beside (f : Fid) (s t : State) : Prop where
  others : ∀ g, g ≠ f → t.ctl.get g = s.ctl.get g ∧ t.monitors.get g = s.monitors.get g ∧ t.evals.get g = s.evals.get g
  trackers : t.trackers = s.trackers
  malm : t.malm = s.malm
  draws : t.draws = s.draws
  table : t.table = s.table

/-- The same, with every monitor and evaluator as it was. -/
structure Steady (f : Fid) (s t : State) : Prop extends Beside f s t where
  monitors : t.monitors = s.monitors
  evals : t.evals = s.evals

theorem Beside.refl (f : Fid) (s : State) : Beside f s s := ⟨fun _ _ => ⟨rfl, rfl, rfl⟩, rfl, rfl, rfl, rfl⟩

theorem Steady.refl (f : Fid) (s : State) : Steady f s s := ⟨.refl f s, rfl, rfl⟩

theorem Beside.trans {f : Fid} {s t u : State} (h : Beside f s t) (k : Beside f t u) : Beside f s u where
  others g ne := by
    obtain ⟨ctl, monitors, evals⟩ := h.others g ne
    obtain ⟨ctl', monitors', evals'⟩ := k.others g ne
    exact ⟨ctl'.trans ctl, monitors'.trans monitors, evals'.trans evals⟩
  trackers := k.trackers.trans h.trackers
  malm := k.malm.trans h.malm
  draws := k.draws.trans h.draws
  table := k.table.trans h.table

theorem Steady.trans {f : Fid} {s t u : State} (h : Steady f s t) (k : Steady f t u) : Steady f s u where
  toBeside := h.toBeside.trans k.toBeside
  monitors := k.monitors.trans h.monitors
  evals := k.evals.trans h.evals

theorem Beside.sameFeeder {f g : Fid} {s t : State} (h : Beside f s t) (ne : g ≠ f) : sameFeeder s t g := by
  obtain ⟨ctl, monitors, evals⟩ := h.others g ne
  exact ⟨ctl, monitors, by rw [h.trackers], evals⟩

/-- An operation that writes feeder `f`'s controller, or none, and leaves the rest of this alone. -/
theorem Steady.of_ctl {f : Fid} {s t : State} (ctl : ∀ g, g ≠ f → t.ctl.get g = s.ctl.get g)
    (monitors : t.monitors = s.monitors) (trackers : t.trackers = s.trackers) (evals : t.evals = s.evals)
    (malm : t.malm = s.malm) (draws : t.draws = s.draws) (table : t.table = s.table) : Steady f s t where
  others g ne := ⟨ctl g ne, by rw [monitors], by rw [evals]⟩
  trackers := trackers
  malm := malm
  draws := draws
  table := table
  monitors := monitors
  evals := evals

theorem AccountOnly.steady {s t : State} (h : AccountOnly s t) (f : Fid) : Steady f s t :=
  .of_ctl (fun _ _ => by rw [h.ctl]) h.monitors h.trackers h.evals h.malm h.draws h.table

namespace State

theorem putCtl_steady (s : State) (f : Fid) (c : FeederCtl) : Steady f s (s.putCtl f c) :=
  .of_ctl (fun g ne => by rw [putCtl_ctl, Per8.get_set_ne _ _ ne]) (by simp) (by simp) (by simp) (by simp) (by simp)
    (by simp)

theorem handRecord_steady (s : State) (f : Fid) (b : Body) : Steady f s (s.handRecord b) :=
  .of_ctl (fun _ _ => by simp) (by simp) (by simp) (by simp) (by simp) (by simp) (by simp)

theorem setState_steady (s : State) (f : Fid) (x : FeederState) (r : Reason) : Steady f s (s.setState f x r) :=
  (putCtl_steady s f _).trans (handRecord_steady _ f _)

theorem onSag_steady (s : State) (f : Fid) (g : SagRecord → SagRecord) : Steady f s (s.onSag f g) := putCtl_steady s f _

theorem putStager_steady (s : State) (f : Fid) (g : Stager) : Steady f s (s.putStager f g) :=
  .of_ctl (fun _ _ => rfl) rfl rfl rfl rfl rfl rfl

theorem endPending_steady (s : State) (f : Fid) (code : ResultCode) : Steady f s (s.endPending f code) :=
  .of_ctl (fun _ _ => by simp) (by simp) (by simp) (by simp) (by simp) (by simp) (by simp)

theorem placeRequest_steady (s : State) (f : Fid) (r : Request) : Steady f s (s.placeRequest f r) :=
  .of_ctl (fun _ _ => by simp) (by simp) (by simp) (by simp) (by simp) (by simp) (by simp)

theorem closeEpisode_steady (s : State) (f : Fid) (k : CloseCause) : Steady f s (s.closeEpisode f k) :=
  .of_ctl (fun g ne => by rw [closeEpisode_ctl, Per8.get_set_ne _ _ ne]) (by simp) (by simp) (by simp) (by simp) (by simp)
    (by simp)

theorem enterShed_steady (s : State) (f : Fid) (r : Reason) (dropped : ResultCode) :
    Steady f s (s.enterShed f r dropped) := by
  have shed := enterShed_shed s f r dropped
  exact .of_ctl (fun g ne => by rw [shed.ctl, Per8.get_set_ne _ _ ne]) shed.monitors shed.trackers shed.evals shed.malm
    shed.draws shed.table

theorem endLate_steady (s : State) (f : Fid) : Steady f s (s.endLate f) := by
  unfold endLate
  split
  · exact .refl f s
  · dsimp only
    split
    · exact .refl f s
    · exact endPending_steady s f .late

theorem takeRecord_steady (s : State) (f : Fid) (r : Accepted) : Steady f s (s.takeRecord f r) := by
  unfold takeRecord
  dsimp only
  split
  · exact (putStager_steady s f _).trans (onSag_steady _ f _)
  · exact putStager_steady s f _

theorem takeChosen_steady (s : State) (f : Fid) (record : Option Accepted) : Steady f s (s.takeChosen f record) := by
  cases record with
  | none => exact .refl f s
  | some r => exact takeRecord_steady s f r

theorem formAutofill_steady (s : State) (f : Fid) : Steady f s (s.formAutofill f).1 := by
  unfold formAutofill
  dsimp only
  split
  · exact onSag_steady s f _
  · exact .refl f s

/-- An admitted feeder in RIDE, before its ENGAGE is placed (R9). -/
def rideBegun (s : State) (f : Fid) (ref : Reference) : State :=
  (s.setState f .ride .admitted).putCtl f { (s.setState f .ride .admitted).ctl.get f with lastRef := ref }

theorem rideBegun_steady (s : State) (f : Fid) (ref : Reference) : Steady f s (s.rideBegun f ref) :=
  (setState_steady s f _ _).trans (putCtl_steady _ f _)

/-- The two outcomes of a ride entry (R9). -/
theorem tryEntry_eq (s : State) (f : Fid) (ref : Reference) (source : Source) (record : Option Accepted) :
    s.tryEntry f ref source record =
      let ask := s.requestEntry f (s.cost f ref * (s.entry f).rideLimit)
      if ask.2 then ((ask.1.rideBegun f ref).takeChosen f record).placeEngage f ref source record
      else ask.1.enterShed f .noEnergy (if record.isSome then .refusedEnergy else .notRiding) := rfl

theorem tryEntry_steady (s : State) (f : Fid) (ref : Reference) (source : Source) (record : Option Accepted) :
    Steady f s (s.tryEntry f ref source record) := by
  have ask := (requestEntry_accountOnly s f (s.cost f ref * (s.entry f).rideLimit)).steady f
  rw [tryEntry_eq]
  dsimp only
  split
  · have begun := (ask.trans (rideBegun_steady _ f ref)).trans (takeChosen_steady _ f record)
    exact begun.trans (placeRequest_steady _ f _)
  · exact ask.trans (enterShed_steady _ f _ _)

theorem rideDecision_steady (s : State) (f : Fid) : Steady f s (s.rideDecision f) := by
  unfold rideDecision
  split
  · exact tryEntry_steady s f _ _ _
  · split
    · exact (formAutofill_steady s f).trans (tryEntry_steady _ f _ _ _)
    · exact .refl f s

theorem hold_steady (s : State) (f : Fid) : Steady f s (s.hold f) := by
  unfold hold placeEngage
  exact placeRequest_steady s f _

theorem chooseReference_steady (s : State) (f : Fid) : Steady f s (s.chooseReference f) := by
  unfold chooseReference
  split
  · next r _ =>
    have ask := (requestRide_accountOnly s f (s.rideNeed f r.ref)).steady f
    dsimp only
    split
    · exact (ask.trans (takeRecord_steady _ f _)).trans (placeRequest_steady _ f _)
    · exact (ask.trans (endPending_steady _ f _)).trans (hold_steady _ f)
  · split
    · have formed := formAutofill_steady s f
      have ask := (requestRide_accountOnly (s.formAutofill f).1 f
        ((s.formAutofill f).1.rideNeed f (s.formAutofill f).2)).steady f
      dsimp only
      split
      · exact (formed.trans ask).trans (placeRequest_steady _ f _)
      · exact (formed.trans ask).trans (hold_steady _ f)
    · exact hold_steady s f

theorem armingBoundary_steady (s : State) (f : Fid) : Steady f s (s.armingBoundary f) := by
  unfold armingBoundary
  split
  · exact setState_steady s f _ _
  · exact placeRequest_steady s f _

theorem openSag_beside (s : State) (f : Fid) (residuals : Phases Nat) (interruption : Bool) :
    Beside f s (s.openSag f residuals interruption) where
  others g ne := by simp [openSag, Per8.get_set_ne _ _ ne]
  trackers := by simp [openSag]
  malm := by simp [openSag]
  draws := by simp [openSag]
  table := by simp [openSag]

theorem closeSag_beside (s : State) (f : Fid) (o : SagOutcome) : Beside f s (s.closeSag f o) where
  others g ne := by
    rw [closeSag_ctl, closeSag_evals, closeSag_monitors, Per8.get_set_ne _ _ ne, Per8.get_set_ne _ _ ne]
    exact ⟨rfl, rfl, rfl⟩
  trackers := by simp
  malm := by simp
  draws := by simp
  table := by simp

theorem enterFault_beside (s : State) (f : Fid) (r : Reason) : Beside f s (s.enterFault f r) where
  others g ne := by
    rw [enterFault_ctl, enterFault_evals, enterFault_monitors, Per8.get_set_ne _ _ ne, Per8.get_set_ne _ _ ne]
    exact ⟨rfl, rfl, rfl⟩
  trackers := by simp
  malm := by simp
  draws := by simp
  table := by simp

theorem beginArming_beside (s : State) (f : Fid) (r : Reason) : Beside f s (s.beginArming f r) where
  others g ne := by simp [Per8.get_set_ne _ _ ne]
  trackers := by simp
  malm := by simp
  draws := by simp
  table := by simp

theorem enterArming_beside (s : State) (f : Fid) (r : Reason) : Beside f s (s.enterArming f r) := by
  rw [enterArming_eq]
  split
  · exact (beginArming_beside s f r).trans (enterFault_beside _ f _)
  · exact beginArming_beside s f r

theorem takeOnset_beside (s : State) (f : Fid) (v : Verdicts) : Beside f s (s.takeOnset f v) := by
  have opened := openSag_beside s f v.residuals v.interruption
  unfold takeOnset
  dsimp only
  split
  · exact opened.trans (enterShed_steady _ f _ _).toBeside
  split
  · exact opened.trans ((setState_steady _ f _ _).trans (rideDecision_steady _ f)).toBeside
  · exact opened.trans (enterShed_steady _ f _ _).toBeside

theorem closed_beside (s : State) (f : Fid) (o : SagOutcome) : Beside f s ((s.closeSag f o).startQuiet f) :=
  (closeSag_beside s f o).trans (putCtl_steady _ f _).toBeside

theorem releaseEnergy_steady (s : State) (f : Fid) : Steady f s (s.releaseEnergy f) :=
  (putReserved_accountOnly s f 0).steady f

theorem actOn_beside (s : State) (f : Fid) (v : Verdicts) : Beside f s (s.actOn f v) := by
  have interrupted : Beside f s ((s.flagInterruption f).enterShed f .interruption .notRiding) :=
    ((onSag_steady s f _).trans (enterShed_steady _ f _ _)).toBeside
  have invalid : Beside f s (s.enterShed f .samplesInvalid .notRiding) := (enterShed_steady s f _ _).toBeside
  unfold actOn
  split
  · exact .refl f s
  · exact (armingBoundary_steady s f).toBeside
  · unfold standbyBoundary
    split
    · exact takeOnset_beside s f v
    split
    · exact enterArming_beside s f _
    · exact .refl f s
  · unfold watchBoundary
    split
    · exact invalid
    split
    · exact interrupted
    split
    · exact (closed_beside s f _).trans ((setState_steady _ f _ _).trans (endPending_steady _ f _)).toBeside
    · exact (rideDecision_steady s f).toBeside
  · unfold rideBoundary
    split
    · exact invalid
    split
    · exact interrupted
    split
    · have released := (releaseEnergy_steady s f).trans (putCtl_steady _ f
        { (s.releaseEnergy f).ctl.get f with source := .none })
      exact (released.toBeside.trans (closed_beside _ f .protect)).trans
        (((setState_steady _ f .recover .sagEnd).trans (placeRequest_steady _ f _)).trans
          (endPending_steady _ f .notRiding)).toBeside
    split
    · exact (enterShed_steady s f _ _).toBeside
    · exact (chooseReference_steady s f).toBeside
  · unfold recoverBoundary
    split
    · exact takeOnset_beside s f v
    split
    · exact invalid
    · exact .refl f s
  · unfold shedBoundary
    split
    · exact openSag_beside s f _ _
    split
    · exact closed_beside s f _
    split
    · exact (onSag_steady s f _).toBeside
    · exact .refl f s
  · exact .refl f s

theorem expire_beside (s : State) (f : Fid) : Beside f s (s.expire f) := by
  have closed := (closeEpisode_steady s f .window).toBeside
  unfold expire
  dsimp only
  split
  · exact closed.trans (enterArming_beside _ f _)
  all_goals exact closed

theorem expireThenAct_beside (s : State) (f : Fid) (v : Verdicts) : Beside f s (s.expireThenAct f v) := by
  unfold expireThenAct
  split
  · exact expire_beside s f
  all_goals exact (expire_beside s f).trans (actOn_beside _ f v)

theorem actThenExpire_beside (s : State) (f : Fid) (v : Verdicts) : Beside f s (s.actThenExpire f v) := by
  unfold actThenExpire
  dsimp only
  split
  · exact (actOn_beside s f v).trans (expire_beside _ f)
  · exact actOn_beside s f v

end State

end Sys2Proof.Machine
end

section
namespace Sys2Proof.Machine

/-! ## The reference that is no longer due (R100) -/

/-- The pending record whose half-cycle a boundary has passed, if it has (R100). -/
def State.passed (s : State) (f : Fid) : List Accepted :=
  (s.stagers.get f).pending.toList.filter fun r =>
    !(distance r.target (s.trackers.get f).hc == 1 || distance r.target (s.trackers.get f).hc == 2)

namespace State

theorem passed_of_none {s : State} {f : Fid} (h : (s.stagers.get f).pending = none) : s.passed f = [] := by
  simp [passed, h]

/-- A passed record is ended, and any other is left. -/
theorem endLate_cases (s : State) (f : Fid) :
    (s.endLate f = s ∧ s.passed f = [] ∧ ∀ r, (s.stagers.get f).pending = some r →
        distance r.target (s.trackers.get f).hc = 1 ∨ distance r.target (s.trackers.get f).hc = 2) ∨
      s.endLate f = s.endPending f .late ∧ s.passed f = (s.stagers.get f).pending.toList := by
  unfold endLate passed
  cases pending : (s.stagers.get f).pending with
  | none => exact .inl ⟨rfl, rfl, fun _ h => nomatch h⟩
  | some r =>
    dsimp only
    by_cases due : distance r.target (s.trackers.get f).hc = 1 ∨ distance r.target (s.trackers.get f).hc = 2
    · rw [if_pos due]
      refine .inl ⟨rfl, ?_, fun r' h => by cases h; exact due⟩
      simpa [or_iff_not_imp_left] using due
    · rw [if_neg due]
      refine .inr ⟨rfl, ?_⟩
      simpa using due

/-- No pending record, no late one. -/
theorem endLate_of_none {s : State} {f : Fid} (h : (s.stagers.get f).pending = none) : s.endLate f = s := by
  simp [endLate, h]

@[simp] theorem endLate_ctl (s : State) (f : Fid) : (s.endLate f).ctl = s.ctl := by
  rcases endLate_cases s f with ⟨same, -⟩ | ⟨ends, -⟩
  · rw [same]
  · rw [ends, endPending_ctl]

@[simp] theorem endLate_account (s : State) (f : Fid) : (s.endLate f).account = s.account := by
  rcases endLate_cases s f with ⟨same, -⟩ | ⟨ends, -⟩
  · rw [same]
  · rw [ends, endPending_account]

@[simp] theorem endLate_link (s : State) (f : Fid) : (s.endLate f).link = s.link := by
  rcases endLate_cases s f with ⟨same, -⟩ | ⟨ends, -⟩
  · rw [same]
  · rw [ends, endPending_link]

@[simp] theorem endLate_get_committed (s : State) (f : Fid) :
    ((s.endLate f).stagers.get f).committed = (s.stagers.get f).committed := by
  rcases endLate_cases s f with ⟨same, -⟩ | ⟨ends, -⟩
  · rw [same]
  · rw [ends, endPending_get_committed]

/-- What is pending after a boundary is due within two half-cycles. -/
theorem endLate_due {s : State} {f : Fid} {r : Accepted} (h : ((s.endLate f).stagers.get f).pending = some r) :
    distance r.target (s.trackers.get f).hc = 1 ∨ distance r.target (s.trackers.get f).hc = 2 := by
  rcases endLate_cases s f with ⟨same, -, due⟩ | ⟨ends, -⟩
  · rw [same] at h
    exact due r h
  · rw [ends, endPending_get_pending] at h
    cases h

end State

theorem Logs.endLate {f : Fid} {s t : State} {log : List LogItem} (h : Logs f s t log) :
    Logs f s (t.endLate f)
      (log ++ endings (t.ctl.get f).source (t.stagers.get f).committed (endAll .late (t.passed f))) := by
  rcases State.endLate_cases t f with ⟨same, none, -⟩ | ⟨ends, all⟩
  · rw [same, none]
    exact h.of_eq (List.append_nil _).symm
  · rw [ends, all]
    exact h.endPending .late

/-! ## The way to a boundary's last act -/

/-- From `s` to `m` feeder `f` has handed over the records `l` and no results, its controller is `b`, and what its last act
at a boundary turns on is the same. -/
structure Reached (f : Fid) (s m : State) (l : List Body) (b : FeederCtl) : Prop where
  log : Logs f s m (records l)
  ctl : m.ctl.get f = b
  account : m.account = s.account
  stagers : m.stagers = s.stagers
  link : m.link = s.link
  trackers : m.trackers = s.trackers
  malm : m.malm = s.malm
  table : m.table = s.table

namespace Reached

variable {f : Fid} {s m : State} {l : List Body} {b : FeederCtl}

theorem refl (f : Fid) (s : State) : Reached f s s [] (s.ctl.get f) :=
  ⟨.refl f s, rfl, rfl, rfl, rfl, rfl, rfl, rfl⟩

theorem withDraws (h : Reached f s m l b) (n : Nat) : Reached f s { m with draws := n } l b :=
  ⟨h.log.withDraws n, h.ctl, h.account, h.stagers, h.link, h.trackers, h.malm, h.table⟩

/-- An operation that leaves all but the controllers, the monitors and the evaluators alone. -/
theorem andThen {t : State} {b' : FeederCtl} {k : List Body} (h : Reached f s m l b)
    (log : Logs f s t (records l ++ records k)) (ctl : t.ctl.get f = b') (account : t.account = m.account)
    (stagers : t.stagers = m.stagers) (link : t.link = m.link) (beside : Beside f m t) : Reached f s t (l ++ k) b' :=
  ⟨log.of_eq (records_append l k).symm, ctl, account.trans h.account, stagers.trans h.stagers, link.trans h.link,
    beside.trackers.trans h.trackers, beside.malm.trans h.malm, beside.table.trans h.table⟩

theorem putCtl (h : Reached f s m l b) (b' : FeederCtl) : Reached f s (m.putCtl f b') l b' := by
  have := h.andThen (k := []) ((h.log.putCtl f b').of_eq (List.append_nil _).symm) (by simp : _ = b') (by simp) (by simp)
    (by simp) (State.putCtl_steady m f b').toBeside
  rwa [List.append_nil] at this

theorem setState (h : Reached f s m l b) (new : FeederState) (r : Reason) :
    Reached f s (m.setState f new r) (l ++ [.feederState f b.state new r]) { b with state := new, reason := r } := by
  rw [← h.ctl]
  exact h.andThen (h.log.setState new r) (by simp) (by simp) (by simp) (by simp) (State.setState_steady m f new r).toBeside

theorem closeEpisode (h : Reached f s m l b) (k : CloseCause) :
    Reached f s (m.closeEpisode f k)
      (l ++ b.episode.toList.map fun y => .episodeClosed f y k (s.trackers.get f).hc) { b with episode := none } := by
  rw [← h.ctl, ← h.trackers]
  refine h.andThen (h.log.closeEpisode k) ?_ (by simp) (by simp) (by simp) (State.closeEpisode_steady m f k).toBeside
  rw [State.closeEpisode_ctl, Per8.get_set_same]

theorem closeSag (h : Reached f s m l b) (o : SagOutcome) :
    Reached f s (m.closeSag f o) (l ++ b.sag.toList.map fun x => .sagClosed f { x with outcome := some o })
      (b.sagClosed o) := by
  rw [← h.ctl]
  refine h.andThen (h.log.closeSag o) ?_ (by simp) (by simp) (by simp) (State.closeSag_beside m f o)
  rw [State.closeSag_ctl, Per8.get_set_same]

theorem openSag (h : Reached f s m l b) (residuals : Phases Nat) (interruption : Bool) :
    Reached f s (m.openSag f residuals interruption) l
      { b with
        rode := 0, sag := some (SagRecord.opened (s.trackers.get f).hc s.stamp residuals interruption)
        episode := some (countSag b.episode ((s.trackers.get f).hc - 1#8) s.stamp) } := by
  have stamp := h.log.hands.stamp
  have log : Logs f s (m.openSag f residuals interruption) (records l) :=
    ((h.log.putCtl f _).putEval f _).putMonitor f _
  have := h.andThen (k := []) (log.of_eq (List.append_nil _).symm) rfl (by simp [State.openSag])
    (by simp [State.openSag]) (by simp [State.openSag]) (State.openSag_beside m f residuals interruption)
  rw [List.append_nil] at this
  rw [← h.ctl, ← h.trackers, ← stamp]
  convert this using 1
  simp [State.openSag, SagRecord.opened]

theorem accountLike (h : Reached f s m l b) : AccountLike s m := ⟨h.account, h.table⟩

theorem entry (h : Reached f s m l b) : m.entry = s.entry := h.accountLike.entry

theorem settings (h : Reached f s m l b) : m.settings = s.settings := by
  unfold State.settings
  rw [h.table]

theorem passed (h : Reached f s m l b) : m.passed f = s.passed f := by
  unfold State.passed
  rw [h.stagers, h.trackers]

theorem offered (h : Reached f s m l b) : m.offered f = s.offered f := by
  unfold State.offered
  rw [h.stagers, h.trackers]

end Reached

/-! ## The ends of a boundary -/

/-- The results and records of a boundary: its own records, and behind them those of the reference records it ended. -/
def Made (s t : State) (f : Fid) (l : List Body) (xs : List Ending) : Prop :=
  resultsMade s t f xs ∧ recorded s t (l ++ refRecords f (endResults s t f xs))

theorem Logs.made_of {f : Fid} {s t : State} {l : List Body} {xs : List Ending} {source : Source} {page : Page}
    (h : Logs f s t (records l ++ endings source page xs)) (hs : source = (t.ctl.get f).source)
    (hp : page = (t.stagers.get f).committed) : Made s t f l xs := by
  subst hs hp
  exact h.made

/-- The record that a request takes the slot of (R106). -/
def Stager.replaced (g : Stager) : List Ending := endAll .superseded g.inSlot.toList

/-- The boundary ends with nothing more than the late record. -/
def Rests (s t : State) (f : Fid) (l : List Body) (b : FeederCtl) : Prop :=
  t.ctl.get f = b ∧ t.account = s.account ∧ t.link = s.link ∧ Made s t f l (endAll .late (s.passed f))

theorem Reached.rests {f : Fid} {s m : State} {l : List Body} {b : FeederCtl} (h : Reached f s m l b) :
    Rests s (m.endLate f) f l b := by
  refine ⟨by rw [State.endLate_ctl, h.ctl], by rw [State.endLate_account, h.account], by rw [State.endLate_link, h.link],
    ?_⟩
  have := h.log.endLate.made_of (by rw [State.endLate_ctl]) (by rw [State.endLate_get_committed])
  rwa [h.passed] at this

/-- The boundary ends with the feeder shed (R16). -/
def Sheds (s t : State) (f : Fid) (l : List Body) (b : FeederCtl) (reason : Reason) (code : ResultCode) : Prop :=
  t.ctl.get f = b.shed reason ∧ t.account = { s.account with reserved := s.account.reserved.set f 0 } ∧
    Placed t f (.release (s.trackers.get f).hc) ∧ (t.stagers.get f).pending = none ∧
    Made s t f (l ++ [.feederState f b.state .shed reason]) ((s.stagers.get f).shedEnds code)

theorem Reached.sheds {f : Fid} {s m : State} {l : List Body} {b : FeederCtl} (h : Reached f s m l b) (reason : Reason)
    (code : ResultCode) : Sheds s ((m.enterShed f reason code).endLate f) f l b reason code := by
  have shed := enterShed_shed m f reason code
  have bare := shed.stager
  have pending : ((m.enterShed f reason code).stagers.get f).pending = none := (congrArg Stager.pending bare :)
  have committed : ((m.enterShed f reason code).stagers.get f).committed = (m.stagers.get f).committed :=
    (congrArg Stager.committed bare :)
  have placed := shed.placed
  rw [h.trackers] at placed
  have log := h.log.enterShed reason code
  rw [h.ctl, h.stagers] at log
  rw [State.endLate_of_none pending]
  refine ⟨by rw [shed.ctl, Per8.get_set_same, h.ctl], by rw [shed.account, h.account], placed, pending, ?_⟩
  refine (log.of_eq ?_).made_of (source := .none) ?_ (by rw [committed, h.stagers])
  · rw [records_append, List.append_assoc]
    rfl
  · rw [shed.ctl, Per8.get_set_same]
    rfl

/-! ## Entry to ARMING at a boundary (R5) -/

/-- Where staging has room for them, these records are the first that the event hands over. -/
def Begins (s t : State) (l : List Body) : Prop :=
  s.writer.staging.length + l.length ≤ 16 →
    s.writer.staging.map Record.body ++ l <+: t.writer.staging.map Record.body

theorem Hands.begins {s t u : State} {l : List Body} (h : Hands s t l) (grows : t.writer.staging <+: u.writer.staging) :
    Begins s u l := fun room => h.all room ▸ grows.map Record.body

/-- What an entry to ARMING leaves, where MALMn does not take the feeder on to FAULT, and where it does. -/
structure Armed (s m t : State) (f : Fid) (r : Reason) (log : List LogItem) : Prop where
  silence : (t.monitors.get f).silence = some m.settings.silenceLimit
  ctl : t.ctl.get f = if m.malm.get f = true then
      { (m.ctl.get f).armed r with state := .fault, reason := .alarm, sag := none, episode := none }
    else (m.ctl.get f).armed r
  committed : (t.stagers.get f).committed = (m.stagers.get f).committed
  calm : m.malm.get f = false → Logs f s t (log ++ .record (.feederState f (m.ctl.get f).state .arming r) ::
    endings .none (m.stagers.get f).committed (endAll .late (m.passed f)))
  alarmed : m.malm.get f = true → Begins s t (logBodies f (s.trackers.get f).hc (s.stagers.get f).number log ++
    [.feederState f (m.ctl.get f).state .arming r, .feederState f .arming .fault .alarm])

theorem Logs.beginArming {f : Fid} {s m : State} {log : List LogItem} (h : Logs f s m log) (r : Reason) :
    Logs f s (m.beginArming f r) (log ++ [.record (.feederState f (m.ctl.get f).state .arming r)]) :=
  (h.setState .arming r |>.putCtl f _).putMonitor f _

theorem enterArming_armed {f : Fid} {s m : State} {log : List LogItem} (h : Logs f s m log) (r : Reason) :
    Armed s m ((m.enterArming f r).endLate f) f r log := by
  have begun := h.beginArming r
  have steady := State.endLate_steady (m.enterArming f r) f
  have passed : (m.beginArming f r).passed f = m.passed f := by
    unfold State.passed
    rw [State.beginArming_stagers, State.beginArming_trackers]
  by_cases alarm : m.malm.get f = true
  · have enters : m.enterArming f r = (m.beginArming f r).enterFault f .alarm := by
      rw [State.enterArming_eq, if_pos alarm]
    constructor
    case silence =>
      rw [steady.monitors, enters, State.enterFault_monitors, State.beginArming_monitors, Per8.get_set_same]
    case ctl =>
      rw [State.endLate_ctl, enters, State.enterFault_ctl, Per8.get_set_same, State.beginArming_ctl, Per8.get_set_same,
        if_pos alarm]
      rfl
    case committed =>
      have bare := State.enterFault_bare (m.beginArming f r) f .alarm
      rw [State.beginArming_stagers] at bare
      rw [State.endLate_get_committed, enters]
      exact (congrArg Stager.committed bare :)
    case calm => exact fun calm => absurd (alarm.symm.trans calm) (by decide)
    case alarmed =>
      intro _
      have fault := begun.setState .fault .alarm
      have all := fault.hands
      have grows : ((m.beginArming f r).setState f .fault .alarm).writer.staging <+:
          ((m.enterArming f r).endLate f).writer.staging := by
        rw [enters]
        exact (((Logs.refl f _).putCtl f _).standDown .fault .fault).endLate.hands.grows
      rw [State.beginArming_ctl, Per8.get_set_same] at all
      have := all.begins grows
      simpa [logBodies_append, FeederCtl.armed, logBodies] using this
  · have enters : m.enterArming f r = m.beginArming f r := by rw [State.enterArming_eq, if_neg alarm]
    constructor
    case silence => rw [steady.monitors, enters, State.beginArming_monitors, Per8.get_set_same]
    case ctl => rw [State.endLate_ctl, enters, State.beginArming_ctl, Per8.get_set_same, if_neg alarm]
    case committed => rw [State.endLate_get_committed, enters, State.beginArming_stagers]
    case calm =>
      intro _
      rw [enters]
      refine begun.endLate.of_eq ?_
      rw [passed, State.beginArming_ctl, Per8.get_set_same, State.beginArming_stagers, List.append_assoc]
      rfl
    case alarmed => exact fun h => absurd h alarm

end Sys2Proof.Machine
end

section
namespace Sys2Proof.Machine

/-! ## Requests placed at a boundary (R9, R11, R116) -/

/-- A controller whose open sag record takes CLAMPED seen (R12, R103). -/
def FeederCtl.clamped (b : FeederCtl) (on : Bool) : FeederCtl :=
  { b with sag := b.sag.map fun x => { x with clampedSeen := x.clampedSeen || on } }

@[simp] theorem FeederCtl.clamped_false (b : FeederCtl) : b.clamped false = b := by
  simp [FeederCtl.clamped]

theorem FeederCtl.clamped_true (b : FeederCtl) :
    b.clamped true = { b with sag := b.sag.map fun x => { x with clampedSeen := true } } := by
  simp [FeederCtl.clamped]

/-- From `s` to `m` feeder `f` has handed over the records `l` and then ended `xs`, and its controller is `b`; what its next
request turns on is the same. -/
structure Underway (f : Fid) (s m : State) (l : List Body) (xs : List Ending) (b : FeederCtl) : Prop where
  log : Logs f s m (records l ++ endings b.source (s.stagers.get f).committed xs)
  ctl : m.ctl.get f = b
  inSlot : (m.stagers.get f).inSlot = (s.stagers.get f).inSlot
  committed : (m.stagers.get f).committed = (s.stagers.get f).committed
  trackers : m.trackers = s.trackers
  table : m.table = s.table

theorem Reached.underway {f : Fid} {s m : State} {l : List Body} {b : FeederCtl} (h : Reached f s m l b) :
    Underway f s m l [] b where
  log := h.log.of_eq (List.append_nil _).symm
  ctl := h.ctl
  inSlot := by rw [h.stagers]
  committed := by rw [h.stagers]
  trackers := h.trackers
  table := h.table

namespace Underway

variable {f : Fid} {s m : State} {l : List Body} {xs : List Ending} {b : FeederCtl}

theorem asked {t : State} (h : Underway f s m l xs b) (moves : Moves m t) (ask : AccountOnly m t) :
    Underway f s t l xs b where
  log := h.log.asked moves ask
  ctl := by rw [ask.ctl, h.ctl]
  inSlot := by rw [ask.stagers, h.inSlot]
  committed := by rw [ask.stagers, h.committed]
  trackers := ask.trackers.trans h.trackers
  table := ask.table.trans h.table

/-- A change of the controller that keeps the source, or comes before any result. -/
theorem putCtl (h : Underway f s m l xs b) (b' : FeederCtl) (source : xs = [] ∨ b'.source = b.source) :
    Underway f s (m.putCtl f b') l xs b' where
  log := by
    rcases source with rfl | source
    · exact h.log.putCtl f b'
    · exact source ▸ h.log.putCtl f b'
  ctl := by simp
  inSlot := by simpa using h.inSlot
  committed := by simpa using h.committed
  trackers := by simpa using h.trackers
  table := by simpa using h.table

theorem setState (h : Underway f s m l [] b) (new : FeederState) (r : Reason) :
    Underway f s (m.setState f new r) (l ++ [.feederState f b.state new r]) [] { b with state := new, reason := r } where
  log := by
    rw [← h.ctl]
    exact (h.log.setState new r).of_eq (by simp [records])
  ctl := by simp [h.ctl]
  inSlot := by simpa using h.inSlot
  committed := by simpa using h.committed
  trackers := by simpa using h.trackers
  table := by simpa using h.table

theorem takeRecord (h : Underway f s m l xs b) (r : Accepted) :
    Underway f s (m.takeRecord f r) l xs (b.clamped r.clamped) := by
  have taken : Underway f s (m.takePending f) l xs b :=
    ⟨h.log.putStager f _ rfl rfl, h.ctl, by simpa [State.takePending, State.putStager] using h.inSlot,
      by simpa [State.takePending, State.putStager] using h.committed, h.trackers, h.table⟩
  unfold State.takeRecord
  dsimp only
  cases clamped : r.clamped with
  | false =>
    rw [if_neg (by decide), FeederCtl.clamped_false]
    exact taken
  | true =>
    rw [if_pos rfl, FeederCtl.clamped_true, ← h.ctl]
    exact taken.putCtl _ (.inr (congrArg FeederCtl.source h.ctl :))

theorem endPending (h : Underway f s m l xs b) (code : ResultCode) :
    Underway f s (m.endPending f code) l (xs ++ endAll code (m.stagers.get f).pending.toList) b where
  log := (h.log.endPending code).of_eq (by rw [h.ctl, h.committed, List.append_assoc, endings_append])
  ctl := by simp [h.ctl]
  inSlot := by simp [h.inSlot]
  committed := by simp [h.committed]
  trackers := by simp [h.trackers]
  table := by simp [h.table]

/-- The last request of a boundary is placed, and the late record ends. -/
theorem engages (h : Underway f s m l xs b) (ref : Reference) (source : Source) (record : Option Accepted) :
    let t := (m.placeEngage f ref source record).endLate f
    Placed t f (.engage ref (s.trackers.get f).hc source (s.entry f).rehearsal record) ∧ t.account = m.account ∧
      t.ctl.get f = b ∧ ((m.stagers.get f).pending = none → (t.stagers.get f).pending = none) ∧
      Made s t f l (xs ++ (s.stagers.get f).replaced ++ endAll .late (m.passed f)) := by
  intro t
  have entry : m.entry = s.entry := by
    funext g
    unfold State.entry
    rw [h.table]
  generalize hr : Request.engage ref (s.trackers.get f).hc source (s.entry f).rehearsal record = r
  have yields : m.yields f r = false := by rw [← hr]; rfl
  have same : t = (m.placeRequest f r).endLate f := by rw [← hr, ← entry, ← h.trackers]; rfl
  have placed := State.placeRequest_placed m f r yields
  have passed : (m.placeRequest f r).passed f = m.passed f := by
    unfold State.passed
    rw [State.placeRequest_pending, State.placeRequest_trackers]
  have log := (h.log.placeRequest r yields).endLate
  rw [State.placeRequest_ctl, State.placeRequest_committed, passed, h.ctl, h.committed, h.inSlot, ← same] at log
  have ctl : t.ctl.get f = b := by rw [same, State.endLate_ctl, State.placeRequest_ctl, h.ctl]
  refine ⟨?_, ?_, ctl, fun gone => ?_, ?_⟩
  · unfold Placed at placed ⊢
    rwa [same, State.endLate_link]
  · rw [same, State.endLate_account, State.placeRequest_account]
  · rw [← State.placeRequest_pending m f r] at gone
    rw [same, State.endLate_of_none gone, gone]
  · refine Logs.made_of (source := b.source) (page := (s.stagers.get f).committed) (log.of_eq ?_) (by rw [ctl]) ?_
    · rw [endings_append, endings_append]
      simp only [List.append_assoc]
      rfl
    · rw [same, State.endLate_get_committed, State.placeRequest_committed, h.committed]

end Underway

theorem passed_takeRecord (m : State) (f : Fid) (r : Accepted) : ((m.takeRecord f r).stagers.get f).pending = none := by
  unfold State.takeRecord
  dsimp only
  split <;> simp [State.takePending, State.putStager, State.onSag]

/-! ## The ride entry (R9) -/

/-- The latest result is of this record, with this code. -/
def EndedAs (t : State) (f : Fid) (r : Accepted) (code : ResultCode) : Prop :=
  (t.stagers.get f).latest.map (fun x => (x.code, x.ident)) = some (code, some ⟨r.seq, r.target⟩)

theorem Made.endedAs {s t : State} {f : Fid} {l : List Body} {xs : List Ending} {code : ResultCode} {r : Accepted}
    (h : Made s t f l (xs ++ endAll code [r])) : EndedAs t f r code := by
  obtain ⟨⟨-, latest, -⟩, -⟩ := h
  unfold EndedAs
  rw [latest]
  simp [endResults, endAll, List.zipIdx_append]

/-- The ride entry with this reference (R9): the feeder rides, or is shed. -/
def Enters (s t : State) (f : Fid) (l : List Body) (b : FeederCtl) (ref : Reference) (source : Source)
    (record : Option Accepted) (on : Bool) : Prop :=
  let ask := s.requestEntry f (s.cost f ref * (s.entry f).rideLimit)
  let replaced := (s.stagers.get f).replaced
  (ask.2 = true → t.account = ask.1.account ∧
    Placed t f (.engage ref (s.trackers.get f).hc source (s.entry f).rehearsal record) ∧
    (record ≠ none → (t.stagers.get f).pending = none) ∧
    t.ctl.get f = { b.clamped on with state := .ride, reason := .admitted, lastRef := ref } ∧
    Made s t f (l ++ [.feederState f b.state .ride .admitted])
      (if record.isSome then replaced else replaced ++ endAll .late (s.passed f))) ∧
  (ask.2 = false →
    Sheds s t f l (b.clamped (on && record.isNone)) .noEnergy (if record.isSome then .refusedEnergy else .notRiding) ∧
      ∀ r, record = some r → EndedAs t f r .refusedEnergy)

theorem Reached.rideBegun {f : Fid} {s m : State} {l : List Body} {b : FeederCtl} (h : Underway f s m l [] b)
    (ref : Reference) :
    Underway f s (m.rideBegun f ref) (l ++ [.feederState f b.state .ride .admitted]) []
      { b with state := .ride, reason := .admitted, lastRef := ref } := by
  unfold State.rideBegun
  have entered := h.setState .ride .admitted
  rw [entered.ctl]
  exact entered.putCtl _ (.inl rfl)

theorem Reached.accounts {f : Fid} {s m : State} {l : List Body} {b : FeederCtl} (h : Reached f s m l b)
    (ref : Reference) :
    let ask := s.requestEntry f (s.cost f ref * (s.entry f).rideLimit)
    let asked := m.requestEntry f (m.cost f ref * (m.entry f).rideLimit)
    asked.2 = ask.2 ∧ asked.1.account = ask.1.account := by
  obtain ⟨answer, like⟩ := h.accountLike.requestEntry f (s.cost f ref * (s.entry f).rideLimit)
  dsimp only
  rw [h.accountLike.cost, h.entry]
  exact ⟨answer, like.account⟩

/-- The entry with the record that is due. -/
theorem Reached.enters_record {f : Fid} {s m : State} {l : List Body} {b : FeederCtl} (h : Reached f s m l b)
    {r : Accepted} (pending : (s.stagers.get f).pending = some r) :
    Enters s ((m.tryEntry f r.ref .record (some r)).endLate f) f l b r.ref .record (some r) r.clamped := by
  obtain ⟨answer, account⟩ := h.accounts r.ref
  rw [State.tryEntry_eq]
  dsimp only at answer account ⊢
  refine ⟨fun granted => ?_, fun refused => ?_⟩
  · rw [if_pos (answer.trans granted)]
    have begun := (Reached.rideBegun (h.underway.asked (State.requestEntry_moves m f _ .refl)
      (requestEntry_accountOnly m f (m.cost f r.ref * (m.entry f).rideLimit))) r.ref).takeRecord r
    obtain ⟨placed, kept, ctl, none, made⟩ := begun.engages r.ref .record (some r)
    have gone := passed_takeRecord ((m.requestEntry f (m.cost f r.ref * (m.entry f).rideLimit)).1.rideBegun f r.ref) f r
    rw [State.passed_of_none gone] at made
    refine ⟨?_, placed, fun _ => none gone, ctl, ?_⟩
    · rw [← account]
      refine kept.trans ?_
      unfold State.takeRecord
      dsimp only
      split <;> simp [State.takePending, State.putStager, State.onSag, State.rideBegun]
    · rw [List.nil_append, show endAll .late [] = [] from rfl, List.append_nil] at made
      exact made
  · rw [if_neg (by rw [answer, refused]; decide), requestEntry_refused m f _ (answer.trans refused)]
    have shed := h.sheds .noEnergy .refusedEnergy
    refine ⟨by simpa using shed, fun r' e => ?_⟩
    cases e
    obtain ⟨-, -, -, -, made⟩ := shed
    unfold Stager.shedEnds at made
    rw [pending] at made
    exact made.endedAs

/-- The entry without a record. -/
theorem Reached.enters_autofill {f : Fid} {s m : State} {l : List Body} {b b' : FeederCtl} {on : Bool}
    (h : Reached f s m l b') (clamped : b' = b.clamped on) (ref : Reference) (source : Source) :
    Enters s ((m.tryEntry f ref source none).endLate f) f l b ref source none on := by
  obtain ⟨answer, account⟩ := h.accounts ref
  rw [State.tryEntry_eq]
  dsimp only at answer account ⊢
  refine ⟨fun granted => ?_, fun refused => ?_⟩
  · rw [if_pos (answer.trans granted)]
    have begun := Reached.rideBegun (h.underway.asked (State.requestEntry_moves m f _ .refl)
      (requestEntry_accountOnly m f (m.cost f ref * (m.entry f).rideLimit))) ref
    obtain ⟨placed, kept, ctl, -, made⟩ := begun.engages ref source none
    have ask := requestEntry_accountOnly m f (m.cost f ref * (m.entry f).rideLimit)
    have passed : ((m.requestEntry f (m.cost f ref * (m.entry f).rideLimit)).1.rideBegun f ref).passed f = s.passed f := by
      rw [← h.passed]
      unfold State.passed
      simp [State.rideBegun, ask.stagers, ask.trackers]
    rw [passed] at made
    refine ⟨?_, placed, fun some => absurd rfl some, by rw [← clamped]; exact ctl, ?_⟩
    · rw [← account]
      exact kept.trans (by simp [State.rideBegun])
    · have state : b'.state = b.state := by rw [clamped]; rfl
      rw [state, List.nil_append] at made
      exact made
  · rw [if_neg (by rw [answer, refused]; decide), requestEntry_refused m f _ (answer.trans refused)]
    exact ⟨by simpa [clamped] using h.sheds .noEnergy .notRiding, fun _ e => nomatch e⟩

end Sys2Proof.Machine
end

section
namespace Sys2Proof.Machine

/-! ## The ride decision (R9, R12) -/

/-- The autofill reference is formed from the controller's last valid residuals (R12). -/
theorem Reached.formAutofill {f : Fid} {s m : State} {l : List Body} {b : FeederCtl} (h : Reached f s m l b) :
    Reached f s (m.formAutofill f).1 l (b.clamped (autofillClamped (s.entry f).injectionLimit b.lastResiduals)) ∧
      (m.formAutofill f).2 = autofill (s.entry f).injectionLimit b.lastResiduals := by
  unfold State.formAutofill
  dsimp only
  rw [h.ctl, h.entry]
  refine ⟨?_, rfl⟩
  cases clamped : autofillClamped (s.entry f).injectionLimit b.lastResiduals with
  | false =>
    rw [if_neg (by decide), FeederCtl.clamped_false]
    exact h
  | true =>
    rw [if_pos rfl, FeederCtl.clamped_true]
    unfold State.onSag
    rw [h.ctl]
    exact h.putCtl _

/-- Time-to-trip is within the lead (R67). -/
def Near (s : State) (ttt : Option Nat) : Prop := ∃ n, ttt = some n ∧ n ≤ s.settings.lead

theorem withinLead_iff (s : State) (ttt : Option Nat) : withinLead ttt s.settings.lead = true ↔ Near s ttt := by
  cases ttt with
  | none => exact ⟨fun h => (nomatch h), fun ⟨_, h, _⟩ => (nomatch h)⟩
  | some n =>
    refine ⟨fun h => ⟨n, rfl, of_decide_eq_true h⟩, fun ⟨k, h, le⟩ => ?_⟩
    cases h
    exact decide_eq_true le

/-- No pending record is for the half-cycle that begins. -/
def NoRecord (s : State) (f : Fid) : Prop :=
  ∀ r, (s.stagers.get f).pending = some r → r.target ≠ (s.trackers.get f).hc

theorem offered_some {s : State} {f : Fid} {r : Accepted} (pending : (s.stagers.get f).pending = some r)
    (due : r.target = (s.trackers.get f).hc) : s.offered f = some r := by
  simp [State.offered, pending, due]

theorem offered_none {s : State} {f : Fid} (h : NoRecord s f) : s.offered f = none := by
  unfold State.offered
  cases pending : (s.stagers.get f).pending with
  | none => rfl
  | some r => simpa using h r pending

/-- The ride decision of a feeder in a continuing sag (R9, R67). -/
def Decides (s t : State) (f : Fid) (l : List Body) (b : FeederCtl) (ttt : Option Nat) : Prop :=
  let e := s.entry f
  (∀ r, (s.stagers.get f).pending = some r → r.target = (s.trackers.get f).hc →
    Enters s t f l b r.ref .record (some r) r.clamped) ∧
  (NoRecord s f → e.autofill = true → Near s ttt →
    Enters s t f l b (autofill e.injectionLimit b.lastResiduals) .autofill none
      (autofillClamped e.injectionLimit b.lastResiduals)) ∧
  (NoRecord s f → e.autofill = false ∨ ¬ Near s ttt → Rests s t f l b)

theorem rideDecision_offered {m : State} {f : Fid} {r : Accepted} (h : m.offered f = some r) :
    m.rideDecision f = m.tryEntry f r.ref .record (some r) := by
  simp [State.rideDecision, h]

theorem rideDecision_none {m : State} {f : Fid} (h : m.offered f = none) :
    m.rideDecision f =
      if (m.entry f).autofill && withinLead (m.evals.get f).ttt m.settings.lead then
        (m.formAutofill f).1.tryEntry f (m.formAutofill f).2 .autofill none
      else m := by
  simp [State.rideDecision, h]

theorem Reached.decides {f : Fid} {s m : State} {l : List Body} {b : FeederCtl} (h : Reached f s m l b) :
    Decides s ((m.rideDecision f).endLate f) f l b (m.evals.get f).ttt := by
  refine ⟨fun r pending due => ?_, fun none auto near => ?_, fun none other => ?_⟩
  · rw [rideDecision_offered (h.offered.trans (offered_some pending due))]
    exact h.enters_record pending
  · have fills : ((m.entry f).autofill && withinLead (m.evals.get f).ttt m.settings.lead) = true := by
      rw [h.entry, h.settings, auto, (withinLead_iff s _).2 near]
      rfl
    rw [rideDecision_none (h.offered.trans (offered_none none)), if_pos fills]
    obtain ⟨formed, ref⟩ := h.formAutofill
    rw [ref]
    exact formed.enters_autofill rfl _ .autofill
  · have stays : ((m.entry f).autofill && withinLead (m.evals.get f).ttt m.settings.lead) = false := by
      rw [h.entry, h.settings, Bool.and_eq_false_iff, ← Bool.not_eq_true (withinLead _ _), withinLead_iff]
      exact other
    rw [rideDecision_none (h.offered.trans (offered_none none)), if_neg (by rw [stays]; decide)]
    exact h.rests

/-! ## The choice in a ride (R11) -/

/-- HOLD: the last reference repeated, the account as it was. -/
def Holds (s t : State) (f : Fid) : Prop :=
  Placed t f (.engage (s.ctl.get f).lastRef (s.trackers.get f).hc .hold (s.entry f).rehearsal none) ∧
    t.account = s.account

/-- The choice of the reference in a continuing ride (R11, R80). -/
def Chooses (s t : State) (f : Fid) (b : FeederCtl) : Prop :=
  let c := s.ctl.get f
  let e := s.entry f
  let need := fun ref : Reference => s.cost f ref * (e.rideLimit - c.rode)
  let engages := fun (ref : Reference) (source : Source) (record : Option Accepted) =>
    Placed t f (.engage ref (s.trackers.get f).hc source e.rehearsal record)
  let fill := autofill e.injectionLimit b.lastResiduals
  let replaced := (s.stagers.get f).replaced
  let late := endAll .late (s.passed f)
  (∀ r, (s.stagers.get f).pending = some r → r.target = (s.trackers.get f).hc →
    let ask := s.requestRide f (need r.ref)
    (t.stagers.get f).pending = none ∧
      (ask.2 = true → t.account = ask.1.account ∧ engages r.ref .record (some r) ∧
        t.ctl.get f = b.clamped r.clamped ∧ Made s t f [] replaced) ∧
      (ask.2 = false → Holds s t f ∧ t.ctl.get f = b ∧ Made s t f [] (endAll .refusedEnergy [r] ++ replaced))) ∧
  (NoRecord s f → e.autofill = true →
    let ask := s.requestRide f (need fill)
    t.ctl.get f = b.clamped (autofillClamped e.injectionLimit b.lastResiduals) ∧ Made s t f [] (replaced ++ late) ∧
      (ask.2 = true → t.account = ask.1.account ∧ engages fill .autofill none) ∧ (ask.2 = false → Holds s t f)) ∧
  (NoRecord s f → e.autofill = false → Holds s t f ∧ t.ctl.get f = b ∧ Made s t f [] (replaced ++ late))

/-- What a ride needs of the account, put to it. -/
theorem Reached.rideAccounts {f : Fid} {s m : State} {l : List Body} {b : FeederCtl} (h : Reached f s m l b)
    (rode : b.rode = (s.ctl.get f).rode) (ref : Reference) :
    let ask := s.requestRide f (s.cost f ref * ((s.entry f).rideLimit - (s.ctl.get f).rode))
    let asked := m.requestRide f (m.rideNeed f ref)
    asked.2 = ask.2 ∧ asked.1.account = ask.1.account := by
  obtain ⟨answer, like⟩ := h.accountLike.requestRide f (s.cost f ref * ((s.entry f).rideLimit - (s.ctl.get f).rode))
  unfold State.rideNeed
  dsimp only
  rw [h.accountLike.cost, h.entry, h.ctl, rode]
  exact ⟨answer, like.account⟩

theorem Underway.holds {f : Fid} {s m : State} {l : List Body} {xs : List Ending} {b : FeederCtl}
    (h : Underway f s m l xs b) (lastRef : b.lastRef = (s.ctl.get f).lastRef) (account : m.account = s.account) :
    let t := (m.hold f).endLate f
    Holds s t f ∧ t.ctl.get f = b ∧ ((m.stagers.get f).pending = none → (t.stagers.get f).pending = none) ∧
      Made s t f l (xs ++ (s.stagers.get f).replaced ++ endAll .late (m.passed f)) := by
  obtain ⟨placed, kept, ctl, none, made⟩ := h.engages b.lastRef .hold none
  unfold State.hold
  rw [h.ctl]
  rw [lastRef] at placed kept ctl none made ⊢
  exact ⟨⟨placed, kept.trans account⟩, ctl, none, made⟩

theorem takeRecord_account (m : State) (f : Fid) (r : Accepted) : (m.takeRecord f r).account = m.account := by
  unfold State.takeRecord
  dsimp only
  split <;> simp [State.takePending, State.putStager, State.onSag]

theorem Reached.chooses_record {f : Fid} {s m : State} {b : FeederCtl} (h : Reached f s m [] b)
    (rode : b.rode = (s.ctl.get f).rode) (lastRef : b.lastRef = (s.ctl.get f).lastRef) {r : Accepted}
    (pending : (s.stagers.get f).pending = some r) (due : r.target = (s.trackers.get f).hc) :
    let t := (m.chooseReference f).endLate f
    let ask := s.requestRide f (s.cost f r.ref * ((s.entry f).rideLimit - (s.ctl.get f).rode))
    (t.stagers.get f).pending = none ∧
      (ask.2 = true → t.account = ask.1.account ∧
        Placed t f (.engage r.ref (s.trackers.get f).hc .record (s.entry f).rehearsal (some r)) ∧
        t.ctl.get f = b.clamped r.clamped ∧ Made s t f [] (s.stagers.get f).replaced) ∧
      (ask.2 = false → Holds s t f ∧ t.ctl.get f = b ∧
        Made s t f [] (endAll .refusedEnergy [r] ++ (s.stagers.get f).replaced)) := by
  obtain ⟨answer, account⟩ := h.rideAccounts rode r.ref
  have offered := h.offered.trans (offered_some pending due)
  dsimp only at answer account ⊢
  cases granted : (m.requestRide f (m.rideNeed f r.ref)).2 with
  | true =>
    have ends : m.chooseReference f =
        ((m.requestRide f (m.rideNeed f r.ref)).1.takeRecord f r).placeEngage f r.ref .record (some r) := by
      simp [State.chooseReference, offered, granted]
    have taken := (h.underway.asked (State.requestRide_moves m f _ .refl)
      (requestRide_accountOnly m f (m.rideNeed f r.ref))).takeRecord r
    obtain ⟨placed, kept, ctl, none, made⟩ := taken.engages r.ref .record (some r)
    have gone := passed_takeRecord (m.requestRide f (m.rideNeed f r.ref)).1 f r
    rw [← ends] at placed kept ctl none made
    rw [State.passed_of_none gone, List.nil_append, show endAll .late [] = [] from rfl, List.append_nil] at made
    refine ⟨none gone, fun _ => ⟨?_, placed, ctl, made⟩, fun refused => ?_⟩
    · rw [kept, takeRecord_account, account]
    · rw [← answer, granted] at refused
      cases refused
  | false =>
    have ends : m.chooseReference f = (m.endPending f .refusedEnergy).hold f := by
      simp [State.chooseReference, offered, granted, requestRide_refused m f _ granted]
    have ended := h.underway.endPending .refusedEnergy
    obtain ⟨holds, ctl, none, made⟩ := ended.holds lastRef (by rw [State.endPending_account, h.account])
    have gone : ((m.endPending f .refusedEnergy).stagers.get f).pending = Option.none := by simp
    rw [← ends] at holds ctl none made
    rw [State.passed_of_none gone, List.nil_append, h.stagers, pending] at made
    refine ⟨none gone, fun given => ?_, fun _ => ⟨holds, ctl, ?_⟩⟩
    · rw [← answer, granted] at given
      cases given
    · rw [show endAll .late [] = [] from rfl, List.append_nil] at made
      exact made

theorem Reached.chooses {f : Fid} {s m : State} {b : FeederCtl} (h : Reached f s m [] b)
    (rode : b.rode = (s.ctl.get f).rode) (lastRef : b.lastRef = (s.ctl.get f).lastRef) :
    Chooses s ((m.chooseReference f).endLate f) f b := by
  refine ⟨fun r pending due => h.chooses_record rode lastRef pending due, fun none auto => ?_, fun none manual => ?_⟩
  · obtain ⟨formed, ref⟩ := h.formAutofill
    obtain ⟨answer, account⟩ := formed.rideAccounts rode (autofill (s.entry f).injectionLimit b.lastResiduals)
    have offered := h.offered.trans (offered_none none)
    have auto : (m.entry f).autofill = true := by rw [h.entry, auto]
    have passed := formed.passed
    generalize hn : (m.formAutofill f).1 = n at formed answer account passed
    generalize autofill (s.entry f).injectionLimit b.lastResiduals = fill at ref answer account ⊢
    dsimp only at answer account ⊢
    have asked := requestRide_accountOnly n f (n.rideNeed f fill)
    have underway := formed.underway.asked (State.requestRide_moves n f (n.rideNeed f fill) .refl) asked
    have passed : (n.requestRide f (n.rideNeed f fill)).1.passed f = s.passed f := by
      rw [← passed]
      unfold State.passed
      rw [asked.stagers, asked.trackers]
    cases granted : (n.requestRide f (n.rideNeed f fill)).2 with
    | true =>
      have ends : m.chooseReference f =
          (n.requestRide f (n.rideNeed f fill)).1.placeEngage f fill .autofill Option.none := by
        simp [State.chooseReference, offered, auto, hn, ref, granted]
      obtain ⟨placed, kept, ctl, -, made⟩ := underway.engages fill .autofill Option.none
      rw [passed, List.nil_append] at made
      rw [← ends] at placed kept ctl made
      refine ⟨ctl, made, fun _ => ⟨kept.trans account, placed⟩, fun refused => ?_⟩
      rw [← answer, granted] at refused
      cases refused
    | false =>
      have same := requestRide_refused n f _ granted
      have ends : m.chooseReference f = n.hold f := by
        simp [State.chooseReference, offered, auto, hn, ref, granted, same]
      rw [same] at underway passed
      obtain ⟨holds, ctl, -, made⟩ := underway.holds lastRef formed.account
      rw [passed, List.nil_append] at made
      rw [← ends] at holds ctl made
      refine ⟨ctl, made, fun given => ?_, fun _ => holds⟩
      rw [← answer, granted] at given
      cases given
  · have ends : m.chooseReference f = m.hold f := by
      simp [State.chooseReference, h.offered.trans (offered_none none), h.entry, manual]
    obtain ⟨holds, ctl, -, made⟩ := h.underway.holds lastRef h.account
    rw [← ends, h.passed] at made
    rw [← ends] at holds ctl
    exact ⟨holds, ctl, made⟩

end Sys2Proof.Machine
end

section
namespace Sys2Proof.Machine

/-! ## ARMING at a boundary (R6) -/

/-- What an ARMING feeder does with a boundary: it goes to STANDBY, or asks for its unit's status (R6). -/
def ArmingDone (s t : State) (f : Fid) (ready waits : List Body) (b : FeederCtl) : Prop :=
  let hc := (s.trackers.get f).hc
  let late := endAll .late (s.passed f)
  if (s.trackers.get f).sync = .locked ∧ (s.ctl.get f).ready = true then
    Rests s t f ready { b with state := .standby, reason := .ready }
  else
    t.ctl.get f = b ∧ t.account = s.account ∧
      ((∀ r, s.link.slots.get f = some r → ∃ h, r = .statusq h) →
        Placed t f (.statusq hc) ∧ Made s t f waits ((s.stagers.get f).replaced ++ late)) ∧
      (∀ r, s.link.slots.get f = some r → (∀ h, r ≠ .statusq h) → t.link = s.link ∧ Made s t f waits late)

theorem yields_statusq {s : State} {f : Fid} {h : BitVec 8} {r : Request} (slot : s.link.slots.get f = some r)
    (other : ∀ k, r ≠ .statusq k) : s.yields f (.statusq h) = true := by
  cases r with
  | engage => simp [State.yields, slot, Request.keptAgainstStatusq]
  | release => simp [State.yields, slot, Request.keptAgainstStatusq]
  | statusq k => exact absurd rfl (other k)

theorem not_yields_statusq {s : State} {f : Fid} {h : BitVec 8}
    (slot : ∀ r, s.link.slots.get f = some r → ∃ k, r = .statusq k) : s.yields f (.statusq h) = false := by
  cases held : s.link.slots.get f with
  | none => simp [State.yields, held]
  | some r =>
    obtain ⟨k, rfl⟩ := slot r held
    simp [State.yields, held, Request.keptAgainstStatusq]

theorem Reached.waits {f : Fid} {s m : State} {l : List Body} {b : FeederCtl} (h : Reached f s m l b) :
    let t := (m.placeRequest f (.statusq (m.trackers.get f).hc)).endLate f
    t.ctl.get f = b ∧ t.account = s.account ∧
      ((∀ r, s.link.slots.get f = some r → ∃ h, r = .statusq h) →
        Placed t f (.statusq (s.trackers.get f).hc) ∧
          Made s t f l ((s.stagers.get f).replaced ++ endAll .late (s.passed f))) ∧
      (∀ r, s.link.slots.get f = some r → (∀ h, r ≠ .statusq h) →
        t.link = s.link ∧ Made s t f l (endAll .late (s.passed f))) := by
  rw [h.trackers]
  generalize hr : Request.statusq (s.trackers.get f).hc = r
  dsimp only
  refine ⟨by rw [State.endLate_ctl, State.placeRequest_ctl, h.ctl],
    by rw [State.endLate_account, State.placeRequest_account, h.account], fun free => ?_, fun w held kept => ?_⟩
  · have yields : m.yields f r = false := by
      rw [← hr]
      exact not_yields_statusq (by rw [h.link]; exact free)
    have placed := State.placeRequest_placed m f r yields
    have passed : (m.placeRequest f r).passed f = s.passed f := by
      rw [← h.passed]
      unfold State.passed
      rw [State.placeRequest_pending, State.placeRequest_trackers]
    have log := (h.log.placeRequest r yields).endLate
    rw [State.placeRequest_ctl, State.placeRequest_committed, passed, h.ctl, h.stagers] at log
    refine ⟨?_, Logs.made_of (source := b.source) (page := (s.stagers.get f).committed) (log.of_eq ?_) ?_ ?_⟩
    · unfold Placed at placed ⊢
      rwa [State.endLate_link]
    · rw [endings_append]
      simp only [List.append_assoc]
      rfl
    · rw [State.endLate_ctl, State.placeRequest_ctl, h.ctl]
    · rw [State.endLate_get_committed, State.placeRequest_committed, h.stagers]
  · have yields : m.yields f r = true := by
      rw [← hr]
      exact yields_statusq (by rw [h.link]; exact held) kept
    rw [State.placeRequest_of_yields m f r yields]
    obtain ⟨-, -, link, made⟩ := h.rests
    exact ⟨link, made⟩

theorem armingBoundary_eq {f : Fid} {s m : State} {l : List Body} {b : FeederCtl} (h : Reached f s m l b)
    (flag : b.ready = (s.ctl.get f).ready) :
    m.armingBoundary f = if (s.trackers.get f).sync = .locked ∧ (s.ctl.get f).ready = true then m.setState f .standby .ready
      else m.placeRequest f (.statusq (m.trackers.get f).hc) := by
  unfold State.armingBoundary
  rw [h.ctl, h.trackers, flag]

theorem Reached.arming {f : Fid} {s m : State} {l : List Body} {b : FeederCtl} (h : Reached f s m l b)
    (flag : b.ready = (s.ctl.get f).ready) (state : b.state = .arming) :
    ArmingDone s ((m.armingBoundary f).endLate f) f (l ++ [.feederState f .arming .standby .ready]) l b := by
  unfold ArmingDone
  dsimp only
  rw [armingBoundary_eq h flag]
  by_cases ready : (s.trackers.get f).sync = .locked ∧ (s.ctl.get f).ready = true
  · rw [if_pos ready, if_pos ready, ← state]
    exact (h.setState .standby .ready).rests
  · rw [if_neg ready, if_neg ready]
    exact h.waits

/-! ## Entry to ARMING at a boundary (R5) -/

/-- An entry to ARMING with its records, and the entry to FAULT behind it where MALMn is asserted (R5). -/
def Arms (s t : State) (f : Fid) (b : FeederCtl) (reason : Reason) (l before : List Body) : Prop :=
  (t.monitors.get f).silence = some s.settings.silenceLimit ∧ (s.malm.get f = false → recorded s t l) ∧
    (s.malm.get f = true → Begins s t (before ++ [.feederState f .arming .fault .alarm])) ∧
    t.ctl.get f = if s.malm.get f then
      { b.armed reason with state := .fault, reason := .alarm, sag := none, episode := none } else b.armed reason

theorem Reached.arms {f : Fid} {s m : State} {l : List Body} {b : FeederCtl} (h : Reached f s m l b) (r : Reason) :
    let t := (m.enterArming f r).endLate f
    let l := l ++ [.feederState f b.state .arming r]
    Arms s t f b r (l ++ refRecords f (endResults s t f (endAll .late (s.passed f)))) l ∧
      (s.malm.get f = false → resultsMade s t f (endAll .late (s.passed f))) := by
  dsimp only
  have armed := enterArming_armed h.log r
  have made : s.malm.get f = false → Made s ((m.enterArming f r).endLate f) f (l ++ [.feederState f b.state .arming r])
      (endAll .late (s.passed f)) := by
    intro calm
    have log := armed.calm (by rw [h.malm, calm])
    rw [h.ctl, h.stagers, h.passed] at log
    refine Logs.made_of (source := .none) (page := (s.stagers.get f).committed) (log.of_eq ?_) ?_ ?_
    · rw [records_append, List.append_assoc]
      rfl
    · rw [armed.ctl, h.malm, calm]
      rfl
    · rw [armed.committed, h.stagers]
  refine ⟨⟨by rw [armed.silence, h.settings], fun calm => (made calm).2, fun alarm => ?_, ?_⟩, fun calm => (made calm).1⟩
  · have begins := armed.alarmed (by rw [h.malm, alarm])
    rw [h.ctl, logBodies_records] at begins
    rw [List.append_assoc]
    exact begins
  · rw [armed.ctl, h.malm, h.ctl]

/-! ## Onsets (R7, R15, R36) -/

/-- What an onset opens beside the sag record (R36, R65). -/
def Opens (s t : State) (f : Fid) (v : Verdicts) : Prop :=
  t.monitors.get f = { s.monitors.get f with endConfirm := 0 } ∧
    t.evals.get f = (s.evals.get f).openSag (s.curve f) v.residuals.minimum

/-- A controller with a sag record opened and counted (R129, R133). -/
def FeederCtl.onset (b : FeederCtl) (s : State) (f : Fid) (v : Verdicts) : FeederCtl :=
  { b with
    rode := 0, sag := some (SagRecord.opened (s.trackers.get f).hc s.stamp v.residuals v.interruption)
    episode := some (countSag b.episode ((s.trackers.get f).hc - 1#8) s.stamp) }

theorem opens_of_steady {f : Fid} {s m t : State} {v : Verdicts} (monitors : m.monitors = s.monitors)
    (evals : m.evals = s.evals) (table : m.table = s.table)
    (steady : Steady f (m.openSag f v.residuals v.interruption) t) : Opens s t f v := by
  have entry : m.entry = s.entry := by
    funext g
    unfold State.entry
    rw [table]
  have curve : m.curve f = s.curve f := by
    unfold State.curve
    rw [table, entry]
  refine ⟨?_, ?_⟩
  · rw [steady.monitors]
    simp [State.openSag, monitors]
  · have same : ∀ c, (m.putCtl f c).curve f = m.curve f := fun c => by simp [State.curve, State.entry]
    rw [steady.evals, ← curve, ← evals]
    simp [State.openSag, same]

/-- An onset that opens a sag record in STANDBY or RECOVER (R7, R15). -/
def Onset (s t : State) (f : Fid) (v : Verdicts) (l : List Body) (b : FeederCtl) : Prop :=
  let b' := b.onset s f v
  let count := (countSag b.episode ((s.trackers.get f).hc - 1#8) s.stamp).sagCount
  Opens s t f v ∧ (v.interruption = true → Sheds s t f l b' .interruption .notRiding) ∧
    (v.interruption = false → (s.entry f).sagLimit < count → Sheds s t f l b' .episodeLimit .notRiding) ∧
    (v.interruption = false → count ≤ (s.entry f).sagLimit →
      Decides s t f (l ++ [.feederState f b.state .watch .onset]) { b' with state := .watch, reason := .onset }
        ((s.evals.get f).openSag (s.curve f) v.residuals.minimum).ttt)

/-- The three outcomes of an onset in STANDBY or RECOVER. -/
theorem takeOnset_eq {f : Fid} {s m : State} {l : List Body} {b : FeederCtl} {v : Verdicts}
    (h : Reached f s (m.openSag f v.residuals v.interruption) l (b.onset s f v)) :
    m.takeOnset f v =
      let o := m.openSag f v.residuals v.interruption
      if v.interruption then o.enterShed f .interruption .notRiding
      else if (countSag b.episode ((s.trackers.get f).hc - 1#8) s.stamp).sagCount ≤ (s.entry f).sagLimit then
        (o.setState f .watch .onset).rideDecision f
      else o.enterShed f .episodeLimit .notRiding := by
  unfold State.takeOnset
  dsimp only
  rw [h.ctl, h.entry]
  rfl

theorem takeOnset_steady (s : State) (f : Fid) (v : Verdicts) :
    Steady f (s.openSag f v.residuals v.interruption) (s.takeOnset f v) := by
  unfold State.takeOnset
  dsimp only
  split
  · exact State.enterShed_steady _ f _ _
  split
  · exact (State.setState_steady _ f _ _).trans (State.rideDecision_steady _ f)
  · exact State.enterShed_steady _ f _ _

theorem Reached.onset {f : Fid} {s m : State} {l : List Body} {b : FeederCtl} (h : Reached f s m l b) (v : Verdicts)
    (monitors : m.monitors = s.monitors) (evals : m.evals = s.evals) :
    Onset s ((m.takeOnset f v).endLate f) f v l b := by
  have opened := h.openSag v.residuals v.interruption
  change Reached f s _ l (b.onset s f v) at opened
  have opens := opens_of_steady monitors evals h.table ((takeOnset_steady m f v).trans (State.endLate_steady _ f))
  refine ⟨opens, fun interrupted => ?_, fun short many => ?_, fun short few => ?_⟩ <;> rw [takeOnset_eq opened] <;>
    dsimp only
  · rw [if_pos interrupted]
    exact opened.sheds .interruption .notRiding
  · rw [if_neg (by rw [short]; decide), if_neg (Nat.not_le.2 many)]
    exact opened.sheds .episodeLimit .notRiding
  · rw [if_neg (by rw [short]; decide), if_pos few]
    have decides := (opened.setState .watch .onset).decides
    rw [(State.setState_steady _ f _ _).evals] at decides
    have ttt := opens_of_steady monitors evals h.table (.refl f (m.openSag f v.residuals v.interruption))
    rw [ttt.2] at decides
    exact decides

theorem Reached.shedOnset {f : Fid} {s m : State} {l : List Body} {b : FeederCtl} (h : Reached f s m l b) (v : Verdicts)
    (monitors : m.monitors = s.monitors) (evals : m.evals = s.evals) :
    let t := (m.openSag f v.residuals v.interruption).endLate f
    Opens s t f v ∧ Rests s t f l (b.onset s f v) :=
  ⟨opens_of_steady monitors evals h.table (State.endLate_steady _ f), (h.openSag v.residuals v.interruption).rests⟩

/-! ## The end of a sag (R132, R134, R137) -/

/-- A controller whose sag record has closed and whose quiet counter has started. -/
def FeederCtl.ended (b : FeederCtl) (o : SagOutcome) : FeederCtl :=
  { b.sagClosed o with episode := (b.sagClosed o).episode.map fun y => { y with quiet := some 0 } }

theorem Reached.ended {f : Fid} {s m : State} {l : List Body} {b : FeederCtl} (h : Reached f s m l b) (o : SagOutcome) :
    Reached f s ((m.closeSag f o).startQuiet f)
      (l ++ b.sag.toList.map fun x => .sagClosed f { x with outcome := some o }) (b.ended o) := by
  have closed := h.closeSag o
  unfold State.startQuiet
  dsimp only
  rw [closed.ctl]
  exact closed.putCtl _

theorem ended_evals (m : State) (f : Fid) (o : SagOutcome) {x : SagRecord} (sag : (m.ctl.get f).sag = some x) :
    ((m.closeSag f o).startQuiet f).evals.get f = (m.evals.get f).closeSag := by
  unfold State.startQuiet
  rw [State.putCtl_evals, State.closeSag_evals, Per8.get_set_same, sag]
  rfl

theorem Underway.closeSag {f : Fid} {s m : State} {l : List Body} {b : FeederCtl} (h : Underway f s m l [] b)
    (o : SagOutcome) :
    Underway f s (m.closeSag f o) (l ++ b.sag.toList.map fun x => .sagClosed f { x with outcome := some o }) []
      (b.sagClosed o) where
  log := by
    rw [← h.ctl]
    refine (h.log.closeSag o).of_eq ?_
    rw [records_append]
    simp
  ctl := by rw [State.closeSag_ctl, Per8.get_set_same, h.ctl]
  inSlot := by rw [State.closeSag_stagers, h.inSlot]
  committed := by rw [State.closeSag_stagers, h.committed]
  trackers := by rw [State.closeSag_trackers, h.trackers]
  table := by rw [State.closeSag_table, h.table]

theorem Underway.ended {f : Fid} {s m : State} {l : List Body} {b : FeederCtl} (h : Underway f s m l [] b)
    (o : SagOutcome) :
    Underway f s ((m.closeSag f o).startQuiet f)
      (l ++ b.sag.toList.map fun x => .sagClosed f { x with outcome := some o }) [] (b.ended o) := by
  have closed := h.closeSag o
  unfold State.startQuiet
  dsimp only
  rw [closed.ctl]
  exact closed.putCtl _ (.inl rfl)

end Sys2Proof.Machine
end

section
namespace Sys2Proof.Machine

/-! ## A staged record of no result stays as it is -/

theorem Record.settleSource_of_own {r : Record} (own : r.body.own = true) (f : Fid) (source : Source) (page : Page) :
    r.settleSource f source page = r := by
  rw [Record.settleSource_eq, Body.settled_of_own own]

/-- An element that a function leaves alone stays where it is when the function is mapped over a list from `n` on. -/
theorem getElem?_map_from {l : List Record} {i : Nat} {r : Record} {g : Record → Record} (held : l[i]? = some r)
    (same : g r = r) (n : Nat) : (l.take n ++ (l.drop n).map g)[i]? = some r := by
  have bound := (List.getElem?_eq_some_iff.1 held).1
  rw [List.getElem?_append]
  split
  · next early =>
    rw [List.length_take] at early
    rw [List.getElem?_take, if_pos (by omega), held]
  · next late =>
    rw [List.length_take] at late ⊢
    rw [List.getElem?_map, List.getElem?_drop, show n + (i - min n l.length) = i by omega, held, Option.map_some, same]

/-- A record of no result, once in staging, stays there as it is while the feeders' side moves. -/
theorem Move.keepsRecord {s t : State} (h : Move s t) {i : Nat} {r : Record} (own : r.body.own = true)
    (held : s.writer.staging[i]? = some r) : t.writer.staging[i]? = some r := by
  cases h with
  | ctl f c => rwa [State.putCtl_writer_staging]
  | tracker f x => rwa [State.putTracker_writer_staging]
  | eval f x => rwa [State.putEval_writer_staging]
  | lower f r _ => rwa [State.putReserved_writer_staging]
  | grant f d _ =>
    unfold State.grant
    rwa [State.putReserved_writer_staging]
  | usable u _ => rwa [State.putUsable_writer_staging]
  | notice n => exact held
  | monitor f m => exact held
  | stager f g => exact held
  | result f => exact held
  | record b =>
    obtain ⟨rest, grows⟩ := (Hands.handRecord s b).grows
    rw [← grows, List.getElem?_append_left (List.getElem?_eq_some_iff.1 held).1, held]
  | raise c => rwa [State.raise_writer_staging]
  | settle before f =>
    unfold State.settleResults
    dsimp only
    split
    · exact held
    · exact getElem?_map_from held (Record.settleSource_of_own own f _ _) _
  | link l => exact held
  | draws n => exact held

theorem staged_of_moves {s m t : State} {b : Body} (h : staged s m b) (own : b.own = true) (moves : Moves m t) :
    staged s t b := fun room =>
  moves.keeps (p := fun u => u.writer.staging[s.writer.staging.length]? = some _)
    (fun _ _ move held => move.keepsRecord own held) (h room)

/-- The first record of those handed over on the way is staged at the end. -/
theorem Reached.first {f : Fid} {s m t : State} {b : Body} {l : List Body} {c : FeederCtl}
    (h : Reached f s m (b :: l) c) (own : b.own = true) (moves : Moves m t) : staged s t b := by
  have hands := h.log.hands
  rw [logBodies_records] at hands
  exact staged_of_moves (hands.first b rfl) own moves

/-! ## The boundaries that end a sag (R8, R10, R16) -/

/-- What the end of a sag leaves: its record closed and counted in the episode, whose quiet counter starts. -/
def Ended (s t : State) (f : Fid) (v : Verdicts) (base : FeederCtl) (o : SagOutcome) (rank : WorstOutcome) (l : List Body)
    (xs : List Ending) (after : FeederCtl → FeederCtl) : Prop :=
  ∀ x y, (s.ctl.get f).sag = some x → (s.ctl.get f).episode = some y →
    let rank := if x.toleranceExceeded then .tripped else rank
    let closed : Body := .sagClosed f { x.update v with outcome := some o }
    t.evals.get f = (s.evals.get f).closeSag ∧ staged s t closed ∧ Made s t f (closed :: l) xs ∧
      t.ctl.get f = after { base with
        sag := none
        episode := some { y with
          riddenTotal := min 65535 (y.riddenTotal + x.ridden)
          worst := if y.worst.code < rank.code then rank else y.worst, quiet := some 0 } }

/-- The controller for the half-cycle just closed, its episode's quiet counter moved on (R130, R134). -/
def FeederCtl.advanced (c : FeederCtl) (v : Verdicts) : FeederCtl :=
  { c.update v with episode := c.episode.map fun y => { y with quiet := y.quiet.map (· + 1) } }

/-- The rank of a record that closes with this outcome, where no tolerance was exceeded (R137). -/
def SagOutcome.rank : SagOutcome → WorstOutcome
  | .tolerated => .tolerated
  | .protect => .protect
  | .shed => .shed
  | .fault => .shed
  | .off => .shed

theorem SagRecord.rank_closed (x : SagRecord) (o : SagOutcome) :
    ({ x with outcome := some o } : SagRecord).rank = if x.toleranceExceeded then .tripped else o.rank := by
  cases o <;> rfl

theorem FeederCtl.ended_advanced {c : FeederCtl} {v : Verdicts} {x : SagRecord} {y : Episode} (o : SagOutcome)
    (sag : c.sag = some x) (episode : c.episode = some y) :
    let rank := if x.toleranceExceeded then .tripped else o.rank
    (c.advanced v).ended o = { c.advanced v with
      sag := none
      episode := some { y with
        riddenTotal := min 65535 (y.riddenTotal + x.ridden)
        worst := if y.worst.code < rank.code then rank else y.worst, quiet := some 0 } } := by
  have rank := SagRecord.rank_closed (x.update v) o
  simp only [FeederCtl.ended, FeederCtl.sagClosed, FeederCtl.advanced, FeederCtl.update, sag, episode, Option.map_some,
    closedEpisode_some, Episode.addSag, rank]
  rfl

section Ends

variable {f : Fid} {s m : State} {v : Verdicts}

/-- The sag record of the advanced controller, closed. -/
theorem advanced_sagClosed {x : SagRecord} (o : SagOutcome) (sag : (s.ctl.get f).sag = some x) :
    (((s.ctl.get f).advanced v).sag.toList.map fun x => Body.sagClosed f { x with outcome := some o }) =
      [.sagClosed f { x.update v with outcome := some o }] := by
  simp [FeederCtl.advanced, FeederCtl.update, sag]

/-- A sag ends in SHED. -/
theorem Reached.ends_shed (h : Reached f s m [] ((s.ctl.get f).advanced v)) (evals : m.evals = s.evals) :
    let t := ((m.closeSag f .shed).startQuiet f).endLate f
    Ended s t f v ((s.ctl.get f).advanced v) .shed .shed [] (endAll .late (s.passed f)) id ∧ t.account = s.account ∧
      t.link = s.link := by
  have ended := h.ended .shed
  obtain ⟨ctl, account, link, made⟩ := ended.rests
  refine ⟨fun x y sag episode => ?_, account, link⟩
  have held : (m.ctl.get f).sag = some (x.update v) := by rw [h.ctl]; simp [FeederCtl.advanced, FeederCtl.update, sag]
  rw [List.nil_append, advanced_sagClosed .shed sag] at ended made
  refine ⟨?_, ended.first rfl (State.endLate_moves _ f .refl), made, ctl.trans ?_⟩
  · rw [(State.endLate_steady _ f).evals, ended_evals m f .shed held, evals]
  · exact FeederCtl.ended_advanced .shed sag episode

/-- A sag ends in WATCH. -/
theorem Reached.ends_watch (h : Reached f s m [] ((s.ctl.get f).advanced v)) (evals : m.evals = s.evals)
    (state : (s.ctl.get f).state = .watch) :
    let t := ((((m.closeSag f .tolerated).startQuiet f).setState f .standby .sagEnd).endPending f .notRiding).endLate f
    (t.stagers.get f).pending = none ∧ t.account = s.account ∧ t.link = s.link ∧
      Ended s t f v ((s.ctl.get f).advanced v) .tolerated .tolerated [.feederState f .watch .standby .sagEnd]
        (endAll .notRiding (s.stagers.get f).pending.toList) fun b => { b with state := .standby, reason := .sagEnd } := by
  have ended := (h.ended .tolerated).setState .standby .sagEnd
  have steady := State.setState_steady ((m.closeSag f .tolerated).startQuiet f) f .standby .sagEnd
  generalize ((m.closeSag f .tolerated).startQuiet f).setState f .standby .sagEnd = n at ended steady
  have gone : ((n.endPending f .notRiding).stagers.get f).pending = none := by simp
  dsimp only
  rw [State.endLate_of_none gone]
  refine ⟨gone, by simp [ended.account], by simp [ended.link], fun x y sag episode => ?_⟩
  have held : (m.ctl.get f).sag = some (x.update v) := by rw [h.ctl]; simp [FeederCtl.advanced, FeederCtl.update, sag]
  rw [List.nil_append, advanced_sagClosed .tolerated sag] at ended
  have log := (ended.underway.endPending .notRiding).log
  rw [ended.stagers, List.nil_append, show (((s.ctl.get f).advanced v).ended .tolerated).state = .watch from state] at log
  refine ⟨?_, ended.first rfl (State.endPending_moves _ f .notRiding .refl),
    log.made_of (by rw [State.endPending_ctl, ended.ctl]) (by rw [State.endPending_get_committed, ended.stagers]), ?_⟩
  · rw [State.endPending_evals, steady.evals, ended_evals m f .tolerated held, evals]
  · rw [State.endPending_ctl, ended.ctl, FeederCtl.ended_advanced .tolerated sag episode]
    rfl

/-- The energy is released, and the injection stops (R10, R86). -/
theorem Reached.released {l : List Body} {b : FeederCtl} (h : Reached f s m l b) :
    Underway f s ((m.releaseEnergy f).stopSource f) l [] { b with source := .none } := by
  have asked := h.underway.asked (Moves.refl.tail (.lower f 0 (Nat.zero_le _))) (putReserved_accountOnly m f 0)
  have same : (m.releaseEnergy f).ctl.get f = b := asked.ctl
  unfold State.stopSource
  rw [same]
  exact asked.putCtl _ (.inl rfl)

/-- The unit's release is placed, and the pending record ends with the ride. -/
theorem Underway.releases {l : List Body} {b : FeederCtl} (h : Underway f s m l [] b) (stagers : m.stagers = s.stagers) :
    let t := ((m.placeRelease f).endPending f .notRiding).endLate f
    Placed t f (.release (s.trackers.get f).hc) ∧ (t.stagers.get f).pending = none ∧ t.account = m.account ∧
      t.ctl.get f = b ∧ t.evals = m.evals ∧ Made s t f l ((s.stagers.get f).shedEnds .notRiding) := by
  unfold State.placeRelease
  dsimp only
  rw [h.trackers]
  generalize hr : Request.release (s.trackers.get f).hc = r
  have yields : m.yields f r = false := by
    rw [← hr]
    rfl
  have gone : (((m.placeRequest f r).endPending f .notRiding).stagers.get f).pending = none := by simp
  have placed := State.placeRequest_placed m f r yields
  have log := (h.log.placeRequest r yields).endPending .notRiding
  rw [State.placeRequest_ctl, State.placeRequest_committed, State.placeRequest_pending, h.ctl, stagers] at log
  rw [State.endLate_of_none gone]
  refine ⟨?_, gone, by simp, by simp [h.ctl], by simp, ?_⟩
  · unfold Placed at placed ⊢
    rwa [State.endPending_link]
  · refine Logs.made_of (source := b.source) (page := (s.stagers.get f).committed) (log.of_eq ?_) (by simp [h.ctl]) ?_
    · simp [Stager.shedEnds, endings_append]
    · simp [State.placeRequest_committed, stagers]

/-- A sag ends in RIDE: the energy is released, and the unit with it. -/
theorem Reached.ends_ride (h : Reached f s m [] ((s.ctl.get f).advanced v)) (evals : m.evals = s.evals)
    (state : (s.ctl.get f).state = .ride) :
    let ended := ((((m.releaseEnergy f).stopSource f).closeSag f .protect).startQuiet f).setState f .recover .sagEnd
    let t := ((ended.placeRelease f).endPending f .notRiding).endLate f
    t.account = { s.account with reserved := s.account.reserved.set f 0 } ∧
      Placed t f (.release (s.trackers.get f).hc) ∧ (t.stagers.get f).pending = none ∧
      Ended s t f v ((s.ctl.get f).advanced v) .protect .protect [.feederState f .ride .recover .sagEnd]
        ((s.stagers.get f).shedEnds .notRiding)
        fun b => { b with state := .recover, reason := .sagEnd, source := .none } := by
  have released := h.released
  have evals : ((m.releaseEnergy f).stopSource f).evals = s.evals := by
    simp [State.releaseEnergy, State.stopSource, evals]
  have stagers : ((m.releaseEnergy f).stopSource f).stagers = s.stagers := by
    simp [State.releaseEnergy, State.stopSource, h.stagers]
  have account : ((m.releaseEnergy f).stopSource f).account =
      { s.account with reserved := s.account.reserved.set f 0 } := by
    simp [State.releaseEnergy, State.stopSource, h.account]
  generalize (m.releaseEnergy f).stopSource f = n at released evals stagers account
  have ended := (released.ended .protect).setState .recover .sagEnd
  obtain ⟨placed, gone, kept, ctl, same, made⟩ := ended.releases (by simp [State.startQuiet, stagers])
  refine ⟨kept.trans (by simp [State.startQuiet, account]), placed, gone, fun x y sag episode => ?_⟩
  have closed := advanced_sagClosed (v := v) .protect sag
  have held : (n.ctl.get f).sag = some (x.update v) := by
    rw [released.ctl]
    simp [FeederCtl.advanced, FeederCtl.update, sag]
  change Made s _ f ([] ++ (((s.ctl.get f).advanced v).sag.toList.map _) ++ [.feederState f (s.ctl.get f).state _ _]) _
    at made
  rw [closed, state] at made
  refine ⟨?_, ?_, made, ctl.trans ?_⟩
  · rw [same, (State.setState_steady _ f .recover .sagEnd).evals, ended_evals n f .protect held, evals]
  · have hands := ended.log.hands
    rw [logBodies_append, logBodies_records] at hands
    refine staged_of_moves (hands.first _ ?_) rfl (State.endLate_moves _ f (State.endPending_moves _ f _
      (State.placeRequest_moves _ f _ .refl)))
    change (([] ++ (((s.ctl.get f).advanced v).sag.toList.map _) ++ _) ++ _).head? = _
    rw [closed]
    rfl
  · exact congrArg (fun b : FeederCtl => { b with state := .recover, reason := .sagEnd, source := .none })
      (FeederCtl.ended_advanced (v := v) .protect sag episode)

end Ends

end Sys2Proof.Machine
end

section
namespace Sys2Proof.Machine

/-! ## The boundary and its expiry (R54, R134, R135, R136) -/

/-- The controller has been brought up to date for the half-cycle just closed (R130). -/
def State.closedHalf (s : State) (f : Fid) (v : Verdicts) : State := s.putCtl f ((s.ctl.get f).update v)

theorem boundary_live {s : State} {f : Fid} (v : Verdicts) (live : (s.ctl.get f).state ≠ .off) :
    s.boundary f v = ((s.closedHalf f v).verdictsAndQuiet f v).endLate f := by
  unfold State.boundary
  rw [if_neg live]
  rfl

/-- The quiet counter reaches the window at this boundary (R134). -/
def Expires (s : State) (f : Fid) : Prop :=
  ∃ q, (s.ctl.get f).episode.bind Episode.quiet = some q ∧ (s.entry f).window ≤ q + 1

theorem reached_closedHalf (s : State) (f : Fid) (v : Verdicts) :
    Reached f s (s.closedHalf f v) [] ((s.ctl.get f).update v) := (Reached.refl f s).putCtl _

theorem quietExpires_iff (s : State) (f : Fid) (v : Verdicts) :
    (s.closedHalf f v).quietExpires f = true ↔ Expires s f := by
  have reached := reached_closedHalf s f v
  unfold State.quietExpires State.quietCounter Expires
  rw [reached.ctl, reached.entry]
  change (match (s.ctl.get f).episode.bind Episode.quiet with | none => false | some q => _) = true ↔ _
  cases (s.ctl.get f).episode.bind Episode.quiet with
  | none => simp
  | some q => simp

/-- The state in which the verdicts are acted on where nothing expires. -/
def State.advanced (s : State) (f : Fid) (v : Verdicts) : State := (s.closedHalf f v).advanceQuiet f

theorem reached_advanced (s : State) (f : Fid) (v : Verdicts) :
    Reached f s (s.advanced f v) [] ((s.ctl.get f).advanced v) := by
  have reached := reached_closedHalf s f v
  unfold State.advanced State.advanceQuiet
  dsimp only
  rw [reached.ctl]
  exact reached.putCtl _

theorem advanced_steady (s : State) (f : Fid) (v : Verdicts) : Steady f s (s.advanced f v) :=
  (State.putCtl_steady s f _).trans (State.putCtl_steady _ f _)

theorem boundary_running {s : State} {f : Fid} (v : Verdicts) (live : (s.ctl.get f).state ≠ .off)
    (quiet : ¬ Expires s f) : s.boundary f v = ((s.advanced f v).actOn f v).endLate f := by
  rw [boundary_live v live]
  unfold State.verdictsAndQuiet
  rw [if_neg (by rw [quietExpires_iff]; exact quiet)]
  rfl

theorem boundary_expiring {s : State} {f : Fid} {v : Verdicts} (live : (s.ctl.get f).state ≠ .off)
    (expires : Expires s f) (alone : (s.closedHalf f v).expiryMeets f v = false) :
    s.boundary f v = ((s.closedHalf f v).expireThenAct f v).endLate f := by
  rw [boundary_live v live]
  unfold State.verdictsAndQuiet
  rw [if_pos ((quietExpires_iff s f v).2 expires), alone, if_neg (by decide)]

/-- The state in which the order of the expiry and of what it meets has been drawn. -/
def State.drawn (s : State) (f : Fid) (v : Verdicts) : State :=
  { s.closedHalf f v with draws := (s.closedHalf f v).draws + 1 }

theorem reached_drawn (s : State) (f : Fid) (v : Verdicts) : Reached f s (s.drawn f v) [] ((s.ctl.get f).update v) :=
  (reached_closedHalf s f v).withDraws _

theorem boundary_meeting {s : State} {f : Fid} {v : Verdicts} (live : (s.ctl.get f).state ≠ .off)
    (expires : Expires s f) (meets : (s.closedHalf f v).expiryMeets f v = true) :
    s.boundary f v =
      (if Config.expiryFirst s.draws then (s.drawn f v).expireThenAct f v else (s.drawn f v).actThenExpire f v).endLate
        f := by
  have draws : (s.closedHalf f v).draws = s.draws := (State.putCtl_steady s f _).draws
  rw [boundary_live v live]
  unfold State.verdictsAndQuiet
  rw [if_pos ((quietExpires_iff s f v).2 expires), if_pos meets]
  unfold State.drawOrder
  dsimp only
  rw [draws]
  unfold State.drawn
  rw [draws]

/-! ### The steps after the drawing, by the feeder's state -/

theorem actOn_arming {m : State} {f : Fid} (v : Verdicts) (h : (m.ctl.get f).state = .arming) :
    m.actOn f v = m.armingBoundary f := by
  unfold State.actOn
  rw [h]

theorem actOn_standby {m : State} {f : Fid} (v : Verdicts) (h : (m.ctl.get f).state = .standby) :
    m.actOn f v = m.standbyBoundary f v := by
  unfold State.actOn
  rw [h]

theorem actOn_watch {m : State} {f : Fid} (v : Verdicts) (h : (m.ctl.get f).state = .watch) :
    m.actOn f v = m.watchBoundary f v := by
  unfold State.actOn
  rw [h]

theorem actOn_ride {m : State} {f : Fid} (v : Verdicts) (h : (m.ctl.get f).state = .ride) :
    m.actOn f v = m.rideBoundary f v := by
  unfold State.actOn
  rw [h]

theorem actOn_recover {m : State} {f : Fid} (v : Verdicts) (h : (m.ctl.get f).state = .recover) :
    m.actOn f v = m.recoverBoundary f v := by
  unfold State.actOn
  rw [h]

theorem actOn_shed {m : State} {f : Fid} (v : Verdicts) (h : (m.ctl.get f).state = .shed) :
    m.actOn f v = m.shedBoundary f v := by
  unfold State.actOn
  rw [h]

theorem actOn_fault {m : State} {f : Fid} (v : Verdicts) (h : (m.ctl.get f).state = .fault) :
    m.actOn f v = m := by
  unfold State.actOn
  rw [h]

theorem expire_of_shed {m : State} {f : Fid} (h : (m.ctl.get f).state = .shed) :
    m.expire f = (m.closeEpisode f .window).enterArming f .episodeClosed := by
  have state : ((m.closeEpisode f .window).ctl.get f).state = .shed := by
    rw [State.closeEpisode_ctl, Per8.get_set_same, ← h]
  unfold State.expire
  dsimp only
  rw [state]

theorem expire_of_not_shed {m : State} {f : Fid} (h : (m.ctl.get f).state ≠ .shed) :
    m.expire f = m.closeEpisode f .window := by
  have state : ((m.closeEpisode f .window).ctl.get f).state = (m.ctl.get f).state := by
    rw [State.closeEpisode_ctl, Per8.get_set_same]
  unfold State.expire
  dsimp only
  rw [state]
  cases e : (m.ctl.get f).state with
  | shed => exact absurd e h
  | _ => rfl

theorem expireThenAct_of_shed {m : State} {f : Fid} (v : Verdicts) (h : (m.ctl.get f).state = .shed) :
    m.expireThenAct f v = m.expire f := by
  unfold State.expireThenAct
  rw [h]

theorem expireThenAct_of_not_shed {m : State} {f : Fid} (v : Verdicts) (h : (m.ctl.get f).state ≠ .shed) :
    m.expireThenAct f v = (m.closeEpisode f .window).actOn f v := by
  unfold State.expireThenAct
  rw [← expire_of_not_shed h]
  cases e : (m.ctl.get f).state with
  | shed => exact absurd e h
  | _ => rfl

theorem actThenExpire_running {m : State} {f : Fid} {v : Verdicts} (h : ((m.actOn f v).quietCounter f).isSome = true) :
    m.actThenExpire f v = (m.actOn f v).expire f := by
  unfold State.actThenExpire
  rw [if_pos h]

theorem actThenExpire_cancelled {m : State} {f : Fid} {v : Verdicts} (h : (m.actOn f v).quietCounter f = none) :
    m.actThenExpire f v = m.actOn f v := by
  unfold State.actThenExpire
  dsimp only
  rw [h, if_neg (by decide)]

/-! ### The boundary, verdict by verdict -/

section Running

variable {s : State} {f : Fid} {v : Verdicts}

theorem standbyBoundary_onset (m : State) (h : v.onset = true) : m.standbyBoundary f v = m.takeOnset f v := by
  simp [State.standbyBoundary, h]

theorem standbyBoundary_invalid (m : State) (h : v.onset = false) (k : v.invalidLimit = true) :
    m.standbyBoundary f v = m.enterArming f .invalid := by
  simp [State.standbyBoundary, h, k]

theorem standbyBoundary_rests (m : State) (h : v.onset = false) (k : v.invalidLimit = false) :
    m.standbyBoundary f v = m := by
  simp [State.standbyBoundary, h, k]

theorem recoverBoundary_onset (m : State) (h : v.onset = true) : m.recoverBoundary f v = m.takeOnset f v := by
  simp [State.recoverBoundary, h]

theorem recoverBoundary_invalid (m : State) (h : v.onset = false) (k : v.invalidLimit = true) :
    m.recoverBoundary f v = m.enterShed f .samplesInvalid .notRiding := by
  simp [State.recoverBoundary, h, k]

theorem recoverBoundary_rests (m : State) (h : v.onset = false) (k : v.invalidLimit = false) :
    m.recoverBoundary f v = m := by
  simp [State.recoverBoundary, h, k]

end Running

/-- An onset counts the sag alike whether the quiet counter has moved on or not: it cancels it (R133). -/
theorem onset_advanced (s : State) (f : Fid) (v : Verdicts) :
    ((s.ctl.get f).advanced v).onset s f v = ((s.ctl.get f).update v).onset s f v := by
  unfold FeederCtl.onset FeederCtl.advanced FeederCtl.update
  cases (s.ctl.get f).episode <;> rfl

theorem Onset.of_advanced {s t : State} {f : Fid} {v : Verdicts} {l : List Body}
    (h : Onset s t f v l ((s.ctl.get f).advanced v)) : Onset s t f v l ((s.ctl.get f).update v) := by
  have count : countSag ((s.ctl.get f).advanced v).episode ((s.trackers.get f).hc - 1#8) s.stamp =
      countSag ((s.ctl.get f).update v).episode ((s.trackers.get f).hc - 1#8) s.stamp := by
    unfold FeederCtl.advanced FeederCtl.update
    cases (s.ctl.get f).episode <;> rfl
  unfold Onset at h ⊢
  dsimp only at h ⊢
  rwa [onset_advanced, count] at h

end Sys2Proof.Machine
end

section
namespace Sys2Proof.Machine

/-! ## A boundary at which nothing expires -/

section Running

variable {s : State} {f : Fid} {v : Verdicts}

theorem running_arming (quiet : ¬ Expires s f) (state : (s.ctl.get f).state = .arming) :
    ArmingDone s (s.boundary f v) f [.feederState f .arming .standby .ready] [] ((s.ctl.get f).advanced v) := by
  have reached := reached_advanced s f v
  rw [boundary_running v (by simp [state]) quiet, actOn_arming v (by rw [reached.ctl]; exact state)]
  exact reached.arming rfl state

theorem running_fault (quiet : ¬ Expires s f) (state : (s.ctl.get f).state = .fault) :
    Rests s (s.boundary f v) f [] ((s.ctl.get f).advanced v) := by
  have reached := reached_advanced s f v
  rw [boundary_running v (by simp [state]) quiet, actOn_fault v (by rw [reached.ctl]; exact state)]
  exact reached.rests

/-- STANDBY and RECOVER differ at a boundary only where the samples are invalid. -/
theorem actOn_ready {m : State} (state : (m.ctl.get f).state = .standby ∨ (m.ctl.get f).state = .recover) :
    (v.onset = true → m.actOn f v = m.takeOnset f v) ∧
      (v.onset = false → v.invalidLimit = false → m.actOn f v = m) := by
  rcases state with state | state
  · rw [actOn_standby v state]
    exact ⟨standbyBoundary_onset m, standbyBoundary_rests m⟩
  · rw [actOn_recover v state]
    exact ⟨recoverBoundary_onset m, recoverBoundary_rests m⟩

theorem running_ready_onset (quiet : ¬ Expires s f)
    (state : (s.ctl.get f).state = .standby ∨ (s.ctl.get f).state = .recover) (onset : v.onset = true) :
    Onset s (s.boundary f v) f v [] ((s.ctl.get f).update v) := by
  have reached := reached_advanced s f v
  have steady := advanced_steady s f v
  rw [boundary_running v (by rcases state with h | h <;> simp [h]) quiet,
    (actOn_ready (by rw [reached.ctl]; exact state)).1 onset]
  exact (reached.onset v steady.monitors steady.evals).of_advanced

theorem running_ready_rests (quiet : ¬ Expires s f)
    (state : (s.ctl.get f).state = .standby ∨ (s.ctl.get f).state = .recover) (onset : v.onset = false)
    (valid : v.invalidLimit = false) : Rests s (s.boundary f v) f [] ((s.ctl.get f).advanced v) := by
  have reached := reached_advanced s f v
  rw [boundary_running v (by rcases state with h | h <;> simp [h]) quiet,
    (actOn_ready (by rw [reached.ctl]; exact state)).2 onset valid]
  exact reached.rests

theorem running_standby_invalid (quiet : ¬ Expires s f) (state : (s.ctl.get f).state = .standby)
    (onset : v.onset = false) (invalid : v.invalidLimit = true) :
    let t := s.boundary f v
    let l := [Body.feederState f .standby .arming .invalid]
    Arms s t f ((s.ctl.get f).advanced v) .invalid
        (l ++ refRecords f (endResults s t f (endAll .late (s.passed f)))) l ∧
      (s.malm.get f = false → resultsMade s t f (endAll .late (s.passed f))) := by
  have reached := reached_advanced s f v
  dsimp only
  rw [boundary_running v (by simp [state]) quiet, actOn_standby v (by rw [reached.ctl]; exact state),
    standbyBoundary_invalid _ onset invalid, ← state]
  exact reached.arms .invalid

theorem running_recover_invalid (quiet : ¬ Expires s f) (state : (s.ctl.get f).state = .recover)
    (onset : v.onset = false) (invalid : v.invalidLimit = true) :
    Sheds s (s.boundary f v) f [] ((s.ctl.get f).advanced v) .samplesInvalid .notRiding := by
  have reached := reached_advanced s f v
  rw [boundary_running v (by simp [state]) quiet, actOn_recover v (by rw [reached.ctl]; exact state),
    recoverBoundary_invalid _ onset invalid]
  exact reached.sheds .samplesInvalid .notRiding

/-- A controller whose open sag record may take the INTERRUPTION flag (R8, R131). -/
def FeederCtl.interrupted (b : FeederCtl) (v : Verdicts) : FeederCtl :=
  { b with sag := b.sag.map fun x => { x with interruption := x.interruption || v.interruption } }

theorem FeederCtl.interrupted_of_not {b : FeederCtl} (h : v.interruption = false) : b.interrupted v = b := by
  simp [FeederCtl.interrupted, h]

theorem Reached.flagInterruption {m : State} {l : List Body} {b : FeederCtl} (h : Reached f s m l b)
    (interruption : v.interruption = true) : Reached f s (m.flagInterruption f) l (b.interrupted v) := by
  unfold State.flagInterruption State.onSag FeederCtl.interrupted
  simp only [h.ctl, interruption, Bool.or_true]
  exact h.putCtl _

theorem running_shed_onset (quiet : ¬ Expires s f) (state : (s.ctl.get f).state = .shed) (onset : v.onset = true) :
    Opens s (s.boundary f v) f v ∧ Rests s (s.boundary f v) f [] (((s.ctl.get f).update v).onset s f v) := by
  have reached := reached_advanced s f v
  have steady := advanced_steady s f v
  have acts : (s.advanced f v).shedBoundary f v = (s.advanced f v).openSag f v.residuals v.interruption := by
    simp [State.shedBoundary, onset]
  rw [boundary_running v (by simp [state]) quiet, actOn_shed v (by rw [reached.ctl]; exact state), acts,
    ← onset_advanced]
  exact reached.shedOnset v steady.monitors steady.evals

theorem running_shed_ended (quiet : ¬ Expires s f) (state : (s.ctl.get f).state = .shed) (onset : v.onset = false)
    (ended : v.ended = true) :
    Ended s (s.boundary f v) f v ((s.ctl.get f).advanced v) .shed .shed [] (endAll .late (s.passed f)) id ∧
      (s.boundary f v).account = s.account ∧ (s.boundary f v).link = s.link := by
  have reached := reached_advanced s f v
  have acts : (s.advanced f v).shedBoundary f v = ((s.advanced f v).closeSag f .shed).startQuiet f := by
    simp [State.shedBoundary, onset, ended]
  rw [boundary_running v (by simp [state]) quiet, actOn_shed v (by rw [reached.ctl]; exact state), acts]
  exact reached.ends_shed (advanced_steady s f v).evals

theorem running_shed_rests (quiet : ¬ Expires s f) (state : (s.ctl.get f).state = .shed) (onset : v.onset = false)
    (lasts : v.ended = false) : Rests s (s.boundary f v) f [] (((s.ctl.get f).advanced v).interrupted v) := by
  have reached := reached_advanced s f v
  rw [boundary_running v (by simp [state]) quiet, actOn_shed v (by rw [reached.ctl]; exact state)]
  cases interruption : v.interruption with
  | true =>
    have acts : (s.advanced f v).shedBoundary f v = (s.advanced f v).flagInterruption f := by
      simp [State.shedBoundary, onset, lasts, interruption]
    rw [acts]
    exact (reached.flagInterruption interruption).rests
  | false =>
    have acts : (s.advanced f v).shedBoundary f v = s.advanced f v := by
      simp [State.shedBoundary, onset, lasts, interruption]
    rw [acts, FeederCtl.interrupted_of_not interruption]
    exact reached.rests

/-- The two ways out of a sag that WATCH and RIDE share (R8, R10). -/
theorem actOn_inSag {m : State} (state : (m.ctl.get f).state = .watch ∨ (m.ctl.get f).state = .ride) :
    (v.invalidLimit = true → m.actOn f v = m.enterShed f .samplesInvalid .notRiding) ∧
      (v.invalidLimit = false → v.interruption = true →
        m.actOn f v = (m.flagInterruption f).enterShed f .interruption .notRiding) := by
  rcases state with state | state
  · rw [actOn_watch v state]
    exact ⟨fun h => by simp [State.watchBoundary, h], fun h k => by simp [State.watchBoundary, h, k]⟩
  · rw [actOn_ride v state]
    exact ⟨fun h => by simp [State.rideBoundary, h], fun h k => by simp [State.rideBoundary, h, k]⟩

theorem running_inSag_invalid (quiet : ¬ Expires s f)
    (state : (s.ctl.get f).state = .watch ∨ (s.ctl.get f).state = .ride) (invalid : v.invalidLimit = true) :
    Sheds s (s.boundary f v) f [] ((s.ctl.get f).advanced v) .samplesInvalid .notRiding := by
  have reached := reached_advanced s f v
  rw [boundary_running v (by rcases state with h | h <;> simp [h]) quiet,
    (actOn_inSag (by rw [reached.ctl]; exact state)).1 invalid]
  exact reached.sheds .samplesInvalid .notRiding

theorem running_inSag_interrupted (quiet : ¬ Expires s f)
    (state : (s.ctl.get f).state = .watch ∨ (s.ctl.get f).state = .ride) (valid : v.invalidLimit = false)
    (interruption : v.interruption = true) :
    Sheds s (s.boundary f v) f [] (((s.ctl.get f).advanced v).interrupted v) .interruption .notRiding := by
  have reached := reached_advanced s f v
  rw [boundary_running v (by rcases state with h | h <;> simp [h]) quiet,
    (actOn_inSag (by rw [reached.ctl]; exact state)).2 valid interruption]
  exact (reached.flagInterruption interruption).sheds .interruption .notRiding

theorem running_watch_ended (quiet : ¬ Expires s f) (state : (s.ctl.get f).state = .watch) (valid : v.invalidLimit = false)
    (whole : v.interruption = false) (ended : v.ended = true) :
    let t := s.boundary f v
    (t.stagers.get f).pending = none ∧ t.account = s.account ∧ t.link = s.link ∧
      Ended s t f v ((s.ctl.get f).advanced v) .tolerated .tolerated [.feederState f .watch .standby .sagEnd]
        (endAll .notRiding (s.stagers.get f).pending.toList) fun b => { b with state := .standby, reason := .sagEnd } := by
  have reached := reached_advanced s f v
  have acts : (s.advanced f v).watchBoundary f v =
      ((((s.advanced f v).closeSag f .tolerated).startQuiet f).setState f .standby .sagEnd).endPending f .notRiding := by
    simp [State.watchBoundary, valid, whole, ended]
  dsimp only
  rw [boundary_running v (by simp [state]) quiet, actOn_watch v (by rw [reached.ctl]; exact state), acts]
  exact reached.ends_watch (advanced_steady s f v).evals state

theorem running_watch_decides (quiet : ¬ Expires s f) (state : (s.ctl.get f).state = .watch)
    (valid : v.invalidLimit = false) (whole : v.interruption = false) (lasts : v.ended = false) :
    Decides s (s.boundary f v) f [] ((s.ctl.get f).advanced v) (s.evals.get f).ttt := by
  have reached := reached_advanced s f v
  have acts : (s.advanced f v).watchBoundary f v = (s.advanced f v).rideDecision f := by
    simp [State.watchBoundary, valid, whole, lasts]
  rw [boundary_running v (by simp [state]) quiet, actOn_watch v (by rw [reached.ctl]; exact state), acts,
    ← (advanced_steady s f v).evals]
  exact reached.decides

theorem running_ride_ended (quiet : ¬ Expires s f) (state : (s.ctl.get f).state = .ride) (valid : v.invalidLimit = false)
    (whole : v.interruption = false) (ended : v.ended = true) :
    let t := s.boundary f v
    t.account = { s.account with reserved := s.account.reserved.set f 0 } ∧
      Placed t f (.release (s.trackers.get f).hc) ∧ (t.stagers.get f).pending = none ∧
      Ended s t f v ((s.ctl.get f).advanced v) .protect .protect [.feederState f .ride .recover .sagEnd]
        ((s.stagers.get f).shedEnds .notRiding)
        fun b => { b with state := .recover, reason := .sagEnd, source := .none } := by
  have reached := reached_advanced s f v
  have acts : (s.advanced f v).rideBoundary f v =
      ((((((s.advanced f v).releaseEnergy f).stopSource f).closeSag f .protect).startQuiet f).setState f .recover
        .sagEnd |>.placeRelease f).endPending f .notRiding := by
    simp [State.rideBoundary, valid, whole, ended]
  dsimp only
  rw [boundary_running v (by simp [state]) quiet, actOn_ride v (by rw [reached.ctl]; exact state), acts]
  exact reached.ends_ride (advanced_steady s f v).evals state

theorem running_ride_limit (quiet : ¬ Expires s f) (state : (s.ctl.get f).state = .ride) (valid : v.invalidLimit = false)
    (whole : v.interruption = false) (lasts : v.ended = false) (limit : (s.entry f).rideLimit ≤ (s.ctl.get f).rode) :
    Sheds s (s.boundary f v) f [] ((s.ctl.get f).advanced v) .rideLimit .notRiding := by
  have reached := reached_advanced s f v
  have reaches : ((s.advanced f v).entry f).rideLimit ≤ ((s.advanced f v).ctl.get f).rode := by
    rw [reached.entry, reached.ctl]
    exact limit
  have acts : (s.advanced f v).rideBoundary f v = (s.advanced f v).enterShed f .rideLimit .notRiding := by
    simp [State.rideBoundary, valid, whole, lasts, reaches]
  rw [boundary_running v (by simp [state]) quiet, actOn_ride v (by rw [reached.ctl]; exact state), acts]
  exact reached.sheds .rideLimit .notRiding

theorem running_ride_chooses (quiet : ¬ Expires s f) (state : (s.ctl.get f).state = .ride)
    (valid : v.invalidLimit = false) (whole : v.interruption = false) (lasts : v.ended = false)
    (below : (s.ctl.get f).rode < (s.entry f).rideLimit) :
    Chooses s (s.boundary f v) f ((s.ctl.get f).advanced v) := by
  have reached := reached_advanced s f v
  have stays : ¬ ((s.advanced f v).entry f).rideLimit ≤ ((s.advanced f v).ctl.get f).rode := by
    rw [reached.entry, reached.ctl]
    exact Nat.not_le.2 below
  have acts : (s.advanced f v).rideBoundary f v = (s.advanced f v).chooseReference f := by
    simp [State.rideBoundary, valid, whole, lasts, stays]
  rw [boundary_running v (by simp [state]) quiet, actOn_ride v (by rw [reached.ctl]; exact state), acts]
  exact reached.chooses rfl rfl

end Running

end Sys2Proof.Machine
end

section
namespace Sys2Proof.Machine

/-! ## An onset cancels the quiet counter (R133) -/

theorem enterShed_episode (m : State) (f : Fid) (r : Reason) (code : ResultCode) :
    ((m.enterShed f r code).ctl.get f).episode = (m.ctl.get f).episode := by
  rw [(enterShed_shed m f r code).ctl, Per8.get_set_same]
  rfl

theorem setState_episode (m : State) (f : Fid) (x : FeederState) (r : Reason) :
    ((m.setState f x r).ctl.get f).episode = (m.ctl.get f).episode := by
  rw [State.setState_ctl, Per8.get_set_same]

theorem onSag_episode (m : State) (f : Fid) (g : SagRecord → SagRecord) :
    ((m.onSag f g).ctl.get f).episode = (m.ctl.get f).episode := by
  unfold State.onSag
  rw [State.putCtl_ctl, Per8.get_set_same]

theorem takeChosen_episode (m : State) (f : Fid) (record : Option Accepted) :
    ((m.takeChosen f record).ctl.get f).episode = (m.ctl.get f).episode := by
  cases record with
  | none => rfl
  | some r =>
    change ((m.takeRecord f r).ctl.get f).episode = _
    unfold State.takeRecord
    dsimp only
    split
    · exact onSag_episode _ f _
    · rfl

theorem tryEntry_episode (m : State) (f : Fid) (ref : Reference) (source : Source) (record : Option Accepted) :
    ((m.tryEntry f ref source record).ctl.get f).episode = (m.ctl.get f).episode := by
  have ask := requestEntry_accountOnly m f (m.cost f ref * (m.entry f).rideLimit)
  rw [State.tryEntry_eq]
  dsimp only
  split
  · unfold State.placeEngage
    rw [State.placeRequest_ctl, takeChosen_episode]
    unfold State.rideBegun
    rw [State.putCtl_ctl, Per8.get_set_same]
    exact (setState_episode _ f _ _).trans (by rw [ask.ctl])
  · rw [enterShed_episode, ask.ctl]

theorem rideDecision_episode (m : State) (f : Fid) :
    ((m.rideDecision f).ctl.get f).episode = (m.ctl.get f).episode := by
  cases offered : m.offered f with
  | some r => rw [rideDecision_offered offered, tryEntry_episode]
  | none =>
    rw [rideDecision_none offered]
    split
    · rw [tryEntry_episode]
      unfold State.formAutofill
      dsimp only
      split
      · exact onSag_episode m f _
      · rfl
    · rfl

theorem openSag_quiet (m : State) (f : Fid) (residuals : Phases Nat) (interruption : Bool) :
    (m.openSag f residuals interruption).quietCounter f = none := by
  have counted : ∀ (y : Option Episode) (hc : BitVec 8) (stamp : BitVec 32), (countSag y hc stamp).quiet = none := by
    intro y hc stamp
    cases y <;> rfl
  have ctl := ((Reached.refl f m).openSag residuals interruption).ctl
  unfold State.quietCounter
  rw [ctl]
  exact counted _ _ _

theorem takeOnset_quiet (m : State) (f : Fid) (v : Verdicts) : (m.takeOnset f v).quietCounter f = none := by
  have episode : ((m.takeOnset f v).ctl.get f).episode =
      ((m.openSag f v.residuals v.interruption).ctl.get f).episode := by
    unfold State.takeOnset
    dsimp only
    split
    · exact enterShed_episode _ f _ _
    split
    · rw [rideDecision_episode, setState_episode]
    · exact enterShed_episode _ f _ _
  have quiet := openSag_quiet m f v.residuals v.interruption
  unfold State.quietCounter at quiet ⊢
  rwa [episode]

/-! ## A boundary at which the episode expires (R134, R135, R136) -/

section Expiring

variable {s m : State} {f : Fid} {v : Verdicts} {y : Episode}

/-- The controller for the half-cycle just closed, its episode closed. -/
def FeederCtl.gone (c : FeederCtl) (v : Verdicts) : FeederCtl := { c.update v with episode := none }

/-- The record of the episode that expires. -/
def expiredRecord (s : State) (f : Fid) (y : Episode) : Body := .episodeClosed f y .window (s.trackers.get f).hc

theorem reached_expired (h : Reached f s m [] ((s.ctl.get f).update v)) (episode : (s.ctl.get f).episode = some y) :
    Reached f s (m.closeEpisode f .window) [expiredRecord s f y] ((s.ctl.get f).gone v) := by
  have closed := h.closeEpisode .window
  rwa [show ((s.ctl.get f).update v).episode = some y from episode] at closed

theorem closedHalf_monitors (s : State) (f : Fid) (v : Verdicts) : (s.closedHalf f v).monitors = s.monitors := by
  simp [State.closedHalf]

theorem closedHalf_evals (s : State) (f : Fid) (v : Verdicts) : (s.closedHalf f v).evals = s.evals := by
  simp [State.closedHalf]

/-- The expiry that comes first, the feeder not in SHED: its record is staged, and the verdicts act on what it leaves. -/
theorem expired_then_acts (h : Reached f s m [] ((s.ctl.get f).update v)) (episode : (s.ctl.get f).episode = some y)
    (state : (s.ctl.get f).state ≠ .shed) :
    m.expireThenAct f v = (m.closeEpisode f .window).actOn f v ∧
      staged s ((m.expireThenAct f v).endLate f) (expiredRecord s f y) := by
  have acts : m.expireThenAct f v = (m.closeEpisode f .window).actOn f v :=
    expireThenAct_of_not_shed v (by rw [h.ctl]; exact state)
  refine ⟨acts, ?_⟩
  rw [acts]
  exact (reached_expired h episode).first rfl (State.endLate_moves _ f (State.actOn_moves _ f v .refl))

theorem expiring_fault (expires : Expires s f) (episode : (s.ctl.get f).episode = some y)
    (state : (s.ctl.get f).state = .fault) :
    staged s (s.boundary f v) (expiredRecord s f y) ∧
      Rests s (s.boundary f v) f [expiredRecord s f y] ((s.ctl.get f).gone v) := by
  have reached := reached_closedHalf s f v
  have alone : (s.closedHalf f v).expiryMeets f v = false := by
    unfold State.expiryMeets
    rw [reached.ctl, show ((s.ctl.get f).update v).state = .fault from state]
  have expired := reached_expired reached episode
  obtain ⟨acts, closes⟩ := expired_then_acts reached episode (by simp [state])
  rw [boundary_expiring (by simp [state]) expires alone]
  refine ⟨closes, ?_⟩
  rw [acts, actOn_fault v (by rw [expired.ctl]; exact state)]
  exact expired.rests

theorem ArmingDone.of_ready {t : State} {ready waits : List Body} {b : FeederCtl}
    (locked : (s.trackers.get f).sync = .locked ∧ (s.ctl.get f).ready = true)
    (h : Rests s t f ready { b with state := .standby, reason := .ready }) : ArmingDone s t f ready waits b := by
  unfold ArmingDone
  dsimp only
  rwa [if_pos locked]

theorem ArmingDone.of_waiting {t : State} {ready ready' waits : List Body} {b : FeederCtl}
    (waiting : ¬ ((s.trackers.get f).sync = .locked ∧ (s.ctl.get f).ready = true))
    (h : ArmingDone s t f ready waits b) : ArmingDone s t f ready' waits b := by
  unfold ArmingDone at h ⊢
  dsimp only at h ⊢
  rw [if_neg waiting] at h ⊢
  exact h

theorem expiryMeets_arming (h : Reached f s m [] ((s.ctl.get f).update v)) (state : (s.ctl.get f).state = .arming) :
    m.expiryMeets f v = true ↔ (s.trackers.get f).sync = .locked ∧ (s.ctl.get f).ready = true := by
  unfold State.expiryMeets
  rw [h.ctl, show ((s.ctl.get f).update v).state = .arming from state, h.trackers]
  dsimp only
  rw [Bool.and_eq_true, decide_eq_true_iff]
  rfl

theorem expiring_arming_waits (expires : Expires s f) (episode : (s.ctl.get f).episode = some y)
    (state : (s.ctl.get f).state = .arming)
    (waiting : ¬ ((s.trackers.get f).sync = .locked ∧ (s.ctl.get f).ready = true)) :
    staged s (s.boundary f v) (expiredRecord s f y) ∧
      ArmingDone s (s.boundary f v) f [] [expiredRecord s f y] ((s.ctl.get f).gone v) := by
  have reached := reached_closedHalf s f v
  have alone : (s.closedHalf f v).expiryMeets f v = false := by
    rw [← Bool.not_eq_true, expiryMeets_arming reached state]
    exact waiting
  have expired := reached_expired reached episode
  obtain ⟨acts, closes⟩ := expired_then_acts reached episode (by simp [state])
  rw [boundary_expiring (by simp [state]) expires alone]
  refine ⟨closes, ?_⟩
  rw [acts, actOn_arming v (by rw [expired.ctl]; exact state)]
  exact .of_waiting waiting (expired.arming rfl state)

/-- What has met the expiry keeps a quiet counter that runs: the expiry follows. -/
theorem quiet_of_episode (expires : Expires s f) (h : (m.ctl.get f).episode = (s.ctl.get f).episode) :
    (m.quietCounter f).isSome = true := by
  obtain ⟨q, quiet, -⟩ := expires
  unfold State.quietCounter
  rw [h, quiet]
  rfl

theorem expiring_arming_ready (expires : Expires s f) (episode : (s.ctl.get f).episode = some y)
    (state : (s.ctl.get f).state = .arming)
    (locked : (s.trackers.get f).sync = .locked ∧ (s.ctl.get f).ready = true) :
    let first := Config.expiryFirst s.draws
    let close := expiredRecord s f y
    let stands := Body.feederState f .arming .standby .ready
    ArmingDone s (s.boundary f v) f (if first then [close, stands] else [stands, close]) [] ((s.ctl.get f).gone v) ∧
      (first = true → staged s (s.boundary f v) close) := by
  have reached := reached_drawn s f v
  have meets := (expiryMeets_arming (reached_closedHalf s f v) state).2 locked
  dsimp only
  rw [boundary_meeting (by simp [state]) expires meets]
  cases Config.expiryFirst s.draws with
  | true =>
    have expired := reached_expired reached episode
    obtain ⟨acts, closes⟩ := expired_then_acts reached episode (by simp [state])
    rw [if_pos rfl, if_pos rfl]
    refine ⟨.of_ready locked ?_, fun _ => closes⟩
    rw [acts, actOn_arming v (by rw [expired.ctl]; exact state), armingBoundary_eq expired rfl, if_pos locked, ← state]
    exact (expired.setState .standby .ready).rests
  | false =>
    rw [if_neg (by decide), if_neg (by decide)]
    refine ⟨.of_ready locked ?_, fun h => nomatch h⟩
    have acts : (s.drawn f v).actOn f v = (s.drawn f v).setState f .standby .ready := by
      rw [actOn_arming v (by rw [reached.ctl]; exact state), armingBoundary_eq reached rfl, if_pos locked]
    have stood := reached.setState .standby .ready
    have running : (((s.drawn f v).actOn f v).quietCounter f).isSome = true :=
      quiet_of_episode expires (by rw [acts, stood.ctl]; rfl)
    rw [actThenExpire_running running, acts, expire_of_not_shed (by rw [stood.ctl]; exact fun h => nomatch h)]
    have closed := stood.closeEpisode .window
    rw [show ({ (s.ctl.get f).update v with state := .standby, reason := .ready } : FeederCtl).episode = some y from
      episode, show ((s.ctl.get f).update v).state = .arming from state] at closed
    exact closed.rests

/-! ### STANDBY and RECOVER -/

theorem expiryMeets_ready (h : Reached f s m [] ((s.ctl.get f).update v))
    (state : (s.ctl.get f).state = .standby ∨ (s.ctl.get f).state = .recover) :
    m.expiryMeets f v = (v.onset || v.invalidLimit) := by
  unfold State.expiryMeets
  rw [h.ctl]
  rcases state with state | state
  · rw [show ((s.ctl.get f).update v).state = .standby from state]
  · rw [show ((s.ctl.get f).update v).state = .recover from state]

theorem expiring_ready_rests (expires : Expires s f) (episode : (s.ctl.get f).episode = some y)
    (state : (s.ctl.get f).state = .standby ∨ (s.ctl.get f).state = .recover) (onset : v.onset = false)
    (valid : v.invalidLimit = false) :
    staged s (s.boundary f v) (expiredRecord s f y) ∧
      Rests s (s.boundary f v) f [expiredRecord s f y] ((s.ctl.get f).gone v) := by
  have reached := reached_closedHalf s f v
  have expired := reached_expired reached episode
  obtain ⟨acts, closes⟩ := expired_then_acts reached episode (by rcases state with h | h <;> simp [h])
  rw [boundary_expiring (by rcases state with h | h <;> simp [h]) expires
    (by rw [expiryMeets_ready reached state, onset, valid]; rfl)]
  refine ⟨closes, ?_⟩
  rw [acts, (actOn_ready (by rw [expired.ctl]; exact state)).2 onset valid]
  exact expired.rests

theorem drawn_monitors (s : State) (f : Fid) (v : Verdicts) : (s.drawn f v).monitors = s.monitors :=
  closedHalf_monitors s f v

theorem drawn_evals (s : State) (f : Fid) (v : Verdicts) : (s.drawn f v).evals = s.evals :=
  closedHalf_evals s f v

theorem expiring_ready_onset (expires : Expires s f) (episode : (s.ctl.get f).episode = some y)
    (state : (s.ctl.get f).state = .standby ∨ (s.ctl.get f).state = .recover) (onset : v.onset = true) :
    let t := s.boundary f v
    let first := Config.expiryFirst s.draws
    (first = true → staged s t (expiredRecord s f y) ∧ Onset s t f v [expiredRecord s f y] ((s.ctl.get f).gone v)) ∧
      (first = false → Onset s t f v [] { (s.ctl.get f).update v with episode := some y }) := by
  have reached := reached_drawn s f v
  dsimp only
  rw [boundary_meeting (by rcases state with h | h <;> simp [h]) expires
    (by rw [expiryMeets_ready (reached_closedHalf s f v) state, onset]; rfl)]
  refine ⟨fun first => ?_, fun second => ?_⟩
  · have expired := reached_expired reached episode
    obtain ⟨acts, closes⟩ := expired_then_acts reached episode (by rcases state with h | h <;> simp [h])
    rw [if_pos first]
    refine ⟨closes, ?_⟩
    rw [acts, (actOn_ready (by rw [expired.ctl]; exact state)).1 onset]
    exact expired.onset v (by simp [drawn_monitors]) (by simp [drawn_evals])
  · have acts := (actOn_ready (m := s.drawn f v) (v := v) (by rw [reached.ctl]; exact state)).1 onset
    rw [if_neg (by rw [second]; decide), actThenExpire_cancelled (by rw [acts, takeOnset_quiet]), acts]
    have same : ({ (s.ctl.get f).update v with episode := some y } : FeederCtl) = (s.ctl.get f).update v := by
      rw [← episode]
      rfl
    rw [same]
    exact reached.onset v (drawn_monitors s f v) (drawn_evals s f v)

end Expiring

end Sys2Proof.Machine
end

section
namespace Sys2Proof.Machine

section Expiring

variable {s m : State} {f : Fid} {v : Verdicts} {y : Episode}

/-- An entry to ARMING that MALMn does not take on to FAULT. -/
theorem Reached.beginArming {l : List Body} {b : FeederCtl} (h : Reached f s m l b) (r : Reason) :
    Reached f s (m.beginArming f r) (l ++ [.feederState f b.state .arming r]) (b.armed r) := by
  rw [← h.ctl]
  refine h.andThen (k := [.feederState f (m.ctl.get f).state .arming r]) (h.log.beginArming r) ?_ (by simp) (by simp)
    (by simp) (State.beginArming_beside m f r)
  rw [State.beginArming_ctl, Per8.get_set_same]

theorem meets_invalid (h : Reached f s m [] ((s.ctl.get f).update v))
    (state : (s.ctl.get f).state = .standby ∨ (s.ctl.get f).state = .recover) (invalid : v.invalidLimit = true) :
    m.expiryMeets f v = true := by
  rw [expiryMeets_ready h state, invalid, Bool.or_true]

/-- In STANDBY the samples have become invalid, and the expiry comes first. -/
theorem expiring_standby_first (expires : Expires s f) (episode : (s.ctl.get f).episode = some y)
    (state : (s.ctl.get f).state = .standby) (onset : v.onset = false) (invalid : v.invalidLimit = true)
    (first : Config.expiryFirst s.draws = true) :
    let t := s.boundary f v
    let l := [expiredRecord s f y, .feederState f .standby .arming .invalid]
    staged s t (expiredRecord s f y) ∧
      Arms s t f ((s.ctl.get f).gone v) .invalid
        (l ++ refRecords f (endResults s t f (endAll .late (s.passed f)))) l ∧
      (s.malm.get f = false → resultsMade s t f (endAll .late (s.passed f))) := by
  have reached := reached_drawn s f v
  have expired := reached_expired reached episode
  obtain ⟨acts, closes⟩ := expired_then_acts reached episode (by simp [state])
  dsimp only
  rw [boundary_meeting (by simp [state]) expires (meets_invalid (reached_closedHalf s f v) (.inl state) invalid),
    if_pos first]
  refine ⟨closes, ?_⟩
  rw [acts, actOn_standby v (by rw [expired.ctl]; exact state), standbyBoundary_invalid _ onset invalid]
  have arms := expired.arms .invalid
  rw [show ((s.ctl.get f).gone v).state = .standby from state] at arms
  exact arms

/-- The same, and the expiry comes second. -/
theorem expiring_standby_second (expires : Expires s f) (episode : (s.ctl.get f).episode = some y)
    (state : (s.ctl.get f).state = .standby) (onset : v.onset = false) (invalid : v.invalidLimit = true)
    (second : Config.expiryFirst s.draws = false) :
    let t := s.boundary f v
    let rearms := Body.feederState f .standby .arming .invalid
    Arms s t f ((s.ctl.get f).gone v) .invalid
        ([rearms, expiredRecord s f y] ++ refRecords f (endResults s t f (endAll .late (s.passed f)))) [rearms] ∧
      (s.malm.get f = false → resultsMade s t f (endAll .late (s.passed f))) := by
  have reached := reached_drawn s f v
  have acts : (s.drawn f v).actOn f v = (s.drawn f v).enterArming f .invalid := by
    rw [actOn_standby v (by rw [reached.ctl]; exact state), standbyBoundary_invalid _ onset invalid]
  dsimp only
  rw [boundary_meeting (by simp [state]) expires (meets_invalid (reached_closedHalf s f v) (.inl state) invalid),
    if_neg (by rw [second]; decide)]
  cases alarm : s.malm.get f with
  | true =>
    have faulted : (s.drawn f v).enterArming f .invalid =
        ((s.drawn f v).beginArming f .invalid).enterFault f .alarm := by
      rw [State.enterArming_eq, reached.malm, if_pos alarm]
    have cancelled : ((s.drawn f v).actOn f v).quietCounter f = none := by
      unfold State.quietCounter
      rw [acts, faulted, State.enterFault_ctl, Per8.get_set_same]
      rfl
    obtain ⟨⟨silence, -, begins, ctl⟩, -⟩ := reached.arms .invalid
    rw [show ((s.ctl.get f).update v).state = .standby from state] at begins
    rw [actThenExpire_cancelled cancelled, acts]
    refine ⟨⟨silence, fun calm => ?_, begins, ?_⟩, fun calm => (nomatch calm)⟩
    · rw [alarm] at calm
      cases calm
    · rw [ctl, if_pos alarm, if_pos alarm]
      rfl
  | false =>
    have begun := reached.beginArming .invalid
    have arming : (s.drawn f v).enterArming f .invalid = (s.drawn f v).beginArming f .invalid := by
      rw [State.enterArming_eq, reached.malm, if_neg (by rw [alarm]; decide)]
    have running : (((s.drawn f v).actOn f v).quietCounter f).isSome = true :=
      quiet_of_episode expires (by rw [acts, arming, begun.ctl]; rfl)
    have closed := begun.closeEpisode .window
    rw [show (((s.ctl.get f).update v).armed .invalid).episode = some y from episode,
      show ((s.ctl.get f).update v).state = .standby from state] at closed
    have steady := (State.closeEpisode_steady ((s.drawn f v).beginArming f .invalid) f .window).trans
      (State.endLate_steady _ f)
    rw [actThenExpire_running running, acts, arming,
      expire_of_not_shed (by rw [begun.ctl]; exact fun h => nomatch h)]
    obtain ⟨ctl, -, -, results, records⟩ := closed.rests
    refine ⟨⟨?_, fun _ => records, fun h => ?_, ?_⟩, fun _ => results⟩
    · rw [steady.monitors, State.beginArming_monitors, Per8.get_set_same, reached.settings]
    · rw [alarm] at h
      cases h
    · rw [if_neg (by rw [alarm]; decide)]
      exact ctl

/-- In RECOVER the samples have become invalid, and the expiry comes first. -/
theorem expiring_recover_first (expires : Expires s f) (episode : (s.ctl.get f).episode = some y)
    (state : (s.ctl.get f).state = .recover) (onset : v.onset = false) (invalid : v.invalidLimit = true)
    (first : Config.expiryFirst s.draws = true) :
    let t := s.boundary f v
    staged s t (expiredRecord s f y) ∧
      Sheds s t f [expiredRecord s f y] ((s.ctl.get f).gone v) .samplesInvalid .notRiding := by
  have reached := reached_drawn s f v
  have expired := reached_expired reached episode
  obtain ⟨acts, closes⟩ := expired_then_acts reached episode (by simp [state])
  dsimp only
  rw [boundary_meeting (by simp [state]) expires (meets_invalid (reached_closedHalf s f v) (.inr state) invalid),
    if_pos first]
  refine ⟨closes, ?_⟩
  rw [acts, actOn_recover v (by rw [expired.ctl]; exact state), recoverBoundary_invalid _ onset invalid]
  exact expired.sheds .samplesInvalid .notRiding

/-- A feeder that is shed, whose episode then expires, goes to ARMING in the same event. -/
theorem Reached.sheds_then_arms {b : FeederCtl} (h : Reached f s m [] b) (episode : b.episode = some y) :
    let t := (((m.enterShed f .samplesInvalid .notRiding).closeEpisode f .window).enterArming f .episodeClosed).endLate f
    let dropped := (s.stagers.get f).shedEnds .notRiding
    let l := .feederState f b.state .shed .samplesInvalid :: refRecords f (endResults s t f dropped) ++
      [expiredRecord s f y, .feederState f .shed .arming .episodeClosed]
    Arms s t f { b with episode := none } .episodeClosed l l ∧
      (s.malm.get f = false → resultsMade s t f dropped) := by
  have shed := enterShed_shed m f .samplesInvalid .notRiding
  have bare := shed.stager
  have ctl : (m.enterShed f .samplesInvalid .notRiding).ctl.get f = b.shed .samplesInvalid := by
    rw [shed.ctl, Per8.get_set_same, h.ctl]
  have pending : ((m.enterShed f .samplesInvalid .notRiding).stagers.get f).pending = none :=
    (congrArg Stager.pending bare :)
  have committed : ((m.enterShed f .samplesInvalid .notRiding).stagers.get f).committed = (s.stagers.get f).committed :=
    (congrArg Stager.committed bare :).trans (by rw [← h.stagers]; rfl)
  have malm := shed.malm.trans h.malm
  have table := shed.table.trans h.table
  have trackers := shed.trackers.trans h.trackers
  have log := h.log.enterShed .samplesInvalid .notRiding
  rw [h.ctl, h.stagers] at log
  generalize m.enterShed f .samplesInvalid .notRiding = n at log ctl pending committed malm table trackers
  have closed := log.closeEpisode .window
  rw [ctl, trackers, show (b.shed .samplesInvalid).episode = some y from episode] at closed
  obtain ⟨silence, final, page, calm, alarmed⟩ := enterArming_armed closed .episodeClosed
  have ctl : (n.closeEpisode f .window).ctl.get f = { b.shed .samplesInvalid with episode := none } := by
    rw [State.closeEpisode_ctl, Per8.get_set_same, ctl]
  have none : (n.closeEpisode f .window).passed f = [] := State.passed_of_none (by rw [State.closeEpisode_stagers, pending])
  have settings : (n.closeEpisode f .window).settings = s.settings := by
    unfold State.settings
    rw [State.closeEpisode_table, table]
  rw [settings] at silence
  rw [State.closeEpisode_malm, malm, ctl] at final
  rw [State.closeEpisode_stagers, committed] at page
  rw [State.closeEpisode_malm, malm, ctl, none] at calm
  rw [State.closeEpisode_malm, malm, ctl] at alarmed
  dsimp only
  generalize ((n.closeEpisode f .window).enterArming f .episodeClosed).endLate f = t at silence final page calm alarmed
  have source : (t.ctl.get f).source = .none := by
    rw [final]
    split <;> rfl
  have made : s.malm.get f = false → resultsMade s t f ((s.stagers.get f).shedEnds .notRiding) ∧ recorded s t
      (.feederState f b.state .shed .samplesInvalid ::
        refRecords f (endResults s t f ((s.stagers.get f).shedEnds .notRiding)) ++
          [expiredRecord s f y, .feederState f .shed .arming .episodeClosed]) := by
    intro quiet
    have log := ((calm quiet).of_eq (log' := endings (t.ctl.get f).source (t.stagers.get f).committed [] ++
      (.record (.feederState f b.state .shed .samplesInvalid) ::
        endings (t.ctl.get f).source (t.stagers.get f).committed ((s.stagers.get f).shedEnds .notRiding)) ++
      records [expiredRecord s f y, .feederState f .shed .arming .episodeClosed])
      (by rw [source, page]; simp [records, endings, endAll, expiredRecord, FeederCtl.shed])).entered
    simpa [refRecords] using log
  refine ⟨⟨silence, fun quiet => (made quiet).2, fun alarm => ?_, ?_⟩, fun quiet => (made quiet).1⟩
  · have begins := alarmed alarm
    rw [endResults_eq, source, page]
    simpa [logBodies_append, logBodies, records, expiredRecord, FeederCtl.shed] using begins
  · rw [final]
    split <;> rfl

/-- The same, and the expiry comes second: the feeder, shed by then, goes to ARMING. -/
theorem expiring_recover_second (expires : Expires s f) (episode : (s.ctl.get f).episode = some y)
    (state : (s.ctl.get f).state = .recover) (onset : v.onset = false) (invalid : v.invalidLimit = true)
    (second : Config.expiryFirst s.draws = false) :
    let t := s.boundary f v
    let dropped := (s.stagers.get f).shedEnds .notRiding
    let l := .feederState f .recover .shed .samplesInvalid :: refRecords f (endResults s t f dropped) ++
      [expiredRecord s f y, .feederState f .shed .arming .episodeClosed]
    Arms s t f ((s.ctl.get f).gone v) .episodeClosed l l ∧ (s.malm.get f = false → resultsMade s t f dropped) := by
  have reached := reached_drawn s f v
  have acts : (s.drawn f v).actOn f v = (s.drawn f v).enterShed f .samplesInvalid .notRiding := by
    rw [actOn_recover v (by rw [reached.ctl]; exact state), recoverBoundary_invalid _ onset invalid]
  have ctl : ((s.drawn f v).enterShed f .samplesInvalid .notRiding).ctl.get f =
      ((s.ctl.get f).update v).shed .samplesInvalid := by
    rw [(enterShed_shed (s.drawn f v) f .samplesInvalid .notRiding).ctl, Per8.get_set_same, reached.ctl]
  have running : (((s.drawn f v).actOn f v).quietCounter f).isSome = true :=
    quiet_of_episode expires (by rw [acts, ctl]; rfl)
  dsimp only
  rw [boundary_meeting (by simp [state]) expires (meets_invalid (reached_closedHalf s f v) (.inr state) invalid),
    if_neg (by rw [second]; decide), actThenExpire_running running, acts, expire_of_shed (by rw [ctl]; rfl)]
  have arms := reached.sheds_then_arms episode
  rw [show ((s.ctl.get f).update v).state = .recover from state] at arms
  exact arms

/-! ### SHED -/

theorem expiryMeets_shed (h : Reached f s m [] ((s.ctl.get f).update v)) (state : (s.ctl.get f).state = .shed) :
    m.expiryMeets f v = v.onset := by
  unfold State.expiryMeets
  rw [h.ctl, show ((s.ctl.get f).update v).state = .shed from state]

/-- The expiry in SHED: the episode's record, and behind it the entry to ARMING. -/
theorem Reached.expires_shed (h : Reached f s m [] ((s.ctl.get f).update v)) (episode : (s.ctl.get f).episode = some y)
    (state : (s.ctl.get f).state = .shed) :
    let t := (m.expireThenAct f v).endLate f
    let l := [expiredRecord s f y, .feederState f .shed .arming .episodeClosed]
    staged s t (expiredRecord s f y) ∧
      Arms s t f ((s.ctl.get f).gone v) .episodeClosed
        (l ++ refRecords f (endResults s t f (endAll .late (s.passed f)))) l ∧
      (s.malm.get f = false → resultsMade s t f (endAll .late (s.passed f))) := by
  have expired := reached_expired h episode
  have held : (m.ctl.get f).state = .shed := by
    rw [h.ctl]
    exact state
  dsimp only
  rw [expireThenAct_of_shed v held, expire_of_shed held]
  refine ⟨expired.first rfl (State.endLate_moves _ f (State.enterArming_moves _ f _ .refl)), ?_⟩
  have arms := expired.arms .episodeClosed
  rw [show ((s.ctl.get f).gone v).state = .shed from state] at arms
  exact arms

theorem expiring_shed (expires : Expires s f) (episode : (s.ctl.get f).episode = some y)
    (state : (s.ctl.get f).state = .shed) (order : v.onset = false ∨ Config.expiryFirst s.draws = true) :
    let t := s.boundary f v
    let l := [expiredRecord s f y, .feederState f .shed .arming .episodeClosed]
    staged s t (expiredRecord s f y) ∧
      Arms s t f ((s.ctl.get f).gone v) .episodeClosed
        (l ++ refRecords f (endResults s t f (endAll .late (s.passed f)))) l ∧
      (s.malm.get f = false → resultsMade s t f (endAll .late (s.passed f))) := by
  have reached := reached_closedHalf s f v
  have meets := expiryMeets_shed reached state
  dsimp only
  cases onset : v.onset with
  | false =>
    rw [boundary_expiring (by simp [state]) expires (meets.trans onset)]
    exact reached.expires_shed episode state
  | true =>
    have first : Config.expiryFirst s.draws = true := order.resolve_left (by rw [onset]; decide)
    rw [boundary_meeting (by simp [state]) expires (meets.trans onset), if_pos first]
    exact (reached_drawn s f v).expires_shed episode state

theorem expiring_shed_onset (expires : Expires s f) (episode : (s.ctl.get f).episode = some y)
    (state : (s.ctl.get f).state = .shed) (onset : v.onset = true) (second : Config.expiryFirst s.draws = false) :
    let b : FeederCtl := { (s.ctl.get f).update v with episode := some y }
    Opens s (s.boundary f v) f v ∧ Rests s (s.boundary f v) f [] (b.onset s f v) := by
  have reached := reached_drawn s f v
  have acts : (s.drawn f v).actOn f v = (s.drawn f v).openSag f v.residuals v.interruption := by
    rw [actOn_shed v (by rw [reached.ctl]; exact state)]
    simp [State.shedBoundary, onset]
  dsimp only
  rw [boundary_meeting (by simp [state]) expires ((expiryMeets_shed (reached_closedHalf s f v) state).trans onset),
    if_neg (by rw [second]; decide), actThenExpire_cancelled (by rw [acts, openSag_quiet]), acts]
  have same : ({ (s.ctl.get f).update v with episode := some y } : FeederCtl) = (s.ctl.get f).update v := by
    rw [← episode]
    rfl
  rw [same]
  exact reached.shedOnset v (drawn_monitors s f v) (drawn_evals s f v)

end Expiring

/-! ## What every boundary leaves alone -/

section Beside

variable {s : State} {f : Fid} {v : Verdicts}

theorem running_beside (live : (s.ctl.get f).state ≠ .off) (quiet : ¬ Expires s f) : Beside f s (s.boundary f v) := by
  rw [boundary_running v live quiet]
  exact ((advanced_steady s f v).toBeside.trans (State.actOn_beside _ f v)).trans (State.endLate_steady _ f).toBeside

theorem expiring_beside (live : (s.ctl.get f).state ≠ .off) (expires : Expires s f)
    (alone : (s.closedHalf f v).expiryMeets f v = false) : Beside f s (s.boundary f v) := by
  rw [boundary_expiring live expires alone]
  exact ((State.putCtl_steady s f _).toBeside.trans (State.expireThenAct_beside _ f v)).trans
    (State.endLate_steady _ f).toBeside

theorem drawn_beside (s : State) (f : Fid) (v : Verdicts) : Beside f { s with draws := s.draws + 1 } (s.drawn f v) := by
  obtain ⟨others, trackers, malm, draws, table⟩ := (State.putCtl_steady s f ((s.ctl.get f).update v)).toBeside
  exact ⟨others, trackers, malm, congrArg (· + 1) draws, table⟩

theorem meeting_beside (live : (s.ctl.get f).state ≠ .off) (expires : Expires s f)
    (meets : (s.closedHalf f v).expiryMeets f v = true) :
    Beside f { s with draws := s.draws + 1 } (s.boundary f v) := by
  rw [boundary_meeting live expires meets]
  refine .trans ?_ (State.endLate_steady _ f).toBeside
  split
  · exact (drawn_beside s f v).trans (State.expireThenAct_beside _ f v)
  · exact (drawn_beside s f v).trans (State.actThenExpire_beside _ f v)

/-- But for the free values that it may take, a boundary changes nothing of another feeder. -/
theorem boundary_beside (live : (s.ctl.get f).state ≠ .off) :
    ∃ n, Beside f { s with draws := n } (s.boundary f v) := by
  by_cases expires : Expires s f
  · cases meets : (s.closedHalf f v).expiryMeets f v with
    | true => exact ⟨_, meeting_beside live expires meets⟩
    | false => exact ⟨s.draws, expiring_beside live expires meets⟩
  · exact ⟨s.draws, running_beside live expires⟩

theorem boundary_others {g : Fid} (ne : g ≠ f) : sameFeeder s (s.boundary f v) g := by
  by_cases off : (s.ctl.get f).state = .off
  · have same : s.boundary f v = s := by
      unfold State.boundary
      rw [if_pos off]
    rw [same]
    exact ⟨rfl, rfl, rfl, rfl⟩
  · obtain ⟨n, beside⟩ := boundary_beside (v := v) off
    exact beside.sameFeeder ne

/-- A reference that stays pending is due within two half-cycles (R100). -/
theorem boundary_due {r : Accepted} (live : (s.ctl.get f).state ≠ .off)
    (pending : ((s.boundary f v).stagers.get f).pending = some r) :
    distance r.target (s.trackers.get f).hc = 1 ∨ distance r.target (s.trackers.get f).hc = 2 := by
  obtain ⟨n, beside⟩ := boundary_beside (v := v) live
  have trackers := beside.trackers
  rw [boundary_live v live] at pending trackers
  rw [(State.endLate_steady _ f).trackers] at trackers
  have due := State.endLate_due pending
  rwa [trackers] at due

end Beside

end Sys2Proof.Machine
end

section
namespace Sys2Proof.Machine

/-! ## The draws of an expiring boundary -/

section Draws

variable {s : State} {f : Fid} {v : Verdicts}

theorem expiring_draws (live : (s.ctl.get f).state ≠ .off) (expires : Expires s f)
    (alone : (s.closedHalf f v).expiryMeets f v = false) : (s.boundary f v).draws = s.draws :=
  (expiring_beside live expires alone).draws

theorem meeting_draws (live : (s.ctl.get f).state ≠ .off) (expires : Expires s f)
    (meets : (s.closedHalf f v).expiryMeets f v = true) : (s.boundary f v).draws = s.draws + 1 :=
  (meeting_beside live expires meets).draws

theorem running_draws (quiet : ¬ Expires s f) : (s.boundary f v).draws = s.draws := by
  by_cases off : (s.ctl.get f).state = .off
  · unfold State.boundary
    rw [if_pos off]
  · exact (running_beside off quiet).draws

theorem fault_meets_nothing (state : (s.ctl.get f).state = .fault) : (s.closedHalf f v).expiryMeets f v = false := by
  unfold State.expiryMeets
  rw [(reached_closedHalf s f v).ctl, show ((s.ctl.get f).update v).state = .fault from state]

theorem live_of {b : FeederState} (state : (s.ctl.get f).state = b) (live : b ≠ .off) : (s.ctl.get f).state ≠ .off :=
  state ▸ live

theorem live_of_ready (state : (s.ctl.get f).state = .standby ∨ (s.ctl.get f).state = .recover) :
    (s.ctl.get f).state ≠ .off :=
  state.elim (fun h => live_of h (by decide)) fun h => live_of h (by decide)

end Draws

/-- Settles O52: what a boundary does is read off the state its last act is reached in, verdict by verdict; where the
episode expires, in the order drawn. -/
theorem boundaryMoves : Obligations.BoundaryMoves := by
  intro s f v c g e hc t quiet expires closed update aged interrupted clamped atRest base zero ctl pending endedAs placed
    engages fs replaced late dropped refs made begins alarmed rests arms released sheds stands arming noRecord fill
    lowered enters decides opened counted onsetTtt opens onset shedOnset ends need holds
  refine ⟨fun _ ne => boundary_others ne, fun off => if_pos off, fun live _ => boundary_due live, fun run => ?_,
    fun exp y episode => ?_⟩
  · refine ⟨running_draws run, running_arming run, running_fault run, fun state => ⟨running_ready_onset run state, ?_,
      running_ready_rests run state⟩, fun state => ⟨running_shed_onset run state, running_shed_ended run state,
      running_shed_rests run state⟩, fun state => ⟨running_inSag_invalid run state, running_inSag_interrupted run state⟩,
      fun state valid whole => ⟨running_watch_ended run state valid whole, running_watch_decides run state valid whole⟩,
      fun state valid whole => ⟨running_ride_ended run state valid whole, running_ride_limit run state valid whole,
      running_ride_chooses run state valid whole⟩⟩
    intro calm invalid
    by_cases standby : c.state = .standby
    · rw [if_pos standby]
      exact running_standby_invalid run standby calm invalid
    · rw [if_neg standby]
      exact running_recover_invalid run (state.resolve_left standby) calm invalid
  · have half := reached_closedHalf s f v
    intro gone close closes drawn first
    refine ⟨fun state => ?_, fun state => ?_, fun state => ⟨fun risen => ?_, fun calm valid => ?_, fun calm invalid => ?_⟩,
      fun state => ⟨fun order => expiring_shed exp episode state order,
        fun risen second => expiring_shed_onset exp episode state risen second, ?_⟩⟩
    · obtain ⟨closed, rest⟩ := expiring_fault exp episode state
      exact ⟨closed, rest, expiring_draws (live_of state (by decide)) exp (fault_meets_nothing state)⟩
    · by_cases ready : (s.trackers.get f).sync = .locked ∧ c.ready = true
      · rw [if_pos ready]
        obtain ⟨done, closed⟩ := expiring_arming_ready exp episode state ready
        exact ⟨meeting_draws (live_of state (by decide)) exp ((expiryMeets_arming half state).2 ready), done, closed⟩
      · rw [if_neg ready]
        obtain ⟨closed, done⟩ := expiring_arming_waits exp episode state ready
        exact ⟨closed, done, expiring_draws (live_of state (by decide)) exp
          (by rw [← Bool.not_eq_true, expiryMeets_arming half state]; exact ready)⟩
    · obtain ⟨early, late⟩ := expiring_ready_onset exp episode state risen
      exact ⟨meeting_draws (live_of_ready state) exp
        (by rw [expiryMeets_ready half state, risen]; rfl), early, late⟩
    · obtain ⟨closed, rest⟩ := expiring_ready_rests exp episode state calm valid
      exact ⟨closed, rest, expiring_draws (live_of_ready state) exp
        (by rw [expiryMeets_ready half state, calm, valid]; rfl)⟩
    · refine ⟨meeting_draws (live_of_ready state) exp (meets_invalid half state invalid), ?_⟩
      by_cases standby : c.state = .standby
      · rw [if_pos standby]
        cases order : first with
        | true =>
          obtain ⟨closed, armed⟩ := expiring_standby_first exp episode standby calm invalid order
          exact ⟨fun _ => closed, armed⟩
        | false => exact ⟨fun h => (nomatch h), expiring_standby_second exp episode standby calm invalid order⟩
      · have recover := state.resolve_left standby
        rw [if_neg standby]
        cases order : first with
        | true =>
          obtain ⟨closed, shed⟩ := expiring_recover_first exp episode recover calm invalid order
          exact ⟨fun _ => closed, shed⟩
        | false => exact ⟨fun h => (nomatch h), expiring_recover_second exp episode recover calm invalid order⟩
    · cases risen : v.onset with
      | true => exact meeting_draws (live_of state (by decide)) exp ((expiryMeets_shed half state).trans risen)
      | false => exact expiring_draws (live_of state (by decide)) exp ((expiryMeets_shed half state).trans risen)

end Sys2Proof.Machine
end

section
namespace Sys2Proof.Machine

/-! ## What the end of an event does with HOLD and with the record in progress (R148, R149, R157) -/

/-- The end of an event, as it bears on HOLD, the burst and the record in progress. -/
structure HoldEnds (t u : State) : Prop where
  hold : t.bus.hold ≠ .released → u.bus.hold = t.bus.hold
  burst : u.bus.hold = t.bus.hold → u.writer.burst = t.writer.burst
  inProgress : u.bus.hold = t.bus.hold → t.writer.inProgress ≠ none → u.writer.inProgress = t.writer.inProgress
  restarted : ∀ p, t.writer.inProgress = some p → p.words = 0 → u.writer.inProgress = some p

theorem HoldEnds.of_same {t u : State} (hold : u.bus.hold = t.bus.hold) (burst : u.writer.burst = t.writer.burst)
    (inProgress : t.writer.inProgress ≠ none → u.writer.inProgress = t.writer.inProgress) : HoldEnds t u :=
  ⟨fun _ => hold, fun _ => burst, fun _ => inProgress,
    fun p h _ => (inProgress (by rw [h]; exact fun h => nomatch h)).trans h⟩

theorem HoldEnds.trans {t u w : State} (h : HoldEnds t u) (hold : w.bus.hold = u.bus.hold)
    (burst : w.writer.burst = u.writer.burst)
    (inProgress : u.writer.inProgress ≠ none → w.writer.inProgress = u.writer.inProgress) : HoldEnds t w where
  hold asserted := hold.trans (h.hold asserted)
  burst same := burst.trans (h.burst (hold.symm.trans same))
  inProgress same started := by
    have kept := h.inProgress (hold.symm.trans same) started
    exact (inProgress (by rwa [kept])).trans kept
  restarted p started zero := by
    have kept := h.restarted p started zero
    exact (inProgress (by rw [kept]; exact fun h => nomatch h)).trans kept

namespace State

theorem startRecord_keeps (s : State) :
    s.startRecord.bus = s.bus ∧ s.startRecord.writer.burst = s.writer.burst ∧
      (s.writer.inProgress ≠ none → s.startRecord.writer.inProgress = s.writer.inProgress) := by
  unfold startRecord
  split
  · next starts =>
    refine ⟨rfl, rfl, fun started => ?_⟩
    rw [Bool.and_eq_true, Bool.and_eq_true, Option.isNone_iff_eq_none] at starts
    exact absurd starts.1.1 started
  · exact ⟨rfl, rfl, fun _ => rfl⟩

theorem setGapTimer_keeps (s : State) : s.setGapTimer.bus.hold = s.bus.hold ∧ s.setGapTimer.writer = s.writer := by
  obtain ⟨q, g, e⟩ := setGapTimer_eq s
  rw [e]
  exact ⟨rfl, rfl⟩

theorem gapChoice_keeps (s : State) :
    s.gapChoice.bus.hold = s.bus.hold ∧ s.gapChoice.writer.burst = s.writer.burst ∧
      (s.writer.inProgress ≠ none → s.gapChoice.writer.inProgress = s.writer.inProgress) := by
  obtain ⟨bus, burst, inProgress⟩ := startRecord_keeps s
  unfold gapChoice
  split
  · exact ⟨rfl, rfl, fun _ => rfl⟩
  · split
    · exact ⟨by change s.startRecord.bus.hold = _; rw [bus], burst, inProgress⟩
    · exact ⟨rfl, rfl, fun _ => rfl⟩

/-- The burst that begins where none stands keeps the try of a record in progress, and begins with its first word. -/
theorem burstWord_starts (s : State) (none : s.writer.burst = none) (wanted : s.burstWanted) :
    ∃ w writer, s.startRecord.burstWord = some (w, writer) ∧
      ∀ p, s.writer.inProgress = some p → writer.inProgress = some { p with words := 0 } := by
  obtain ⟨-, burst, inProgress⟩ := startRecord_keeps s
  obtain ⟨p, started⟩ := inProgress_of_burstWanted s wanted
  refine ⟨s.startRecord.wordOfRecord s.startRecord.slotAddr 0 true,
    { s.startRecord.writer with
      inProgress := some { p with words := 0 }, burst := some ⟨s.startRecord.slotAddr, false, false⟩ }, ?_, ?_⟩
  · unfold burstWord
    rw [burst, none, started]
    rfl
  · intro q held
    rw [inProgress (by rw [held]; exact fun h => nomatch h), held] at started
    cases started
    rfl

/-- The arbiter at the end of an event that leaves no read waiting. -/
theorem arbitrate_holdEnds (s : State) (n : Nat) (settled : s.portSettled) (idle : s.loader.read = none) :
    HoldEnds s (s.arbitrate (n + 1)) := by
  obtain ⟨free, burst, -⟩ := settled
  obtain ⟨h, q, g, judged, how⟩ := judgeHold_eq s
  by_cases port : s.bus.port = .free
  swap
  · rw [arbitrate_busy n s port, judged]
    rcases how with rfl | ⟨released, -⟩
    · exact .of_same rfl rfl fun _ => rfl
    · refine ⟨fun asserted => absurd released asserted, fun _ => rfl, fun _ _ => rfl, fun p started _ => started⟩
  obtain ⟨released, waiting⟩ := free port
  have noBurst : s.writer.burst = none := by
    by_contra some
    have := burst some
    rw [released] at this
    cases this
  rw [arbitrate_succ, judged]
  rcases how with rfl | ⟨-, ⟨rfl, wanted⟩ | ⟨rfl, waits⟩⟩
  · rw [givePort_gap _ (s.withHold s.bus.hold q g) port released waiting]
    obtain ⟨hold, burst, inProgress⟩ := gapChoice_keeps (s.withHold s.bus.hold q g)
    exact .of_same hold burst inProgress
  · obtain ⟨w, writer, sent, started⟩ := burstWord_starts (s.withHold .writer q g) noBurst wanted
    rw [givePort_burst _ (s.withHold .writer q g) w writer port rfl sent]
    refine ⟨fun asserted => absurd released asserted, fun same => ?_, fun same => ?_, fun p held zero => ?_⟩
    · exact absurd (same.trans released) (fun h => nomatch h)
    · exact absurd (same.trans released) (fun h => nomatch h)
    · refine (started p held).trans ?_
      rw [← zero]
  · unfold loaderWaiting at waits
    rw [idle] at waits
    cases waits

theorem finish_holdEnds (s : State) (settled : s.portSettled) (idle : s.loader.read = none) :
    HoldEnds s s.finish := by
  unfold finish
  obtain ⟨bus, burst, inProgress⟩ := startRecord_keeps (s.arbitrate (s.bus.waiting.length + 3))
  obtain ⟨hold, writer⟩ := setGapTimer_keeps (s.arbitrate (s.bus.waiting.length + 3)).startRecord
  refine (arbitrate_holdEnds s _ settled idle).trans (hold.trans (by rw [bus])) (by rw [writer, burst]) fun started => ?_
  rw [writer]
  exact inProgress started

end State

/-! ## What an installation does with the word on the port (R153, R162, R164) -/

theorem Port.moved_moved (m n : WriterTarget → Bool) (p : Port) :
    (p.moved m).moved n = p.moved fun x => m x || n x := by
  cases p <;> simp [Port.moved, Bool.or_assoc]

theorem Port.moved_none (p : Port) : (p.moved fun _ => false) = p := by
  cases p <;> simp [Port.moved]

theorem Port.plain_moved (m : WriterTarget → Bool) (p : Port) : (p.moved m).plain = p.plain.moved m := by
  cases p <;> rfl

/-- From `s` to `t` the words of `m` on the port have been marked as meant for a window that moves; dirty marks stay, and
beside the port the bus pass unit is the same. -/
structure Follows (m : WriterTarget → Bool) (s t : State) : Prop where
  bus : { t.bus with port := .free } = { s.bus with port := .free }
  plain : t.bus.port.plain = s.bus.port.plain.moved m
  kept : PortKept s.bus.port t.bus.port
  length : t.writer.mirrorDirty.length = s.writer.mirrorDirty.length
  stays : ∀ i, s.writer.mirrorDirty.getD i false = true → t.writer.mirrorDirty.getD i false = true
  dirty : ∀ f, SlotDirty f s → SlotDirty f t

namespace Follows

variable {m n : WriterTarget → Bool} {s t u : State}

theorem trans (h : Follows m s t) (k : Follows n t u) : Follows (fun x => m x || n x) s u where
  bus := k.bus.trans h.bus
  plain := by rw [k.plain, h.plain, Port.moved_moved]
  kept := h.kept.trans k.kept
  length := k.length.trans h.length
  stays i hi := k.stays i (h.stays i hi)
  dirty f hf := k.dirty f (h.dirty f hf)

theorem congr (h : Follows m s t) (same : ∀ x, m x = n x) : Follows n s t := by
  rw [show n = m from funext fun x => (same x).symm]
  exact h

theorem refl (s : State) : Follows (fun _ => false) s s :=
  ⟨rfl, by rw [Port.moved_none], .same _, rfl, fun _ h => h, fun _ h => h⟩

end Follows

/-- What the moves of the feeders' side do with the word on the port: nothing but to its dirty mark. -/
theorem Moves.follows {s t : State} (h : Moves s t) : Follows (fun _ => false) s t where
  bus := (congrArg (fun u : State => { u.bus with port := .free }) h.outer :)
  plain := by
    rw [Port.moved_none]
    exact (congrArg (fun u : State => u.bus.port) h.outer :)
  kept := h.portKept
  length := h.marksUp.length
  stays := h.marksUp.stays
  dirty f := h.slotDirty

/-- The dirty marks that a change of what the mirror shows brings leave the rest alone. -/
theorem note_follows (ws : List Nat) (old s : State) : Follows (fun _ => false) s (State.note ws old s) where
  bus := (congrArg (fun u : State => { u.bus with port := .free }) (State.note_outer ws old s) :)
  plain := by
    rw [Port.moved_none]
    exact (congrArg (fun u : State => u.bus.port) (State.note_outer ws old s) :)
  kept := State.note_portKept ws old s
  length := by
    unfold State.note
    generalize s.mirrorWord = word
    induction ws generalizing s with
    | nil => rfl
    | cons i ws ih =>
      rw [List.foldl_cons, ih]
      split
      · rfl
      · exact State.touchMirror_length s i
  stays := by
    unfold State.note
    generalize s.mirrorWord = word
    induction ws generalizing s with
    | nil => exact fun _ h => h
    | cons i ws ih =>
      intro j h
      rw [List.foldl_cons]
      refine ih _ j ?_
      split
      · exact h
      · exact State.touchMirror_stays s i j h
  dirty f h := h.kept (fun d => by rwa [State.note_writer_resultDirty]) (State.note_portKept ws old s)

theorem portMoved_follows (s : State) (m : WriterTarget → Bool) : Follows m s (s.portMoved m) where
  bus := rfl
  plain := Port.plain_moved m s.bus.port
  kept := .moved m s.bus.port
  length := rfl
  stays _ h := h
  dirty _ h := h.kept id (.moved m s.bus.port)

end Sys2Proof.Machine
end

section
namespace Sys2Proof.Machine

/-! ## The installation before its feeders (R43, R111, R164, R172) -/

/-- What an installation loads: the table, and the loader at rest. -/
def State.loadTable (s : State) (new : Table) : State :=
  { s with table := some new
           loader := { s.loader with reload := .none, read := none, image := [], heldAddr := none } }

/-- The table is in place, and what the mirror shows of it is noted. -/
def State.noteTable (s : State) (new : Table) : State := State.note (List.range 40) s (s.loadTable new)

theorem noteTable_follows (s : State) (new : Table) : Follows (fun _ => false) s (s.noteTable new) := by
  have noted := note_follows (List.range 40) s (s.loadTable new)
  exact ⟨noted.bus, noted.plain, noted.kept, noted.length, noted.stays, noted.dirty⟩

theorem noteTable_hands (s : State) (new : Table) : Hands s (s.noteTable new) [] := by
  refine .nothing ?_ ?_ ?_ ?_ ?_ <;> simp [State.noteTable, State.loadTable]

/-- The ring's indexes, its record in progress and its burst are the same. -/
structure RingKept (s t : State) : Prop where
  producer : t.writer.producer = s.writer.producer
  published : t.writer.published = s.writer.published
  consumer : t.writer.consumer = s.writer.consumer
  inProgress : t.writer.inProgress = s.writer.inProgress
  burst : t.writer.burst = s.writer.burst

theorem RingKept.trans {s t u : State} (h : RingKept s t) (k : RingKept t u) : RingKept s u where
  producer := k.producer.trans h.producer
  published := k.published.trans h.published
  consumer := k.consumer.trans h.consumer
  inProgress := k.inProgress.trans h.inProgress
  burst := k.burst.trans h.burst

theorem Moves.ringKept {s t : State} (h : Moves s t) : RingKept s t := by
  have field : ∀ {α : Type} (g : State → α), g t.outer = g s.outer := fun g => congrArg g h.outer
  exact ⟨field (fun u => u.writer.producer), field (fun u => u.writer.published), field (fun u => u.writer.consumer),
    field (fun u => u.writer.inProgress), field (fun u => u.writer.burst)⟩

theorem noteTable_ringKept (s : State) (new : Table) : RingKept s (s.noteTable new) := by
  constructor <;> simp [State.noteTable, State.loadTable]

/-! ### The REFERENCE windows (R111) -/

/-- The feeders of `fs` whose REFERENCE window has moved are without a page owner, and their result slots dirty. -/
structure Disowned (old new : Table) (s m : State) (fs : List Fid) : Prop where
  follows : Follows (fun x => fs.any fun f => referenceMoved old new f && x.isResultOf f) s m
  blocks : m.blocks = State.blocks { s with stagers := m.stagers }
  writer : m.writer = { s.writer with resultDirty := m.writer.resultDirty }
  stagers : ∀ f, m.stagers.get f =
    if f ∈ fs ∧ referenceMoved old new f = true then { s.stagers.get f with owner := none } else s.stagers.get f
  slots : ∀ f ∈ fs, referenceMoved old new f = true → SlotDirty f m

theorem Disowned.refl (old new : Table) (s : State) : Disowned old new s s [] where
  follows := (Follows.refl s).congr fun _ => rfl
  blocks := rfl
  writer := rfl
  stagers f := by simp
  slots f h := absurd h List.not_mem_nil

theorem touchResult_follows (s : State) (f : Fid) : Follows (fun _ => false) s (s.touchResult f) :=
  (Moves.refl.tail (.result f)).follows

theorem Disowned.next {old new : Table} {s m : State} {fs : List Fid} (h : Disowned old new s m fs) (f : Fid) :
    Disowned old new s (m.followReference old new f) (fs ++ [f]) := by
  unfold State.followReference
  cases moved : referenceMoved old new f with
  | false =>
    rw [if_neg (by decide)]
    refine ⟨h.follows.congr fun x => by simp [moved], h.blocks, h.writer, fun g => ?_, fun g hg moves => ?_⟩
    · rw [h.stagers]
      by_cases eq : g = f
      · subst eq
        simp [moved]
      · simp [eq]
    · rcases List.mem_append.1 hg with mem | mem
      · exact h.slots g mem moves
      · rw [List.mem_singleton.1 mem, moved] at moves
        cases moves
  | true =>
    rw [if_pos rfl]
    have disowns : Follows (fun _ => false) m (m.disown f) := (Moves.refl.tail (.stager f _)).follows
    have moves := ((disowns.trans (touchResult_follows _ f)).trans (portMoved_follows _ (WriterTarget.isResultOf f)))
    refine ⟨(h.follows.trans moves).congr fun x => by simp [moved], ?_, ?_, fun g => ?_, fun g hg moves' => ?_⟩
    · exact (congrArg (fun u : State => { u with stagers := m.stagers.set f { m.stagers.get f with owner := none } })
        h.blocks :)
    · exact congrArg (fun w : Writer => { w with resultDirty := m.writer.resultDirty.set f (List.replicate 8 true) })
        h.writer
    · change (m.stagers.set f { m.stagers.get f with owner := none }).get g = _
      rw [Per8.get_set]
      by_cases eq : g = f
      · subst eq
        rw [if_pos rfl, if_pos ⟨by simp, moved⟩, h.stagers]
        split <;> rfl
      · rw [if_neg eq, h.stagers]
        simp [eq]
    · by_cases eq : g = f
      · subst eq
        exact (portMoved_follows _ (WriterTarget.isResultOf g)).dirty g (State.touchResult_slotDirty (m.disown g) g)
      · have mem : g ∈ fs := by simpa [eq] using hg
        exact moves.dirty g (h.slots g mem moves')

theorem Disowned.fold {old new : Table} {s : State} (fs : List Fid) : ∀ {m : State} {before : List Fid},
    Disowned old new s m before →
      Disowned old new s (fs.foldl (fun s f => s.followReference old new f) m) (before ++ fs) := by
  induction fs with
  | nil =>
    intro m before h
    rwa [List.append_nil]
  | cons f fs ih =>
    intro m before h
    rw [List.append_cons]
    exact ih (h.next f)

theorem Disowned.hands {old new : Table} {s m : State} {fs : List Fid} (h : Disowned old new s m fs) : Hands s m [] := by
  have stamp : m.stamp = s.stamp := (congrArg (fun u : State => u.stamp) h.blocks :)
  exact .nothing stamp (by rw [h.writer]) (by rw [h.writer]) (by rw [h.writer]) (by rw [h.writer])

theorem Disowned.ringKept {old new : Table} {s m : State} {fs : List Fid} (h : Disowned old new s m fs) :
    RingKept s m := ⟨by rw [h.writer], by rw [h.writer], by rw [h.writer], by rw [h.writer], by rw [h.writer]⟩

/-! ### The ring (R153, R164) -/

/-- The place and size of a table's ring. -/
def Table.ringPlace (t : Table) : Option (Word × Nat) := (t.window .ring).map fun w => (w.base, w.sizeLog)

theorem followRing_same (s : State) {old new : Table} (same : old.ringPlace = new.ringPlace) :
    s.followRing old new = s := if_pos same

/-- What a ring that moves or changes its size leaves of the report writer (R164). -/
structure RingMoved (s t : State) : Prop where
  producer : t.writer.producer = 0#16
  published : t.writer.published = 0#16
  consumer : t.writer.consumer = 0#16
  inProgress : t.writer.inProgress = s.writer.inProgress.map InProgress.again
  burst : t.writer.burst = s.writer.burst.map Burst.ringMoved

/-- The indexes returned to 0, before the writer and the port follow. -/
def State.zeroIndexes (s : State) : State := (s.putProducer 0#16).putConsumer 0#16

theorem followRing_moved (s : State) {old new : Table} (moved : old.ringPlace ≠ new.ringPlace) :
    s.followRing old new =
      State.portMoved { s.zeroIndexes with writer := { s.zeroIndexes.writer with
        published := 0#16
        inProgress := s.zeroIndexes.writer.inProgress.map InProgress.again
        burst := s.zeroIndexes.writer.burst.map Burst.ringMoved } } WriterTarget.isRing := if_neg moved

theorem zeroIndexes_follows (s : State) : Follows (fun _ => false) s s.zeroIndexes := by
  have produced := note_follows [producerWord] s { s with writer := { s.writer with producer := 0#16 } }
  have produced : Follows (fun _ => false) s (s.putProducer 0#16) :=
    ⟨produced.bus, produced.plain, produced.kept, produced.length, produced.stays, produced.dirty⟩
  have consumed := note_follows [5] (s.putProducer 0#16)
    { s.putProducer 0#16 with writer := { (s.putProducer 0#16).writer with consumer := 0#16 } }
  have consumed : Follows (fun _ => false) (s.putProducer 0#16) s.zeroIndexes :=
    ⟨consumed.bus, consumed.plain, consumed.kept, consumed.length, consumed.stays, consumed.dirty⟩
  exact (produced.trans consumed).congr fun _ => rfl

theorem followRing_follows (s : State) (old new : Table) :
    Follows (fun x => decide (old.ringPlace ≠ new.ringPlace) && x.isRing) s (s.followRing old new) := by
  by_cases same : old.ringPlace = new.ringPlace
  · rw [followRing_same s same]
    exact (Follows.refl s).congr fun x => by simp [same]
  · rw [followRing_moved s same]
    have zero := zeroIndexes_follows s
    have marked := zero.trans (portMoved_follows s.zeroIndexes WriterTarget.isRing)
    exact Follows.congr (m := fun x => false || x.isRing)
      ⟨marked.bus, marked.plain, marked.kept, marked.length, marked.stays, marked.dirty⟩ fun x => by simp [same]

theorem followRing_blocks (s : State) (old new : Table) : (s.followRing old new).blocks = s.blocks := by
  by_cases same : old.ringPlace = new.ringPlace
  · rw [followRing_same s same]
  · rw [followRing_moved s same]
    simp [State.blocks, State.portMoved, State.zeroIndexes]

theorem followRing_hands (s : State) (old new : Table) : Hands s (s.followRing old new) [] := by
  by_cases same : old.ringPlace = new.ringPlace
  · rw [followRing_same s same]
    exact .refl s
  · rw [followRing_moved s same]
    refine .nothing ?_ ?_ ?_ ?_ ?_ <;> simp [State.portMoved, State.zeroIndexes]

theorem followRing_ringMoved (s : State) {old new : Table} (moved : old.ringPlace ≠ new.ringPlace) :
    RingMoved s (s.followRing old new) := by
  rw [followRing_moved s moved]
  constructor <;> simp [State.portMoved, State.zeroIndexes]

/-! ### The mirror (R164) -/

theorem followMirror_same (s : State) {old new : Table} (same : baseOf (old.window .mirror) = baseOf (new.window .mirror)) :
    s.followMirror old new = s := if_pos same

theorem followMirror_moved (s : State) {old new : Table}
    (moved : baseOf (old.window .mirror) ≠ baseOf (new.window .mirror)) :
    s.followMirror old new = s.touchAllMirror.portMoved WriterTarget.isMirror := if_neg moved

/-- Marking mirror words dirty leaves all but the marks alone, and marks those there are. -/
theorem touchMirrors (ws : List Nat) (s : State) :
    Follows (fun _ => false) s (ws.foldl State.touchMirror s) ∧
      (ws.foldl State.touchMirror s).blocks = s.blocks ∧
      (ws.foldl State.touchMirror s).writer =
        { s.writer with mirrorDirty := (ws.foldl State.touchMirror s).writer.mirrorDirty } ∧
      ∀ i ∈ ws, i < s.writer.mirrorDirty.length → (ws.foldl State.touchMirror s).writer.mirrorDirty.getD i false = true := by
  induction ws generalizing s with
  | nil => exact ⟨.refl s, rfl, rfl, fun _ h => absurd h List.not_mem_nil⟩
  | cons w ws ih =>
    obtain ⟨follows, blocks, writer, marks⟩ := ih (s.touchMirror w)
    have touched : Follows (fun _ => false) s (s.touchMirror w) :=
      ⟨rfl, by rw [Port.moved_none]; exact Port.plain_touch _ _, .touch _ _, State.touchMirror_length s w,
        fun i h => State.touchMirror_stays s w i h, fun f h => h.kept id (.touch _ _)⟩
    rw [List.foldl_cons]
    refine ⟨(touched.trans follows).congr fun _ => rfl, blocks, writer, fun i hi short => ?_⟩
    rcases List.mem_cons.1 hi with rfl | mem
    · exact follows.stays i (State.touchMirror_marks s i short)
    · exact marks i mem (by rwa [State.touchMirror_length])

theorem followMirror_follows (s : State) (old new : Table) :
    Follows (fun x => decide (baseOf (old.window .mirror) ≠ baseOf (new.window .mirror)) && x.isMirror) s
      (s.followMirror old new) := by
  by_cases same : baseOf (old.window .mirror) = baseOf (new.window .mirror)
  · rw [followMirror_same s same]
    exact (Follows.refl s).congr fun x => by simp [same]
  · rw [followMirror_moved s same]
    obtain ⟨touched, -⟩ := touchMirrors (List.range 40) s
    exact (touched.trans (portMoved_follows s.touchAllMirror _)).congr fun x => by simp [same]

theorem followMirror_rest (s : State) (old new : Table) :
    (s.followMirror old new).blocks = s.blocks ∧
      (s.followMirror old new).writer =
        { s.writer with mirrorDirty := (s.followMirror old new).writer.mirrorDirty } := by
  by_cases same : baseOf (old.window .mirror) = baseOf (new.window .mirror)
  · rw [followMirror_same s same]
    exact ⟨rfl, rfl⟩
  · rw [followMirror_moved s same]
    obtain ⟨-, blocks, writer, -⟩ := touchMirrors (List.range 40) s
    exact ⟨blocks, writer⟩

theorem followMirror_marks (s : State) {old new : Table}
    (moved : baseOf (old.window .mirror) ≠ baseOf (new.window .mirror)) (length : s.writer.mirrorDirty.length = 40) :
    ∀ i < 40, (s.followMirror old new).writer.mirrorDirty.getD i false = true := by
  rw [followMirror_moved s moved]
  obtain ⟨-, -, -, marks⟩ := touchMirrors (List.range 40) s
  exact fun i hi => marks i (List.mem_range.2 hi) (by omega)

end Sys2Proof.Machine
end

section
namespace Sys2Proof.Machine

/-- The TABLE_LOADED record of a reload. -/
def loadedRecord (addr : Word) (old new : Table) : Body :=
  .tableLoaded addr new.length new.identity new.windows.length true (compareTables old new).sample
    (compareTables old new).entries

/-- The installing event up to its feeders (R172). -/
def State.beforeFeeders (s : State) (addr : Word) (old new : Table) : State :=
  let windows := Fid.all.foldl (fun s f => s.followReference old new f)
    ((s.noteTable new).reloadMonitors (compareTables old new))
  ((windows.followRing old new).followMirror old new).handRecord (loadedRecord addr old new)

theorem installReload_eq (s : State) (addr : Word) (old new : Table) :
    s.installReload addr old new =
      (Fid.all.foldl (fun s f => s.reloadOne old (compareTables old new) f) (s.beforeFeeders addr old new)).judgeAttn :=
  rfl

/-- The words on the port that are meant for a window which moves. -/
def movedWords (old new : Table) (x : WriterTarget) : Bool :=
  (Fid.all.any fun f => referenceMoved old new f && x.isResultOf f) ||
    (decide (old.ringPlace ≠ new.ringPlace) && x.isRing) ||
    (decide (baseOf (old.window .mirror) ≠ baseOf (new.window .mirror)) && x.isMirror)

/-- What the installing event has done before its feeders follow. -/
structure Prelude (addr : Word) (old new : Table) (s m : State) : Prop where
  follows : Follows (movedWords old new) s m
  blocks : m.blocks = State.blocks { s.loadTable new with
    monitors := Per8.ofFn fun f => (s.monitors.get f).atReload
      ((compareTables old new).sample || (compareTables old new).entries.contains f)
    dclink := DcMonitor.reset, stagers := m.stagers }
  stagers : ∀ f, m.stagers.get f =
    if referenceMoved old new f = true then { s.stagers.get f with owner := none } else s.stagers.get f
  slots : ∀ f, referenceMoved old new f = true → SlotDirty f m
  hands : Hands s m [loadedRecord addr old new]
  ringKept : old.ringPlace = new.ringPlace → RingKept s m
  ringMoved : old.ringPlace ≠ new.ringPlace → RingMoved s m
  mirror : baseOf (old.window .mirror) ≠ baseOf (new.window .mirror) → s.writer.mirrorDirty.length = 40 →
    ∀ i < 40, m.writer.mirrorDirty.getD i false = true

theorem RingMoved.after {s t u : State} (h : RingMoved t u) (k : RingKept s t) : RingMoved s u where
  producer := h.producer
  published := h.published
  consumer := h.consumer
  inProgress := by rw [h.inProgress, k.inProgress]
  burst := by rw [h.burst, k.burst]

theorem RingMoved.before {s t u : State} (h : RingMoved s t) (k : RingKept t u) : RingMoved s u where
  producer := k.producer.trans h.producer
  published := k.published.trans h.published
  consumer := k.consumer.trans h.consumer
  inProgress := k.inProgress.trans h.inProgress
  burst := k.burst.trans h.burst

theorem beforeFeeders_prelude (s : State) (addr : Word) (old new : Table) :
    Prelude addr old new s (s.beforeFeeders addr old new) := by
  have noted := noteTable_follows s new
  have notedHands := noteTable_hands s new
  have notedRing := noteTable_ringKept s new
  have notedBlocks : ((s.noteTable new).reloadMonitors (compareTables old new)).blocks =
      State.blocks { s.loadTable new with
        monitors := Per8.ofFn fun f => (s.monitors.get f).atReload
          ((compareTables old new).sample || (compareTables old new).entries.contains f)
        dclink := DcMonitor.reset } := by
    simp [State.reloadMonitors, State.blocks, State.noteTable, State.loadTable]
  have monitors : Follows (fun _ => false) s ((s.noteTable new).reloadMonitors (compareTables old new)) :=
    ⟨noted.bus, noted.plain, noted.kept, noted.length, noted.stays, fun f h => noted.dirty f h⟩
  have monitorsHands : Hands s ((s.noteTable new).reloadMonitors (compareTables old new)) [] :=
    notedHands.trans (ys := []) (.nothing rfl rfl rfl rfl rfl)
  have monitorsRing : RingKept s ((s.noteTable new).reloadMonitors (compareTables old new)) :=
    ⟨notedRing.producer, notedRing.published, notedRing.consumer, notedRing.inProgress, notedRing.burst⟩
  have monitorsStagers : ((s.noteTable new).reloadMonitors (compareTables old new)).stagers = s.stagers :=
    (congrArg (fun u : State => u.stagers) notedBlocks :)
  unfold State.beforeFeeders
  dsimp only
  generalize (s.noteTable new).reloadMonitors (compareTables old new) = a at *
  have disowned := (Disowned.refl old new a).fold Fid.all
  rw [List.nil_append] at disowned
  generalize Fid.all.foldl (fun s f => s.followReference old new f) a = b at *
  have ringFollows := followRing_follows b old new
  have ringBlocks := followRing_blocks b old new
  have ringHands := followRing_hands b old new
  have ringSame := followRing_same b (old := old) (new := new)
  have ringMoved := followRing_ringMoved b (old := old) (new := new)
  generalize b.followRing old new = c at *
  have mirrorFollows := followMirror_follows c old new
  have mirrorRest := followMirror_rest c old new
  have mirrorMarks := followMirror_marks c (old := old) (new := new)
  generalize c.followMirror old new = d at *
  obtain ⟨mirrorBlocks, mirrorWriter⟩ := mirrorRest
  have mirrorRing : RingKept c d :=
    ⟨by rw [mirrorWriter], by rw [mirrorWriter], by rw [mirrorWriter], by rw [mirrorWriter], by rw [mirrorWriter]⟩
  have mirrorStamp : d.stamp = c.stamp := (congrArg (fun u : State => u.stamp) mirrorBlocks :)
  have mirrorHands : Hands c d [] :=
    .nothing mirrorStamp (by rw [mirrorWriter]) (by rw [mirrorWriter]) (by rw [mirrorWriter]) (by rw [mirrorWriter])
  have recorded : Moves d (d.handRecord (loadedRecord addr old new)) := State.handRecord_moves d _ .refl
  have blocks : (d.handRecord (loadedRecord addr old new)).blocks = State.blocks { a with stagers := b.stagers } := by
    have same : (d.handRecord (loadedRecord addr old new)).blocks = d.blocks := by simp [State.blocks]
    rw [same, mirrorBlocks, ringBlocks, disowned.blocks]
  have stagers : (d.handRecord (loadedRecord addr old new)).stagers = b.stagers :=
    (congrArg (fun u : State => u.stagers) blocks :)
  constructor
  case follows =>
    exact ((((monitors.trans disowned.follows).trans ringFollows).trans mirrorFollows).trans recorded.follows).congr
      fun x => by simp [movedWords]
  case blocks =>
    rw [stagers, blocks]
    exact congrArg (fun u : State => { u with stagers := b.stagers }) notedBlocks
  case stagers =>
    intro f
    rw [stagers, disowned.stagers, monitorsStagers]
    simp only [Fid.mem_all, true_and]
  case slots =>
    intro f moved
    exact recorded.slotDirty (mirrorFollows.dirty f (ringFollows.dirty f (disowned.slots f (Fid.mem_all f) moved)))
  case hands =>
    exact (((monitorsHands.trans disowned.hands).trans ringHands).trans mirrorHands).trans (.handRecord d _)
  case ringKept =>
    intro same
    have ring : RingKept b c := by
      rw [ringSame same]
      exact ⟨rfl, rfl, rfl, rfl, rfl⟩
    exact (((monitorsRing.trans disowned.ringKept).trans ring).trans mirrorRing).trans recorded.ringKept
  case ringMoved =>
    intro moved
    exact ((ringMoved moved).after (monitorsRing.trans disowned.ringKept)).before (mirrorRing.trans recorded.ringKept)
  case mirror =>
    intro moved length
    have length : c.writer.mirrorDirty.length = 40 := by
      rw [ringFollows.length, disowned.follows.length, monitors.length, length]
    exact fun i hi => recorded.marksUp.stays i (mirrorMarks moved length i hi)

end Sys2Proof.Machine
end

section
namespace Sys2Proof.Machine

/-! ## What a reload has one feeder do (R22, R43, R58, R111, R172) -/

/-- What a reload turns on for one feeder: whether its entry was and is enabled, whether a sample setting changed, and
whether one did or its entry. -/
structure Turn where
  was : Bool
  now : Bool
  sample : Bool
  changed : Bool

namespace Turn

/-- The feeder enters ARMING with cause TABLE (R22). -/
def resets (p : Turn) : Bool := p.now && (!p.was || p.changed)

/-- The feeder enters OFF (R22). -/
def stops (p : Turn) : Bool := p.was && !p.now

/-- The feeder goes to FAULT or OFF, where it stands down (R19, R22). -/
def leaves (p : Turn) (malm : Bool) : Bool := malm && p.resets || p.stops

/-- The controller that the feeder ends with. -/
def ctl (p : Turn) (malm : Bool) (c : FeederCtl) : FeederCtl :=
  if p.resets then
    if malm then { c.armed .table with state := .fault, reason := .alarm, sag := none, episode := none }
    else c.armed .table
  else if p.stops then { c with state := .off, reason := .disabled, source := .none, sag := none, episode := none }
  else c

/-- The silence timer that the feeder ends with (R40). -/
def silence (p : Turn) (limit : Nat) (x : Option Nat) : Option Nat :=
  if p.resets then some limit else if p.stops then none else x

/-- The stager after the feeder has stood down, if it does (R107). -/
def stager (p : Turn) (malm : Bool) (g : Stager) : Stager :=
  if p.leaves malm then { g with pending := none, onLine := none, inSlot := none } else g

/-- What a feeder's change of state hands over: its records, and behind them what a stand-down ends and closes. -/
def log (p : Turn) (malm : Bool) (f : Fid) (c : FeederCtl) (hc : BitVec 8) (g : Stager) : List LogItem :=
  let ends := endings .none g.committed (endAll .notRiding g.held)
  if p.resets then
    .record (.feederState f c.state .arming .table) ::
      if malm then
        .record (.feederState f .arming .fault .alarm) :: ends ++ records (standDownRecords f c hc .fault .fault)
      else []
  else if p.stops then
    .record (.feederState f c.state .off .disabled) :: ends ++ records (standDownRecords f c hc .off .off)
  else []

/-- The FEEDER_STATE records of a feeder's change of state. -/
def changes (p : Turn) (malm : Bool) (f : Fid) (state : FeederState) : List Body :=
  if p.resets then
    .feederState f state .arming .table :: if malm then [.feederState f .arming .fault .alarm] else []
  else if p.stops then [.feederState f state .off .disabled]
  else []

theorem stops_of_resets {p : Turn} (h : p.resets = true) : p.stops = false := by
  have now := Bool.and_elim_left h
  unfold stops
  rw [now, Bool.not_true, Bool.and_false]

theorem leaves_of_resets {p : Turn} (h : p.resets = true) (malm : Bool) : p.leaves malm = malm := by
  unfold leaves
  rw [h, stops_of_resets h, Bool.and_true, Bool.or_false]

theorem leaves_of_stays {p : Turn} (h : p.resets = false) (malm : Bool) : p.leaves malm = p.stops := by
  unfold leaves
  rw [h, Bool.and_false, Bool.false_or]

theorem length_log_le (p : Turn) (malm : Bool) (f : Fid) (c : FeederCtl) (hc : BitVec 8) (g : Stager) :
    (p.log malm f c hc g).length ≤ 7 := by
  have ends := length_held_le g
  have fault := length_standDownRecords_le f c hc .fault .fault
  have off := length_standDownRecords_le f c hc .off .off
  have counted : (endAll .notRiding g.held).length = g.held.length := length_endAll _ _
  unfold log
  dsimp only
  split
  · split
    · simp only [endings, records, List.length_append, List.length_cons, List.length_map]
      omega
    · exact Nat.le_add_left 1 6
  · split
    · simp only [endings, records, List.length_append, List.length_cons, List.length_map]
      omega
    · exact Nat.zero_le 7

theorem mem_ends_records {b b' : Body} {source : Source} {page : Page} {xs : List Ending} {l : List Body}
    (h : LogItem.record b ∈ LogItem.record b' :: endings source page xs ++ records l) : b = b' ∨ b ∈ l := by
  simpa [endings, records] using h

/-- No record of its own that a feeder's change of state hands over is a result's. -/
theorem log_own (p : Turn) (malm : Bool) (f : Fid) (c : FeederCtl) (hc : BitVec 8) (g : Stager) :
    ∀ b, LogItem.record b ∈ p.log malm f c hc g → b.own = true := by
  intro b h
  unfold log at h
  dsimp only at h
  by_cases resets : p.resets = true
  · rw [if_pos resets] at h
    rcases List.mem_cons.1 h with first | h
    · cases first
      rfl
    · by_cases alarm : malm = true
      · rw [if_pos alarm] at h
        rcases mem_ends_records h with rfl | h
        · rfl
        · exact standDownRecords_own _ _ _ _ _ b h
      · rw [if_neg alarm] at h
        exact absurd h List.not_mem_nil
  · rw [if_neg resets] at h
    by_cases stops : p.stops = true
    · rw [if_pos stops] at h
      rcases mem_ends_records h with rfl | h
      · rfl
      · exact standDownRecords_own _ _ _ _ _ b h
    · rw [if_neg stops] at h
      exact absurd h List.not_mem_nil

/-- A feeder that holds no reference record makes no result by changing its state. -/
theorem log_of_held (p : Turn) (malm : Bool) (f : Fid) (c : FeederCtl) (hc : BitVec 8) {g : Stager} (held : g.held = []) :
    ∃ l, p.log malm f c hc g = records l ∧ (c.sag = none → c.episode = none → l = p.changes malm f c.state) := by
  have closed : ∀ o k, c.sag = none → c.episode = none → standDownRecords f c hc o k = [] := by
    intro o k sag episode
    simp [standDownRecords, sag, episode]
  unfold log changes
  dsimp only
  rw [held]
  by_cases resets : p.resets = true
  · rw [if_pos resets, if_pos resets]
    by_cases alarm : malm = true
    · rw [if_pos alarm, if_pos alarm]
      refine ⟨.feederState f c.state .arming .table :: .feederState f .arming .fault .alarm ::
        standDownRecords f c hc .fault .fault, rfl, fun sag episode => ?_⟩
      rw [closed _ _ sag episode]
    · rw [if_neg alarm, if_neg alarm]
      exact ⟨_, rfl, fun _ _ => rfl⟩
  · rw [if_neg resets, if_neg resets]
    by_cases stops : p.stops = true
    · rw [if_pos stops, if_pos stops]
      refine ⟨.feederState f c.state .off .disabled :: standDownRecords f c hc .off .off, rfl, fun sag episode => ?_⟩
      rw [closed _ _ sag episode]
    · rw [if_neg stops, if_neg stops]
      exact ⟨[], rfl, fun _ _ => rfl⟩

end Turn

/-- What a feeder's change of state at a reload leaves. -/
structure Reacts (p : Turn) (f : Fid) (b c : State) : Prop where
  ctl : c.ctl = b.ctl.set f (p.ctl (b.malm.get f) (b.ctl.get f))
  monitors : c.monitors = b.monitors.set f
    { b.monitors.get f with silence := p.silence b.settings.silenceLimit (b.monitors.get f).silence }
  trackers : c.trackers = b.trackers
  evals : ∀ g, g ≠ f ∨ (b.ctl.get f).sag = none → c.evals.get g = b.evals.get g
  account : c.account = { b.account with
    reserved := b.account.reserved.set f (if p.leaves (b.malm.get f) then 0 else b.account.reserved.get f) }
  link : c.link = if p.leaves (b.malm.get f) then b.link.without f else b.link
  stager : (c.stagers.get f).bare = p.stager (b.malm.get f) (b.stagers.get f).bare
  stagers : ∀ g, g ≠ f → c.stagers.get g = b.stagers.get g
  malm : c.malm = b.malm
  draws : c.draws = b.draws
  table : c.table = b.table

theorem get_set_of_no_sag {v : Per8 Evaluator} {f g : Fid} {sag : Option SagRecord} (x : Evaluator)
    (h : g ≠ f ∨ sag = none) : (v.set f (if sag.isSome then x else v.get f)).get g = v.get g := by
  rcases h with ne | rfl
  · exact Per8.get_set_ne _ _ ne
  · rw [Option.isSome_none, if_neg (by decide), Per8.set_get_self]

theorem reloadFeeder_eq (s : State) (f : Fid) {p : Turn} (now : (s.entry f).enabled = p.now) :
    s.reloadFeeder f p.was p.changed =
      if p.resets then s.enterArming f .table else if p.stops then s.enterOff f else s := by
  unfold State.reloadFeeder Turn.resets Turn.stops
  rw [now]
  cases p.was <;> cases p.now <;> cases p.changed <;> rfl

theorem beginArming_reacts (s : State) (f : Fid) {p : Turn} (resets : p.resets = true) (calm : s.malm.get f = false) :
    Reacts p f s (s.beginArming f .table) where
  ctl := by simp [Turn.ctl, resets, calm]
  monitors := by simp [Turn.silence, resets]
  trackers := by simp
  evals _ _ := by simp
  account := by simp [Turn.leaves_of_resets resets, calm]
  link := by simp [Turn.leaves_of_resets resets, calm]
  stager := by simp [Turn.stager, Turn.leaves_of_resets resets, calm]
  stagers _ _ := by simp
  malm := by simp
  draws := by simp
  table := by simp

theorem enterFault_reacts (s : State) (f : Fid) {p : Turn} (resets : p.resets = true) (alarm : s.malm.get f = true) :
    Reacts p f s ((s.beginArming f .table).enterFault f .alarm) where
  ctl := by simp [State.enterFault_ctl, Turn.ctl, resets, alarm, FeederCtl.armed]
  monitors := by simp [Turn.silence, resets]
  trackers := by simp
  evals g h := by
    rw [State.enterFault_evals, State.beginArming_evals, State.beginArming_ctl, Per8.get_set_same]
    exact get_set_of_no_sag _ h
  account := by simp [State.enterFault_account, Turn.leaves_of_resets resets, alarm]
  link := by simp [State.enterFault_link, Turn.leaves_of_resets resets, alarm]
  stager := by simp [State.enterFault_bare, Turn.stager, Turn.leaves_of_resets resets, alarm]
  stagers g ne := by simp [State.enterFault_stager_ne _ _ _ ne]
  malm := by simp
  draws := by simp
  table := by simp

theorem enterOff_reacts (s : State) (f : Fid) {p : Turn} (resets : p.resets = false) (stops : p.stops = true) :
    Reacts p f s (s.enterOff f) where
  ctl := by simp [State.enterOff, State.putMonitor, State.standDown_ctl, Turn.ctl, resets, stops]
  monitors := by simp [State.enterOff, State.putMonitor, Turn.silence, resets, stops]
  trackers := by simp [State.enterOff, State.putMonitor]
  evals g h := by
    change (((s.setState f .off .disabled).standDown f .off .off).evals).get g = _
    rw [State.standDown_evals, State.setState_evals, State.setState_ctl, Per8.get_set_same]
    exact get_set_of_no_sag _ h
  account := by
    simp [State.enterOff, State.putMonitor, State.standDown_account, Turn.leaves_of_stays resets, stops]
  link := by simp [State.enterOff, State.putMonitor, State.standDown_link, Turn.leaves_of_stays resets, stops]
  stager := by
    simp [State.enterOff, State.putMonitor, State.standDown_bare, Turn.stager, Turn.leaves_of_stays resets, stops]
  stagers g ne := by simp [State.enterOff, State.putMonitor, State.standDown_stager_ne _ _ _ _ ne]
  malm := by simp [State.enterOff, State.putMonitor]
  draws := by simp [State.enterOff, State.putMonitor]
  table := by simp [State.enterOff, State.putMonitor]

theorem stays_reacts (s : State) (f : Fid) {p : Turn} (resets : p.resets = false) (stops : p.stops = false) :
    Reacts p f s s where
  ctl := by simp [Turn.ctl, resets, stops, Per8.set_get_self]
  monitors := by
    unfold Turn.silence
    rw [resets, stops]
    exact (Per8.set_get_self _ _).symm
  trackers := rfl
  evals _ _ := rfl
  account := by simp [Turn.leaves_of_stays resets, stops, Per8.set_get_self]
  link := by simp [Turn.leaves_of_stays resets, stops]
  stager := by simp [Turn.stager, Turn.leaves_of_stays resets, stops]
  stagers _ _ := rfl
  malm := rfl
  draws := rfl
  table := rfl

theorem reloadFeeder_reacts (s : State) (f : Fid) {p : Turn} (now : (s.entry f).enabled = p.now) :
    Reacts p f s (s.reloadFeeder f p.was p.changed) := by
  rw [reloadFeeder_eq s f now]
  by_cases resets : p.resets = true
  · rw [if_pos resets, State.enterArming_eq]
    by_cases alarm : s.malm.get f = true
    · rw [if_pos alarm]
      exact enterFault_reacts s f resets alarm
    · rw [if_neg alarm]
      exact beginArming_reacts s f resets (by simpa using alarm)
  · rw [if_neg resets]
    rw [Bool.not_eq_true] at resets
    by_cases stops : p.stops = true
    · rw [if_pos stops]
      exact enterOff_reacts s f resets stops
    · rw [if_neg stops]
      exact stays_reacts s f resets (by simpa using stops)

theorem Logs.reloadFeeder {f : Fid} {s t : State} {log : List LogItem} (h : Logs f s t log) {p : Turn}
    (now : (t.entry f).enabled = p.now) :
    Logs f s (t.reloadFeeder f p.was p.changed)
      (log ++ p.log (t.malm.get f) f (t.ctl.get f) (t.trackers.get f).hc (t.stagers.get f)) := by
  rw [reloadFeeder_eq t f now]
  unfold Turn.log
  dsimp only
  by_cases resets : p.resets = true
  · rw [if_pos resets, if_pos resets, State.enterArming_eq]
    by_cases alarm : t.malm.get f = true
    · rw [if_pos alarm, if_pos alarm]
      refine ((h.beginArming .table).enterFault .alarm).of_eq ?_
      rw [State.beginArming_ctl, Per8.get_set_same, State.beginArming_stagers, State.beginArming_trackers]
      simp [FeederCtl.armed, standDownRecords]
    · rw [if_neg alarm, if_neg alarm]
      exact h.beginArming .table
  · rw [if_neg resets, if_neg resets]
    by_cases stops : p.stops = true
    · rw [if_pos stops, if_pos stops]
      refine (((h.setState .off .disabled).standDown .off .off).putMonitor f _).of_eq ?_
      rw [State.setState_ctl, Per8.get_set_same, State.setState_stagers, State.setState_trackers]
      simp [standDownRecords]
    · rw [if_neg stops, if_neg stops]
      exact h.of_eq (List.append_nil log).symm

end Sys2Proof.Machine
end

section
namespace Sys2Proof.Machine

/-! ## A feeder's turn in a reload, as an event of its own (R109, R111, R172) -/

/-- What is kept for one feeder, but for its slot on the link. -/
structure FeederView where
  ctl : FeederCtl
  monitor : Monitor
  tracker : Tracker
  eval : Evaluator
  stager : Stager
  reserved : Nat

def State.view (s : State) (f : Fid) : FeederView :=
  ⟨s.ctl.get f, s.monitors.get f, s.trackers.get f, s.evals.get f, s.stagers.get f, s.account.reserved.get f⟩

/-- An abandoned assembly ends as a record would that carries the identity of its first word (R111). -/
def abandonEnding (x : Assembly) : Ending :=
  ⟨.abandoned, ⟨0, x.word0.extractLsb' 8 8, x.word0.extractLsb' 16 8, Reference.zero, false⟩, none⟩

/-- The ends of a stager's assembly at a reload. -/
def Stager.abandons (g : Stager) : List Ending := g.assembly.toList.map abandonEnding

/-- The SYNC_CHANGE record of a tracker that a reload sends back (R53, R58). -/
def Turn.moves (p : Turn) (f : Fid) (k : Tracker) : List Body :=
  if p.sample = true ∧ k.sync ≠ .seek ∧ p.now = true then [.syncChange f k.sync .seek .table k.coast k.hc] else []

/-- The records of a feeder's turn that ends with injection source `source`, with no sag open and no record held. -/
def Turn.bodies (p : Turn) (malm : Bool) (f : Fid) (x : FeederView) (source : Source) : List Body :=
  refRecords f (logResults x.tracker.hc x.stager.number (endings source x.stager.committed x.stager.abandons)) ++
    p.moves f x.tracker ++ p.changes malm f x.ctl.state

theorem abandonAssembly_blocks (s : State) (f : Fid) :
    (s.abandonAssembly f).blocks = State.blocks { s with stagers := (s.abandonAssembly f).stagers } := by
  unfold State.abandonAssembly
  split
  · rfl
  · simp [State.blocks, State.putStager]

theorem abandonAssembly_bare (s : State) (f : Fid) :
    ((s.abandonAssembly f).stagers.get f).bare = { (s.stagers.get f).bare with assembly := none } := by
  unfold State.abandonAssembly
  split
  · next h => simp [Stager.bare, ← h]
  · exact State.makeResult_bare ..

theorem abandonAssembly_stager_ne (s : State) {f g : Fid} (ne : g ≠ f) :
    (s.abandonAssembly f).stagers.get g = s.stagers.get g := by
  unfold State.abandonAssembly
  split
  · rfl
  · exact State.makeResult_stager_ne _ _ _ ne

theorem Logs.abandonAssembly {f : Fid} {s t : State} {log : List LogItem} (h : Logs f s t log) :
    Logs f s (t.abandonAssembly f)
      (log ++ endings (t.ctl.get f).source (t.stagers.get f).committed (t.stagers.get f).abandons) := by
  unfold State.abandonAssembly Stager.abandons
  split
  · next none => simpa [none] using h
  · next x some =>
    rw [some]
    exact h.ended { t.stagers.get f with assembly := none } (abandonEnding x) rfl rfl

theorem trackerToSeek_trackers (s : State) (f : Fid) :
    (s.trackerToSeek f).trackers = s.trackers.set f (s.trackers.get f).toSeek := by
  unfold State.trackerToSeek
  dsimp only
  split <;> simp

theorem trackerToSeek_blocks (s : State) (f : Fid) :
    (s.trackerToSeek f).blocks = State.blocks { s with trackers := (s.trackerToSeek f).trackers } := by
  unfold State.trackerToSeek
  dsimp only
  split <;> simp [State.blocks]

theorem Logs.trackerToSeek {f : Fid} {s t : State} {log : List LogItem} (h : Logs f s t log) {p : Turn}
    (sample : p.sample = true) (now : (t.entry f).enabled = p.now) :
    Logs f s (t.trackerToSeek f) (log ++ records (p.moves f (t.trackers.get f))) := by
  have sought : Logs f s (t.putTracker f (t.trackers.get f).toSeek) log := h.putTracker f _ rfl
  have entry : ((t.putTracker f (t.trackers.get f).toSeek).entry f).enabled = p.now := by
    rw [← now]
    unfold State.entry
    rw [State.putTracker_table]
  unfold State.trackerToSeek Turn.moves
  dsimp only
  rw [entry, sample]
  by_cases silent : (t.trackers.get f).sync = .seek ∨ (!p.now) = true
  · rw [if_pos silent, if_neg]
    · exact sought.of_eq (List.append_nil log).symm
    · rintro ⟨-, seek, on⟩
      rw [on] at silent
      exact silent.elim seek (fun h => nomatch h)
  · rw [if_neg silent, if_pos]
    · exact sought.handRecord _
    · refine ⟨rfl, fun seek => silent (.inl seek), ?_⟩
      by_contra off
      exact silent (.inr (by simpa using off))

/-- A feeder's turn before its change of state. -/
def State.prepared (s : State) (sample : Bool) (f : Fid) : State :=
  if sample then (s.abandonAssembly f).trackerToSeek f else s.abandonAssembly f

/-- What a feeder's turn has done before its change of state. -/
structure Prepared (p : Turn) (f : Fid) (m b : State) : Prop where
  blocks : b.blocks = State.blocks { m with stagers := b.stagers, trackers := b.trackers }
  trackers : b.trackers = m.trackers.set f (if p.sample then (m.trackers.get f).toSeek else m.trackers.get f)
  stager : (b.stagers.get f).bare = { (m.stagers.get f).bare with assembly := none }
  stagers : ∀ g, g ≠ f → b.stagers.get g = m.stagers.get g
  log : Logs f m b
    (endings (m.ctl.get f).source (m.stagers.get f).committed (m.stagers.get f).abandons ++
      records (p.moves f (m.trackers.get f)))

theorem prepared_prepared (m : State) (f : Fid) {p : Turn} (now : (m.entry f).enabled = p.now) :
    Prepared p f m (m.prepared p.sample f) := by
  have blocks := abandonAssembly_blocks m f
  have trackers : (m.abandonAssembly f).trackers = m.trackers := (congrArg (fun u : State => u.trackers) blocks :)
  have log := (Logs.refl f m).abandonAssembly
  rw [List.nil_append] at log
  unfold State.prepared
  by_cases sample : p.sample = true
  · have seekBlocks := trackerToSeek_blocks (m.abandonAssembly f) f
    have stagers : ((m.abandonAssembly f).trackerToSeek f).stagers = (m.abandonAssembly f).stagers :=
      (congrArg (fun u : State => u.stagers) seekBlocks :)
    rw [if_pos sample]
    constructor
    case blocks =>
      rw [stagers]
      refine seekBlocks.trans ?_
      exact (congrArg (fun u : State => { u with trackers := ((m.abandonAssembly f).trackerToSeek f).trackers }) blocks :)
    case trackers => rw [trackerToSeek_trackers, trackers, if_pos sample]
    case stager => rw [stagers, abandonAssembly_bare]
    case stagers => exact fun g ne => by rw [stagers, abandonAssembly_stager_ne m ne]
    case log =>
      have table : (m.abandonAssembly f).table = m.table := (congrArg (fun u : State => u.table) blocks :)
      rw [← trackers]
      refine log.trackerToSeek sample ?_
      rw [← now]
      unfold State.entry
      rw [table]
  · rw [if_neg sample]
    constructor
    case blocks =>
      rw [trackers]
      exact blocks
    case trackers => rw [trackers, if_neg sample, Per8.set_get_self]
    case stager => exact abandonAssembly_bare m f
    case stagers => exact fun g ne => abandonAssembly_stager_ne m ne
    case log =>
      have none : p.moves f (m.trackers.get f) = [] := if_neg fun h => sample h.1
      rw [none]
      exact log.of_eq (List.append_nil _).symm

/-- What a feeder is left with by its turn. -/
structure ReloadedAt (p : Turn) (malm : Bool) (limit : Nat) (x y : FeederView) : Prop where
  ctl : y.ctl = p.ctl malm x.ctl
  monitor : y.monitor = { x.monitor with silence := p.silence limit x.monitor.silence }
  tracker : y.tracker = if p.sample then x.tracker.toSeek else x.tracker
  eval : x.ctl.sag = none → y.eval = x.eval
  reserved : y.reserved = if p.leaves malm then 0 else x.reserved
  stager : y.stager.bare = p.stager malm { x.stager.bare with assembly := none }
  made : x.stager.held = [] → y.stager.number = x.stager.number + BitVec.ofNat 8 x.stager.abandons.length ∧
    y.stager.latest = (logResults x.tracker.hc x.stager.number
      (endings y.ctl.source x.stager.committed x.stager.abandons)).getLast?.or x.stager.latest

/-- What a feeder's turn leaves. -/
structure Reloaded (p : Turn) (f : Fid) (m u : State) : Prop where
  view : ReloadedAt p (m.malm.get f) m.settings.silenceLimit (m.view f) (u.view f)
  others : ∀ g, g ≠ f → u.view g = m.view g
  usable : u.account.usable = m.account.usable
  notice : u.account.notice = m.account.notice
  link : u.link = if p.leaves (m.malm.get f) then m.link.without f else m.link
  malm : u.malm = m.malm
  draws : u.draws = m.draws
  table : u.table = m.table
  moves : Moves m u
  grows : m.writer.staging <+: u.writer.staging
  slot : (m.stagers.get f).assembly ≠ none → SlotDirty f u
  hands : (m.stagers.get f).held = [] → (m.ctl.get f).sag = none → (m.ctl.get f).episode = none →
    Hands m u (p.bodies (m.malm.get f) f (m.view f) (u.ctl.get f).source)

theorem length_moves_le (p : Turn) (f : Fid) (k : Tracker) : (p.moves f k).length ≤ 1 := by
  unfold Turn.moves
  split <;> simp

theorem moves_own (p : Turn) (f : Fid) (k : Tracker) : ∀ b ∈ p.moves f k, b.own = true := by
  intro b h
  unfold Turn.moves at h
  split at h
  · rw [List.mem_singleton.1 h]
    rfl
  · exact absurd h List.not_mem_nil

theorem length_abandons_le (g : Stager) : g.abandons.length ≤ 1 := by
  unfold Stager.abandons
  cases g.assembly <;> simp

/-- The log of a feeder's turn, settled at its end. -/
theorem Reacts.log_settled {p : Turn} {f : Fid} {m b : State} (h : Prepared p f m b) (now : (b.entry f).enabled = p.now)
    (r : Reacts p f b (b.reloadFeeder f p.was p.changed)) :
    Logs f m ((b.reloadFeeder f p.was p.changed).settleResults m f)
      (endings ((b.reloadFeeder f p.was p.changed).ctl.get f).source (m.stagers.get f).committed (m.stagers.get f).abandons ++
        records (p.moves f (m.trackers.get f)) ++
        settleLog ((b.reloadFeeder f p.was p.changed).ctl.get f).source (m.stagers.get f).committed
          (p.log (b.malm.get f) f (b.ctl.get f) (b.trackers.get f).hc (b.stagers.get f))) := by
  have page : ((b.reloadFeeder f p.was p.changed).stagers.get f).committed = (m.stagers.get f).committed := by
    have reacts := congrArg Stager.committed r.stager
    have prepared := (congrArg Stager.committed h.stager :)
    refine reacts.trans (Eq.trans ?_ prepared)
    unfold Turn.stager
    split <;> rfl
  have moves := length_moves_le p f (m.trackers.get f)
  have abandons := length_abandons_le (m.stagers.get f)
  have changes := p.length_log_le (b.malm.get f) f (b.ctl.get f) (b.trackers.get f).hc (b.stagers.get f)
  refine ((h.log.reloadFeeder now).settle ?_ ?_).of_eq ?_
  · simp only [endings, records, List.length_append, List.length_map]
    omega
  · intro x hx
    have own : x.own = true := by
      rcases List.mem_append.1 hx with hx | hx
      · rcases List.mem_append.1 hx with hx | hx
        · simp [endings] at hx
        · exact moves_own p f _ x (by simpa [records] using hx)
      · exact p.log_own _ f _ _ _ x hx
    exact Body.settled_of_own own ..
  · rw [page]
    simp

theorem reloadOne_reloaded (m : State) (old : Table) (d : Changes) (f : Fid) {p : Turn}
    (was : (old.entries.get f).enabled = p.was) (now : (m.entry f).enabled = p.now) (sample : d.sample = p.sample)
    (changed : (d.sample || d.entries.contains f) = p.changed) : Reloaded p f m (m.reloadOne old d f) := by
  have run : m.reloadOne old d f =
      ((m.prepared p.sample f).reloadFeeder f p.was p.changed).settleResults m f := by
    unfold State.reloadOne State.asEventOf State.prepared
    dsimp only
    rw [was, changed, sample]
  rw [run]
  have h := prepared_prepared m f now
  generalize m.prepared p.sample f = b at h
  have field : ∀ {α : Type} (g : State → α),
      g b.blocks = g (State.blocks { m with stagers := b.stagers, trackers := b.trackers }) := fun g => congrArg g h.blocks
  have ctl : b.ctl = m.ctl := field (fun u => u.ctl)
  have monitors : b.monitors = m.monitors := field (fun u => u.monitors)
  have evals : b.evals = m.evals := field (fun u => u.evals)
  have account : b.account = m.account := field (fun u => u.account)
  have link : b.link = m.link := field (fun u => u.link)
  have malm : b.malm = m.malm := field (fun u => u.malm)
  have draws : b.draws = m.draws := field (fun u => u.draws)
  have table : b.table = m.table := field (fun u => u.table)
  have settings : b.settings = m.settings := by
    unfold State.settings
    rw [table]
  have entry : (b.entry f).enabled = p.now := by
    rw [← now]
    unfold State.entry
    rw [table]
  have held : (m.stagers.get f).held = [] → (b.stagers.get f).held = [] := by
    intro none
    have same : (b.stagers.get f).bare.held = (m.stagers.get f).held := by
      rw [h.stager]
      rfl
    exact same.trans none
  have r := reloadFeeder_reacts b f entry
  have log := r.log_settled h entry
  generalize b.reloadFeeder f p.was p.changed = c at r log
  rw [malm, ctl, h.trackers, Per8.get_set_same] at log
  constructor
  case view =>
    constructor
    case ctl =>
      change (c.settleResults m f).ctl.get f = _
      rw [State.settleResults_ctl, r.ctl, Per8.get_set_same, malm, ctl]
      rfl
    case monitor =>
      change (c.settleResults m f).monitors.get f = _
      rw [State.settleResults_monitors, r.monitors, Per8.get_set_same, monitors, settings]
      rfl
    case tracker =>
      change (c.settleResults m f).trackers.get f = _
      rw [State.settleResults_trackers, r.trackers, h.trackers, Per8.get_set_same]
      rfl
    case eval =>
      intro none
      change (c.settleResults m f).evals.get f = _
      rw [State.settleResults_evals, r.evals f (.inr (by rw [ctl]; exact none)), evals]
      rfl
    case reserved =>
      change (c.settleResults m f).account.reserved.get f = _
      rw [State.settleResults_account, r.account, malm, account]
      exact Per8.get_set_same ..
    case stager =>
      change ((c.settleResults m f).stagers.get f).bare = _
      rw [State.settleResults_bare, r.stager, malm, h.stager]
      rfl
    case made =>
      intro none
      obtain ⟨l, records, -⟩ := p.log_of_held (m.malm.get f) f (m.ctl.get f)
        (if p.sample = true then (m.trackers.get f).toSeek else m.trackers.get f).hc (held none)
      rw [records, settleLog_records] at log
      have number := log.number
      have latest := log.latest
      simp only [logResults_append, logResults_records, List.append_nil, length_logResults_endings] at number latest
      change ((c.settleResults m f).stagers.get f).number = _ ∧ ((c.settleResults m f).stagers.get f).latest = _
      refine ⟨number, latest.trans ?_⟩
      change _ = (logResults _ _ (endings ((c.settleResults m f).ctl.get f).source _ _)).getLast?.or _
      rw [State.settleResults_ctl]
      rfl
  case others =>
    intro g ne
    unfold State.view
    rw [State.settleResults_ctl, State.settleResults_monitors, State.settleResults_trackers, State.settleResults_evals,
      State.settleResults_stager_ne _ _ ne, State.settleResults_account, r.ctl, r.monitors, r.trackers,
      r.evals g (.inl ne), r.stagers g ne, r.account, h.trackers, h.stagers g ne, Per8.get_set_ne _ _ ne,
      Per8.get_set_ne _ _ ne, Per8.get_set_ne _ _ ne, Per8.get_set_ne _ _ ne, ctl, monitors, evals, account]
  case usable => rw [State.settleResults_account, r.account, account]
  case notice => rw [State.settleResults_account, r.account, account]
  case link => rw [State.settleResults_link, r.link, malm, link]
  case malm => rw [State.settleResults_malm, r.malm, malm]
  case draws => rw [State.settleResults_draws, r.draws, draws]
  case table => rw [State.settleResults_table, r.table, table]
  case moves => exact log.moves
  case grows => exact log.hands.grows
  case slot =>
    intro some
    refine log.dirty fun nil => ?_
    rw [List.append_assoc, logResults_append, List.append_eq_nil_iff] at nil
    have count := length_logResults_endings (m.trackers.get f).hc (m.stagers.get f).number (c.ctl.get f).source
      (m.stagers.get f).committed (m.stagers.get f).abandons
    rw [nil.1] at count
    unfold Stager.abandons at count
    cases assembly : (m.stagers.get f).assembly with
    | none => exact some assembly
    | some x =>
      rw [assembly] at count
      cases count
  case hands =>
    intro none sag episode
    obtain ⟨l, records, changes⟩ := p.log_of_held (m.malm.get f) f (m.ctl.get f)
      (if p.sample = true then (m.trackers.get f).toSeek else m.trackers.get f).hc (held none)
    rw [records, settleLog_records, changes sag episode] at log
    have hands := log.hands
    rw [logBodies_append, logBodies_append, logBodies_records, logBodies_records, logBodies_endings] at hands
    rw [State.settleResults_ctl]
    exact hands

end Sys2Proof.Machine
end

section
namespace Sys2Proof.Machine

/-! ## The feeders' turns one after another (R172) -/

/-- The link with the slots of the feeders that are gone emptied, and the exchange of one of them marked (R117, R127). -/
def Link.withoutAll (l : Link) (gone : Fid → Bool) : Link :=
  { l with
    slots := Per8.ofFn fun f => if gone f then none else l.slots.get f
    exchange := l.exchange.map fun x => { x with discard := x.discard || gone x.feeder } }

theorem Link.withoutAll_none (l : Link) : l.withoutAll (fun _ => false) = l := by
  have slots : (Per8.ofFn fun f => if false = true then none else l.slots.get f) = l.slots :=
    Per8.ext_get fun f => by simp
  have exchange : (l.exchange.map fun x => { x with discard := x.discard || false }) = l.exchange := by
    cases l.exchange <;> simp
  unfold withoutAll
  rw [slots, exchange]

theorem Link.without_withoutAll (l : Link) (gone : Fid → Bool) (f : Fid) :
    (l.withoutAll gone).without f = l.withoutAll fun g => gone g || decide (g = f) := by
  have slots : (l.withoutAll gone).slots.set f none =
      Per8.ofFn fun g => if (gone g || decide (g = f)) = true then none else l.slots.get g := by
    refine Per8.ext_get fun g => ?_
    rw [Per8.get_set, Per8.get_ofFn]
    by_cases eq : g = f
    · simp [eq]
    · simp [eq, withoutAll]
  have exchange : ((l.withoutAll gone).exchange.map fun x => if x.feeder = f then { x with discard := true } else x) =
      l.exchange.map fun x => { x with discard := x.discard || (gone x.feeder || decide (x.feeder = f)) } := by
    unfold withoutAll
    rw [Option.map_map]
    congr 1
    funext x
    by_cases eq : x.feeder = f
    · simp [eq]
    · simp [eq]
  unfold Link.without
  rw [slots, exchange]
  rfl

/-- No reference record, sag record or episode is held for the feeder. -/
def FeederView.idle (x : FeederView) : Prop :=
  x.stager.held = [] ∧ x.ctl.sag = none ∧ x.ctl.episode = none

/-- From `m` to `t` the feeders of `fs` have had their turns. -/
structure ReloadedOver (P : Fid → Turn) (m t : State) (fs : List Fid) : Prop where
  done : ∀ f ∈ fs, ReloadedAt (P f) (m.malm.get f) m.settings.silenceLimit (m.view f) (t.view f)
  rest : ∀ f, f ∉ fs → t.view f = m.view f
  slots : ∀ f ∈ fs, (m.stagers.get f).assembly ≠ none → SlotDirty f t
  usable : t.account.usable = m.account.usable
  notice : t.account.notice = m.account.notice
  link : t.link = m.link.withoutAll fun f => decide (f ∈ fs) && (P f).leaves (m.malm.get f)
  malm : t.malm = m.malm
  draws : t.draws = m.draws
  table : t.table = m.table
  moves : Moves m t
  grows : m.writer.staging <+: t.writer.staging
  hands : (∀ f, (m.view f).idle) →
    Hands m t (fs.flatMap fun f => (P f).bodies (m.malm.get f) f (m.view f) (t.ctl.get f).source)

theorem ReloadedOver.refl (P : Fid → Turn) (m : State) : ReloadedOver P m m [] where
  done _ h := absurd h List.not_mem_nil
  rest _ _ := rfl
  slots _ h := absurd h List.not_mem_nil
  usable := rfl
  notice := rfl
  link := by simp [Link.withoutAll_none]
  malm := rfl
  draws := rfl
  table := rfl
  moves := .refl
  grows := List.prefix_rfl
  hands _ := .refl m

theorem ReloadedOver.next {P : Fid → Turn} {m t u : State} {fs : List Fid} {f : Fid} (h : ReloadedOver P m t fs)
    (fresh : f ∉ fs) (r : Reloaded (P f) f t u) : ReloadedOver P m u (fs ++ [f]) := by
  have settings : t.settings = m.settings := by
    unfold State.settings
    rw [h.table]
  have own := h.rest f fresh
  have ctl : t.ctl.get f = m.ctl.get f := congrArg FeederView.ctl own
  have stager : t.stagers.get f = m.stagers.get f := congrArg FeederView.stager own
  have other : ∀ g ∈ fs, g ≠ f := fun g mem eq => fresh (eq ▸ mem)
  have cases : ∀ g, g ∈ fs ++ [f] → g ∈ fs ∨ g = f := fun g mem => by simpa using mem
  constructor
  case done =>
    intro g mem
    rcases cases g mem with before | rfl
    · rw [r.others g (other g before)]
      exact h.done g before
    · have := r.view
      rwa [h.malm, settings, own] at this
  case rest =>
    intro g out
    have out : g ∉ fs ∧ g ≠ f := by simpa [not_or] using out
    rw [r.others g out.2, h.rest g out.1]
  case slots =>
    intro g mem some
    rcases cases g mem with before | rfl
    · exact r.moves.slotDirty (h.slots g before some)
    · exact r.slot (by rwa [stager])
  case usable => exact r.usable.trans h.usable
  case notice => exact r.notice.trans h.notice
  case link =>
    rw [r.link, h.malm, h.link]
    by_cases leaves : (P f).leaves (m.malm.get f) = true
    · rw [if_pos leaves, Link.without_withoutAll]
      congr 1
      funext g
      by_cases eq : g = f
      · simp [eq, leaves]
      · simp [eq]
    · rw [if_neg leaves]
      congr 1
      funext g
      by_cases eq : g = f
      · simp [eq, leaves]
      · simp [eq]
  case malm => exact r.malm.trans h.malm
  case draws => exact r.draws.trans h.draws
  case table => exact r.table.trans h.table
  case moves => exact h.moves.trans r.moves
  case grows => exact h.grows.trans r.grows
  case hands =>
    intro idle
    obtain ⟨held, sag, episode⟩ := idle f
    have mine := r.hands (stager ▸ held) (ctl ▸ sag) (ctl ▸ episode)
    rw [h.malm, own] at mine
    have before := h.hands idle
    have same : (fs.flatMap fun g => (P g).bodies (m.malm.get g) g (m.view g) (t.ctl.get g).source) =
        fs.flatMap fun g => (P g).bodies (m.malm.get g) g (m.view g) (u.ctl.get g).source :=
      List.flatMap_congr fun g mem => by
        have ctl : u.ctl.get g = t.ctl.get g := congrArg FeederView.ctl (r.others g (other g mem))
        rw [ctl]
    rw [List.flatMap_append, ← same, List.flatMap_singleton]
    exact before.trans mine

/-- The turn that a reload gives feeder `f`. -/
def turnOf (old new : Table) (f : Fid) : Turn where
  was := (old.entries.get f).enabled
  now := (new.entries.get f).enabled
  sample := (compareTables old new).sample
  changed := (compareTables old new).sample || (compareTables old new).entries.contains f

theorem ReloadedOver.fold {old new : Table} {m : State} (installed : m.table = some new) (fs : List Fid) :
    ∀ {t : State} {before : List Fid}, ReloadedOver (turnOf old new) m t before → (before ++ fs).Nodup →
      ReloadedOver (turnOf old new) m (fs.foldl (fun s f => s.reloadOne old (compareTables old new) f) t)
        (before ++ fs) := by
  induction fs with
  | nil =>
    intro t before h _
    rwa [List.append_nil]
  | cons f fs ih =>
    intro t before h nodup
    have fresh : f ∉ before := fun mem => (List.disjoint_of_nodup_append nodup) mem List.mem_cons_self
    have now : (t.entry f).enabled = (turnOf old new f).now := by
      unfold State.entry
      rw [h.table, installed]
      rfl
    rw [List.append_cons] at nodup ⊢
    exact ih (h.next fresh (reloadOne_reloaded t old (compareTables old new) f rfl now rfl rfl)) nodup

end Sys2Proof.Machine
end

section
namespace Sys2Proof.Machine

/-! ## A reload and the end of its event (R148, R149, R153, R172) -/

theorem Follows.free_iff {m : WriterTarget → Bool} {s t : State} (h : Follows m s t) :
    t.bus.port = .free ↔ s.bus.port = .free := by
  rw [← Port.plain_free_iff, h.plain, Port.moved_free_iff, Port.plain_free_iff]

theorem Follows.field {m : WriterTarget → Bool} {s t : State} (h : Follows m s t) {α : Type} (g : Bus → α) :
    g { t.bus with port := .free } = g { s.bus with port := .free } := congrArg g h.bus

/-- A word of the writer's stays on the port, with its place, its value and its destination. -/
theorem Follows.word {m : WriterTarget → Bool} {s t : State} (h : Follows m s t) {w : WriterWord} {d : Bool}
    (port : s.bus.port = .writer w d) :
    ∃ w', t.bus.port = .writer w' d ∧ w'.target = w.target ∧ w'.addr = w.addr ∧ w'.value = w.value ∧
      w'.burst = w.burst ∧ w'.moved = (w.moved || m w.target) := by
  have plain := h.plain
  rw [port] at plain
  cases carried : t.bus.port with
  | writer w' d' =>
    rw [carried] at plain
    simp only [Port.plain, Port.moved, Port.writer.injEq, WriterWord.mk.injEq] at plain
    obtain ⟨⟨target, addr, value, burst, -, moved⟩, rfl⟩ := plain
    exact ⟨w', rfl, target, addr, value, burst, moved⟩
  | free => rw [carried] at plain; cases plain
  | upstream => rw [carried] at plain; cases plain
  | loader a d' => rw [carried] at plain; cases plain

/-- What marks the words of moved windows, and makes no burst, leaves a settled port settled. -/
theorem Follows.portSettled {m : WriterTarget → Bool} {s t : State} (h : Follows m s t) (settled : s.portSettled)
    (burst : s.writer.burst = none → t.writer.burst = none) : t.portSettled := by
  obtain ⟨free, burstHold, withdrawn, deferred⟩ := settled
  have hold : t.bus.hold = s.bus.hold := h.field Bus.hold
  have waiting : t.bus.waiting = s.bus.waiting := h.field Bus.waiting
  have holdWithdrawn : t.bus.holdWithdrawn = s.bus.holdWithdrawn := h.field Bus.holdWithdrawn
  have writerDeferred : t.bus.writerDeferred = s.bus.writerDeferred := h.field Bus.writerDeferred
  have turnOwed : t.bus.turnOwed = s.bus.turnOwed := h.field Bus.turnOwed
  refine ⟨fun isFree => ?_, fun some => ?_, ?_, ?_⟩
  · rw [hold, waiting]
    exact free (h.free_iff.1 isFree)
  · rw [hold]
    exact burstHold fun none => some (burst none)
  · rw [holdWithdrawn, hold]
    exact withdrawn
  · rw [writerDeferred, turnOwed, hold]
    exact deferred

theorem RingMoved.burst_none {s t : State} (h : RingMoved s t) (idle : s.writer.burst = none) : t.writer.burst = none := by
  rw [h.burst, idle]
  rfl

/-- A reload from `s` that is at `m` before its feeders' turns, at `r` behind them, and ends in `t`. -/
structure Install (addr : Word) (old new : Table) (s m r t : State) : Prop where
  prelude : Prelude addr old new s m
  turns : ReloadedOver (turnOf old new) m r Fid.all
  ends : EndsAs r.judgeAttn t
  hold : HoldEnds r.judgeAttn t

namespace Install

variable {addr : Word} {old new : Table} {s m r t : State}

theorem follows (h : Install addr old new s m r t) : Follows (movedWords old new) s r.judgeAttn := by
  have turns := h.turns.moves.follows
  have judged : Follows (fun _ => false) m r.judgeAttn :=
    ⟨turns.bus, turns.plain, turns.kept, turns.length, turns.stays, turns.dirty⟩
  exact (h.prelude.follows.trans judged).congr fun x => Bool.or_false _

theorem exists_of (settled : s.portSettled) : ∃ m r, Install addr old new s m r (s.installReload addr old new).finish := by
  have prelude := beforeFeeders_prelude s addr old new
  have table : (s.beforeFeeders addr old new).table = some new := (congrArg (fun u : State => u.table) prelude.blocks :)
  have loader : (s.beforeFeeders addr old new).loader = (s.loadTable new).loader :=
    (congrArg (fun u : State => u.loader) prelude.blocks :)
  have turned := (ReloadedOver.refl (turnOf old new) (s.beforeFeeders addr old new)).fold table Fid.all Fid.nodup_all
  rw [List.nil_append] at turned
  rw [installReload_eq]
  generalize s.beforeFeeders addr old new = m at prelude loader turned ⊢
  generalize Fid.all.foldl (fun s f => s.reloadOne old (compareTables old new) f) m = r at turned ⊢
  have ringKept := turned.moves.ringKept
  have turns := turned.moves.follows
  have judged : Follows (fun _ => false) m r.judgeAttn :=
    ⟨turns.bus, turns.plain, turns.kept, turns.length, turns.stays, turns.dirty⟩
  have port : r.judgeAttn.portSettled := by
    refine (prelude.follows.trans judged).portSettled settled fun none => ringKept.burst.trans ?_
    by_cases same : old.ringPlace = new.ringPlace
    · rw [(prelude.ringKept same).burst, none]
    · exact (prelude.ringMoved same).burst_none none
  have idle : r.judgeAttn.loader.read = none := by
    have same : r.loader = m.loader := (congrArg (fun u : State => u.loader) turned.moves.outer :)
    change r.loader.read = _
    rw [same, loader]
    rfl
  exact ⟨m, r, prelude, turned, finish_endsAs port rfl, State.finish_holdEnds _ port idle⟩

/-! ### What is in place, and what is kept -/

theorem field (h : Install addr old new s m r t) {α : Type} (g : State → α) :
    g r.outer = g (State.outer { s.loadTable new with
      dclink := DcMonitor.reset, bus := m.bus, writer := m.writer, malm := s.malm }) := by
  refine congrArg g (h.turns.moves.outer.trans ?_)
  exact (congrArg (fun u : State => State.outer { u with bus := m.bus, writer := m.writer }) h.prelude.blocks :)

theorem table (h : Install addr old new s m r t) : t.table = some new :=
  h.ends.table.trans (h.field fun u => u.table)

theorem loader (h : Install addr old new s m r t) :
    t.loader = { s.loader with reload := .none, read := none, image := [], heldAddr := none } :=
  h.ends.loader.trans (h.field fun u => u.loader)

theorem dclink (h : Install addr old new s m r t) : t.dclink = { lastSeq := none, count := 0 } :=
  h.ends.dclink.trans (h.field fun u => u.dclink)

theorem pending (h : Install addr old new s m r t) : t.pending = s.pending :=
  h.ends.pending.trans (h.field fun u => u.pending)

theorem stamp (h : Install addr old new s m r t) : t.stamp = s.stamp :=
  h.ends.stamp.trans (h.field fun u => u.stamp)

theorem init (h : Install addr old new s m r t) : t.init = s.init :=
  h.ends.init.trans (h.field fun u => u.init)

theorem malm (h : Install addr old new s m r t) : t.malm = s.malm :=
  h.ends.malm.trans (h.field fun u => u.malm)

theorem draws (h : Install addr old new s m r t) : t.draws = s.draws :=
  h.ends.draws.trans (h.turns.draws.trans (congrArg (fun u : State => u.draws) h.prelude.blocks :))

theorem usable (h : Install addr old new s m r t) : t.account.usable = s.account.usable := by
  rw [h.ends.account]
  exact h.turns.usable.trans (congrArg (fun u : State => u.account.usable) h.prelude.blocks :)

theorem notice (h : Install addr old new s m r t) : t.account.notice = s.account.notice := by
  rw [h.ends.account]
  exact h.turns.notice.trans (congrArg (fun u : State => u.account.notice) h.prelude.blocks :)

theorem attn (h : Install addr old new s m r t) : t.writer.attn = t.attnWanted := by
  have field : ∀ {α : Type} (g : State → α), g t.offPort = g r.judgeAttn.offPort := fun g => congrArg g h.ends.offPort
  have wanted : t.attnWanted = r.attnWanted := by
    unfold State.attnWanted
    have summary : t.writer.summary = r.writer.summary := field fun u => u.writer.summary
    have published : t.writer.published = r.writer.published := field fun u => u.writer.published
    have consumer : t.writer.consumer = r.writer.consumer := field fun u => u.writer.consumer
    rw [h.table, show r.table = some new from h.field fun u => u.table, summary, published, consumer]
  rw [wanted]
  exact field fun u => u.writer.attn

theorem before_link (h : Install addr old new s m r t) : m.link = s.link :=
  (congrArg (fun u : State => u.link) h.prelude.blocks :)

theorem before_malm (h : Install addr old new s m r t) : m.malm = s.malm :=
  (congrArg (fun u : State => u.malm) h.prelude.blocks :)

theorem link (h : Install addr old new s m r t) :
    t.link = s.link.withoutAll fun f => (turnOf old new f).leaves (s.malm.get f) := by
  rw [h.ends.link]
  refine h.turns.link.trans ?_
  rw [h.before_link, h.before_malm]
  simp

/-! ### HOLD, the ring and the word on the port -/

theorem keeps_hold (h : Install addr old new s m r t) (asserted : s.bus.hold ≠ .released) : t.bus.hold = s.bus.hold := by
  have hold : r.judgeAttn.bus.hold = s.bus.hold := h.follows.field Bus.hold
  rw [← hold] at asserted ⊢
  exact h.hold.hold asserted

theorem turnOwed (h : Install addr old new s m r t) : t.bus.turnOwed = s.bus.turnOwed :=
  (congrArg (fun u : State => u.bus.turnOwed) h.ends.offPort :).trans (h.follows.field Bus.turnOwed)

theorem current (h : Install addr old new s m r t) : t.bus.current = s.bus.current :=
  (congrArg (fun u : State => u.bus.current) h.ends.offPort :).trans (h.follows.field Bus.current)

theorem ends_indexes (h : Install addr old new s m r t) :
    t.writer.producer = m.writer.producer ∧ t.writer.published = m.writer.published ∧
      t.writer.consumer = m.writer.consumer := by
  have kept := h.turns.moves.ringKept
  have field : ∀ {α : Type} (g : State → α), g t.offPort = g r.judgeAttn.offPort := fun g => congrArg g h.ends.offPort
  exact ⟨(field fun u => u.writer.producer).trans kept.producer, (field fun u => u.writer.published).trans kept.published,
    (field fun u => u.writer.consumer).trans kept.consumer⟩

theorem holds_back (h : Install addr old new s m r t) (same : t.bus.hold = s.bus.hold) :
    t.bus.hold = r.judgeAttn.bus.hold := same.trans (h.follows.field Bus.hold).symm

theorem same_ring (h : Install addr old new s m r t) (same : old.ringPlace = new.ringPlace) :
    t.writer.producer = s.writer.producer ∧ t.writer.published = s.writer.published ∧
      t.writer.consumer = s.writer.consumer ∧
      (t.bus.hold = s.bus.hold → t.writer.burst = s.writer.burst ∧
        (s.writer.inProgress ≠ none → t.writer.inProgress = s.writer.inProgress)) := by
  obtain ⟨producer, published, consumer⟩ := h.ends_indexes
  have before := h.prelude.ringKept same
  have kept := before.trans h.turns.moves.ringKept
  refine ⟨producer.trans before.producer, published.trans before.published, consumer.trans before.consumer,
    fun hold => ⟨(h.hold.burst (h.holds_back hold)).trans kept.burst, fun started => ?_⟩⟩
  rw [← kept.inProgress] at started ⊢
  exact h.hold.inProgress (h.holds_back hold) started

theorem moved_ring (h : Install addr old new s m r t) (moved : old.ringPlace ≠ new.ringPlace) :
    t.writer.producer = 0#16 ∧ t.writer.published = 0#16 ∧ t.writer.consumer = 0#16 ∧
      (∀ p, s.writer.inProgress = some p → t.writer.inProgress = some { p with words := 0 }) ∧
      (t.bus.hold = s.bus.hold →
        t.writer.burst = s.writer.burst.map fun b => { b with moved := b.moved || !b.recordDone }) := by
  obtain ⟨producer, published, consumer⟩ := h.ends_indexes
  have before := h.prelude.ringMoved moved
  have kept := before.before h.turns.moves.ringKept
  refine ⟨producer.trans before.producer, published.trans before.published, consumer.trans before.consumer,
    fun p started => h.hold.restarted p.again ?_ rfl, fun hold => (h.hold.burst (h.holds_back hold)).trans kept.burst⟩
  refine kept.inProgress.trans ?_
  rw [started]
  rfl

theorem mirror (h : Install addr old new s m r t)
    (moved : baseOf (old.window .mirror) ≠ baseOf (new.window .mirror)) (length : s.writer.mirrorDirty.length = 40) :
    ∀ i < 40, t.writer.mirrorDirty.getD i false = true := by
  have same : t.writer.mirrorDirty = r.writer.mirrorDirty :=
    (congrArg (fun u : State => u.writer.mirrorDirty) h.ends.offPort :)
  intro i short
  rw [same]
  exact h.turns.moves.marksUp.stays i (h.prelude.mirror moved length i short)

theorem word (h : Install addr old new s m r t) {w : WriterWord} {d : Bool} (port : s.bus.port = .writer w d) :
    ∃ w', t.bus.port = .writer w' d ∧ w'.target = w.target ∧ w'.addr = w.addr ∧ w'.value = w.value ∧
      w'.burst = w.burst ∧ w'.moved = (w.moved || movedWords old new w.target) := by
  obtain ⟨w', carried, rest⟩ := h.follows.word port
  exact ⟨w', (h.ends.port (by rw [carried]; exact fun h => nomatch h)).trans carried, rest⟩

/-! ### The records -/

theorem staging (h : Install addr old new s m r t) : t.writer.staging = r.writer.staging := h.ends.staging

theorem grows (h : Install addr old new s m r t) : s.writer.staging <+: t.writer.staging := by
  rw [h.staging]
  exact h.prelude.hands.grows.trans h.turns.grows

theorem staged (h : Install addr old new s m r t) : staged s t (loadedRecord addr old new) :=
  staged_of_grows (h.prelude.hands.first _ rfl) (by rw [h.staging]; exact h.turns.grows)

/-! ### The feeders -/

theorem before_view (h : Install addr old new s m r t) (f : Fid) :
    m.view f = { s.view f with
      monitor := (s.monitors.get f).atReload (turnOf old new f).changed
      stager := if referenceMoved old new f = true then { s.stagers.get f with owner := none } else s.stagers.get f } := by
  have field : ∀ {α : Type} (g : State → α), g m.blocks = g (State.blocks { s.loadTable new with
      monitors := Per8.ofFn fun f => (s.monitors.get f).atReload
        ((compareTables old new).sample || (compareTables old new).entries.contains f)
      dclink := DcMonitor.reset, stagers := m.stagers }) := fun g => congrArg g h.prelude.blocks
  unfold State.view
  rw [h.prelude.stagers, show m.ctl = s.ctl from field fun u => u.ctl, show m.trackers = s.trackers from field fun u => u.trackers,
    show m.evals = s.evals from field fun u => u.evals, show m.account = s.account from field fun u => u.account,
    show m.monitors = _ from field fun u => u.monitors]
  simp only [State.blocks, Per8.get_ofFn]
  rfl

theorem view_ends (h : Install addr old new s m r t) (f : Fid) : t.view f = r.view f := by
  unfold State.view
  rw [h.ends.ctl, h.ends.monitors, h.ends.trackers, h.ends.evals, h.ends.stagers, h.ends.account]
  rfl

/-- What feeder `f` is left with. -/
theorem turn (h : Install addr old new s m r t) (f : Fid) :
    ReloadedAt (turnOf old new f) (s.malm.get f) new.settings.silenceLimit (m.view f) (t.view f) := by
  have table : m.table = some new := (congrArg (fun u : State => u.table) h.prelude.blocks :)
  have done := h.turns.done f (Fid.mem_all f)
  unfold State.settings at done
  rw [table, h.before_malm, ← h.view_ends] at done
  exact done

theorem slotMarked (h : Install addr old new s m r t) {f : Fid} (some : (s.stagers.get f).assembly ≠ none) :
    slotMarked s t f := by
  have assembly : (m.stagers.get f).assembly = (s.stagers.get f).assembly := by
    rw [h.prelude.stagers]
    split <;> rfl
  have dirty : SlotDirty f r.judgeAttn := h.turns.slots f (Fid.mem_all f) (assembly ▸ some)
  exact h.ends.slotMarked (slotMarked_of_slotDirty dirty h.follows.kept)

theorem resultDirty (h : Install addr old new s m r t) {f : Fid} (moved : referenceMoved old new f = true) :
    t.writer.resultDirty.get f = List.replicate 8 true := by
  obtain ⟨dirty, -⟩ := h.turns.moves.slotDirty (h.prelude.slots f moved)
  rw [h.ends.resultDirty]
  exact dirty

end Install

end Sys2Proof.Machine
end

section
namespace Sys2Proof.Machine

/-! ## The vocabulary of a reload (R22, R172) -/

theorem decide_eq_of_iff {P : Prop} [Decidable P] {b : Bool} (h : b = true ↔ P) : decide P = b :=
  Bool.eq_iff_iff.2 (decide_eq_true_iff.trans h.symm)

theorem compareTables_sample {old new : Table} :
    (compareTables old new).sample = true ↔ old.settings.sample ≠ new.settings.sample := bne_iff_ne

theorem turnOf_changed {old new : Table} {f : Fid} : (turnOf old new f).changed = true ↔
    old.settings.sample ≠ new.settings.sample ∨ old.entries.get f ≠ new.entries.get f := by
  unfold turnOf
  rw [Bool.or_eq_true, compareTables_sample, List.contains_iff_mem]
  unfold compareTables
  rw [List.mem_filter, bne_iff_ne]
  exact or_congr_right (and_iff_right (Fid.mem_all f))

theorem turnOf_resets {old new : Table} {f : Fid} : (turnOf old new f).resets = true ↔
    (new.entries.get f).enabled = true ∧ ((old.entries.get f).enabled = false ∨
      old.settings.sample ≠ new.settings.sample ∨ old.entries.get f ≠ new.entries.get f) := by
  unfold Turn.resets
  rw [Bool.and_eq_true, Bool.or_eq_true, turnOf_changed, Bool.not_eq_true']
  exact Iff.rfl

theorem turnOf_stops {old new : Table} {f : Fid} : (turnOf old new f).stops = true ↔
    (old.entries.get f).enabled = true ∧ (new.entries.get f).enabled = false := by
  unfold Turn.stops
  rw [Bool.and_eq_true, Bool.not_eq_true']
  exact Iff.rfl

theorem turnOf_leaves {old new : Table} {f : Fid} {malm : Bool} : (turnOf old new f).leaves malm = true ↔
    malm = true ∧ ((new.entries.get f).enabled = true ∧ ((old.entries.get f).enabled = false ∨
      old.settings.sample ≠ new.settings.sample ∨ old.entries.get f ≠ new.entries.get f)) ∨
    (old.entries.get f).enabled = true ∧ (new.entries.get f).enabled = false := by
  unfold Turn.leaves
  rw [Bool.or_eq_true, Bool.and_eq_true, turnOf_resets, turnOf_stops]

/-- A feeder whose entry has not changed, and no sample setting, neither starts nor stops. -/
theorem turnOf_unchanged {old new : Table} {f : Fid} (same : ¬ (turnOf old new f).changed = true) :
    (turnOf old new f).resets = false ∧ (turnOf old new f).stops = false := by
  rw [turnOf_changed, not_or, not_ne_iff, not_ne_iff] at same
  obtain ⟨sample, entries⟩ := same
  constructor
  · rw [← Bool.not_eq_true, turnOf_resets, entries]
    rintro ⟨on, off | other | other⟩
    · rw [on] at off
      cases off
    · exact other sample
    · exact other rfl
  · rw [← Bool.not_eq_true, turnOf_stops, entries]
    rintro ⟨on, off⟩
    rw [on] at off
    cases off

theorem referenceMoved_iff {old new : Table} {f : Fid} : referenceMoved old new f = true ↔
    baseOf (new.windowOf .reference f) ≠ none ∧
      baseOf (old.windowOf .reference f) ≠ baseOf (new.windowOf .reference f) := by
  unfold referenceMoved
  rw [Bool.and_eq_true, bne_iff_ne]
  refine and_congr_left fun _ => ?_
  unfold baseOf
  cases new.windowOf .reference f <;> simp

theorem movedWords_iff {old new : Table} {x : WriterTarget} : movedWords old new x = true ↔
    (∃ k, x = .record k ∧ old.ringPlace ≠ new.ringPlace) ∨
      (∃ i, x = .mirror i ∧ (baseOf (old.window .mirror) ≠ baseOf (new.window .mirror) ∨
        i = 4 ∧ old.ringPlace ≠ new.ringPlace)) ∨
      ∃ f i, x = .result f i ∧ referenceMoved old new f = true := by
  cases x with
  | record k => simp [movedWords, WriterTarget.isResultOf, WriterTarget.isRing, WriterTarget.isMirror]
  | mirror i =>
    simp [movedWords, WriterTarget.isResultOf, WriterTarget.isRing, WriterTarget.isMirror, producerWord, and_comm, or_comm]
  | result f i =>
    simp only [movedWords, WriterTarget.isResultOf, WriterTarget.isRing, WriterTarget.isMirror, Bool.and_false,
      Bool.or_false, List.any_eq_true, Bool.and_eq_true, beq_iff_eq, reduceCtorEq, false_and, exists_false, false_or]
    constructor
    · rintro ⟨g, -, moved, rfl⟩
      exact ⟨f, i, rfl, moved⟩
    · rintro ⟨_, _, ⟨rfl, rfl⟩, moved⟩
      exact ⟨f, Fid.mem_all f, moved, rfl⟩

/-! ### The records of a feeder's turn, written out -/

theorem abandons_bodies (f : Fid) (hc : BitVec 8) (source : Source) (g : Stager) :
    refRecords f (logResults hc g.number (endings source g.committed g.abandons)) =
      g.assembly.toList.map fun x => Body.refRejected f
        { number := g.number + 1#8, code := .abandoned, clamped := false, limited := false, unflipped := false
          ident := some ⟨x.word0.extractLsb' 8 8, x.word0.extractLsb' 16 8⟩, judgedAt := hc, applied := none
          source := source, page := g.committed } := by
  unfold Stager.abandons
  cases g.assembly <;> rfl

theorem turnOf_changes {old new : Table} {f : Fid} (malm : Bool) (state : FeederState) :
    (turnOf old new f).changes malm f state =
      if (new.entries.get f).enabled = true then
        if (turnOf old new f).resets = true then
          .feederState f state .arming .table :: (if malm then [.feederState f .arming .fault .alarm] else [])
        else []
      else if (old.entries.get f).enabled = true then [.feederState f state .off .disabled] else [] := by
  unfold Turn.changes
  by_cases now : (new.entries.get f).enabled = true
  · have stays : ¬ (turnOf old new f).stops = true := fun stops => by
      rw [(turnOf_stops.1 stops).2] at now
      cases now
    rw [if_pos now, if_neg stays]
  · have calm : ¬ (turnOf old new f).resets = true := fun resets => now (turnOf_resets.1 resets).1
    rw [if_neg now, if_neg calm]
    refine if_congr (turnOf_stops.trans (and_iff_left ?_)) rfl rfl
    simpa using now

/-! ### What a feeder is left with -/

namespace Install

variable {addr : Word} {old new : Table} {s m r t : State}

theorem ctl (h : Install addr old new s m r t) (f : Fid) :
    t.ctl.get f = (turnOf old new f).ctl (s.malm.get f) (s.ctl.get f) := by
  have := (h.turn f).ctl
  rwa [h.before_view] at this

theorem monitors (h : Install addr old new s m r t) (f : Fid) :
    t.monitors.get f = { (s.monitors.get f).atReload (turnOf old new f).changed with
      silence := (turnOf old new f).silence new.settings.silenceLimit (s.monitors.get f).silence } := by
  have := (h.turn f).monitor
  rw [h.before_view] at this
  have silence : ((s.monitors.get f).atReload (turnOf old new f).changed).silence = (s.monitors.get f).silence := by
    unfold Monitor.atReload
    dsimp only
    split <;> rfl
  rw [← silence]
  exact this

theorem lastValid (h : Install addr old new s m r t) (f : Fid) :
    (t.monitors.get f).lastValid = (s.monitors.get f).lastValid := by
  rw [h.monitors]
  unfold Monitor.atReload
  dsimp only
  split <;> rfl

theorem monitors_cleared (h : Install addr old new s m r t) {f : Fid} (changed : (turnOf old new f).changed = true) :
    (t.monitors.get f).head = Accum.empty ∧ (t.monitors.get f).tail = Accum.empty ∧
      (t.monitors.get f).invalidRun = 0 ∧ (t.monitors.get f).endConfirm = 0 := by
  rw [h.monitors, changed]
  exact ⟨rfl, rfl, rfl, rfl⟩

theorem monitors_kept (h : Install addr old new s m r t) {f : Fid} (same : ¬ (turnOf old new f).changed = true) :
    t.monitors.get f = { s.monitors.get f with assembly := ⟨.notWritten, .notWritten, .notWritten⟩, seq := none } := by
  obtain ⟨stays, runs⟩ := turnOf_unchanged same
  rw [Bool.not_eq_true] at same
  rw [h.monitors, same]
  unfold Turn.silence
  rw [stays, runs]
  rfl

theorem silence (h : Install addr old new s m r t) (f : Fid) :
    (t.monitors.get f).silence = (turnOf old new f).silence new.settings.silenceLimit (s.monitors.get f).silence := by
  rw [h.monitors]

theorem trackers (h : Install addr old new s m r t) (f : Fid) :
    t.trackers.get f = if (compareTables old new).sample then (s.trackers.get f).toSeek else s.trackers.get f := by
  have := (h.turn f).tracker
  rwa [h.before_view] at this

theorem evals (h : Install addr old new s m r t) (f : Fid) (none : (s.ctl.get f).sag = none) :
    t.evals.get f = s.evals.get f := by
  have := (h.turn f).eval
  rw [h.before_view] at this
  exact this none

theorem reserved (h : Install addr old new s m r t) (f : Fid) :
    t.account.reserved.get f =
      if (turnOf old new f).leaves (s.malm.get f) then 0 else s.account.reserved.get f := by
  have := (h.turn f).reserved
  rwa [h.before_view] at this

/-- The stager as the windows have left it. -/
theorem before_stager (h : Install addr old new s m r t) (f : Fid) :
    (m.view f).stager = if referenceMoved old new f = true then { s.stagers.get f with owner := none }
      else s.stagers.get f := by
  rw [h.before_view]

theorem stager (h : Install addr old new s m r t) (f : Fid) :
    (t.stagers.get f).bare =
      (turnOf old new f).stager (s.malm.get f) { (m.view f).stager.bare with assembly := none } := (h.turn f).stager

theorem before_kept (h : Install addr old new s m r t) (f : Fid) :
    { (m.view f).stager with owner := (s.stagers.get f).owner } = s.stagers.get f := by
  rw [h.before_stager]
  split <;> rfl

/-- What the stager is held to once its turn is over, but for the page owner and the results. -/
theorem stager_fields (h : Install addr old new s m r t) (f : Fid) :
    (t.stagers.get f).assembly = none ∧ (t.stagers.get f).committed = (s.stagers.get f).committed ∧
      (t.stagers.get f).lastSeq = (s.stagers.get f).lastSeq ∧
      (t.stagers.get f).owner = (m.view f).stager.owner ∧
      ((t.stagers.get f).pending, (t.stagers.get f).onLine, (t.stagers.get f).inSlot) =
        if (turnOf old new f).leaves (s.malm.get f) then (none, none, none)
        else ((s.stagers.get f).pending, (s.stagers.get f).onLine, (s.stagers.get f).inSlot) := by
  have bare := h.stager f
  have field : ∀ {α : Type} (g : Stager → α), g (t.stagers.get f).bare = g _ := fun g => congrArg g bare
  have before : ∀ {α : Type} (g : Stager → α), g _ = g (s.stagers.get f) := fun g => congrArg g (h.before_kept f)
  have committed : (m.view f).stager.committed = (s.stagers.get f).committed := before Stager.committed
  have lastSeq : (m.view f).stager.lastSeq = (s.stagers.get f).lastSeq := before Stager.lastSeq
  have pending : (m.view f).stager.pending = (s.stagers.get f).pending := before Stager.pending
  have onLine : (m.view f).stager.onLine = (s.stagers.get f).onLine := before Stager.onLine
  have inSlot : (m.view f).stager.inSlot = (s.stagers.get f).inSlot := before Stager.inSlot
  rw [← committed, ← lastSeq, ← pending, ← onLine, ← inSlot]
  unfold Turn.stager at bare field
  by_cases leaves : (turnOf old new f).leaves (s.malm.get f) = true
  · rw [if_pos leaves] at field
    rw [if_pos leaves]
    exact ⟨field Stager.assembly, field Stager.committed, field Stager.lastSeq, field Stager.owner,
      field fun g => (g.pending, g.onLine, g.inSlot)⟩
  · rw [if_neg leaves] at field
    rw [if_neg leaves]
    exact ⟨field Stager.assembly, field Stager.committed, field Stager.lastSeq, field Stager.owner,
      field fun g => (g.pending, g.onLine, g.inSlot)⟩

theorem results (h : Install addr old new s m r t) (f : Fid) (held : (s.stagers.get f).held = []) :
    (t.stagers.get f).number = (s.stagers.get f).number + BitVec.ofNat 8 (s.stagers.get f).abandons.length ∧
      (t.stagers.get f).latest = (logResults (s.trackers.get f).hc (s.stagers.get f).number
        (endings (t.ctl.get f).source (s.stagers.get f).committed (s.stagers.get f).abandons)).getLast?.or
        (s.stagers.get f).latest := by
  have made := (h.turn f).made
  have kept : ∀ {α : Type} (g : Stager → α), g _ = g (s.stagers.get f) := fun g => congrArg g (h.before_kept f)
  have tracker : (m.view f).tracker = s.trackers.get f := by rw [h.before_view]; rfl
  rw [tracker, show (m.view f).stager.held = _ from kept Stager.held,
    show (m.view f).stager.number = _ from kept Stager.number,
    show (m.view f).stager.latest = _ from kept Stager.latest,
    show (m.view f).stager.committed = _ from kept Stager.committed,
    show (m.view f).stager.abandons = _ from kept Stager.abandons] at made
  exact made held

/-- The records of a reload with no sag open and no reference record held (R172). -/
theorem recorded (h : Install addr old new s m r t) (idle : ∀ f, (s.view f).idle) :
    recorded s t (loadedRecord addr old new ::
      Fid.all.flatMap fun f => (turnOf old new f).bodies (s.malm.get f) f (s.view f) (t.ctl.get f).source) := by
  have kept : ∀ f {α : Type} (g : Stager → α), g _ = g (s.stagers.get f) := fun f _ g => congrArg g (h.before_kept f)
  have before : ∀ f, (m.view f).idle := fun f => by
    obtain ⟨held, sag, episode⟩ := idle f
    have stager : (m.view f).stager.held = [] := (kept f Stager.held).trans held
    rw [h.before_view] at stager ⊢
    exact ⟨stager, sag, episode⟩
  have same : ∀ f source, (turnOf old new f).bodies (s.malm.get f) f (m.view f) source =
      (turnOf old new f).bodies (s.malm.get f) f (s.view f) source := fun f source => by
    rw [h.before_view]
    unfold Turn.bodies
    dsimp only
    split <;> rfl
  have hands := (h.prelude.hands.trans (h.turns.hands before)).all
  simp only [h.before_malm, same] at hands
  have ctl : t.ctl = r.ctl := h.ends.ctl
  unfold Machine.recorded at hands ⊢
  rw [h.staging, ctl]
  exact hands

end Install

end Sys2Proof.Machine
end

section
namespace Sys2Proof.Machine

/-! ## The reload commands (R170, R171) -/

/-- A reload's read begins. -/
theorem startReload_begins (s : State) (settled : s.portSettled) (requested : s.loader.reload = .requested)
    (quiet : s.quiescent = true) : s.startReload.finish.offMarks = State.offMarks
      { s with loader := { s.loader with reload := .reading, read := some ⟨none, 0, 0⟩, image := [] } } := by
  have begins : s.startReload = (s.putLoader { s.loader with reload := .reading }).beginRead :=
    if_pos ⟨requested, quiet⟩
  have marked := note_follows [0, 1] s { s with loader := { s.loader with reload := .reading } }
  have first : Follows (fun _ => false) s (s.putLoader { s.loader with reload := .reading }) :=
    ⟨marked.bus, marked.plain, marked.kept, marked.length, marked.stays, marked.dirty⟩
  have read := note_follows [0, 1] (s.putLoader { s.loader with reload := .reading })
    { s.putLoader { s.loader with reload := .reading } with
      loader := { (s.putLoader { s.loader with reload := .reading }).loader with read := some ⟨none, 0, 0⟩, image := [] } }
  have second : Follows (fun _ => false) (s.putLoader { s.loader with reload := .reading }) s.startReload := by
    rw [begins]
    exact ⟨read.bus, read.plain, read.kept, read.length, read.stays, read.dirty⟩
  have burst : s.startReload.writer.burst = s.writer.burst := by
    rw [begins]
    simp [State.beginRead]
  have ends := finish_endsAs ((first.trans second).portSettled settled fun idle => burst.trans idle) rfl
  rw [State.offMarks_of_offPort ends.offPort, begins]
  refine (State.putLoader_offMarks _ _).trans ?_
  have loader : (s.putLoader { s.loader with reload := .reading }).loader = { s.loader with reload := .reading } := by simp
  rw [loader]
  exact congrArg (fun u : State => { u with
    loader := { s.loader with reload := .reading, read := some ⟨none, 0, 0⟩, image := [] } })
    (State.putLoader_offMarks s { s.loader with reload := .reading })

theorem startReload_waits (s : State) (waits : s.loader.reload ≠ .requested ∨ s.quiescent = false) :
    s.startReload = s := by
  refine if_neg fun ⟨requested, quiet⟩ => ?_
  rcases waits with other | busy
  · exact other requested
  · rw [busy] at quiet
    cases quiet

theorem installHeld_waits (s : State) (waits : s.loader.reload ≠ .held ∨ s.quiescent = false) : s.installHeld = s := by
  refine if_neg fun ⟨held, quiet⟩ => ?_
  rcases waits with other | busy
  · exact other held
  · rw [busy] at quiet
    cases quiet

theorem installHeld_installs {s : State} {old new : Table} {base : Word} (held : s.loader.reload = .held)
    (quiet : s.quiescent = true) (table : s.table = some old) (addr : s.loader.heldAddr = some base)
    (valid : validate s.loader.image = .ok new) : s.installHeld = s.installReload base old new := by
  unfold State.installHeld
  rw [if_pos ⟨held, quiet⟩, table, addr, valid]

/-- A quiescent feeder holds no reference record but a pending one, and no episode. -/
theorem quiescent_feeder {s : State} (quiet : s.quiescent = true) (f : Fid) :
    (s.ctl.get f).episode = none ∧ ((s.stagers.get f).pending = none → (s.stagers.get f).held = []) := by
  have quiet : s.feederQuiescent f = true := List.all_eq_true.1 quiet f (Fid.mem_all f)
  simp only [State.feederQuiescent, Bool.and_eq_true, Option.isNone_iff_eq_none] at quiet
  obtain ⟨⟨⟨-, episode⟩, onLine⟩, inSlot⟩ := quiet
  refine ⟨episode, fun pending => ?_⟩
  unfold Stager.held
  rw [onLine, inSlot, pending]
  rfl

theorem loadedRecord_eq (base : Word) (old new : Table) {P : Prop} [Decidable P]
    (sample : P ↔ old.settings.sample ≠ new.settings.sample) :
    Body.tableLoaded base new.length new.identity new.windows.length true (decide P)
      (Fid.all.filter fun f => decide (old.entries.get f ≠ new.entries.get f)) = loadedRecord base old new := by
  have entries : (fun f => decide (old.entries.get f ≠ new.entries.get f)) =
      fun f => old.entries.get f != new.entries.get f := funext fun f => decide_eq_of_iff bne_iff_ne
  rw [entries, decide_eq_of_iff (compareTables_sample.trans sample.symm)]
  rfl

/-- Settles O51: the feeders' turns follow one another behind the windows and the TABLE_LOADED record. -/
theorem reloadEvents : Obligations.ReloadEvents := by
  intro s settled
  refine ⟨fun requested quiet => ⟨_, rfl, startReload_begins s settled.portSettled requested quiet⟩,
    fun waits => ⟨_, rfl, ?_⟩, fun waits => ⟨_, rfl, ?_⟩, fun old base new held quiet table addr valid => ?_⟩
  · rw [startReload_waits s waits]
    exact State.finish_settled s settled
  · rw [installHeld_waits s waits]
    exact State.finish_settled s settled
  intro sample resampled ring mirror reference enabled resets leaves loaded abandons moves changes
  obtain ⟨m, r, h⟩ := Install.exists_of (addr := base) (old := old) (new := new) settled.portSettled
  rw [← installHeld_installs held quiet table addr valid] at h
  have leaves_iff : ∀ f, leaves f ↔ (turnOf old new f).leaves (s.malm.get f) = true := fun f => turnOf_leaves.symm
  have resets_iff : ∀ f, resets f ↔ (turnOf old new f).resets = true := fun f => turnOf_resets.symm
  have resampled_iff : resampled ↔ (compareTables old new).sample = true := compareTables_sample.symm
  have loaded_eq : loaded = loadedRecord base old new := loadedRecord_eq base old new Iff.rfl
  refine ⟨s.installHeld.finish, rfl, ?_⟩
  generalize s.installHeld.finish = t at h
  refine ⟨h.table, h.loader, h.dclink, h.attn, h.usable, h.notice, h.pending, h.stamp, h.init, h.malm, h.draws,
    h.keeps_hold, h.turnOwed, h.current, ?link, ?staged, h.grows, ?recorded, h.same_ring, h.moved_ring, h.mirror, ?word,
    fun f => ?feeder⟩
  case link =>
    rw [h.link]
    unfold Link.withoutAll
    congr 1
    · exact Per8.ext_get fun f => by
        rw [Per8.get_ofFn, Per8.get_ofFn]
        exact if_congr (leaves_iff f).symm rfl rfl
    · congr 1
      funext x
      rw [decide_eq_of_iff (leaves_iff x.feeder).symm]
  case staged =>
    rw [loaded_eq]
    exact h.staged
  case recorded =>
    intro idle
    have all := h.recorded fun f => by
      obtain ⟨sag, pending⟩ := idle f
      obtain ⟨episode, nothing⟩ := quiescent_feeder quiet f
      exact ⟨nothing pending, sag, episode⟩
    have bodies : ∀ f, (turnOf old new f).bodies (s.malm.get f) f (s.view f) (t.ctl.get f).source =
        abandons t f ++ moves f ++ changes f := fun f => by
      unfold Turn.bodies
      rw [turnOf_changes]
      congr 1
      · congr 1
        · exact abandons_bodies f _ _ _
        · exact if_congr (and_congr_left fun _ => resampled_iff.symm) rfl rfl
      · refine if_congr Iff.rfl ?_ rfl
        exact if_congr (resets_iff f).symm rfl rfl
    rw [loaded_eq, ← funext bodies]
    exact all
  case word =>
    intro w d port
    obtain ⟨w', carried, target, addr, value, burst, moved⟩ := h.word port
    refine ⟨w', carried, target, addr, value, burst, ?_⟩
    rw [moved, Bool.or_eq_true, movedWords_iff]
    simp only [referenceMoved_iff]
    exact Iff.rfl
  case feeder =>
    intro c m' g was now changed armed
    have changed_iff : changed ↔ (turnOf old new f).changed = true := turnOf_changed.symm
    have stops : was = true → now = false → (turnOf old new f).stops = true :=
      fun on off => turnOf_stops.2 ⟨on, off⟩
    obtain ⟨assembly, committed, lastSeq, owner, records⟩ := h.stager_fields f
    refine ⟨(congrArg Monitor.seq (h.monitors f) :), (congrArg Monitor.assembly (h.monitors f) :), h.lastValid f,
      fun yes => h.monitors_cleared (changed_iff.1 yes), fun no => h.monitors_kept fun yes => no (changed_iff.2 yes),
      fun _ arms => ?_, fun on off => ?_, fun idle stays => ?_, h.evals f, ?_, ?_, fun yes => ?_, fun no => ?_, assembly,
      committed, lastSeq, fun x some => h.slotMarked (by rw [some]; exact fun h => nomatch h), fun x some nothing => ?_,
      fun none nothing => ?_, fun has moves => ?_, fun stays => ?_⟩
    · have arms := (resets_iff f).1 arms
      rw [h.silence, h.ctl]
      unfold Turn.silence Turn.ctl
      rw [if_pos arms, if_pos arms]
      exact ⟨rfl, rfl⟩
    · have stop := stops on off
      have calm : ¬ (turnOf old new f).resets = true := fun arms => by
        rw [Turn.stops_of_resets arms] at stop
        cases stop
      rw [h.silence, h.ctl]
      unfold Turn.silence Turn.ctl
      rw [if_neg calm, if_pos stop, if_neg calm, if_pos stop]
      exact ⟨rfl, rfl⟩
    · have calm : ¬ (turnOf old new f).resets = true := fun arms => idle ((resets_iff f).2 arms)
      have runs : ¬ (turnOf old new f).stops = true := fun stop => by
        obtain ⟨on, off⟩ := turnOf_stops.1 stop
        have on := stays on
        exact absurd (on.symm.trans off) (by decide)
      rw [h.silence, h.ctl]
      unfold Turn.silence Turn.ctl
      rw [if_neg calm, if_neg runs, if_neg calm, if_neg runs]
      exact ⟨rfl, rfl⟩
    · exact (h.reserved f).trans (if_congr (leaves_iff f).symm rfl rfl)
    · exact records.trans (if_congr (leaves_iff f).symm rfl rfl)
    · exact (h.trackers f).trans (if_pos (resampled_iff.1 yes))
    · exact (h.trackers f).trans (if_neg fun yes => no (resampled_iff.2 yes))
    · obtain ⟨-, nothing'⟩ := quiescent_feeder quiet f
      obtain ⟨number, latest⟩ := h.results f (nothing' nothing)
      unfold Stager.abandons at number latest
      rw [some] at number latest
      refine ⟨number, ?_⟩
      rw [latest]
      rfl
    · obtain ⟨-, nothing'⟩ := quiescent_feeder quiet f
      obtain ⟨number, latest⟩ := h.results f (nothing' nothing)
      unfold Stager.abandons at number latest
      rw [none] at number latest
      refine ⟨number.trans (BitVec.add_zero _), latest⟩
    · have moved := referenceMoved_iff.2 ⟨has, moves⟩
      refine ⟨owner.trans ?_, h.resultDirty moved⟩
      rw [h.before_stager, if_pos moved]
    · refine owner.trans ?_
      rw [h.before_stager, if_neg]
      intro moved
      obtain ⟨has, moves⟩ := referenceMoved_iff.1 moved
      exact stays.elim has moves

end Sys2Proof.Machine
end

section
namespace Sys2Proof.Machine

/-! ## One TBCLK period (R40, R119, R150) -/

/-- Settles O2: the period advances the stamp and the timers, unless INIT holds the part. -/
theorem emptyQueuePassesOnePeriod : Obligations.EmptyQueuePassesOnePeriod := by
  intro s empty
  refine ⟨s.tick, by simp [step, empty], fun held => ?_, fun running => ?_⟩
  · simp [State.tick, held]
  · have ticks : s.tick = { s with
        stamp := s.stamp + 1#32, monitors := s.monitors.map Monitor.tick
        bus := { s.bus with gapTimer := s.bus.gapTimer.map fun t => min Config.gapLimit (t + 1) }
        link := { s.link with wait := s.link.wait.map Wait.tick } } := by
      simp [State.tick, running]
    rw [ticks]
    exact ⟨rfl, fun f => by simp [Monitor.tick]⟩

/-! ## A write of the sampler, handed to its owner (R143, R146, R148) -/

/-- The sampler may write this window (R143). -/
theorem sampler_permitted {s : State} {a : Word} {be : BitVec 4} {v : Word} {w : WindowEntry}
    (window : s.classify a = .window w) (kind : w.kind = .sample ∨ w.kind = .dclink) :
    accessPermitted (s.classify (samplerWrite a be v).addr) (samplerWrite a be v) = true := by
  change writePermitted (s.classify a) a tagSampler = true
  rw [window]
  rcases kind with kind | kind <;> simp [writePermitted, kind]

/-- A write of the sampler that the port takes at once is on the port, and the owner of its window has it. -/
theorem sampler_hands {c : Instr} {s : State} {a : Word} {be : BitVec 4} {v : Word} {w : WindowEntry}
    (command : accessOf c = some (samplerWrite a be v)) (once : s.takesAtOnce)
    (window : s.classify a = .window w) (kind : w.kind = .sample ∨ w.kind = .dclink) :
    Completes c s fun t => t.bus.port = .upstream ∧
      EndsAs ((s.taken (samplerWrite a be v)).windowTake w (samplerWrite a be v)) t := by
  have permitted := sampler_permitted (be := be) (v := v) window kind
  have takes : s.takeAccess (samplerWrite a be v) =
      (s.taken (samplerWrite a be v)).windowTake w (samplerWrite a be v) := by
    rw [State.takeAccess_eq s _ permitted]
    change (s.taken _).handOff (s.classify a) _ = _
    rw [window]
    rfl
  obtain ⟨t, run, off, up⟩ := completes_access c _ s command once permitted
  obtain ⟨onPort, -⟩ := State.takeAccess_permitted s _ permitted
  exact ⟨t, run, up, takes ▸ ⟨off, fun _ => up.trans onPort.symm⟩⟩

/-- The same in a SAMPLE window: the feeder's monitor has the word. -/
theorem sample_hands {c : Instr} {s : State} {a : Word} {be : BitVec 4} {v : Word} {w : WindowEntry}
    (command : accessOf c = some (samplerWrite a be v)) (once : s.takesAtOnce)
    (window : s.classify a = .window w) (kind : w.kind = .sample) :
    Completes c s fun t => t.bus.port = .upstream ∧
      EndsAs ((s.taken (samplerWrite a be v)).sampleWrite w.feeder a.groupPlace be v) t := by
  have takes : (s.taken (samplerWrite a be v)).windowTake w (samplerWrite a be v) =
      (s.taken (samplerWrite a be v)).sampleWrite w.feeder a.groupPlace be v := by
    unfold State.windowTake
    rw [kind]
    rfl
  exact takes ▸ sampler_hands command once window (.inl kind)

/-! ## Phase words (R25) -/

/-- The assembly with the word of one place written; the fourth place is the stamp's. -/
def Monitor.phaseAt (m : Monitor) (place : BitVec 2) (x : PhaseSlot) : Phases PhaseSlot :=
  if place = 0#2 then { m.assembly with a := x }
  else if place = 1#2 then { m.assembly with b := x }
  else { m.assembly with c := x }

theorem sampleWrite_phase (s : State) (f : Fid) {place : BitVec 2} (be : BitVec 4) (v : Word) (phase : place ≠ 3#2) :
    s.sampleWrite f place be v =
      s.putMonitor f { s.monitors.get f with assembly := (s.monitors.get f).phaseAt place (phaseWritten be v) } := by
  have places : place = 0#2 ∨ place = 1#2 ∨ place = 2#2 := by bv_omega
  rcases places with rfl | rfl | rfl <;> rfl

/-- Settles O29. -/
theorem samplePhaseWrite : Obligations.SamplePhaseWrite := by
  intro s a be v w once window kind phase
  obtain ⟨t, run, up, e⟩ := sample_hands (c := .samplePhaseWrite a be v) rfl once window kind
  rw [sampleWrite_phase _ _ _ _ phase] at e
  exact ⟨t, run, up, e.offPort⟩

/-! ## DC-link words (R41, R42, R75) -/

/-- An update installs the figure of its own value, whether it sheds or not. -/
theorem updateUsable_usable (s : State) (v : Nat) :
    (s.updateUsable v).account.usable = usableFigure s.settings v := by
  unfold State.updateUsable
  dsimp only
  split <;> simp

theorem updateUsable_dclink (s : State) (v : Nat) : (s.updateUsable v).dclink = s.dclink :=
  (congrArg State.dclink (State.updateUsable_moves s v .refl).outer :)

/-- A word that counts for nothing: it is partial, or its sequence is the held one. -/
theorem dclinkTake_passes (s : State) (be : BitVec 4) (v : Word)
    (passes : be ≠ 15#4 ∨ s.dclink.lastSeq = some (v.extractLsb' 16 16)) : s.dclinkTake be v = s := if_pos passes

/-- A word that counts, before the last of its interval. -/
theorem dclinkTake_counts (s : State) (v : Word) (fresh : s.dclink.lastSeq ≠ some (v.extractLsb' 16 16))
    (before : s.dclink.count + 1 < s.settings.dcInterval) :
    s.dclinkTake 15#4 v = { s with dclink := ⟨some (v.extractLsb' 16 16), s.dclink.count + 1⟩ } := by
  unfold State.dclinkTake
  rw [if_neg fun passes => passes.elim (fun partly => partly rfl) fresh, if_neg (Nat.not_le_of_lt before)]

/-- The last word of an interval, which brings an update of its own value. -/
theorem dclinkTake_updates (s : State) (v : Word) (fresh : s.dclink.lastSeq ≠ some (v.extractLsb' 16 16))
    (last : s.settings.dcInterval ≤ s.dclink.count + 1) :
    s.dclinkTake 15#4 v =
      State.updateUsable { s with dclink := ⟨some (v.extractLsb' 16 16), 0⟩ } (v.extractLsb' 0 16).toNat := by
  unfold State.dclinkTake
  rw [if_neg fun passes => passes.elim (fun partly => partly rfl) fresh, if_pos last]
  rfl

/-- Settles O31: the word is handed to the DC-link monitor, which counts it or passes it over. -/
theorem dclinkWrite : Obligations.DclinkWrite := by
  intro s a be v w once window kind q taken
  obtain ⟨t, run, up, e⟩ := sampler_hands (c := .dclinkWrite a be v) rfl once window (.inr kind)
  have takes : taken.windowTake w (samplerWrite a be v) = taken.dclinkTake be v := by
    unfold State.windowTake
    rw [kind]
    rfl
  replace e : EndsAs (taken.dclinkTake be v) t := takes ▸ e
  refine ⟨t, run, up, fun passes => ?_, ?_⟩
  · rw [e.offPort, dclinkTake_passes taken be v passes]
  rintro rfl fresh
  refine ⟨fun before => ?_, fun last => ?_⟩
  · rw [e.offPort, dclinkTake_counts taken v fresh before]
    rfl
  · rw [dclinkTake_updates taken v fresh last] at e
    exact ⟨e.offPort, e.dclink.trans (updateUsable_dclink _ _),
      (congrArg Account.usable e.account).trans (updateUsable_usable _ _)⟩

end Sys2Proof.Machine
end

section
namespace Sys2Proof.Machine

/-! ## The residual (R34) -/

/-- The test of R34 as the statement writes it. -/
theorem residualAtLeast_iff (sum count nominal r : Nat) :
    residualAtLeast sum count nominal r = true ↔ r ^ 2 * nominal * count ≤ 1000000 * sum := by
  unfold residualAtLeast
  rw [decide_eq_true_iff, Nat.pow_two]

/-- The test of R34 holds below every number for which it holds. -/
theorem residualAtLeast_mono {sum count nominal q r : Nat} (below : q ≤ r)
    (holds : residualAtLeast sum count nominal r = true) : residualAtLeast sum count nominal q = true := by
  rw [residualAtLeast_iff] at holds ⊢
  exact (by gcongr : q ^ 2 * nominal * count ≤ r ^ 2 * nominal * count).trans holds

/-- The values of the `k` lowest bits, the highest first. -/
def bitValues : Nat → List Nat
  | 0 => []
  | k + 1 => 2 ^ k :: bitValues k

/-- The search from a number that passes the test finds the largest below `acc + 2 ^ k` that passes it. -/
theorem residualSearch_greatest (sum count nominal k : Nat) : ∀ acc : Nat, residualAtLeast sum count nominal acc = true →
    residualAtLeast sum count nominal ((bitValues k).foldl (residualStep sum count nominal) acc) = true ∧
      ∀ r, r < acc + 2 ^ k → residualAtLeast sum count nominal r = true →
        r ≤ (bitValues k).foldl (residualStep sum count nominal) acc := by
  induction k with
  | zero => exact fun acc holds => ⟨holds, fun r below _ => Nat.le_of_lt_succ below⟩
  | succ k ih =>
    intro acc holds
    have halves : 2 ^ (k + 1) = 2 ^ k + 2 ^ k := by rw [Nat.pow_succ, Nat.mul_two]
    simp only [bitValues, List.foldl_cons, residualStep]
    split
    · next kept =>
      obtain ⟨found, largest⟩ := ih (acc + 2 ^ k) kept
      exact ⟨found, fun r below => largest r (by omega)⟩
    · next dropped =>
      obtain ⟨found, largest⟩ := ih acc holds
      refine ⟨found, fun r _ passes => largest r (Nat.lt_of_not_le fun above => ?_) passes⟩
      exact dropped (residualAtLeast_mono above passes)

/-- The residual of a phase with samples. -/
theorem residual_eq {count : Nat} (sum nominal : Nat) (some : count ≠ 0) :
    residual sum count nominal = min 1999 ((bitValues 11).foldl (residualStep sum count nominal) 0) := if_neg some

theorem residual_le (sum count nominal : Nat) : residual sum count nominal ≤ 1999 := by
  unfold residual
  split
  · exact Nat.zero_le _
  · exact Nat.min_le_left _ _

/-- The residual passes the test, and no number up to 1999 above it does (R34). -/
theorem residual_greatest {count : Nat} (sum nominal : Nat) (some : count ≠ 0) :
    residual sum count nominal ^ 2 * nominal * count ≤ 1000000 * sum ∧
      ∀ r : Nat, r ≤ 1999 → r ^ 2 * nominal * count ≤ 1000000 * sum → r ≤ residual sum count nominal := by
  obtain ⟨found, largest⟩ := residualSearch_greatest sum count nominal 11 0 ((residualAtLeast_iff ..).2 (by simp))
  rw [residual_eq sum nominal some]
  refine ⟨(residualAtLeast_iff ..).1 (residualAtLeast_mono (Nat.min_le_right _ _) found), fun r limit passes => ?_⟩
  exact Nat.le_min.2 ⟨limit, largest r (by omega) ((residualAtLeast_iff ..).2 passes)⟩

/-! ## The accumulators (R23, R29, R32, R33) -/

/-- A present sample adds its square and one to the count, each held at its largest value; a missing one adds nothing. -/
theorem adds_phase (x : Option Sample) (sum count : Nat) :
    (x = none → addSquare x sum = sum ∧ addCount x count = count) ∧
      ∀ w, x = some w → addSquare x sum = min 281474976710655 (sum + (w.toInt * w.toInt).toNat) ∧
        addCount x count = min 65535 (count + 1) := by
  refine ⟨?_, ?_⟩
  · rintro rfl
    exact ⟨rfl, rfl⟩
  · rintro w rfl
    have squared : (w.toInt * w.toInt).toNat = square w := by
      rw [← Int.natAbs_mul_self, Int.toNat_natCast]
      rfl
    rw [squared]
    exact ⟨rfl, rfl⟩

theorem valid_iff (a : Accum) (n : Nat) :
    a.valid n = true ↔ a.mark = false ∧ n / 2 ≤ a.count.a ∧ n / 2 ≤ a.count.b ∧ n / 2 ≤ a.count.c := by
  simp [Accum.valid, Phases.all, and_assoc]

theorem goesToHead_iff (n : Nat) (count : Option Nat) : goesToHead n count = true ↔ ∀ k, count = some k → k ≤ n := by
  cases count <;> simp [goesToHead]

/-! ## The verdicts (R35 to R39) -/

/-- Outside a sag, and at an invalid half-cycle, the end confirm count stays (R38). -/
theorem confirmEnd_stays {sagOpen valid : Bool} (recovered : Bool) (count : Nat) (stays : sagOpen = false ∨ valid = false) :
    confirmEnd sagOpen valid recovered count = (count, false) := by
  rcases stays with rfl | rfl <;> simp [confirmEnd]

/-- At a valid half-cycle of a sag the count goes back to 0 without a recovery, and the second recovery in a row ends the
sag (R38). -/
theorem confirmEnd_counts (recovered : Bool) (count : Nat) :
    confirmEnd true true recovered count =
      if recovered = false then (0, false) else if count = 0 then (1, false) else (0, true) := by
  cases recovered with
  | false => rfl
  | true => cases count <;> simp [confirmEnd]

theorem judge_monitor (m : Monitor) (g : Settings) (sagOpen valid : Bool) (r : Phases Nat) :
    (m.judge g sagOpen valid r).1 =
      { m with
        endConfirm := (m.judge g sagOpen valid r).1.endConfirm
        invalidRun := if valid then 0 else min 255 (m.invalidRun + 1) } := rfl

theorem judge_onset_iff (m : Monitor) (g : Settings) (sagOpen valid : Bool) (r : Phases Nat) :
    (m.judge g sagOpen valid r).2.onset = true ↔
      valid = true ∧ sagOpen = false ∧ (r.a < g.onset ∨ r.b < g.onset ∨ r.c < g.onset) := by
  simp [Monitor.judge, Phases.any, and_assoc, or_assoc]

theorem judge_interruption_iff (m : Monitor) (g : Settings) (sagOpen valid : Bool) (r : Phases Nat) :
    (m.judge g sagOpen valid r).2.interruption = true ↔
      valid = true ∧ r.a < g.interruption ∧ r.b < g.interruption ∧ r.c < g.interruption := by
  simp [Monitor.judge, Phases.all, and_assoc]

theorem judge_invalidLimit_iff (m : Monitor) (g : Settings) (sagOpen valid : Bool) (r : Phases Nat) :
    (m.judge g sagOpen valid r).2.invalidLimit = true ↔ valid = false ∧ min 255 (m.invalidRun + 1) = g.invalidLimit := by
  cases valid <;> simp [Monitor.judge, runOn]

/-- The end confirm count and the end verdict after a closed half-cycle, as R38 counts them. -/
theorem judge_confirm (m : Monitor) (g : Settings) (sagOpen valid : Bool) (r : Phases Nat) :
    ((m.judge g sagOpen valid r).1.endConfirm, (m.judge g sagOpen valid r).2.ended) =
      confirmEnd sagOpen valid (r.all fun x => decide (g.recovery ≤ x)) m.endConfirm := rfl

/-- Every phase is at the recovery level or above it (R38). -/
theorem recovered_iff (g : Settings) (r : Phases Nat) :
    (r.all fun x => decide (g.recovery ≤ x)) = true ↔ g.recovery ≤ r.a ∧ g.recovery ≤ r.b ∧ g.recovery ≤ r.c := by
  simp [Phases.all, and_assoc]

/-- Settles O6, by the search for the residual, bit by bit, and the laws of accumulators and verdicts. -/
theorem residualIsLargest : Obligations.ResidualIsLargest := by
  refine ⟨fun sum count nominal => ⟨residual_le .., fun none => if_pos none, residual_greatest sum nominal⟩, ?_, ?_⟩
  · intro a b x mark n nominal count y z sumLimit adds
    exact ⟨adds_phase .., adds_phase .., adds_phase .., rfl, rfl, rfl, rfl, valid_iff a n, rfl, goesToHead_iff n count⟩
  · intro m g sagOpen valid r y recovered ends
    have confirm := judge_confirm m g sagOpen valid r
    have counts {p : Nat × Bool} (e : confirmEnd sagOpen valid (r.all fun x => decide (g.recovery ≤ x)) m.endConfirm = p) :
        ends p.1 p.2 := Prod.mk.inj (confirm.trans e)
    refine ⟨judge_monitor .., rfl, rfl, judge_onset_iff .., judge_interruption_iff .., fun stays => ?_, ?_,
      judge_invalidLimit_iff ..⟩
    · exact counts (confirmEnd_stays _ _ stays)
    · rintro rfl rfl
      have count := confirmEnd_counts (r.all fun x => decide (g.recovery ≤ x)) m.endConfirm
      refine ⟨fun not => ?_, fun is first => ?_, fun is second => ?_⟩
      · exact counts (count.trans (if_pos (Bool.eq_false_iff.2 fun all => not ((recovered_iff g r).1 all))))
      · rw [(recovered_iff g r).2 is, if_neg (by decide), if_pos first] at count
        rw [(recovered_iff g r).2 is] at counts
        exact counts count
      · rw [(recovered_iff g r).2 is, if_neg (by decide), if_neg (by omega)] at count
        rw [(recovered_iff g r).2 is] at counts
        exact counts count

end Sys2Proof.Machine
end

section
namespace Sys2Proof.Machine

/-! ## Tracker loss (R18) -/

/-- The states in which a feeder that loses its tracker is shed (R18). -/
def FeederState.shedOnLoss (x : FeederState) : Prop := x = .watch ∨ x = .ride ∨ x = .recover

namespace State

theorem trackerLost_of_standby {s : State} {f : Fid} (state : (s.ctl.get f).state = .standby) :
    s.trackerLost f = s.enterArming f .sync := by
  unfold trackerLost
  rw [state]

theorem trackerLost_of_shedOnLoss {s : State} {f : Fid} (state : (s.ctl.get f).state.shedOnLoss) :
    s.trackerLost f = s.enterShed f .syncLost .notRiding := by
  unfold trackerLost
  rcases state with state | state | state <;> rw [state]

theorem trackerLost_of_other {s : State} {f : Fid} (standby : (s.ctl.get f).state ≠ .standby)
    (others : ¬ (s.ctl.get f).state.shedOnLoss) : s.trackerLost f = s := by
  unfold trackerLost
  split
  · next state => exact absurd state standby
  · next state => exact absurd (.inl state) others
  · next state => exact absurd (.inr (.inl state)) others
  · next state => exact absurd (.inr (.inr state)) others
  all_goals rfl

/-- What a proof about tracker loss has to show: the entry to ARMING, the entry to SHED, and a loss that counts for nothing. -/
theorem trackerLost_cases {P : State → Prop} (s : State) (f : Fid)
    (standby : (s.ctl.get f).state = .standby → P (s.enterArming f .sync))
    (shed : (s.ctl.get f).state.shedOnLoss → P (s.enterShed f .syncLost .notRiding))
    (other : (s.ctl.get f).state ≠ .standby → ¬ (s.ctl.get f).state.shedOnLoss → P s) : P (s.trackerLost f) := by
  by_cases isStandby : (s.ctl.get f).state = .standby
  · exact trackerLost_of_standby isStandby ▸ standby isStandby
  · by_cases isShed : (s.ctl.get f).state.shedOnLoss
    · exact trackerLost_of_shedOnLoss isShed ▸ shed isShed
    · exact (trackerLost_of_other isStandby isShed).symm ▸ other isStandby isShed

/-! ### Entry to ARMING, with its move on to FAULT (R5) -/

theorem enterArming_of_calm {s : State} {f : Fid} (r : Reason) (calm : s.malm.get f = false) :
    s.enterArming f r = s.beginArming f r := by
  rw [enterArming_eq, calm]
  rfl

theorem enterArming_of_alarm {s : State} {f : Fid} (r : Reason) (alarm : s.malm.get f = true) :
    s.enterArming f r = (s.beginArming f r).enterFault f .alarm := by
  rw [enterArming_eq, alarm]
  rfl

theorem enterArming_monitors (s : State) (f : Fid) (r : Reason) :
    (s.enterArming f r).monitors =
      s.monitors.set f { s.monitors.get f with silence := some s.settings.silenceLimit } := by
  rw [enterArming_eq]
  split <;> simp

theorem enterArming_ctl (s : State) (f : Fid) (r : Reason) :
    (s.enterArming f r).ctl = s.ctl.set f
      (if s.malm.get f then ((s.ctl.get f).armed r).faulted .alarm else (s.ctl.get f).armed r) := by
  rw [enterArming_eq]
  split
  · rw [enterFault_ctl]
    simp [FeederCtl.faulted]
  · simp

theorem enterArming_account (s : State) (f : Fid) (r : Reason) :
    (s.enterArming f r).account =
      if s.malm.get f then { s.account with reserved := s.account.reserved.set f 0 } else s.account := by
  rw [enterArming_eq]
  split
  · rw [enterFault_account, beginArming_account]
  · simp

end State

/-- The first record of an entry to ARMING is its FEEDER_STATE record. -/
theorem staged_enterArming (s : State) (f : Fid) (r : Reason) :
    staged s (s.enterArming f r) (.feederState f (s.ctl.get f).state .arming r) := by
  have begun := (hands_beginArming s f r).first _ rfl
  refine staged_of_moves begun rfl ?_
  rw [State.enterArming_eq]
  split
  · exact State.enterFault_moves _ f .alarm .refl
  · exact .refl

/-! ### What a loss leaves, in closed form -/

/-- The controller of a feeder that has lost its tracker (R18). -/
def FeederCtl.unsynced (c : FeederCtl) (malm : Bool) : FeederCtl :=
  match c.state with
  | .standby => if malm then (c.armed .sync).faulted .alarm else c.armed .sync
  | .watch => c.shed .syncLost
  | .ride => c.shed .syncLost
  | .recover => c.shed .syncLost
  | .off => c
  | .arming => c
  | .shed => c
  | .fault => c

/-- Its reservation is released: it has gone to FAULT or to SHED. -/
def FeederCtl.releases (c : FeederCtl) (malm : Bool) : Bool :=
  match c.state with
  | .standby => malm
  | .watch => true
  | .ride => true
  | .recover => true
  | .off => false
  | .arming => false
  | .shed => false
  | .fault => false

theorem FeederCtl.unsynced_of_standby {c : FeederCtl} (malm : Bool) (state : c.state = .standby) :
    c.unsynced malm = if malm then (c.armed .sync).faulted .alarm else c.armed .sync := by
  unfold unsynced
  rw [state]

theorem FeederCtl.unsynced_of_shedOnLoss {c : FeederCtl} (malm : Bool) (state : c.state.shedOnLoss) :
    c.unsynced malm = c.shed .syncLost ∧ c.releases malm = true := by
  unfold unsynced releases
  rcases state with state | state | state <;> rw [state] <;> exact ⟨rfl, rfl⟩

theorem FeederCtl.unsynced_of_other {c : FeederCtl} (malm : Bool) (standby : c.state ≠ .standby)
    (others : ¬ c.state.shedOnLoss) : c.unsynced malm = c ∧ c.releases malm = false := by
  unfold unsynced releases
  split
  · next state => exact absurd state standby
  · next state => exact absurd (.inl state) others
  · next state => exact absurd (.inr (.inl state)) others
  · next state => exact absurd (.inr (.inr state)) others
  all_goals exact ⟨rfl, rfl⟩

namespace State

theorem trackerLost_ctl (s : State) (f : Fid) :
    (s.trackerLost f).ctl = s.ctl.set f ((s.ctl.get f).unsynced (s.malm.get f)) := by
  refine trackerLost_cases (P := fun t => t.ctl = _) s f (fun standby => ?_) (fun shed => ?_) fun standby others => ?_
  · rw [enterArming_ctl, FeederCtl.unsynced_of_standby _ standby]
  · rw [(enterShed_shed s f .syncLost .notRiding).ctl, (FeederCtl.unsynced_of_shedOnLoss _ shed).1]
  · rw [(FeederCtl.unsynced_of_other _ standby others).1, Per8.set_get_self]

theorem trackerLost_account (s : State) (f : Fid) :
    (s.trackerLost f).account =
      if (s.ctl.get f).releases (s.malm.get f) then { s.account with reserved := s.account.reserved.set f 0 }
      else s.account := by
  refine trackerLost_cases (P := fun t => t.account = _) s f (fun standby => ?_) (fun shed => ?_)
    fun standby others => ?_
  · have releases : (s.ctl.get f).releases (s.malm.get f) = s.malm.get f := by
      unfold FeederCtl.releases
      rw [standby]
    rw [enterArming_account, releases]
  · rw [(enterShed_shed s f .syncLost .notRiding).account, (FeederCtl.unsynced_of_shedOnLoss _ shed).2]
    rfl
  · rw [(FeederCtl.unsynced_of_other _ standby others).2]
    rfl

theorem trackerLost_monitors (s : State) (f : Fid) :
    (s.trackerLost f).monitors =
      if (s.ctl.get f).state = .standby then
        s.monitors.set f { s.monitors.get f with silence := some s.settings.silenceLimit }
      else s.monitors := by
  refine trackerLost_cases (P := fun t => t.monitors = _) s f (fun standby => ?_) (fun shed => ?_)
    fun standby others => ?_
  · rw [enterArming_monitors, if_pos standby]
  · have not : (s.ctl.get f).state ≠ .standby := by
      rcases shed with shed | shed | shed <;> rw [shed] <;> decide
    rw [(enterShed_shed s f .syncLost .notRiding).monitors, if_neg not]
  · rw [if_neg standby]

/-- Beside its feeder's own controller, monitor and evaluator a loss leaves the trackers, the pins and the table alone. -/
theorem trackerLost_beside (s : State) (f : Fid) : Beside f s (s.trackerLost f) :=
  trackerLost_cases s f (fun _ => enterArming_beside s f .sync)
    (fun _ => (enterShed_steady s f .syncLost .notRiding).toBeside) fun _ _ => .refl f s

@[simp] theorem trackerLost_trackers (s : State) (f : Fid) : (s.trackerLost f).trackers = s.trackers :=
  (trackerLost_beside s f).trackers

@[simp] theorem trackerLost_table (s : State) (f : Fid) : (s.trackerLost f).table = s.table :=
  (trackerLost_beside s f).table

end State

/-! ## The restart actions (R30, R53, R56) -/

/-- The state in which a restart group has cleared its feeder's counts and sent its tracker to SEEK, and the controller has
not heard of it. -/
def State.reseek (s : State) (f : Fid) : State :=
  (s.putMonitor f (s.monitors.get f).clearCounts).sendToSeek f .restart

namespace State

theorem reseek_blocks (s : State) (f : Fid) :
    (s.reseek f).blocks = State.blocks
      { s with
        monitors := s.monitors.set f (s.monitors.get f).clearCounts
        trackers := s.trackers.set f (s.trackers.get f).toSeek } := by
  have sought := sendToSeek_blocks (s.putMonitor f (s.monitors.get f).clearCounts) f .restart
  rw [sendToSeek_trackers] at sought
  exact sought

@[simp] theorem reseek_ctl (s : State) (f : Fid) : (s.reseek f).ctl = s.ctl :=
  (congrArg (fun u : State => u.ctl) (reseek_blocks s f) :)

@[simp] theorem reseek_malm (s : State) (f : Fid) : (s.reseek f).malm = s.malm :=
  (congrArg (fun u : State => u.malm) (reseek_blocks s f) :)

@[simp] theorem reseek_table (s : State) (f : Fid) : (s.reseek f).table = s.table :=
  (congrArg (fun u : State => u.table) (reseek_blocks s f) :)

@[simp] theorem reseek_account (s : State) (f : Fid) : (s.reseek f).account = s.account :=
  (congrArg (fun u : State => u.account) (reseek_blocks s f) :)

@[simp] theorem reseek_stagers (s : State) (f : Fid) : (s.reseek f).stagers = s.stagers :=
  (congrArg (fun u : State => u.stagers) (reseek_blocks s f) :)

@[simp] theorem reseek_monitors (s : State) (f : Fid) :
    (s.reseek f).monitors = s.monitors.set f (s.monitors.get f).clearCounts :=
  (congrArg (fun u : State => u.monitors) (reseek_blocks s f) :)

@[simp] theorem reseek_trackers (s : State) (f : Fid) :
    (s.reseek f).trackers = s.trackers.set f (s.trackers.get f).toSeek :=
  (congrArg (fun u : State => u.trackers) (reseek_blocks s f) :)

@[simp] theorem reseek_settings (s : State) (f : Fid) : (s.reseek f).settings = s.settings := by
  unfold settings
  rw [reseek_table]

/-- The move to SEEK hands over its SYNC_CHANGE record, if it makes one. -/
theorem reseek_hands (s : State) (f : Fid) :
    Hands s (s.reseek f) (seekRecords f (s.trackers.get f) (s.ctl.get f).state .restart) := by
  have hands := ((Logs.refl f s).putMonitor f (s.monitors.get f).clearCounts |>.sendToSeek .restart).hands
  rwa [List.nil_append, logBodies_records] at hands

/-- The tracker was in SEEK: its feeder hears nothing, and no result is made. -/
theorem samplerRestart_of_seek {s : State} {f : Fid} (seek : (s.trackers.get f).sync = .seek) :
    s.samplerRestart f = s.reseek f := by
  have quiet : (if (s.trackers.get f).sync = .seek then s.reseek f else (s.reseek f).trackerLost f) = s.reseek f :=
    if_pos seek
  change State.settleResults (if (s.trackers.get f).sync = .seek then s.reseek f else (s.reseek f).trackerLost f) _ f = _
  rw [quiet]
  exact settleResults_of_stagers f (reseek_stagers s f)

/-- The tracker was not in SEEK: it is lost to its feeder. -/
theorem samplerRestart_of_tracking {s : State} {f : Fid} (tracking : (s.trackers.get f).sync ≠ .seek) :
    s.samplerRestart f = ((s.reseek f).trackerLost f).settleResults
      (s.putMonitor f (s.monitors.get f).clearCounts) f := by
  have heard : (if (s.trackers.get f).sync = .seek then s.reseek f else (s.reseek f).trackerLost f) =
      (s.reseek f).trackerLost f := if_neg tracking
  change State.settleResults (if (s.trackers.get f).sync = .seek then s.reseek f else (s.reseek f).trackerLost f) _ f = _
  rw [heard]

theorem samplerRestart_trackers (s : State) (f : Fid) :
    (s.samplerRestart f).trackers = s.trackers.set f (s.trackers.get f).toSeek := by
  by_cases seek : (s.trackers.get f).sync = .seek
  · rw [samplerRestart_of_seek seek, reseek_trackers]
  · rw [samplerRestart_of_tracking seek, settleResults_trackers, trackerLost_trackers, reseek_trackers]

theorem samplerRestart_monitors (s : State) (f : Fid) :
    (s.samplerRestart f).monitors = s.monitors.set f
      (if (s.trackers.get f).sync ≠ .seek ∧ (s.ctl.get f).state = .standby then
        { (s.monitors.get f).clearCounts with silence := some s.settings.silenceLimit }
      else (s.monitors.get f).clearCounts) := by
  by_cases seek : (s.trackers.get f).sync = .seek
  · rw [samplerRestart_of_seek seek, reseek_monitors, if_neg fun h => h.1 seek]
  · rw [samplerRestart_of_tracking seek, settleResults_monitors, trackerLost_monitors, reseek_ctl, reseek_monitors,
      reseek_settings]
    by_cases standby : (s.ctl.get f).state = .standby
    · rw [if_pos standby, if_pos ⟨seek, standby⟩, Per8.set_set, Per8.get_set_same]
    · rw [if_neg standby, if_neg fun h => standby h.2]

/-- What a restart group leaves where its feeder hears nothing. -/
theorem samplerRestart_quiet {s : State} {f : Fid} (seek : (s.trackers.get f).sync = .seek) :
    s.samplerRestart f =
        { s with
          trackers := (s.samplerRestart f).trackers, monitors := (s.samplerRestart f).monitors
          bus := (s.samplerRestart f).bus, writer := (s.samplerRestart f).writer } ∧
      (s.samplerRestart f).writer.staging = s.writer.staging := by
  rw [samplerRestart_of_seek seek]
  refine ⟨?_, ((reseek_hands s f).none (by simp [seekRecords, seek])).1⟩
  have sought : s.reseek f = (s.putMonitor f (s.monitors.get f).clearCounts).putTracker f
      (s.trackers.get f).toSeek := if_pos seek
  rw [sought]
  obtain ⟨dirty, port, shape⟩ := note_shape [feederWord f 1] (s.putMonitor f (s.monitors.get f).clearCounts)
    { s.putMonitor f (s.monitors.get f).clearCounts with
      trackers := (s.putMonitor f (s.monitors.get f).clearCounts).trackers.set f (s.trackers.get f).toSeek }
  unfold putTracker
  rw [shape]
  rfl

/-- The SYNC_CHANGE record of a restart comes first (R56; log entry 14). -/
theorem staged_samplerRestart {s : State} {f : Fid} (tracking : (s.trackers.get f).sync ≠ .seek)
    (on : (s.ctl.get f).state ≠ .off) :
    staged s (s.samplerRestart f)
      (.syncChange f (s.trackers.get f).sync .seek .restart (s.trackers.get f).coast (s.trackers.get f).hc) := by
  have first : staged s (s.reseek f)
      (.syncChange f (s.trackers.get f).sync .seek .restart (s.trackers.get f).coast (s.trackers.get f).hc) :=
    (reseek_hands s f).first _ (by simp [seekRecords, tracking, on])
  refine staged_of_moves first rfl ?_
  rw [samplerRestart_of_tracking tracking]
  exact settleResults_moves _ _ f (trackerLost_moves _ f .refl)

end State

/-! ## The classes of a group (R27) -/

theorem gap_eq (h q : BitVec 16) : gap h q = (q.toNat + 65536 + 65535 - h.toNat) % 65536 := by
  unfold gap
  bv_omega

theorem classifyGroup_some (bridge : Nat) (h q : BitVec 16) :
    classifyGroup bridge (some h) q =
      if gap h q = 0 then .normal
      else if gap h q ≤ bridge then .bridged (gap h q)
      else if gap h q < 1024 then .unbridged
      else .restart := rfl

/-- Settles O9: the classes by their ranges, tracker loss as the entry that it is to ARMING or to SHED, and the restart
actions through the state in which the tracker seeks and its feeder has not heard of it. -/
theorem gapClasses : Obligations.GapClasses := by
  refine ⟨fun bridge h q small => ?_, ?_⟩
  · refine ⟨gap_eq h q, rfl, fun zero => ?_, fun low high => ?_, fun low high pos => ?_, fun far => ?_⟩ <;>
      rw [classifyGroup_some]
    · rw [if_pos zero]
    · rw [if_neg (by omega), if_pos high]
    · rw [if_neg (by omega), if_neg (by omega), if_pos high]
    · rw [if_neg (by omega), if_neg (by omega), if_neg (by omega)]
  intro s f c m old lost t armed cleared release known
  refine ⟨fun unknown => ?_, fun standby => ⟨?_, State.trackerLost_trackers s f, ?_, fun calm => ?_, fun alarm => ?_⟩,
    fun riding => ?_, State.samplerRestart_trackers s f, State.samplerRestart_monitors s f,
    fun seek => State.samplerRestart_quiet seek, fun tracking => ⟨?_, ?_, fun on => State.staged_samplerRestart tracking on⟩⟩
  · exact State.trackerLost_of_other (fun h => unknown (.inl h)) fun h => unknown (.inr h)
  · exact (State.trackerLost_monitors s f).trans (if_pos standby)
  · have first := staged_enterArming s f .sync
    rw [← State.trackerLost_of_standby standby] at first
    rwa [show (s.ctl.get f).state = .standby from standby] at first
  · have begun : lost = s.beginArming f .sync :=
      (State.trackerLost_of_standby standby).trans (State.enterArming_of_calm .sync calm)
    rw [begun]
    exact ⟨State.beginArming_ctl .., State.beginArming_account .., State.beginArming_stagers ..,
      State.beginArming_link ..⟩
  · have ctl := State.trackerLost_ctl s f
    rw [FeederCtl.unsynced_of_standby _ standby, alarm] at ctl
    change (s.trackerLost f).ctl.get f = _
    rw [ctl, Per8.get_set_same]
    rfl
  · have shed := enterShed_shed s f .syncLost .notRiding
    have log := (Logs.refl f s).enterShed .syncLost .notRiding
    rw [← State.trackerLost_of_shedOnLoss riding] at shed log
    exact ⟨shed.ctl, shed.account, (congrArg Stager.pending shed.stager :), shed.monitors, shed.trackers, shed.evals,
      Logs.staged_first log, shed.placed⟩
  · change (s.samplerRestart f).ctl = (s.trackerLost f).ctl
    rw [State.samplerRestart_of_tracking tracking, State.settleResults_ctl, State.trackerLost_ctl, State.trackerLost_ctl,
      State.reseek_ctl, State.reseek_malm]
  · change (s.samplerRestart f).account = (s.trackerLost f).account
    rw [State.samplerRestart_of_tracking tracking, State.settleResults_account, State.trackerLost_account,
      State.trackerLost_account, State.reseek_ctl, State.reseek_malm, State.reseek_account]

end Sys2Proof.Machine
end

section
namespace Sys2Proof.Machine

/-! ## What the feeders' side never touches -/

theorem Moves.table {s t : State} (h : Moves s t) : t.table = s.table := (congrArg State.table h.outer :)

theorem settings_of_table {s t : State} (table : t.table = s.table) : t.settings = s.settings := by
  unfold State.settings
  rw [table]

theorem entry_of_table {s t : State} (table : t.table = s.table) : t.entry = s.entry := by
  funext f
  unfold State.entry
  rw [table]

theorem curve_of_table {s t : State} (table : t.table = s.table) (f : Fid) : t.curve f = s.curve f := by
  unfold State.curve
  rw [entry_of_table table, table]

namespace State

/-! ## A change of the open sag record, which no mirror word shows (R131, R162) -/

/-- A write that changes none of the mirror words it may show marks nothing. -/
theorem note_unshown (ws : List Nat) {old s : State} (same : ∀ i ∈ ws, old.mirrorWord i = s.mirrorWord i) :
    State.note ws old s = s := by
  have fold : ∀ (us : List Nat) (t : State), (∀ i ∈ us, old.mirrorWord i = s.mirrorWord i) →
      us.foldl (fun t i => if old.mirrorWord i == s.mirrorWord i then t else t.touchMirror i) t = t := by
    intro us
    induction us with
    | nil => exact fun t _ => rfl
    | cons i us ih =>
      intro t same
      rw [List.foldl_cons, if_pos (beq_iff_eq.2 (same i List.mem_cons_self))]
      exact ih t fun j mem => same j (List.mem_cons_of_mem _ mem)
  exact fold ws s same

/-- The sag record is in no mirror word, so a change of it changes the controller and nothing else. -/
theorem onSag_eq (s : State) (f : Fid) (g : SagRecord → SagRecord) :
    s.onSag f g = { s with ctl := s.ctl.set f { s.ctl.get f with sag := (s.ctl.get f).sag.map g } } := by
  refine note_unshown _ fun i mem => ?_
  have word : ∀ k < 4, s.mirrorWord (feederWord f k) =
      State.mirrorWord { s with ctl := s.ctl.set f { s.ctl.get f with sag := (s.ctl.get f).sag.map g } }
        (feederWord f k) := by
    intro k four
    rw [mirrorWord_feederWord _ _ _ four, mirrorWord_feederWord _ _ _ four]
    interval_cases k <;> simp [feederMirrorWord]
  simp only [List.mem_cons, List.not_mem_nil, or_false] at mem
  rcases mem with rfl | rfl | rfl
  · exact word 0 (by decide)
  · exact word 2 (by decide)
  · exact word 3 (by decide)

/-! ## Settling the results of an event (R109) -/

theorem settleResults_none {s before : State} {f : Fid}
    (none : (s.stagers.get f).number = (before.stagers.get f).number) : s.settleResults before f = s := by
  unfold settleResults
  exact if_pos none

theorem settleResults_blocks (s before : State) (f : Fid) :
    (s.settleResults before f).blocks =
      State.blocks { s with stagers := (s.settleResults before f).stagers } := by
  unfold settleResults
  dsimp only
  split <;> rfl

theorem settleResults_stager {s before : State} {f : Fid}
    (made : (s.stagers.get f).number ≠ (before.stagers.get f).number) :
    (s.settleResults before f).stagers.get f =
      { s.stagers.get f with
        latest := (s.stagers.get f).latest.map fun r =>
          { r with source := (s.ctl.get f).source, page := (s.stagers.get f).committed } } := by
  unfold settleResults
  dsimp only
  rw [if_neg made]
  exact Per8.get_set_same ..

/-- The records staged since the event began are the ones that are settled. -/
theorem settleResults_staging {s before : State} {f : Fid}
    (made : (s.stagers.get f).number ≠ (before.stagers.get f).number) (i : Nat) :
    (s.settleResults before f).writer.staging[i]? = s.writer.staging[i]?.map fun y =>
      if i < before.writer.staging.length then y
      else y.settleSource f (s.ctl.get f).source (s.stagers.get f).committed := by
  have staging : (s.settleResults before f).writer.staging =
      s.writer.staging.take before.writer.staging.length ++
        (s.writer.staging.drop before.writer.staging.length).map fun r =>
          r.settleSource f (s.ctl.get f).source (s.stagers.get f).committed := by
    unfold settleResults
    dsimp only
    rw [if_neg made]
    rfl
  rw [staging]
  generalize before.writer.staging.length = n
  by_cases early : i < n
  · simp only [if_pos early, Option.map_id']
    by_cases held : i < s.writer.staging.length
    · rw [List.getElem?_append_left (by rw [List.length_take]; omega), List.getElem?_take, if_pos early]
    · rw [List.getElem?_eq_none (by simp; omega), List.getElem?_eq_none (by omega)]
  · simp only [if_neg early]
    by_cases held : i < s.writer.staging.length
    · rw [List.getElem?_append_right (by rw [List.length_take]; omega), List.getElem?_map, List.getElem?_drop,
        List.length_take, show n + (i - min n s.writer.staging.length) = i by omega]
    · rw [List.getElem?_eq_none (by simp; omega), List.getElem?_eq_none (by omega)]
      rfl

/-! ## The summary's PHASE_JUMP bit (R156) -/

/-- A record sets the PHASE_JUMP bit where it calls for it, and also a dropped one sets no other condition but OVERRUN. -/
theorem handRecord_phaseJumpBit (s : State) (b : Body) :
    (s.handRecord b).writer.summary.getLsbD 6 = (s.writer.summary.getLsbD 6 || b.conditions.getLsbD 6) := by
  unfold handRecord
  rw [raise_writer_summary, BitVec.getLsbD_or]
  split
  · rfl
  · unfold countDrop
    rw [raise_writer_summary, BitVec.getLsbD_or, show Condition.overrun.mask.getLsbD 6 = false by decide, Bool.or_false]

theorem endPending_phaseJumpBit (s : State) (f : Fid) (code : ResultCode) :
    (s.endPending f code).writer.summary.getLsbD 6 = s.writer.summary.getLsbD 6 := by
  unfold endPending
  split
  · rfl
  · unfold makeResult
    dsimp only
    split
    · rw [handRecord_phaseJumpBit,
        show ∀ g r, (Body.refRejected g r).conditions.getLsbD 6 = false from fun _ _ => BitVec.getLsbD_zero, Bool.or_false]
      rfl
    · rfl

end State

/-! ## Step 1 of a boundary: the change of sync state (R18, R54, R56) -/

/-- An instant brings no tracker to SEEK. -/
theorem instant_seek (t : Tracker) (g : Settings) (sign : Sign) (seek : (t.instant g sign).tracker.sync = .seek) :
    t.sync = .seek := by
  have here (k : Tracker) : k.boundaryHere.sync ≠ .seek := fun h => nomatch h
  have coasts (k : Tracker) : (k.coastOn g).sync ≠ .seek := by
    unfold Tracker.coastOn
    dsimp only
    split <;> exact fun h => nomatch h
  revert seek
  unfold Tracker.instant
  cases state : t.sync with
  | seek => exact fun _ => rfl
  | locked =>
    dsimp only [Tracker.lockedStep]
    split
    · exact fun seek => absurd seek (here _)
    · split
      · exact fun seek => absurd seek (here _)
      · split
        · exact fun seek => absurd seek (coasts _)
        · exact fun seek => nomatch seek
  | coasting =>
    dsimp only [Tracker.coastingStep]
    split
    · exact fun seek => absurd seek (here _)
    · split
      · exact fun seek => absurd seek (coasts _)
      · exact fun seek => nomatch seek
  | lost =>
    dsimp only [Tracker.lostStep]
    split
    · exact fun seek => absurd seek (here _)
    · split
      · exact fun seek => nomatch seek
      · exact fun seek => nomatch seek

/-- The causes of R56 at a boundary, where no tracker goes to SEEK. -/
theorem changeCause_eq {old new : Sync} (changed : old ≠ new) (seek : new = .seek → old = .seek) :
    changeCause old new = if new = .locked then if old = .seek then .lock else .relock else .coast := by
  cases new with
  | seek => exact absurd (seek rfl) changed
  | locked => cases old <;> rfl
  | coasting => rfl
  | lost => rfl

namespace State

theorem recordSync_eq {s : State} {f : Fid} {t : Tracker} (tracker : s.trackers.get f = t) (old : Tracker)
    (cause : SyncCause) :
    s.recordSync f old cause = if (s.ctl.get f).state = .off then s
      else s.handRecord (.syncChange f old.sync t.sync cause old.coast t.hc) := by
  subst tracker
  rfl

theorem reportSync_same {s : State} {f : Fid} {old t : Tracker} (tracker : s.trackers.get f = t)
    (same : old.sync = t.sync) : s.reportSync f old = s := by
  subst tracker
  exact if_pos same

theorem reportSync_changed {s : State} {f : Fid} {old t : Tracker} (tracker : s.trackers.get f = t)
    (changed : old.sync ≠ t.sync) :
    s.reportSync f old =
      if t.sync = .lost then (s.recordSync f old (changeCause old.sync t.sync)).trackerLost f
      else s.recordSync f old (changeCause old.sync t.sync) := by
  subst tracker
  exact if_neg changed

theorem recordSync_steady (s : State) (f : Fid) (old : Tracker) (cause : SyncCause) :
    Steady f s (s.recordSync f old cause) := by
  unfold recordSync
  split
  · exact .refl f s
  · exact handRecord_steady s f _

theorem reportSync_beside (s : State) (f : Fid) (old : Tracker) : Beside f s (s.reportSync f old) := by
  unfold reportSync
  dsimp only
  split
  · exact .refl f s
  · split
    · exact (recordSync_steady s f old _).toBeside.trans (trackerLost_beside _ f)
    · exact (recordSync_steady s f old _).toBeside

/-! ## Step 2: the phase jump (R55, R101) -/

/-- The state in which a phase jump has made its record, unless its feeder is in OFF. -/
def jumpReported (s : State) (f : Fid) (prior : Sync) (offset : Int) : State :=
  if (s.ctl.get f).state = .off then s else s.handRecord (.phaseJump f offset prior (s.trackers.get f).hc)

theorem reportJump_some (s : State) (f : Fid) (prior : Sync) (offset : Int) :
    s.reportJump f prior (some offset) =
      ((s.jumpReported f prior offset).endPending f .stale).onSag f fun g => { g with phaseJump := true } := rfl

theorem jumpReported_blocks (s : State) (f : Fid) (prior : Sync) (offset : Int) :
    (s.jumpReported f prior offset).blocks = s.blocks := by
  unfold jumpReported
  split
  · rfl
  · simp [State.blocks]

theorem jumpReported_ctl (s : State) (f : Fid) (prior : Sync) (offset : Int) :
    (s.jumpReported f prior offset).ctl = s.ctl :=
  (congrArg (fun u : State => u.ctl) (jumpReported_blocks s f prior offset) :)

theorem jumpReported_stagers (s : State) (f : Fid) (prior : Sync) (offset : Int) :
    (s.jumpReported f prior offset).stagers = s.stagers :=
  (congrArg (fun u : State => u.stagers) (jumpReported_blocks s f prior offset) :)

theorem reportJump_steady (s : State) (f : Fid) (prior : Sync) (jump : Option Int) :
    Steady f s (s.reportJump f prior jump) := by
  cases jump with
  | none => exact .refl f s
  | some offset =>
    have reported : Steady f s (s.jumpReported f prior offset) := by
      unfold jumpReported
      split
      · exact .refl f s
      · exact handRecord_steady s f _
    rw [reportJump_some]
    exact (reported.trans (endPending_steady _ f .stale)).trans (onSag_steady _ f _)

end State

/-- The record of a phase jump, if its feeder is not in OFF. -/
def jumpRecords (f : Fid) (state : FeederState) (offset : Int) (prior : Sync) (hc : BitVec 8) : List Body :=
  if state = .off then [] else [.phaseJump f offset prior hc]

theorem Logs.reportJump {f : Fid} {s t : State} {log : List LogItem} (h : Logs f s t log) (prior : Sync) (offset : Int) :
    Logs f s (t.reportJump f prior (some offset))
      (log ++ records (jumpRecords f (t.ctl.get f).state offset prior (t.trackers.get f).hc) ++
        endings (t.ctl.get f).source (t.stagers.get f).committed (endAll .stale (t.stagers.get f).pending.toList)) := by
  have reported : Logs f s (t.jumpReported f prior offset)
      (log ++ records (jumpRecords f (t.ctl.get f).state offset prior (t.trackers.get f).hc)) := by
    unfold State.jumpReported jumpRecords
    split
    · simpa using h
    · exact h.handRecord _
  rw [State.reportJump_some]
  refine ((reported.endPending .stale).onSag _).of_eq ?_
  rw [State.jumpReported_ctl, State.jumpReported_stagers]

/-- What a phase jump of feeder `f` does from `s` to `t` (R55, R101, R110, R156). -/
structure Jumped (s t : State) (f : Fid) (offset : Int) (prior : Sync) (hc : BitVec 8) : Prop where
  staged : (s.ctl.get f).state ≠ .off → staged s t (.phaseJump f offset prior hc)
  blocks : t.blocks = State.blocks
    { s with
      stagers := t.stagers
      ctl := s.ctl.set f { s.ctl.get f with sag := (s.ctl.get f).sag.map fun y => { y with phaseJump := true } } }
  pending : (t.stagers.get f).pending = none
  results : resultsMade s t f (endAll .stale (s.stagers.get f).pending.toList)
  records : recorded s t (jumpRecords f (s.ctl.get f).state offset prior hc ++
    refRecords f (endResults s t f (endAll .stale (s.stagers.get f).pending.toList)))
  summary : t.writer.summary.getLsbD 6 = (s.writer.summary.getLsbD 6 || decide ((s.ctl.get f).state ≠ .off))

theorem reportJump_blocks (s : State) (f : Fid) (prior : Sync) (offset : Int) :
    (s.reportJump f prior (some offset)).blocks = State.blocks
      { s with
        stagers := (s.reportJump f prior (some offset)).stagers
        ctl := s.ctl.set f { s.ctl.get f with sag := (s.ctl.get f).sag.map fun y => { y with phaseJump := true } } } := by
  have ended := State.endPending_blocks (s.jumpReported f prior offset) f .stale
  rw [State.reportJump_some, State.onSag_eq, State.endPending_ctl, State.jumpReported_ctl]
  change ({ ((s.jumpReported f prior offset).endPending f .stale).blocks with ctl := _ } : State) = _
  rw [ended]
  change ({ (s.jumpReported f prior offset).blocks with stagers := _, ctl := _ } : State) = _
  rw [State.jumpReported_blocks]
  rfl

theorem reportJump_summary (s : State) (f : Fid) (prior : Sync) (offset : Int) :
    (s.reportJump f prior (some offset)).writer.summary.getLsbD 6 =
      (s.writer.summary.getLsbD 6 || decide ((s.ctl.get f).state ≠ .off)) := by
  rw [State.reportJump_some, State.onSag_eq]
  change ((s.jumpReported f prior offset).endPending f .stale).writer.summary.getLsbD 6 = _
  rw [State.endPending_phaseJumpBit]
  unfold State.jumpReported
  split
  · next off => simp [off]
  · next on =>
    rw [State.handRecord_phaseJumpBit, decide_eq_true on,
      show (Body.phaseJump f offset prior (s.trackers.get f).hc).conditions = 0x40#8 from rfl]
    rfl

theorem reportJump_jumped (s : State) (f : Fid) (prior : Sync) (offset : Int) :
    Jumped s (s.reportJump f prior (some offset)) f offset prior (s.trackers.get f).hc := by
  have log := (Logs.refl f s).reportJump prior offset
  rw [List.nil_append] at log
  have bare := State.endPending_bare (s.jumpReported f prior offset) f .stale
  have stager : ((s.reportJump f prior (some offset)).stagers.get f).bare = { (s.stagers.get f).bare with pending := none } := by
    rw [State.reportJump_some, State.onSag_eq]
    exact bare.trans (by rw [State.jumpReported_stagers])
  have ctl : (s.reportJump f prior (some offset)).ctl =
      s.ctl.set f { s.ctl.get f with sag := (s.ctl.get f).sag.map fun y => { y with phaseJump := true } } :=
    (congrArg State.ctl (reportJump_blocks s f prior offset) :)
  have source : ((s.reportJump f prior (some offset)).ctl.get f).source = (s.ctl.get f).source := by
    rw [ctl, Per8.get_set_same]
  have page : ((s.reportJump f prior (some offset)).stagers.get f).committed = (s.stagers.get f).committed :=
    (congrArg Stager.committed stager :)
  rw [← source, ← page] at log
  obtain ⟨results, records⟩ := log.made
  refine ⟨fun on => ?_, reportJump_blocks s f prior offset, (congrArg Stager.pending stager :), results, records,
    reportJump_summary s f prior offset⟩
  refine log.hands.first _ ?_
  simp [jumpRecords, on, logBodies]

/-! ## Step 3: the half-cycle closes (R33 to R39, R54, R62 to R69) -/

namespace State

/-- What the monitor makes of a closed half-cycle (R35 to R39). -/
def judged (s : State) (f : Fid) (closed : Accum) : Monitor × Verdicts :=
  (s.monitors.get f).judge s.settings (s.ctl.get f).sag.isSome (closed.valid s.settings.n)
    (closed.residuals (s.entry f).nominal)

/-- What the evaluator makes of it (R62 to R68). -/
def evaluated (s : State) (f : Fid) (closed : Accum) : Evaluator × Bool :=
  (s.evals.get f).close (s.curve f) (closed.valid s.settings.n) (closed.residuals (s.entry f).nominal)

theorem closeHalfCycle_fst (s : State) (f : Fid) (closed : Accum) :
    (s.closeHalfCycle f closed).1 =
      if (s.evaluated f closed).2 then
        (((s.putMonitor f (s.judged f closed).1).putEval f (s.evaluated f closed).1).onSag f
          fun g => { g with toleranceExceeded := true }).raise Condition.tripped.mask
      else (s.putMonitor f (s.judged f closed).1).putEval f (s.evaluated f closed).1 := rfl

theorem closeHalfCycle_blocks (s : State) (f : Fid) (closed : Accum) :
    (s.closeHalfCycle f closed).1.blocks = State.blocks
      { s with
        monitors := s.monitors.set f (s.judged f closed).1, evals := s.evals.set f (s.evaluated f closed).1
        ctl := if (s.evaluated f closed).2 then
            s.ctl.set f { s.ctl.get f with sag := (s.ctl.get f).sag.map fun y => { y with toleranceExceeded := true } }
          else s.ctl } := by
  rw [closeHalfCycle_fst]
  split <;> simp [State.blocks, onSag_eq, putMonitor]

theorem closeHalfCycle_writer (s : State) (f : Fid) (closed : Accum) :
    (s.closeHalfCycle f closed).1.writer.staging = s.writer.staging ∧
      (s.closeHalfCycle f closed).1.writer.summary =
        if (s.evaluated f closed).2 then s.writer.summary ||| 0x04#8 else s.writer.summary := by
  rw [closeHalfCycle_fst]
  split
  · refine ⟨by simp [onSag_eq, putMonitor], ?_⟩
    rw [raise_writer_summary, onSag_eq]
    exact congrArg (· ||| _) (putEval_writer_summary _ _ _)
  · exact ⟨putEval_writer_staging .., putEval_writer_summary ..⟩

theorem closeHalfCycle_trackers (s : State) (f : Fid) (closed : Accum) :
    (s.closeHalfCycle f closed).1.trackers = s.trackers :=
  (congrArg State.trackers (closeHalfCycle_blocks s f closed) :)

/-! ## Step 4, and the boundary as a whole (R54) -/

theorem boundary_trackers (s : State) (f : Fid) (v : Verdicts) : (s.boundary f v).trackers = s.trackers := by
  by_cases off : (s.ctl.get f).state = .off
  · have same : s.boundary f v = s := if_pos off
    rw [same]
  · obtain ⟨n, beside⟩ := boundary_beside (v := v) off
    exact beside.trackers

theorem atBoundary_trackers (s : State) (f : Fid) (old : Tracker) (jump : Option Int) (closed : Accum) :
    (s.atBoundary f old jump closed).trackers = s.trackers := by
  change (State.settleResults _ s f).trackers = _
  rw [settleResults_trackers, boundary_trackers, closeHalfCycle_trackers, (reportJump_steady _ f old.sync jump).trackers,
    (reportSync_beside s f old).trackers]

end State

/-! ## Instants (R31, R32, R33) -/

theorem goesToHead_eq (n : Nat) (count : Option Nat) : goesToHead n count = count.all fun c => decide (c ≤ n) := by
  cases count <;> rfl

/-- The monitor with an instant accumulated, where the tracker's count for it is `count` (R32). -/
def Monitor.taking (m : Monitor) (n : Nat) (count : Option Nat) (x : Instant) : Monitor :=
  if count.all fun c => decide (c ≤ n) then { m with head := m.head.add x.values x.mark }
  else { m with tail := m.tail.add x.values x.mark }

namespace State

theorem accumulate_eq {s : State} {f : Fid} {g : Settings} {t : Tracker} (settings : s.settings = g)
    (tracker : s.trackers.get f = t) (x : Instant) :
    s.accumulate f x = s.putMonitor f ((s.monitors.get f).taking g.n t.count x) := by
  subst settings tracker
  unfold accumulate Monitor.taking
  rw [goesToHead_eq]

/-- The monitor acts on a boundary: at N the tail is left for the next half-cycle (R33). -/
theorem onAnswer_boundary {s : State} {f : Fid} {a : TrackAnswer} (boundary : a = .boundaryHere ∨ a = .boundaryAtN)
    (old : Tracker) (jump : Option Int) :
    s.onAnswer f old a jump =
      (s.putMonitor f { s.monitors.get f with
          head := if decide (a = .boundaryHere) then Accum.empty else (s.monitors.get f).tail
          tail := Accum.empty }).atBoundary f old jump
        (if decide (a = .boundaryHere) then (s.monitors.get f).head.join (s.monitors.get f).tail
          else (s.monitors.get f).head) := by
  rcases boundary with rfl | rfl <;> rfl

/-- A tracker and a monitor are replaced, up to the marks. -/
theorem putTracker_putMonitor_offMarks (s : State) (f : Fid) (t : Tracker) (m : Monitor) :
    ((s.putTracker f t).putMonitor f m).offMarks =
      offMarks { s with trackers := s.trackers.set f t, monitors := s.monitors.set f m } := by
  have put := putTracker_offMarks s f t
  change ({ (s.putTracker f t).offMarks with monitors := (s.putTracker f t).monitors.set f m } : State) = _
  rw [put, putTracker_monitors]
  rfl

end State

end Sys2Proof.Machine
end

section
namespace Sys2Proof.Machine

namespace State

/-! ## An instant at a boundary (R33, R54) -/

theorem putTracker_tracker (s : State) (f : Fid) (t : Tracker) : (s.putTracker f t).trackers.get f = t := by
  rw [putTracker_trackers, Per8.get_set_same]

/-- The state in which the steps of a boundary begin: the tracker has its answer, and the monitor's accumulators go on to
the next half-cycle, at `here` from nothing and at N from the tail (R33). -/
def boundaryBegun (s : State) (f : Fid) (t : Tracker) (here : Bool) : State :=
  (s.putTracker f t).putMonitor f
    { s.monitors.get f with head := if here then Accum.empty else (s.monitors.get f).tail, tail := Accum.empty }

/-- The half-cycle that closes: head and tail, or at N the head alone (R33). -/
def closing (s : State) (f : Fid) (here : Bool) : Accum :=
  if here then (s.monitors.get f).head.join (s.monitors.get f).tail else (s.monitors.get f).head

theorem boundaryBegun_table (s : State) (f : Fid) (t : Tracker) (here : Bool) :
    (s.boundaryBegun f t here).table = s.table := putTracker_table s f t

theorem boundaryBegun_tracker (s : State) (f : Fid) (t : Tracker) (here : Bool) :
    (s.boundaryBegun f t here).trackers.get f = t := putTracker_tracker s f t

theorem atBoundary_table (s : State) (f : Fid) (old : Tracker) (jump : Option Int) (closed : Accum) :
    (s.atBoundary f old jump closed).table = s.table := (atBoundary_moves s f old jump closed .refl).table

/-- An instant without a boundary is accumulated, into empty accumulators where the count has just started (R32). -/
theorem takeInstant_between (s : State) (f : Fid) (x : Instant) (m : Monitor)
    (answered : s.takeInstant f x =
      ((s.putTracker f ((s.trackers.get f).instant s.settings x.sign).tracker).putMonitor f m).accumulate f x) :
    (s.takeInstant f x).offMarks = State.offMarks { s with
      trackers := s.trackers.set f ((s.trackers.get f).instant s.settings x.sign).tracker
      monitors := s.monitors.set f
        (m.taking s.settings.n ((s.trackers.get f).instant s.settings x.sign).tracker.count x) } := by
  generalize ((s.trackers.get f).instant s.settings x.sign).tracker = t at answered ⊢
  have settings : ((s.putTracker f t).putMonitor f m).settings = s.settings :=
    settings_of_table (putTracker_table s f t)
  have tracker : ((s.putTracker f t).putMonitor f m).trackers.get f = t := putTracker_tracker s f t
  have once (a b : Monitor) : ((s.putTracker f t).putMonitor f a).putMonitor f b = (s.putTracker f t).putMonitor f b := by
    simp [putMonitor]
  rw [answered, accumulate_eq settings tracker, putMonitor_monitors, Per8.get_set_same, once]
  exact putTracker_putMonitor_offMarks s f t _

theorem takeInstant_noBoundary {s : State} {f : Fid} {x : Instant}
    (none : ((s.trackers.get f).instant s.settings x.sign).answer = .noBoundary) :
    (s.takeInstant f x).offMarks = State.offMarks { s with
      trackers := s.trackers.set f ((s.trackers.get f).instant s.settings x.sign).tracker
      monitors := s.monitors.set f ((s.monitors.get f).taking s.settings.n
        ((s.trackers.get f).instant s.settings x.sign).tracker.count x) } := by
  refine takeInstant_between s f x _ ?_
  have same (t : Tracker) : (s.putTracker f t).putMonitor f (s.monitors.get f) = s.putTracker f t := by
    unfold putMonitor
    rw [putTracker_monitors, Per8.set_get_self, ← putTracker_monitors s f t]
  rw [same]
  change ((s.putTracker f _).onAnswer f _ _ _).accumulate f x = _
  rw [none]
  rfl

theorem takeInstant_countStarted {s : State} {f : Fid} {x : Instant}
    (started : ((s.trackers.get f).instant s.settings x.sign).answer = .countStarted) :
    (s.takeInstant f x).offMarks = State.offMarks { s with
      trackers := s.trackers.set f ((s.trackers.get f).instant s.settings x.sign).tracker
      monitors := s.monitors.set f (Monitor.taking { s.monitors.get f with head := Accum.empty, tail := Accum.empty }
        s.settings.n ((s.trackers.get f).instant s.settings x.sign).tracker.count x) } := by
  refine takeInstant_between s f x _ ?_
  change ((s.putTracker f _).onAnswer f _ _ _).accumulate f x = _
  rw [started]
  change ((s.putTracker f _).putMonitor f { (s.putTracker f _).monitors.get f with
    head := Accum.empty, tail := Accum.empty }).accumulate f x = _
  rw [putTracker_monitors]

/-- At a boundary the four steps come first, and the instant is the first of the next half-cycle. -/
theorem takeInstant_boundary {s : State} {f : Fid} {x : Instant} {r : TrackStep} {old : Tracker} {here : Bool}
    (instant : r = (s.trackers.get f).instant s.settings x.sign) (was : old = s.trackers.get f)
    (place : here = decide (r.answer = .boundaryHere)) (boundary : r.answer = .boundaryHere ∨ r.answer = .boundaryAtN) :
    s.takeInstant f x =
      let u := (s.boundaryBegun f r.tracker here).atBoundary f old r.jump (s.closing f here)
      u.putMonitor f ((u.monitors.get f).taking s.settings.n r.tracker.count x) := by
  have answered : (s.putTracker f r.tracker).onAnswer f old r.answer r.jump =
      (s.boundaryBegun f r.tracker here).atBoundary f old r.jump (s.closing f here) := by
    rw [onAnswer_boundary boundary, putTracker_monitors, place]
    rfl
  subst instant was
  change ((s.putTracker f _).onAnswer f _ _ _).accumulate f x = _
  rw [answered]
  refine accumulate_eq (settings_of_table ((atBoundary_table ..).trans (boundaryBegun_table ..))) ?_ x
  rw [atBoundary_trackers, boundaryBegun_tracker]

/-- Step 1 of R54: what the change of sync state does. -/
theorem reportSync_boundary {s : State} {f : Fid} {t old : Tracker} (tracker : s.trackers.get f = t)
    (seek : t.sync = .seek → old.sync = .seek) (changed : old.sync ≠ t.sync) :
    s.reportSync f old =
      let cause : SyncCause := if t.sync = .locked then if old.sync = .seek then .lock else .relock else .coast
      let told := if (s.ctl.get f).state = .off then s
        else s.handRecord (.syncChange f old.sync t.sync cause old.coast t.hc)
      if t.sync = .lost then told.trackerLost f else told := by
  rw [reportSync_changed tracker changed, recordSync_eq tracker, changeCause_eq changed seek]

theorem judged_of_table {s t : State} (table : t.table = s.table) (f : Fid) (closed : Accum) :
    t.judged f closed = (t.monitors.get f).judge s.settings (t.ctl.get f).sag.isSome (closed.valid s.settings.n)
      (closed.residuals (s.entry f).nominal) := by
  unfold judged
  rw [settings_of_table table, entry_of_table table]

theorem evaluated_of_table {s t : State} (table : t.table = s.table) (f : Fid) (closed : Accum) :
    t.evaluated f closed = (t.evals.get f).close (s.curve f) (closed.valid s.settings.n)
      (closed.residuals (s.entry f).nominal) := by
  unfold evaluated
  rw [settings_of_table table, entry_of_table table, curve_of_table table]

end State

end Sys2Proof.Machine
end

section
namespace Sys2Proof.Machine

/-! ## A full write of the stamp word (R26 to R30) -/

/-- A group's samples, each with the last valid one in its place where it is missing (R26). -/
def Monitor.lastAfter (m : Monitor) (values : Phases (Option Sample)) : Phases Sample :=
  values.zip (fun x l => x.getD l) m.lastValid

/-- The group's own instant (R26, R29). -/
def Monitor.ownInstant (m : Monitor) (values : Phases (Option Sample)) (c : GroupClass) : Instant where
  values := values
  sign := Sample.sign (m.lastAfter values).a
  mark := decide (c = .unbridged)

namespace State

/-- The monitor has the group's values and its sequence (R26, R27). -/
def groupHeld (s : State) (f : Fid) (values : Phases (Option Sample)) (q : BitVec 16) : State :=
  s.putMonitor f { s.monitors.get f with lastValid := (s.monitors.get f).lastAfter values, seq := some q }

/-- What follows a group's own instant: the assembly is empty, and the silence timer restarts (R26, R40). -/
def endGroup (s : State) (f : Fid) : State :=
  (s.putMonitor f { s.monitors.get f with assembly := Phases.replicate .notWritten }).restartSilence f

theorem completeGroup_eq {s : State} {f : Fid} {v : Word} {values : Phases (Option Sample)} {c : GroupClass}
    (settled : (s.monitors.get f).assembly.zip settlePhase (stampFlags v) = values)
    (cls : classifyGroup s.settings.bridgeLimit (s.monitors.get f).seq (v.extractLsb' 0 16) = c) :
    s.completeGroup f v =
      (((s.groupHeld f values (v.extractLsb' 0 16)).beforeOwn f c (s.monitors.get f).lastValid).takeInstant f
        ((s.monitors.get f).ownInstant values c)).endGroup f := by
  subst settled cls
  rfl

theorem endGroup_eq {s : State} {g : Settings} (settings : s.settings = g) (f : Fid) :
    s.endGroup f = { s with monitors := s.monitors.set f { s.monitors.get f with
      assembly := Phases.replicate .notWritten
      silence := if (s.ctl.get f).state = .off then (s.monitors.get f).silence else some g.silenceLimit } } := by
  subst settings
  by_cases off : (s.ctl.get f).state = .off
  · rw [if_pos off]
    exact if_pos off
  · rw [if_neg off]
    refine (if_neg off).trans ?_
    unfold startSilence putMonitor
    simp only [Per8.get_set_same, Per8.set_set]
    rfl

theorem beforeOwn_table (s : State) (f : Fid) (c : GroupClass) (last : Phases Sample) :
    (s.beforeOwn f c last).table = s.table := (beforeOwn_moves s f c last .refl).table

theorem takeInstant_table (s : State) (f : Fid) (x : Instant) : (s.takeInstant f x).table = s.table :=
  (takeInstant_moves s f x .refl).table

theorem bridgedGap_eq (s : State) (f : Fid) (n : Nat) :
    s.bridgedGap f n = { s with ctl := s.ctl.set f { s.ctl.get f with
      sag := (s.ctl.get f).sag.map fun y => { y with largestGap := max y.largestGap n } } } := onSag_eq s f _

end State

/-- A full stamp write of class `c` ends as its group's own instant does after what the class brings before it, with the
assembly emptied and the silence timer restarted. -/
theorem EndsAs.stamped {taken t : State} {f : Fid} {v : Word} {values : Phases (Option Sample)} {c : GroupClass}
    (e : EndsAs (taken.sampleWrite f 3#2 15#4 v) t)
    (settled : (taken.monitors.get f).assembly.zip settlePhase (stampFlags v) = values)
    (cls : classifyGroup taken.settings.bridgeLimit (taken.monitors.get f).seq (v.extractLsb' 0 16) = c) {before u : State}
    (brings : (taken.groupHeld f values (v.extractLsb' 0 16)).beforeOwn f c (taken.monitors.get f).lastValid = before)
    (own : before.takeInstant f ((taken.monitors.get f).ownInstant values c) = u) :
    t.offPort = State.offPort { u with monitors := u.monitors.set f { u.monitors.get f with
      assembly := Phases.replicate .notWritten
      silence := if (u.ctl.get f).state = .off then (u.monitors.get f).silence
        else some taken.settings.silenceLimit } } := by
  have table : u.table = taken.table := by
    rw [← own, State.takeInstant_table, ← brings, State.beforeOwn_table]
    rfl
  have complete : taken.sampleWrite f 3#2 15#4 v = u.endGroup f := by
    rw [← own, ← brings]
    exact State.completeGroup_eq settled cls
  rw [e.offPort, complete, State.endGroup_eq (settings_of_table table)]

/-- Settles O30: each step of a boundary by its own lemma, and a stamp write by the instants of its class. -/
theorem sampleStampWrite : Obligations.SampleStampWrite := by
  refine ⟨fun s f x => ?_, fun s a be v w once window kind place => ?_⟩
  · intro g old r new m empty u put begins
    refine ⟨State.takeInstant_noBoundary, State.takeInstant_countStarted, fun boundary => ?_⟩
    intro here closed s₁ s₂ s₃ close s₄ s₅ s₆ cause told residuals judged e c₂ c₃ n stale settled settles
    have tracker : s₁.trackers.get f = r.tracker := State.boundaryBegun_tracker s f r.tracker here
    have trackers₂ : s₂.trackers = s₁.trackers := (State.reportSync_beside s₁ f old).trackers
    have table₂ : s₂.table = s₁.table := (State.reportSync_beside s₁ f old).table
    have table₃ : s₃.table = s.table :=
      ((State.reportJump_steady s₂ f old.sync r.jump).table.trans table₂).trans (State.boundaryBegun_table ..)
    have judges : s₃.judged f closed = judged := State.judged_of_table table₃ f closed
    have evaluates : s₃.evaluated f closed = e := State.evaluated_of_table table₃ f closed
    have blocks₄ := State.closeHalfCycle_blocks s₃ f closed
    obtain ⟨staging₄, summary₄⟩ := State.closeHalfCycle_writer s₃ f closed
    rw [judges, evaluates] at blocks₄
    rw [evaluates] at summary₄
    refine ⟨State.putTracker_putMonitor_offMarks .., State.reportSync_same tracker,
      State.reportSync_boundary tracker (instant_seek old g x.sign), ?_, ?_, congrArg Prod.snd judges, blocks₄, staging₄,
      summary₄, ?_, ?_, State.takeInstant_boundary rfl rfl rfl boundary⟩
    · intro none
      change s₂.reportJump f old.sync r.jump = s₂
      rw [none]
      rfl
    · intro offset jump
      have jumped := reportJump_jumped s₂ f old.sync offset
      rw [trackers₂, tracker, ← jump] at jumped
      exact ⟨jumped.staged, jumped.blocks, jumped.pending, jumped.results, jumped.records, jumped.summary⟩
    · exact State.settleResults_none
    · intro made
      refine ⟨State.settleResults_blocks .., fun i => ?_, State.settleResults_stager made⟩
      rw [State.settleResults_staging made]
      congr 1
      funext y
      obtain ⟨seq, stamp, dropped, body⟩ := y
      cases body <;> rfl
  · have handed := sample_hands (c := .sampleStampWrite a be v) rfl once window kind
    rw [place] at handed
    intro f m taken q present values last sign cls own again start completes
    obtain ⟨t, run, up, e⟩ := handed
    refine ⟨fun partly => ⟨t, run, ?_, up⟩, ?_⟩
    · have leaves : taken.sampleWrite f 3#2 be v = taken := if_neg partly
      exact leaves ▸ e.offPort
    rintro rfl
    have settles (slot : PhaseSlot) (i : Nat) : settlePhase slot (v.getLsbD i) = present slot i := by
      cases slot <;> rfl
    have settled : m.assembly.zip settlePhase (stampFlags v) = values := by
      change (⟨settlePhase m.assembly.a (v.getLsbD 16), settlePhase m.assembly.b (v.getLsbD 17),
        settlePhase m.assembly.c (v.getLsbD 18)⟩ : Phases (Option Sample)) = values
      rw [settles, settles, settles]
    refine ⟨fun first => ⟨t, run, up, e.stamped settled rfl ?_ rfl⟩,
      fun restart => ⟨t, run, up, e.stamped settled rfl ?_ rfl⟩,
      fun n bridged => ⟨t, run, up, e.stamped settled rfl ?_ rfl⟩⟩
    · change State.beforeOwn start f cls _ = start
      rcases first with first | first | first <;> rw [first] <;> rfl
    · change State.beforeOwn start f cls _ = _
      rw [restart]
      rfl
    · change State.beforeOwn start f cls _ = _
      rw [bridged]
      exact State.bridgedGap_eq ..

end Sys2Proof.Machine
end

section
namespace Sys2Proof.Machine

/-! ## The tests a tracker makes of an instant (R45) -/

variable {g : Settings} {c : Nat}

theorem inWindow_iff : inWindow g c = true ↔ g.n - g.w ≤ c ∧ c ≤ g.n + g.w := by simp [inWindow]

theorem inWindow_eq_false_iff : inWindow g c = false ↔ c < g.n - g.w ∨ g.n + g.w < c := by
  rw [← Bool.not_eq_true, inWindow_iff]
  omega

theorem inGuard_iff : inGuard g c = true ↔ c < g.n / 4 := by simp [inGuard]

theorem inGuard_eq_false_iff : inGuard g c = false ↔ g.n / 4 ≤ c := by simp [inGuard]

/-- The noise guard ends below the crossing window. -/
theorem Settings.tracks.guard_lt_window (tracks : g.tracks) : g.n / 4 < g.n - g.w := by
  obtain ⟨_, _, _, _, _⟩ := tracks
  omega

/-! ## The offset of a relock from COASTING (R50) -/

/-- A relock inside the noise guard is a late jump. -/
theorem relockOffset_late (late : c < g.n / 4) : relockOffset g c = some (c : Int) :=
  if_pos (inGuard_iff.mpr late)

/-- A relock between the noise guard and the window is an early jump. -/
theorem relockOffset_early (past : g.n / 4 ≤ c) (early : c < g.n - g.w) :
    relockOffset g c = some ((c : Int) - g.n) := by
  unfold relockOffset
  rw [inGuard_eq_false_iff.mpr past]
  exact if_pos early

/-- A relock inside the window is no jump. -/
theorem relockOffset_inWindow (tracks : g.tracks) (window : g.n - g.w ≤ c) : relockOffset g c = none := by
  have past : g.n / 4 ≤ c := tracks.guard_lt_window.le.trans window
  unfold relockOffset
  rw [inGuard_eq_false_iff.mpr past]
  exact if_neg (Nat.not_lt.mpr window)

namespace Tracker

variable {t : Tracker} {sign : Sign} {crossed : Bool}

theorem crossing_eq_true_iff : t.crossing sign = true ↔ t.crosses sign := by
  unfold crossing crosses
  cases t.last <;> simp

theorem crossing_eq_false_iff : t.crossing sign = false ↔ ¬ t.crosses sign := by
  rw [← crossing_eq_true_iff, Bool.not_eq_true]

/-- The tracker once it holds the instant's sign, as the rules of its sync state find it (R45). -/
def heard (t : Tracker) (sign : Sign) : Tracker := { t with last := some sign }

/-- An instant without a boundary adds 1 to a set count, up to 255 (R45 step 4). -/
theorem runOn_of_count (count : t.count = some c) : t.runOn = { t with count := some (min 255 (c + 1)) } := by
  unfold runOn
  rw [count]
  rfl

/-! ## SEEK, branch by branch (R46) -/

theorem instant_of_seek (state : t.sync = .seek) (shows : t.crossing sign = crossed) :
    t.instant g sign = (t.heard sign).seekStep g crossed := by
  unfold instant heard
  rw [state, shows]

theorem seekStep_jump : (t.seekStep g crossed).jump = none := by
  unfold seekStep
  split
  · split <;> rfl
  · split
    · rfl
    · split <;> rfl

theorem seekStep_unset (unset : t.count = none) :
    t.seekStep g crossed =
      if crossed then ⟨{ t with count := some 1 }, .countStarted, none⟩ else ⟨t, .noBoundary, none⟩ := by
  unfold seekStep
  rw [unset]

theorem seekStep_runOn (count : t.count = some c) (noise : crossed = false ∨ c < g.n / 4) :
    t.seekStep g crossed = ⟨{ t with count := some (min 255 (c + 1)) }, .noBoundary, none⟩ := by
  have quiet : (!crossed || inGuard g c) = true := by
    rwa [Bool.or_eq_true, Bool.not_eq_true', inGuard_iff]
  unfold seekStep
  rw [count, ← runOn_of_count count]
  exact if_pos quiet

/-- A crossing past the noise guard locks inside the window and starts the count anew outside it. -/
theorem seekStep_crossed (count : t.count = some c) (past : g.n / 4 ≤ c) :
    t.seekStep g true =
      if inWindow g c then ⟨t.boundaryHere, .boundaryHere, none⟩
      else ⟨{ t with count := some 1 }, .countStarted, none⟩ := by
  unfold seekStep
  rw [count]
  simp [inGuard_eq_false_iff.mpr past]

/-! ## A coast (R48, R49) -/

/-- A coast begins or goes on at a flywheel boundary, and is LOST where its count reaches the limit. -/
theorem coastOn_eq :
    t.coastOn g =
      { t.flywheel g with
        coast := t.coast + 1
        sync := if g.coastLimit ≤ t.coast + 1 then .lost else .coasting
        search := if g.coastLimit ≤ t.coast + 1 then none else t.search } := by
  unfold coastOn
  dsimp only
  split <;> rfl

/-! ## LOCKED, branch by branch (R47, R48) -/

theorem instant_of_locked (state : t.sync = .locked) (shows : t.crossing sign = crossed) :
    t.instant g sign = (t.heard sign).lockedStep g crossed := by
  unfold instant heard
  rw [state, shows]

theorem lockedStep_of_count (count : t.count = some c) :
    t.lockedStep g crossed =
      if crossed && inWindow g c then ⟨t.boundaryHere, .boundaryHere, none⟩
      else if crossed && !inGuard g c && decide (c < g.n - g.w) then
        ⟨t.boundaryHere, .boundaryHere, some ((c : Int) - g.n)⟩
      else if g.n + g.w ≤ c then ⟨{ t with coast := 0 }.coastOn g, .boundaryAtN, none⟩
      else ⟨{ t with count := some (min 255 (c + 1)) }, .noBoundary, none⟩ := by
  rw [← runOn_of_count count]
  unfold lockedStep
  rw [count]
  rfl

/-- A crossing inside the window. -/
theorem lockedStep_inWindow (count : t.count = some c) (window : g.n - g.w ≤ c ∧ c ≤ g.n + g.w) :
    t.lockedStep g true = ⟨t.boundaryHere, .boundaryHere, none⟩ := by
  rw [lockedStep_of_count count]
  simp [inWindow_iff.mpr window]

/-- A crossing between the noise guard and the window is an early jump. -/
theorem lockedStep_early (count : t.count = some c) (past : g.n / 4 ≤ c) (early : c < g.n - g.w) :
    t.lockedStep g true = ⟨t.boundaryHere, .boundaryHere, some ((c : Int) - g.n)⟩ := by
  rw [lockedStep_of_count count]
  simp [inWindow_eq_false_iff.mpr (.inl early), inGuard_eq_false_iff.mpr past, early]

/-- A crossing inside the noise guard is as none. -/
theorem lockedStep_noise (count : t.count = some c) (tracks : g.tracks) (noise : c < g.n / 4) :
    t.lockedStep g true = ⟨{ t with count := some (min 255 (c + 1)) }, .noBoundary, none⟩ := by
  have early : c < g.n - g.w := noise.trans tracks.guard_lt_window
  have short : ¬ g.n + g.w ≤ c := by omega
  rw [lockedStep_of_count count]
  simp [inWindow_eq_false_iff.mpr (.inl early), inGuard_iff.mpr noise, short]

/-- Without a crossing the count runs on to N+W, where a flywheel boundary starts a coast. -/
theorem lockedStep_missed (count : t.count = some c) :
    t.lockedStep g false =
      if g.n + g.w ≤ c then ⟨{ t with coast := 0 }.coastOn g, .boundaryAtN, none⟩
      else ⟨{ t with count := some (min 255 (c + 1)) }, .noBoundary, none⟩ :=
  lockedStep_of_count count

/-! ## COASTING, branch by branch (R49, R50) -/

theorem instant_of_coasting (state : t.sync = .coasting) (shows : t.crossing sign = crossed) :
    t.instant g sign = (t.heard sign).coastingStep g crossed := by
  unfold instant heard
  rw [state, shows]

theorem coastingStep_crossed (count : t.count = some c) :
    t.coastingStep g true = ⟨t.boundaryHere, .boundaryHere, relockOffset g c⟩ := by
  unfold coastingStep
  rw [count]
  rfl

theorem coastingStep_missed (count : t.count = some c) :
    t.coastingStep g false =
      if g.n + g.w ≤ c then ⟨t.coastOn g, .boundaryAtN, none⟩
      else ⟨{ t with count := some (min 255 (c + 1)) }, .noBoundary, none⟩ := by
  rw [← runOn_of_count count]
  unfold coastingStep
  rw [count]
  rfl

/-! ## LOST, branch by branch (R51, R52) -/

theorem instant_of_lost (state : t.sync = .lost) (shows : t.crossing sign = crossed) :
    t.instant g sign = (t.heard sign).lostStep g crossed := by
  unfold instant heard
  rw [state, shows]

theorem lostStep_relocks {k : Nat} (search : t.search = some k) (window : g.n - g.w ≤ k ∧ k ≤ g.n + g.w) :
    t.lostStep g true = ⟨t.boundaryHere, .boundaryHere, none⟩ := by
  unfold lostStep
  rw [search]
  exact if_pos (inWindow_iff.mpr window)

/-- An instant that does not relock moves the search on, and with the count at N+W places a flywheel boundary. -/
theorem lostStep_searches (count : t.count = some c)
    (stays : ∀ k, t.search = some k → crossed = true → inWindow g k = false) :
    t.lostStep g crossed =
      if g.n + g.w ≤ c then ⟨{ t with search := t.searchOn g crossed }.flywheel g, .boundaryAtN, none⟩
      else ⟨{ t with search := t.searchOn g crossed, count := some (min 255 (c + 1)) }, .noBoundary, none⟩ := by
  have ran : { t with search := t.searchOn g crossed }.runOn =
      { t with search := t.searchOn g crossed, count := some (min 255 (c + 1)) } := runOn_of_count count
  rw [← ran]
  unfold lostStep
  rw [count]
  refine if_neg ?_
  cases search : t.search with
  | none => exact Bool.false_ne_true
  | some k =>
    rw [Bool.and_eq_true]
    rintro ⟨cross, window⟩
    exact Bool.false_ne_true ((stays k search cross).symm.trans window)

/-- A search starts at a crossing. -/
theorem searchOn_unset (unset : t.search = none) : t.searchOn g crossed = if crossed then some 1 else none := by
  unfold searchOn
  rw [unset]

theorem searchOn_runOn {k : Nat} (search : t.search = some k) (noise : crossed = false ∨ k < g.n / 4) :
    t.searchOn g crossed = some (min 255 (k + 1)) := by
  have quiet : (crossed && !inGuard g k) = false := by
    rwa [Bool.and_eq_false_iff, Bool.not_eq_false', inGuard_iff]
  unfold searchOn
  rw [search]
  dsimp only
  rw [quiet]
  rfl

/-- A crossing past the noise guard starts the search anew. -/
theorem searchOn_crossed {k : Nat} (search : t.search = some k) (past : g.n / 4 ≤ k) :
    t.searchOn g true = some 1 := by
  unfold searchOn
  rw [search]
  simp [inGuard_eq_false_iff.mpr past]

end Tracker

end Sys2Proof.Machine
end

section
namespace Sys2Proof.Machine

/-! ## What an instant does to a tracker, by sync state (R46 to R52) -/

/-- Settles O13. -/
theorem trackerInSeek : Obligations.TrackerInSeek := by
  intro t g sign tracks state x
  have step {crossed : Bool} (shows : t.crossing sign = crossed) : x = (t.heard sign).seekStep g crossed :=
    Tracker.instant_of_seek state shows
  have crossed (cross : t.crosses sign) := step (Tracker.crossing_eq_true_iff.mpr cross)
  refine ⟨step rfl ▸ Tracker.seekStep_jump, fun cross unset => ?_, fun miss unset => ?_, fun c count =>
    ⟨fun noise => ?_, fun cross low high => ?_, fun cross past outside => ?_⟩⟩
  · rw [crossed cross, Tracker.seekStep_unset (t := t.heard sign) unset]
    exact ⟨rfl, rfl⟩
  · rw [step (Tracker.crossing_eq_false_iff.mpr miss), Tracker.seekStep_unset (t := t.heard sign) unset]
    exact ⟨rfl, rfl⟩
  · rw [step rfl, Tracker.seekStep_runOn (t := t.heard sign) count
      (noise.imp_left Tracker.crossing_eq_false_iff.mpr)]
    exact ⟨rfl, rfl⟩
  · have past : g.n / 4 ≤ c := tracks.guard_lt_window.le.trans low
    rw [crossed cross, Tracker.seekStep_crossed (t := t.heard sign) count past, inWindow_iff.mpr ⟨low, high⟩]
    exact ⟨rfl, rfl⟩
  · rw [crossed cross, Tracker.seekStep_crossed (t := t.heard sign) count past,
      inWindow_eq_false_iff.mpr outside]
    exact ⟨rfl, rfl⟩

/-- Settles O14. -/
theorem trackerInLocked : Obligations.TrackerInLocked := by
  intro t g sign c tracks state count reach x here
  have crossed (cross : t.crosses sign) : x = (t.heard sign).lockedStep g true :=
    Tracker.instant_of_locked state (Tracker.crossing_eq_true_iff.mpr cross)
  have missed (miss : ¬ t.crosses sign) : x = (t.heard sign).lockedStep g false :=
    Tracker.instant_of_locked state (Tracker.crossing_eq_false_iff.mpr miss)
  have heard : (t.heard sign).count = some c := count
  refine ⟨fun cross noise => (crossed cross).trans (Tracker.lockedStep_noise heard tracks noise),
    fun cross past early => (crossed cross).trans (Tracker.lockedStep_early heard past early),
    fun cross window => (crossed cross).trans (Tracker.lockedStep_inWindow heard ⟨window, reach⟩),
    fun miss short => ?_, fun miss full => ?_⟩
  · rw [missed miss, Tracker.lockedStep_missed heard, if_neg (Nat.not_le.mpr short)]
    rfl
  · rw [missed miss, Tracker.lockedStep_missed heard, if_pos full.ge, Tracker.coastOn_eq]
    exact ⟨rfl, rfl, rfl, rfl, rfl, rfl, fun one => ⟨if_pos one.le, if_pos one.le⟩,
      fun more => if_neg (Nat.not_le.mpr more)⟩

/-- Settles O15. -/
theorem trackerInCoasting : Obligations.TrackerInCoasting := by
  intro t g sign c tracks state count reach x
  have missed (miss : ¬ t.crosses sign) : x = (t.heard sign).coastingStep g false :=
    Tracker.instant_of_coasting state (Tracker.crossing_eq_false_iff.mpr miss)
  have heard : (t.heard sign).count = some c := count
  refine ⟨fun cross => ?_, fun miss short => ?_, fun miss full => ?_⟩
  · have relocks : x = ⟨(t.heard sign).boundaryHere, .boundaryHere, relockOffset g c⟩ :=
      (Tracker.instant_of_coasting state (Tracker.crossing_eq_true_iff.mpr cross)).trans
        (Tracker.coastingStep_crossed heard)
    rw [relocks]
    exact ⟨rfl, rfl, relockOffset_inWindow tracks, relockOffset_early, relockOffset_late⟩
  · rw [missed miss, Tracker.coastingStep_missed heard, if_neg (Nat.not_le.mpr short)]
    rfl
  · rw [missed miss, Tracker.coastingStep_missed heard, if_pos full.ge, Tracker.coastOn_eq]
    exact ⟨rfl, rfl, rfl, rfl, rfl, rfl, fun limit => ⟨if_pos limit, if_pos limit⟩,
      fun below => if_neg (Nat.not_le.mpr below)⟩

/-- Settles O16: short of a relock, the search moves on alike with and without a flywheel boundary. -/
theorem trackerInLost : Obligations.TrackerInLost := by
  intro t g sign c tracks state count reach x relocks
  by_cases relock : relocks
  · obtain ⟨k, search, cross, window⟩ := id relock
    have locks : x = ⟨(t.heard sign).boundaryHere, .boundaryHere, none⟩ :=
      (Tracker.instant_of_lost state (Tracker.crossing_eq_true_iff.mpr cross)).trans
        (Tracker.lostStep_relocks search window)
    rw [locks]
    exact ⟨rfl, rfl, fun _ => ⟨rfl, rfl⟩, (absurd relock ·)⟩
  · have stays : ∀ k, t.search = some k → t.crossing sign = true → inWindow g k = false := by
      intro k search cross
      rw [← Bool.not_eq_true]
      intro window
      exact relock ⟨k, search, Tracker.crossing_eq_true_iff.mp cross, inWindow_iff.mp window⟩
    have searches : x = _ := (Tracker.instant_of_lost state rfl).trans
      (Tracker.lostStep_searches (t := t.heard sign) count stays)
    obtain ⟨jump, last, sync, coast, search⟩ : x.jump = none ∧ x.tracker.last = some sign ∧
        x.tracker.sync = .lost ∧ x.tracker.coast = t.coast ∧
        x.tracker.search = t.searchOn g (t.crossing sign) := by
      rw [searches]
      split <;> exact ⟨rfl, rfl, state, rfl, rfl⟩
    refine ⟨jump, last, (absurd · relock), fun _ => ⟨sync, coast, fun short => ?_, fun full => ?_,
      fun unset cross => ?_, fun unset miss => ?_, fun k set => ⟨fun noise => ?_, fun cross past => ?_⟩⟩⟩
    · rw [searches, if_neg (Nat.not_le.mpr short)]
      exact ⟨rfl, rfl, rfl⟩
    · rw [searches, if_pos full.ge]
      exact ⟨rfl, rfl, rfl⟩
    · rw [search, Tracker.searchOn_unset unset, Tracker.crossing_eq_true_iff.mpr cross]
      rfl
    · rw [search, Tracker.searchOn_unset unset, Tracker.crossing_eq_false_iff.mpr miss]
      rfl
    · exact search.trans (Tracker.searchOn_runOn set (noise.imp_left Tracker.crossing_eq_false_iff.mpr))
    · rw [search, Tracker.crossing_eq_true_iff.mpr cross, Tracker.searchOn_crossed set past]

end Sys2Proof.Machine
end


section
namespace Sys2Proof.Machine

/-! ## What the sag invariant reads of a feeder (R61, R129, R133, R134) -/

/-- What the invariant of sag records reads of one feeder: whether a table is installed, the feeder's state, whether a sag
record is open at its controller and at its evaluator, and its open episode, with whether the quiet counter runs. -/
structure SagView where
  loaded : Bool
  state : FeederState
  sag : Bool
  evaluating : Bool
  episode : Option Bool

/-- What the invariant reads of a controller and its evaluator. -/
def sagViewOf (loaded : Bool) (c : FeederCtl) (e : Evaluator) : SagView where
  loaded := loaded
  state := c.state
  sag := c.sag.isSome
  evaluating := e.sagOpen
  episode := c.episode.map fun y => y.quiet.isSome

def State.sagView (s : State) (f : Fid) : SagView := sagViewOf s.table.isSome (s.ctl.get f) (s.evals.get f)

/-- The evaluator, the episode and the quiet counter are in step with the sag record, whatever the feeder's state. -/
structure SagView.InStep (x : SagView) : Prop where
  evaluating : x.evaluating = x.sag
  counted : x.sag = true → x.episode.isSome = true
  quiet : x.episode = some true → x.sag = false

/-- The invariant of one feeder: all is in step, and the sag record and the table stand with the feeder's state. -/
structure SagView.Ok (x : SagView) : Prop extends SagView.InStep x where
  riding : x.state = .watch ∨ x.state = .ride → x.sag = true
  place : x.sag = true → x.state = .watch ∨ x.state = .ride ∨ x.state = .shed
  off : x.loaded = false → x.state = .off

/-- A feeder under an installed table with no sag record open. -/
structure SagView.Resting (x : SagView) : Prop extends SagView.InStep x where
  closed : x.sag = false
  loaded : x.loaded = true

theorem quietCounter_isSome_iff (s : State) (f : Fid) :
    (s.quietCounter f).isSome = true ↔ (s.sagView f).episode = some true := by
  unfold State.quietCounter State.sagView sagViewOf
  cases (s.ctl.get f).episode <;> simp

theorem sagInv_iff (s : State) : s.sagInv ↔ ∀ f, (s.sagView f).Ok := by
  have none : s.table = none ↔ s.table.isSome = false := by simp
  have counted : ∀ f, (s.sagView f).episode.isSome = (s.ctl.get f).episode.isSome := fun f => Option.isSome_map
  have closed : ∀ f, (s.sagView f).sag = false ↔ (s.ctl.get f).sag = .none := fun f => by simp [State.sagView, sagViewOf]
  constructor
  · rintro ⟨feeders, off⟩ f
    obtain ⟨riding, place, evaluating, episode, quiet⟩ := feeders f
    exact ⟨⟨evaluating, fun h => (counted f).trans (episode h),
      fun h => (closed f).2 (quiet ((quietCounter_isSome_iff s f).2 h))⟩, riding, place, fun h => off (none.2 h) f⟩
  · refine fun ok => ⟨fun f => ?_, fun h f => (ok f).off (none.1 h)⟩
    obtain ⟨⟨evaluating, episode, quiet⟩, riding, place, -⟩ := ok f
    exact ⟨riding, place, evaluating, fun h => (counted f).symm.trans (episode h),
      fun h => (closed f).1 (quiet ((quietCounter_isSome_iff s f).1 h))⟩

namespace SagView

variable {x : SagView}

theorem Ok.loaded_of (h : x.Ok) (live : x.state ≠ .off) : x.loaded = true := by
  by_contra none
  exact live (h.off (by simpa using none))

/-- A feeder in WATCH or RIDE has its sag record open, under an installed table. -/
theorem Ok.opened_of {y : FeederState} (h : x.Ok) (state : x.state = y) (riding : y = .watch ∨ y = .ride) :
    x.sag = true ∧ x.loaded = true := by
  refine ⟨h.riding (state ▸ riding), h.loaded_of ?_⟩
  rw [state]
  rcases riding with rfl | rfl <;> exact nofun

/-- A feeder in ARMING, STANDBY, RECOVER or FAULT has none. -/
theorem Ok.resting_of {y : FeederState} (h : x.Ok) (state : x.state = y) (off : y ≠ .off) (watch : y ≠ .watch)
    (ride : y ≠ .ride) (shed : y ≠ .shed) : x.Resting := by
  refine ⟨h.toInStep, ?_, h.loaded_of (state ▸ off)⟩
  by_contra opened
  rcases h.place (by simpa using opened) with place | place | place
  exacts [watch (state.symm.trans place), ride (state.symm.trans place), shed (state.symm.trans place)]

theorem InStep.withState (h : x.InStep) (y : FeederState) : ({ x with state := y } : SagView).InStep :=
  ⟨h.evaluating, h.counted, h.quiet⟩

theorem Resting.withState (h : x.Resting) (y : FeederState) : ({ x with state := y } : SagView).Resting :=
  ⟨h.toInStep.withState y, h.closed, h.loaded⟩

/-- A feeder in SHED may have a sag record open or none. -/
theorem InStep.ok_shed (h : x.InStep) (loaded : x.loaded = true) (state : x.state = .shed) : x.Ok where
  toInStep := h
  riding := by rw [state]; rintro (h | h) <;> cases h
  place _ := .inr (.inr state)
  off none := absurd (loaded.symm.trans none) (by decide)

theorem InStep.ok_riding (h : x.InStep) (loaded : x.loaded = true) (opened : x.sag = true)
    (riding : x.state = .watch ∨ x.state = .ride) : x.Ok where
  toInStep := h
  riding _ := opened
  place _ := riding.imp_right .inl
  off none := absurd (loaded.symm.trans none) (by decide)

theorem Resting.ok (h : x.Resting) (watch : x.state ≠ .watch) (ride : x.state ≠ .ride) : x.Ok where
  toInStep := h.toInStep
  riding state := (state.elim watch ride).elim
  place opened := absurd (h.closed.symm.trans opened) (by decide)
  off none := absurd (h.loaded.symm.trans none) (by decide)

/-- A sag record that opens counts in the episode and cancels its quiet counter (R65, R129, R133). -/
def opened (x : SagView) : SagView := { x with sag := true, evaluating := true, episode := some false }

/-- A sag record that closes closes with the evaluator (R70, R132). -/
def closing (x : SagView) : SagView := { x with sag := false, evaluating := x.evaluating && !x.sag }

/-- The episode's quiet counter starts where a sag record has closed (R134). -/
def ended (x : SagView) : SagView := { x.closing with episode := x.episode.map fun _ => true }

theorem opened_inStep (x : SagView) : x.opened.InStep := ⟨rfl, fun _ => rfl, nofun⟩

theorem InStep.closing_evaluating (h : x.InStep) : x.closing.evaluating = false := by
  simp [SagView.closing, h.evaluating]

theorem InStep.ended (h : x.InStep) (loaded : x.loaded = true) : x.ended.Resting :=
  ⟨⟨h.closing_evaluating, nofun, fun _ => rfl⟩, rfl, loaded⟩

theorem InStep.stoodDown (h : x.InStep) (loaded : x.loaded = true) (y : FeederState) :
    ({ x.closing with state := y, episode := none } : SagView).Resting :=
  ⟨⟨h.closing_evaluating, nofun, fun _ => rfl⟩, rfl, loaded⟩

/-- An episode closes where no sag record is open (R135, R138). -/
theorem InStep.noEpisode (h : x.InStep) (closed : x.sag = false) : ({ x with episode := none } : SagView).InStep :=
  ⟨h.evaluating, fun opened => absurd (closed.symm.trans opened) (by decide), nofun⟩

end SagView

end Sys2Proof.Machine
end

section
namespace Sys2Proof.Machine

/-! ## What every operation does to the view: the operations that leave it alone -/

/-- The view turns on the controllers, the evaluators and the table alone. -/
theorem sagView_congr {s t : State} (ctl : t.ctl = s.ctl) (evals : t.evals = s.evals) (table : t.table = s.table) :
    t.sagView = s.sagView := by
  unfold State.sagView
  rw [ctl, evals, table]

theorem sagView_of_blocks {s t : State} (blocks : t.blocks = s.blocks) : t.sagView = s.sagView :=
  sagView_congr (congrArg (fun u : State => u.ctl) blocks :) (congrArg (fun u : State => u.evals) blocks :)
    (congrArg (fun u : State => u.table) blocks :)

theorem sagView_of_offPort {s t : State} (offPort : t.offPort = s.offPort) : t.sagView = s.sagView :=
  sagView_congr (congrArg (fun u : State => u.ctl) offPort :) (congrArg (fun u : State => u.evals) offPort :)
    (congrArg (fun u : State => u.table) offPort :)

theorem AccountOnly.sagView {s t : State} (h : AccountOnly s t) : t.sagView = s.sagView :=
  sagView_congr h.ctl h.evals h.table

theorem Beside.sagView {f g : Fid} {s t : State} (h : Beside f s t) (ne : g ≠ f) : t.sagView g = s.sagView g := by
  obtain ⟨ctl, -, evals⟩ := h.others g ne
  unfold State.sagView
  rw [ctl, evals, h.table]

/-- A write of feeder `f`'s controller and evaluator that leaves its view alone. -/
theorem sagView_of_sets {s t : State} {f : Fid} {c : FeederCtl} {e : Evaluator} (ctl : t.ctl = s.ctl.set f c)
    (evals : t.evals = s.evals.set f e) (table : t.table = s.table)
    (same : ∀ loaded, sagViewOf loaded c e = sagViewOf loaded (s.ctl.get f) (s.evals.get f)) :
    t.sagView = s.sagView := by
  funext g
  unfold State.sagView
  rw [ctl, evals, table]
  by_cases own : g = f
  · rw [own, Per8.get_set_same, Per8.get_set_same, same]
  · rw [Per8.get_set_ne _ _ own, Per8.get_set_ne _ _ own]

theorem sagView_putCtl {s : State} {f : Fid} {c : FeederCtl}
    (same : ∀ loaded e, sagViewOf loaded c e = sagViewOf loaded (s.ctl.get f) e) :
    (s.putCtl f c).sagView = s.sagView :=
  sagView_of_sets (e := s.evals.get f) (by simp) (by simp) (by simp) fun loaded => same loaded _

namespace State

@[simp] theorem putTracker_sagView (s : State) (f : Fid) (t : Tracker) : (s.putTracker f t).sagView = s.sagView :=
  sagView_congr (by simp) (by simp) (by simp)

@[simp] theorem putMonitor_sagView (s : State) (f : Fid) (m : Monitor) : (s.putMonitor f m).sagView = s.sagView := rfl

@[simp] theorem putStager_sagView (s : State) (f : Fid) (g : Stager) : (s.putStager f g).sagView = s.sagView := rfl

@[simp] theorem putReserved_sagView (s : State) (f : Fid) (r : Nat) : (s.putReserved f r).sagView = s.sagView :=
  sagView_congr (by simp) (by simp) (by simp)

@[simp] theorem putUsable_sagView (s : State) (u : Nat) : (s.putUsable u).sagView = s.sagView :=
  sagView_congr (by simp) (by simp) (by simp)

@[simp] theorem putLoader_sagView (s : State) (l : Loader) : (s.putLoader l).sagView = s.sagView :=
  sagView_congr (by simp) (by simp) (by simp)

theorem putProducer_sagView (s : State) (p : BitVec 16) : (s.putProducer p).sagView = s.sagView :=
  sagView_congr (by simp) (by simp) (by simp)

theorem putConsumer_sagView (s : State) (c : BitVec 16) : (s.putConsumer c).sagView = s.sagView :=
  sagView_congr (by simp) (by simp) (by simp)

theorem putSummary_sagView (s : State) (c : BitVec 8) : (s.putSummary c).sagView = s.sagView :=
  sagView_congr (by simp) (by simp) (by simp)

theorem judgeAttn_sagView (s : State) : s.judgeAttn.sagView = s.sagView := rfl

theorem deferBurst_sagView (s : State) (served : Bool) : (s.deferBurst served).sagView = s.sagView := rfl

@[simp] theorem raise_sagView (s : State) (c : BitVec 8) : (s.raise c).sagView = s.sagView :=
  sagView_congr (by simp) (by simp) (by simp)

@[simp] theorem handRecord_sagView (s : State) (b : Body) : (s.handRecord b).sagView = s.sagView :=
  sagView_congr (by simp) (by simp) (by simp)

@[simp] theorem makeResult_sagView (s : State) (f : Fid) (x : Finding) : (s.makeResult f x).sagView = s.sagView :=
  sagView_congr (by simp) (by simp) (by simp)

@[simp] theorem settleResults_sagView (s before : State) (f : Fid) : (s.settleResults before f).sagView = s.sagView :=
  sagView_congr (by simp) (by simp) (by simp)

@[simp] theorem asEventOf_sagView (s : State) (f : Fid) (e : State → State) : (s.asEventOf f e).sagView = (e s).sagView :=
  settleResults_sagView _ _ f

@[simp] theorem endPending_sagView (s : State) (f : Fid) (c : ResultCode) : (s.endPending f c).sagView = s.sagView :=
  sagView_congr (by simp) (by simp) (by simp)

@[simp] theorem settleLine_sagView (s : State) (f : Fid) (c : ResultCode) (a : Option Nat) :
    (s.settleLine f c a).sagView = s.sagView :=
  sagView_congr (by simp) (by simp) (by simp)

@[simp] theorem placeRequest_sagView (s : State) (f : Fid) (r : Request) : (s.placeRequest f r).sagView = s.sagView :=
  sagView_congr (by simp) (by simp) (by simp)

@[simp] theorem placeEngage_sagView (s : State) (f : Fid) (ref : Reference) (source : Source) (r : Option Accepted) :
    (s.placeEngage f ref source r).sagView = s.sagView := placeRequest_sagView s f _

@[simp] theorem placeRelease_sagView (s : State) (f : Fid) : (s.placeRelease f).sagView = s.sagView :=
  placeRequest_sagView s f _

@[simp] theorem hold_sagView (s : State) (f : Fid) : (s.hold f).sagView = s.sagView := placeEngage_sagView s f _ _ _

@[simp] theorem arbitrateLine_sagView (s : State) : s.arbitrateLine.sagView = s.sagView :=
  sagView_congr (by simp) (by simp) (by simp)

@[simp] theorem releaseEnergy_sagView (s : State) (f : Fid) : (s.releaseEnergy f).sagView = s.sagView :=
  putReserved_sagView s f 0

@[simp] theorem requestEntry_sagView (s : State) (f : Fid) (need : Nat) :
    (s.requestEntry f need).1.sagView = s.sagView := (requestEntry_accountOnly s f need).sagView

@[simp] theorem requestRide_sagView (s : State) (f : Fid) (need : Nat) :
    (s.requestRide f need).1.sagView = s.sagView := (requestRide_accountOnly s f need).sagView

/-- A change of the open sag record leaves it open. -/
@[simp] theorem onSag_sagView (s : State) (f : Fid) (g : SagRecord → SagRecord) : (s.onSag f g).sagView = s.sagView :=
  sagView_putCtl fun _ _ => by simp [sagViewOf]

@[simp] theorem stopSource_sagView (s : State) (f : Fid) : (s.stopSource f).sagView = s.sagView :=
  sagView_putCtl fun _ _ => rfl

@[simp] theorem setReady_sagView (s : State) (f : Fid) (ready : Bool) : (s.setReady f ready).sagView = s.sagView := by
  unfold setReady
  split
  · exact sagView_putCtl fun _ _ => rfl
  · rfl

/-- A running quiet counter that counts on is still running (R134). -/
@[simp] theorem advanceQuiet_sagView (s : State) (f : Fid) : (s.advanceQuiet f).sagView = s.sagView :=
  sagView_putCtl fun _ _ => by simp [sagViewOf, Function.comp_def]

@[simp] theorem closedHalf_sagView (s : State) (f : Fid) (v : Verdicts) : (s.closedHalf f v).sagView = s.sagView :=
  sagView_putCtl fun _ _ => by simp [sagViewOf, FeederCtl.update]

/-- An evaluator that is written keeps the view where its sag stays open or closed. -/
theorem putEval_sagView {s : State} {f : Fid} {e : Evaluator} (same : e.sagOpen = (s.evals.get f).sagOpen) :
    (s.putEval f e).sagView = s.sagView :=
  sagView_of_sets (f := f) (c := s.ctl.get f) (e := e) (by simp) (by simp) (by simp) fun _ => by simp [sagViewOf, same]

@[simp] theorem endLate_sagView (s : State) (f : Fid) : (s.endLate f).sagView = s.sagView :=
  sagView_congr (endLate_ctl s f) (endLate_steady s f).evals (endLate_steady s f).table

@[simp] theorem takeRecord_sagView (s : State) (f : Fid) (r : Accepted) : (s.takeRecord f r).sagView = s.sagView := by
  unfold takeRecord
  dsimp only
  split
  · exact onSag_sagView _ f _
  · rfl

@[simp] theorem takeChosen_sagView (s : State) (f : Fid) (r : Option Accepted) :
    (s.takeChosen f r).sagView = s.sagView := by
  cases r with
  | none => rfl
  | some r => exact takeRecord_sagView s f r

@[simp] theorem formAutofill_sagView (s : State) (f : Fid) : (s.formAutofill f).1.sagView = s.sagView := by
  unfold formAutofill
  dsimp only
  split
  · exact onSag_sagView s f _
  · rfl

/-- The choice of a ride's reference leaves the sag record open and the feeder in RIDE (R11). -/
@[simp] theorem chooseReference_sagView (s : State) (f : Fid) : (s.chooseReference f).sagView = s.sagView := by
  unfold chooseReference
  split
  · dsimp only
    split <;> simp
  split
  · dsimp only
    split <;> simp
  · simp

@[simp] theorem recordSync_sagView (s : State) (f : Fid) (old : Tracker) (cause : SyncCause) :
    (s.recordSync f old cause).sagView = s.sagView := by
  unfold recordSync
  split
  · rfl
  · exact handRecord_sagView s _

@[simp] theorem reportJump_sagView (s : State) (f : Fid) (prior : Sync) (jump : Option Int) :
    (s.reportJump f prior jump).sagView = s.sagView := by
  unfold reportJump
  split
  · rfl
  · dsimp only
    split <;> simp

@[simp] theorem sendToSeek_sagView (s : State) (f : Fid) (cause : SyncCause) :
    (s.sendToSeek f cause).sagView = s.sagView := by
  unfold sendToSeek
  dsimp only
  split <;> simp

/-- The close of a half-cycle leaves a sag open or closed at the evaluator (R63). -/
@[simp] theorem evaluate_sagView (s : State) (f : Fid) (valid : Bool) (r : Phases Nat) :
    (s.evaluate f valid r).sagView = s.sagView := by
  have put : (s.putEval f ((s.evals.get f).close (s.curve f) valid r).1).sagView = s.sagView := by
    refine putEval_sagView ?_
    unfold Evaluator.close
    dsimp only
    split <;> rfl
  unfold evaluate
  dsimp only
  split
  · rw [raise_sagView, onSag_sagView, put]
  · exact put

@[simp] theorem closeHalfCycle_sagView (s : State) (f : Fid) (closed : Accum) :
    (s.closeHalfCycle f closed).1.sagView = s.sagView := by
  unfold closeHalfCycle
  rw [evaluate_sagView, putMonitor_sagView]

/-- A DONE in RIDE counts in the sag record and leaves it open (R13, R64, R131). -/
@[simp] theorem engageDone_sagView (s : State) (f : Fid) (ref : Reference) (hc : BitVec 8) (source : Source)
    (applied : Nat) : (s.engageDone f ref hc source applied).sagView = s.sagView := by
  have charged : (s.charged f ref hc source applied).sagView = s.sagView := by
    refine sagView_of_sets (charged_ctl s f ref hc source applied) (charged_evals s f ref hc source applied)
      (congrArg (fun u : State => u.table) (charged_blocks s f ref hc source applied) :) fun loaded => ?_
    have open_ : ((s.evals.get f).applyNotice hc (s.trackers.get f).hc).sagOpen = (s.evals.get f).sagOpen := by
      unfold Evaluator.applyNotice
      split <;> rfl
    simp [sagViewOf, FeederCtl.doneInRide, open_]
  rw [engageDone_eq, ← charged]
  unfold commitLine
  dsimp only
  split
  · rfl
  · exact makeResult_sagView _ f _

end State

end Sys2Proof.Machine
end

section
namespace Sys2Proof.Machine

/-! ## What the operations on a feeder's state and records do to its view -/

namespace State

theorem setState_sagView (s : State) (f : Fid) (x : FeederState) (r : Reason) :
    (s.setState f x r).sagView f = { s.sagView f with state := x } := by
  simp [sagView, sagViewOf]

theorem enterShed_sagView (s : State) (f : Fid) (r : Reason) (dropped : ResultCode) :
    (s.enterShed f r dropped).sagView f = { s.sagView f with state := .shed } := by
  have shed := enterShed_shed s f r dropped
  simp [sagView, sagViewOf, shed.ctl, shed.evals, shed.table, FeederCtl.shed]

theorem rideBegun_sagView (s : State) (f : Fid) (ref : Reference) :
    (s.rideBegun f ref).sagView f = { s.sagView f with state := .ride } := by
  simp [sagView, sagViewOf, rideBegun]

theorem openSag_sagView (s : State) (f : Fid) (residuals : Phases Nat) (interruption : Bool) :
    (s.openSag f residuals interruption).sagView f = (s.sagView f).opened := by
  have quiet : (countSag (s.ctl.get f).episode ((s.trackers.get f).hc - 1#8) s.stamp).quiet = none := by
    unfold countSag
    split <;> rfl
  simp [sagView, sagViewOf, openSag, SagView.opened, Evaluator.openSag, SagRecord.opened, quiet]

/-- What a closed sag record adds to its episode's totals leaves the quiet counter alone (R137). -/
theorem closedEpisode_quiet (sag : Option SagRecord) (episode : Option Episode) (o : SagOutcome) :
    (closedEpisode sag episode o).map (fun y => y.quiet.isSome) = episode.map fun y => y.quiet.isSome := by
  cases sag with
  | none => rfl
  | some g => simp [Episode.addSag, Function.comp_def]

theorem closeSag_sagView (s : State) (f : Fid) (o : SagOutcome) :
    (s.closeSag f o).sagView f = (s.sagView f).closing := by
  unfold sagView sagViewOf SagView.closing
  rw [closeSag_ctl, closeSag_evals, closeSag_table, Per8.get_set_same, Per8.get_set_same]
  simp only [FeederCtl.sagClosed, closedEpisode_quiet]
  cases (s.ctl.get f).sag with
  | none => simp
  | some g => simp [Evaluator.closeSag]

theorem startQuiet_sagView (s : State) (f : Fid) :
    (s.startQuiet f).sagView f = { s.sagView f with episode := (s.sagView f).episode.map fun _ => true } := by
  simp [sagView, sagViewOf, startQuiet, Function.comp_def]

theorem endSag_sagView (s : State) (f : Fid) (o : SagOutcome) :
    ((s.closeSag f o).startQuiet f).sagView f = (s.sagView f).ended := by
  rw [startQuiet_sagView, closeSag_sagView]
  rfl

theorem closeEpisode_sagView (s : State) (f : Fid) (k : CloseCause) :
    (s.closeEpisode f k).sagView f = { s.sagView f with episode := none } := by
  simp [sagView, sagViewOf, closeEpisode_ctl]

theorem beginArming_sagView (s : State) (f : Fid) (r : Reason) :
    (s.beginArming f r).sagView f = { s.sagView f with state := .arming } := by
  simp [sagView, sagViewOf, FeederCtl.armed]

theorem standDown_sagView (s : State) (f : Fid) (o : SagOutcome) (k : CloseCause) :
    (s.standDown f o k).sagView f = { (s.sagView f).closing with episode := none } := by
  unfold sagView sagViewOf SagView.closing
  rw [standDown_ctl, standDown_evals, standDown_table, Per8.get_set_same, Per8.get_set_same]
  cases (s.ctl.get f).sag with
  | none => simp
  | some g => simp [Evaluator.closeSag]

theorem enterFault_sagView (s : State) (f : Fid) (r : Reason) :
    (s.enterFault f r).sagView f = { (s.sagView f).closing with state := .fault, episode := none } := by
  have entered : ((s.setState f .fault r).putCtl f { (s.setState f .fault r).ctl.get f with notReadyRun := 0 }).sagView =
      (s.setState f .fault r).sagView := sagView_putCtl fun _ _ => rfl
  unfold enterFault
  rw [standDown_sagView, entered, setState_sagView]
  rfl

theorem enterOff_sagView (s : State) (f : Fid) :
    (s.enterOff f).sagView f = { (s.sagView f).closing with state := .off, episode := none } := by
  unfold enterOff
  rw [putMonitor_sagView, standDown_sagView, setState_sagView]
  rfl

end State

/-! ## The operations that end in a state where the sag record may stand -/

section

variable {s : State} {f : Fid}

theorem enterShed_ok (h : (s.sagView f).InStep) (loaded : (s.sagView f).loaded = true) (r : Reason)
    (dropped : ResultCode) : ((s.enterShed f r dropped).sagView f).Ok := by
  rw [State.enterShed_sagView]
  exact (h.withState .shed).ok_shed loaded rfl

theorem enterFault_resting (h : (s.sagView f).InStep) (loaded : (s.sagView f).loaded = true) (r : Reason) :
    ((s.enterFault f r).sagView f).Resting ∧ ((s.enterFault f r).sagView f).Ok := by
  have rest := h.stoodDown loaded .fault
  rw [State.enterFault_sagView]
  exact ⟨rest, rest.ok nofun nofun⟩

theorem enterOff_resting (h : (s.sagView f).InStep) (loaded : (s.sagView f).loaded = true) :
    ((s.enterOff f).sagView f).Resting ∧ ((s.enterOff f).sagView f).Ok := by
  have rest := h.stoodDown loaded .off
  rw [State.enterOff_sagView]
  exact ⟨rest, rest.ok nofun nofun⟩

/-- ARMING, and the FAULT that it moves on to where MALMn is asserted, have no sag record open (R5). -/
theorem enterArming_resting (h : (s.sagView f).Resting) (r : Reason) :
    ((s.enterArming f r).sagView f).Resting ∧ ((s.enterArming f r).sagView f).Ok := by
  have begun := h.withState .arming
  have ok := begun.ok nofun nofun
  rw [← State.beginArming_sagView s f r] at begun ok
  rw [State.enterArming_eq]
  split
  · exact enterFault_resting begun.toInStep begun.loaded .alarm
  · exact ⟨begun, ok⟩

/-- A cause of R19 does nothing in OFF and in FAULT, and else the feeder stands down. -/
theorem fault_ok (h : (s.sagView f).Ok) (r : Reason) : ((s.fault f r).sagView f).Ok := by
  by_cases idle : (s.ctl.get f).state = .off ∨ (s.ctl.get f).state = .fault
  · rw [State.fault_idle s f r idle]
    exact h
  · obtain ⟨live, well⟩ := not_or.1 idle
    rw [State.fault_enters s f r live well]
    exact (enterFault_resting h.toInStep (h.loaded_of live) r).2

theorem trackerLost_ok (h : (s.sagView f).Ok) : ((s.trackerLost f).sagView f).Ok := by
  refine State.trackerLost_cases (P := fun t => (t.sagView f).Ok) s f (fun standby => ?_) (fun shed => ?_) fun _ _ => h
  · exact (enterArming_resting (h.resting_of standby nofun nofun nofun nofun) .sync).2
  · have live : (s.sagView f).state ≠ .off := by
      rcases shed with state | state | state <;> exact fun off => nomatch state.symm.trans off
    exact enterShed_ok h.toInStep (h.loaded_of live) _ _

/-- A ride entry leaves the sag record open, and the feeder in RIDE or in SHED (R9). -/
theorem tryEntry_ok (h : (s.sagView f).InStep) (loaded : (s.sagView f).loaded = true) (opened : (s.sagView f).sag = true)
    (ref : Reference) (source : Source) (record : Option Accepted) :
    ((s.tryEntry f ref source record).sagView f).Ok := by
  have asked := State.requestEntry_sagView s f (s.cost f ref * (s.entry f).rideLimit)
  rw [State.tryEntry_eq]
  dsimp only
  split
  · rw [State.placeEngage_sagView, State.takeChosen_sagView, State.rideBegun_sagView, asked]
    exact (h.withState .ride).ok_riding loaded opened (.inr rfl)
  · exact enterShed_ok (by rwa [asked]) (by rwa [asked]) _ _

theorem rideDecision_ok (h : (s.sagView f).Ok) (opened : (s.sagView f).sag = true) (loaded : (s.sagView f).loaded = true) :
    ((s.rideDecision f).sagView f).Ok := by
  have formed := State.formAutofill_sagView s f
  unfold State.rideDecision
  split
  · exact tryEntry_ok h.toInStep loaded opened _ _ _
  split
  · rw [← formed] at h opened loaded
    exact tryEntry_ok h.toInStep loaded opened _ _ _
  · exact h

/-- An onset opens a sag record, and the feeder is in WATCH, RIDE or SHED after it (R7, R15). -/
theorem takeOnset_ok (loaded : (s.sagView f).loaded = true) (v : Verdicts) : ((s.takeOnset f v).sagView f).Ok := by
  have view := State.openSag_sagView s f v.residuals v.interruption
  have opened := (s.sagView f).opened_inStep
  unfold State.takeOnset
  dsimp only
  generalize s.openSag f v.residuals v.interruption = m at view ⊢
  rw [← view] at opened
  have loaded : (m.sagView f).loaded = true := by rw [view]; exact loaded
  have sag : (m.sagView f).sag = true := by rw [view]; rfl
  have watch := State.setState_sagView m f .watch .onset
  split
  · exact enterShed_ok opened loaded _ _
  split
  · refine rideDecision_ok ?_ ?_ ?_ <;> rw [watch]
    exacts [(opened.withState .watch).ok_riding loaded sag (.inl rfl), sag, loaded]
  · exact enterShed_ok opened loaded _ _

end

end Sys2Proof.Machine
end

section
namespace Sys2Proof.Machine

/-! ## The boundary (R6-R11, R15, R16, R134-R136) -/

section

variable {s : State} {f : Fid}

theorem flagInterruption_sagView (s : State) (f : Fid) : (s.flagInterruption f).sagView = s.sagView :=
  State.onSag_sagView s f _

theorem armingBoundary_ok (h : (s.sagView f).Ok) (state : (s.sagView f).state = .arming) :
    ((s.armingBoundary f).sagView f).Ok := by
  unfold State.armingBoundary
  split
  · rw [State.setState_sagView]
    exact ((h.resting_of state nofun nofun nofun nofun).withState .standby).ok nofun nofun
  · rwa [State.placeRequest_sagView]

theorem standbyBoundary_ok (h : (s.sagView f).Ok) (state : (s.sagView f).state = .standby) (v : Verdicts) :
    ((s.standbyBoundary f v).sagView f).Ok := by
  have rest := h.resting_of state nofun nofun nofun nofun
  unfold State.standbyBoundary
  split
  · exact takeOnset_ok rest.loaded v
  split
  · exact (enterArming_resting rest .invalid).2
  · exact h

theorem recoverBoundary_ok (h : (s.sagView f).Ok) (state : (s.sagView f).state = .recover) (v : Verdicts) :
    ((s.recoverBoundary f v).sagView f).Ok := by
  have rest := h.resting_of state nofun nofun nofun nofun
  unfold State.recoverBoundary
  split
  · exact takeOnset_ok rest.loaded v
  split
  · exact enterShed_ok rest.toInStep rest.loaded _ _
  · exact h

/-- The end that an invalid run or an interruption brings to a feeder in WATCH or RIDE (R8, R10). -/
theorem interrupted_ok (h : (s.sagView f).Ok) (loaded : (s.sagView f).loaded = true) :
    (((s.flagInterruption f).enterShed f .interruption .notRiding).sagView f).Ok := by
  rw [← flagInterruption_sagView s f] at h loaded
  exact enterShed_ok h.toInStep loaded _ _

theorem watchBoundary_ok (h : (s.sagView f).Ok) (state : (s.sagView f).state = .watch) (v : Verdicts) :
    ((s.watchBoundary f v).sagView f).Ok := by
  obtain ⟨opened, loaded⟩ := h.opened_of state (.inl rfl)
  unfold State.watchBoundary
  split
  · exact enterShed_ok h.toInStep loaded _ _
  split
  · exact interrupted_ok h loaded
  split
  · dsimp only
    rw [State.endPending_sagView, State.setState_sagView, State.endSag_sagView]
    exact ((h.toInStep.ended loaded).withState .standby).ok nofun nofun
  · exact rideDecision_ok h opened loaded

theorem rideBoundary_ok (h : (s.sagView f).Ok) (state : (s.sagView f).state = .ride) (v : Verdicts) :
    ((s.rideBoundary f v).sagView f).Ok := by
  obtain ⟨opened, loaded⟩ := h.opened_of state (.inr rfl)
  unfold State.rideBoundary
  split
  · exact enterShed_ok h.toInStep loaded _ _
  split
  · exact interrupted_ok h loaded
  split
  · dsimp only
    rw [State.endPending_sagView, State.placeRelease_sagView, State.setState_sagView, State.endSag_sagView,
      State.stopSource_sagView, State.releaseEnergy_sagView]
    exact ((h.toInStep.ended loaded).withState .recover).ok nofun nofun
  split
  · exact enterShed_ok h.toInStep loaded _ _
  · rwa [State.chooseReference_sagView]

theorem shedBoundary_ok (h : (s.sagView f).Ok) (state : (s.sagView f).state = .shed) (v : Verdicts) :
    ((s.shedBoundary f v).sagView f).Ok := by
  have loaded := h.loaded_of (state ▸ nofun)
  unfold State.shedBoundary
  split
  · rw [State.openSag_sagView]
    exact (s.sagView f).opened_inStep.ok_shed loaded state
  split
  · rw [State.endSag_sagView]
    exact (h.toInStep.ended loaded).toInStep.ok_shed loaded state
  split
  · rwa [flagInterruption_sagView]
  · exact h

theorem actOn_ok (h : (s.sagView f).Ok) (v : Verdicts) : ((s.actOn f v).sagView f).Ok := by
  unfold State.actOn
  split
  case h_1 => exact h
  case h_2 state => exact armingBoundary_ok h state
  case h_3 state => exact standbyBoundary_ok h state v
  case h_4 state => exact watchBoundary_ok h state v
  case h_5 state => exact rideBoundary_ok h state v
  case h_6 state => exact recoverBoundary_ok h state v
  case h_7 state => exact shedBoundary_ok h state v
  case h_8 => exact h

/-- A quiet counter runs with no sag record open, so the episode that it expires leaves none behind (R134, R135). -/
theorem closeEpisode_ok (h : (s.sagView f).Ok) (running : (s.sagView f).episode = some true) (k : CloseCause) :
    ((s.closeEpisode f k).sagView f).Ok := by
  rw [State.closeEpisode_sagView]
  exact ⟨h.toInStep.noEpisode (h.quiet running), h.riding, h.place, h.off⟩

theorem expire_ok (h : (s.sagView f).Ok) (running : (s.sagView f).episode = some true) :
    ((s.expire f).sagView f).Ok := by
  by_cases shed : (s.ctl.get f).state = .shed
  · have loaded := h.loaded_of (fun off => nomatch shed.symm.trans off)
    have rest : ((s.closeEpisode f .window).sagView f).Resting := by
      rw [State.closeEpisode_sagView]
      exact ⟨h.toInStep.noEpisode (h.quiet running), h.quiet running, loaded⟩
    rw [expire_of_shed shed]
    exact (enterArming_resting rest .episodeClosed).2
  · rw [expire_of_not_shed shed]
    exact closeEpisode_ok h running .window

theorem expireThenAct_ok (h : (s.sagView f).Ok) (running : (s.sagView f).episode = some true) (v : Verdicts) :
    ((s.expireThenAct f v).sagView f).Ok := by
  by_cases shed : (s.ctl.get f).state = .shed
  · rw [expireThenAct_of_shed v shed]
    exact expire_ok h running
  · rw [expireThenAct_of_not_shed v shed]
    exact actOn_ok (closeEpisode_ok h running .window) v

theorem actThenExpire_ok (h : (s.sagView f).Ok) (v : Verdicts) : ((s.actThenExpire f v).sagView f).Ok := by
  have acted := actOn_ok h v
  unfold State.actThenExpire
  dsimp only
  split
  · next running => exact expire_ok acted ((quietCounter_isSome_iff _ f).1 running)
  · exact acted

theorem quietExpires_running (h : s.quietExpires f = true) : (s.sagView f).episode = some true := by
  rw [← quietCounter_isSome_iff]
  unfold State.quietExpires at h
  split at h
  · cases h
  · next running => rw [running]; rfl

theorem verdictsAndQuiet_ok (h : (s.sagView f).Ok) (v : Verdicts) : ((s.verdictsAndQuiet f v).sagView f).Ok := by
  unfold State.verdictsAndQuiet
  split
  · next expires =>
    have running := quietExpires_running expires
    split
    · dsimp only [State.drawOrder]
      split
      · exact expireThenAct_ok (s := { s with draws := s.draws + 1 }) h running v
      · exact actThenExpire_ok (s := { s with draws := s.draws + 1 }) h v
    · exact expireThenAct_ok h running v
  · rw [← State.advanceQuiet_sagView s f] at h
    exact actOn_ok h v

theorem boundary_ok (h : (s.sagView f).Ok) (v : Verdicts) : ((s.boundary f v).sagView f).Ok := by
  by_cases off : (s.ctl.get f).state = .off
  · rw [State.boundary, if_pos off]
    exact h
  · rw [boundary_live v off, State.endLate_sagView]
    rw [← State.closedHalf_sagView s f v] at h
    exact verdictsAndQuiet_ok h v

end

end Sys2Proof.Machine
end

section
namespace Sys2Proof.Machine

/-! ## Events that keep every feeder's sag record where it may stand -/

/-- From `s` to `t` the invariant is kept at every feeder. -/
def SagKept (s t : State) : Prop := ∀ f, (s.sagView f).Ok → (t.sagView f).Ok

namespace SagKept

variable {s t u : State}

theorem of_view (view : t.sagView = s.sagView) : SagKept s t := fun f ok => by rwa [view]

theorem refl (s : State) : SagKept s s := fun _ ok => ok

theorem trans (h : SagKept s t) (k : SagKept t u) : SagKept s u := fun f ok => k f (h f ok)

theorem andView (h : SagKept s t) (view : u.sagView = t.sagView) : SagKept s u := h.trans (.of_view view)

theorem afterView (view : t.sagView = s.sagView) (h : SagKept t u) : SagKept s u := (of_view view).trans h

theorem of_own {f : Fid} (others : ∀ g, g ≠ f → t.sagView g = s.sagView g)
    (own : (s.sagView f).Ok → (t.sagView f).Ok) : SagKept s t := by
  intro g ok
  by_cases same : g = f
  · exact same ▸ own (same ▸ ok)
  · rwa [others g same]

theorem of_beside {f : Fid} (beside : Beside f s t) (own : (s.sagView f).Ok → (t.sagView f).Ok) : SagKept s t :=
  of_own (fun _ ne => beside.sagView ne) own

end SagKept

section

variable (s : State) (f : Fid)

theorem fault_kept (r : Reason) : SagKept s (s.fault f r) := by
  refine .of_own (fun g ne => ?_) fun ok => fault_ok ok r
  by_cases idle : (s.ctl.get f).state = .off ∨ (s.ctl.get f).state = .fault
  · rw [State.fault_idle s f r idle]
  · obtain ⟨live, well⟩ := not_or.1 idle
    rw [State.fault_enters s f r live well]
    exact (State.enterFault_beside s f r).sagView ne

theorem trackerLost_kept : SagKept s (s.trackerLost f) := .of_beside (State.trackerLost_beside s f) trackerLost_ok

theorem boundary_kept (v : Verdicts) : SagKept s (s.boundary f v) := by
  have table := (State.boundary_moves s f v .refl).table
  refine .of_own (fun g ne => ?_) fun ok => boundary_ok ok v
  obtain ⟨ctl, -, -, evals⟩ := boundary_others (v := v) ne
  unfold State.sagView
  rw [ctl, evals, table]

/-! ### Instants and groups (R26-R33, R40, R54) -/

theorem reportSync_kept (old : Tracker) : SagKept s (s.reportSync f old) := by
  unfold State.reportSync
  dsimp only
  split
  · exact .refl s
  split
  · exact .afterView (State.recordSync_sagView s f old _) (trackerLost_kept _ f)
  · exact .of_view (State.recordSync_sagView s f old _)

theorem atBoundary_kept (old : Tracker) (jump : Option Int) (closed : Accum) :
    SagKept s (s.atBoundary f old jump closed) := by
  have half := State.closeHalfCycle_sagView ((s.reportSync f old).reportJump f old.sync jump) f closed
  rw [State.reportJump_sagView] at half
  exact (((reportSync_kept s f old).andView half).trans (boundary_kept _ f _)).andView (State.asEventOf_sagView s f _)

theorem onAnswer_kept (old : Tracker) (a : TrackAnswer) (jump : Option Int) :
    SagKept s (s.onAnswer f old a jump) := by
  cases a with
  | noBoundary => exact .refl s
  | countStarted => exact .refl s
  | boundaryHere => exact atBoundary_kept (s.putMonitor f _) f old jump _
  | boundaryAtN => exact atBoundary_kept (s.putMonitor f _) f old jump _

theorem takeInstant_kept (x : Instant) : SagKept s (s.takeInstant f x) :=
  .afterView (State.putTracker_sagView s f _) (onAnswer_kept _ f _ _ _)

theorem takeInstants_kept (xs : List Instant) : SagKept s (s.takeInstants f xs) :=
  List.foldlRecOn (motive := SagKept s) xs _ (.refl s) fun _ h x _ => h.trans (takeInstant_kept _ f x)

theorem samplerRestart_kept : SagKept s (s.samplerRestart f) := by
  have sought : SagKept s ((s.putMonitor f (s.monitors.get f).clearCounts).sendToSeek f .restart) :=
    .of_view (State.sendToSeek_sagView _ f .restart)
  refine .andView ?_ (State.asEventOf_sagView _ f _)
  dsimp only
  split
  · exact sought
  · exact sought.trans (trackerLost_kept _ f)

theorem beforeOwn_kept (c : GroupClass) (last : Phases Sample) : SagKept s (s.beforeOwn f c last) := by
  cases c with
  | bridged g => exact (takeInstants_kept s f _).andView (State.onSag_sagView _ f _)
  | restart => exact samplerRestart_kept s f
  | first => exact .refl s
  | normal => exact .refl s
  | unbridged => exact .refl s

theorem restartSilence_sagView : (s.restartSilence f).sagView = s.sagView := by
  unfold State.restartSilence
  split <;> rfl

theorem completeGroup_kept (v : Word) : SagKept s (s.completeGroup f v) :=
  (((SagKept.of_view (State.putMonitor_sagView s f _)).trans (beforeOwn_kept _ f _ _)).trans
    (takeInstant_kept _ f _)).andView ((restartSilence_sagView _ f).trans (State.putMonitor_sagView _ f _))

theorem sampleWrite_kept (place : BitVec 2) (be : BitVec 4) (v : Word) : SagKept s (s.sampleWrite f place be v) := by
  unfold State.sampleWrite
  dsimp only
  split
  · exact .refl s
  · exact .refl s
  · exact .refl s
  split
  · exact completeGroup_kept s f v
  · exact .refl s

theorem silenceExpires_kept : SagKept s (s.silenceExpires f) := by
  unfold State.silenceExpires
  split
  · exact .refl s
  · refine .andView ?_ (State.asEventOf_sagView s f _)
    exact (fault_kept s f .noSamples).andView (State.sendToSeek_sagView _ f .silence)

/-! ### Replies, notices, alarms and clear requests (R13-R15, R17, R20, R21) -/

/-- A change of state from one in which no sag record may be open to another. -/
theorem setState_kept {x y : FeederState} (r : Reason) (state : (s.ctl.get f).state = x)
    (rests : x ≠ .off ∧ x ≠ .watch ∧ x ≠ .ride ∧ x ≠ .shed) (watch : y ≠ .watch) (ride : y ≠ .ride) :
    SagKept s (s.setState f y r) := by
  obtain ⟨live, notWatch, notRide, notShed⟩ := rests
  refine .of_beside (State.setState_steady s f y r).toBeside fun ok => ?_
  rw [State.setState_sagView]
  exact ((ok.resting_of state live notWatch notRide notShed).withState y).ok watch ride

theorem line_then_fault_kept (code : ResultCode) (r : Reason) : SagKept s ((s.settleLine f code none).fault f r) :=
  .afterView (State.settleLine_sagView s f code none) (fault_kept _ f r)

theorem engageNotReady_kept : SagKept s (s.engageNotReady f) := by
  have counted : (s.putCtl f { s.ctl.get f with notReadyRun := min 4 ((s.ctl.get f).notReadyRun + 1) }).sagView =
      s.sagView := sagView_putCtl fun _ _ => rfl
  have settled := (State.settleLine_sagView _ f .refusedByModulator none).trans counted
  unfold State.engageNotReady
  dsimp only
  split
  · exact .afterView settled (fault_kept _ f .modulator)
  · exact .of_view settled

theorem engageReply_kept (ref : Reference) (hc : BitVec 8) (source : Source) (r : Reply) :
    SagKept s (s.engageReply f ref hc source r) := by
  unfold State.engageReply
  split
  · cases r with
    | done applied => exact .of_view (State.engageDone_sagView s f ref hc source applied)
    | notReady => exact engageNotReady_kept s f
    | hot => exact line_then_fault_kept s f _ _
    | status _ => exact .refl s
  · cases r with
    | done applied => exact .of_view (State.settleLine_sagView s f _ _)
    | notReady => exact .of_view (State.settleLine_sagView s f _ _)
    | hot => exact line_then_fault_kept s f _ _
    | status _ => exact .refl s

theorem released_kept : SagKept s (s.released f) := by
  unfold State.released
  split
  · next state => exact setState_kept s f _ state ⟨nofun, nofun, nofun, nofun⟩ nofun nofun
  · exact .refl s

theorem releaseReply_kept (r : Reply) : SagKept s (s.releaseReply f r) := by
  cases r with
  | done _ => exact released_kept s f
  | notReady => exact released_kept s f
  | hot => exact fault_kept s f .modulator
  | status _ => exact .refl s

theorem statusReply_kept (r : Reply) : SagKept s (s.statusReply f r) := by
  have ready := fun b => SagKept.of_view (State.setReady_sagView s f b)
  unfold State.statusReply
  split
  · dsimp only
    split
    · next state => exact (ready true).trans (setState_kept _ f _ state.1 ⟨nofun, nofun, nofun, nofun⟩ nofun nofun)
    · exact ready true
  · exact ready false
  · exact fault_kept s f .modulator
  · exact ready false
  · exact fault_kept s f .modulator
  · exact .refl s

theorem takeNotice_kept : SagKept s (s.takeNotice f) := by
  unfold State.takeNotice
  split
  · exact .refl s
  · refine .andView ?_ (State.asEventOf_sagView s f _)
    dsimp only
    split
    · next state =>
      refine .of_beside (s := s.clearNotice f) (State.enterShed_steady _ f _ _).toBeside fun ok => ?_
      exact enterShed_ok ok.toInStep (ok.opened_of state (.inr rfl)).2 _ _
    · exact .refl s

theorem alarm_kept : SagKept s (s.alarm f) :=
  (fault_kept { s with malm := s.malm.set f true } f .alarm).andView (State.asEventOf_sagView _ f _)

theorem clearFeeder_kept : SagKept s (s.clearFeeder f) := by
  unfold State.clearFeeder
  split
  · next state =>
    split
    · exact .of_view (State.handRecord_sagView s _)
    · refine .of_beside (State.enterArming_beside s f .cleared) fun ok => ?_
      exact (enterArming_resting (ok.resting_of state nofun nofun nofun nofun) .cleared).2
  · exact .refl s

end

theorem clearWord_kept (s : State) (be : BitVec 4) (v : Word) : SagKept s (s.clearWord be v) := by
  unfold State.clearWord
  split
  · refine List.foldlRecOn (motive := SagKept s) _ _ (.refl s) fun t h f _ => ?_
    split
    · exact h.trans (clearFeeder_kept t f)
    · exact h
  · exact .refl s

theorem handReply_kept (s : State) (x : Exchange) (r : Reply) : SagKept s (s.handReply x r) := by
  refine .andView ?_ (State.asEventOf_sagView s x.feeder _)
  split
  · exact engageReply_kept s _ _ _ _ r
  · exact releaseReply_kept s _ r
  · exact statusReply_kept s _ r

theorem ladderFailed_kept (s : State) (x : Exchange) : SagKept s (s.ladderFailed x) :=
  (line_then_fault_kept s x.feeder .linkFailed .link).andView (State.asEventOf_sagView s x.feeder _)

theorem lineSettle_sagView (s : State) (x : Option Exchange) : (s.lineSettle x).sagView = s.sagView := rfl

theorem failAttempt_sagView (s : State) (c : LinkCause) : (s.failAttempt c).1.sagView = s.sagView := by
  unfold State.failAttempt
  split
  · rfl
  split
  · rfl
  split <;> rfl

theorem attemptFails_kept (s : State) (c : LinkCause) : SagKept s (s.attemptFails c) := by
  have failed := failAttempt_sagView s c
  unfold State.attemptFails
  split
  · next e => exact .of_view (by rwa [e] at failed)
  · next e => exact .afterView (by rwa [e] at failed) (ladderFailed_kept _ _)

theorem replyComplete_kept (s : State) (bytes : List Byte) (stops : Bool) : SagKept s (s.replyComplete bytes stops) := by
  unfold State.replyComplete
  split
  · have settled := lineSettle_sagView s none
    split
    · exact .of_view settled
    split
    · exact attemptFails_kept s _
    split
    · exact .of_view settled
    · exact .afterView settled (handReply_kept _ _ _)
  · exact .refl s

theorem responseTimeout_kept (s : State) : SagKept s s.responseTimeout := by
  unfold State.responseTimeout
  split
  · exact attemptFails_kept s _
  · exact .refl s

theorem replyBreakOff_kept (s : State) : SagKept s s.replyBreakOff := by
  unfold State.replyBreakOff
  split
  · exact attemptFails_kept s _
  · exact .refl s

end Sys2Proof.Machine
end

section
namespace Sys2Proof.Machine

/-! ## Installations (R22, R169, R172) -/

/-- A feeder at which a table installation leaves no sag record open. -/
def NoSag (s : State) (f : Fid) : Prop := (s.sagView f).Resting ∧ (s.sagView f).Ok

/-- A feeder in one of these states has no sag record open (R129). -/
theorem noSag_of_quiet {s m : State} {f : Fid} (ok : (s.sagView f).Ok) (quiet : (s.ctl.get f).state.quiet = true)
    (loaded : m.sagView f = { s.sagView f with loaded := true }) : NoSag m f := by
  have closed : (s.sagView f).sag = false := by
    by_contra opened
    rcases ok.place (by simpa using opened) with state | state | state <;>
      exact absurd quiet (by rw [show (s.ctl.get f).state = _ from state]; decide)
  have rest : (m.sagView f).Resting := by
    rw [loaded]
    exact ⟨⟨ok.evaluating, ok.counted, ok.quiet⟩, closed, rfl⟩
  refine ⟨rest, rest.ok ?_ ?_⟩ <;> rw [loaded] <;> intro state <;>
    exact absurd quiet (by rw [show (s.ctl.get f).state = _ from state]; decide)

theorem NoSag.of_view {s t : State} {f : Fid} (h : NoSag s f) (view : t.sagView = s.sagView) : NoSag t f := by
  unfold NoSag
  rwa [view]

theorem NoSag.enterArming {s : State} {f : Fid} (h : NoSag s f) (g : Fid) (r : Reason) : NoSag (s.enterArming g r) f := by
  by_cases own : f = g
  · exact own ▸ enterArming_resting (own ▸ h.1) r
  · unfold NoSag
    rwa [(State.enterArming_beside s g r).sagView own]

theorem enterOff_sagView_ne (s : State) {f g : Fid} (ne : f ≠ g) : (s.enterOff g).sagView f = s.sagView f := by
  simp [State.sagView, State.enterOff, State.standDown_ctl, State.standDown_evals, Per8.get_set_ne _ _ ne]

theorem NoSag.enterOff {s : State} {f : Fid} (h : NoSag s f) (g : Fid) : NoSag (s.enterOff g) f := by
  by_cases own : f = g
  · exact own ▸ enterOff_resting (own ▸ h.1.toInStep) (own ▸ h.1.loaded)
  · unfold NoSag
    rwa [enterOff_sagView_ne s own]

theorem NoSag.reloadFeeder {s : State} {f : Fid} (h : NoSag s f) (g : Fid) (was changed : Bool) :
    NoSag (s.reloadFeeder g was changed) f := by
  unfold State.reloadFeeder
  split
  · exact h
  · exact h.enterArming g _
  · exact h.enterOff g
  split
  · exact h.enterArming g _
  · exact h

theorem prepared_sagView (s : State) (sample : Bool) (f : Fid) : (s.prepared sample f).sagView = s.sagView := by
  have abandoned : (s.abandonAssembly f).sagView = s.sagView := by
    unfold State.abandonAssembly
    split
    · rfl
    · exact State.makeResult_sagView _ f _
  have sought : ((s.abandonAssembly f).trackerToSeek f).sagView = (s.abandonAssembly f).sagView := by
    unfold State.trackerToSeek
    dsimp only
    split <;> simp
  unfold State.prepared
  split
  · exact sought.trans abandoned
  · exact abandoned

theorem NoSag.reloadOne {s : State} {f : Fid} (h : NoSag s f) (old : Table) (d : Changes) (g : Fid) :
    NoSag (s.reloadOne old d g) f :=
  ((h.of_view (prepared_sagView s d.sample g)).reloadFeeder g _ _).of_view (State.asEventOf_sagView s g _)

/-- Before its feeders follow, the installing event of a reload leaves their records alone. -/
theorem beforeFeeders_sagView (s : State) (addr : Word) (old new : Table) (f : Fid) :
    (s.beforeFeeders addr old new).sagView f = { s.sagView f with loaded := true } := by
  have blocks := (beforeFeeders_prelude s addr old new).blocks
  have ctl : (s.beforeFeeders addr old new).ctl = s.ctl := (congrArg (fun u : State => u.ctl) blocks :)
  have evals : (s.beforeFeeders addr old new).evals = s.evals := (congrArg (fun u : State => u.evals) blocks :)
  have table : (s.beforeFeeders addr old new).table = some new := (congrArg (fun u : State => u.table) blocks :)
  simp [State.sagView, sagViewOf, ctl, evals, table]

/-- A reload installs its table in quiescence alone, with no sag record open (R170, R171). -/
theorem installReload_kept {s : State} (quiet : s.quiescent = true) (addr : Word) (old new : Table) :
    SagKept s (s.installReload addr old new) := by
  intro f ok
  have still : (s.ctl.get f).state.quiet = true := by
    have feeder := List.all_eq_true.1 quiet f (Fid.mem_all f)
    simp only [State.feederQuiescent, Bool.and_eq_true] at feeder
    exact feeder.1.1.1
  have before := noSag_of_quiet ok still (beforeFeeders_sagView s addr old new f)
  have feeders := List.foldlRecOn (motive := fun t => NoSag t f) Fid.all
    (fun t g => t.reloadOne old (compareTables old new) g) before fun t h g _ => h.reloadOne old _ g
  rw [installReload_eq, State.judgeAttn_sagView]
  exact feeders.2

theorem noneResults_sagView (s : State) : s.noneResults.sagView = s.sagView := by
  refine List.foldlRecOn (motive := fun t : State => t.sagView = s.sagView) Fid.all _ rfl fun t h f _ => ?_
  split
  · rw [State.makeResult_sagView, h]
  · exact h

theorem oweResync_sagView (s : State) : s.oweResync.sagView = s.sagView := by
  unfold State.oweResync
  dsimp only
  split
  · exact State.arbitrateLine_sagView _
  · rfl

/-- The state in which a start-up installation has its enabled feeders go to ARMING. -/
def State.beforeArming (s : State) (addr : Word) (t : Table) : State :=
  let s := { s with table := some t,
                    loader := { s.loader with mode := .active, read := none, image := [], flt := false } }
  ((s.touchAllMirror.handRecord (.tableLoaded addr t.length t.identity t.windows.length false false [])).noneResults).oweResync

theorem installStart_eq (s : State) (addr : Word) (t : Table) :
    s.installStart addr t = (s.beforeArming addr t).armEnabled.judgeAttn := rfl

theorem touchAllMirror_sagView (s : State) : s.touchAllMirror.sagView = s.sagView := by
  obtain ⟨-, blocks, -⟩ := touchMirrors (List.range 40) s
  exact sagView_of_blocks blocks

theorem beforeArming_sagView (s : State) (addr : Word) (t : Table) (f : Fid) :
    (s.beforeArming addr t).sagView f = { s.sagView f with loaded := true } := by
  unfold State.beforeArming
  dsimp only
  rw [oweResync_sagView, noneResults_sagView, State.handRecord_sagView, touchAllMirror_sagView]
  rfl

/-- A start-up installation finds every feeder in OFF (R169). -/
theorem installStart_kept {s : State} (none : s.table = none) (addr : Word) (t : Table) :
    SagKept s (s.installStart addr t) := by
  intro f ok
  have off : (s.ctl.get f).state = .off := ok.off (congrArg Option.isSome none)
  have before := noSag_of_quiet ok (by rw [off]; rfl) (beforeArming_sagView s addr t f)
  have armed : NoSag (s.beforeArming addr t).armEnabled f := by
    refine List.foldlRecOn (motive := fun t => NoSag t f) Fid.all _ before fun m h g _ => ?_
    split
    · exact h.enterArming g _
    · exact h
  rw [installStart_eq, State.judgeAttn_sagView]
  exact armed.2

/-! ## The loader (R165-R172) -/

theorem rejectTable_kept (s : State) (addr : Option Word) (r : Reject) : SagKept s (s.rejectTable addr r) := by
  unfold State.rejectTable
  dsimp only
  split <;> exact .of_view (by simp)

theorem acceptTable_kept (s : State) (addr : Word) (t : Table) : SagKept s (s.acceptTable addr t) := by
  unfold State.acceptTable
  split
  · split
    · next quiet => exact installReload_kept quiet addr _ t
    · exact .of_view (State.putLoader_sagView s _)
  · next none => exact installStart_kept none addr t

theorem endRead_kept (s : State) (addr : Word) : SagKept s (s.endRead addr) := by
  unfold State.endRead
  split
  · exact rejectTable_kept s _ _
  · exact acceptTable_kept s addr _

theorem tableWordRead_kept (s : State) (addr : Word) (index : Nat) (data : Word) :
    SagKept s (s.tableWordRead addr index data) := by
  have read := State.putLoader_sagView s
    { s.loader with image := s.loader.image ++ [data], read := some ⟨some addr, index + 1, 0⟩ }
  unfold State.tableWordRead
  dsimp only
  split
  · exact .afterView read (rejectTable_kept _ _ _)
  split
  · exact .afterView read (endRead_kept _ addr)
  · exact .of_view read

theorem readAnswered_kept (s : State) (r : TableRead) (data : Word) (err : Bool) :
    SagKept s (s.readAnswered r data err) := by
  unfold State.readAnswered
  split
  · split
    · exact rejectTable_kept s _ _
    · exact .of_view (State.putLoader_sagView s _)
  split
  · exact .of_view (State.putLoader_sagView s _)
  · exact tableWordRead_kept s _ _ data

theorem loaderAnswered_kept (s : State) (data : Word) (err : Bool) : SagKept s (s.loaderAnswered data err) := by
  unfold State.loaderAnswered
  split
  · next discard _ =>
    have answered : ∀ p : Prop, [Decidable p] →
        (if p then State.releaseHold { s with bus := { s.bus with port := .free } }
          else { s with bus := { s.bus with port := .free } }).sagView = s.sagView := by
      intro p _
      split <;> rfl
    dsimp only
    split
    · exact .afterView (answered _) (readAnswered_kept _ _ data err)
    · exact .of_view (answered _)
    · exact .of_view (answered _)
  all_goals exact .refl s

/-- A full reset has every feeder in OFF, with no sag record and no episode (R2, R61). -/
theorem fullReset_ok (s : State) (f : Fid) : (s.fullReset.sagView f).Ok := by
  have view : s.fullReset.sagView f =
      { loaded := false, state := .off, sag := false, evaluating := false, episode := none } := by
    fin_cases f <;> rfl
  rw [view]
  exact ⟨⟨rfl, nofun, nofun⟩, fun h => h.elim nofun nofun, nofun, fun _ => rfl⟩

theorem restart_kept (s : State) : SagKept s s.restart := by
  have reset : SagKept s s.fullReset := fun f _ => fullReset_ok s f
  unfold State.restart
  dsimp only
  split
  · exact reset
  · exact reset.andView (State.putLoader_sagView _ _)

theorem loadRequest_sagView (s : State) : s.loadRequest.sagView = s.sagView := by
  unfold State.loadRequest State.beginRead
  split
  · rw [State.putLoader_sagView, State.putLoader_sagView]
  · rfl

theorem startReload_sagView (s : State) : s.startReload.sagView = s.sagView := by
  unfold State.startReload State.beginRead
  split
  · rw [State.putLoader_sagView, State.putLoader_sagView]
  · rfl

theorem requestReload_sagView (s : State) : s.requestReload.sagView = s.sagView := by
  unfold State.requestReload
  split
  · exact State.putLoader_sagView s _
  · rfl
  · exact State.putLoader_sagView s.abandonRead _
  · exact State.putLoader_sagView s _

theorem installHeld_kept (s : State) : SagKept s s.installHeld := by
  unfold State.installHeld
  split
  · next held =>
    split
    · exact installReload_kept held.2 _ _ _
    all_goals exact .refl s
  · exact .refl s

end Sys2Proof.Machine
end

section
namespace Sys2Proof.Machine

/-! ## The writer, the link's intervals and the bus (R118-R124, R140-R164) -/

theorem stagerWrite_sagView (s : State) (f : Fid) (i : Nat) (be : BitVec 4) (v : Word) :
    (s.stagerWrite f i be v).sagView = s.sagView := by
  have word0 : ∀ m : State, (m.aliasWord0 f be v).sagView = m.sagView := by
    intro m
    unfold State.aliasWord0
    dsimp only
    split <;> simp
  have middle : ∀ m : State, (m.aliasMiddle f i be v).sagView = m.sagView := by
    intro m
    unfold State.aliasMiddle
    dsimp only
    split <;> rfl
  have word7 : ∀ m : State, (m.aliasWord7 f be v).sagView = m.sagView := by
    intro m
    unfold State.aliasWord7
    split
    · rfl
    · dsimp only
      split <;> simp [State.acceptRecord]
  unfold State.stagerWrite
  dsimp only
  split
  · exact word0 _
  split
  · exact word7 _
  · exact middle _

theorem dclinkTake_sagView (s : State) (be : BitVec 4) (v : Word) : (s.dclinkTake be v).sagView = s.sagView := by
  have update : ∀ (m : State) (u : Nat), (m.updateUsable u).sagView = m.sagView := by
    intro m u
    unfold State.updateUsable
    dsimp only
    split
    · exact State.putUsable_sagView m _
    · rw [State.handRecord_sagView, State.putUsable_sagView, (shedUntil_accountOnly _ _ _ m).sagView]
  unfold State.dclinkTake
  dsimp only
  split
  · rfl
  split
  · exact update _ _
  · rfl

theorem consumedWord_sagView (s : State) (be : BitVec 4) (v : Word) : (s.consumedWord be v).sagView = s.sagView := by
  unfold State.consumedWord
  split
  · exact State.handRecord_sagView s _
  split
  · exact State.putConsumer_sagView s _
  · exact State.handRecord_sagView s _

theorem reloadWord_sagView (s : State) (be : BitVec 4) (v : Word) : (s.reloadWord be v).sagView = s.sagView := by
  unfold State.reloadWord
  split
  · rfl
  · exact (startReload_sagView _).trans (requestReload_sagView s)

theorem controlTake_kept (s : State) (offset : Word) (be : BitVec 4) (v : Word) : SagKept s (s.controlTake offset be v) := by
  unfold State.controlTake
  split
  · exact clearWord_kept s be v
  · exact .of_view (reloadWord_sagView s be v)
  · exact .of_view (consumedWord_sagView s be v)
  · exact .of_view (State.putSummary_sagView s _)
  · exact .refl s

theorem windowTake_kept (s : State) (w : WindowEntry) (x : Access) : SagKept s (s.windowTake w x) := by
  unfold State.windowTake
  split
  · exact sampleWrite_kept s _ _ _ _
  · exact .of_view (dclinkTake_sagView s _ _)
  · exact .of_view (stagerWrite_sagView s _ _ _ _)
  · exact controlTake_kept s _ _ _
  all_goals exact .refl s

theorem handOff_kept (s : State) (cls : AccessClass) (x : Access) : SagKept s (s.handOff cls x) := by
  unfold State.handOff State.startBlockTake
  split
  · split
    · split
      · split
        · exact restart_kept s
        split
        · exact .of_view (loadRequest_sagView s)
        · exact .refl s
      · exact .refl s
    · exact .refl s
  · exact .refl s
  · exact windowTake_kept s _ x

theorem takeAccess_kept (s : State) (x : Access) : SagKept s (s.takeAccess x) := by
  unfold State.takeAccess
  dsimp only
  split
  · unfold State.admitAccess
    dsimp only
    split
    · refine .trans ?_ (handOff_kept _ _ x)
      exact .of_view rfl
    · exact .refl s
  · exact .of_view (State.handRecord_sagView _ _)

theorem givePort_kept (s : State) {again : State → State} (kept : ∀ t, SagKept t (again t)) :
    SagKept s (s.givePort again) := by
  have passed : ∀ t, t.sagView = s.sagView → SagKept s (again t) := fun t view => .afterView view (kept t)
  unfold State.givePort
  split
  · split
    · split
      · next x rest _ =>
        exact .trans (t := State.takeAccess { s with bus := { s.bus with waiting := rest } } x)
          (.afterView (t := { s with bus := { s.bus with waiting := rest } }) rfl (takeAccess_kept _ x)) (kept _)
      · exact .of_view (sagView_of_offPort (State.gapChoice_offPort s))
    · split
      · exact .of_view rfl
      · exact passed s.endBurst rfl
    · split
      · split
        · exact passed s.releaseHold rfl
        · exact .of_view rfl
      · exact passed s.releaseHold rfl
  · exact .refl s

theorem arbitrate_kept (fuel : Nat) (s : State) : SagKept s (s.arbitrate fuel) := by
  induction fuel generalizing s with
  | zero => exact .refl s
  | succ fuel ih => exact .afterView (sagView_of_offPort (State.judgeHold_offPort s)) (givePort_kept _ ih)

theorem finish_kept (s : State) : SagKept s s.finish :=
  (arbitrate_kept _ s).andView
    (sagView_of_offPort ((State.setGapTimer_offPort _).trans (State.startRecord_offPort _)))

/-! ### A word of the writer completes (R152, R157, R159, R162) -/

theorem giveUp_sagView (s : State) : s.giveUp.sagView = s.sagView := by
  unfold State.giveUp State.countDrop
  dsimp only
  rw [State.deferBurst_sagView, State.raise_sagView]
  exact sagView_congr rfl rfl rfl

theorem endBurst_sagView (s : State) : s.endBurst.sagView = s.sagView := sagView_congr rfl rfl rfl

theorem recordError_sagView (s : State) (burst : Bool) : (s.recordError burst).sagView = s.sagView := by
  have gaveUp := giveUp_sagView s
  unfold State.recordError
  split
  · rfl
  split
  · generalize s.giveUp = given at gaveUp ⊢
    cases burst
    case false => exact gaveUp
    case true => exact (endBurst_sagView given).trans gaveUp
  · exact sagView_congr rfl rfl rfl

theorem recordWritten_sagView (s : State) (k : Nat) : (s.recordWritten k).sagView = s.sagView := by
  unfold State.recordWritten
  split
  · rfl
  split
  · unfold State.recordDone
    rw [State.deferBurst_sagView, State.putProducer_sagView]
    exact sagView_congr rfl rfl rfl
  · rfl

theorem recordWordComplete_sagView (s : State) (w : WriterWord) (k : Nat) (err : Bool) :
    (s.recordWordComplete w k err).sagView = s.sagView := by
  unfold State.recordWordComplete
  split
  · exact recordError_sagView s _
  split
  · split
    · unfold State.movedBurstWritten
      split <;> rfl
    · exact recordWritten_sagView s k
  · exact recordWritten_sagView s k
  split
  · rfl
  · exact recordWritten_sagView s k

theorem mirrorWordComplete_sagView (s : State) (w : WriterWord) (i : Nat) (err : Bool) :
    (s.mirrorWordComplete w i err).sagView = s.sagView := by
  have cleaned : (s.cleanMirror w i).sagView = s.sagView := by
    unfold State.cleanMirror
    split <;> rfl
  have published : ((s.cleanMirror w i).publish w i).sagView = (s.cleanMirror w i).sagView := by
    unfold State.publish
    split <;> rfl
  unfold State.mirrorWordComplete
  dsimp only
  split <;> split
  · rfl
  · exact published.trans cleaned
  · rfl
  · exact published.trans cleaned

theorem writerAnswered_sagView (s : State) (err : Bool) : (s.writerAnswered err).sagView = s.sagView := by
  have completed : ∀ (m : State) (w : WriterWord), (m.wordComplete w err).sagView = m.sagView := by
    intro m w
    unfold State.wordComplete
    split
    · exact recordWordComplete_sagView m w _ err
    · exact mirrorWordComplete_sagView m w _ err
    · unfold State.resultWordComplete
      split <;> rfl
  unfold State.writerAnswered
  split
  · dsimp only
    split
    · rfl
    · exact completed _ _
  all_goals rfl

theorem upstreamAnswered_sagView (s : State) (data : Word) (err : Bool) :
    (s.upstreamAnswered data err).sagView = s.sagView := by
  unfold State.upstreamAnswered
  split <;> rfl

/-! ### The line's intervals -/

theorem frameEnd_sagView (s : State) : s.frameEnd.sagView = s.sagView := by
  unfold State.frameEnd
  split <;> rfl

theorem replyStart_sagView (s : State) : s.replyStart.sagView = s.sagView := by
  unfold State.replyStart
  split <;> rfl

theorem resyncEnd_sagView (s : State) : s.resyncEnd.sagView = s.sagView := by
  unfold State.resyncEnd
  split <;> rfl

theorem quietEnd_sagView (s : State) : s.quietEnd.sagView = s.sagView := by
  unfold State.quietEnd
  split
  · split
    · rfl
    split <;> rfl
  all_goals rfl

theorem settleEnd_sagView (s : State) : s.settleEnd.sagView = s.sagView := by
  unfold State.settleEnd
  split
  · split
    · exact State.arbitrateLine_sagView _
    split
    · exact State.arbitrateLine_sagView _
    split
    · rfl
    · exact State.handRecord_sagView _ _
  all_goals rfl

/-! ## Every step -/

theorem initReleased_sagView (s : State) : s.initReleased.sagView = s.sagView := by
  unfold State.initReleased State.beginRead
  dsimp only
  split
  · exact State.putLoader_sagView _ _
  · rfl

theorem gapTimeout_sagView (s : State) : s.gapTimeout.sagView = s.sagView := by
  unfold State.gapTimeout
  split <;> rfl

theorem holdWriter_sagView (s : State) : s.holdWriter.sagView = s.sagView := by
  unfold State.holdWriter
  split <;> rfl

theorem holdLoader_sagView (s : State) : s.holdLoader.sagView = s.sagView := by
  unfold State.holdLoader
  split <;> rfl

theorem tick_sagView (s : State) : s.tick.sagView = s.sagView := by
  unfold State.tick
  split <;> rfl

theorem exec_kept {c : Instr} {s t : State} (h : exec c s = .next t) : SagKept s t := by
  have done : ∀ u : State, SagKept s u → u.done = .next t → SagKept s t := by
    intro u kept e
    obtain rfl : u.finish = t := by injection e
    exact kept.trans (finish_kept u)
  cases access : accessOf c with
  | some x =>
    rw [exec_access c x s access] at h
    exact done (s.present x) (.refl s) h
  | none =>
    cases c
    case powerOn init => exact done _ (.afterView rfl (restart_kept { s with init := init })) h
    case initAssert => exact done _ (fun f _ => fullReset_ok { s with init := true } f) h
    case initRelease => exact done _ (.of_view (initReleased_sagView s)) h
    case upstreamAccessComplete data err => exact done _ (.of_view (upstreamAnswered_sagView s data err)) h
    case malmAssert f => exact done _ (alarm_kept s f) h
    case malmRelease f => exact done { s with malm := s.malm.set f false } (.of_view rfl) h
    case silenceExpiry f => exact done _ (silenceExpires_kept s f) h
    case shedNoticeTaken f => exact done _ (takeNotice_kept s f) h
    case frameEnd => exact done _ (.of_view (frameEnd_sagView s)) h
    case replyStart => exact done _ (.of_view (replyStart_sagView s)) h
    case responseTimeout => exact done _ (responseTimeout_kept s) h
    case replyComplete bytes stops => exact done _ (replyComplete_kept s bytes stops) h
    case replyBreakOff => exact done _ (replyBreakOff_kept s) h
    case settleEnd => exact done _ (.of_view (settleEnd_sagView s)) h
    case resyncEnd => exact done _ (.of_view (resyncEnd_sagView s)) h
    case quietEnd => exact done _ (.of_view (quietEnd_sagView s)) h
    case writerWordComplete err => exact done _ (.of_view (writerAnswered_sagView s err)) h
    case loaderReadComplete data err => exact done _ (loaderAnswered_kept s data err) h
    case writerBurstHold => exact done _ (.of_view (holdWriter_sagView s)) h
    case loaderGapTimeout => exact done _ (.of_view (gapTimeout_sagView s)) h
    case loaderHold => exact done _ (.of_view (holdLoader_sagView s)) h
    case reloadReadStart => exact done _ (.of_view (startReload_sagView s)) h
    case heldImageInstall => exact done _ (installHeld_kept s) h
    all_goals cases access

theorem step_kept {s t : State} (h : step s = .next t) : SagKept s t := by
  unfold step at h
  split at h
  · obtain rfl : s.tick = t := by injection h
    exact .of_view (tick_sagView s)
  · next c rest _ => exact .afterView (t := { s with pending := rest }) rfl (exec_kept h)

/-- Settles O60: the invariant is read off the view of each feeder, and every step keeps it at every feeder. -/
theorem sagRecordsFollowStates : Obligations.SagRecordsFollowStates := by
  intro s t inv stepped
  rw [sagInv_iff] at inv ⊢
  exact fun f => step_kept stepped f (inv f)

end Sys2Proof.Machine
end


section
namespace Sys2Proof.Machine

/-! ## Counters along a curve (R59, R61, R63) -/

theorem strictlyDecreasing_iff_isChain (curve : List Breakpoint) :
    strictlyDecreasing curve = true ↔ curve.IsChain fun b b' => b'.level < b.level ∧ b'.duration < b.duration := by
  induction curve with
  | nil => simp [strictlyDecreasing]
  | cons b rest ih =>
    cases rest with
    | nil => simp [strictlyDecreasing]
    | cons b' rest' =>
      rw [List.isChain_cons_cons, ← ih]
      simp [strictlyDecreasing]

theorem pairwise_level_of_strictlyDecreasing {curve : List Breakpoint} (ordered : strictlyDecreasing curve = true) :
    curve.Pairwise fun b b' => b'.level < b.level := by
  have chain := ((strictlyDecreasing_iff_isChain curve).mp ordered).imp fun _ _ lower => lower.1
  exact List.pairwise_map.mp ((List.isChain_map Breakpoint.level (R := (· > ·))).mpr chain).pairwise

section
variable (curve : List Breakpoint) (rmin : Nat) (counters : List Nat)

theorem advanceCounters_length (fits : curve.length ≤ counters.length) :
    (advanceCounters curve rmin counters).length = counters.length := by
  fun_induction advanceCounters curve rmin counters with
  | case1 b curve c counters ih => simpa using ih (by simpa using fits)
  | case2 => rfl
  | case3 => simp at fits

/-- R61, R63: the counters the curve does not have stay as they are. -/
theorem advanceCounters_getElem?_of_length_le {i : Nat} (fits : curve.length ≤ counters.length)
    (past : curve.length ≤ i) : (advanceCounters curve rmin counters)[i]? = counters[i]? := by
  fun_induction advanceCounters curve rmin counters generalizing i with
  | case1 b curve c counters ih =>
    cases i with
    | zero => simp at past
    | succ i => simpa using ih (by simpa using fits) (by simpa using past)
  | case2 => rfl
  | case3 => simp at fits

/-- R63: a counter of the curve moves by its own breakpoint alone. -/
theorem advanceCounters_getElem?_of_getElem? {i : Nat} {b : Breakpoint} {c : Nat} (breakpoint : curve[i]? = some b)
    (counter : counters[i]? = some c) :
    (advanceCounters curve rmin counters)[i]? = some (if rmin < b.level then min 1024 (c + 1) else c) := by
  fun_induction advanceCounters curve rmin counters generalizing i with
  | case1 b' curve c' counters ih =>
    cases i with
    | zero =>
      obtain rfl : b' = b := by simpa using breakpoint
      obtain rfl : c' = c := by simpa using counter
      simp [Breakpoint.applies]
    | succ i => simpa using ih (by simpa using breakpoint) (by simpa using counter)
  | case2 => simp at breakpoint
  | case3 => simp at counter

theorem advanceCounters_eq_self (fits : curve.length ≤ counters.length) (noneApplies : ∀ b ∈ curve, b.level ≤ rmin) :
    advanceCounters curve rmin counters = counters := by
  fun_induction advanceCounters curve rmin counters with
  | case1 b curve c counters ih =>
    obtain ⟨here, later⟩ := List.forall_mem_cons.mp noneApplies
    rw [ih (by simpa using fits) later]
    simp [Breakpoint.applies, here]
  | case2 => rfl
  | case3 => simp at fits

/-- A half-cycle takes no counter more than 1 above a bound, nor above 1024. -/
theorem advanceCounters_le {m : Nat} (low : m ≤ 1024) (bound : ∀ c ∈ counters, c ≤ m) :
    ∀ c ∈ advanceCounters curve rmin counters, c ≤ min 1024 (m + 1) := by
  fun_induction advanceCounters curve rmin counters with
  | case1 b curve c counters ih =>
    obtain ⟨here, later⟩ := List.forall_mem_cons.mp bound
    refine List.forall_mem_cons.mpr ⟨?_, ih later⟩
    split <;> omega
  | case2 counters =>
    intro c mem
    have := bound c mem
    omega
  | case3 => simp

/-- Where a breakpoint does not apply no later one does either, so nothing after it moves; where it applies, the counters
after it rise by no more than its own does. -/
theorem advanceCounters_pairwise (levels : curve.Pairwise fun b b' => b'.level < b.level)
    (sorted : counters.Pairwise fun a b => b ≤ a) (bound : ∀ c ∈ counters, c ≤ 1024)
    (fits : curve.length ≤ counters.length) :
    (advanceCounters curve rmin counters).Pairwise fun a b => b ≤ a := by
  fun_induction advanceCounters curve rmin counters with
  | case1 b curve c counters ih =>
    obtain ⟨below, levels⟩ := List.pairwise_cons.mp levels
    obtain ⟨largest, sorted⟩ := List.pairwise_cons.mp sorted
    obtain ⟨small, bound⟩ := List.forall_mem_cons.mp bound
    have fits : curve.length ≤ counters.length := by simpa using fits
    refine List.pairwise_cons.mpr ⟨?_, ih levels sorted bound fits⟩
    by_cases applies : rmin < b.level
    case pos => simpa only [Breakpoint.applies, applies, decide_true, if_true] using
        advanceCounters_le curve rmin counters small largest
    case neg =>
      have noneApplies : ∀ b' ∈ curve, b'.level ≤ rmin := fun b' mem => by have := below b' mem; omega
      simpa only [Breakpoint.applies, applies, decide_false, Bool.false_eq_true, if_false,
        advanceCounters_eq_self curve rmin counters fits noneApplies] using largest
  | case2 => exact sorted
  | case3 => exact .nil

end

/-- Settles O12, by induction along the curve: levels decrease, so the breakpoints that apply come first. -/
theorem countersNeverIncreaseAlongCurve : Obligations.CountersNeverIncreaseAlongCurve := by
  intro curve rmin counters ordered sorted bound fits
  refine ⟨advanceCounters_length curve rmin counters fits,
    advanceCounters_pairwise curve rmin counters (pairwise_level_of_strictlyDecreasing ordered) sorted bound fits,
    fun c mem => ?_, fun i => advanceCounters_getElem?_of_length_le curve rmin counters fits,
    fun i b c => advanceCounters_getElem?_of_getElem? curve rmin counters⟩
  exact (advanceCounters_le curve rmin counters le_rfl bound c mem).trans (min_le_left _ _)

end Sys2Proof.Machine
end

section
namespace Sys2Proof.Machine

/-! ## Time-to-trip (R62, R66, R68) -/

/-- A breakpoint that applies offers its own time; one that does not offers UNBOUNDED. -/
def offeredTime (rmin : Nat) (x : Breakpoint × Nat) : Option Nat :=
  if x.1.applies rmin then some (x.1.duration - x.2) else none

theorem offeredTime_eq_none_iff {rmin : Nat} {x : Breakpoint × Nat} : offeredTime rmin x = none ↔ x.1.level ≤ rmin := by
  simp [offeredTime, Breakpoint.applies]

theorem offeredTime_eq_some_iff {rmin t : Nat} {x : Breakpoint × Nat} :
    offeredTime rmin x = some t ↔ rmin < x.1.level ∧ t = ((x.1.duration : Int) - x.2).toNat := by
  have : ((x.1.duration : Int) - x.2).toNat = x.1.duration - x.2 := by omega
  simp [offeredTime, Breakpoint.applies, this, eq_comm]

theorem minTime_eq_none_iff {a b : Option Nat} : minTime a b = none ↔ a = none ∧ b = none := by
  cases a <;> cases b <;> simp [minTime]

theorem minTime_eq_some_iff {a b : Option Nat} {t : Nat} :
    minTime a b = some t ↔ (a = some t ∨ b = some t) ∧ (∀ u, a = some u → t ≤ u) ∧ ∀ u, b = some u → t ≤ u := by
  cases a <;> cases b <;> simp [minTime] <;> omega

/-- The least of the times offered. -/
def leastTime (rmin : Nat) (pairs : List (Breakpoint × Nat)) : Option Nat :=
  pairs.foldr (fun x acc => minTime (offeredTime rmin x) acc) none

theorem timeToTrip_eq_leastTime (curve : List Breakpoint) (rmin : Nat) (counters : List Nat) :
    timeToTrip curve rmin counters = leastTime rmin (curve.zip counters) := by
  unfold timeToTrip leastTime
  congr 1
  funext x acc
  unfold offeredTime
  split
  · rfl
  · rfl

theorem leastTime_eq_none_iff {rmin : Nat} {pairs : List (Breakpoint × Nat)} :
    leastTime rmin pairs = none ↔ ∀ x ∈ pairs, offeredTime rmin x = none := by
  induction pairs with
  | nil => simp [leastTime]
  | cons x pairs ih => rw [List.forall_mem_cons, ← ih]; exact minTime_eq_none_iff

theorem leastTime_offered {rmin t : Nat} {pairs : List (Breakpoint × Nat)} (least : leastTime rmin pairs = some t) :
    ∃ x ∈ pairs, offeredTime rmin x = some t := by
  induction pairs with
  | nil => simp [leastTime] at least
  | cons x pairs ih =>
    obtain ⟨here | later, _⟩ := minTime_eq_some_iff.mp least
    · exact ⟨x, List.mem_cons_self, here⟩
    · obtain ⟨y, mem, offered⟩ := ih later
      exact ⟨y, List.mem_cons_of_mem x mem, offered⟩

theorem leastTime_le {rmin t u : Nat} {pairs : List (Breakpoint × Nat)} (least : leastTime rmin pairs = some t)
    {x : Breakpoint × Nat} (mem : x ∈ pairs) (offered : offeredTime rmin x = some u) : t ≤ u := by
  induction pairs generalizing t with
  | nil => simp at mem
  | cons y pairs ih =>
    obtain ⟨_, head, tail⟩ := minTime_eq_some_iff.mp least
    obtain rfl | mem := List.mem_cons.mp mem
    · exact head u offered
    · obtain unbounded | ⟨v, later⟩ := Option.eq_none_or_eq_some (leastTime rmin pairs)
      · rw [leastTime_eq_none_iff.mp unbounded x mem] at offered
        cases offered
      · exact (tail v later).trans (ih later mem)

theorem anyExceeded_iff (curve : List Breakpoint) (counters : List Nat) :
    anyExceeded curve counters = true ↔ ∃ p ∈ curve.zip counters, p.1.duration < p.2 := by
  simp only [anyExceeded, List.any_eq_true, decide_eq_true_eq]

/-! ### The evaluator at a boundary (R62, R63, R66, R68) -/

namespace Evaluator
variable (e : Evaluator) (curve : List Breakpoint) (valid : Bool) (r : Phases Nat)

@[simp] theorem close_lastLowest : (e.close curve valid r).1.lastLowest = e.lowest valid r := by
  unfold close; dsimp only; split <;> rfl

@[simp] theorem close_applied : (e.close curve valid r).1.applied = false := by
  unfold close; dsimp only; split <;> rfl

@[simp] theorem close_sagOpen : (e.close curve valid r).1.sagOpen = e.sagOpen := by
  unfold close; dsimp only; split <;> rfl

theorem close_exceeded : (e.close curve valid r).1.exceeded = (e.exceeded || (e.close curve valid r).2) := by
  unfold close
  dsimp only
  split
  · rfl
  · exact (Bool.or_false _).symm

/-- R63: with no sag open the boundary judges no counter. -/
theorem close_of_sagOpen_false (shut : e.sagOpen = false) :
    e.close curve valid r = ({ e with lastLowest := e.lowest valid r, applied := false }, false) := by
  simp only [close, shut, Bool.false_eq_true, if_false]

section
variable {e} (opened : e.sagOpen = true)
include opened

theorem close_counters : (e.close curve valid r).1.counters =
    if e.applied then e.counters else advanceCounters curve (e.lowest valid r) e.counters := by
  simp only [close, opened, if_true]

theorem close_ttt : (e.close curve valid r).1.ttt =
    timeToTrip curve (e.lowest valid r) (e.close curve valid r).1.counters := by
  simp only [close, opened, if_true]

theorem close_newly : (e.close curve valid r).2 =
    (anyExceeded curve (e.close curve valid r).1.counters && !e.exceeded) := by
  simp only [close, opened, if_true]

end

end Evaluator

/-- Settles O11: time-to-trip by induction over the breakpoints with their counters, the evaluator by the rules of its
operations. -/
theorem timeToTripIsLeast : Obligations.TimeToTripIsLeast := by
  refine ⟨fun curve rmin counters => ?_, fun e curve valid r lowest named hc => ?_⟩
  · rw [timeToTrip_eq_leastTime]
    refine ⟨leastTime_eq_none_iff.trans (forall₂_congr fun _ _ => offeredTime_eq_none_iff), fun t least => ⟨?_, ?_⟩⟩
    · obtain ⟨x, mem, offered⟩ := leastTime_offered least
      exact ⟨x, mem, offeredTime_eq_some_iff.mp offered⟩
    · exact fun x mem applies => leastTime_le least mem (offeredTime_eq_some_iff.mpr ⟨applies, rfl⟩)
  · refine ⟨e.close_lastLowest curve valid r, e.close_applied curve valid r, e.close_sagOpen curve valid r,
      e.close_exceeded curve valid r, fun shut => ?_, fun opened => ⟨?_, ?_, ?_⟩, rfl, rfl, rfl⟩
    · rw [e.close_of_sagOpen_false curve valid r shut]
      exact ⟨rfl, rfl, rfl⟩
    · exact Evaluator.close_counters curve valid r opened
    · exact Evaluator.close_ttt curve valid r opened
    · rw [Evaluator.close_newly curve valid r opened, Bool.and_eq_true, anyExceeded_iff, Bool.not_eq_true', and_comm]

end Sys2Proof.Machine
end


section
namespace Sys2Proof.Machine

/-! ## Costs and the usable figure (R75, R78) -/

/-- The cost is the least that covers rating times a_max. -/
theorem cost_bounds (rating top : Nat) :
    rating * top ≤ 1000 * cost rating top ∧ 1000 * cost rating top < rating * top + 1000 := by
  unfold cost
  omega

theorem cost_zero (rating : Nat) : cost rating 0 = 0 := by simp [cost]

theorem cost_full (rating : Nat) : cost rating 1000 = rating := by
  unfold cost
  omega

/-- A reference within the amplitude limit costs no more than the rating. -/
theorem cost_le_rating {rating top : Nat} (limit : top ≤ 1000) : cost rating top ≤ rating := by
  have whole := Nat.mul_le_mul_left rating limit
  have bounds := cost_bounds rating top
  omega

/-- Settles O7, by the bounds of a quotient rounded up. -/
theorem costRoundsUp : Obligations.CostRoundsUp := by
  intro s f r top p
  obtain ⟨covers, least⟩ := cost_bounds (s.entry f).rating top
  refine ⟨covers, least, fun rating limit => (cost_le_rating limit).trans rating, fun zero => ?_, fun full => ?_⟩
  · change cost _ top = 0
    rw [zero, cost_zero]
  · change cost _ top = _
    rw [full, cost_full]

/-- The figure turns on the floor and the scale of the settings alone. -/
theorem usableFigure_congr {g g' : Settings} (floor : g'.floor = g.floor) (scale : g'.scale = g.scale) (v : Nat) :
    usableFigure g' v = usableFigure g v := by
  unfold usableFigure
  rw [floor, scale]

theorem usableFigure_of_le_floor {g : Settings} {v : Nat} (low : v ≤ g.floor) : usableFigure g v = 0 := if_pos low

theorem usableFigure_of_floor_lt {g : Settings} {v : Nat} (above : g.floor < v) :
    usableFigure g v = min 65535 ((v ^ 2 - g.floor ^ 2) * g.scale / 4294967296) := by
  unfold usableFigure
  rw [if_neg (Nat.not_le.mpr above), pow_two, pow_two]
  rfl

/-- Settles O8, by the two branches of the figure that every update installs. -/
theorem Account.usableFigure : Obligations.UsableFigure := by
  intro s v g u
  have installs : u = Machine.usableFigure g v := updateUsable_usable s v
  refine ⟨fun t floor scale => ?_, fun low => ?_, fun above => ?_⟩
  · rw [updateUsable_usable, installs]
    exact usableFigure_congr floor scale v
  · rw [installs, usableFigure_of_le_floor low]
  · intro x
    have figure : u = min 65535 (x / 4294967296) := installs.trans (usableFigure_of_floor_lt above)
    omega

end Sys2Proof.Machine
end

section
namespace Sys2Proof.Machine

/-! ## Which reservations the account takes back (R76, R82) -/

namespace State

/-- The feeders `vs` are chosen as victims, one after another. -/
def chooseAll (s : State) (vs : List Fid) (cause : ShedCause) : State :=
  vs.foldl (fun s f => s.chooseVictim f cause) s

theorem chooseVictim_notice (s : State) (f : Fid) (cause : ShedCause) :
    (s.chooseVictim f cause).account.notice = s.account.notice.set f (some cause) :=
  (congrArg (fun a : Account => a.notice.set f (some cause)) (putReserved_account s f 0) :)

section

variable (vs : List Fid) (cause : ShedCause) (s : State)

theorem chooseAll_entry : (s.chooseAll vs cause).entry = s.entry :=
  List.foldlRecOn (motive := fun t : State => t.entry = s.entry) vs _ rfl fun t h f _ => (entry_chooseVictim t f cause).trans h

theorem chooseAll_usable : (s.chooseAll vs cause).account.usable = s.account.usable :=
  List.foldlRecOn (motive := fun t : State => t.account.usable = s.account.usable) vs _ rfl
    fun t h f _ => (chooseVictim_usable t f cause).trans h

/-- A victim's reservation is taken whole, and no other feeder's is touched. -/
theorem chooseAll_reserved (g : Fid) :
    (s.chooseAll vs cause).account.reserved.get g = if g ∈ vs then 0 else s.account.reserved.get g := by
  induction vs generalizing s with
  | nil => rfl
  | cons f vs ih =>
    refine (ih (s.chooseVictim f cause)).trans ?_
    rw [chooseVictim_reserved, Per8.get_set]
    by_cases own : g = f <;> by_cases later : g ∈ vs <;> simp [own, later]

/-- A victim has a notice outstanding, and no other feeder's notice changes. -/
theorem chooseAll_notice (g : Fid) :
    (s.chooseAll vs cause).account.notice.get g = if g ∈ vs then some cause else s.account.notice.get g := by
  induction vs generalizing s with
  | nil => rfl
  | cons f vs ih =>
    refine (ih (s.chooseVictim f cause)).trans ?_
    rw [chooseVictim_notice, Per8.get_set]
    by_cases own : g = f <;> by_cases later : g ∈ vs <;> simp [own, later]

theorem chooseAll_concat (last : Fid) :
    s.chooseAll (vs ++ [last]) cause = (s.chooseAll vs cause).chooseVictim last cause := List.foldl_append

end

theorem sheddable_iff (s : State) (g : Fid) :
    s.sheddable g = true ↔ (s.entry g).rehearsal = false ∧ s.account.reserved.get g ≠ 0 := by
  simp [sheddable]

/-- Choosing one victim leaves the others as sheddable as they were. -/
theorem sheddable_chooseVictim (s : State) {f g : Fid} (cause : ShedCause) (ne : g ≠ f) :
    (s.chooseVictim f cause).sheddable g = s.sheddable g := by
  unfold sheddable
  rw [entry_chooseVictim, chooseVictim_reserved, Per8.get_set_ne _ _ ne]

/-- What a victim gives up, Sum loses. -/
theorem sum_chooseVictim {s : State} {f : Fid} (cause : ShedCause) (shed : s.sheddable f = true) :
    (s.chooseVictim f cause).sum + s.account.reserved.get f = s.sum := by
  have lost := sum_putReserved s f 0
  rwa [counted_of_sheddable s f shed, ite_self, ← chooseVictim_sum s f cause] at lost

/-- Shedding chooses the first of the feeders that can be shed, in order, and at the last of them it had not had enough. -/
theorem shedUntil_chooses (fs : List Fid) (cause : ShedCause) (enough : State → Bool) :
    ∀ s : State, fs.Nodup → ∃ vs rest, fs.filter s.sheddable = vs ++ rest ∧
      s.shedUntil fs cause enough = s.chooseAll vs cause ∧
      ∀ before last, vs = before ++ [last] → enough (s.chooseAll before cause) = false := by
  induction fs with
  | nil => exact fun s _ => ⟨[], [], rfl, rfl, fun before last h => by simp at h⟩
  | cons f fs ih =>
    intro s nodup
    obtain ⟨fresh, nodup⟩ := List.nodup_cons.1 nodup
    unfold shedUntil
    by_cases done : enough s = true
    · rw [if_pos done]
      exact ⟨[], _, rfl, rfl, fun before last h => by simp at h⟩
    rw [if_neg done]
    by_cases shed : s.sheddable f = true
    · obtain ⟨vs, rest, split, chosen, short⟩ := ih (s.chooseVictim f cause) nodup
      have same : fs.filter (s.chooseVictim f cause).sheddable = fs.filter s.sheddable :=
        List.filter_congr fun g mem => sheddable_chooseVictim s cause fun eq => fresh (eq ▸ mem)
      rw [if_pos shed]
      refine ⟨f :: vs, rest, by rw [List.filter_cons_of_pos shed, ← same, split]; rfl, chosen, fun before last h => ?_⟩
      cases before with
      | nil => exact Bool.not_eq_true _ ▸ done
      | cons g before =>
        obtain ⟨rfl, tail⟩ := List.cons.inj h
        exact short before last tail
    · rw [if_neg shed, List.filter_cons_of_neg shed]
      exact ih s nodup

end State

/-- Shedding from `s` for a cause, until `enough`, takes back the reservations of the feeders `vs`, which `among` allows, in
this order: the lowest priority first, and no further than it must (R76, R82). -/
structure TakesBack (s t : State) (cause : ShedCause) (enough : State → Bool) (among : Fid → Bool) (vs : List Fid) : Prop where
  chosen : t = s.chooseAll vs cause
  nodup : vs.Nodup
  sheddable : ∀ g ∈ vs, s.sheddable g = true ∧ among g = true
  lowest : vs.Pairwise fun g h => (s.entry h).priority ≤ (s.entry g).priority
  lower : ∀ g ∈ vs, ∀ h, s.sheddable h = true → among h = true → (s.entry g).priority < (s.entry h).priority → h ∈ vs
  short : ∀ before last, vs = before ++ [last] → enough (s.chooseAll before cause) = false

theorem lowestFirst_sorted (s : State) :
    s.lowestFirst.Pairwise fun g h => (s.entry h).priority ≤ (s.entry g).priority :=
  List.pairwise_reverse.2 s.byPriority_sorted

theorem lowestFirst_nodup (s : State) : s.lowestFirst.Nodup := List.nodup_reverse.2 s.nodup_byPriority

theorem shedUntil_takesBack (s : State) (cause : ShedCause) (enough : State → Bool) (among : Fid → Bool) :
    ∃ vs, TakesBack s (s.shedUntil (s.lowestFirst.filter among) cause enough) cause enough among vs := by
  obtain ⟨vs, rest, split, chosen, short⟩ :=
    State.shedUntil_chooses (s.lowestFirst.filter among) cause enough s ((lowestFirst_nodup s).filter _)
  have mem : ∀ g, g ∈ vs ++ rest ↔ s.sheddable g = true ∧ among g = true := by
    intro g
    rw [← split, List.mem_filter, List.mem_filter]
    simp [State.mem_lowestFirst, and_comm]
  have nodup : (vs ++ rest).Nodup := split ▸ ((lowestFirst_nodup s).filter _).filter _
  have sorted := split ▸ ((lowestFirst_sorted s).filter among).filter s.sheddable
  obtain ⟨lowest, -, behind⟩ := List.pairwise_append.1 sorted
  refine ⟨vs, chosen, nodup.of_append_left, fun g own => (mem g).1 (List.mem_append_left _ own), lowest, ?_, short⟩
  intro g own h shed allowed below
  rcases List.mem_append.1 ((mem h).2 ⟨shed, allowed⟩) with taken | left
  · exact taken
  · exact absurd (behind g own h left) (not_le.2 below)

namespace TakesBack

variable {s t : State} {cause : ShedCause} {enough : State → Bool} {among : Fid → Bool} {vs : List Fid}

theorem entry (h : TakesBack s t cause enough among vs) : t.entry = s.entry := h.chosen ▸ State.chooseAll_entry vs cause s

theorem usable (h : TakesBack s t cause enough among vs) : t.account.usable = s.account.usable :=
  h.chosen ▸ State.chooseAll_usable vs cause s

theorem reserved (h : TakesBack s t cause enough among vs) (g : Fid) :
    t.account.reserved.get g = if g ∈ vs then 0 else s.account.reserved.get g :=
  h.chosen ▸ State.chooseAll_reserved vs cause s g

theorem notice (h : TakesBack s t cause enough among vs) (g : Fid) :
    t.account.notice.get g = if g ∈ vs then some cause else s.account.notice.get g :=
  h.chosen ▸ State.chooseAll_notice vs cause s g

/-- The feeders that lose a reservation are the victims. -/
theorem mem_iff (h : TakesBack s t cause enough among vs) (g : Fid) :
    g ∈ vs ↔ s.account.reserved.get g ≠ 0 ∧ t.account.reserved.get g = 0 := by
  rw [h.reserved]
  constructor
  · intro own
    exact ⟨((s.sheddable_iff g).1 (h.sheddable g own).1).2, if_pos own⟩
  · rintro ⟨some, zero⟩
    by_contra out
    exact some ((if_neg out).symm.trans zero)

/-- No reservation is left below a victim's priority, of a feeder that counts and is allowed. -/
theorem reserved_below (h : TakesBack s t cause enough among vs) {g k : Fid} (own : g ∈ vs)
    (below : (s.entry g).priority < (s.entry k).priority) (counts : (s.entry k).rehearsal = false)
    (allowed : s.sheddable k = true → among k = true) : t.account.reserved.get k = 0 := by
  rw [h.reserved]
  by_cases none : s.account.reserved.get k = 0
  · rw [none, ite_self]
  · have shed := (s.sheddable_iff k).2 ⟨counts, none⟩
    exact if_pos (h.lower g own k shed (allowed shed) below)

/-- Where there was not enough at first there is a last victim, of the highest priority among them: with its reservation put
back there would not be enough. -/
theorem exists_last (h : TakesBack s t cause enough among vs) (some : t ≠ s) :
    ∃ last ∈ vs, (∀ g ∈ vs, (s.entry last).priority ≤ (s.entry g).priority) ∧
      ∃ u : State, enough u = false ∧ u.account.usable = s.account.usable ∧
        u.sum = t.sum + s.account.reserved.get last := by
  obtain ⟨rfl⟩ | ⟨before, last, rfl⟩ := vs.eq_nil_or_concat'
  · exact absurd h.chosen some
  have out : last ∉ before := fun mem => List.disjoint_of_nodup_append h.nodup mem (List.mem_singleton_self last)
  have shed := (h.sheddable last (by simp)).1
  have kept : (s.chooseAll before cause).account.reserved.get last = s.account.reserved.get last := by
    rw [State.chooseAll_reserved, if_neg out]
  refine ⟨last, by simp, fun g own => ?_, s.chooseAll before cause, h.short before last rfl,
    State.chooseAll_usable before cause s, ?_⟩
  · rcases List.mem_append.1 own with earlier | same
    · exact (List.pairwise_append.1 h.lowest).2.2 g earlier last (List.mem_singleton_self last)
    · rw [List.mem_singleton.1 same]
  · have still : (s.chooseAll before cause).sheddable last = true := by
      unfold State.sheddable
      rw [State.chooseAll_entry, kept]
      exact shed
    rw [h.chosen, State.chooseAll_concat, ← kept, State.sum_chooseVictim cause still]

end TakesBack

/-- Sum is told by the entries and the reservations. -/
theorem sum_of_entry {s t : State} (entry : t.entry = s.entry) :
    t.sum = (Fid.all.map fun g => if (s.entry g).rehearsal then 0 else t.account.reserved.get g).sum := by
  unfold State.sum State.counted
  rw [entry]

end Sys2Proof.Machine
end


section
namespace Sys2Proof.Machine

/-! ## The update of the usable figure (R75, R76, R77) -/

/-- The shedding that an update to the figure `u` brings. -/
def State.shedTo (s : State) (u : Nat) : State := s.shedUntil s.lowestFirst .shortfall fun t => decide (t.sum ≤ u)

theorem shedTo_takesBack (s : State) (u : Nat) :
    ∃ vs, TakesBack s (s.shedTo u) .shortfall (fun t => decide (t.sum ≤ u)) (fun _ => true) vs := by
  have sheds := shedUntil_takesBack s .shortfall (fun t => decide (t.sum ≤ u)) fun _ => true
  rwa [List.filter_true] at sheds

theorem updateUsable_of_le {s : State} {v : Nat} (fits : s.sum ≤ usableFigure s.settings v) :
    s.updateUsable v = s.putUsable (usableFigure s.settings v) := if_pos fits

theorem updateUsable_of_lt {s : State} {v : Nat} (short : usableFigure s.settings v < s.sum) :
    s.updateUsable v = ((s.shedTo (usableFigure s.settings v)).putUsable (usableFigure s.settings v)).handRecord
      (.shortfall v s.account.usable (usableFigure s.settings v) s.sum (s.shedTo (usableFigure s.settings v)).sum
        (victimsBetween s (s.shedTo (usableFigure s.settings v)))) := if_neg (Nat.not_le.2 short)

theorem putUsable_accountOnly (s : State) (u : Nat) : AccountOnly s (s.putUsable u) where
  blocks := by simp [State.blocks]
  hands := .nothing (by simp) (by simp) (by simp) (by simp) (by simp)

theorem handRecord_blocks (s : State) (b : Body) : (s.handRecord b).blocks = s.blocks := by
  simp [State.blocks]

/-- Sum turns on the table and the reservations alone. -/
theorem sum_congr {s t : State} (entry : t.entry = s.entry) (reserved : t.account.reserved = s.account.reserved) :
    t.sum = s.sum := by
  rw [sum_of_entry entry, sum_of_entry (s := s) rfl, reserved]

/-- What a shedding update leaves: the account as it was shed, with the new figure, and one record. -/
structure ShedUpdate (s t : State) (v u : Nat) (m : State) : Prop where
  reserved : t.account.reserved = m.account.reserved
  notice : t.account.notice = m.account.notice
  sum : t.sum = m.sum
  blocks : t.blocks = State.blocks { s with account := t.account }
  hands : Hands s t [.shortfall v s.account.usable u s.sum m.sum (victimsBetween s m)]

theorem updateUsable_sheds {s : State} {v : Nat} (short : usableFigure s.settings v < s.sum) :
    ShedUpdate s (s.updateUsable v) v (usableFigure s.settings v) (s.shedTo (usableFigure s.settings v)) := by
  rw [updateUsable_of_lt short]
  generalize hm : s.shedTo (usableFigure s.settings v) = m
  have only := (hm ▸ shedUntil_accountOnly _ _ _ s : AccountOnly s m).trans
    (putUsable_accountOnly m (usableFigure s.settings v))
  constructor
  case reserved => simp
  case notice => simp
  case sum => exact sum_congr (entry_of_table (by simp)) (by simp)
  case blocks => rw [handRecord_blocks, only.blocks, State.handRecord_account]
  case hands => exact only.hands.trans (.handRecord _ _)

/-- One record handed tight lengthens staging by at most one. -/
theorem handRecord_staging_length (s : State) (b : Body) :
    (s.handRecord b).writer.staging.length ≤ s.writer.staging.length + 1 := by
  unfold State.handRecord
  rw [State.raise_writer_staging]
  split
  · simp [State.enterStaging]
  · simp

/-- The victims of a record, each with what was taken from it (R77). -/
theorem mem_victimsBetween {s m : State} {cause : ShedCause} {enough : State → Bool} {among : Fid → Bool} {vs : List Fid}
    (h : TakesBack s m cause enough among vs) (g : Fid) (n : Nat) :
    (g, n) ∈ victimsBetween s m ↔ g ∈ vs ∧ n = s.account.reserved.get g := by
  have taken : ∀ g, (s.sheddable g && m.account.reserved.get g == 0) = true ↔ g ∈ vs := by
    intro g
    rw [h.mem_iff, Bool.and_eq_true, s.sheddable_iff, beq_iff_eq]
    constructor
    · rintro ⟨⟨-, some⟩, zero⟩
      exact ⟨some, zero⟩
    · exact fun own => ⟨(s.sheddable_iff g).1 (h.sheddable g ((h.mem_iff g).2 own)).1, own.2⟩
  unfold victimsBetween
  simp only [List.mem_map, List.mem_filter, taken, Prod.mk.injEq]
  constructor
  · rintro ⟨f, ⟨-, own⟩, rfl, rfl⟩
    exact ⟨own, rfl⟩
  · rintro ⟨own, rfl⟩
    exact ⟨g, ⟨s.mem_lowestFirst g, own⟩, rfl, rfl⟩

/-- The victims of a record are in the order chosen (R77). -/
theorem victimsBetween_ordered (s m : State) :
    ((victimsBetween s m).map Prod.fst).Nodup ∧
      (victimsBetween s m).Pairwise fun a b => (s.entry b.1).priority ≤ (s.entry a.1).priority := by
  unfold victimsBetween
  rw [List.map_map, List.pairwise_map]
  exact ⟨(List.map_id _).symm ▸ (lowestFirst_nodup s).filter _, (lowestFirst_sorted s).filter _⟩

theorem updateUsable_within (s : State) (v : Nat) : (s.updateUsable v).sum ≤ usableFigure s.settings v := by
  by_cases fits : s.sum ≤ usableFigure s.settings v
  · rw [updateUsable_of_le fits, sum_congr (entry_of_table (State.putUsable_table s _)) (by simp)]
    exact fits
  · rw [(updateUsable_sheds (Nat.not_le.1 fits)).sum]
    exact s.shed_all_within .shortfall _

theorem updateUsable_blocks (s : State) (v : Nat) :
    (s.updateUsable v).blocks = State.blocks { s with account := (s.updateUsable v).account } := by
  by_cases fits : s.sum ≤ usableFigure s.settings v
  · rw [updateUsable_of_le fits]
    exact (putUsable_accountOnly s _).blocks
  · exact (updateUsable_sheds (Nat.not_le.1 fits)).blocks

theorem updateUsable_staging_length (s : State) (v : Nat) :
    (s.updateUsable v).writer.staging.length ≤ s.writer.staging.length + 1 := by
  by_cases fits : s.sum ≤ usableFigure s.settings v
  · rw [updateUsable_of_le fits, State.putUsable_writer_staging]
    exact Nat.le_succ _
  · have only := (shedUntil_accountOnly s.lowestFirst .shortfall
      (fun t => decide (t.sum ≤ usableFigure s.settings v)) s).trans (putUsable_accountOnly _ (usableFigure s.settings v))
    rw [updateUsable_of_lt (Nat.not_le.1 fits), ← (only.hands.none rfl).1]
    exact handRecord_staging_length _ _

/-- Settles O21: an update that fits writes the figure alone; one that does not sheds first, the lowest priority first. -/
theorem updateInstallsWithinSum : Obligations.UpdateInstallsWithinSum := by
  intro s v t u taken
  refine ⟨updateUsable_usable s v, updateUsable_within s v, updateUsable_blocks s v, fun fits => ?_, fun short => ?_⟩
  · have installed : t = s.putUsable u := updateUsable_of_le fits
    rw [installed, State.putUsable_account, State.putUsable_writer_staging]
    exact ⟨rfl, rfl⟩
  obtain ⟨vs, shed⟩ := shedTo_takesBack s u
  have update : ShedUpdate s t v u (s.shedTo u) := updateUsable_sheds short
  have length : t.writer.staging.length ≤ s.writer.staging.length + 1 := updateUsable_staging_length s v
  have within : t.sum ≤ u := updateUsable_within s v
  clear_value t u
  have taken_iff : ∀ g, taken g ↔ g ∈ vs := fun g => by
    rw [shed.mem_iff, ← update.reserved]
  have changed : s.shedTo u ≠ s := fun same => by
    have sum := update.sum
    rw [same] at sum
    omega
  refine ⟨fun g => ⟨fun lost => ?_, fun kept => ?_⟩, ?_, victimsBetween s (s.shedTo u), length, ?_, fun g n => ?_,
    victimsBetween_ordered s _⟩
  · have own := (taken_iff g).1 lost
    refine ⟨((s.sheddable_iff g).1 (shed.sheddable g own).1).1, ?_, fun h below counts => ?_⟩
    · rw [update.notice, shed.notice, if_pos own]
    · rw [update.reserved]
      exact shed.reserved_below own below counts fun _ => rfl
  · have out : g ∉ vs := fun own => kept ((taken_iff g).2 own)
    rw [update.reserved, update.notice, shed.reserved, shed.notice, if_neg out, if_neg out]
    exact ⟨rfl, rfl⟩
  · obtain ⟨last, own, least, before, short, -, sum⟩ := shed.exists_last changed
    refine ⟨last, (taken_iff last).2 own, fun g lost => least g ((taken_iff g).1 lost), ?_⟩
    rw [update.sum, ← sum]
    exact Nat.not_le.1 (of_decide_eq_false short)
  · rw [update.sum]
    exact update.hands.first _ rfl
  · rw [mem_victimsBetween shed, taken_iff]

end Sys2Proof.Machine
end

section
namespace Sys2Proof.Machine

/-! ## Admission (R79 to R84, R87) -/

/-- The feeders whose reservations a request of feeder `f` may take back (R82). -/
def State.outranks (s : State) (f g : Fid) : Bool :=
  decide ((s.entry f).priority < (s.entry g).priority) && !(s.entry g).rehearsal

theorem candidates_eq (s : State) (f : Fid) :
    s.candidates f = s.lowestFirst.filter fun g => s.outranks f g && s.sheddable g := by
  unfold State.candidates
  congr 1
  funext g
  unfold State.outranks State.sheddable
  cases (s.entry g).rehearsal <;> simp

/-- A sum tight the feeders that pass two tests, where the ones that fail the second add nothing. -/
theorem sum_filter_and (p q : Fid → Bool) (x : Fid → Nat) (none : ∀ g, p g = true → q g = false → x g = 0) (l : List Fid) :
    ((l.filter fun g => p g && q g).map x).sum = (l.map fun g => if p g then x g else 0).sum := by
  induction l with
  | nil => rfl
  | cons g l ih =>
    rw [List.map_cons, List.sum_cons, ← ih]
    by_cases first : p g = true <;> by_cases second : q g = true <;> simp [first, second]
    exact none g first (by simpa using second)

/-- The candidates' reservations are those of all feeders of lower priority: what cannot be shed reserves nothing. -/
theorem candidateTotal_eq (s : State) (f : Fid) :
    s.candidateTotal f = (Fid.all.map fun g => if s.outranks f g then s.account.reserved.get g else 0).sum := by
  have perm : s.lowestFirst.Perm Fid.all :=
    (List.perm_ext_iff_of_nodup (lowestFirst_nodup s) Fid.nodup_all).2 fun g =>
      iff_of_true (s.mem_lowestFirst g) (Fid.mem_all g)
  unfold State.candidateTotal
  rw [candidates_eq, sum_filter_and, (perm.map _).sum_eq]
  intro g below kept
  by_contra some
  have counts : (s.entry g).rehearsal = false := by simpa [State.outranks] using (Bool.and_eq_true_iff.1 below).2
  rw [(s.sheddable_iff g).2 ⟨counts, some⟩] at kept
  cases kept

/-- A request that is met by preemption (R82). -/
def State.preempted (s : State) (f : Fid) (d : Nat) : State :=
  s.shedUntil (s.candidates f) .preempted fun t => t.fits d

theorem preempted_takesBack (s : State) (f : Fid) (d : Nat) :
    ∃ vs, TakesBack s (s.preempted f d) .preempted (fun t => t.fits d)
      (fun g => s.outranks f g && s.sheddable g) vs := by
  have sheds := shedUntil_takesBack s .preempted (fun t => t.fits d) fun g => s.outranks f g && s.sheddable g
  rwa [← candidates_eq] at sheds

/-! ### The branches of a request -/

section

variable {s : State} {f : Fid} {d : Nat}

theorem fits_iff : s.fits d = true ↔ s.sum + d ≤ s.account.usable := decide_eq_true_iff

theorem requestEnergy_of_notice (notice : (s.account.notice.get f).isSome = true) : s.requestEnergy f d = (s, false) :=
  if_pos notice

theorem requestEnergy_of_fits (notice : (s.account.notice.get f).isSome = false)
    (fits : s.sum + d ≤ s.account.usable) : s.requestEnergy f d = (s.grant f d, true) := by
  have fits := fits_iff.2 fits
  simp [State.requestEnergy, notice, fits]

theorem requestEnergy_of_rehearsal (notice : (s.account.notice.get f).isSome = false)
    (rehearsal : (s.entry f).rehearsal = true) (tight : s.account.usable < s.sum + d) :
    s.requestEnergy f d = (s, false) := by
  have tight : s.fits d = false := decide_eq_false (Nat.not_le.2 tight)
  simp [State.requestEnergy, notice, rehearsal, tight]

theorem requestEnergy_of_short (notice : (s.account.notice.get f).isSome = false)
    (rehearsal : (s.entry f).rehearsal = false) (tight : s.account.usable < s.sum + d)
    (short : s.account.usable + s.candidateTotal f < s.sum + d) : s.requestEnergy f d = (s, false) := by
  have tight : s.fits d = false := decide_eq_false (Nat.not_le.2 tight)
  simp [State.requestEnergy, notice, rehearsal, tight, Nat.not_le.2 short]

theorem requestEnergy_of_covered (notice : (s.account.notice.get f).isSome = false)
    (rehearsal : (s.entry f).rehearsal = false) (tight : s.account.usable < s.sum + d)
    (covered : s.sum + d ≤ s.account.usable + s.candidateTotal f) :
    s.requestEnergy f d = ((s.preempted f d).grant f d, true) := by
  have tight : s.fits d = false := decide_eq_false (Nat.not_le.2 tight)
  simp [State.requestEnergy, State.preempted, notice, rehearsal, tight, covered]

theorem requestEntry_of_none (notice : (s.account.notice.get f).isSome = false) : s.requestEntry f 0 = (s, true) := by
  simp [State.requestEntry, Option.isSome_eq_false_iff.1 notice]

theorem requestEntry_of_asked (asked : d ≠ 0 ∨ (s.account.notice.get f).isSome = true) :
    s.requestEntry f d = s.requestEnergy f d := by
  refine if_neg fun free => ?_
  obtain ⟨zero, none⟩ := Bool.and_eq_true_iff.1 free
  rcases asked with some | notice
  · exact some (of_decide_eq_true zero)
  · rw [Option.isNone_iff_eq_none.1 none] at notice
    cases notice

/-- A requirement no greater than the reservation lowers it (R80). -/
theorem requestRide_of_le (lower : d ≤ s.account.reserved.get f) : s.requestRide f d = (s.putReserved f d, true) := by
  unfold State.requestRide
  rw [if_pos lower, Nat.min_eq_left lower]

theorem requestRide_of_lt (more : s.account.reserved.get f < d) :
    s.requestRide f d = s.requestEnergy f (d - s.account.reserved.get f) := if_neg (Nat.not_le.2 more)

/-- A grant to a feeder that counts raises Sum by the amount granted. -/
theorem sum_grant_of_counted (counts : (s.entry f).rehearsal = false) : (s.grant f d).sum = s.sum + d := by
  have raised := s.sum_putReserved f (s.account.reserved.get f + d)
  unfold State.counted at raised
  rw [counts, if_neg Bool.false_ne_true, if_neg Bool.false_ne_true] at raised
  unfold State.grant
  omega

end

/-- What a preemption for a request of feeder `f` leaves, `vs` being its victims (R82, R84). -/
structure Preempts (s t : State) (f : Fid) (d : Nat) (vs : List Fid) : Prop where
  only : AccountOnly s t
  usable : t.account.usable = s.account.usable
  within : t.sum ≤ s.account.usable
  own : t.account.reserved.get f = s.account.reserved.get f + d
  others : ∀ g, g ≠ f → t.account.reserved.get g = if g ∈ vs then 0 else s.account.reserved.get g
  notice : ∀ g, t.account.notice.get g = if g ∈ vs then some .preempted else s.account.notice.get g
  outranked : ∀ g ∈ vs, s.outranks f g = true ∧ s.account.reserved.get g ≠ 0
  below : ∀ g ∈ vs, ∀ h, (s.entry g).priority < (s.entry h).priority → (s.entry h).rehearsal = false →
    t.account.reserved.get h = 0
  last : ∃ last ∈ vs, (∀ g ∈ vs, (s.entry last).priority ≤ (s.entry g).priority) ∧
    s.account.usable < t.sum + s.account.reserved.get last

theorem State.outranks_self (s : State) (f : Fid) : s.outranks f f = false := by simp [State.outranks]

theorem preempted_preempts {s : State} {f : Fid} {d : Nat} (counts : (s.entry f).rehearsal = false)
    (tight : s.account.usable < s.sum + d) (covered : s.sum + d ≤ s.account.usable + s.candidateTotal f) :
    ∃ vs, Preempts s ((s.preempted f d).grant f d) f d vs := by
  obtain ⟨vs, shed⟩ := preempted_takesBack s f d
  have fits : (s.preempted f d).fits d = true := s.candidates_enough f d covered
  have changed : s.preempted f d ≠ s := fun same => absurd (fits_iff.1 (same ▸ fits)) (Nat.not_le.2 tight)
  have outranked : ∀ g ∈ vs, s.outranks f g = true := fun g own => (Bool.and_eq_true_iff.1 (shed.sheddable g own).2).1
  have out : f ∉ vs := fun own => Bool.false_ne_true (s.outranks_self f ▸ outranked f own)
  have sum : ((s.preempted f d).grant f d).sum = (s.preempted f d).sum + d :=
    sum_grant_of_counted (by rw [shed.entry, counts])
  have only : AccountOnly s (s.preempted f d) := shedUntil_accountOnly _ _ _ s
  generalize s.preempted f d = m at *
  have reserved : ∀ g, g ≠ f → (m.grant f d).account.reserved.get g = m.account.reserved.get g := fun g ne => by
    simp [State.grant, Per8.get_set_ne _ _ ne]
  refine ⟨vs, ?_⟩
  constructor
  case only => exact only.trans (putReserved_accountOnly m f _)
  case usable => simp [State.grant, shed.usable]
  case within => exact shed.usable ▸ m.grant_within f d fits
  case own => simp [State.grant, shed.reserved, out]
  case others => exact fun g ne => (reserved g ne).trans (shed.reserved g)
  case notice => simp [State.grant, shed.notice]
  case outranked => exact fun g own => ⟨outranked g own, ((s.sheddable_iff g).1 (shed.sheddable g own).1).2⟩
  case below =>
    intro g own h below counts
    have lower : (s.entry f).priority < (s.entry g).priority := by
      simpa [State.outranks] using (Bool.and_eq_true_iff.1 (outranked g own)).1
    have ne : h ≠ f := fun same => lt_asymm lower (same ▸ below)
    rw [reserved h ne]
    refine shed.reserved_below own below counts fun shed => ?_
    simp [State.outranks, lower.trans below, counts, shed]
  case last =>
    obtain ⟨last, own, least, before, short, usable, put⟩ := shed.exists_last changed
    refine ⟨last, own, least, ?_⟩
    have short := of_decide_eq_false short
    omega

/-- Settles O20: each branch of a request by its own equation, and a preemption by what it takes back. -/
theorem admissionOutcome : Obligations.AdmissionOutcome := by
  intro s f d r sum total notice rehearsal held lower candidates granted taken
  have total_eq : candidates = s.candidateTotal f := (candidateTotal_eq s f).symm
  refine ⟨rfl, fun some => requestEnergy_of_notice some, fun free fits => ?_,
    fun free rehearses tight => requestEnergy_of_rehearsal free rehearses tight, fun free counts tight => ⟨fun short => ?_,
      fun covered => ?_⟩, fun zero free => ?_, fun asked => requestEntry_of_asked asked, fun le => ?_,
    fun more => requestRide_of_lt more⟩
  · have answer : r = (s.grant f d, true) := requestEnergy_of_fits free fits
    rw [answer]
    exact ⟨rfl, State.putReserved_account s f _⟩
  · exact requestEnergy_of_short free counts tight (total_eq ▸ short)
  · rw [total_eq] at covered
    have answer : r = ((s.preempted f d).grant f d, true) := requestEnergy_of_covered free counts tight covered
    obtain ⟨vs, preempts⟩ := preempted_preempts counts tight covered
    have sum_eq : sum ((s.preempted f d).grant f d).account = ((s.preempted f d).grant f d).sum :=
      (sum_of_entry (entry_of_table preempts.only.table)).symm
    have unnoticed : s.account.notice.get f = none := Option.isNone_iff_eq_none.1 (Option.isSome_eq_false_iff.1 free)
    clear_value r
    subst answer
    have out : f ∉ vs := fun own => Bool.false_ne_true (s.outranks_self f ▸ (preempts.outranked f own).1)
    have taken_iff : ∀ g, g ≠ f → (taken g ↔ g ∈ vs) := by
      intro g ne
      change s.account.reserved.get g ≠ 0 ∧ ((s.preempted f d).grant f d).account.reserved.get g = 0 ↔ g ∈ vs
      rw [preempts.others g ne]
      by_cases own : g ∈ vs
      · simp [own, (preempts.outranked g own).2]
      · simp [own]
    refine ⟨rfl, preempts.usable, sum_eq.trans_le preempts.within, preempts.own, ?_, (preempts.only.hands.none rfl).1,
      preempts.only.blocks, fun g ne => ⟨fun lost => ?_, fun kept => ?_, fun lost h below counts => ?_⟩, ?_⟩
    · rw [preempts.notice, if_neg out, unnoticed]
    · have own := (taken_iff g ne).1 lost
      exact ⟨(preempts.outranked g own).1, (preempts.notice g).trans (if_pos own)⟩
    · have spared : g ∉ vs := fun own => kept ((taken_iff g ne).2 own)
      exact ⟨(preempts.others g ne).trans (if_neg spared), (preempts.notice g).trans (if_neg spared)⟩
    · exact preempts.below g ((taken_iff g ne).1 lost) h below counts
    · obtain ⟨last, own, least, short⟩ := preempts.last
      have ne : last ≠ f := fun same => out (same ▸ own)
      refine ⟨last, ne, (taken_iff last ne).2 own, fun g ne lost => least g ((taken_iff g ne).1 lost), ?_⟩
      rw [sum_eq]
      exact short
  · rw [zero]
    exact requestEntry_of_none free
  · rw [requestRide_of_le le]
    exact ⟨rfl, State.putReserved_account s f d⟩

end Sys2Proof.Machine
end


section
namespace Sys2Proof.Machine

/-! ## The account's invariant where nothing is reserved (R73, R74) -/

/-- No feeder holds a reservation. -/
def State.unreserved (s : State) : Prop := ∀ f, s.account.reserved.get f = 0

namespace State.unreserved

variable {s : State}

theorem sum_eq_zero (h : s.unreserved) : s.sum = 0 :=
  s.sum_eq_zero_of fun f => Nat.eq_zero_of_le_zero (h f ▸ s.counted_le f)

theorem accountInv (h : s.unreserved) (off : s.offUntilLoaded) : s.accountInv :=
  ⟨h.sum_eq_zero ▸ Nat.zero_le _, fun f _ => h f, off⟩

end State.unreserved

/-- A full reset reserves nothing and has every feeder in OFF (R2, R73). -/
theorem fullReset_accountInv (s : State) : s.fullReset.accountInv := by
  have reserved : s.fullReset.unreserved := fun f => Per8.get_replicate 0 f
  have off : ∀ f, s.fullReset.ctl.get f = FeederCtl.reset := fun f => Per8.get_replicate FeederCtl.reset f
  exact reserved.accountInv fun _ f => by rw [off]; rfl

/-! ## The invariants right after reset -/

theorem reset_eq_fullReset : State.reset = State.reset.fullReset := rfl

/-- A part with an empty ring and no table keeps the ring's invariant. -/
theorem reset_ringInv : State.reset.ringInv := ⟨Nat.zero_le _, nofun, nofun⟩

theorem reset_lineInv : State.reset.lineInv :=
  ⟨fun _ => ⟨rfl, rfl, fun f => Per8.get_replicate none f⟩, by decide, by decide, nofun⟩

/-- Nothing asks for HOLD after reset, so judging it changes nothing. -/
theorem reset_settled : State.reset.settled :=
  ⟨fun _ => ⟨rfl, rfl⟩, ⟨fun some => absurd rfl some, nofun, nofun⟩, rfl⟩

theorem reset_modeInv : State.reset.modeInv := ⟨⟨nofun, nofun⟩, ⟨fun _ => rfl, fun _ => rfl⟩⟩

theorem reset_attnInv : State.reset.attnInv := ⟨fun _ => rfl, fun _ installed => absurd installed (Option.some_ne_none _).symm⟩

theorem reset_stagingInv : State.reset.stagingInv := Nat.zero_le _

theorem reset_marksInv : State.reset.marksInv := List.length_replicate

theorem reset_accountInv : State.reset.accountInv := by
  rw [reset_eq_fullReset]
  exact fullReset_accountInv State.reset

theorem reset_sagInv : State.reset.sagInv := by
  rw [sagInv_iff, reset_eq_fullReset]
  exact fullReset_ok State.reset

/-- Settles O53, invariant by invariant; those of the account and of the sag records hold after any full reset. -/
theorem resetMeetsInvariants : Obligations.ResetMeetsInvariants :=
  ⟨reset_accountInv, reset_stagingInv, reset_ringInv, reset_attnInv, reset_modeInv, reset_lineInv, reset_sagInv,
    reset_settled, reset_marksInv⟩

end Sys2Proof.Machine
end


section
namespace Sys2Proof.Machine

/-! ## What the account's invariant reads (R74, R86) -/

/-- What the invariant of the account reads is the same: the account, the table, and every feeder's state. -/
structure SameBooks (s t : State) : Prop extends AccountLike s t where
  states : ∀ f, (t.ctl.get f).state = (s.ctl.get f).state

namespace SameBooks

variable {s t u : State}

theorem refl (s : State) : SameBooks s s := ⟨⟨rfl, rfl⟩, fun _ => rfl⟩

theorem trans (h : SameBooks s t) (k : SameBooks t u) : SameBooks s u :=
  ⟨⟨k.account.trans h.account, k.table.trans h.table⟩, fun f => (k.states f).trans (h.states f)⟩

theorem of_ctl (ctl : t.ctl = s.ctl) (account : t.account = s.account) (table : t.table = s.table) : SameBooks s t :=
  ⟨⟨account, table⟩, fun f => by rw [ctl]⟩

/-- A write of one feeder's controller that leaves its state alone. -/
theorem of_set {f : Fid} {c : FeederCtl} (ctl : t.ctl = s.ctl.set f c) (state : c.state = (s.ctl.get f).state)
    (account : t.account = s.account) (table : t.table = s.table) : SameBooks s t := by
  refine ⟨⟨account, table⟩, fun g => ?_⟩
  rw [ctl, Per8.get_set]
  split
  · next own => rw [own, state]
  · rfl

theorem of_view (view : t.sagView = s.sagView) (account : t.account = s.account) (table : t.table = s.table) :
    SameBooks s t := ⟨⟨account, table⟩, fun f => congrArg SagView.state (congrFun view f)⟩

theorem of_blocks (blocks : t.blocks = s.blocks) : SameBooks s t :=
  of_ctl (congrArg (fun v : State => v.ctl) blocks :) (congrArg (fun v : State => v.account) blocks :)
    (congrArg (fun v : State => v.table) blocks :)

theorem of_offPort (offPort : t.offPort = s.offPort) : SameBooks s t :=
  of_ctl (congrArg (fun v : State => v.ctl) offPort :) (congrArg (fun v : State => v.account) offPort :)
    (congrArg (fun v : State => v.table) offPort :)

end SameBooks

/-- From `s` to `t` the invariant of the account is kept. -/
def KeepsAccount (s t : State) : Prop := s.accountInv → t.accountInv

namespace KeepsAccount

variable {s t u : State}

theorem refl (s : State) : KeepsAccount s s := id

theorem trans (h : KeepsAccount s t) (k : KeepsAccount t u) : KeepsAccount s u := k ∘ h

theorem of_books (h : SameBooks s t) : KeepsAccount s t := by
  rintro ⟨within, idle, off⟩
  refine ⟨by rw [h.sum, h.account]; exact within, fun f state => ?_, fun none f => ?_⟩
  · rw [h.account]
    exact idle f (h.states f ▸ state)
  · rw [h.states]
    exact off (h.table ▸ none) f

theorem andBooks (h : KeepsAccount s t) (k : SameBooks t u) : KeepsAccount s u := h.trans (of_books k)

theorem afterBooks (h : SameBooks s t) (k : KeepsAccount t u) : KeepsAccount s u := (of_books h).trans k

/-- No state changes and no reservation rises. -/
theorem of_lowered (moves : Moves s t) (states : ∀ f, (t.ctl.get f).state = (s.ctl.get f).state)
    (reserved : ∀ f, t.account.reserved.get f ≤ s.account.reserved.get f) : KeepsAccount s t := by
  rintro ⟨within, idle, off⟩
  refine ⟨moves.sum_within within, fun f state => ?_, fun none f => ?_⟩
  · exact Nat.eq_zero_of_le_zero (idle f (states f ▸ state) ▸ reserved f)
  · exact (states f).trans (off (moves.table ▸ none) f)

/-- A feeder under a table ends in RIDE or with nothing reserved; no other feeder's state changes, and no other reservation
rises. -/
theorem of_turn {f : Fid} (moves : Moves s t) (live : (s.ctl.get f).state ≠ .off)
    (states : ∀ g, g ≠ f → (t.ctl.get g).state = (s.ctl.get g).state)
    (reserved : ∀ g, g ≠ f → t.account.reserved.get g ≤ s.account.reserved.get g)
    (own : (t.ctl.get f).state = .ride ∨ t.account.reserved.get f = 0) : KeepsAccount s t := by
  rintro ⟨within, idle, off⟩
  refine ⟨moves.sum_within within, fun g state => ?_, fun none => absurd (off (moves.table ▸ none) f) live⟩
  by_cases same : g = f
  · subst same
    exact own.resolve_left state
  · exact Nat.eq_zero_of_le_zero (idle g (states g same ▸ state) ▸ reserved g same)

/-- The same, where the feeder's reservation is released. -/
theorem of_release {f : Fid} (moves : Moves s t) (live : (s.ctl.get f).state ≠ .off)
    (states : ∀ g, g ≠ f → (t.ctl.get g).state = (s.ctl.get g).state)
    (account : t.account = { s.account with reserved := s.account.reserved.set f 0 }) : KeepsAccount s t := by
  refine of_turn moves live states (fun g ne => ?_) (.inr ?_) <;> rw [account]
  · exact (Per8.get_set_ne _ _ ne).le
  · exact Per8.get_set_same _ _ _

end KeepsAccount

/-- Outside RIDE nothing is reserved. -/
theorem accountInv_idle {s : State} {f : Fid} {x : FeederState} (inv : s.accountInv) (state : (s.ctl.get f).state = x)
    (ride : x ≠ .ride) : s.account.reserved.get f = 0 := inv.2.1 f (state ▸ ride)

end Sys2Proof.Machine
end

section
namespace Sys2Proof.Machine

/-! ## The operations that leave the books alone -/

namespace State

@[simp] theorem onSag_account (s : State) (f : Fid) (g : SagRecord → SagRecord) : (s.onSag f g).account = s.account :=
  putCtl_account s f _

@[simp] theorem formAutofill_account (s : State) (f : Fid) : (s.formAutofill f).1.account = s.account := by
  unfold formAutofill
  dsimp only
  split <;> simp

@[simp] theorem takeChosen_account (s : State) (f : Fid) (r : Option Accepted) : (s.takeChosen f r).account = s.account := by
  cases r with
  | none => rfl
  | some r => exact takeRecord_account s f r

@[simp] theorem placeEngage_account (s : State) (f : Fid) (ref : Reference) (source : Source) (r : Option Accepted) :
    (s.placeEngage f ref source r).account = s.account := placeRequest_account s f _

@[simp] theorem hold_account (s : State) (f : Fid) : (s.hold f).account = s.account := placeEngage_account s f _ _ _

theorem putCtl_books {s : State} {f : Fid} {c : FeederCtl} (state : c.state = (s.ctl.get f).state) :
    SameBooks s (s.putCtl f c) := .of_set (by simp) state (by simp) (by simp)

theorem onSag_books (s : State) (f : Fid) (g : SagRecord → SagRecord) : SameBooks s (s.onSag f g) := putCtl_books rfl

theorem putStager_books (s : State) (f : Fid) (g : Stager) : SameBooks s (s.putStager f g) := .of_ctl rfl rfl rfl

theorem putLoader_books (s : State) (l : Loader) : SameBooks s (s.putLoader l) := .of_ctl (by simp) (by simp) (by simp)

theorem handRecord_books (s : State) (b : Body) : SameBooks s (s.handRecord b) := .of_blocks (handRecord_blocks s b)

theorem settleResults_books (s before : State) (f : Fid) : SameBooks s (s.settleResults before f) :=
  .of_ctl (by simp) (by simp) (by simp)

theorem makeResult_books (s : State) (f : Fid) (x : Finding) : SameBooks s (s.makeResult f x) :=
  .of_ctl (by simp) (by simp) (by simp)

theorem endPending_books (s : State) (f : Fid) (c : ResultCode) : SameBooks s (s.endPending f c) :=
  .of_ctl (by simp) (by simp) (by simp)

theorem settleLine_books (s : State) (f : Fid) (c : ResultCode) (a : Option Nat) : SameBooks s (s.settleLine f c a) :=
  .of_ctl (by simp) (by simp) (by simp)

theorem arbitrateLine_books (s : State) : SameBooks s s.arbitrateLine := .of_ctl (by simp) (by simp) (by simp)

theorem placeRequest_books (s : State) (f : Fid) (r : Request) : SameBooks s (s.placeRequest f r) :=
  .of_ctl (by simp) (by simp) (by simp)

theorem openSag_books (s : State) (f : Fid) (residuals : Phases Nat) (interruption : Bool) :
    SameBooks s (s.openSag f residuals interruption) := by
  have beside := openSag_beside s f residuals interruption
  refine ⟨⟨by simp [openSag], beside.table⟩, fun g => ?_⟩
  by_cases own : g = f
  · rw [own]
    exact congrArg SagView.state (openSag_sagView s f residuals interruption)
  · rw [(beside.others g own).1]

theorem endSag_books (s : State) (f : Fid) (o : SagOutcome) : SameBooks s ((s.closeSag f o).startQuiet f) :=
  .trans (.of_set (closeSag_ctl s f o) rfl (by simp) (by simp)) (putCtl_books rfl)

theorem closeEpisode_books (s : State) (f : Fid) (k : CloseCause) : SameBooks s (s.closeEpisode f k) :=
  .of_set (closeEpisode_ctl s f k) rfl (by simp) (by simp)

theorem formAutofill_books (s : State) (f : Fid) : SameBooks s (s.formAutofill f).1 :=
  .of_view (formAutofill_sagView s f) (formAutofill_account s f) (formAutofill_steady s f).table

theorem endLate_books (s : State) (f : Fid) : SameBooks s (s.endLate f) :=
  .of_view (endLate_sagView s f) (endLate_account s f) (endLate_steady s f).table

theorem setReady_books (s : State) (f : Fid) (ready : Bool) : SameBooks s (s.setReady f ready) := by
  unfold setReady
  split
  · exact putCtl_books rfl
  · exact .refl s

theorem recordSync_books (s : State) (f : Fid) (old : Tracker) (cause : SyncCause) :
    SameBooks s (s.recordSync f old cause) := by
  unfold recordSync
  split
  · exact .refl s
  · exact handRecord_books s _

theorem reportJump_books (s : State) (f : Fid) (prior : Sync) (jump : Option Int) :
    SameBooks s (s.reportJump f prior jump) := by
  cases jump with
  | none => exact .refl s
  | some offset =>
    rw [reportJump_some]
    exact ((SameBooks.of_blocks (jumpReported_blocks s f prior offset)).trans (endPending_books _ f .stale)).trans
      (onSag_books _ f _)

theorem closeHalfCycle_books (s : State) (f : Fid) (closed : Accum) : SameBooks s (s.closeHalfCycle f closed).1 :=
  .of_view (closeHalfCycle_sagView s f closed)
    (congrArg (fun v : State => v.account) (closeHalfCycle_blocks s f closed) :)
    (congrArg (fun v : State => v.table) (closeHalfCycle_blocks s f closed) :)

theorem sendToSeek_books (s : State) (f : Fid) (cause : SyncCause) : SameBooks s (s.sendToSeek f cause) :=
  .of_ctl (congrArg (fun v : State => v.ctl) (sendToSeek_blocks s f cause) :)
    (congrArg (fun v : State => v.account) (sendToSeek_blocks s f cause) :)
    (congrArg (fun v : State => v.table) (sendToSeek_blocks s f cause) :)

theorem aliasWord0_books (s : State) (f : Fid) (be : BitVec 4) (v : Word) : SameBooks s (s.aliasWord0 f be v) := by
  unfold aliasWord0
  dsimp only
  split
  · exact putStager_books s f _
  · exact (makeResult_books s f _).trans (putStager_books _ f _)

theorem aliasMiddle_books (s : State) (f : Fid) (i : Nat) (be : BitVec 4) (v : Word) :
    SameBooks s (s.aliasMiddle f i be v) := by
  unfold aliasMiddle
  dsimp only
  split
  · exact .refl s
  · exact putStager_books s f _

theorem aliasWord7_books (s : State) (f : Fid) (be : BitVec 4) (v : Word) : SameBooks s (s.aliasWord7 f be v) := by
  unfold aliasWord7
  split
  · exact .refl s
  · refine .trans (putStager_books s f { s.stagers.get f with assembly := none }) ?_
    dsimp only
    split
    · exact makeResult_books _ f _
    · exact (endPending_books _ f .superseded).trans (putStager_books _ f _)

theorem stagerWrite_books (s : State) (f : Fid) (i : Nat) (be : BitVec 4) (v : Word) :
    SameBooks s (s.stagerWrite f i be v) := by
  have disowned : SameBooks s (s.disown f) := putStager_books s f _
  unfold stagerWrite
  dsimp only
  split
  · exact disowned.trans (aliasWord0_books _ f be v)
  split
  · exact disowned.trans (aliasWord7_books _ f be v)
  · exact disowned.trans (aliasMiddle_books _ f i be v)

end State

end Sys2Proof.Machine
end

section
namespace Sys2Proof.Machine

/-! ## Requests: no other feeder's reservation rises (R82) -/

theorem shedUntil_reserved_le (fs : List Fid) (cause : ShedCause) (enough : State → Bool) (s : State) (g : Fid) :
    (s.shedUntil fs cause enough).account.reserved.get g ≤ s.account.reserved.get g := by
  rcases (s.shedUntil_keeps fs cause enough).2.2.2 g with same | ⟨none, -⟩
  · exact same.le
  · exact none ▸ Nat.zero_le _

theorem grant_reserved_ne (s : State) (d : Nat) {f g : Fid} (ne : g ≠ f) :
    (s.grant f d).account.reserved.get g = s.account.reserved.get g := by
  simp [State.grant, Per8.get_set_ne _ _ ne]

theorem requestEnergy_reserved_le (s : State) (d : Nat) {f g : Fid} (ne : g ≠ f) :
    (s.requestEnergy f d).1.account.reserved.get g ≤ s.account.reserved.get g := by
  unfold State.requestEnergy
  split
  · exact Nat.le_refl _
  split
  · split
    · exact (grant_reserved_ne s d ne).le
    · exact Nat.le_refl _
  split
  · exact (grant_reserved_ne s d ne).le
  split
  · exact (grant_reserved_ne _ d ne).le.trans (shedUntil_reserved_le _ _ _ s g)
  · exact Nat.le_refl _

theorem requestEntry_reserved_le (s : State) (need : Nat) {f g : Fid} (ne : g ≠ f) :
    (s.requestEntry f need).1.account.reserved.get g ≤ s.account.reserved.get g := by
  unfold State.requestEntry
  split
  · exact Nat.le_refl _
  · exact requestEnergy_reserved_le s need ne

theorem requestRide_reserved_le (s : State) (need : Nat) {f g : Fid} (ne : g ≠ f) :
    (s.requestRide f need).1.account.reserved.get g ≤ s.account.reserved.get g := by
  unfold State.requestRide
  dsimp only
  split
  · rw [State.putReserved_account, Per8.get_set_ne _ _ ne]
  · exact requestEnergy_reserved_le s _ ne

theorem chooseReference_reserved_le (s : State) {f g : Fid} (ne : g ≠ f) :
    (s.chooseReference f).account.reserved.get g ≤ s.account.reserved.get g := by
  unfold State.chooseReference
  split
  · dsimp only
    split
    · rw [State.placeEngage_account, takeRecord_account]
      exact requestRide_reserved_le s _ ne
    · rw [State.hold_account, State.endPending_account]
      exact requestRide_reserved_le s _ ne
  split
  · dsimp only
    split
    · rw [State.placeEngage_account, ← State.formAutofill_account s f]
      exact requestRide_reserved_le _ _ ne
    · rw [State.hold_account, ← State.formAutofill_account s f]
      exact requestRide_reserved_le _ _ ne
  · rw [State.hold_account]

/-! ## The changes of state (R4, R5, R9, R16, R18, R19) -/

section

variable {s : State} {f : Fid}

theorem enterShed_keepsAccount (live : (s.ctl.get f).state ≠ .off) (r : Reason) (dropped : ResultCode) :
    KeepsAccount s (s.enterShed f r dropped) := by
  have shed := enterShed_shed s f r dropped
  refine .of_release (State.enterShed_moves s f r dropped .refl) live (fun g ne => ?_) shed.account
  rw [shed.ctl, Per8.get_set_ne _ _ ne]

theorem enterFault_keepsAccount (live : (s.ctl.get f).state ≠ .off) (r : Reason) : KeepsAccount s (s.enterFault f r) := by
  refine .of_release (State.enterFault_moves s f r .refl) live (fun g ne => ?_) (s.enterFault_account f r)
  rw [State.enterFault_ctl, Per8.get_set_ne _ _ ne]

theorem fault_keepsAccount (s : State) (f : Fid) (r : Reason) : KeepsAccount s (s.fault f r) := by
  by_cases idle : (s.ctl.get f).state = .off ∨ (s.ctl.get f).state = .fault
  · rw [State.fault_idle s f r idle]
    exact .refl s
  · obtain ⟨live, well⟩ := not_or.1 idle
    rw [State.fault_enters s f r live well]
    exact enterFault_keepsAccount live r

/-- A change between states other than OFF and RIDE. -/
theorem setState_keepsAccount {x : FeederState} (state : (s.ctl.get f).state = x) (live : x ≠ .off) (ride : x ≠ .ride)
    (y : FeederState) (r : Reason) : KeepsAccount s (s.setState f y r) := by
  intro inv
  refine KeepsAccount.of_turn (State.setState_moves s f y r .refl) (state ▸ live) (fun g ne => ?_) (fun g _ => ?_)
    (.inr ?_) inv
  · rw [((State.setState_steady s f y r).others g ne).1]
  · rw [State.setState_account]
  · rw [State.setState_account]
    exact accountInv_idle inv state ride

/-- An entry to ARMING comes from a state in which nothing is reserved. -/
theorem enterArming_keepsAccount {x : FeederState} (state : (s.ctl.get f).state = x) (live : x ≠ .off) (ride : x ≠ .ride)
    (r : Reason) : KeepsAccount s (s.enterArming f r) := by
  intro inv
  have none := accountInv_idle inv state ride
  refine KeepsAccount.of_release (State.enterArming_moves s f r .refl) (state ▸ live) (fun g ne => ?_) ?_ inv
  · rw [((State.enterArming_beside s f r).others g ne).1]
  · rw [State.enterArming_account]
    split
    · rfl
    · rw [← none, Per8.set_get_self]

theorem trackerLost_keepsAccount (s : State) (f : Fid) : KeepsAccount s (s.trackerLost f) := by
  refine State.trackerLost_cases s f (fun standby => ?_) (fun shed => ?_) fun _ _ => .refl s
  · exact enterArming_keepsAccount standby nofun nofun .sync
  · refine enterShed_keepsAccount (fun off => ?_) _ _
    rcases shed with state | state | state <;> exact nomatch state.symm.trans off

/-! ### The ride entry and the ride (R9, R11) -/

theorem tryEntry_granted {ref : Reference} (source : Source) (record : Option Accepted)
    (granted : (s.requestEntry f (s.cost f ref * (s.entry f).rideLimit)).2 = true) :
    s.tryEntry f ref source record =
      (((s.requestEntry f (s.cost f ref * (s.entry f).rideLimit)).1.rideBegun f ref).takeChosen f record).placeEngage f
        ref source record := by
  rw [State.tryEntry_eq]
  exact if_pos granted

theorem tryEntry_refused {ref : Reference} (source : Source) (record : Option Accepted)
    (refused : (s.requestEntry f (s.cost f ref * (s.entry f).rideLimit)).2 = false) :
    s.tryEntry f ref source record =
      s.enterShed f .noEnergy (if record.isSome then .refusedEnergy else .notRiding) := by
  rw [State.tryEntry_eq]
  dsimp only
  rw [refused, if_neg Bool.false_ne_true, requestEntry_refused s f _ refused]

/-- A ride entry ends in RIDE with what was granted, or in SHED with nothing (R9). -/
theorem tryEntry_keepsAccount (live : (s.ctl.get f).state ≠ .off) (ref : Reference) (source : Source)
    (record : Option Accepted) : KeepsAccount s (s.tryEntry f ref source record) := by
  cases answer : (s.requestEntry f (s.cost f ref * (s.entry f).rideLimit)).2 with
  | true =>
    have state : ((s.tryEntry f ref source record).sagView f).state = .ride := by
      rw [tryEntry_granted source record answer, State.placeEngage_sagView, State.takeChosen_sagView,
        State.rideBegun_sagView]
    refine .of_turn (State.tryEntry_moves s f ref source record .refl) live (fun g ne => ?_) (fun g ne => ?_) (.inl state)
    · rw [((State.tryEntry_steady s f ref source record).others g ne).1]
    · rw [tryEntry_granted source record answer, State.placeEngage_account, State.takeChosen_account, State.rideBegun,
        State.putCtl_account, State.setState_account]
      exact requestEntry_reserved_le s _ ne
  | false =>
    rw [tryEntry_refused source record answer]
    exact enterShed_keepsAccount live _ _

theorem rideDecision_keepsAccount (live : (s.ctl.get f).state ≠ .off) : KeepsAccount s (s.rideDecision f) := by
  have formed := State.formAutofill_books s f
  unfold State.rideDecision
  split
  · exact tryEntry_keepsAccount live _ _ _
  split
  · refine .afterBooks formed (tryEntry_keepsAccount ?_ _ _ _)
    rwa [formed.states]
  · exact .refl s

/-- The choice of a ride's reference leaves its feeder in RIDE (R11). -/
theorem chooseReference_keepsAccount (riding : (s.ctl.get f).state = .ride) : KeepsAccount s (s.chooseReference f) := by
  have states : ∀ g, ((s.chooseReference f).ctl.get g).state = (s.ctl.get g).state := fun g =>
    congrArg SagView.state (congrFun (State.chooseReference_sagView s f) g)
  refine .of_turn (f := f) (State.chooseReference_moves s f .refl) (riding ▸ nofun) (fun g _ => states g)
    (fun g ne => chooseReference_reserved_le s ne) (.inl ((states f).trans riding))

/-- An onset takes a feeder on from a state in which nothing is reserved (R7, R15). -/
theorem takeOnset_keepsAccount {x : FeederState} (state : (s.ctl.get f).state = x) (live : x ≠ .off) (ride : x ≠ .ride)
    (v : Verdicts) : KeepsAccount s (s.takeOnset f v) := by
  have opened := State.openSag_books s f v.residuals v.interruption
  unfold State.takeOnset
  dsimp only
  refine .afterBooks opened ?_
  have state := (opened.states f).trans state
  generalize s.openSag f v.residuals v.interruption = m at state ⊢
  split
  · exact enterShed_keepsAccount (state ▸ live) _ _
  split
  · refine (setState_keepsAccount state live ride .watch .onset).trans (rideDecision_keepsAccount ?_)
    simp
  · exact enterShed_keepsAccount (state ▸ live) _ _

end

end Sys2Proof.Machine
end


section
namespace Sys2Proof.Machine

/-! ## The boundary (R6 to R11, R15, R16, R134 to R136) -/

section

variable {s : State} {f : Fid}

theorem flagInterruption_books (s : State) (f : Fid) : SameBooks s (s.flagInterruption f) := State.onSag_books s f _

theorem armingBoundary_keepsAccount (state : (s.ctl.get f).state = .arming) : KeepsAccount s (s.armingBoundary f) := by
  unfold State.armingBoundary
  split
  · exact setState_keepsAccount state nofun nofun .standby .ready
  · exact .of_books (State.placeRequest_books s f _)

theorem standbyBoundary_keepsAccount (state : (s.ctl.get f).state = .standby) (v : Verdicts) :
    KeepsAccount s (s.standbyBoundary f v) := by
  unfold State.standbyBoundary
  split
  · exact takeOnset_keepsAccount state nofun nofun v
  split
  · exact enterArming_keepsAccount state nofun nofun .invalid
  · exact .refl s

/-- The end that an interruption brings to a feeder in WATCH or RIDE (R8, R10). -/
theorem interrupted_keepsAccount (live : (s.ctl.get f).state ≠ .off) :
    KeepsAccount s ((s.flagInterruption f).enterShed f .interruption .notRiding) := by
  have flagged := flagInterruption_books s f
  exact .afterBooks flagged (enterShed_keepsAccount (by rwa [flagged.states]) _ _)

theorem watchBoundary_keepsAccount (state : (s.ctl.get f).state = .watch) (v : Verdicts) :
    KeepsAccount s (s.watchBoundary f v) := by
  have live : (s.ctl.get f).state ≠ .off := state ▸ nofun
  unfold State.watchBoundary
  split
  · exact enterShed_keepsAccount live _ _
  split
  · exact interrupted_keepsAccount live
  split
  · have ended := State.endSag_books s f .tolerated
    refine .afterBooks ended (.andBooks ?_ (State.endPending_books _ f .notRiding))
    exact setState_keepsAccount ((ended.states f).trans state) nofun nofun .standby .sagEnd
  · exact rideDecision_keepsAccount live

/-- A ride that ends with its sag releases its reservation (R10, R86). -/
theorem rideEnded_keepsAccount (live : (s.ctl.get f).state ≠ .off) (r : Reason) (o : SagOutcome) :
    KeepsAccount s (((((s.releaseEnergy f).stopSource f).closeSag f o).startQuiet f).setState f .recover r) := by
  have stopped : SameBooks (s.releaseEnergy f) ((s.releaseEnergy f).stopSource f) := State.putCtl_books rfl
  have closed := stopped.trans (State.endSag_books _ f o)
  refine .of_release (f := f) ?_ live (fun g ne => ?_) ?_
  · have released := State.releaseEnergy_moves s f .refl
    exact State.setState_moves _ f _ _
      (State.startQuiet_moves _ f (State.closeSag_moves _ f o (State.stopSource_moves _ f released)))
  · rw [((State.setState_steady _ f .recover r).others g ne).1, closed.states,
      ((State.releaseEnergy_steady s f).others g ne).1]
  · rw [State.setState_account, closed.account, State.releaseEnergy, State.putReserved_account]

theorem rideBoundary_keepsAccount (state : (s.ctl.get f).state = .ride) (v : Verdicts) :
    KeepsAccount s (s.rideBoundary f v) := by
  have live : (s.ctl.get f).state ≠ .off := state ▸ nofun
  unfold State.rideBoundary
  split
  · exact enterShed_keepsAccount live _ _
  split
  · exact interrupted_keepsAccount live
  split
  · dsimp only
    refine .andBooks (rideEnded_keepsAccount live .sagEnd .protect) ?_
    exact (State.placeRequest_books _ f _).trans (State.endPending_books _ f .notRiding)
  split
  · exact enterShed_keepsAccount live _ _
  · exact chooseReference_keepsAccount state

theorem recoverBoundary_keepsAccount (state : (s.ctl.get f).state = .recover) (v : Verdicts) :
    KeepsAccount s (s.recoverBoundary f v) := by
  unfold State.recoverBoundary
  split
  · exact takeOnset_keepsAccount state nofun nofun v
  split
  · exact enterShed_keepsAccount (state ▸ nofun) _ _
  · exact .refl s

theorem shedBoundary_books (s : State) (f : Fid) (v : Verdicts) : SameBooks s (s.shedBoundary f v) := by
  unfold State.shedBoundary
  split
  · exact State.openSag_books s f _ _
  split
  · exact State.endSag_books s f .shed
  split
  · exact flagInterruption_books s f
  · exact .refl s

theorem actOn_keepsAccount (s : State) (f : Fid) (v : Verdicts) : KeepsAccount s (s.actOn f v) := by
  unfold State.actOn
  split
  case h_1 => exact .refl s
  case h_2 state => exact armingBoundary_keepsAccount state
  case h_3 state => exact standbyBoundary_keepsAccount state v
  case h_4 state => exact watchBoundary_keepsAccount state v
  case h_5 state => exact rideBoundary_keepsAccount state v
  case h_6 state => exact recoverBoundary_keepsAccount state v
  case h_7 => exact .of_books (shedBoundary_books s f v)
  case h_8 => exact .refl s

theorem expire_keepsAccount (s : State) (f : Fid) : KeepsAccount s (s.expire f) := by
  have closed := State.closeEpisode_books s f .window
  by_cases shed : (s.ctl.get f).state = .shed
  · rw [expire_of_shed shed]
    exact .afterBooks closed (enterArming_keepsAccount ((closed.states f).trans shed) nofun nofun .episodeClosed)
  · rw [expire_of_not_shed shed]
    exact .of_books closed

theorem expireThenAct_keepsAccount (s : State) (f : Fid) (v : Verdicts) : KeepsAccount s (s.expireThenAct f v) := by
  by_cases shed : (s.ctl.get f).state = .shed
  · rw [expireThenAct_of_shed v shed]
    exact expire_keepsAccount s f
  · rw [expireThenAct_of_not_shed v shed]
    exact .afterBooks (State.closeEpisode_books s f .window) (actOn_keepsAccount _ f v)

theorem actThenExpire_keepsAccount (s : State) (f : Fid) (v : Verdicts) : KeepsAccount s (s.actThenExpire f v) := by
  unfold State.actThenExpire
  dsimp only
  split
  · exact (actOn_keepsAccount s f v).trans (expire_keepsAccount _ f)
  · exact actOn_keepsAccount s f v

theorem verdictsAndQuiet_keepsAccount (s : State) (f : Fid) (v : Verdicts) :
    KeepsAccount s (s.verdictsAndQuiet f v) := by
  have drawn : SameBooks s { s with draws := s.draws + 1 } := .of_ctl rfl rfl rfl
  have advanced : SameBooks s (s.advanceQuiet f) := State.putCtl_books rfl
  unfold State.verdictsAndQuiet
  split
  · split
    · dsimp only [State.drawOrder]
      split
      · exact .afterBooks drawn (expireThenAct_keepsAccount _ f v)
      · exact .afterBooks drawn (actThenExpire_keepsAccount _ f v)
    · exact expireThenAct_keepsAccount s f v
  · exact .afterBooks advanced (actOn_keepsAccount _ f v)

theorem boundary_keepsAccount (s : State) (f : Fid) (v : Verdicts) : KeepsAccount s (s.boundary f v) := by
  by_cases off : (s.ctl.get f).state = .off
  · rw [State.boundary, if_pos off]
    exact .refl s
  · have updated : SameBooks s (s.closedHalf f v) := State.putCtl_books rfl
    rw [boundary_live v off]
    exact .andBooks (.afterBooks updated (verdictsAndQuiet_keepsAccount _ f v)) (State.endLate_books _ f)

end

end Sys2Proof.Machine
end

section
namespace Sys2Proof.Machine

/-! ## Groups, silence and the DC link (R18, R26 to R33, R40 to R42, R54) -/

section

variable (s : State) (f : Fid)

theorem reportSync_keepsAccount (old : Tracker) : KeepsAccount s (s.reportSync f old) := by
  unfold State.reportSync
  dsimp only
  split
  · exact .refl s
  split
  · exact .afterBooks (State.recordSync_books s f old _) (trackerLost_keepsAccount _ f)
  · exact .of_books (State.recordSync_books s f old _)

theorem atBoundary_keepsAccount (old : Tracker) (jump : Option Int) (closed : Accum) :
    KeepsAccount s (s.atBoundary f old jump closed) := by
  have reported := (reportSync_keepsAccount s f old).andBooks (State.reportJump_books _ f old.sync jump)
  exact ((reported.andBooks (State.closeHalfCycle_books _ f closed)).trans (boundary_keepsAccount _ f _)).andBooks
    (State.settleResults_books _ s f)

theorem putMonitor_books (m : Monitor) : SameBooks s (s.putMonitor f m) := .of_ctl rfl rfl rfl

theorem putTracker_books (t : Tracker) : SameBooks s (s.putTracker f t) := .of_ctl (by simp) (by simp) (by simp)

theorem onAnswer_keepsAccount (old : Tracker) (a : TrackAnswer) (jump : Option Int) :
    KeepsAccount s (s.onAnswer f old a jump) := by
  cases a with
  | noBoundary => exact .refl s
  | countStarted => exact .of_books (putMonitor_books s f _)
  | boundaryHere => exact .afterBooks (putMonitor_books s f _) (atBoundary_keepsAccount _ f old jump _)
  | boundaryAtN => exact .afterBooks (putMonitor_books s f _) (atBoundary_keepsAccount _ f old jump _)

theorem takeInstant_keepsAccount (x : Instant) : KeepsAccount s (s.takeInstant f x) :=
  .andBooks (.afterBooks (putTracker_books s f _) (onAnswer_keepsAccount _ f _ _ _)) (putMonitor_books _ f _)

theorem takeInstants_keepsAccount (xs : List Instant) : KeepsAccount s (s.takeInstants f xs) :=
  List.foldlRecOn (motive := KeepsAccount s) xs _ (.refl s) fun _ h x _ => h.trans (takeInstant_keepsAccount _ f x)

theorem samplerRestart_keepsAccount : KeepsAccount s (s.samplerRestart f) := by
  have sought := (putMonitor_books s f (s.monitors.get f).clearCounts).trans (State.sendToSeek_books _ f .restart)
  refine .andBooks ?_ (State.settleResults_books _ _ f)
  dsimp only
  split
  · exact .of_books sought
  · exact .afterBooks sought (trackerLost_keepsAccount _ f)

theorem beforeOwn_keepsAccount (c : GroupClass) (last : Phases Sample) : KeepsAccount s (s.beforeOwn f c last) := by
  cases c with
  | bridged g => exact (takeInstants_keepsAccount s f _).andBooks (State.onSag_books _ f _)
  | restart => exact samplerRestart_keepsAccount s f
  | first => exact .refl s
  | normal => exact .refl s
  | unbridged => exact .refl s

theorem restartSilence_books : SameBooks s (s.restartSilence f) := by
  unfold State.restartSilence
  split
  · exact .refl s
  · exact putMonitor_books s f _

theorem completeGroup_keepsAccount (v : Word) : KeepsAccount s (s.completeGroup f v) :=
  (((KeepsAccount.of_books (putMonitor_books s f _)).trans (beforeOwn_keepsAccount _ f _ _)).trans
    (takeInstant_keepsAccount _ f _)).andBooks ((putMonitor_books _ f _).trans (restartSilence_books _ f))

theorem sampleWrite_keepsAccount (place : BitVec 2) (be : BitVec 4) (v : Word) :
    KeepsAccount s (s.sampleWrite f place be v) := by
  unfold State.sampleWrite
  dsimp only
  split
  · exact .of_books (putMonitor_books s f _)
  · exact .of_books (putMonitor_books s f _)
  · exact .of_books (putMonitor_books s f _)
  split
  · exact completeGroup_keepsAccount s f v
  · exact .refl s

theorem silenceExpires_keepsAccount : KeepsAccount s (s.silenceExpires f) := by
  unfold State.silenceExpires
  split
  · exact .refl s
  · refine .andBooks ?_ (State.settleResults_books _ s f)
    exact (fault_keepsAccount s f .noSamples).andBooks ((putMonitor_books _ f _).trans (State.sendToSeek_books _ f .silence))

end

theorem updateUsable_ctl (s : State) (v : Nat) : (s.updateUsable v).ctl = s.ctl := by
  by_cases fits : s.sum ≤ usableFigure s.settings v
  · rw [updateUsable_of_le fits, State.putUsable_ctl]
  · rw [updateUsable_of_lt (Nat.not_le.1 fits), State.handRecord_ctl, State.putUsable_ctl]
    exact (shedUntil_accountOnly _ _ _ s).ctl

/-- An update of the usable figure sheds until Sum fits it, and raises nothing (R75, R76). -/
theorem updateUsable_keepsAccount (s : State) (v : Nat) : KeepsAccount s (s.updateUsable v) := by
  have ctl := updateUsable_ctl s v
  refine .of_lowered (State.updateUsable_moves s v .refl) (fun g => by rw [ctl]) fun g => ?_
  by_cases fits : s.sum ≤ usableFigure s.settings v
  · rw [updateUsable_of_le fits, State.putUsable_account]
  · rw [(updateUsable_sheds (Nat.not_le.1 fits)).reserved]
    exact shedUntil_reserved_le _ _ _ s g

theorem dclinkTake_keepsAccount (s : State) (be : BitVec 4) (v : Word) : KeepsAccount s (s.dclinkTake be v) := by
  have counted : ∀ m : DcMonitor, SameBooks s { s with dclink := m } := fun _ => .of_ctl rfl rfl rfl
  unfold State.dclinkTake
  dsimp only
  split
  · exact .refl s
  split
  · exact .afterBooks (counted _) (updateUsable_keepsAccount _ _)
  · exact .of_books (counted _)

end Sys2Proof.Machine
end

section
namespace Sys2Proof.Machine

/-! ## Replies, notices, alarms and clear requests (R13 to R15, R17, R20, R21, R85) -/

section

variable (s : State) (f : Fid)

/-- A DONE in RIDE consumes of its feeder's reservation and changes no state (R13, R85). -/
theorem engageDone_keepsAccount (ref : Reference) (hc : BitVec 8) (source : Source) (applied : Nat) :
    KeepsAccount s (s.engageDone f ref hc source applied) := by
  have view := State.engageDone_sagView s f ref hc source applied
  have account : (s.engageDone f ref hc source applied).account = (s.charged f ref hc source applied).account := by
    rw [State.engageDone_eq]
    unfold State.commitLine
    dsimp only
    split
    · rfl
    · exact State.makeResult_account _ f _
  have moves : Moves s (s.engageDone f ref hc source applied) := by
    unfold State.engageDone
    simp (maxDischargeDepth := 30) [Moves.refl]
  refine .of_lowered moves (fun g => congrArg SagView.state (congrFun view g)) fun g => ?_
  rw [account, State.charged_account, Per8.get_set]
  split
  · next own => exact own ▸ Nat.sub_le _ _
  · exact Nat.le_refl _

theorem line_then_fault_keepsAccount (code : ResultCode) (r : Reason) :
    KeepsAccount s ((s.settleLine f code none).fault f r) :=
  .afterBooks (State.settleLine_books s f code none) (fault_keepsAccount _ f r)

theorem engageNotReady_keepsAccount : KeepsAccount s (s.engageNotReady f) := by
  have counted : SameBooks s (s.putCtl f { s.ctl.get f with notReadyRun := min 4 ((s.ctl.get f).notReadyRun + 1) }) :=
    State.putCtl_books rfl
  have settled := counted.trans (State.settleLine_books _ f .refusedByModulator none)
  unfold State.engageNotReady
  dsimp only
  split
  · exact .afterBooks settled (fault_keepsAccount _ f .modulator)
  · exact .of_books settled

theorem engageReply_keepsAccount (ref : Reference) (hc : BitVec 8) (source : Source) (r : Reply) :
    KeepsAccount s (s.engageReply f ref hc source r) := by
  unfold State.engageReply
  split
  · cases r with
    | done applied => exact engageDone_keepsAccount s f ref hc source applied
    | notReady => exact engageNotReady_keepsAccount s f
    | hot => exact line_then_fault_keepsAccount s f _ _
    | status _ => exact .refl s
  · cases r with
    | done applied => exact .of_books (State.settleLine_books s f _ _)
    | notReady => exact .of_books (State.settleLine_books s f _ _)
    | hot => exact line_then_fault_keepsAccount s f _ _
    | status _ => exact .refl s

theorem released_keepsAccount : KeepsAccount s (s.released f) := by
  unfold State.released
  split
  · next state => exact setState_keepsAccount state nofun nofun .standby .released
  · exact .refl s

theorem releaseReply_keepsAccount (r : Reply) : KeepsAccount s (s.releaseReply f r) := by
  cases r with
  | done _ => exact released_keepsAccount s f
  | notReady => exact released_keepsAccount s f
  | hot => exact fault_keepsAccount s f .modulator
  | status _ => exact .refl s

theorem statusReply_keepsAccount (r : Reply) : KeepsAccount s (s.statusReply f r) := by
  have ready := fun b => KeepsAccount.of_books (State.setReady_books s f b)
  unfold State.statusReply
  split
  · dsimp only
    split
    · next state => exact (ready true).trans (setState_keepsAccount state.1 nofun nofun .standby .ready)
    · exact ready true
  · exact ready false
  · exact fault_keepsAccount s f .modulator
  · exact ready false
  · exact fault_keepsAccount s f .modulator
  · exact .refl s

/-- A notice that is taken is gone; of the account the invariant does not read it. -/
theorem clearNotice_keepsAccount : KeepsAccount s (s.clearNotice f) :=
  .of_lowered (State.clearNotice_moves s f .refl) (fun _ => rfl) fun _ => Nat.le_refl _

theorem takeNotice_keepsAccount : KeepsAccount s (s.takeNotice f) := by
  unfold State.takeNotice
  split
  · exact .refl s
  · refine .andBooks ?_ (State.settleResults_books _ s f)
    dsimp only
    split
    · next state => exact (clearNotice_keepsAccount s f).trans (enterShed_keepsAccount (state ▸ nofun) _ _)
    · exact clearNotice_keepsAccount s f

theorem alarm_keepsAccount : KeepsAccount s (s.alarm f) :=
  .andBooks (.afterBooks (t := { s with malm := s.malm.set f true }) (.of_ctl rfl rfl rfl)
    (fault_keepsAccount _ f .alarm)) (State.settleResults_books _ _ f)

theorem clearFeeder_keepsAccount : KeepsAccount s (s.clearFeeder f) := by
  unfold State.clearFeeder
  split
  · next state =>
    split
    · exact .of_books (State.handRecord_books s _)
    · exact enterArming_keepsAccount state nofun nofun .cleared
  · exact .refl s

end

theorem clearWord_keepsAccount (s : State) (be : BitVec 4) (v : Word) : KeepsAccount s (s.clearWord be v) := by
  unfold State.clearWord
  split
  · refine List.foldlRecOn (motive := KeepsAccount s) _ _ (.refl s) fun t h f _ => ?_
    split
    · exact h.trans (clearFeeder_keepsAccount t f)
    · exact h
  · exact .refl s

theorem handReply_keepsAccount (s : State) (x : Exchange) (r : Reply) : KeepsAccount s (s.handReply x r) := by
  refine .andBooks ?_ (State.settleResults_books _ s x.feeder)
  split
  · exact engageReply_keepsAccount s _ _ _ _ r
  · exact releaseReply_keepsAccount s _ r
  · exact statusReply_keepsAccount s _ r

/-! ### The line (R119 to R124) -/

/-- A write of the link alone. -/
theorem withLink_books (s : State) (l : Link) : SameBooks s { s with link := l } := .of_ctl rfl rfl rfl

theorem failAttempt_books (s : State) (c : LinkCause) : SameBooks s (s.failAttempt c).1 := by
  unfold State.failAttempt
  split
  · exact withLink_books s _
  split
  · exact withLink_books s _
  split <;> exact withLink_books s _

theorem attemptFails_keepsAccount (s : State) (c : LinkCause) : KeepsAccount s (s.attemptFails c) := by
  have failed := failAttempt_books s c
  unfold State.attemptFails
  split
  · next e => exact .of_books (by rwa [e] at failed)
  · next m x e =>
    refine .afterBooks (by rwa [e] at failed) (.andBooks ?_ (State.settleResults_books _ m x.feeder))
    exact line_then_fault_keepsAccount m x.feeder .linkFailed .link

theorem replyComplete_keepsAccount (s : State) (bytes : List Byte) (stops : Bool) :
    KeepsAccount s (s.replyComplete bytes stops) := by
  unfold State.replyComplete
  split
  · have settled : SameBooks s (s.lineSettle none) := withLink_books s _
    split
    · exact .of_books settled
    split
    · exact attemptFails_keepsAccount s _
    split
    · exact .of_books settled
    · exact .afterBooks settled (handReply_keepsAccount _ _ _)
  · exact .refl s

theorem responseTimeout_keepsAccount (s : State) : KeepsAccount s s.responseTimeout := by
  unfold State.responseTimeout
  split
  · exact attemptFails_keepsAccount s _
  · exact .refl s

theorem replyBreakOff_keepsAccount (s : State) : KeepsAccount s s.replyBreakOff := by
  unfold State.replyBreakOff
  split
  · exact attemptFails_keepsAccount s _
  · exact .refl s

theorem frameEnd_books (s : State) : SameBooks s s.frameEnd := by
  unfold State.frameEnd
  split
  · exact withLink_books s _
  all_goals exact .refl s

theorem replyStart_books (s : State) : SameBooks s s.replyStart := by
  unfold State.replyStart
  split
  · exact withLink_books s _
  all_goals exact .refl s

theorem resyncEnd_books (s : State) : SameBooks s s.resyncEnd := by
  unfold State.resyncEnd
  split
  · exact withLink_books s _
  all_goals exact .refl s

theorem quietEnd_books (s : State) : SameBooks s s.quietEnd := by
  unfold State.quietEnd
  split
  · split
    · exact withLink_books s _
    split <;> exact withLink_books s _
  all_goals exact .refl s

theorem lineIdle_books (s : State) : SameBooks s s.lineIdle := (withLink_books s _).trans (State.arbitrateLine_books _)

theorem settleEnd_books (s : State) : SameBooks s s.settleEnd := by
  unfold State.settleEnd
  split
  · split
    · exact lineIdle_books s
    split
    · exact (withLink_books s _).trans (lineIdle_books _)
    split
    · exact withLink_books s _
    · exact (withLink_books s _).trans (State.handRecord_books _ _)
  all_goals exact .refl s

end Sys2Proof.Machine
end


section
namespace Sys2Proof.Machine

/-! ## Installations (R22, R169, R172) -/

theorem noneResults_account (s : State) : s.noneResults.account = s.account :=
  List.foldlRecOn (motive := fun t : State => t.account = s.account) Fid.all _ rfl fun t h f _ => by
    split
    · rw [State.makeResult_account, h]
    · exact h

theorem oweResync_account (s : State) : s.oweResync.account = s.account := by
  unfold State.oweResync
  dsimp only
  split
  · exact State.arbitrateLine_account _
  · rfl

theorem touchAllMirror_account (s : State) : s.touchAllMirror.account = s.account := by
  obtain ⟨-, blocks, -⟩ := touchMirrors (List.range 40) s
  exact (congrArg (fun u : State => u.account) blocks :)

theorem beforeArming_account (s : State) (addr : Word) (t : Table) : (s.beforeArming addr t).account = s.account := by
  unfold State.beforeArming
  dsimp only
  rw [oweResync_account, noneResults_account, State.handRecord_account, touchAllMirror_account]

/-- Where every feeder is at rest, none holds a reservation (R86). -/
theorem unreserved_of_states {s : State} (inv : s.accountInv) (states : ∀ f, (s.ctl.get f).state ≠ .ride) : s.unreserved :=
  fun f => accountInv_idle inv rfl (states f)

theorem accountInv_of_loaded {s : State} (none : s.unreserved) (loaded : s.table.isSome = true) : s.accountInv :=
  none.accountInv fun missing => absurd (missing ▸ loaded) (by decide)

/-- No feeder rides in quiescence (R170). -/
theorem not_ride_of_quiescent {s : State} (quiet : s.quiescent = true) (f : Fid) : (s.ctl.get f).state ≠ .ride := by
  have feeder := List.all_eq_true.1 quiet f (Fid.mem_all f)
  simp only [State.feederQuiescent, Bool.and_eq_true] at feeder
  obtain ⟨⟨⟨still, -⟩, -⟩, -⟩ := feeder
  intro riding
  rw [riding] at still
  exact absurd still (by decide)

theorem judgeAttn_accountInv {s : State} (none : s.unreserved) (loaded : s.table.isSome = true) : s.judgeAttn.accountInv :=
  accountInv_of_loaded none loaded

/-- A reload finds nothing reserved, and reserves nothing (R170, R172). -/
theorem installReload_keepsAccount {s : State} (quiet : s.quiescent = true) (addr : Word) (old new : Table) :
    KeepsAccount s (s.installReload addr old new) := by
  intro inv
  have before := unreserved_of_states inv (not_ride_of_quiescent quiet)
  have blocks := (beforeFeeders_prelude s addr old new).blocks
  have account : (s.beforeFeeders addr old new).account = s.account := (congrArg (fun u : State => u.account) blocks :)
  have table : (s.beforeFeeders addr old new).table = some new := (congrArg (fun u : State => u.table) blocks :)
  have turned := (ReloadedOver.refl (turnOf old new) (s.beforeFeeders addr old new)).fold table Fid.all Fid.nodup_all
  rw [List.nil_append] at turned
  rw [installReload_eq]
  generalize s.beforeFeeders addr old new = m at account table turned ⊢
  generalize Fid.all.foldl (fun s f => s.reloadOne old (compareTables old new) f) m = r at turned ⊢
  refine judgeAttn_accountInv (fun f => ?_) (by rw [turned.table, table]; rfl)
  have reserved : r.account.reserved.get f = if _ then 0 else m.account.reserved.get f :=
    (turned.done f (Fid.mem_all f)).reserved
  rw [reserved, account, before f, ite_self]

theorem State.unreserved.enterArming {s : State} (h : s.unreserved) (g : Fid) (r : Reason) :
    (s.enterArming g r).unreserved := by
  intro f
  rw [State.enterArming_account]
  split
  · rw [Per8.get_set]
    split
    · rfl
    · exact h f
  · exact h f

/-- A start-up installation finds every feeder in OFF, and its feeders go to ARMING with nothing reserved (R5, R169). -/
theorem installStart_keepsAccount {s : State} (none : s.table = none) (addr : Word) (t : Table) :
    KeepsAccount s (s.installStart addr t) := by
  intro inv
  have ⟨_, _, off⟩ := inv
  have before : (s.beforeArming addr t).unreserved := fun f => by
    rw [beforeArming_account]
    exact accountInv_idle inv (off none f) nofun
  have loaded : (s.beforeArming addr t).table.isSome = true := congrArg SagView.loaded (beforeArming_sagView s addr t 0)
  have armed : (s.beforeArming addr t).armEnabled.unreserved ∧ (s.beforeArming addr t).armEnabled.table.isSome = true := by
    refine List.foldlRecOn (motive := fun m : State => m.unreserved ∧ m.table.isSome = true) Fid.all _ ⟨before, loaded⟩ ?_
    rintro m ⟨reserved, table⟩ g -
    split
    · exact ⟨reserved.enterArming g .table, by rwa [(State.enterArming_beside m g .table).table]⟩
    · exact ⟨reserved, table⟩
  obtain ⟨reserved, table⟩ := armed
  rw [installStart_eq]
  exact judgeAttn_accountInv reserved table

/-! ## The loader (R165 to R172) -/

theorem rejectTable_books (s : State) (addr : Option Word) (r : Reject) : SameBooks s (s.rejectTable addr r) := by
  unfold State.rejectTable
  dsimp only
  split
  · exact (State.putLoader_books s _).trans (State.handRecord_books _ _)
  · exact State.putLoader_books s _

theorem acceptTable_keepsAccount (s : State) (addr : Word) (t : Table) : KeepsAccount s (s.acceptTable addr t) := by
  unfold State.acceptTable
  split
  · split
    · next quiet => exact installReload_keepsAccount quiet addr _ t
    · exact .of_books (State.putLoader_books s _)
  · next none => exact installStart_keepsAccount none addr t

theorem endRead_keepsAccount (s : State) (addr : Word) : KeepsAccount s (s.endRead addr) := by
  unfold State.endRead
  split
  · exact .of_books (rejectTable_books s _ _)
  · exact acceptTable_keepsAccount s addr _

theorem tableWordRead_keepsAccount (s : State) (addr : Word) (index : Nat) (data : Word) :
    KeepsAccount s (s.tableWordRead addr index data) := by
  have read := State.putLoader_books s
    { s.loader with image := s.loader.image ++ [data], read := some ⟨some addr, index + 1, 0⟩ }
  unfold State.tableWordRead
  dsimp only
  split
  · exact .of_books (read.trans (rejectTable_books _ _ _))
  split
  · exact .afterBooks read (endRead_keepsAccount _ addr)
  · exact .of_books read

theorem readAnswered_keepsAccount (s : State) (r : TableRead) (data : Word) (err : Bool) :
    KeepsAccount s (s.readAnswered r data err) := by
  unfold State.readAnswered
  split
  · split
    · exact .of_books (rejectTable_books s _ _)
    · exact .of_books (State.putLoader_books s _)
  split
  · exact .of_books (State.putLoader_books s _)
  · exact tableWordRead_keepsAccount s _ _ data

theorem loaderAnswered_keepsAccount (s : State) (data : Word) (err : Bool) : KeepsAccount s (s.loaderAnswered data err) := by
  unfold State.loaderAnswered
  split
  · next discard _ =>
    have answered : ∀ p : Prop, [Decidable p] →
        SameBooks s (if p then State.releaseHold { s with bus := { s.bus with port := .free } }
          else { s with bus := { s.bus with port := .free } }) := by
      intro p _
      split <;> exact .of_ctl rfl rfl rfl
    dsimp only
    split
    · exact .afterBooks (answered _) (readAnswered_keepsAccount _ _ data err)
    · exact .of_books (answered _)
    · exact .of_books (answered _)
  all_goals exact .refl s

theorem beginRead_books (s : State) : SameBooks s s.beginRead := State.putLoader_books s _

/-- Full reset establishes the invariant (R2, R73). -/
theorem restart_keepsAccount (s : State) : KeepsAccount s s.restart := by
  have reset : KeepsAccount s s.fullReset := fun _ => fullReset_accountInv s
  unfold State.restart
  dsimp only
  split
  · exact reset
  · exact reset.andBooks (beginRead_books _)

theorem loadRequest_books (s : State) : SameBooks s s.loadRequest := by
  unfold State.loadRequest
  split
  · exact (State.putLoader_books s _).trans (beginRead_books _)
  · exact .refl s

theorem startReload_books (s : State) : SameBooks s s.startReload := by
  unfold State.startReload
  split
  · exact (State.putLoader_books s _).trans (beginRead_books _)
  · exact .refl s

theorem requestReload_books (s : State) : SameBooks s s.requestReload := by
  have abandoned : SameBooks s s.abandonRead := .of_ctl rfl rfl rfl
  unfold State.requestReload
  split
  · exact State.putLoader_books s _
  · exact .refl s
  · exact abandoned.trans (State.putLoader_books _ _)
  · exact State.putLoader_books s _

theorem reloadWord_books (s : State) (be : BitVec 4) (v : Word) : SameBooks s (s.reloadWord be v) := by
  unfold State.reloadWord
  split
  · exact .refl s
  · exact (requestReload_books s).trans (startReload_books _)

theorem installHeld_keepsAccount (s : State) : KeepsAccount s s.installHeld := by
  unfold State.installHeld
  split
  · next held =>
    split
    · exact installReload_keepsAccount held.2 _ _ _
    all_goals exact .refl s
  · exact .refl s

theorem initReleased_books (s : State) : SameBooks s s.initReleased := by
  have released : SameBooks s { s with init := false } := .of_ctl rfl rfl rfl
  unfold State.initReleased
  dsimp only
  split
  · exact released.trans (beginRead_books _)
  · exact released

end Sys2Proof.Machine
end


section
namespace Sys2Proof.Machine

/-! ## The writer, the bus and every step (R137, R140 to R164) -/

/-! ### A word of the writer completes (R152, R157, R159, R162) -/

theorem putSummary_books (s : State) (c : BitVec 8) : SameBooks s (s.putSummary c) := .of_ctl (by simp) (by simp) (by simp)

theorem putProducer_books (s : State) (p : BitVec 16) : SameBooks s (s.putProducer p) := .of_ctl (by simp) (by simp) (by simp)

theorem putConsumer_books (s : State) (c : BitVec 16) : SameBooks s (s.putConsumer c) := .of_ctl (by simp) (by simp) (by simp)

theorem deferBurst_books (s : State) (served : Bool) : SameBooks s (s.deferBurst served) := .of_ctl rfl rfl rfl

theorem endBurst_books (s : State) : SameBooks s s.endBurst := .of_ctl rfl rfl rfl

theorem withWriter_books (s : State) (w : Writer) : SameBooks s { s with writer := w } := .of_ctl rfl rfl rfl

theorem withBus_books (s : State) (b : Bus) : SameBooks s { s with bus := b } := .of_ctl rfl rfl rfl

theorem giveUp_books (s : State) : SameBooks s s.giveUp :=
  ((withWriter_books s _).trans ((withWriter_books _ _).trans (putSummary_books _ _))).trans (deferBurst_books _ false)

theorem recordError_books (s : State) (burst : Bool) : SameBooks s (s.recordError burst) := by
  unfold State.recordError
  split
  · exact .refl s
  split
  · dsimp only
    split
    · exact (giveUp_books s).trans (endBurst_books _)
    · exact giveUp_books s
  · exact withWriter_books s _

theorem recordWritten_books (s : State) (k : Nat) : SameBooks s (s.recordWritten k) := by
  unfold State.recordWritten
  split
  · exact .refl s
  split
  · exact ((withWriter_books s _).trans (putProducer_books _ _)).trans (deferBurst_books _ _)
  · exact withWriter_books s _

theorem movedBurstWritten_books (s : State) (k : Nat) (slot : Word) : SameBooks s (s.movedBurstWritten k slot) := by
  unfold State.movedBurstWritten
  split
  · exact endBurst_books s
  · exact withBus_books s _

theorem recordWordComplete_books (s : State) (w : WriterWord) (k : Nat) (err : Bool) :
    SameBooks s (s.recordWordComplete w k err) := by
  unfold State.recordWordComplete
  split
  · exact recordError_books s _
  split
  · split
    · exact movedBurstWritten_books s k _
    · exact recordWritten_books s k
  · exact recordWritten_books s k
  split
  · exact .refl s
  · exact recordWritten_books s k

theorem mirrorWordComplete_books (s : State) (w : WriterWord) (i : Nat) (err : Bool) :
    SameBooks s (s.mirrorWordComplete w i err) := by
  have cleaned : SameBooks s (s.cleanMirror w i) := by
    unfold State.cleanMirror
    split
    · exact .refl s
    · exact withWriter_books s _
  have published : SameBooks (s.cleanMirror w i) ((s.cleanMirror w i).publish w i) := by
    unfold State.publish
    split
    · exact (withWriter_books _ _).trans (.of_ctl rfl rfl rfl)
    · exact .refl _
  have written : SameBooks s (if err then s else (s.cleanMirror w i).publish w i) := by
    split
    · exact .refl s
    · exact cleaned.trans published
  unfold State.mirrorWordComplete
  dsimp only
  generalize (if err then s else (s.cleanMirror w i).publish w i) = m at written ⊢
  split
  · exact written.trans (endBurst_books m)
  · exact written

theorem wordComplete_books (s : State) (w : WriterWord) (err : Bool) : SameBooks s (s.wordComplete w err) := by
  unfold State.wordComplete
  split
  · exact recordWordComplete_books s w _ err
  · exact mirrorWordComplete_books s w _ err
  · unfold State.resultWordComplete
    split
    · exact .refl s
    · exact withWriter_books s _

theorem writerAnswered_books (s : State) (err : Bool) : SameBooks s (s.writerAnswered err) := by
  unfold State.writerAnswered
  split
  · dsimp only
    split
    · exact withBus_books s _
    · exact (withBus_books s _).trans (wordComplete_books _ _ err)
  all_goals exact .refl s

/-! ### The port and what is handed off (R141 to R151) -/

theorem upstreamAnswered_books (s : State) (data : Word) (err : Bool) : SameBooks s (s.upstreamAnswered data err) := by
  unfold State.upstreamAnswered
  split
  · exact withBus_books s _
  all_goals exact .refl s

theorem gapTimeout_books (s : State) : SameBooks s s.gapTimeout := by
  unfold State.gapTimeout
  split
  · exact withBus_books s _
  · exact .refl s

theorem holdWriter_books (s : State) : SameBooks s s.holdWriter := by
  unfold State.holdWriter
  split
  · exact withBus_books s _
  · exact .refl s

theorem holdLoader_books (s : State) : SameBooks s s.holdLoader := by
  unfold State.holdLoader
  split
  · exact withBus_books s _
  · exact .refl s

theorem consumedWord_books (s : State) (be : BitVec 4) (v : Word) : SameBooks s (s.consumedWord be v) := by
  unfold State.consumedWord
  split
  · exact State.handRecord_books s _
  split
  · exact putConsumer_books s _
  · exact State.handRecord_books s _

theorem controlTake_keepsAccount (s : State) (offset : Word) (be : BitVec 4) (v : Word) :
    KeepsAccount s (s.controlTake offset be v) := by
  unfold State.controlTake
  split
  · exact clearWord_keepsAccount s be v
  · exact .of_books (reloadWord_books s be v)
  · exact .of_books (consumedWord_books s be v)
  · exact .of_books (putSummary_books s _)
  · exact .refl s

theorem windowTake_keepsAccount (s : State) (w : WindowEntry) (x : Access) : KeepsAccount s (s.windowTake w x) := by
  unfold State.windowTake
  split
  · exact sampleWrite_keepsAccount s _ _ _ _
  · exact dclinkTake_keepsAccount s _ _
  · exact .of_books (State.stagerWrite_books s _ _ _ _)
  · exact controlTake_keepsAccount s _ _ _
  all_goals exact .refl s

theorem startBlockTake_keepsAccount (s : State) (addr : Word) (be : BitVec 4) (v : Word) :
    KeepsAccount s (s.startBlockTake addr be v) := by
  unfold State.startBlockTake
  split
  · split
    · exact restart_keepsAccount s
    split
    · exact .of_books (loadRequest_books s)
    · exact .refl s
  · exact .refl s

theorem handOff_keepsAccount (s : State) (cls : AccessClass) (x : Access) : KeepsAccount s (s.handOff cls x) := by
  unfold State.handOff
  split
  · split
    · exact startBlockTake_keepsAccount s _ _ _
    · exact .refl s
  · exact .refl s
  · exact windowTake_keepsAccount s _ x

theorem takeAccess_keepsAccount (s : State) (x : Access) : KeepsAccount s (s.takeAccess x) := by
  unfold State.takeAccess
  dsimp only
  refine .afterBooks (withBus_books s { s.bus with turnOwed := false, writerDeferred := false }) ?_
  split
  · unfold State.admitAccess
    dsimp only
    split
    · exact .afterBooks (withBus_books _ _) (handOff_keepsAccount _ _ x)
    · exact .of_books (withBus_books _ _)
  · exact .of_books ((withBus_books _ _).trans (State.handRecord_books _ _))

theorem givePort_keepsAccount (s : State) {again : State → State} (kept : ∀ t, KeepsAccount t (again t)) :
    KeepsAccount s (s.givePort again) := by
  unfold State.givePort
  split
  · split
    · split
      · next x rest _ =>
        exact (KeepsAccount.afterBooks (withBus_books s { s.bus with waiting := rest }) (takeAccess_keepsAccount _ x)).trans
          (kept _)
      · exact .of_books (.of_offPort (State.gapChoice_offPort s))
    · split
      · exact .of_books ((withWriter_books s _).trans (withBus_books _ _))
      · exact .afterBooks (endBurst_books s) (kept _)
    · have released : SameBooks s s.releaseHold := withBus_books s _
      split
      · split
        · exact .afterBooks released (kept _)
        · exact .of_books (withBus_books s _)
      · exact .afterBooks released (kept _)
  · exact .refl s

theorem arbitrate_keepsAccount (fuel : Nat) (s : State) : KeepsAccount s (s.arbitrate fuel) := by
  induction fuel generalizing s with
  | zero => exact .refl s
  | succ fuel ih => exact .afterBooks (.of_offPort (State.judgeHold_offPort s)) (givePort_keepsAccount _ ih)

theorem finish_keepsAccount (s : State) : KeepsAccount s s.finish :=
  (arbitrate_keepsAccount _ s).andBooks (.of_offPort ((State.setGapTimer_offPort _).trans (State.startRecord_offPort _)))

/-! ### Every step -/

theorem tick_books (s : State) : SameBooks s s.tick := by
  unfold State.tick
  split
  · exact .refl s
  · exact .of_ctl rfl rfl rfl

theorem exec_keepsAccount {c : Instr} {s t : State} (h : exec c s = .next t) : KeepsAccount s t := by
  have done : ∀ u : State, KeepsAccount s u → u.done = .next t → KeepsAccount s t := by
    intro u kept e
    obtain rfl : u.finish = t := by injection e
    exact kept.trans (finish_keepsAccount u)
  have init : ∀ b : Bool, SameBooks s { s with init := b } := fun _ => .of_ctl rfl rfl rfl
  cases access : accessOf c with
  | some x =>
    rw [exec_access c x s access] at h
    exact done (s.present x) (.of_books (withBus_books s _)) h
  | none =>
    cases c
    case powerOn b => exact done _ (.afterBooks (init b) (restart_keepsAccount { s with init := b })) h
    case initAssert => exact done _ (fun _ => fullReset_accountInv { s with init := true }) h
    case initRelease => exact done _ (.of_books (initReleased_books s)) h
    case upstreamAccessComplete data err => exact done _ (.of_books (upstreamAnswered_books s data err)) h
    case malmAssert f => exact done _ (alarm_keepsAccount s f) h
    case malmRelease f => exact done { s with malm := s.malm.set f false } (.of_books (.of_ctl rfl rfl rfl)) h
    case silenceExpiry f => exact done _ (silenceExpires_keepsAccount s f) h
    case shedNoticeTaken f => exact done _ (takeNotice_keepsAccount s f) h
    case frameEnd => exact done _ (.of_books (frameEnd_books s)) h
    case replyStart => exact done _ (.of_books (replyStart_books s)) h
    case responseTimeout => exact done _ (responseTimeout_keepsAccount s) h
    case replyComplete bytes stops => exact done _ (replyComplete_keepsAccount s bytes stops) h
    case replyBreakOff => exact done _ (replyBreakOff_keepsAccount s) h
    case settleEnd => exact done _ (.of_books (settleEnd_books s)) h
    case resyncEnd => exact done _ (.of_books (resyncEnd_books s)) h
    case quietEnd => exact done _ (.of_books (quietEnd_books s)) h
    case writerWordComplete err => exact done _ (.of_books (writerAnswered_books s err)) h
    case loaderReadComplete data err => exact done _ (loaderAnswered_keepsAccount s data err) h
    case writerBurstHold => exact done _ (.of_books (holdWriter_books s)) h
    case loaderGapTimeout => exact done _ (.of_books (gapTimeout_books s)) h
    case loaderHold => exact done _ (.of_books (holdLoader_books s)) h
    case reloadReadStart => exact done _ (.of_books (startReload_books s)) h
    case heldImageInstall => exact done _ (installHeld_keepsAccount s) h
    all_goals cases access

theorem step_keepsAccount {s t : State} (h : step s = .next t) : KeepsAccount s t := by
  unfold step at h
  split at h
  · obtain rfl : s.tick = t := by injection h
    exact .of_books (tick_books s)
  · next c rest _ => exact .afterBooks (t := { s with pending := rest }) (.of_ctl rfl rfl rfl) (exec_keepsAccount h)

/-- Settles O54: a step leaves a feeder in RIDE or with nothing reserved, and of the account it makes no change that R74
does not bound. -/
theorem sumStaysWithinUsable : Obligations.SumStaysWithinUsable := fun _ _ inv stepped => step_keepsAccount stepped inv

end Sys2Proof.Machine
end

section
namespace Sys2Proof.Machine

/-! ## The checks of a completed record (R96, R97, R173) -/

/-- The distance is the target less the half-cycle number, modulo 256 (R97). -/
theorem distance_eq (target hc : BitVec 8) : distance target hc = (target.toNat + 256 - hc.toNat) % 256 := by
  unfold distance
  rw [BitVec.toNat_sub]
  have := hc.isLt
  omega

theorem distance_le (target hc : BitVec 8) : distance target hc ≤ 255 := by
  rw [distance_eq]
  omega

theorem judgeDistance_near {d : Nat} (near : d = 1 ∨ d = 2) : judgeDistance d = none := if_pos near

theorem judgeDistance_early {d : Nat} (low : 3 ≤ d) (high : d ≤ 127) : judgeDistance d = some .tooEarly := by
  unfold judgeDistance
  rw [if_neg (by omega), if_pos ⟨low, high⟩]

theorem judgeDistance_late {d : Nat} (late : d = 0 ∨ 128 ≤ d) : judgeDistance d = some .late := by
  unfold judgeDistance
  rw [if_neg (by omega), if_neg (by omega)]

/-- The sum of a record's words, taken from its first and its last (R173). -/
theorem wordSum_record (w0 w7 : Word) (ws : List Word) : wordSum (w0 :: w7 :: ws) = ws.foldl (· + ·) (w0 + w7) := by
  simp [wordSum]

/-- The two nibbles of the feeder field's byte, and the source bits (R96 step 4). -/
theorem namesFeeder_iff (w0 : Word) (f : Fid) :
    namesFeeder w0 f = true ↔ (w0.extractLsb' 0 8).toNat = f.val ∧ w0.extractLsb' 24 8 = 0#8 := by
  have feeder := f.isLt
  have low : (w0.extractLsb' 0 8).toNat = (w0.extractLsb' 0 4).toNat + 16 * (w0.extractLsb' 4 4).toNat := by
    simp only [BitVec.extractLsb'_toNat, Nat.shiftRight_eq_div_pow]
    omega
  have nibble := (w0.extractLsb' 0 4).isLt
  simp only [namesFeeder, field, Bool.and_eq_true, beq_iff_eq, low]
  rw [← BitVec.toNat_inj (x := w0.extractLsb' 24 8)]
  constructor
  · rintro ⟨⟨first, second⟩, source⟩
    exact ⟨by omega, source⟩
  · rintro ⟨byte, source⟩
    exact ⟨⟨by omega, by omega⟩, source⟩

/-- The judging of a record, check by check (R96). -/
theorem judgeRecord_eq (s : State) (f : Fid) (a : Assembly) (w7 : Word) :
    s.judgeRecord f a w7 =
      if a.broken = true then some .broken
      else if none ∈ a.words then some .incomplete
      else if (a.words.map fun w => w.getD 0#32).foldl (· + ·) (a.word0 + w7) ≠ 0#32 then some .checkFailed
      else if ¬ ((a.word0.extractLsb' 0 8).toNat = f.val ∧ a.word0.extractLsb' 24 8 = 0#8) then some .wrongFeeder
      else if (s.stagers.get f).lastSeq = some (a.word0.extractLsb' 8 8) then some .duplicate
      else (judgeDistance (distance (a.word0.extractLsb' 16 8) (s.trackers.get f).hc)).or
        (if (s.ctl.get f).state = .watch ∨ (s.ctl.get f).state = .ride then none else some .notRiding) := by
  have missing : a.words.any Option.isNone = true ↔ none ∈ a.words := by simp
  have named : (!namesFeeder a.word0 f) = true ↔
      ¬ ((a.word0.extractLsb' 0 8).toNat = f.val ∧ a.word0.extractLsb' 24 8 = 0#8) := by
    rw [← namesFeeder_iff, Bool.not_eq_true', Bool.not_eq_true]
  unfold State.judgeRecord
  simp only [missing, named, wordSum_record, bne_iff_ne, beq_iff_eq, Ident.ofWord0]
  cases judgeDistance (distance (a.word0.extractLsb' 16 8) (s.trackers.get f).hc) with
  | some code => rfl
  | none => cases (s.ctl.get f).state <;> simp

/-- The last two checks, for a record that passes the first five. -/
theorem judgeRecord_checked {s : State} {f : Fid} {a : Assembly} {w7 : Word} (whole : a.broken = false)
    (complete : none ∉ a.words) (sum : (a.words.map fun w => w.getD 0#32).foldl (· + ·) (a.word0 + w7) = 0#32)
    (named : (a.word0.extractLsb' 0 8).toNat = f.val ∧ a.word0.extractLsb' 24 8 = 0#8)
    (fresh : (s.stagers.get f).lastSeq ≠ some (a.word0.extractLsb' 8 8)) :
    s.judgeRecord f a w7 =
      (judgeDistance (distance (a.word0.extractLsb' 16 8) (s.trackers.get f).hc)).or
        (if (s.ctl.get f).state = .watch ∨ (s.ctl.get f).state = .ride then none else some .notRiding) := by
  rw [judgeRecord_eq, if_neg (by simp [whole]), if_neg complete, if_neg (not_not.2 sum), if_neg (not_not.2 named),
    if_neg fresh]

/-- Settles O10: the distance fixes its judgement, and a record that passes the first five checks is left to that judgement
and to the feeder's state. -/
theorem distanceJudgement : Obligations.DistanceJudgement := by
  intro s f a w7 target hc d sum
  refine ⟨distance_eq target hc, distance_le target hc, fun now => judgeDistance_late (.inl now), judgeDistance_near,
    judgeDistance_early, fun past => judgeDistance_late (.inr past), fun whole complete zero feeder source fresh => ?_⟩
  rw [judgeRecord_checked whole complete zero ⟨feeder, source⟩ fresh]
  refine ⟨fun code judged => ?_, fun passes => ?_⟩
  · rw [judged, Option.some_or]
  · rw [passes, Option.none_or]

/-- Settles O17: each check is reached by a record that passes those before it. -/
theorem recordJudgedInOrder : Obligations.RecordJudgedInOrder := by
  intro s f a w7 r seq d riding sum named
  have order : r = _ := judgeRecord_eq s f a w7
  refine ⟨fun broken => ?_, fun whole missing => ?_, fun whole complete => ⟨fun wrong => ?_, fun zero =>
    ⟨fun other => ?_, fun own => ⟨fun again => ?_, fun fresh => ?_⟩⟩⟩⟩
  · rw [order, if_pos broken]
  · rw [order, if_neg (by simp [whole]), if_pos missing]
  · rw [order, if_neg (by simp [whole]), if_neg complete, if_pos wrong]
  · rw [order, if_neg (by simp [whole]), if_neg complete, if_neg (not_not.2 zero), if_pos other]
  · rw [order, if_neg (by simp [whole]), if_neg complete, if_neg (not_not.2 zero), if_neg (not_not.2 own), if_pos again]
  · have last : r = _ := judgeRecord_checked whole complete zero own fresh
    refine ⟨fun late => ?_, fun low high => ?_, fun near idle => ?_, fun near rides => ?_⟩
    · rw [last, judgeDistance_late late, Option.some_or]
    · rw [last, judgeDistance_early low high, Option.some_or]
    · rw [last, judgeDistance_near near, Option.none_or, if_neg idle]
    · rw [last, judgeDistance_near near, Option.none_or, if_pos rides]

end Sys2Proof.Machine
end

section
namespace Sys2Proof.Machine

/-! ## Accesses that the port takes at once (R143, R145, R146, R148) -/

/-- The end of a permitted access: it is on the port, and a write has been handed over. -/
theorem access_ends {c : Instr} {x : Access} {s u : State} (command : accessOf c = some x) (once : s.takesAtOnce)
    (permitted : accessPermitted (s.classify x.addr) x = true) (takes : s.takeAccess x = u) :
    Completes c s fun t => t.bus.port = .upstream ∧ EndsAs u t := by
  obtain ⟨t, run, off, up⟩ := completes_access c x s command once permitted
  obtain ⟨onPort, -⟩ := State.takeAccess_permitted s x permitted
  exact ⟨t, run, up, takes ▸ ⟨off, fun _ => up.trans onPort.symm⟩⟩

/-- A read is handed to nobody (R145). -/
theorem takeAccess_read {s : State} {x : Access} (permitted : accessPermitted (s.classify x.addr) x = true)
    (read : x.write = false) : s.takeAccess x = s.taken x := by
  rw [State.takeAccess_eq s x permitted, read]
  rfl

/-- A write goes to the owner that its class names (R141, R146). -/
theorem takeAccess_write {s : State} {x : Access} (permitted : accessPermitted (s.classify x.addr) x = true)
    (write : x.write = true) : s.takeAccess x = (s.taken x).handOff (s.classify x.addr) x := by
  rw [State.takeAccess_eq s x permitted, write]
  rfl

/-- A permitted access that no owner acts on passes to memory, and changes nothing else. -/
theorem access_passes {c : Instr} {x : Access} {s : State} (command : accessOf c = some x) (once : s.takesAtOnce)
    (permitted : accessPermitted (s.classify x.addr) x = true)
    (left : x.write = true → (s.taken x).handOff (s.classify x.addr) x = s.taken x) :
    Completes c s fun t => t.offPort = (s.taken x).offPort ∧ t.bus.port = .upstream := by
  have takes : s.takeAccess x = s.taken x := by
    cases write : x.write with
    | false => exact takeAccess_read permitted write
    | true => rw [takeAccess_write permitted write, left write]
  obtain ⟨t, run, up, e⟩ := access_ends command once permitted takes
  exact ⟨t, run, e.offPort, up⟩

theorem classify_start {a : Word} (s : State) (start : a.inStartBlock = true) : s.classify a = .start := if_pos start

/-- The class START permits every access, and PLAIN does (R143, R145). -/
theorem permitted_start (x : Access) : accessPermitted .start x = true := by
  unfold accessPermitted
  split <;> rfl

theorem permitted_plain (x : Access) : accessPermitted .plain x = true := by
  unfold accessPermitted
  split <;> rfl

/-- A window permits every read but a GUARD's (R145). -/
theorem permitted_read {x : Access} {w : WindowEntry} (read : x.write = false) (unguarded : w.kind ≠ .guard) :
    accessPermitted (.window w) x = true := by
  simp [accessPermitted, read, readPermitted, unguarded]

/-- A CONTROL window permits the processor's writes (R143). -/
theorem permitted_control {w : WindowEntry} (a : Word) (be : BitVec 4) (v : Word) (control : w.kind = .control) :
    accessPermitted (.window w) (processorWrite a be v) = true := by
  simp [accessPermitted, processorWrite, writePermitted, control]

/-- The aliased slot of a REFERENCE window permits them too (R143). -/
theorem permitted_alias {w : WindowEntry} {a : Word} (be : BitVec 4) (v : Word) (reference : w.kind = .reference)
    (slot : refSlot (w.offset a) = .alias0) : accessPermitted (.window w) (processorWrite a be v) = true := by
  simp [accessPermitted, processorWrite, writePermitted, reference, slot]

/-- An access to the aliased slot goes to the open page on a write and to the committed page on a read (R93, R145, R146). -/
theorem taken_current_alias {s : State} {x : Access} {w : WindowEntry} (window : s.classify x.addr = .window w)
    (reference : w.kind = .reference) (slot : refSlot (w.offset x.addr) = .alias0) :
    (s.taken x).bus.current = some ⟨x, .window w,
      pageWord w (if x.write then (s.stagers.get w.feeder).committed.other else (s.stagers.get w.feeder).committed)
        (w.offset x.addr)⟩ := by
  change some (⟨x, s.classify x.addr, s.downAddr (s.classify x.addr) x⟩ : Current) = _
  rw [window]
  simp [State.downAddr, reference, slot]

/-- The committed page's word, and the open page's (R93). -/
theorem pageWord_committed (w : WindowEntry) (p : Page) (o : Word) :
    pageWord w p o = (w.base + if p = .page0 then 32#32 else 64#32) + (o &&& 31#32) := by
  cases p <;> rfl

theorem pageWord_open (w : WindowEntry) (p : Page) (o : Word) :
    pageWord w p.other o = (w.base + if p = .page0 then 64#32 else 32#32) + (o &&& 31#32) := by
  cases p <;> rfl

/-! ## Accesses that only pass (R93, R141, R142, R145, R147) -/

/-- The block's first word is the one of its four with place 0 (R141). -/
theorem startBlock_word {a : Word} (aligned : a.aligned = true) (start : a.inStartBlock = true)
    (first : a.extractLsb' 2 2 = 0#2) : a = Config.startBlock := by
  unfold Word.aligned at aligned
  unfold Word.inStartBlock Config.startBlock at start
  rw [beq_iff_eq] at aligned start
  unfold Config.startBlock
  have low := congrArg BitVec.toNat aligned
  have place := congrArg BitVec.toNat first
  have high := congrArg BitVec.toNat start
  simp only [BitVec.extractLsb'_toNat, Nat.shiftRight_eq_div_pow, BitVec.toNat_ofNat] at low place high
  have := a.isLt
  apply BitVec.eq_of_toNat_eq
  rw [BitVec.toNat_ofNat]
  omega

/-- A start-block write that is no code is left alone (R141, R166). -/
theorem handOff_notStartCode (s : State) {tag : BitVec 2} {a : Word} {be : BitVec 4} {v : Word}
    (aligned : a.aligned = true) (start : a.inStartBlock = true) (other : notStartCode tag a be v = true) :
    s.handOff .start (taggedWrite tag a be v) = s := by
  change (if tag = tagProcessor ∧ (!s.init) = true then s.startBlockTake a be v else s) = s
  split
  · next sender =>
    unfold State.startBlockTake
    split
    · next word =>
      have code : v ≠ 1#32 ∧ v ≠ 2#32 := by
        simpa [notStartCode, sender.1, word.2, startBlock_word aligned start word.1] using other
      rw [if_neg code.2, if_neg code.1]
    · rfl
  · rfl

/-- A CONTROL word beyond the first four has no owner (R147). -/
theorem controlTake_other (s : State) {o : Word} (be : BitVec 4) (v : Word) (other : 16 ≤ o.toNat) :
    s.controlTake o be v = s := by
  have place : ∃ n, o.toNat / 4 = n + 4 := ⟨o.toNat / 4 - 4, by omega⟩
  obtain ⟨n, place⟩ := place
  unfold State.controlTake
  rw [place]
  rfl

/-- A CONTROL write is handed to the owner of its word (R147). -/
theorem handOff_control (s : State) {w : WindowEntry} (a : Word) (be : BitVec 4) (v : Word) (control : w.kind = .control) :
    s.handOff (.window w) (processorWrite a be v) = s.controlTake (w.offset a) be v := by
  change s.windowTake w _ = _
  unfold State.windowTake
  rw [control]
  rfl

/-- Settles O27: each of these accesses is permitted, and is a read or a write that no owner acts on. -/
theorem passingAccesses : Obligations.PassingAccesses := by
  intro s once passes
  refine ⟨fun tag a be v aligned start other => ?_, fun x start read => ⟨?_, ?_⟩, fun x plain => ?_,
    fun x w window read unguarded => ?_, fun tag a w window reference slot => ⟨?_, ?_⟩,
    fun a be v w window control other => ?_⟩
  · have cls : s.classify (taggedWrite tag a be v).addr = .start := classify_start s start
    refine access_passes rfl once (by rw [cls]; exact permitted_start _) fun _ => ?_
    rw [cls, handOff_notStartCode _ aligned start other]
  · refine access_passes rfl once (by rw [classify_start s start]; exact permitted_start x) fun write => ?_
    rw [read] at write
    cases write
  · change some (⟨x, s.classify x.addr, s.downAddr (s.classify x.addr) x⟩ : Current) = _
    rw [classify_start s start]
    rfl
  · refine access_passes rfl once (by rw [plain]; exact permitted_plain x) fun _ => ?_
    rw [plain]
    rfl
  · refine access_passes rfl once (by rw [window]; exact permitted_read read unguarded) fun write => ?_
    rw [read] at write
    cases write
  · have cls : s.classify (taggedRead tag a).addr = .window w := window
    exact access_passes rfl once (by rw [cls]; exact permitted_read rfl (by simp [reference])) fun write => nomatch write
  · rw [taken_current_alias (x := taggedRead tag a) window reference slot]
    exact congrArg (fun d => some (⟨_, _, d⟩ : Current)) (pageWord_committed w _ (w.offset a))
  · have cls : s.classify (processorWrite a be v).addr = .window w := window
    refine access_passes rfl once (by rw [cls]; exact permitted_control a be v control) fun _ => ?_
    rw [cls, handOff_control _ a be v control, controlTake_other _ be v other]

/-! ## A write of an aliased word, handed to its stager (R93, R143, R146) -/

/-- The processor's write goes to the open page (R93, R146). -/
theorem taken_current_write {s : State} {a : Word} (be : BitVec 4) (v : Word) {w : WindowEntry}
    (window : s.classify a = .window w) (reference : w.kind = .reference) (slot : refSlot (w.offset a) = .alias0) :
    (s.taken (processorWrite a be v)).bus.current = some ⟨processorWrite a be v, .window w,
      (w.base + if (s.stagers.get w.feeder).committed = .page0 then 64#32 else 32#32) + (w.offset a &&& 31#32)⟩ := by
  rw [taken_current_alias (x := processorWrite a be v) window reference slot, ← pageWord_open]
  rfl

/-- The write is on the port, at the open page, and the feeder's stager has it. -/
theorem alias_hands {c : Instr} {s : State} {a : Word} {be : BitVec 4} {v : Word} {w : WindowEntry}
    (command : accessOf c = some (processorWrite a be v)) (once : s.takesAtOnce) (window : s.classify a = .window w)
    (reference : w.kind = .reference) (slot : refSlot (w.offset a) = .alias0) :
    Completes c s fun t => t.bus.port = .upstream ∧
      t.bus.current = some ⟨processorWrite a be v, .window w,
        (w.base + if (s.stagers.get w.feeder).committed = .page0 then 64#32 else 32#32) + (w.offset a &&& 31#32)⟩ ∧
      sameSurroundings (s.taken (processorWrite a be v)) t ∧
      EndsAs ((s.taken (processorWrite a be v)).stagerWrite w.feeder a.slotPlace.toNat be v) t := by
  have cls : s.classify (processorWrite a be v).addr = .window w := window
  have permitted : accessPermitted (s.classify (processorWrite a be v).addr) (processorWrite a be v) = true := by
    rw [cls]
    exact permitted_alias be v reference slot
  have takes : s.takeAccess (processorWrite a be v) =
      (s.taken (processorWrite a be v)).stagerWrite w.feeder a.slotPlace.toNat be v := by
    rw [takeAccess_write permitted rfl, cls]
    change (s.taken _).windowTake w _ = _
    unfold State.windowTake
    rw [reference]
    rfl
  obtain ⟨t, run, up, e⟩ := access_ends command once permitted takes
  have surroundings := e.surroundings (State.stagerWrite_moves _ _ _ _ _ .refl).surroundings
  refine ⟨t, run, up, ?_, surroundings, e⟩
  obtain ⟨-, -, -, -, -, -, bus, -⟩ := surroundings
  exact (congrArg (fun b : Bus => b.current) bus :).trans (taken_current_write be v window reference slot)

/-! ## What a result leaves (R109, R110, R163) -/

theorem makeResult_blocks (s : State) (f : Fid) (x : Finding) :
    (s.makeResult f x).blocks = State.blocks { s with stagers := (s.makeResult f x).stagers } := by
  simp [State.blocks]

theorem makeResult_slotDirty (s : State) (f : Fid) (x : Finding) : SlotDirty f (s.makeResult f x) := by
  unfold State.makeResult
  dsimp only
  split
  · exact (State.handRecord_moves _ _ .refl).slotDirty (State.touchResult_slotDirty _ f)
  · exact State.touchResult_slotDirty _ f

/-- A result whose code calls for a record hands over that record (R110). -/
theorem makeResult_hands_record (s : State) (f : Fid) (x : Finding) (rejected : x.code.rejected = true) :
    Hands s (s.makeResult f x) [.refRejected f (s.resultOf f x)] := by
  have hands := Logs.makeResult_hands s f x
  rwa [Logs.refRecords_single, if_pos (show (s.resultOf f x).code.rejected = true from rejected)] at hands

/-- One whose code calls for none changes its stager alone, up to the marks. -/
theorem makeResult_offMarks (s : State) (f : Fid) (x : Finding) (kept : x.code.rejected = false) :
    (s.makeResult f x).offMarks = State.offMarks { s with stagers := (s.makeResult f x).stagers } := by
  unfold State.makeResult
  simp only [kept]
  rfl

/-- At a port that takes an access at once no word is on the port, so the marks are all that a result leaves there. -/
theorem slotMarked_of_free {s t : State} {f : Fid} (free : s.bus.port = .free)
    (dirty : t.writer.resultDirty.get f = List.replicate 8 true) : slotMarked s t f := by
  refine ⟨dirty, fun w d i _ carries => ?_⟩
  rw [free] at carries
  cases carries

/-! ## What the stager does with a write, place by place (R94, R95, R96, R104) -/

/-- The assembly that a write of word 0 opens (R94). -/
def Assembly.opened (be : BitVec 4) (v : Word) : Assembly :=
  { word0 := v &&& byteMask be, words := [none, none, none, none, none, none], broken := be != 15#4 }

/-- The stager opens it in that form. -/
theorem Assembly.opened_eq (be : BitVec 4) (v : Word) :
    ({ word0 := enabledBytes be v, words := List.replicate 6 none, broken := be != allBytes } : Assembly) = .opened be v := rfl

/-- A write of word 0 with no assembly open opens one (R94). -/
theorem stagerWrite_opens {s : State} {f : Fid} (be : BitVec 4) (v : Word) (closed : (s.stagers.get f).assembly = none) :
    s.stagerWrite f 0 be v = s.putStager f
      { s.stagers.get f with
        owner := none
        assembly := some (.opened be v) } := by
  simp [State.stagerWrite, State.aliasWord0, State.disown, State.putStager, closed, Assembly.opened, enabledBytes, allBytes]

/-- With one open, that one ends ABANDONED first, with its record (R94, R104, R109, R110). -/
theorem stagerWrite_abandons {s : State} {f : Fid} (be : BitVec 4) (v : Word) {old : Assembly}
    (standing : (s.stagers.get f).assembly = some old) :
    let r := s.resultOf f (.ofIdent .abandoned (Ident.ofWord0 old.word0))
    let t := s.stagerWrite f 0 be v
    t.stagers = s.stagers.set f
        { s.stagers.get f with
          owner := none
          assembly := some (.opened be v)
          number := (s.stagers.get f).number + 1#8
          latest := some r } ∧
      Hands s t [.refRejected f r] ∧ SlotDirty f t := by
  intro r t
  have held : ((s.disown f).stagers.get f).assembly = some old := by simp [State.disown, State.putStager, standing]
  have same : (s.disown f).resultOf f (.ofIdent .abandoned (Ident.ofWord0 old.word0)) = r := by
    simp [r, State.resultOf, State.disown, State.putStager]
  have effect : t =
      let made := (s.disown f).makeResult f (.ofIdent .abandoned (Ident.ofWord0 old.word0))
      made.putStager f
        { made.stagers.get f with assembly := some (.opened be v) } := by
    simp only [t, State.stagerWrite, State.aliasWord0, held, if_pos, Assembly.opened_eq]
  have hands := makeResult_hands_record (s.disown f) f (.ofIdent .abandoned (Ident.ofWord0 old.word0)) rfl
  rw [same] at hands
  have before : Hands s (s.disown f) [] := .nothing rfl rfl rfl rfl rfl
  have after : ∀ (u : State) (g : Stager), Hands u (u.putStager f g) [] := fun _ _ => .nothing rfl rfl rfl rfl rfl
  rw [effect]
  refine ⟨?_, before.trans (hands.trans (after _ _)), makeResult_slotDirty (s.disown f) f _⟩
  simp [State.disown, State.putStager, State.resultOf, r]

/-- A write of word 1 to 6 is held in the open assembly, or breaks it (R95). -/
theorem stagerWrite_middle (s : State) (f : Fid) {i : Nat} (be : BitVec 4) (v : Word) (first : i ≠ 0) (last : i ≠ 7) :
    s.stagerWrite f i be v = s.putStager f
      { s.stagers.get f with
        owner := none
        assembly := (s.stagers.get f).assembly.map fun x =>
          if be = 15#4 then { x with words := x.words.set (i - 1) (some v) } else { x with broken := true } } := by
  unfold State.stagerWrite
  rw [if_neg first, if_neg last]
  unfold State.aliasMiddle
  cases standing : (s.stagers.get f).assembly with
  | none => simp [State.disown, State.putStager, standing]
  | some x => by_cases full : be = 15#4 <;> simp [State.disown, State.putStager, standing, allBytes, full]

/-- A write of word 7 with no assembly open clears the page owner alone (R104). -/
theorem stagerWrite_last_closed {s : State} {f : Fid} (be : BitVec 4) (v : Word)
    (closed : (s.stagers.get f).assembly = none) :
    s.stagerWrite f 7 be v = s.putStager f { s.stagers.get f with owner := none } := by
  simp [State.stagerWrite, State.aliasWord7, State.disown, State.putStager, closed]

/-- The judging reads nothing of the page owner. -/
theorem judgeRecord_disown (s : State) (f : Fid) (a : Assembly) (w7 : Word) :
    (s.disown f).judgeRecord f a w7 = s.judgeRecord f a w7 := by
  have lastSeq : ((s.disown f).stagers.get f).lastSeq = (s.stagers.get f).lastSeq := by
    simp [State.disown, State.putStager]
  unfold State.judgeRecord
  rw [lastSeq]
  rfl

/-- With one open, it ends and is judged (R96). -/
theorem stagerWrite_completes {s : State} {f : Fid} (be : BitVec 4) (v : Word) {x : Assembly}
    (standing : (s.stagers.get f).assembly = some x) :
    let x' : Assembly := { x with broken := x.broken || be != 15#4 }
    let ended := s.putStager f { s.stagers.get f with owner := none, assembly := none }
    s.stagerWrite f 7 be v = (s.judgeRecord f x' v).elim (ended.acceptRecord f x')
      fun code => ended.makeResult f (.ofIdent code (Ident.ofWord0 x.word0)) := by
  have completed : (if be = allBytes then x else { x with broken := true }) =
      { x with broken := x.broken || be != 15#4 } := by
    by_cases full : be = 15#4 <;> simp [allBytes, full]
  have ended : (s.disown f).putStager f { (s.disown f).stagers.get f with assembly := none } =
      s.putStager f { s.stagers.get f with owner := none, assembly := none } := by
    simp [State.disown, State.putStager]
  have held : ((s.disown f).stagers.get f).assembly = some x := by simp [State.disown, State.putStager, standing]
  unfold State.stagerWrite State.aliasWord7
  rw [if_neg (by decide), if_pos rfl, held]
  dsimp only
  rw [completed, ended, judgeRecord_disown]
  cases s.judgeRecord f { x with broken := x.broken || be != 15#4 } v <;> rfl

end Sys2Proof.Machine
end

section
namespace Sys2Proof.Machine

/-! ## What a write of an aliased word leaves alone -/

/-- Of what the other blocks hold, only feeder `f`'s stager may have changed. -/
structure StagerOnly (f : Fid) (s t : State) : Prop where
  blocks : t.blocks = State.blocks { s with stagers := t.stagers }
  others : ∀ h, h ≠ f → t.stagers.get h = s.stagers.get h

namespace StagerOnly

variable {f : Fid} {s t u : State}

theorem refl (f : Fid) (s : State) : StagerOnly f s s := ⟨rfl, fun _ _ => rfl⟩

theorem trans (h : StagerOnly f s t) (k : StagerOnly f t u) : StagerOnly f s u := by
  have first : State.blocks { t with stagers := u.stagers } = State.blocks { s with stagers := u.stagers } :=
    congrArg (fun v : State => { v with stagers := u.stagers }) h.blocks
  exact ⟨k.blocks.trans first, fun g ne => (k.others g ne).trans (h.others g ne)⟩

theorem putStager (h : StagerOnly f s t) (g : Stager) : StagerOnly f s (t.putStager f g) :=
  h.trans ⟨rfl, fun _ ne => Per8.get_set_ne _ _ ne⟩

theorem makeResult (h : StagerOnly f s t) (x : Finding) : StagerOnly f s (t.makeResult f x) :=
  h.trans ⟨makeResult_blocks t f x, fun _ ne => by simp [Per8.get_set_ne _ _ ne]⟩

theorem endPending (h : StagerOnly f s t) (c : ResultCode) : StagerOnly f s (t.endPending f c) :=
  h.trans ⟨State.endPending_blocks t f c, fun _ ne => State.endPending_stager_ne t f c ne⟩

theorem aliasWord0 (h : StagerOnly f s t) (be : BitVec 4) (v : Word) : StagerOnly f s (t.aliasWord0 f be v) := by
  unfold State.aliasWord0
  dsimp only
  split
  · exact h.putStager _
  · exact (h.makeResult _).putStager _

theorem aliasMiddle (h : StagerOnly f s t) (i : Nat) (be : BitVec 4) (v : Word) :
    StagerOnly f s (t.aliasMiddle f i be v) := by
  unfold State.aliasMiddle
  dsimp only
  split
  · exact h
  · exact h.putStager _

theorem aliasWord7 (h : StagerOnly f s t) (be : BitVec 4) (v : Word) : StagerOnly f s (t.aliasWord7 f be v) := by
  unfold State.aliasWord7
  split
  · exact h
  · dsimp only
    split
    · exact (h.putStager _).makeResult _
    · exact ((h.putStager _).endPending _).putStager _

theorem stagerWrite (f : Fid) (s : State) (i : Nat) (be : BitVec 4) (v : Word) :
    StagerOnly f s (s.stagerWrite f i be v) := by
  have disowned : StagerOnly f s (s.disown f) := (refl f s).putStager _
  unfold State.stagerWrite
  dsimp only
  split
  · exact disowned.aliasWord0 be v
  · split
    · exact disowned.aliasWord7 be v
    · exact disowned.aliasMiddle i be v

/-- The same of the state in which the event ends. -/
theorem ends (h : StagerOnly f s t) (e : EndsAs t u) : StagerOnly f s u := by
  have blocks : u.blocks = t.blocks := (congrArg State.blocks e.offPort :)
  refine ⟨?_, fun g ne => ?_⟩
  · rw [blocks, h.blocks, e.stagers]
  · rw [e.stagers, h.others g ne]

end StagerOnly

/-! ## Acceptance (R99) -/

/-- An accepted record, in the form in which its words were held (R99, Formats 12.1). -/
theorem acceptedRecord_held (limit serial : Nat) (w0 : Word) (ws : List (Option Word)) :
    let word := fun i => (ws.getD i none).getD 0#32
    let low := fun i => (word i).toNat % 65536
    acceptedRecord limit serial w0 (ws.map fun w => w.getD 0#32) =
      { serial := serial, seq := w0.extractLsb' 8 8, target := w0.extractLsb' 16 8
        ref := ⟨⟨min limit (low 0), (word 1).extractLsb' 0 10⟩, ⟨min limit (low 2), (word 3).extractLsb' 0 10⟩,
          ⟨min limit (low 4), (word 5).extractLsb' 0 10⟩⟩
        clamped := decide (limit < low 0) || decide (limit < low 2) || decide (limit < low 4) } := by
  intro word low
  have held : ∀ i, (ws.map fun w => w.getD 0#32).getD i 0#32 = word i := fun i => by
    rw [List.getD_eq_getElem?_getD, List.getElem?_map]
    cases found : ws[i]? <;> simp [word, List.getD_eq_getElem?_getD, found]
  have lows : ∀ i, field (word i) 0 16 = low i := fun i => by simp [field, low]
  simp only [acceptedRecord, clampedInject, Ident.ofWord0, held, lows]

/-- Every check that fails gives a code that calls for a record (R96, R110). -/
theorem judgeRecord_rejected {s : State} {f : Fid} {a : Assembly} {w7 : Word} {code : ResultCode}
    (judged : s.judgeRecord f a w7 = some code) : code.rejected = true := by
  have distance : ∀ d c, judgeDistance d = some c → c.rejected = true := by
    intro d c
    unfold judgeDistance
    split
    · exact nofun
    · split <;> (rintro ⟨⟩; rfl)
  rw [judgeRecord_eq] at judged
  split at judged
  · cases judged; rfl
  split at judged
  · cases judged; rfl
  split at judged
  · cases judged; rfl
  split at judged
  · cases judged; rfl
  split at judged
  · cases judged; rfl
  rcases Option.or_eq_some_iff.1 judged with far | ⟨-, idle⟩
  · exact distance _ _ far
  · split at idle
    · cases idle
    · cases idle; rfl

/-- A further write of a stager changes no other block. -/
theorem putStager_offMarks {s t : State} (h : t.offMarks = State.offMarks { s with stagers := t.stagers }) (f : Fid)
    (g : Stager) : (t.putStager f g).offMarks = State.offMarks { s with stagers := (t.putStager f g).stagers } :=
  (congrArg (fun u : State => { u with stagers := t.stagers.set f g }) h :)

/-- A record that fails a check makes that check's result, with its record (R96, R104, R109, R110). -/
theorem stagerWrite_rejects {s : State} {f : Fid} {be : BitVec 4} {v : Word} {x : Assembly} {code : ResultCode}
    (standing : (s.stagers.get f).assembly = some x)
    (judged : s.judgeRecord f { x with broken := x.broken || be != 15#4 } v = some code) :
    let r := s.resultOf f (.ofIdent code (Ident.ofWord0 x.word0))
    let t := s.stagerWrite f 7 be v
    t.stagers.get f =
        { s.stagers.get f with
          owner := none, assembly := none, number := (s.stagers.get f).number + 1#8, latest := some r } ∧
      Hands s t [.refRejected f r] ∧ SlotDirty f t := by
  intro r t
  have effect : t = _ := stagerWrite_completes be v standing
  rw [judged, Option.elim_some] at effect
  generalize ended_eq : s.putStager f { s.stagers.get f with owner := none, assembly := none } = ended at effect
  have same : ended.resultOf f (.ofIdent code (Ident.ofWord0 x.word0)) = r := by
    simp [← ended_eq, r, State.resultOf, State.putStager]
  have hands := makeResult_hands_record ended f (.ofIdent code (Ident.ofWord0 x.word0)) (judgeRecord_rejected judged)
  rw [same, ← effect] at hands
  have before : Hands s ended [] := ended_eq ▸ .nothing rfl rfl rfl rfl rfl
  refine ⟨?_, before.trans hands, effect ▸ makeResult_slotDirty ended f _⟩
  rw [effect, State.makeResult_stagers, Per8.get_set_same, same]
  simp [← ended_eq, State.putStager, r, State.resultOf]

/-- One that passes them is accepted, with none pending (R99). -/
theorem stagerWrite_accepts {s : State} {f : Fid} {be : BitVec 4} {v : Word} {x : Assembly}
    (standing : (s.stagers.get f).assembly = some x)
    (passed : s.judgeRecord f { x with broken := x.broken || be != 15#4 } v = none)
    (free : (s.stagers.get f).pending = none) {r : Accepted}
    (form : acceptedRecord (s.entry f).injectionLimit (s.stagers.get f).nextSerial x.word0
      (x.words.map fun w => w.getD 0#32) = r) :
    s.stagerWrite f 7 be v = s.putStager f
      { s.stagers.get f with
        owner := some r, assembly := none, pending := some r, lastSeq := some r.seq
        nextSerial := (s.stagers.get f).nextSerial + 1 } := by
  rw [stagerWrite_completes be v standing, passed, ← form]
  simp [State.acceptRecord, State.endPending, State.putStager, free, State.entry]

/-- A pending one before it ends SUPERSEDED, which makes no record (R99, R110). -/
theorem stagerWrite_supersedes {s : State} {f : Fid} {be : BitVec 4} {v : Word} {x : Assembly} {p : Accepted}
    (standing : (s.stagers.get f).assembly = some x)
    (passed : s.judgeRecord f { x with broken := x.broken || be != 15#4 } v = none)
    (pending : (s.stagers.get f).pending = some p) {r : Accepted}
    (form : acceptedRecord (s.entry f).injectionLimit (s.stagers.get f).nextSerial x.word0
      (x.words.map fun w => w.getD 0#32) = r) :
    let t := s.stagerWrite f 7 be v
    t.stagers.get f =
        { s.stagers.get f with
          owner := some r, assembly := none, pending := some r, lastSeq := some r.seq
          nextSerial := (s.stagers.get f).nextSerial + 1
          number := (s.stagers.get f).number + 1#8
          latest := some (s.resultOf f (.ofRecord .superseded p)) } ∧
      SlotDirty f t ∧ t.offMarks = State.offMarks { s with stagers := t.stagers } := by
  intro t
  have effect : t = _ := stagerWrite_completes be v standing
  rw [passed, Option.elim_none] at effect
  generalize before_eq : s.putStager f { s.stagers.get f with owner := none, assembly := none, pending := none } = before
  have accepted : t = (before.makeResult f (.ofRecord .superseded p)).putStager f
      { (before.makeResult f (.ofRecord .superseded p)).stagers.get f with
        pending := some r, lastSeq := some r.seq, owner := some r, nextSerial := (s.stagers.get f).nextSerial + 1 } := by
    rw [effect, ← before_eq, ← form]
    simp [State.acceptRecord, State.endPending, State.putStager, pending, State.entry]
  have made : (before.makeResult f (.ofRecord .superseded p)).offMarks =
      State.offMarks { s with stagers := (before.makeResult f (.ofRecord .superseded p)).stagers } := by
    rw [makeResult_offMarks before f (.ofRecord .superseded p) rfl, ← before_eq]
    rfl
  rw [accepted]
  refine ⟨?_, makeResult_slotDirty before f _, ?_⟩
  · simp [← before_eq, State.putStager, State.resultOf]
  · exact putStager_offMarks made f _

/-! ## The three writes -/

/-- Settles O33: the stager holds the word, or breaks the assembly, and nothing else moves. -/
theorem aliasWordWrite : Obligations.AliasWordWrite := by
  intro s a be v w once window reference slot first last g x openPage
  obtain ⟨t, run, up, current, -, e⟩ := alias_hands (c := .aliasWordWrite a be v) rfl once window reference slot
  refine ⟨t, run, up, current, ?_⟩
  rw [e.offPort, stagerWrite_middle _ _ be v (fun zero => first (BitVec.eq_of_toNat_eq zero))
    (fun seven => last (BitVec.eq_of_toNat_eq seven))]
  rfl

/-- Settles O32: the assembly is opened by the stager, which makes the result ABANDONED where one was open. -/
theorem aliasWord0Write : Obligations.AliasWord0Write := by
  intro s a be v w once window reference slot first f g opened x taken openPage
  obtain ⟨t, run, up, current, surroundings, e⟩ :=
    alias_hands (c := .aliasWord0Write a be v) rfl once window reference slot
  have place : a.slotPlace.toNat = 0 := congrArg BitVec.toNat first
  replace e : EndsAs (taken.stagerWrite f 0 be v) t := place ▸ e
  refine ⟨t, run, up, current, fun closed => ?_, fun old standing => ?_⟩
  · rw [e.offPort, stagerWrite_opens (s := taken) be v closed]
    rfl
  · obtain ⟨stagers, hands, dirty, -⟩ := stagerWrite_abandons (s := taken) be v standing
    exact ⟨e.stagers.trans stagers, e.slotMarked (slotMarked_of_free once.1 dirty),
      ((StagerOnly.stagerWrite f taken 0 be v).ends e).blocks, surroundings, e.staged (hands.first _ rfl),
      e.recorded hands.all⟩

/-- Settles O34: a completed record is judged as it stands in the assembly, and makes one result or takes the pending
record's place. -/
theorem aliasWord7Write : Obligations.AliasWord7Write := by
  intro s a be v w once window reference slot last f g write taken openPage
  obtain ⟨t, run, up, current, surroundings, e⟩ :=
    alias_hands (c := .aliasWord7Write a be v) rfl once window reference slot
  have place : a.slotPlace.toNat = 7 := congrArg BitVec.toNat last
  replace e : EndsAs (taken.stagerWrite f 7 be v) t := place ▸ e
  have only := (StagerOnly.stagerWrite f taken 7 be v).ends e
  have stager : t.stagers.get f = (taken.stagerWrite f 7 be v).stagers.get f := by rw [e.stagers]
  have own : ∀ g', taken.stagerWrite f 7 be v = taken.putStager f g' →
      t.stagers.get f = g' ∧ t.offPort = State.offPort { taken with stagers := t.stagers } := by
    intro g' put
    rw [e.offPort, e.stagers, put]
    exact ⟨Per8.get_set_same _ _ _, rfl⟩
  refine ⟨t, run, ?_⟩
  beta_reduce
  intro quiet
  refine ⟨up, current, only.blocks, surroundings, only.others,
    fun closed => own _ (stagerWrite_last_closed (s := taken) be v closed), fun x standing => ?_⟩
  intro x' result ident
  refine ⟨fun code judged => ?_, fun passed => ?_⟩
  · obtain ⟨ends, hands, dirty, -⟩ := stagerWrite_rejects (s := taken) standing judged
    exact ⟨stager.trans ends, e.slotMarked (slotMarked_of_free once.1 dirty), e.staged (hands.first _ rfl),
      e.recorded hands.all⟩
  · intro word low limit r accepted
    have form : acceptedRecord limit g.nextSerial x.word0 (x.words.map fun w => w.getD 0#32) = r :=
      acceptedRecord_held limit g.nextSerial x.word0 x.words
    refine ⟨fun free => ?_, fun p pending => ?_⟩
    · exact own _ (stagerWrite_accepts (s := taken) standing passed free form)
    · obtain ⟨ends, ⟨dirty, -⟩, marks⟩ := stagerWrite_supersedes (s := taken) standing passed pending form
      refine ⟨stager.trans ends, e.slotMarked (slotMarked_of_free once.1 dirty), ?_⟩
      rw [State.offMarks_of_offPort e.offPort, e.stagers, marks]

end Sys2Proof.Machine
end

section
namespace Sys2Proof.Machine

/-! ## Packed words (Formats 12.1) -/

/-- The fields of a packed word lie above bit `low`, one above the other, and each value fits its field. -/
def packFits (low : Nat) : List (Nat × Nat × Nat) → Prop
  | [] => low ≤ 32
  | (value, place, length) :: fields => low ≤ place ∧ value < 2 ^ length ∧ packFits (place + length) fields

/-- The number that a packed word spells: every value at its place. -/
def packSum : List (Nat × Nat × Nat) → Nat
  | [] => 0
  | (value, place, _) :: fields => value * 2 ^ place + packSum fields

theorem packFits.place_le {fields : List (Nat × Nat × Nat)} {low : Nat} (fits : packFits low fields) : low ≤ 32 := by
  induction fields generalizing low with
  | nil => exact fits
  | cons x fields ih =>
    obtain ⟨above, -, rest⟩ := fits
    have := ih rest
    omega

/-- A field set above the bits in use adds its value at its place. -/
theorem or_field_toNat {acc : Word} {value low place length : Nat} (used : acc.toNat < 2 ^ low) (above : low ≤ place)
    (small : value < 2 ^ length) (top : place + length ≤ 32) :
    (acc ||| (BitVec.ofNat 32 (value % 2 ^ length) <<< place)).toNat = acc.toNat + value * 2 ^ place := by
  have under : acc.toNat < 2 ^ place := used.trans_le (Nat.pow_le_pow_right (by decide) above)
  have shifted : value * 2 ^ place < 2 ^ 32 :=
    calc value * 2 ^ place < 2 ^ length * 2 ^ place := Nat.mul_lt_mul_of_pos_right small (Nat.two_pow_pos place)
      _ = 2 ^ (place + length) := by rw [Nat.pow_add, Nat.mul_comm]
      _ ≤ 2 ^ 32 := Nat.pow_le_pow_right (by decide) top
  have narrow : value < 2 ^ 32 := small.trans_le (Nat.pow_le_pow_right (by decide) (by omega))
  rw [BitVec.toNat_or, BitVec.toNat_shiftLeft, BitVec.toNat_ofNat, Nat.mod_eq_of_lt small, Nat.mod_eq_of_lt narrow,
    Nat.shiftLeft_eq, Nat.mod_eq_of_lt shifted, Nat.mul_comm value, Nat.or_comm, ← Nat.two_pow_add_eq_or_of_lt under,
    Nat.add_comm]

/-- A packed word whose fields fit is the sum of its fields. -/
theorem pack_toNat {fields : List (Nat × Nat × Nat)} (fits : packFits 0 fields) :
    (pack fields).toNat = packSum fields := by
  have onto : ∀ (fields : List (Nat × Nat × Nat)) (low : Nat) (acc : Word), packFits low fields → acc.toNat < 2 ^ low →
      (fields.foldl (fun acc x => acc ||| (BitVec.ofNat 32 (x.1 % 2 ^ x.2.2) <<< x.2.1)) acc).toNat =
        acc.toNat + packSum fields := by
    intro fields
    induction fields with
    | nil => exact fun _ _ _ _ => rfl
    | cons x fields ih =>
      obtain ⟨value, place, length⟩ := x
      rintro low acc ⟨above, small, rest⟩ used
      have sum := or_field_toNat used above small rest.place_le
      have under : acc.toNat < 2 ^ place := used.trans_le (Nat.pow_le_pow_right (by decide) above)
      have next : acc.toNat + value * 2 ^ place < 2 ^ (place + length) :=
        calc acc.toNat + value * 2 ^ place < (value + 1) * 2 ^ place := by rw [Nat.add_mul]; omega
          _ ≤ 2 ^ length * 2 ^ place := Nat.mul_le_mul_right _ small
          _ = 2 ^ (place + length) := by rw [Nat.pow_add, Nat.mul_comm]
      rw [List.foldl_cons, ih (place + length) _ rest (sum ▸ next), sum, packSum, Nat.add_assoc]
  simpa [pack] using onto fields 0 0#32 fits

/-- So it reads as any number that this sum is. -/
theorem pack_reads {fields : List (Nat × Nat × Nat)} {n : Nat} (fits : packFits 0 fields) (sum : packSum fields = n) :
    (pack fields).toNat = n := (pack_toNat fits).trans sum

/-- Feeder flags, one bit for each feeder named. -/
theorem getLsbD_pack_feeders (fs : List Fid) (i : Nat) :
    (pack (fs.map fun f => (1, f.val, 1))).getLsbD i = fs.any fun f => f.val == i := by
  have onto : ∀ (fs : List Fid) (acc : Word),
      ((fs.map fun f => (1, f.val, 1)).foldl
          (fun acc (x : Nat × Nat × Nat) => acc ||| (BitVec.ofNat 32 (x.1 % 2 ^ x.2.2) <<< x.2.1)) acc).getLsbD i =
        (acc.getLsbD i || fs.any fun f => f.val == i) := by
    intro fs
    induction fs with
    | nil => simp
    | cons f fs ih =>
      intro acc
      have one : (BitVec.ofNat 32 (1 % 2 ^ 1) <<< f.val).getLsbD i = (f.val == i) := by
        have feeder := f.isLt
        rw [show BitVec.ofNat 32 (1 % 2 ^ 1) <<< f.val = BitVec.twoPow 32 f.val from (BitVec.twoPow_eq ..).symm,
          BitVec.getLsbD_twoPow]
        have : f.val < 32 := by omega
        simp [this]
        rfl
      rw [List.map_cons, List.foldl_cons, ih, BitVec.getLsbD_or, one, List.any_cons, Bool.or_assoc]
  simpa [pack] using onto fs 0#32

theorem pack_feeders_lt (fs : List Fid) : (pack (fs.map fun f => (1, f.val, 1))).toNat < 256 := by
  refine Nat.lt_pow_two_of_testBit (n := 8) _ fun i high => ?_
  rw [BitVec.testBit_toNat, getLsbD_pack_feeders, List.any_eq_false]
  intro f _
  have := f.isLt
  simp only [beq_iff_eq]
  omega

/-- A yes-or-no field at its place. -/
def flagAt (b : Bool) (place : Nat) : Nat := if b then 2 ^ place else 0

theorem bit_mul (b : Bool) (place : Nat) : bit b * 2 ^ place = flagAt b place := by
  cases b <;> simp [bit, flagAt]

@[simp] theorem bit_le (b : Bool) : bit b ≤ 1 := by
  cases b <;> decide

/-! ## The codes, as places in the lists of Formats 12.1 -/

def stateList : List FeederState := [.off, .arming, .standby, .watch, .ride, .recover, .shed, .fault]

def reasonList : List Reason :=
  [.none, .table, .disabled, .ready, .onset, .admitted, .sagEnd, .released, .sync, .invalid, .episodeClosed, .cleared,
    .episodeLimit, .interruption, .noEnergy, .preempted, .shortfall, .rideLimit, .syncLost, .samplesInvalid, .alarm,
    .link, .modulator, .noSamples, .clearRefused]

def syncList : List Sync := [.seek, .locked, .coasting, .lost]

def kindList : List WindowKind := [.sample, .dclink, .reference, .control, .ring, .mirror, .guard]

theorem FeederState.code_eq (x : FeederState) : x.code = stateList.idxOf x ∧ x.code < 8 := by
  cases x <;> decide

theorem Reason.code_eq (x : Reason) : x.code = reasonList.idxOf x ∧ x.code < 25 := by
  cases x <;> decide

theorem Sync.code_eq (x : Sync) : x.code = syncList.idxOf x ∧ x.code < 4 := by
  cases x <;> decide

theorem WindowKind.code_eq (x : WindowKind) : x.code = 1 + kindList.idxOf x ∧ x.code < 8 := by
  cases x <;> decide

theorem SagOutcome.code_eq (x : SagOutcome) :
    x.code = 1 + [SagOutcome.tolerated, .protect, .shed, .fault, .off].idxOf x ∧ x.code < 6 := by
  cases x <;> decide

theorem WorstOutcome.code_eq (x : WorstOutcome) :
    x.code = [WorstOutcome.tolerated, .protect, .shed, .tripped].idxOf x ∧ x.code < 4 := by
  cases x <;> decide

theorem CloseCause.code_eq (x : CloseCause) : x.code = [CloseCause.window, .fault, .off].idxOf x ∧ x.code < 3 := by
  cases x <;> decide

theorem SyncCause.code_eq (x : SyncCause) :
    x.code = [SyncCause.lock, .coast, .relock, .restart, .silence, .table].idxOf x ∧ x.code < 6 := by
  cases x <;> decide

theorem LinkCause.code_eq (x : LinkCause) :
    x.code = 1 + [LinkCause.noReply, .crc, .wrongUnit, .wrongKind, .malformed].idxOf x ∧ x.code < 6 := by
  cases x <;> decide

theorem FrameKind.code_eq (x : FrameKind) :
    x.code = 1 + [FrameKind.engage, .release, .statusq, .resync].idxOf x ∧ x.code < 5 := by
  cases x <;> decide

theorem RejectReason.code_eq (x : RejectReason) :
    x.code = 1 + [RejectReason.signature, .length, .checksum, .range, .priority, .unit, .curveOrder, .missingWindow,
      .duplicateWindow, .readFailed].idxOf x ∧ x.code < 11 := by
  cases x <;> decide

theorem ResultCode.code_eq (x : ResultCode) :
    x.code = [ResultCode.none, .abandoned, .broken, .incomplete, .checkFailed, .wrongFeeder, .duplicate, .late, .tooEarly,
      .notRiding, .superseded, .stale, .refusedEnergy, .refusedByModulator, .linkFailed, .committed].idxOf x ∧
      x.code < 16 := by
  cases x <;> decide

theorem Source.code_eq (x : Source) : x.code = [Source.none, .record, .autofill, .hold].idxOf x ∧ x.code < 4 := by
  cases x <;> decide

theorem Page.code_eq (x : Page) : x.code = [Page.page0, .page1].idxOf x ∧ x.code < 2 := by
  cases x <;> decide

theorem Mode.code_eq (x : Mode) : x.code = [Mode.loading, .failed, .active].idxOf x ∧ x.code < 3 := by
  cases x <;> decide

theorem Reload.code_eq (x : Reload) : x.code = [Reload.none, .requested, .reading, .held].idxOf x ∧ x.code < 4 := by
  cases x <;> decide

theorem Body.kind_lt (b : Body) : b.kind < 16 := by
  cases b <;> simp [Body.kind]

theorem feederCode_lt (f : Option Fid) : feederCode f < 16 := by
  cases f with
  | none => decide
  | some f =>
    have := f.isLt
    change f.val < 16
    omega

/-! ## The words of the event records, kind by kind (Formats 12.1) -/

theorem sagClosed_reads (f : Fid) {x : SagRecord} {outcome : SagOutcome} (closed : x.outcome = some outcome)
    (gap : x.largestGap ≤ 7) (a : x.minimum.a ≤ 1999) (b : x.minimum.b ≤ 1999) (c : x.minimum.c ≤ 1999)
    (duration : x.duration ≤ 65535) (ridden : x.ridden ≤ 255) (autoHold : x.autoHold ≤ 255) :
    let n := fun i => ((Body.sagClosed f x).words.getD i 0#32).toNat
    n 0 = x.onsetHc.toNat + 256 * (1 + [SagOutcome.tolerated, .protect, .shed, .fault, .off].idxOf outcome) +
        flagAt x.limited 16 + flagAt x.clampedSeen 17 + flagAt x.phaseJump 18 + flagAt x.toleranceExceeded 19 +
        flagAt x.interruption 20 + 16777216 * x.largestGap ∧
      n 2 = x.minimum.a + 65536 * x.minimum.b ∧ n 3 = x.minimum.c + 65536 * x.duration ∧
      n 4 = x.ridden + 256 * x.autoHold := by
  have onset := x.onsetHc.isLt
  obtain ⟨code, small⟩ := SagOutcome.code_eq outcome
  simp only [Body.words, List.getD_cons_zero, List.getD_cons_succ, closed, Option.map_some, Option.getD_some]
  exact ⟨pack_reads (by simp [packFits]; omega) (by simp only [packSum, bit_mul]; omega),
    pack_reads (by simp [packFits]; omega) (by simp only [packSum]; omega),
    pack_reads (by simp [packFits]; omega) (by simp only [packSum]; omega),
    pack_reads (by simp [packFits]; omega) (by simp only [packSum]; omega)⟩

theorem episodeClosed_reads (f : Fid) {x : Episode} (cause : CloseCause) (hc : BitVec 8) (count : x.sagCount ≤ 255)
    (ridden : x.riddenTotal ≤ 65535) :
    let n := fun i => ((Body.episodeClosed f x cause hc).words.getD i 0#32).toNat
    n 0 = x.sagCount + 256 * [WorstOutcome.tolerated, .protect, .shed, .tripped].idxOf x.worst +
        4096 * [CloseCause.window, .fault, .off].idxOf cause + 65536 * x.firstOnsetHc.toNat + 16777216 * hc.toNat ∧
      n 2 = x.riddenTotal := by
  have onset := x.firstOnsetHc.isLt
  have ends := hc.isLt
  obtain ⟨worst, worstLt⟩ := WorstOutcome.code_eq x.worst
  obtain ⟨why, whyLt⟩ := CloseCause.code_eq cause
  simp only [Body.words, List.getD_cons_zero, List.getD_cons_succ]
  exact ⟨pack_reads (by simp [packFits]; omega) (by simp only [packSum]; omega),
    pack_reads (by simp [packFits]; omega) (by simp only [packSum]; omega)⟩

theorem feederState_reads (f : Fid) (old new : FeederState) (reason : Reason) :
    ((Body.feederState f old new reason).words.getD 0 0#32).toNat =
      stateList.idxOf old + 16 * stateList.idxOf new + 256 * reasonList.idxOf reason := by
  obtain ⟨before, beforeLt⟩ := FeederState.code_eq old
  obtain ⟨after, afterLt⟩ := FeederState.code_eq new
  obtain ⟨why, whyLt⟩ := Reason.code_eq reason
  simp only [Body.words, List.getD_cons_zero]
  exact pack_reads (by simp [packFits]; omega) (by simp only [packSum]; omega)

theorem phaseJump_reads (f : Fid) (offset : Int) (prior : Sync) (hc : BitVec 8) :
    ((Body.phaseJump f offset prior hc).words.getD 0 0#32).toNat =
      (offset % 65536).toNat + 65536 * syncList.idxOf prior + 16777216 * hc.toNat := by
  have hcLt := hc.isLt
  have whole : (BitVec.ofInt 16 offset).toNat = (offset % 65536).toNat := BitVec.toNat_ofInt offset
  have half := (BitVec.ofInt 16 offset).isLt
  obtain ⟨before, beforeLt⟩ := Sync.code_eq prior
  simp only [Body.words, List.getD_cons_zero]
  exact pack_reads (by simp only [packFits]; omega) (by simp only [packSum]; omega)

theorem syncChange_reads (f : Fid) (old new : Sync) (cause : SyncCause) {coast : Nat} (hc : BitVec 8) (few : coast ≤ 16) :
    ((Body.syncChange f old new cause coast hc).words.getD 0 0#32).toNat =
      syncList.idxOf old + 16 * syncList.idxOf new +
        256 * [SyncCause.lock, .coast, .relock, .restart, .silence, .table].idxOf cause + 65536 * coast +
        16777216 * hc.toNat := by
  have hcLt := hc.isLt
  obtain ⟨before, beforeLt⟩ := Sync.code_eq old
  obtain ⟨after, afterLt⟩ := Sync.code_eq new
  obtain ⟨why, whyLt⟩ := SyncCause.code_eq cause
  simp only [Body.words, List.getD_cons_zero]
  exact pack_reads (by simp [packFits]; omega) (by simp only [packSum]; omega)

/-- The cause of attempt `i` of a ladder, 0 where there was none. -/
def causeCode (causes : List LinkCause) (i : Nat) : Nat :=
  (causes[i]?.map fun x => 1 + [LinkCause.noReply, .crc, .wrongUnit, .wrongKind, .malformed].idxOf x).getD 0

theorem causeCode_eq (causes : List LinkCause) (i : Nat) :
    (causes[i]?.map LinkCause.code).getD 0 = causeCode causes i ∧ causeCode causes i < 6 := by
  unfold causeCode
  cases causes[i]? with
  | none => decide
  | some x => exact ⟨(LinkCause.code_eq x).1, (LinkCause.code_eq x).1.symm.trans_lt (LinkCause.code_eq x).2⟩

theorem linkLadder_reads (f : Fid) (unit : BitVec 4) (kind : FrameKind) (hc : BitVec 8) (causes : List LinkCause) :
    let n := fun i => ((Body.linkLadder f unit kind hc causes).words.getD i 0#32).toNat
    let c := causeCode causes
    n 0 = unit.toNat + 16 * (1 + [FrameKind.engage, .release, .statusq, .resync].idxOf kind) + 256 * hc.toNat ∧
      n 1 = c 0 + 256 * c 1 + 65536 * c 2 + 16777216 * c 3 := by
  have hcLt := hc.isLt
  have number := unit.isLt
  obtain ⟨frame, frameLt⟩ := FrameKind.code_eq kind
  have first := (causeCode_eq causes 0).2
  have second := (causeCode_eq causes 1).2
  have third := (causeCode_eq causes 2).2
  have fourth := (causeCode_eq causes 3).2
  simp only [Body.words, List.getD_cons_zero, List.getD_cons_succ, causeCode_eq]
  exact ⟨pack_reads (by simp [packFits]; omega) (by simp only [packSum]; omega),
    pack_reads (by simp [packFits]; omega) (by simp only [packSum]; omega)⟩

/-- What a SHORTFALL record shows for a feeder. -/
theorem takenFrom_eq (victims : List (Fid × Nat)) (f : Fid) :
    takenFrom victims f = ((victims.find? fun x => x.1 = f).map Prod.snd).getD 0 := by
  have same : (fun v : Fid × Nat => v.1 == f) = fun v => decide (v.1 = f) := rfl
  unfold takenFrom
  rw [same]
  cases victims.find? fun x => x.1 = f <;> rfl

theorem takenFrom_le {victims : List (Fid × Nat)} (small : ∀ x ∈ victims, x.2 ≤ 65535) (f : Fid) :
    takenFrom victims f ≤ 65535 := by
  unfold takenFrom
  split
  · next v found => exact small v (List.mem_of_find?_eq_some found)
  · decide

theorem shortfall_reads {v u u' sum sum' : Nat} {victims : List (Fid × Nat)} (vLe : v ≤ 65535) (uLe : u ≤ 65535)
    (uLe' : u' ≤ 65535) (sumLe : sum ≤ 65535) (small : ∀ x ∈ victims, x.2 ≤ 65535) :
    let n := fun i => ((Body.shortfall v u u' sum sum' victims).words.getD i 0#32).toNat
    let took := takenFrom victims
    n 0 = v + 65536 * u ∧ n 1 = u' + 65536 * sum ∧ n 2 = took 0 + 65536 * took 1 ∧ n 3 = took 2 + 65536 * took 3 ∧
      n 4 = took 4 + 65536 * took 5 ∧ n 5 = took 6 + 65536 * took 7 := by
  have pair : ∀ {a b : Nat}, a ≤ 65535 → b ≤ 65535 → (pack [(a, 0, 16), (b, 16, 16)]).toNat = a + 65536 * b :=
    fun _ _ => pack_reads (by simp [packFits]; omega) (by simp only [packSum]; omega)
  have took := takenFrom_le small
  exact ⟨pair vLe uLe, pair uLe' sumLe, pair (took 0) (took 1), pair (took 2) (took 3), pair (took 4) (took 5),
    pair (took 6) (took 7)⟩

/-- The kind of window that a record names, 0 for none. -/
theorem kindCode_eq (kind : Option WindowKind) :
    (kind.map WindowKind.code).getD 0 = (kind.map fun x => 1 + kindList.idxOf x).getD 0 ∧
      (kind.map fun x => 1 + kindList.idxOf x).getD 0 < 8 := by
  cases kind with
  | none => decide
  | some x => exact ⟨(WindowKind.code_eq x).1, (WindowKind.code_eq x).1.symm.trans_lt (WindowKind.code_eq x).2⟩

theorem feederField_lt (f : Option Fid) : (f.map Fin.val).getD 0 < 8 := by
  cases f with
  | none => decide
  | some f => exact f.isLt

theorem busRefused_reads (addr : Word) (tag : BitVec 2) (kind : Option WindowKind) (f : Option Fid) (read : Bool) :
    ((Body.busRefused addr tag kind f read).words.getD 1 0#32).toNat =
      tag.toNat + 16 * (kind.map fun x => 1 + kindList.idxOf x).getD 0 + 256 * (f.map Fin.val).getD 0 +
        flagAt read 12 := by
  have master := tag.isLt
  have feeder := feederField_lt f
  obtain ⟨code, codeLt⟩ := kindCode_eq kind
  simp only [Body.words, List.getD_cons_zero, List.getD_cons_succ, code]
  exact pack_reads (by simp [packFits]; omega) (by simp only [packSum, bit_mul]; omega)

theorem ringIndexRefused_reads (offered : Word) (c p : BitVec 16) (partialWrite : Bool) :
    let n := fun i => ((Body.ringIndexRefused offered c p partialWrite).words.getD i 0#32).toNat
    n 1 = c.toNat + 65536 * p.toNat ∧ n 2 = flagAt partialWrite 0 := by
  have consumer := c.isLt
  have producer := p.isLt
  simp only [Body.words, List.getD_cons_zero, List.getD_cons_succ]
  exact ⟨pack_reads (by simp [packFits]; omega) (by simp only [packSum]; omega),
    pack_reads (by simp [packFits]) (by simp only [packSum, bit_mul]; omega)⟩

theorem tableLoaded_reads (addr : Word) {length : Nat} (identity : Word) {windows : Nat} (reload resampled : Bool)
    (changed : List Fid) (short : length ≤ 512) (few : windows ≤ 32) :
    let words := (Body.tableLoaded addr length identity windows reload resampled changed).words
    (words.getD 1 0#32).toNat = length + 65536 * windows + flagAt reload 24 + flagAt resampled 25 ∧
      (words.getD 3 0#32).toNat < 256 ∧ ∀ f : Fid, (words.getD 3 0#32).getLsbD f.val = changed.contains f := by
  simp only [Body.words, List.getD_cons_zero, List.getD_cons_succ]
  refine ⟨pack_reads (by simp [packFits]; omega) (by simp only [packSum, bit_mul]; omega), pack_feeders_lt changed,
    fun f => ?_⟩
  rw [getLsbD_pack_feeders, List.contains_eq_any_beq]
  congr 1
  funext g
  rw [Bool.eq_iff_iff, beq_iff_eq, beq_iff_eq, Fin.val_inj, eq_comm]

theorem tableRejected_reads (addr : Option Word) {x : Reject} (signature length identity : Option Word)
    (index : x.index.getD 0 ≤ 1023) :
    let n := fun i => ((Body.tableRejected addr x signature length identity).words.getD i 0#32).toNat
    n 1 = 1 + [RejectReason.signature, .length, .checksum, .range, .priority, .unit, .curveOrder, .missingWindow,
          .duplicateWindow, .readFailed].idxOf x.reason + 256 * x.index.getD 0 + flagAt x.index.isSome 18 +
        1048576 * (x.kind.map fun y => 1 + kindList.idxOf y).getD 0 + 16777216 * (x.feeder.map Fin.val).getD 0 ∧
      n 5 = flagAt signature.isSome 0 + flagAt length.isSome 1 + flagAt identity.isSome 2 := by
  have feeder := feederField_lt x.feeder
  obtain ⟨code, codeLt⟩ := kindCode_eq x.kind
  obtain ⟨why, whyLt⟩ := RejectReason.code_eq x.reason
  simp only [Body.words, List.getD_cons_zero, List.getD_cons_succ, code]
  exact ⟨pack_reads (by simp [packFits]; omega) (by simp only [packSum, bit_mul]; omega),
    pack_reads (by simp [packFits]) (by simp only [packSum, bit_mul]; omega)⟩

/-! ## The common words of an event record, and the zeros after its last field (R155, Formats 12.1) -/

/-- The first word of a record (R155). -/
theorem head_reads (r : Record) (counted : r.dropped ≤ 255) :
    let w := r.words.getD 0 0#32
    w.extractLsb' 0 16 = r.seq ∧ (w.extractLsb' 16 4).toNat = r.body.kind ∧
      (w.extractLsb' 20 4).toNat = feederCode r.body.feeder ∧ (w.extractLsb' 24 8).toNat = r.dropped := by
  have seq := r.seq.isLt
  have kind := r.body.kind_lt
  have feeder := feederCode_lt r.body.feeder
  intro w
  have whole : w.toNat =
      r.seq.toNat + 65536 * r.body.kind + 1048576 * feederCode r.body.feeder + 16777216 * r.dropped :=
    pack_reads (by simp [packFits]; omega) (by simp only [packSum]; omega)
  rw [← BitVec.toNat_inj]
  simp only [BitVec.extractLsb'_toNat, Nat.shiftRight_eq_div_pow, whole]
  omega

/-- Words 2 to 7 of a record are its body's. -/
theorem words_body {r : Record} {b : Body} (body : r.body = b) (i : Nat) :
    r.words.getD (i + 2) 0#32 = b.words.getD i 0#32 := by
  rw [← body]
  rfl

/-- A list of words reads as zero from where all of them are. -/
theorem getD_zero_from {ws : List Word} {k i : Nat} (zero : ∀ w ∈ ws.drop k, w = 0#32) (reached : k ≤ i) :
    (ws.getD i 0#32).toNat = 0 := by
  obtain ⟨j, rfl⟩ := Nat.exists_eq_add_of_le reached
  rw [List.getD_eq_getElem?_getD, ← List.getElem?_drop]
  cases found : (ws.drop k)[j]? with
  | none => rfl
  | some w => rw [Option.getD_some, zero w (List.mem_of_getElem? found)]; rfl

/-- So a record is zero after the last field of its body. -/
theorem words_zero_from {r : Record} {b : Body} (body : r.body = b) {k : Nat} (zero : ∀ w ∈ b.words.drop k, w = 0#32) :
    ∀ i, k + 2 ≤ i → i < 8 → (r.words.getD i 0#32).toNat = 0 :=
  fun _ reached _ => getD_zero_from (k := k + 2) (by rw [Record.words, body]; exact zero) reached

/-! ## Result slots and the mirror (R109, R162, R163) -/

theorem Result.reads (x : Result) :
    let n := fun i => (x.words.getD i 0#32).toNat
    n 0 = x.number.toNat + 256 * [ResultCode.none, .abandoned, .broken, .incomplete, .checkFailed, .wrongFeeder,
          .duplicate, .late, .tooEarly, .notRiding, .superseded, .stale, .refusedEnergy, .refusedByModulator,
          .linkFailed, .committed].idxOf x.code + flagAt x.clamped 16 + flagAt x.limited 17 + flagAt x.unflipped 18 +
        1048576 * [Source.none, .record, .autofill, .hold].idxOf x.source +
        16777216 * [Page.page0, .page1].idxOf x.page ∧
      (∀ y, x.ident = some y → n 1 = y.seq.toNat + 256 * y.target.toNat + 65536 * x.judgedAt.toNat + 2147483648) ∧
      (x.ident = none → n 1 / 65536 = x.judgedAt.toNat) ∧
      (∀ y, x.applied = some y → y ≤ 1000 → n 2 = y + 2147483648) ∧ (x.applied = none → n 2 < 2147483648) := by
  have number := x.number.isLt
  have judged := x.judgedAt.isLt
  obtain ⟨code, codeLt⟩ := ResultCode.code_eq x.code
  obtain ⟨source, sourceLt⟩ := Source.code_eq x.source
  obtain ⟨page, pageLt⟩ := Page.code_eq x.page
  simp only [Result.words, List.getD_cons_zero, List.getD_cons_succ]
  refine ⟨pack_reads (by simp [packFits]; omega) (by simp only [packSum, bit_mul]; omega), fun y present => ?_,
    fun absent => ?_, fun y present small => ?_, fun absent => ?_⟩
  · have seq := y.seq.isLt
    have target := y.target.isLt
    rw [present]
    exact pack_reads (by simp [packFits]; omega) (by simp only [packSum]; omega)
  · rw [absent]
    have half : (pack [(x.judgedAt.toNat, 16, 8)]).toNat = 65536 * x.judgedAt.toNat :=
      pack_reads (by simp [packFits]; omega) (by simp only [packSum]; omega)
    dsimp only
    omega
  · rw [present]
    exact pack_reads (by simp [packFits]; omega) (by simp only [packSum]; omega)
  · rw [absent]
    decide

/-- The words of one feeder in the mirror (R162). -/
theorem feederMirror_reads (s : State) (f : Fid) :
    let c := s.ctl.get f
    let n := fun k => (s.feederMirrorWord f k).toNat
    n 0 = stateList.idxOf c.state + 256 * reasonList.idxOf c.reason ∧
      n 1 = syncList.idxOf (s.trackers.get f).sync + 256 * (s.trackers.get f).hc.toNat ∧
      (s.account.reserved.get f ≤ 65535 → c.rode ≤ 255 → n 2 = s.account.reserved.get f + 65536 * c.rode) ∧
      ((∀ e, c.episode = some e → e.sagCount ≤ 255) → (∀ x, (s.evals.get f).ttt = some x → x ≤ 1023) →
        n 3 = (c.episode.map Episode.sagCount).getD 0 + 65536 * ((s.evals.get f).ttt.getD 65535)) := by
  have hc := (s.trackers.get f).hc.isLt
  obtain ⟨state, stateLt⟩ := FeederState.code_eq (s.ctl.get f).state
  obtain ⟨reason, reasonLt⟩ := Reason.code_eq (s.ctl.get f).reason
  obtain ⟨sync, syncLt⟩ := Sync.code_eq (s.trackers.get f).sync
  simp only [State.feederMirrorWord]
  refine ⟨pack_reads (by simp [packFits]; omega) (by simp only [packSum]; omega),
    pack_reads (by simp [packFits]; omega) (by simp only [packSum]; omega),
    fun reserved rode => pack_reads (by simp [packFits]; omega) (by simp only [packSum]; omega),
    fun counted bounded => ?_⟩
  have count : ((s.ctl.get f).episode.map Episode.sagCount).getD 0 ≤ 255 := by
    cases stands : (s.ctl.get f).episode with
    | none => decide
    | some e => exact counted e stands
  have time : (s.evals.get f).ttt.getD 0xFFFF ≤ 65535 := by
    cases trip : (s.evals.get f).ttt with
    | none => decide
    | some x => exact (bounded x trip).trans (by decide)
  exact pack_reads (by simp [packFits]; omega) (by simp only [packSum]; omega)

/-- The global words of the mirror (R162). -/
theorem globalMirror_reads (s : State) :
    let n := fun i => (s.mirrorWord i).toNat
    n 0 = [Mode.loading, .failed, .active].idxOf s.loader.mode ∧
      n 1 = [Reload.none, .requested, .reading, .held].idxOf s.loader.reload ∧
      (s.account.usable ≤ 65535 → n 2 = s.account.usable) ∧ (s.sum ≤ 65535 → n 3 = s.sum) ∧
      n 4 = s.writer.producer.toNat ∧ n 5 = s.writer.consumer.toNat ∧ n 6 = s.writer.summary.toNat := by
  have small : ∀ {m : Nat}, m ≤ 65535 → (BitVec.ofNat 32 m).toNat = m := fun le => Nat.mod_eq_of_lt (by omega)
  obtain ⟨mode, modeLt⟩ := Mode.code_eq s.loader.mode
  obtain ⟨reload, reloadLt⟩ := Reload.code_eq s.loader.reload
  exact ⟨(small (by omega)).trans mode, (small (by omega)).trans reload, small, small,
    BitVec.toNat_setWidth_of_le (by decide), BitVec.toNat_setWidth_of_le (by decide),
    BitVec.toNat_setWidth_of_le (by decide)⟩

/-- Settles O23: every word is a packed one, whose fields fit under the bounds that the rules give, or is handed on
whole. -/
theorem recordHeadReadsBack : Obligations.RecordHeadReadsBack := by
  unfold Obligations.RecordHeadReadsBack
  intro flag states reasons syncs kinds
  refine ⟨fun r counted => ?_, fun x => ?_, fun s f t loaded => ?_⟩
  · intro w n zeroFrom
    have num : ∀ {b : Body}, r.body = b → ∀ i, n (i + 2) = (b.words.getD i 0#32).toNat :=
      fun body i => congrArg BitVec.toNat (words_body body i)
    obtain ⟨seq, kind, feeder, dropped⟩ := head_reads r counted
    refine ⟨?_, seq, kind, feeder.trans ?_, dropped, rfl, ?_, ?_, ?_, ?_, ?_, ?_, ?_, ?_, ?_, ?_, ?_, ?_⟩
    · obtain ⟨_, _, _, body⟩ := r
      cases body <;> rfl
    · cases r.body.feeder <;> rfl
    · intro f x outcome body closed gap a b c duration ridden autoHold
      obtain ⟨two, four, five, six⟩ := sagClosed_reads f closed gap a b c duration ridden autoHold
      exact ⟨by rw [body]; rfl, by rw [body]; rfl, (num body 0).trans two, words_body body 1, (num body 2).trans four,
        (num body 3).trans five, (num body 4).trans six, words_zero_from (k := 5) body (by simp [Body.words])⟩
    · intro f x cause hc body count ridden
      obtain ⟨two, four⟩ := episodeClosed_reads f cause hc count ridden
      exact ⟨by rw [body]; rfl, by rw [body]; rfl, (num body 0).trans two, words_body body 1, (num body 2).trans four,
        words_zero_from (k := 3) body (by simp [Body.words])⟩
    · intro f old new reason body
      exact ⟨by rw [body]; rfl, by rw [body]; rfl, (num body 0).trans (feederState_reads f old new reason),
        words_zero_from (k := 1) body (by simp [Body.words])⟩
    · intro f x body
      exact ⟨by rw [body]; rfl, by rw [body]; rfl, words_body body 0, words_body body 1, words_body body 2,
        words_zero_from (k := 3) body (by simp [Body.words])⟩
    · intro f offset prior hc body
      exact ⟨by rw [body]; rfl, by rw [body]; rfl, (num body 0).trans (phaseJump_reads f offset prior hc),
        words_zero_from (k := 1) body (by simp [Body.words])⟩
    · intro f old new cause coast hc body few
      exact ⟨by rw [body]; rfl, by rw [body]; rfl, (num body 0).trans (syncChange_reads f old new cause hc few),
        words_zero_from (k := 1) body (by simp [Body.words])⟩
    · intro f unit kind hc causes body
      obtain ⟨two, three⟩ := linkLadder_reads f unit kind hc causes
      exact ⟨by rw [body]; rfl, by rw [body]; rfl, (num body 0).trans two, (num body 1).trans three,
        words_zero_from (k := 2) body (by simp [Body.words])⟩
    · intro v u u' sum sum' victims body vLe uLe uLe' sumLe small took
      have shown : took = takenFrom victims := funext fun f => (takenFrom_eq victims f).symm
      obtain ⟨two, three, four, five, six, seven⟩ := shortfall_reads (sum' := sum') vLe uLe uLe' sumLe small
      rw [shown]
      exact ⟨by rw [body]; rfl, by rw [body]; rfl, (num body 0).trans two, (num body 1).trans three,
        (num body 2).trans four, (num body 3).trans five, (num body 4).trans six, (num body 5).trans seven⟩
    · intro addr tag kind f read body
      exact ⟨by rw [body]; rfl, by rw [body]; rfl, words_body body 0,
        (num body 1).trans (busRefused_reads addr tag kind f read),
        words_zero_from (k := 2) body (by simp [Body.words])⟩
    · intro offered c p partialWrite body
      obtain ⟨three, four⟩ := ringIndexRefused_reads offered c p partialWrite
      exact ⟨by rw [body]; rfl, by rw [body]; rfl, words_body body 0, (num body 1).trans three, (num body 2).trans four,
        words_zero_from (k := 3) body (by simp [Body.words])⟩
    · intro addr length identity windows reload resampled changed body short few
      obtain ⟨three, five, named⟩ := tableLoaded_reads addr identity reload resampled changed short few
      refine ⟨by rw [body]; rfl, by rw [body]; rfl, words_body body 0, (num body 1).trans three, words_body body 2,
        (num body 3).trans_lt five, fun f => ?_, words_zero_from (k := 4) body (by simp [Body.words])⟩
      rw [← named f]
      exact congrArg (BitVec.getLsbD · f.val) (words_body body 3)
    · intro addr x signature length identity body index
      obtain ⟨three, seven⟩ := tableRejected_reads addr signature length identity index
      exact ⟨by rw [body]; rfl, by rw [body]; rfl, words_body body 0, (num body 1).trans three, words_body body 2,
        words_body body 3, words_body body 4, (num body 5).trans seven⟩
  · obtain ⟨first, named, unnamed, applied, unapplied⟩ := x.reads
    exact ⟨rfl, first, named, unnamed, applied, unapplied,
      fun i reached => getD_zero_from (k := 3) (by simp [Result.words]) reached⟩
  · obtain ⟨state, sync, reserved, trip⟩ := feederMirror_reads s f
    obtain ⟨mode, reload, usable, sum, producer, consumer, summary⟩ := globalMirror_reads s
    have num : ∀ k < 4, (s.mirrorWord (8 + k + 4 * f.val)).toNat = (s.feederMirrorWord f k).toNat := fun k four => by
      rw [← State.mirrorWord_feederWord s f k four, feederWord, Nat.add_right_comm]
    refine ⟨fun i => ⟨fun x latest => ?_, fun latest => ?_⟩, mode, reload, usable, sum, producer, consumer, summary, ?_,
      (num 0 (by decide)).trans state, (num 1 (by decide)).trans sync,
      fun fits rode => (num 2 (by decide)).trans (reserved fits rode),
      fun counted bounded => (num 3 (by decide)).trans (trip counted bounded)⟩
    · unfold State.resultWord
      rw [latest]
    · unfold State.resultWord
      rw [latest]
    · simp only [State.mirrorWord, loaded]

end Sys2Proof.Machine
end

section
namespace Sys2Proof.Machine

/-! ## The line in step (R112, R118 to R121) -/

/-- An exchange's attempt number, and the causes its ladder has gathered, as the line stands: between attempts each one
made has left its cause, and while one is made the earlier ones have (R119 to R121). -/
structure Exchange.CountedAt (x : Exchange) (line : LineState) : Prop where
  begun : 1 ≤ x.attempt
  under : line = .send ∨ line = .wait ∨ line = .receive → x.attempt ≤ 5 ∧ x.causes.length + 1 = x.attempt
  between : line = .settle ∨ line = .resync ∨ line = .quiet → x.attempt ≤ 4 ∧ x.causes.length = x.attempt

/-- The invariant of the line, which reads the link alone. -/
structure Link.InStep (l : Link) : Prop where
  idle : l.line = .idle → l.exchange = none ∧ l.resyncOwed = false ∧ ∀ f, l.slots.get f = none
  carried : l.line = .send ∨ l.line = .wait ∨ l.line = .receive → l.exchange.isSome
  waits : l.wait.isSome ↔ l.line = .wait
  counted : ∀ x, l.exchange = some x → x.CountedAt l.line

theorem State.lineInv_iff (s : State) : s.lineInv ↔ s.link.InStep := by
  constructor
  · rintro ⟨idle, carried, waits, counted⟩
    refine ⟨idle, carried, waits, fun x exchange => ?_⟩
    obtain ⟨begun, under, between⟩ := counted x exchange
    exact ⟨begun, under, between⟩
  · intro h
    refine ⟨h.idle, h.carried, h.waits, fun x exchange => ?_⟩
    have count := h.counted x exchange
    exact ⟨count.begun, count.under, count.between⟩

namespace Link

variable {l : Link}

theorem InStep.wait_none (h : l.InStep) (line : l.line ≠ .wait) : l.wait = none := by
  have := h.waits.not.2 line
  simpa using this

/-- A line that is sending attempt `x.attempt` of an exchange. -/
theorem InStep.of_send {x : Exchange} (line : l.line = .send) (exchange : l.exchange = some x) (wait : l.wait = none)
    (begun : 1 ≤ x.attempt) (bound : x.attempt ≤ 5) (causes : x.causes.length + 1 = x.attempt) : l.InStep where
  idle h := by rw [line] at h; cases h
  carried _ := by rw [exchange]; rfl
  waits := by simp [wait, line]
  counted y h := by
    obtain rfl : x = y := by rw [exchange] at h; injection h
    exact ⟨begun, fun _ => ⟨bound, causes⟩, by simp [line]⟩

/-- A line between two attempts, or with no exchange in flight. -/
theorem InStep.of_between (line : l.line = .settle ∨ l.line = .resync ∨ l.line = .quiet) (wait : l.wait = none)
    (counted : ∀ x, l.exchange = some x → 1 ≤ x.attempt ∧ x.attempt ≤ 4 ∧ x.causes.length = x.attempt) :
    l.InStep where
  idle h := by simp [h] at line
  carried h := by rcases h with h | h | h <;> simp [h] at line
  waits := by
    rw [wait]
    rcases line with h | h | h <;> simp [h]
  counted x h := by
    obtain ⟨begun, bound, causes⟩ := counted x h
    exact ⟨begun, fun k => by rcases k with k | k | k <;> simp [k] at line, fun _ => ⟨bound, causes⟩⟩

/-- A frame is out and its reply is awaited or comes in. -/
theorem InStep.of_reply {x : Exchange} (line : l.line = .wait ∨ l.line = .receive) (exchange : l.exchange = some x)
    (wait : l.wait.isSome ↔ l.line = .wait) (begun : 1 ≤ x.attempt) (bound : x.attempt ≤ 5)
    (causes : x.causes.length + 1 = x.attempt) : l.InStep where
  idle h := by simp [h] at line
  carried _ := by rw [exchange]; rfl
  waits := wait
  counted y h := by
    obtain rfl : x = y := by rw [exchange] at h; injection h
    exact ⟨begun, fun _ => ⟨bound, causes⟩, fun k => by rcases k with k | k | k <;> simp [k] at line⟩

theorem reset_inStep : Link.reset.InStep := (State.lineInv_iff State.reset).1 reset_lineInv

/-- Emptying a slot and marking the exchange for discard (R117). -/
theorem InStep.without (h : l.InStep) (f : Fid) : (l.without f).InStep where
  idle line := by
    obtain ⟨exchange, owed, slots⟩ := h.idle line
    refine ⟨by simp [Link.without, exchange], owed, fun g => ?_⟩
    change (l.slots.set f none).get g = none
    rw [Per8.get_set, slots, ite_self]
  carried line := by simpa [Link.without] using h.carried line
  waits := h.waits
  counted x exchange := by
    obtain ⟨y, own, rfl⟩ := Option.map_eq_some_iff.1 exchange
    have count := h.counted y own
    split
    · exact ⟨count.begun, count.under, count.between⟩
    · exact count

/-- What waits for a busy line leaves it in step. -/
theorem InStep.busy (h : l.InStep) (busy : l.line ≠ .idle) (slots : Per8 (Option Request)) (owed : Bool) :
    ({ l with slots := slots, resyncOwed := owed } : Link).InStep :=
  ⟨fun idle => absurd idle busy, h.carried, h.waits, h.counted⟩

/-- The count of a WAIT goes on (R119). -/
theorem InStep.tick (h : l.InStep) : ({ l with wait := l.wait.map Wait.tick } : Link).InStep where
  idle := h.idle
  carried := h.carried
  waits := by simpa using h.waits
  counted := h.counted

end Link

/-! ## The arbiter's choice (R118) -/

namespace State

/-- No request waits exactly where the arbiter finds none. -/
theorem nextRequest_eq_none (s : State) : s.nextRequest = none ↔ ∀ f, s.link.slots.get f = none := by
  unfold nextRequest
  rw [List.findSome?_eq_none_iff]
  simp [mem_byPriority]

/-- The arbiter finds the waiting request whose feeder's priority is above that of every other waiting one. -/
theorem nextRequest_eq_some {s : State} {f : Fid} {r : Request} (slot : s.link.slots.get f = some r)
    (first : ∀ g, g ≠ f → s.link.slots.get g ≠ none → (s.entry f).priority < (s.entry g).priority) :
    s.nextRequest = some (f, r) := by
  cases found : s.nextRequest with
  | none => rw [(nextRequest_eq_none s).1 found f] at slot; cases slot
  | some p =>
    obtain ⟨g, r'⟩ := p
    have waits := nextRequest_slot found
    suffices own : g = f by
      subst own
      rw [slot] at waits
      rw [Option.some.inj waits]
    by_contra other
    have above := first g other (by simp [waits])
    obtain ⟨before, a, after, order, here, none⟩ := List.findSome?_eq_some_iff.1 found
    obtain ⟨_, -, pair⟩ := Option.map_eq_some_iff.1 here
    obtain rfl : a = g := (Prod.mk.inj pair).1
    have behind : f ∈ after := by
      have mem := order ▸ mem_byPriority s f
      rcases List.mem_append.1 mem with early | late
      · have := none f early
        simp [slot] at this
      · exact (List.mem_cons.1 late).resolve_left (Ne.symm other)
    have sorted := order ▸ byPriority_sorted s
    have below := (List.pairwise_cons.1 (List.pairwise_append.1 sorted).2.1).1 f behind
    exact absurd above (not_lt.2 below)

/-- The arbiter leaves an IDLE line in step: it sends an owed RESYNC or the first waiting request, or nothing waits. -/
theorem arbitrateLine_inStep {s : State} (line : s.link.line = .idle) (exchange : s.link.exchange = none)
    (wait : s.link.wait = none) : s.arbitrateLine.link.InStep := by
  unfold arbitrateLine
  split
  · exact .of_between (.inr (.inl rfl)) wait (by simp [exchange])
  next owed =>
    split
    · rw [takeRequest_link]
      exact .of_send rfl rfl wait (Nat.le_refl 1) (by simp) rfl
    · next found =>
      refine ⟨fun _ => ⟨exchange, by simpa using owed, (nextRequest_eq_none s).1 found⟩, ?_, ?_, ?_⟩
      · simp [line]
      · simp [line, wait]
      · simp [exchange]

theorem lineIdle_inStep {s : State} (exchange : s.link.exchange = none) (wait : s.link.wait = none) :
    s.lineIdle.link.InStep := arbitrateLine_inStep (s := { s with link := { s.link with line := .idle } }) rfl exchange wait

theorem slotRequest_link (s : State) (f : Fid) (r : Request) :
    (s.slotRequest f r).link = { s.link with slots := s.link.slots.set f (some r) } := by
  simp [slotRequest]

variable {s : State}

@[simp] theorem placeRequest_inStep (f : Fid) (r : Request) (h : s.link.InStep) :
    (s.placeRequest f r).link.InStep := by
  cases yields : s.yields f r with
  | true => rwa [placeRequest_of_yields s f r yields]
  | false =>
    rw [placeRequest_eq s f r yields]
    have link := slotRequest_link s f r
    split
    · next idle =>
      apply arbitrateLine_inStep <;> rw [link]
      · exact idle
      · exact (h.idle idle).1
      · exact h.wait_none (by simp [idle])
    · next busy =>
      rw [link]
      exact h.busy busy _ _

@[simp] theorem oweResync_inStep (h : s.link.InStep) : s.oweResync.link.InStep := by
  unfold oweResync
  dsimp only
  split
  · next idle =>
    exact arbitrateLine_inStep idle (h.idle idle).1 (h.wait_none (by simp [show s.link.line = .idle from idle]))
  · next busy => exact h.busy busy _ _

end State

end Sys2Proof.Machine
end

section
namespace Sys2Proof.Machine

/-! ## The operations that leave the link alone -/

namespace State

variable (s : State) (f : Fid)

@[simp] theorem releaseEnergy_link : (s.releaseEnergy f).link = s.link := putReserved_link s f 0

@[simp] theorem consume_link (c : Nat) : (s.consume f c).link = s.link := putReserved_link s f _

@[simp] theorem clearNotice_link : (s.clearNotice f).link = s.link := rfl

@[simp] theorem requestEntry_link (need : Nat) : (s.requestEntry f need).1.link = s.link :=
  (requestEntry_accountOnly s f need).link

@[simp] theorem requestRide_link (need : Nat) : (s.requestRide f need).1.link = s.link :=
  (requestRide_accountOnly s f need).link

@[simp] theorem updateUsable_link (v : Nat) : (s.updateUsable v).link = s.link := by
  unfold updateUsable
  dsimp only
  split
  · exact putUsable_link s _
  · rw [handRecord_link, putUsable_link, (shedUntil_accountOnly _ _ _ s).link]

@[simp] theorem onSag_link (g : SagRecord → SagRecord) : (s.onSag f g).link = s.link := putCtl_link s f _

@[simp] theorem flagInterruption_link : (s.flagInterruption f).link = s.link := putCtl_link s f _

@[simp] theorem bridgedGap_link (g : Nat) : (s.bridgedGap f g).link = s.link := putCtl_link s f _

@[simp] theorem stopSource_link : (s.stopSource f).link = s.link := putCtl_link s f _

@[simp] theorem startQuiet_link : (s.startQuiet f).link = s.link := putCtl_link s f _

@[simp] theorem advanceQuiet_link : (s.advanceQuiet f).link = s.link := putCtl_link s f _

@[simp] theorem drawOrder_link : s.drawOrder.1.link = s.link := rfl

@[simp] theorem openSag_link (residuals : Phases Nat) (interruption : Bool) :
    (s.openSag f residuals interruption).link = s.link := by
  simp [openSag]

@[simp] theorem formAutofill_link : (s.formAutofill f).1.link = s.link := by
  unfold formAutofill
  dsimp only
  split <;> simp

@[simp] theorem takeRecord_link (r : Accepted) : (s.takeRecord f r).link = s.link := by
  unfold takeRecord
  dsimp only
  split <;> simp

@[simp] theorem takeChosen_link (r : Option Accepted) : (s.takeChosen f r).link = s.link := by
  cases r with
  | none => rfl
  | some r => exact takeRecord_link s f r

@[simp] theorem setReady_link (ready : Bool) : (s.setReady f ready).link = s.link := by
  unfold setReady
  split <;> simp

@[simp] theorem commitLine_link (applied amax : Nat) : (s.commitLine f applied amax).link = s.link := by
  unfold commitLine
  dsimp only
  split <;> simp

@[simp] theorem recordSync_link (old : Tracker) (cause : SyncCause) : (s.recordSync f old cause).link = s.link := by
  unfold recordSync
  split <;> simp

@[simp] theorem reportJump_link (prior : Sync) (jump : Option Int) : (s.reportJump f prior jump).link = s.link := by
  unfold reportJump
  split
  · rfl
  · dsimp only
    split <;> simp

@[simp] theorem closeHalfCycle_link (closed : Accum) : (s.closeHalfCycle f closed).1.link = s.link :=
  (congrArg (fun u : State => u.link) (closeHalfCycle_blocks s f closed) :)

@[simp] theorem sendToSeek_link (cause : SyncCause) : (s.sendToSeek f cause).link = s.link :=
  (congrArg (fun u : State => u.link) (sendToSeek_blocks s f cause) :)

@[simp] theorem restartSilence_link : (s.restartSilence f).link = s.link := by
  unfold restartSilence
  split <;> rfl

@[simp] theorem dclinkTake_link (be : BitVec 4) (v : Word) : (s.dclinkTake be v).link = s.link := by
  unfold dclinkTake
  dsimp only
  split
  · rfl
  split
  · exact updateUsable_link _ _
  · rfl

@[simp] theorem stagerWrite_link (i : Nat) (be : BitVec 4) (v : Word) : (s.stagerWrite f i be v).link = s.link := by
  have word0 : ∀ m : State, (m.aliasWord0 f be v).link = m.link := by
    intro m
    unfold aliasWord0
    dsimp only
    split <;> simp
  have middle : ∀ m : State, (m.aliasMiddle f i be v).link = m.link := by
    intro m
    unfold aliasMiddle
    dsimp only
    split <;> rfl
  have word7 : ∀ m : State, (m.aliasWord7 f be v).link = m.link := by
    intro m
    unfold aliasWord7
    dsimp only
    split
    · rfl
    · split <;> simp [acceptRecord]
  unfold stagerWrite
  dsimp only
  split
  · exact word0 _
  split
  · exact word7 _
  · exact middle _

end State

/-! ## The feeder controllers' operations keep the line in step -/

namespace State

variable {s : State} (f : Fid)

@[simp] theorem fault_inStep (r : Reason) (h : s.link.InStep) : (s.fault f r).link.InStep := by
  by_cases idle : (s.ctl.get f).state = .off ∨ (s.ctl.get f).state = .fault
  · rwa [fault_idle s f r idle]
  · obtain ⟨live, well⟩ := not_or.1 idle
    rw [fault_enters s f r live well, enterFault_link]
    exact h.without f

@[simp] theorem enterArming_inStep (r : Reason) (h : s.link.InStep) : (s.enterArming f r).link.InStep := by
  rw [enterArming_eq]
  split
  · rw [enterFault_link, beginArming_link]
    exact h.without f
  · rwa [beginArming_link]

@[simp] theorem enterOff_inStep (h : s.link.InStep) : (s.enterOff f).link.InStep := by
  have link : (s.enterOff f).link = s.link.without f := by simp [enterOff, standDown_link]
  rw [link]
  exact h.without f

@[simp] theorem placeRelease_inStep (h : s.link.InStep) : (s.placeRelease f).link.InStep := placeRequest_inStep f _ h

@[simp] theorem placeEngage_inStep (ref : Reference) (source : Source) (record : Option Accepted) (h : s.link.InStep) :
    (s.placeEngage f ref source record).link.InStep := placeRequest_inStep f _ h

@[simp] theorem hold_inStep (h : s.link.InStep) : (s.hold f).link.InStep := placeRequest_inStep f _ h

@[simp] theorem enterShed_inStep (r : Reason) (c : ResultCode) (h : s.link.InStep) :
    (s.enterShed f r c).link.InStep := by
  simp [enterShed, h]

@[simp] theorem tryEntry_inStep (ref : Reference) (source : Source) (record : Option Accepted) (h : s.link.InStep) :
    (s.tryEntry f ref source record).link.InStep := by
  simp only [tryEntry]
  split <;> simp [h]

@[simp] theorem rideDecision_inStep (h : s.link.InStep) : (s.rideDecision f).link.InStep := by
  simp only [rideDecision]
  split
  · simp [h]
  · split <;> simp [h]

@[simp] theorem chooseReference_inStep (h : s.link.InStep) : (s.chooseReference f).link.InStep := by
  simp only [chooseReference]
  split
  · split <;> simp [h]
  split
  · split <;> simp [h]
  · simp [h]

@[simp] theorem takeOnset_inStep (v : Verdicts) (h : s.link.InStep) : (s.takeOnset f v).link.InStep := by
  simp only [takeOnset]
  split
  · simp [h]
  · split <;> simp [h]

/-! ### The boundary (R6 to R11, R15, R16, R134 to R136) -/

@[simp] theorem armingBoundary_inStep (h : s.link.InStep) : (s.armingBoundary f).link.InStep := by
  unfold armingBoundary
  split <;> simp [h]

@[simp] theorem standbyBoundary_inStep (v : Verdicts) (h : s.link.InStep) : (s.standbyBoundary f v).link.InStep := by
  unfold standbyBoundary
  split
  · simp [h]
  · split <;> simp [h]

@[simp] theorem watchBoundary_inStep (v : Verdicts) (h : s.link.InStep) : (s.watchBoundary f v).link.InStep := by
  unfold watchBoundary
  split
  · simp [h]
  split
  · simp [h]
  · split <;> simp [h]

@[simp] theorem rideBoundary_inStep (v : Verdicts) (h : s.link.InStep) : (s.rideBoundary f v).link.InStep := by
  unfold rideBoundary
  split
  · simp [h]
  split
  · simp [h]
  split
  · simp [h]
  · split <;> simp [h]

@[simp] theorem recoverBoundary_inStep (v : Verdicts) (h : s.link.InStep) : (s.recoverBoundary f v).link.InStep := by
  unfold recoverBoundary
  split
  · simp [h]
  · split <;> simp [h]

@[simp] theorem shedBoundary_link (s : State) (v : Verdicts) : (s.shedBoundary f v).link = s.link := by
  unfold shedBoundary
  split
  · simp
  split
  · simp
  · split <;> simp

@[simp] theorem actOn_inStep (v : Verdicts) (h : s.link.InStep) : (s.actOn f v).link.InStep := by
  unfold actOn
  split <;> simp [h]

@[simp] theorem expire_inStep (h : s.link.InStep) : (s.expire f).link.InStep := by
  unfold expire
  dsimp only
  split <;> simp [h]

@[simp] theorem expireThenAct_inStep (v : Verdicts) (h : s.link.InStep) : (s.expireThenAct f v).link.InStep := by
  unfold expireThenAct
  split <;> simp [h]

@[simp] theorem actThenExpire_inStep (v : Verdicts) (h : s.link.InStep) : (s.actThenExpire f v).link.InStep := by
  unfold actThenExpire
  dsimp only
  split <;> simp [h]

@[simp] theorem verdictsAndQuiet_inStep (v : Verdicts) (h : s.link.InStep) :
    (s.verdictsAndQuiet f v).link.InStep := by
  have drawn : s.drawOrder.1.link.InStep := h
  unfold verdictsAndQuiet
  split
  · split
    · generalize s.drawOrder = p at drawn ⊢
      dsimp only
      split
      · exact expireThenAct_inStep f v drawn
      · exact actThenExpire_inStep f v drawn
    · exact expireThenAct_inStep f v h
  · exact actOn_inStep f v ((advanceQuiet_link s f).symm ▸ h)

@[simp] theorem boundary_inStep (v : Verdicts) (h : s.link.InStep) : (s.boundary f v).link.InStep := by
  unfold boundary
  split <;> simp [h]

@[simp] theorem trackerLost_inStep (h : s.link.InStep) : (s.trackerLost f).link.InStep := by
  unfold trackerLost
  split <;> simp [h]

/-! ### Instants, groups and silence (R18, R26 to R33, R40, R54) -/

/-- Settling the results at the end of an event leaves the line alone. -/
theorem asEventOf_inStep {event : State → State} (h : (event s).link.InStep) : (s.asEventOf f event).link.InStep := by
  rwa [asEventOf, settleResults_link]

@[simp] theorem reportSync_inStep (old : Tracker) (h : s.link.InStep) : (s.reportSync f old).link.InStep := by
  unfold reportSync
  dsimp only
  split
  · exact h
  · split <;> simp [h]

@[simp] theorem atBoundary_inStep (old : Tracker) (jump : Option Int) (closed : Accum) (h : s.link.InStep) :
    (s.atBoundary f old jump closed).link.InStep :=
  asEventOf_inStep f (by simp [h])

@[simp] theorem takeInstant_inStep (x : Instant) (h : s.link.InStep) : (s.takeInstant f x).link.InStep := by
  unfold takeInstant onAnswer accumulate
  dsimp only
  split <;> simp [h]

@[simp] theorem takeInstants_inStep (xs : List Instant) (h : s.link.InStep) : (s.takeInstants f xs).link.InStep :=
  List.foldlRecOn (motive := fun t : State => t.link.InStep) xs _ h fun _ k x _ => takeInstant_inStep f x k

@[simp] theorem samplerRestart_inStep (h : s.link.InStep) : (s.samplerRestart f).link.InStep := by
  unfold samplerRestart
  refine asEventOf_inStep f ?_
  dsimp only
  split <;> simp [h]

@[simp] theorem beforeOwn_inStep (c : GroupClass) (last : Phases Sample) (h : s.link.InStep) :
    (s.beforeOwn f c last).link.InStep := by
  cases c <;> simp [beforeOwn, h]

theorem completeGroup_inStep (v : Word) (h : s.link.InStep) : (s.completeGroup f v).link.InStep := by
  unfold completeGroup
  dsimp only
  rw [restartSilence_link, putMonitor_link]
  exact takeInstant_inStep f _ (beforeOwn_inStep f _ _ h)

@[simp] theorem sampleWrite_inStep (place : BitVec 2) (be : BitVec 4) (v : Word) (h : s.link.InStep) :
    (s.sampleWrite f place be v).link.InStep := by
  unfold sampleWrite
  dsimp only
  split
  · exact h
  · exact h
  · exact h
  split
  · exact completeGroup_inStep f v h
  · exact h

@[simp] theorem silenceExpires_inStep (h : s.link.InStep) : (s.silenceExpires f).link.InStep := by
  unfold silenceExpires
  split
  · exact h
  · exact asEventOf_inStep f (by simp [h])

/-! ### Notices, alarms and clear requests (R17, R20, R21) -/

@[simp] theorem takeNotice_inStep (h : s.link.InStep) : (s.takeNotice f).link.InStep := by
  unfold takeNotice
  split
  · exact h
  · refine asEventOf_inStep f ?_
    dsimp only
    split
    · exact enterShed_inStep f _ _ h
    · exact h

@[simp] theorem alarm_inStep (h : s.link.InStep) : (s.alarm f).link.InStep :=
  asEventOf_inStep f (fault_inStep f .alarm h)

@[simp] theorem clearFeeder_inStep (h : s.link.InStep) : (s.clearFeeder f).link.InStep := by
  unfold clearFeeder
  split
  · split <;> simp [h]
  · exact h

@[simp] theorem clearWord_inStep (be : BitVec 4) (v : Word) (h : s.link.InStep) : (s.clearWord be v).link.InStep := by
  unfold clearWord
  split
  · refine List.foldlRecOn (motive := fun t : State => t.link.InStep) Fid.all _ h fun t k f _ => ?_
    split
    · exact clearFeeder_inStep f k
    · exact k
  · exact h

end State

end Sys2Proof.Machine
end

section
namespace Sys2Proof.Machine

namespace State

variable {s : State}

/-! ## Replies and the ends of a ladder (R13 to R15, R106, R122, R123) -/

@[simp] theorem engageReply_inStep (f : Fid) (ref : Reference) (hc : BitVec 8) (source : Source) (r : Reply)
    (h : s.link.InStep) : (s.engageReply f ref hc source r).link.InStep := by
  unfold engageReply
  split
  · cases r with
    | done applied => simpa [engageDone] using h
    | notReady =>
      simp only [engageNotReady]
      split <;> simp [h]
    | hot => simp [h]
    | status _ => exact h
  · cases r with
    | done applied => simp [h]
    | notReady => simp [h]
    | hot => simp [h]
    | status _ => exact h

@[simp] theorem released_link (s : State) (f : Fid) : (s.released f).link = s.link := by
  unfold released
  split <;> simp

@[simp] theorem releaseReply_inStep (f : Fid) (r : Reply) (h : s.link.InStep) : (s.releaseReply f r).link.InStep := by
  cases r <;> simp [releaseReply, h]

@[simp] theorem statusReply_inStep (f : Fid) (r : Reply) (h : s.link.InStep) : (s.statusReply f r).link.InStep := by
  unfold statusReply
  split
  · dsimp only
    split <;> simp [h]
  all_goals simp [h]

theorem handReply_inStep (x : Exchange) (r : Reply) (h : s.link.InStep) : (s.handReply x r).link.InStep := by
  unfold handReply
  refine asEventOf_inStep x.feeder ?_
  split <;> simp [h]

theorem ladderFailed_inStep (x : Exchange) (h : s.link.InStep) : (s.ladderFailed x).link.InStep :=
  asEventOf_inStep x.feeder (fault_inStep x.feeder .link ((settleLine_link s x.feeder .linkFailed none).symm ▸ h))

/-! ## The line's intervals (R119 to R122, R124, R128) -/

/-- The line settles with no exchange. -/
theorem lineSettle_none_inStep (s : State) : (s.lineSettle none).link.InStep := .of_between (.inl rfl) rfl nofun

/-- An attempt fails in WAIT or RECEIVE, and leaves its cause with the exchange that is to try again (R119 to R122). -/
theorem attemptFails_inStep (c : LinkCause) (h : s.link.InStep) (line : s.link.line = .wait ∨ s.link.line = .receive) :
    (s.attemptFails c).link.InStep := by
  cases exchange : s.link.exchange with
  | none => simpa [attemptFails, failAttempt, exchange] using lineSettle_none_inStep s
  | some x =>
    have count := h.counted x exchange
    obtain ⟨-, causes⟩ := count.under (.inr line)
    cases discard : x.discard with
    | true => simpa [attemptFails, failAttempt, exchange, discard] using lineSettle_none_inStep s
    | false =>
      by_cases last : x.attempt < 5
      · rw [attemptFails_again s x c exchange discard last]
        refine .of_between (.inl rfl) rfl fun y own => ?_
        obtain rfl := Option.some.inj own
        exact ⟨count.begun, Nat.le_of_lt_succ last, by simpa using causes⟩
      · rw [attemptFails_last s x c exchange discard (Nat.le_of_not_lt last)]
        exact ladderFailed_inStep x (lineSettle_none_inStep s)

theorem responseTimeout_inStep (h : s.link.InStep) : s.responseTimeout.link.InStep := by
  unfold responseTimeout
  split
  · next wait => exact attemptFails_inStep .noReply h (.inl wait)
  · exact h

theorem replyBreakOff_inStep (h : s.link.InStep) : s.replyBreakOff.link.InStep := by
  unfold replyBreakOff
  split
  · next receive => exact attemptFails_inStep .malformed h (.inr receive)
  · exact h

theorem replyComplete_inStep (bytes : List Byte) (stops : Bool) (h : s.link.InStep) :
    (s.replyComplete bytes stops).link.InStep := by
  unfold replyComplete
  split
  · next receive =>
    split
    · exact lineSettle_none_inStep s
    split
    · exact attemptFails_inStep _ h (.inr receive)
    split
    · exact lineSettle_none_inStep s
    · exact handReply_inStep _ _ (lineSettle_none_inStep s)
  · exact h

theorem frameEnd_inStep (h : s.link.InStep) : s.frameEnd.link.InStep := by
  unfold frameEnd
  split
  · next send =>
    obtain ⟨x, exchange⟩ := Option.isSome_iff_exists.1 (h.carried (.inl send))
    have count := h.counted x exchange
    obtain ⟨bound, causes⟩ := count.under (.inl send)
    exact .of_reply (.inl rfl) exchange (by simp) count.begun bound causes
  all_goals exact h

theorem replyStart_inStep (h : s.link.InStep) : s.replyStart.link.InStep := by
  unfold replyStart
  split
  · next wait =>
    obtain ⟨x, exchange⟩ := Option.isSome_iff_exists.1 (h.carried (.inr (.inl wait)))
    have count := h.counted x exchange
    obtain ⟨bound, causes⟩ := count.under (.inr (.inl wait))
    exact .of_reply (.inr rfl) exchange (by simp) count.begun bound causes
  all_goals exact h

/-- The next attempt leaves the line in step: it is one more than the attempts that have failed (R120, R121). -/
theorem resend_inStep {x : Exchange} (h : s.link.InStep) (line : s.link.line = .settle ∨ s.link.line = .quiet)
    (exchange : s.link.exchange = some x) : (s.resend x).link.InStep := by
  obtain ⟨bound, causes⟩ := (h.counted x exchange).between (line.imp_right .inr)
  have wait : s.link.wait = none := h.wait_none (by rcases line with e | e <;> simp [e])
  exact .of_send rfl rfl wait (Nat.le_add_left ..) (Nat.succ_le_succ bound) (congrArg (· + 1) causes)

theorem settleEnd_inStep (h : s.link.InStep) : s.settleEnd.link.InStep := by
  unfold settleEnd
  split
  · next settle =>
    have wait : s.link.wait = none := h.wait_none (by simp [settle])
    split
    · next none => exact lineIdle_inStep none wait
    next x exchange =>
    split
    · exact lineIdle_inStep (s := { s with link := { s.link with exchange := none } }) rfl wait
    split
    · exact resend_inStep h (.inl settle) exchange
    · rw [ladderResync, handRecord_link]
      refine .of_between (.inr (.inl rfl)) wait fun y own => ?_
      have count := h.counted y own
      exact ⟨count.begun, count.between (.inl settle)⟩
  all_goals exact h

theorem resyncEnd_inStep (h : s.link.InStep) : s.resyncEnd.link.InStep := by
  unfold resyncEnd
  split
  · next resync =>
    refine .of_between (.inr (.inr rfl)) (h.wait_none (by simp [resync])) fun x exchange => ?_
    have count := h.counted x exchange
    exact ⟨count.begun, count.between (.inr (.inl resync))⟩
  all_goals exact h

theorem quietEnd_inStep (h : s.link.InStep) : s.quietEnd.link.InStep := by
  unfold quietEnd
  split
  · next quiet =>
    split
    · exact lineSettle_none_inStep s
    next x exchange =>
    split
    · exact lineSettle_none_inStep s
    · exact resend_inStep h (.inr quiet) exchange
  all_goals exact h

/-! ## Installations and the loader (R22, R127, R165 to R172) -/

@[simp] theorem abandonAssembly_link (s : State) (f : Fid) : (s.abandonAssembly f).link = s.link :=
  (congrArg (fun u : State => u.link) (abandonAssembly_blocks s f) :)

@[simp] theorem trackerToSeek_link (s : State) (f : Fid) : (s.trackerToSeek f).link = s.link :=
  (congrArg (fun u : State => u.link) (trackerToSeek_blocks s f) :)

@[simp] theorem reloadFeeder_inStep (f : Fid) (was changed : Bool) (h : s.link.InStep) :
    (s.reloadFeeder f was changed).link.InStep := by
  unfold reloadFeeder
  split
  · exact h
  · exact enterArming_inStep f _ h
  · exact enterOff_inStep f h
  split
  · exact enterArming_inStep f _ h
  · exact h

theorem reloadOne_inStep (old : Table) (d : Changes) (f : Fid) (h : s.link.InStep) :
    (s.reloadOne old d f).link.InStep := by
  unfold reloadOne
  refine asEventOf_inStep f (reloadFeeder_inStep f _ _ ?_)
  split <;> simpa using h

theorem installReload_inStep (addr : Word) (old new : Table) (h : s.link.InStep) :
    (s.installReload addr old new).link.InStep := by
  have before : (s.beforeFeeders addr old new).link = s.link :=
    (congrArg (fun u : State => u.link) (beforeFeeders_prelude s addr old new).blocks :)
  rw [installReload_eq, judgeAttn_link]
  exact List.foldlRecOn (motive := fun t : State => t.link.InStep) Fid.all _ (before ▸ h)
    fun _ k f _ => reloadOne_inStep old _ f k

@[simp] theorem noneResults_link (s : State) : s.noneResults.link = s.link := by
  refine List.foldlRecOn (motive := fun t : State => t.link = s.link) Fid.all _ rfl fun t h f _ => ?_
  split
  · rw [makeResult_link, h]
  · exact h

@[simp] theorem touchAllMirror_link (s : State) : s.touchAllMirror.link = s.link :=
  (congrArg (fun u : State => u.link) (touchMirrors (List.range 40) s).2.1 :)

theorem installStart_inStep (addr : Word) (t : Table) (h : s.link.InStep) : (s.installStart addr t).link.InStep := by
  have before : (s.beforeArming addr t).link.InStep := by
    unfold beforeArming
    exact oweResync_inStep (by simpa using h)
  rw [installStart_eq, judgeAttn_link]
  refine List.foldlRecOn (motive := fun u : State => u.link.InStep) Fid.all _ before fun u k f _ => ?_
  split
  · exact enterArming_inStep f _ k
  · exact k

@[simp] theorem rejectTable_link (s : State) (addr : Option Word) (r : Reject) : (s.rejectTable addr r).link = s.link := by
  unfold rejectTable
  dsimp only
  split <;> simp

theorem endRead_inStep (addr : Word) (h : s.link.InStep) : (s.endRead addr).link.InStep := by
  unfold endRead acceptTable
  split
  · rwa [rejectTable_link]
  split
  · split
    · exact installReload_inStep addr _ _ h
    · rwa [putLoader_link]
  · exact installStart_inStep addr _ h

theorem tableWordRead_inStep (addr : Word) (index : Nat) (data : Word) (h : s.link.InStep) :
    (s.tableWordRead addr index data).link.InStep := by
  unfold tableWordRead
  dsimp only
  split
  · simpa using h
  split
  · exact endRead_inStep addr (by simpa using h)
  · simpa using h

theorem readAnswered_inStep (r : TableRead) (data : Word) (err : Bool) (h : s.link.InStep) :
    (s.readAnswered r data err).link.InStep := by
  unfold readAnswered
  split
  · split <;> simpa using h
  split
  · simpa using h
  · exact tableWordRead_inStep _ _ data h

theorem loaderAnswered_inStep (data : Word) (err : Bool) (h : s.link.InStep) :
    (s.loaderAnswered data err).link.InStep := by
  unfold loaderAnswered
  split
  · dsimp only
    split
    · refine readAnswered_inStep _ data err ?_
      split <;> exact h
    · split <;> exact h
    · split <;> exact h
  all_goals exact h

@[simp] theorem beginRead_link (s : State) : s.beginRead.link = s.link := putLoader_link s _

/-- Full reset has the line IDLE with nothing waiting (R112). -/
theorem fullReset_inStep (s : State) : s.fullReset.link.InStep := Link.reset_inStep

theorem restart_inStep (s : State) : s.restart.link.InStep := by
  unfold restart
  dsimp only
  split
  · exact fullReset_inStep s
  · exact (beginRead_link _).symm ▸ fullReset_inStep s

@[simp] theorem loadRequest_link (s : State) : s.loadRequest.link = s.link := by
  unfold loadRequest
  split <;> simp

@[simp] theorem startReload_link (s : State) : s.startReload.link = s.link := by
  unfold startReload
  split <;> simp

@[simp] theorem requestReload_link (s : State) : s.requestReload.link = s.link := by
  unfold requestReload
  split
  · simp
  · rfl
  · exact putLoader_link s.abandonRead _
  · simp

@[simp] theorem reloadWord_link (s : State) (be : BitVec 4) (v : Word) : (s.reloadWord be v).link = s.link := by
  unfold reloadWord
  split <;> simp

theorem installHeld_inStep (h : s.link.InStep) : s.installHeld.link.InStep := by
  unfold installHeld
  split
  · split
    · exact installReload_inStep _ _ _ h
    all_goals exact h
  · exact h

@[simp] theorem initReleased_link (s : State) : s.initReleased.link = s.link := by
  unfold initReleased
  dsimp only
  split <;> simp

/-! ## The writer and the bus (R140 to R164) -/

theorem recordError_link (s : State) (burst : Bool) : (s.recordError burst).link = s.link := by
  have gaveUp : s.giveUp.link = s.link := countDrop_link _
  unfold recordError
  split
  · rfl
  split
  · dsimp only
    split <;> exact gaveUp
  · rfl

theorem recordWritten_link (s : State) (k : Nat) : (s.recordWritten k).link = s.link := by
  unfold recordWritten
  split
  · rfl
  split
  · exact putProducer_link _ _
  · rfl

theorem recordWordComplete_link (s : State) (w : WriterWord) (k : Nat) (err : Bool) :
    (s.recordWordComplete w k err).link = s.link := by
  unfold recordWordComplete movedBurstWritten
  split
  · exact recordError_link s _
  split
  · split
    · split <;> rfl
    · exact recordWritten_link s k
  · exact recordWritten_link s k
  split
  · rfl
  · exact recordWritten_link s k

theorem mirrorWordComplete_link (s : State) (w : WriterWord) (i : Nat) (err : Bool) :
    (s.mirrorWordComplete w i err).link = s.link := by
  have cleaned : (s.cleanMirror w i).link = s.link := by
    unfold cleanMirror
    split <;> rfl
  have published : ((s.cleanMirror w i).publish w i).link = s.link := by
    unfold publish
    split <;> exact cleaned
  have written : (if err then s else (s.cleanMirror w i).publish w i).link = s.link := by
    split
    · rfl
    · exact published
  unfold mirrorWordComplete
  dsimp only
  generalize (if err then s else (s.cleanMirror w i).publish w i) = m at written ⊢
  split <;> exact written

@[simp] theorem writerAnswered_link (s : State) (err : Bool) : (s.writerAnswered err).link = s.link := by
  have completed : ∀ (m : State) (w : WriterWord), (m.wordComplete w err).link = m.link := by
    intro m w
    unfold wordComplete
    split
    · exact recordWordComplete_link m w _ err
    · exact mirrorWordComplete_link m w _ err
    · unfold resultWordComplete
      split <;> rfl
  unfold writerAnswered
  split
  · dsimp only
    split
    · rfl
    · exact completed _ _
  all_goals rfl

@[simp] theorem upstreamAnswered_link (s : State) (data : Word) (err : Bool) :
    (s.upstreamAnswered data err).link = s.link := by
  unfold upstreamAnswered
  split <;> rfl

@[simp] theorem consumedWord_link (s : State) (be : BitVec 4) (v : Word) : (s.consumedWord be v).link = s.link := by
  unfold consumedWord refuseConsumed
  split
  · simp
  · split <;> simp

theorem controlTake_inStep (offset : Word) (be : BitVec 4) (v : Word) (h : s.link.InStep) :
    (s.controlTake offset be v).link.InStep := by
  unfold controlTake
  split
  · exact clearWord_inStep be v h
  · rwa [reloadWord_link]
  · rwa [consumedWord_link]
  · rwa [sumclearWord, putSummary_link]
  · exact h

theorem windowTake_inStep (w : WindowEntry) (x : Access) (h : s.link.InStep) : (s.windowTake w x).link.InStep := by
  unfold windowTake
  split
  · exact sampleWrite_inStep _ _ _ _ h
  · rwa [dclinkTake_link]
  · rwa [stagerWrite_link]
  · exact controlTake_inStep _ _ _ h
  all_goals exact h

theorem handOff_inStep (cls : AccessClass) (x : Access) (h : s.link.InStep) : (s.handOff cls x).link.InStep := by
  unfold handOff startBlockTake
  split
  · split
    · split
      · split
        · exact restart_inStep s
        split
        · rwa [loadRequest_link]
        · exact h
      · exact h
    · exact h
  · exact h
  · exact windowTake_inStep _ x h

theorem takeAccess_inStep (x : Access) (h : s.link.InStep) : (s.takeAccess x).link.InStep := by
  unfold takeAccess admitAccess refuse
  dsimp only
  split
  · split
    · exact handOff_inStep _ x h
    · exact h
  · rwa [handRecord_link]

/-- Two states that differ at the port alone have the same link. -/
theorem link_of_offPort {s t : State} (h : t.offPort = s.offPort) : t.link = s.link :=
  (congrArg (fun u : State => u.link) h :)

theorem givePort_inStep {again : State → State} (kept : ∀ t : State, t.link.InStep → (again t).link.InStep)
    (h : s.link.InStep) : (s.givePort again).link.InStep := by
  unfold givePort
  split
  · split
    · split
      · exact kept _ (takeAccess_inStep _ h)
      · rwa [link_of_offPort (gapChoice_offPort s)]
    · split
      · exact h
      · exact kept _ h
    · split
      · split
        · exact kept _ h
        · exact h
      · exact kept _ h
  · exact h

theorem arbitrate_inStep (fuel : Nat) : ∀ {s : State}, s.link.InStep → (s.arbitrate fuel).link.InStep := by
  induction fuel with
  | zero => exact id
  | succ fuel ih =>
    intro s h
    rw [arbitrate_succ]
    exact givePort_inStep (fun t => ih) (link_of_offPort (judgeHold_offPort s) ▸ h)

theorem finish_inStep (h : s.link.InStep) : s.finish.link.InStep := by
  rw [link_of_offPort (finish_offPort_eq s)]
  exact arbitrate_inStep _ h

/-! ## Every step -/

theorem tick_inStep (h : s.link.InStep) : s.tick.link.InStep := by
  unfold tick
  split
  · exact h
  · exact h.tick

end State

theorem exec_inStep {c : Instr} {s t : State} (h : s.link.InStep) (run : exec c s = .next t) : t.link.InStep := by
  have done : ∀ u : State, u.link.InStep → u.done = .next t → t.link.InStep := by
    intro u k e
    obtain rfl : u.finish = t := by injection e
    exact State.finish_inStep k
  cases access : accessOf c with
  | some x =>
    rw [exec_access c x s access] at run
    exact done (s.present x) h run
  | none =>
    cases c
    case powerOn b => exact done _ (State.restart_inStep _) run
    case initAssert => exact done _ (State.fullReset_inStep _) run
    case initRelease => exact done s.initReleased (by simpa using h) run
    case upstreamAccessComplete data err => exact done (s.upstreamAnswered data err) (by simpa using h) run
    case malmAssert f => exact done _ (State.alarm_inStep f h) run
    case malmRelease f => exact done { s with malm := s.malm.set f false } h run
    case silenceExpiry f => exact done _ (State.silenceExpires_inStep f h) run
    case shedNoticeTaken f => exact done _ (State.takeNotice_inStep f h) run
    case frameEnd => exact done _ (State.frameEnd_inStep h) run
    case replyStart => exact done _ (State.replyStart_inStep h) run
    case responseTimeout => exact done _ (State.responseTimeout_inStep h) run
    case replyComplete bytes stops => exact done _ (State.replyComplete_inStep bytes stops h) run
    case replyBreakOff => exact done _ (State.replyBreakOff_inStep h) run
    case settleEnd => exact done _ (State.settleEnd_inStep h) run
    case resyncEnd => exact done _ (State.resyncEnd_inStep h) run
    case quietEnd => exact done _ (State.quietEnd_inStep h) run
    case writerWordComplete err => exact done (s.writerAnswered err) (by simpa using h) run
    case loaderReadComplete data err => exact done _ (State.loaderAnswered_inStep data err h) run
    case writerBurstHold =>
      refine done s.holdWriter ?_ run
      rcases State.holdWriter_eq s with e | ⟨-, -, q, e⟩ <;> rw [e] <;> exact h
    case loaderGapTimeout =>
      refine done s.gapTimeout ?_ run
      unfold State.gapTimeout
      split <;> exact h
    case loaderHold =>
      refine done s.holdLoader ?_ run
      rcases State.holdLoader_eq s with e | ⟨-, -, q, e⟩ <;> rw [e] <;> exact h
    case reloadReadStart => exact done s.startReload (by simpa using h) run
    case heldImageInstall => exact done _ (State.installHeld_inStep h) run
    all_goals cases access

theorem step_inStep {s t : State} (h : s.link.InStep) (run : step s = .next t) : t.link.InStep := by
  unfold step at run
  split at run
  · obtain rfl : s.tick = t := by injection run
    exact State.tick_inStep h
  · next c rest _ => exact exec_inStep (s := { s with pending := rest }) h run

/-- Settles O59: the invariant reads the link alone, and every operation that writes the link leaves it in step. -/
theorem lineStaysInStep : Obligations.LineStaysInStep := by
  intro s t inv run
  rw [State.lineInv_iff] at inv ⊢
  exact step_inStep inv run

end Sys2Proof.Machine
end

section
namespace Sys2Proof.Machine

/-! ## The checks of a reply (R114, R119) -/

section

variable {frame : FrameKind} {unit : BitVec 4} {lead : Byte} {stops : Bool}

/-- Step 1: without the link marker or a reply kind no length is fixed. -/
theorem replyLength_none (h : lead.getLsbD 7 = false ∨ (lead.extractLsb' 4 3).toNat < 5) : replyLength lead = none := by
  unfold replyLength
  split
  · next marked =>
    have low : (lead.extractLsb' 4 3).toNat < 5 := h.resolve_left (by simp [marked])
    split
    · next kind => simp [kind] at low
    · next kind => simp [kind] at low
    · next kind => simp [kind] at low
    · rfl
  · rfl

theorem replyLength_done (marked : lead.getLsbD 7 = true) (kind : lead.extractLsb' 4 3 = 5#3) :
    replyLength lead = some 4 := by
  simp [replyLength, marked, kind]

theorem replyLength_refused (marked : lead.getLsbD 7 = true) (kind : lead.extractLsb' 4 3 = 6#3) :
    replyLength lead = some 3 := by
  simp [replyLength, marked, kind]

theorem replyLength_status (marked : lead.getLsbD 7 = true) (kind : lead.extractLsb' 4 3 = 7#3) :
    replyLength lead = some 3 := by
  simp [replyLength, marked, kind]

theorem judgeReply_unsized (rest : List Byte) (h : replyLength lead = none) :
    judgeReply frame unit (lead :: rest) stops = .error .malformed := by
  simp [judgeReply, h]

/-- A stop bit at space, or too few bytes. -/
theorem judgeReply_broken {n : Nat} {rest : List Byte} (h : replyLength lead = some n)
    (broken : stops = false ∨ rest.length + 1 < n) :
    judgeReply frame unit (lead :: rest) stops = .error .malformed := by
  have test : (!stops || ((lead :: rest).take n).length != n) = true := by
    rcases broken with low | short
    · rw [low]
      rfl
    · have few : ((lead :: rest).take n).length ≠ n := by
        rw [List.length_take, List.length_cons]
        omega
      rw [bne_iff_ne.2 few, Bool.or_true]
  unfold judgeReply
  dsimp only
  rw [h]
  exact if_pos test

/-- The checks that follow, of a reply of its kind's length: CRC, unit, kind, fields, in this order. -/
theorem judgeReply_whole (frame : FrameKind) (unit : BitVec 4) {body : List Byte} (c : Byte)
    (h : replyLength lead = some (body.length + 2)) :
    judgeReply frame unit (lead :: body ++ [c]) true =
      if c ≠ crc8 (lead :: body) then .error .crc
      else if lead.extractLsb' 0 4 ≠ unit then .error .wrongUnit
      else if kindAccepted frame (lead.extractLsb' 4 3) = false then .error .wrongKind
      else (replyFields (lead.extractLsb' 4 3) body).elim (.error .malformed) .ok := by
  have whole : (lead :: body ++ [c]).take (body.length + 2) = lead :: body ++ [c] := List.take_of_length_le (by simp)
  have front : (lead :: body ++ [c]).take (body.length + 1) = lead :: body := by
    rw [List.take_append_of_le_length (by simp), List.take_of_length_le (by simp)]
  have last : (lead :: body ++ [c]).getD (body.length + 1) 0#8 = c := by simp
  have fields : ((lead :: body ++ [c]).drop 1).take body.length = body := by simp
  have length : (lead :: body ++ [c]).length = body.length + 2 := by simp
  unfold judgeReply
  simp only [List.cons_append] at whole front last fields length ⊢
  rw [h]
  simp only [whole, length, Nat.add_sub_cancel, show body.length + 2 - 1 = body.length + 1 from rfl, front, last, fields]
  cases replyFields (lead.extractLsb' 4 3) body <;> simp [eq_comm (a := c) (b := crc8 (lead :: body))]

/-! ### By kind: DONE, REFUSED, STATUS -/

theorem judgeReply_done {lo hi c : Byte} (marked : lead.getLsbD 7 = true) (kind : lead.extractLsb' 4 3 = 5#3) :
    judgeReply frame unit [lead, lo, hi, c] true =
      if c ≠ crc8 [lead, lo, hi] then .error .crc
      else if lead.extractLsb' 0 4 ≠ unit then .error .wrongUnit
      else if kindAccepted frame 5#3 = false then .error .wrongKind
      else if lo.toNat + 256 * hi.toNat ≤ 1000 then .ok (.done (lo.toNat + 256 * hi.toNat))
      else .error .malformed := by
  have whole := judgeReply_whole (body := [lo, hi]) frame unit c (replyLength_done marked kind)
  rw [kind] at whole
  refine whole.trans ?_
  by_cases range : lo.toNat + 256 * hi.toNat ≤ 1000 <;> simp [replyFields, range]

theorem judgeReply_refused {x c : Byte} (marked : lead.getLsbD 7 = true) (kind : lead.extractLsb' 4 3 = 6#3) :
    judgeReply frame unit [lead, x, c] true =
      if c ≠ crc8 [lead, x] then .error .crc
      else if lead.extractLsb' 0 4 ≠ unit then .error .wrongUnit
      else if kindAccepted frame 6#3 = false then .error .wrongKind
      else if x = 1#8 then .ok .notReady else if x = 2#8 then .ok .hot else .error .malformed := by
  have whole := judgeReply_whole (body := [x]) frame unit c (replyLength_refused marked kind)
  rw [kind] at whole
  refine whole.trans ?_
  by_cases one : x = 1#8
  · simp [replyFields, one]
  by_cases two : x = 2#8
  · simp [replyFields, two]
  simp [replyFields, one, two]

theorem judgeReply_status {x c : Byte} (marked : lead.getLsbD 7 = true) (kind : lead.extractLsb' 4 3 = 7#3) :
    judgeReply frame unit [lead, x, c] true =
      if c ≠ crc8 [lead, x] then .error .crc
      else if lead.extractLsb' 0 4 ≠ unit then .error .wrongUnit
      else if kindAccepted frame 7#3 = false then .error .wrongKind
      else if x = 1#8 then .ok (.status .ready) else if x = 2#8 then .ok (.status .ramping)
      else if x = 3#8 then .ok (.status .hot) else .error .malformed := by
  have whole := judgeReply_whole (body := [x]) frame unit c (replyLength_status marked kind)
  rw [kind] at whole
  refine whole.trans ?_
  by_cases one : x = 1#8
  · simp [replyFields, one]
  by_cases two : x = 2#8
  · simp [replyFields, two]
  by_cases three : x = 3#8
  · simp [replyFields, three]
  simp [replyFields, one, two, three]

end

/-- Settles O18: the model's checks, one after another, for each of the three reply kinds. -/
theorem replyJudgedInOrder : Obligations.ReplyJudgedInOrder := by
  intro frame unit lead rest stops
  dsimp only
  have kindOf : ∀ k : BitVec 3, (lead.extractLsb' 4 3).toNat = k.toNat → lead.extractLsb' 4 3 = k :=
    fun k => BitVec.eq_of_toNat_eq
  refine ⟨fun bad => ?_, fun marked good => ?_⟩
  · cases size : replyLength lead with
    | none => exact judgeReply_unsized rest size
    | some n =>
      refine judgeReply_broken size (.inl ?_)
      rcases bad with unmarked | low | stop
      · rw [replyLength_none (.inl unmarked)] at size; cases size
      · rw [replyLength_none (.inr low)] at size; cases size
      · exact stop
  subst good
  refine ⟨fun done short => ?_, fun other short => ?_, fun lo hi c done bytes => ?_, fun x c other bytes => ?_⟩
  · exact judgeReply_broken (replyLength_done marked (kindOf 5#3 done)) (.inr (Nat.succ_lt_succ short))
  · rcases other with refused | status
    · exact judgeReply_broken (replyLength_refused marked (kindOf 6#3 refused)) (.inr (Nat.succ_lt_succ short))
    · exact judgeReply_broken (replyLength_status marked (kindOf 7#3 status)) (.inr (Nat.succ_lt_succ short))
  · subst bytes
    rw [judgeReply_done marked (kindOf 5#3 done)]
    refine ⟨fun wrong => if_pos wrong, fun right => ?_⟩
    rw [if_neg (not_not.2 right)]
    refine ⟨fun wrong => if_pos wrong, fun own engage release => ?_, fun own accepts => ?_⟩
    · rw [if_neg (not_not.2 own)]
      cases frame <;> first | rfl | exact absurd rfl engage | exact absurd rfl release
    · rw [if_neg (not_not.2 own)]
      rcases accepts with rfl | rfl <;> rfl
  · subst bytes
    rcases other with refused | status
    · rw [judgeReply_refused marked (kindOf 6#3 refused)]
      refine ⟨fun wrong => if_pos wrong, fun right => ?_⟩
      rw [if_neg (not_not.2 right)]
      refine ⟨fun wrong => if_pos wrong, fun own => ?_⟩
      rw [if_neg (not_not.2 own)]
      refine ⟨fun status => ?_, fun _ resync => ?_, fun _ accepts => ?_, fun status => ?_⟩
      · rw [refused] at status; cases status
      · subst resync; rfl
      · cases frame <;> first | rfl | exact absurd rfl accepts
      · rw [refused] at status; cases status
    · rw [judgeReply_status marked (kindOf 7#3 status)]
      refine ⟨fun wrong => if_pos wrong, fun right => ?_⟩
      rw [if_neg (not_not.2 right)]
      refine ⟨fun wrong => if_pos wrong, fun own => ?_⟩
      rw [if_neg (not_not.2 own)]
      refine ⟨fun _ other => ?_, fun refused => ?_, fun refused => ?_, fun _ statusq => ?_⟩
      · cases frame <;> first | rfl | exact absurd rfl other
      · rw [status] at refused; cases refused
      · rw [status] at refused; cases refused
      · subst statusq; rfl

end Sys2Proof.Machine
end

section
namespace Sys2Proof.Machine

/-! ## Events that change the link alone (R119 to R121, R124, R128) -/

namespace State

variable {s : State}

theorem frameEnd_send (line : s.link.line = .send) :
    s.frameEnd = { s with link := { s.link with line := .wait, wait := some ⟨s.settings.timeout, 0⟩ } } := by
  simp [frameEnd, line]

theorem replyStart_wait (line : s.link.line = .wait) :
    s.replyStart = { s with link := { s.link with line := .receive, wait := none } } := by
  simp [replyStart, line]

theorem resyncEnd_resync (line : s.link.line = .resync) :
    s.resyncEnd = { s with link := { s.link with line := .quiet } } := by
  simp [resyncEnd, line]

theorem quietEnd_none (line : s.link.line = .quiet) (exchange : s.link.exchange = none) :
    s.quietEnd = { s with link := { s.link with line := .settle, wait := none } } := by
  simp [quietEnd, line, exchange, lineSettle]

theorem quietEnd_discarded {x : Exchange} (line : s.link.line = .quiet) (exchange : s.link.exchange = some x)
    (discard : x.discard = true) :
    s.quietEnd = { s with link := { s.link with line := .settle, exchange := none, wait := none } } := by
  simp [quietEnd, line, exchange, discard, lineSettle]

theorem quietEnd_again {x : Exchange} (line : s.link.line = .quiet) (exchange : s.link.exchange = some x)
    (live : x.discard = false) :
    s.quietEnd =
      { s with link := { s.link with line := .send, exchange := some { x with attempt := x.attempt + 1 } } } := by
  simp [quietEnd, line, exchange, live, resend]

end State

/-- An event whose effect is a change of the link completes with that change, and no other. -/
theorem completes_withLink {c : Instr} {s t : State} {l : Link} (settled : s.settled) (run : exec c s = t.done)
    (effect : t = { s with link := l }) : Completes c s fun u => u.offPort = State.offPort { s with link := l } := by
  subst effect
  exact completes_of_moves run settled.portSettled (State.withLink_moves s l .refl) fun _ ends => ends.offPort

/-! ## What the part puts on LTX (R113) -/

section

variable {s : State}

theorem ltxen_iff (s : State) : s.ltxen = true ↔ s.link.line = .send ∨ s.link.line = .resync := by
  unfold State.ltxen
  cases s.link.line <;> simp

/-- A frame goes out without a break before it. -/
theorem txLine_send {x : Exchange} (line : s.link.line = .send) (exchange : s.link.exchange = some x) :
    s.txLine = (x.request.frame x.unit).flatMap lineBits := by
  simp [State.txLine, State.txBytes, line, exchange]

theorem txLine_resync (line : s.link.line = .resync) :
    s.txLine = List.replicate 20 .space ++ resyncFrame.flatMap lineBits := by
  simp [State.txLine, State.txBytes, line, breakBits]

theorem txLine_released (released : s.ltxen = false) : s.txLine = [] := by
  have quiet := (ltxen_iff s).not.1 (by simp [released])
  unfold State.txLine State.txBytes
  cases line : s.link.line with
  | send => exact absurd (.inl line) quiet
  | resync => exact absurd (.inr line) quiet
  | idle => rfl
  | wait => rfl
  | receive => rfl
  | settle => rfl
  | quiet => rfl

/-- The eight data bits stand between the start bit and the stop bit, the least significant first. -/
theorem lineBits_data (b : Byte) {i : Nat} (h : i < 8) :
    (lineBits b)[i + 1]? = some (if b.getLsbD i then .mark else .space) := by
  simp [lineBits, List.getElem?_append_left, h]

end

/-- Settles O42: the line's bits are read off its state, and each of the four events writes the link alone. -/
theorem lineMovesOn : Obligations.LineMovesOn := by
  refine ⟨fun s b => ?_, fun s settled => ?_⟩
  · exact ⟨ltxen_iff s, fun x => txLine_send, txLine_resync, txLine_released, rfl, rfl, rfl, fun i => lineBits_data b⟩
  refine ⟨fun send => ?_, fun wait => ?_, fun resync => ?_, fun quiet none => ?_,
    fun x quiet exchange => ⟨fun discard => ?_, fun live => ?_⟩⟩
  · exact completes_withLink settled rfl (State.frameEnd_send send)
  · exact completes_withLink settled rfl (State.replyStart_wait wait)
  · exact completes_withLink settled rfl (State.resyncEnd_resync resync)
  · exact completes_withLink settled rfl (State.quietEnd_none quiet none)
  · exact completes_withLink settled rfl (State.quietEnd_discarded quiet exchange discard)
  · exact completes_withLink settled rfl (State.quietEnd_again quiet exchange live)

/-! ## The arbiter on an IDLE line (R118) -/

namespace State

variable {s : State}

theorem arbitrateLine_owed (owed : s.link.resyncOwed = true) :
    s.arbitrateLine = { s with link := { s.link with line := .resync, resyncOwed := false } } := if_pos owed

theorem arbitrateLine_rests (owed : s.link.resyncOwed = false) (none : ∀ f, s.link.slots.get f = none) :
    s.arbitrateLine = s := by
  simp [arbitrateLine, owed, (nextRequest_eq_none s).2 none]

/-- With no RESYNC owed the arbiter takes the waiting request of the highest priority. -/
theorem arbitrateLine_takes {f : Fid} {r : Request} (owed : s.link.resyncOwed = false)
    (slot : s.link.slots.get f = some r)
    (first : ∀ g, g ≠ f → s.link.slots.get g ≠ none → (s.entry f).priority < (s.entry g).priority) :
    s.arbitrateLine = s.takeRequest f r := by
  simp [arbitrateLine, owed, nextRequest_eq_some slot first]

/-- A request that is taken: the link with it as the exchange in flight, and a record it carries on the line. -/
theorem takeRequest_eq (s : State) (f : Fid) (r : Request) :
    s.takeRequest f r =
      { s with
        link := { s.link with
          line := .send, slots := s.link.slots.set f none
          exchange := some { feeder := f, unit := (s.entry f).unit.setWidth 4, request := r, attempt := 1,
                             causes := [], discard := false } }
        stagers := match r.record with
          | none => s.stagers
          | some a => s.stagers.set f { s.stagers.get f with onLine := some a, inSlot := none } } := by
  unfold takeRequest
  cases r.record <;> rfl

/-! ## The end of SETTLE (R118, R120, R121, R124) -/

/-- The line is IDLE with no exchange in flight, and the arbiter has not acted. -/
def idled (s : State) : State := { s with link := { s.link with line := .idle, exchange := none } }

/-- SETTLE ends with no exchange, or with one marked for discard: the line is IDLE and the arbiter acts. -/
theorem settleEnd_idle (line : s.link.line = .settle) (discarded : ∀ x, s.link.exchange = some x → x.discard = true) :
    s.settleEnd = s.idled.arbitrateLine := by
  cases exchange : s.link.exchange with
  | none => simp [settleEnd, line, exchange, lineIdle, idled]
  | some x => simp [settleEnd, line, exchange, discarded x exchange, lineIdle, idled]

theorem settleEnd_again {x : Exchange} (line : s.link.line = .settle) (exchange : s.link.exchange = some x)
    (live : x.discard = false) (again : x.attempt < 4) : s.settleEnd = s.resend x := by
  simp [settleEnd, line, exchange, live, again]

theorem settleEnd_ladder {x : Exchange} (line : s.link.line = .settle) (exchange : s.link.exchange = some x)
    (live : x.discard = false) (fourth : x.attempt = 4) : s.settleEnd = s.ladderResync x := by
  simp [settleEnd, line, exchange, live, fourth]

end State

/-- SETTLE_END completes with the end of SETTLE. -/
theorem completes_settleEnd {s : State} {P : State → Prop} (settled : s.settled)
    (holds : ∀ t, EndsAs s.settleEnd t → P t) : Completes .settleEnd s P :=
  completes_of_moves rfl settled.portSettled (State.settleEnd_moves s .refl) holds

/-! ## How requests come to wait (R106, R116) -/

section

variable (s : State) (f : Fid) (r : Request)

/-- A STATUSQ yields to a waiting ENGAGE or RELEASE, and nothing else does. -/
theorem yields_iff :
    s.yields f r = true ↔
      (∃ h, r = .statusq h) ∧ ∃ w, s.link.slots.get f = some w ∧ ∀ h, w ≠ .statusq h := by
  unfold State.yields
  cases r with
  | engage => simp
  | release => simp
  | statusq h =>
    cases s.link.slots.get f with
    | none => simp
    | some w => cases w <;> simp [Request.keptAgainstStatusq]

variable {s f r}

/-- On a busy line a request that does not yield waits, and of the stager only the slot's record changes. -/
theorem placeRequest_busy (busy : s.link.line ≠ .idle) (yields : s.yields f r = false) :
    (s.placeRequest f r).link = { s.link with slots := s.link.slots.set f (some r) } ∧
      ((s.placeRequest f r).stagers.get f).bare = { (s.stagers.get f).bare with inSlot := r.record } ∧
      ∀ g, g ≠ f → (s.placeRequest f r).stagers.get g = s.stagers.get g := by
  rw [State.placeRequest_eq s f r yields, if_neg busy]
  refine ⟨State.slotRequest_link s f r, State.slotRequest_bare s f r, fun g ne => ?_⟩
  change ((s.settleSlot f .superseded).stagers.set f _).get g = _
  rw [Per8.get_set_ne _ _ ne, State.settleSlot_stager_ne _ _ _ ne]

/-- On an IDLE line with nothing else to send the arbiter takes the request in the same event. -/
theorem placeRequest_idle (idle : s.link.line = .idle) (yields : s.yields f r = false)
    (owed : s.link.resyncOwed = false) (alone : ∀ g, g ≠ f → s.link.slots.get g = none) :
    s.placeRequest f r = (s.slotRequest f r).takeRequest f r := by
  rw [State.placeRequest_eq s f r yields, if_pos idle]
  have link := State.slotRequest_link s f r
  refine State.arbitrateLine_takes (by rw [link]; exact owed) (State.slotRequest_slot s f r) fun g ne waits => ?_
  rw [link] at waits
  exact absurd ((Per8.get_set_ne _ _ ne).trans (alone g ne)) waits

/-- No record is handed over where a request replaces another. -/
theorem placeRequest_staging (yields : s.yields f r = false) :
    (s.placeRequest f r).writer.staging = s.writer.staging := by
  refine (((Logs.refl f s).placeRequest r yields).hands.none ?_).1
  cases (s.stagers.get f).inSlot <;> rfl

/-- The record of a replaced ENGAGE is settled SUPERSEDED (R106). -/
theorem placeRequest_supersedes {a : Accepted} (yields : s.yields f r = false)
    (held : (s.stagers.get f).inSlot = some a) :
    ((s.placeRequest f r).stagers.get f).number = (s.stagers.get f).number + 1#8 ∧ slotMarked s (s.placeRequest f r) f ∧
      ((s.placeRequest f r).stagers.get f).latest.map (fun x => (x.code, x.ident)) =
        some (.superseded, some ⟨a.seq, a.target⟩) := by
  have log := (Logs.refl f s).placeRequest r yields
  rw [held] at log
  refine ⟨log.number, slotMarked_of_slotDirty (log.dirty (List.cons_ne_nil _ _)) log.moves.portKept, ?_⟩
  rw [log.latest]
  rfl

/-- With no record in the slot no result is made. -/
theorem placeRequest_settles_nothing (yields : s.yields f r = false) (held : (s.stagers.get f).inSlot = none) :
    ((s.placeRequest f r).stagers.get f).number = (s.stagers.get f).number ∧
      ((s.placeRequest f r).stagers.get f).latest = (s.stagers.get f).latest := by
  have log := (Logs.refl f s).placeRequest r yields
  rw [held] at log
  exact ⟨log.number.trans (BitVec.add_zero _), log.latest⟩

end

/-- Settles O43: the end of SETTLE by the exchange it finds and by the arbiter's choice, and a placement by whether it
yields, by the line and by the record it replaces. -/
theorem settleEnd : Obligations.SettleEnd := by
  refine ⟨fun s settled line => ⟨fun x exchange live => ⟨fun again => ?_, fun fourth => ?_⟩, fun discarded => ?_⟩,
    fun s f r => ?_⟩
  · refine completes_settleEnd settled fun t e => ?_
    rw [e.offPort, State.settleEnd_again line exchange live again, State.resend]
  · refine completes_settleEnd settled fun t e => ?_
    have surroundings := e.surroundings (State.settleEnd_moves s .refl).surroundings
    rw [State.settleEnd_ladder line exchange live fourth, State.ladderResync] at e
    refine ⟨by rw [e.link]; simp, by rw [e.ctl]; simp, by rw [e.stagers]; simp, by rw [e.account]; simp,
      surroundings, ?_⟩
    exact e.staged (staged_handRecord { s with link := { s.link with line := .resync } } _)
  · have ends := State.settleEnd_idle line discarded
    refine ⟨fun owed => ?_, fun owed none => ?_, fun f r owed slot first => ?_⟩ <;>
      refine completes_settleEnd settled fun t e => ?_ <;> rw [e.offPort, ends]
    · rw [State.arbitrateLine_owed (s := s.idled) owed]
      rfl
    · rw [State.arbitrateLine_rests (s := s.idled) owed none]
      rfl
    · rw [State.arbitrateLine_takes (s := s.idled) owed slot first, State.takeRequest_eq]
      cases r.record <;> rfl
  · dsimp only
    rw [← yields_iff]
    refine ⟨State.placeRequest_of_yields s f r, fun stays => ?_⟩
    have yields : s.yields f r = false := by simpa using stays
    refine ⟨State.placeRequest_blocks s f r, placeRequest_staging yields, State.placeRequest_pending s f r,
      fun busy => ?_, fun idle owed alone => ?_, fun a => placeRequest_supersedes yields,
      placeRequest_settles_nothing yields⟩
    · obtain ⟨link, bare, others⟩ := placeRequest_busy busy yields
      exact ⟨link, (congrArg Stager.inSlot bare :), (congrArg Stager.onLine bare :), others⟩
    · rw [placeRequest_idle (not_not.1 idle) yields owed alone, State.takeRequest_link, State.slotRequest_link]
      have table : (s.slotRequest f r).table = s.table :=
        (congrArg (fun u : State => u.table) (State.slotRequest_blocks s f r) :)
      have entry : (s.slotRequest f r).entry = s.entry := by
        unfold State.entry
        rw [table]
      refine ⟨by rw [entry, Per8.set_set], fun a record => ?_⟩
      rw [State.takeRequest_eq, record]
      exact congrArg Stager.onLine (Per8.get_set_same _ _ _)

end Sys2Proof.Machine
end

section
/-! How an event ends: HOLD's judgement said as a whole, and the arbiter's turns as relations, so that what an event
leaves is read off a derivation and not off the arbiter's fuel. -/

namespace Sys2Proof.Machine

/-! ## HOLD's judgement as a whole (R149, R150) -/

/-- The HOLD that a party's request brings. -/
def HoldParty.hold : HoldParty → Hold
  | .writer => .writer
  | .loader => .loader

theorem HoldParty.hold_ne_released (p : HoldParty) : p.hold ≠ .released := by cases p <;> exact nofun

namespace State

/-- The requests for HOLD that stand when it is judged. -/
def requests (s : State) : List HoldParty := s.askBurst.setGapTimer.bus.holdQueue

/-- The gap timer that the judgement leaves. -/
def gapTime (s : State) : Option Nat := if s.loaderWaiting then some (s.bus.gapTimer.getD 0) else none

theorem asked_eq (s : State) : s.askBurst.setGapTimer = s.withHold s.bus.hold s.requests s.gapTime := by
  obtain ⟨q, e⟩ := askBurst_eq s
  have waits : s.askBurst.loaderWaiting = s.loaderWaiting := by rw [e]; rfl
  have timer : s.askBurst.bus.gapTimer = s.bus.gapTimer := by rw [e]; rfl
  have gap : s.askBurst.setGapTimer.bus.gapTimer = s.gapTime := by
    unfold setGapTimer gapTime
    rw [waits, timer]
    split <;> rfl
  obtain ⟨q', g, e'⟩ := setGapTimer_eq s.askBurst
  unfold requests
  rw [← gap, e', e]
  rfl

theorem mem_requests_writer (s : State) :
    HoldParty.writer ∈ s.requests ↔
      s.burstWanted = true ∧ (HoldParty.writer ∈ s.bus.holdQueue ∨ (s.writerAsked || s.bus.writerDeferred) = false) := by
  have kept : HoldParty.writer ∈ s.requests ↔ HoldParty.writer ∈ s.askBurst.bus.holdQueue := by
    unfold requests setGapTimer
    split <;> simp
  rw [kept]
  unfold askBurst
  split
  · next wanted =>
    split
    · next asked => simp [wanted, asked]
    · next asked => simp [wanted, Bool.eq_false_iff.2 asked]
  · next wanted => simp [wanted]

theorem mem_requests_loader (s : State) :
    HoldParty.loader ∈ s.requests ↔ s.loaderWaiting = true ∧ HoldParty.loader ∈ s.bus.holdQueue := by
  obtain ⟨q, e⟩ := askBurst_eq s
  have waits : s.askBurst.loaderWaiting = s.loaderWaiting := by rw [e]; rfl
  have asked : HoldParty.loader ∈ s.askBurst.bus.holdQueue ↔ HoldParty.loader ∈ s.bus.holdQueue := by
    unfold askBurst
    split
    · split <;> simp
    · simp
  unfold requests setGapTimer
  rw [waits]
  split
  · next w => simp [w, asked]
  · next w => simp [w]

/-- Requests that all have their reason stand as they are. -/
theorem requests_eq_queue {s : State} (asks : s.burstWanted = true → (s.writerAsked || s.bus.writerDeferred) = true)
    (writer : HoldParty.writer ∈ s.bus.holdQueue → s.burstWanted = true)
    (loader : HoldParty.loader ∈ s.bus.holdQueue → s.loaderWaiting = true) : s.requests = s.bus.holdQueue := by
  have asked : s.askBurst = s := by
    unfold askBurst
    split
    · next wanted => rw [if_pos (asks wanted)]
    · next wanted =>
      have same : s.bus.holdQueue.filter (fun p => decide (p ≠ .writer)) = s.bus.holdQueue := by
        refine List.filter_eq_self.2 fun p mem => decide_eq_true fun is => wanted (writer (is ▸ mem))
      rw [same]
  unfold requests setGapTimer
  rw [asked]
  split
  · rfl
  · next waits => exact List.filter_eq_self.2 fun p mem => decide_eq_true fun is => waits (loader (is ▸ mem))

/-- HOLD is asserted for the party whose request stands first, where it is released and no turn is owed. -/
theorem judgeHold_grants {s : State} {p : HoldParty} {rest : List HoldParty} (released : s.bus.hold = .released)
    (owed : s.bus.turnOwed = false) (first : s.requests = p :: rest) : s.judgeHold = s.withHold p.hold rest s.gapTime := by
  unfold judgeHold
  rw [asked_eq]
  have stands : p ∈ s.requests := by rw [first]; exact List.mem_cons_self
  cases p with
  | writer =>
    have wanted : (s.withHold s.bus.hold s.requests s.gapTime).burstWanted = true := ((mem_requests_writer s).1 stands).1
    have granted : (s.withHold s.bus.hold s.requests s.gapTime).holdGranted .writer = true := by
      simp [holdGranted, withHold, released, owed, first]
    have asserted : (s.withHold s.bus.hold s.requests s.gapTime).holdWriter = s.withHold .writer rest s.gapTime := by
      unfold holdWriter
      rw [granted, wanted]
      simp [withHold, first]
    rw [asserted]
    unfold holdLoader
    rw [if_neg (by simp [holdGranted, withHold])]
    rfl
  | loader =>
    have waits : (s.withHold s.bus.hold s.requests s.gapTime).loaderWaiting = true := ((mem_requests_loader s).1 stands).1
    have passed : (s.withHold s.bus.hold s.requests s.gapTime).holdWriter = s.withHold s.bus.hold s.requests s.gapTime := by
      unfold holdWriter
      rw [if_neg (by simp [holdGranted, withHold, first])]
    have granted : (s.withHold s.bus.hold s.requests s.gapTime).holdGranted .loader = true := by
      simp [holdGranted, withHold, released, owed, first]
    rw [passed]
    unfold holdLoader
    rw [granted, waits]
    simp [withHold, first, HoldParty.hold]

/-- Where HOLD cannot be asserted, or for nobody, its judgement settles the requests and the gap timer alone. -/
theorem judgeHold_stays {s : State} (closed : s.bus.hold = .released → s.bus.turnOwed = false → s.requests = []) :
    s.judgeHold = s.withHold s.bus.hold s.requests s.gapTime := by
  have none : ∀ p, (s.withHold s.bus.hold s.requests s.gapTime).holdGranted p = false := by
    intro p
    simp only [holdGranted, withHold, Bool.and_eq_false_iff, Bool.not_eq_false', beq_eq_false_iff_ne]
    by_cases released : s.bus.hold = .released
    · cases owed : s.bus.turnOwed with
      | true => exact .inl (.inr rfl)
      | false => rw [closed released owed]; exact .inr nofun
    · exact .inl (.inl (decide_eq_false released))
  unfold judgeHold
  rw [asked_eq]
  have writer : (s.withHold s.bus.hold s.requests s.gapTime).holdWriter = s.withHold s.bus.hold s.requests s.gapTime := by
    unfold holdWriter
    rw [none]
    rfl
  rw [writer]
  unfold holdLoader
  rw [none]
  rfl

/-- All that the judgement can find: nothing to grant, or the request that is granted. -/
theorem judgeHold_cases (s : State) :
    ((s.bus.hold = .released → s.bus.turnOwed = false → s.requests = []) ∧
        s.judgeHold = s.withHold s.bus.hold s.requests s.gapTime) ∨
      ∃ p rest, s.bus.hold = .released ∧ s.bus.turnOwed = false ∧ s.requests = p :: rest ∧
        s.judgeHold = s.withHold p.hold rest s.gapTime := by
  by_cases closed : s.bus.hold = .released → s.bus.turnOwed = false → s.requests = []
  · exact .inl ⟨closed, judgeHold_stays closed⟩
  · simp only [Classical.not_imp] at closed
    obtain ⟨released, owed, some⟩ := closed
    obtain ⟨p, rest, first⟩ := List.exists_cons_of_ne_nil some
    exact .inr ⟨p, rest, released, owed, first, judgeHold_grants released owed first⟩

/-- The requests for HOLD have been heard: the writer has asked where it wants a burst, and for nothing else, and no request
stands that could be granted. -/
structure Heard (s : State) : Prop where
  asks : s.burstWanted = true → (s.writerAsked || s.bus.writerDeferred) = true
  writer : HoldParty.writer ∈ s.bus.holdQueue → s.burstWanted = true
  granted : s.bus.hold = .released → s.bus.turnOwed = false → s.bus.holdQueue = []

/-- HOLD is judged exactly where the requests have been heard, the loader's stands only while its read waits, and the gap
timer runs exactly then. -/
theorem holdJudged_iff (s : State) :
    s.holdJudged ↔
      s.Heard ∧ (HoldParty.loader ∈ s.bus.holdQueue → s.loaderWaiting = true) ∧ s.bus.gapTimer = s.gapTime := by
  constructor
  · intro judged
    unfold holdJudged at judged
    have same : s.requests = s.bus.holdQueue ∧ s.gapTime = s.bus.gapTimer ∧
        (s.bus.hold = .released → s.bus.turnOwed = false → s.requests = []) := by
      rcases judgeHold_cases s with ⟨closed, e⟩ | ⟨p, rest, released, -, -, e⟩
      · rw [judged] at e
        exact ⟨(congrArg (fun u : State => u.bus.holdQueue) e).symm, (congrArg (fun u : State => u.bus.gapTimer) e).symm,
          closed⟩
      · rw [judged] at e
        exact absurd ((congrArg (fun u : State => u.bus.hold) e).symm.trans released) p.hold_ne_released
    obtain ⟨queue, gap, closed⟩ := same
    refine ⟨⟨fun wanted => ?_, fun mem => ?_, queue ▸ closed⟩, fun mem => ?_, gap.symm⟩
    · by_contra unasked
      rw [Bool.not_eq_true] at unasked
      have stands := (mem_requests_writer s).2 ⟨wanted, .inr unasked⟩
      rw [queue] at stands
      simp [writerAsked, stands] at unasked
    · exact ((mem_requests_writer s).1 (queue ▸ mem)).1
    · exact ((mem_requests_loader s).1 (queue ▸ mem)).1
  · rintro ⟨⟨asks, writer, granted⟩, loader, gap⟩
    have queue := requests_eq_queue asks writer loader
    unfold holdJudged
    rw [judgeHold_stays (queue ▸ granted), queue, ← gap]
    rfl

/-- Once heard, the requests are judged when the gap timer has followed. -/
theorem Heard.setGapTimer {s : State} (h : s.Heard) : s.setGapTimer.holdJudged := by
  obtain ⟨asks, writer, granted⟩ := h
  unfold State.setGapTimer
  split
  · next waits =>
    refine (holdJudged_iff _).2 ⟨⟨asks, writer, granted⟩, fun _ => waits, ?_⟩
    unfold gapTime
    rw [if_pos (by exact waits)]
    rfl
  · next waits =>
    refine (holdJudged_iff _).2 ⟨⟨fun wanted => ?_, fun mem => writer (List.mem_filter.1 mem).1, fun released owed => ?_⟩,
      fun mem => ?_, ?_⟩
    · simpa [writerAsked] using asks wanted
    · change s.bus.holdQueue.filter _ = []
      rw [granted released owed]
      rfl
    · simp at mem
    · unfold gapTime
      rw [if_neg (by exact waits)]

/-- The judgement hears the requests. -/
theorem judgeHold_heard {s : State} (inv : s.holdInv) : s.judgeHold.Heard := by
  obtain ⟨burst, -, deferral⟩ := inv
  have stands := mem_requests_writer s
  rcases judgeHold_cases s with ⟨closed, e⟩ | ⟨p, rest, released, owed, first, e⟩
  · rw [e]
    refine ⟨fun wanted => ?_, fun mem => (stands.1 mem).1, closed⟩
    change (s.requests.contains .writer || (decide (s.bus.hold = .writer) && !s.writer.burst.any fun b => b.recordDone) ||
      s.bus.writerDeferred) = true
    cases asked : s.writerAsked || s.bus.writerDeferred with
    | false => simp [stands.2 ⟨wanted, .inr asked⟩]
    | true =>
      by_cases queued : HoldParty.writer ∈ s.bus.holdQueue
      · simp [stands.2 ⟨wanted, .inl queued⟩]
      · simp only [writerAsked, List.contains_eq_mem, queued, decide_false, Bool.false_or] at asked
        rw [Bool.or_assoc, asked, Bool.or_true]
  · rw [e]
    rw [first] at stands
    have idle : s.writer.burst = none := by
      by_contra some
      exact nomatch released.symm.trans (burst some)
    have undeferred : s.bus.writerDeferred = false := by
      by_contra deferred
      rcases deferral (by simpa using deferred) with turn | hold
      · exact nomatch owed.symm.trans turn
      · exact nomatch released.symm.trans hold
    refine ⟨fun wanted => ?_, fun mem => (stands.1 (List.mem_cons_of_mem _ mem)).1, fun same => ?_⟩
    · change (rest.contains .writer || (decide (p.hold = .writer) && !s.writer.burst.any fun b => b.recordDone) ||
        s.bus.writerDeferred) = true
      cases p with
      | writer => simp [HoldParty.hold, idle]
      | loader =>
        have asked : HoldParty.writer ∈ s.bus.holdQueue ∨ (s.writerAsked || s.bus.writerDeferred) = false := by
          by_cases queued : HoldParty.writer ∈ s.bus.holdQueue
          · exact .inl queued
          · exact .inr (by simp [writerAsked, queued, released, undeferred])
        have mem := stands.2 ⟨wanted, asked⟩
        simp only [List.mem_cons, reduceCtorEq, false_or] at mem
        simp [mem]
    · exact absurd same p.hold_ne_released

end State
end Sys2Proof.Machine
end

section
namespace Sys2Proof.Machine

/-! ## Dirty marks, with the word on the port (R162) -/

/-- From `s` to `t` dirty marks only come, with each change of value, and a word of the writer on the port stays there: one
whose value has changed will not be cleaned. -/
structure Noted (s t : State) : Prop extends MarksUp s t where
  word : ∀ w d, s.bus.port = .writer w d → ∃ w', t.bus.port = .writer w' d ∧ w'.target = w.target ∧
    (w.changed = true → w'.changed = true) ∧
    ∀ i < 40, w.target = .mirror i → t.mirrorWord i ≠ s.mirrorWord i → w'.changed = true

namespace Noted

variable {s t u : State}

/-- Where no word of the writer is on the port, the marks are all there is to say. -/
theorem of_marks (marks : MarksUp s t) (none : ∀ w d, s.bus.port ≠ .writer w d) : Noted s t :=
  ⟨marks, fun w d h => absurd h (none w d)⟩

/-- No value changes, and marks only come. -/
theorem of_words (marks : MarksUp s t) (words : t.mirrorWord = s.mirrorWord) (port : PortKept s.bus.port t.bus.port) :
    Noted s t := by
  refine ⟨marks, fun w d onPort => ?_⟩
  rw [onPort] at port
  generalize t.bus.port = p at port
  cases port with
  | same => exact ⟨w, rfl, rfl, id, fun i _ _ h => absurd (congrFun words i) h⟩
  | word _ w' _ target changed => exact ⟨w', rfl, target, changed, fun i _ _ h => absurd (congrFun words i) h⟩

theorem of_same (marks : t.writer.mirrorDirty = s.writer.mirrorDirty) (words : t.mirrorWord = s.mirrorWord)
    (port : PortKept s.bus.port t.bus.port) : Noted s t := .of_words (.of_same marks fun i _ => congrFun words i) words port

theorem refl (s : State) : Noted s s := .of_same rfl rfl (.same _)

theorem trans (h : Noted s t) (k : Noted t u) : Noted s u := by
  refine ⟨h.toMarksUp.trans k.toMarksUp, fun w d onPort => ?_⟩
  obtain ⟨w', onPort', target', kept', changed'⟩ := h.word w d onPort
  obtain ⟨w'', onPort'', target'', kept'', changed''⟩ := k.word w' d onPort'
  refine ⟨w'', onPort'', target''.trans target', fun c => kept'' (kept' c), fun i hi isWord differs => ?_⟩
  by_cases first : t.mirrorWord i = s.mirrorWord i
  · exact changed'' i hi (target'.trans isWord) (first ▸ differs)
  · exact kept'' (changed' i hi isWord first)

end Noted

namespace State

/-- The state with every mirror word clean. -/
def unmarked (s : State) : State :=
  { s with writer := { s.writer with mirrorDirty := List.replicate 40 false } }

/-- A word that is not among those noted keeps its mark. -/
theorem note_mark_off {ws : List Nat} (old new : State) {i : Nat} (off : i ∉ ws) :
    (State.note ws old new).writer.mirrorDirty.getD i false = new.writer.mirrorDirty.getD i false := by
  unfold State.note
  generalize new.mirrorWord = word
  induction ws generalizing new with
  | nil => rfl
  | cons j ws ih =>
    obtain ⟨ne, off⟩ := not_or.1 (mt List.mem_cons.2 off)
    rw [List.foldl_cons, ih _ off]
    split
    · rfl
    · simp [touchMirror, List.getD_eq_getElem?_getD, List.getElem?_set_ne (Ne.symm ne)]

/-- Where a write marks all it changes, the words that it does not note keep their value. -/
theorem words_off {ws : List Nat} {old new : State}
    (marks : MarksUp old.unmarked (State.note ws old.unmarked new.unmarked)) :
    ∀ i < 40, i ∉ ws → new.mirrorWord i = old.mirrorWord i := by
  intro i hi off
  by_contra differs
  have words : (State.note ws old.unmarked new.unmarked).mirrorWord i = new.mirrorWord i := by
    obtain ⟨d, p, e⟩ := note_shape ws old.unmarked new.unmarked
    rw [e]
    rfl
  have marked := marks.changed i hi (by simpa [unmarked] using hi) (by rw [words]; exact differs)
  rw [note_mark_off _ _ off] at marked
  simp [unmarked, hi, -List.reduceReplicate] at marked

/-- The words `ws` but those to keep are touched, one after another: the word on the port stays there. -/
theorem touchFold_portKept (keep : Nat → Bool) (ws : List Nat) (s : State) :
    PortKept s.bus.port (ws.foldl (fun s i => if keep i = true then s else s.touchMirror i) s).bus.port := by
  induction ws generalizing s with
  | nil => exact .same _
  | cons i ws ih =>
    rw [List.foldl_cons]
    split
    · exact ih s
    · exact (PortKept.touch (.mirror i) s.bus.port).trans (ih (s.touchMirror i))

/-- A touched word on the port is marked as changed. -/
theorem touchMirror_changed {s : State} {i : Nat} {w : WriterWord} {d : Bool}
    (onPort : (s.touchMirror i).bus.port = .writer w d) (target : w.target = .mirror i) : w.changed = true :=
  Port.touchAll_changed [.mirror i] onPort (by rw [target]; exact List.mem_singleton_self _)

theorem touchFold_changed {keep : Nat → Bool} {ws : List Nat} {s : State} {i : Nat} (on : i ∈ ws) (touched : keep i = false)
    {w : WriterWord} {d : Bool}
    (onPort : (ws.foldl (fun s i => if keep i = true then s else s.touchMirror i) s).bus.port = .writer w d)
    (target : w.target = .mirror i) : w.changed = true := by
  induction ws generalizing s with
  | nil => cases on
  | cons j ws ih =>
    rw [List.foldl_cons] at onPort
    rcases List.mem_cons.1 on with rfl | on
    · rw [if_neg (by rw [touched]; exact nofun)] at onPort
      have kept := touchFold_portKept keep ws (s.touchMirror i)
      rw [onPort] at kept
      generalize before : (s.touchMirror i).bus.port = p at kept
      cases kept with
      | same => exact touchMirror_changed before target
      | word w₀ _ _ same changed => exact changed (touchMirror_changed before (same ▸ target))
    · exact ih on onPort

/-- A write that notes all it changes is noted. -/
theorem note_noted {ws : List Nat} {old new : State} (marks : new.writer.mirrorDirty = old.writer.mirrorDirty)
    (port : new.bus.port = old.bus.port)
    (shows : MarksUp old.unmarked (State.note ws old.unmarked new.unmarked)) : Noted old (State.note ws old new) := by
  have off := words_off shows
  refine ⟨note_marksUp ws marks off, fun w d onPort => ?_⟩
  have kept := note_portKept ws old new
  rw [port, onPort] at kept
  obtain ⟨w', onPort', target, changed⟩ : ∃ w', (State.note ws old new).bus.port = .writer w' d ∧
      w'.target = w.target ∧ (w.changed = true → w'.changed = true) := by
    generalize (State.note ws old new).bus.port = p at kept
    cases kept with
    | same => exact ⟨w, rfl, rfl, id⟩
    | word _ w' _ target changed => exact ⟨w', rfl, target, changed⟩
  refine ⟨w', onPort', target, changed, fun i hi isWord differs => ?_⟩
  have words : (State.note ws old new).mirrorWord i = new.mirrorWord i := by
    obtain ⟨d, p, e⟩ := note_shape ws old new
    rw [e]
    rfl
  rw [words] at differs
  have on : i ∈ ws := by
    by_contra out
    exact differs (off i hi out)
  exact touchFold_changed (keep := fun j => old.mirrorWord j == new.mirrorWord j) on (by simpa using Ne.symm differs) onPort'
    (target.trans isWord)

/-! ### The writes of the shared items -/

theorem putCtl_noted (s : State) (f : Fid) (c : FeederCtl) : Noted s (s.putCtl f c) :=
  note_noted rfl rfl (s.unmarked.putCtl_marksUp f c)

theorem putTracker_noted (s : State) (f : Fid) (x : Tracker) : Noted s (s.putTracker f x) :=
  note_noted rfl rfl (s.unmarked.putTracker_marksUp f x)

theorem putEval_noted (s : State) (f : Fid) (x : Evaluator) : Noted s (s.putEval f x) :=
  note_noted rfl rfl (s.unmarked.putEval_marksUp f x)

theorem putReserved_noted (s : State) (f : Fid) (r : Nat) : Noted s (s.putReserved f r) :=
  note_noted rfl rfl (s.unmarked.putReserved_marksUp f r)

theorem putUsable_noted (s : State) (u : Nat) : Noted s (s.putUsable u) :=
  note_noted rfl rfl (s.unmarked.putUsable_marksUp u)

theorem putLoader_noted (s : State) (l : Loader) : Noted s (s.putLoader l) :=
  note_noted rfl rfl (s.unmarked.putLoader_marksUp l)

theorem putProducer_noted (s : State) (p : BitVec 16) : Noted s (s.putProducer p) :=
  note_noted rfl rfl (s.unmarked.putProducer_marksUp p)

theorem judgeAttn_noted (s : State) : Noted s s.judgeAttn := .of_same rfl rfl (.same _)

theorem putConsumer_noted (s : State) (c : BitVec 16) : Noted s (s.putConsumer c) :=
  .trans (note_noted (new := { s with writer := { s.writer with consumer := c } }) rfl rfl
    ((s.unmarked.putConsumer_marksUp c).trans (.of_same rfl fun _ _ => rfl))) (judgeAttn_noted _)

theorem putSummary_noted (s : State) (c : BitVec 8) : Noted s (s.putSummary c) :=
  .trans (note_noted (new := { s with writer := { s.writer with summary := c } }) rfl rfl
    ((s.unmarked.putSummary_marksUp c).trans (.of_same rfl fun _ _ => rfl))) (judgeAttn_noted _)

theorem handRecord_noted (s : State) (b : Body) : Noted s (s.handRecord b) := by
  unfold handRecord
  refine .trans ?_ (putSummary_noted _ _)
  split
  · exact .of_same rfl rfl (.same _)
  · refine Noted.trans (t := { s with writer := { s.writer with
      dropped := min 255 (s.writer.dropped + 1), overrun := true } }) (.of_same rfl rfl (.same _)) ?_
    exact putSummary_noted _ _

theorem touchMirror_noted (s : State) (i : Nat) : Noted s (s.touchMirror i) :=
  .of_words ⟨touchMirror_length s i, touchMirror_stays s i, fun _ _ _ differs => absurd rfl differs⟩ rfl
    (.touch (.mirror i) s.bus.port)

theorem touchAllMirror_noted (s : State) : Noted s s.touchAllMirror :=
  List.foldlRecOn (motive := Noted s) (List.range 40) touchMirror (.refl s) fun t h i _ => h.trans (t.touchMirror_noted i)

theorem portMoved_noted (s : State) (m : WriterTarget → Bool) : Noted s (s.portMoved m) :=
  .of_same rfl rfl (.moved m s.bus.port)

end State

/-- Every move of the feeders' side is noted. -/
theorem Move.noted {s t : State} (h : Move s t) : Noted s t := by
  cases h with
  | ctl f c => exact s.putCtl_noted f c
  | tracker f x => exact s.putTracker_noted f x
  | eval f x => exact s.putEval_noted f x
  | lower f r _ => exact s.putReserved_noted f r
  | grant f d _ => exact s.putReserved_noted f _
  | usable u _ => exact s.putUsable_noted u
  | record b => exact s.handRecord_noted b
  | raise c => exact s.putSummary_noted _
  | result f => exact .of_same rfl rfl (State.touchResult_portKept s f)
  | settle before f =>
    unfold State.settleResults
    dsimp only
    split
    · exact .refl s
    · exact .of_same rfl rfl (.same _)
  | notice n => exact .of_same rfl rfl (.same _)
  | monitor f m => exact .of_same rfl rfl (.same _)
  | stager f g => exact .of_same rfl rfl (.same _)
  | link l => exact .of_same rfl rfl (.same _)
  | draws n => exact .of_same rfl rfl (.same _)

theorem Moves.noted {s t : State} (h : Moves s t) : Noted s t :=
  h.keeps (p := Noted s) (fun _ _ m k => k.trans m.noted) (.refl s)

end Sys2Proof.Machine
end

section
namespace Sys2Proof.Machine

/-! ## The arbiter's turns (R148, R149, R150) -/

/-- The turn with which the arbiter rests: the port carries a word, or is given one, or there is none to give. -/
inductive Gives (s : State) : State → Prop
  | busy (busy : s.bus.port ≠ .free) : Gives s s.judgeHold
  | gap (free : s.bus.port = .free) (hold : s.judgeHold.bus.hold = .released) (alone : s.bus.waiting = []) :
      Gives s s.judgeHold.gapChoice
  | burst {w : WriterWord} {writer : Writer} (free : s.bus.port = .free) (hold : s.judgeHold.bus.hold = .writer)
      (word : s.judgeHold.startRecord.burstWord = some (w, writer)) :
      Gives s (State.sendWriter { s.judgeHold with writer := writer } w)
  | read {r : TableRead} (free : s.bus.port = .free) (hold : s.judgeHold.bus.hold = .loader)
      (read : s.loader.read = some r) (kept : s.bus.holdWithdrawn = false) : Gives s (s.judgeHold.sendLoader r)

/-- A turn that leaves the port FREE, so that the arbiter acts again. -/
inductive Again (s : State) : State → Prop
  | access {x : Access} {rest : List Access} (free : s.bus.port = .free) (hold : s.judgeHold.bus.hold = .released)
      (waiting : s.bus.waiting = x :: rest) : Again s ((s.judgeHold.withWaiting rest).takeAccess x)
  | noBurst (free : s.bus.port = .free) (hold : s.judgeHold.bus.hold = .writer)
      (word : s.judgeHold.startRecord.burstWord = none) : Again s s.judgeHold.endBurst
  | noRead (free : s.bus.port = .free) (hold : s.judgeHold.bus.hold = .loader)
      (read : s.loader.read = none ∨ s.bus.holdWithdrawn = true) : Again s s.judgeHold.releaseHold

/-- The arbiter, from the first of its turns to the one with which it rests. -/
inductive Served : State → State → Prop
  | rests {s t : State} (last : Gives s t) : Served s t
  | again {s t u : State} (turn : Again s t) (rest : Served t u) : Served s u

namespace State

@[simp] theorem judgeHold_waiting_eq (s : State) : s.judgeHold.bus.waiting = s.bus.waiting :=
  waiting_of_offPort (judgeHold_offPort s)

@[simp] theorem judgeHold_loader (s : State) : s.judgeHold.loader = s.loader :=
  (congrArg (fun u : State => u.loader) (judgeHold_offPort s) :)

@[simp] theorem judgeHold_table (s : State) : s.judgeHold.table = s.table :=
  (congrArg (fun u : State => u.table) (judgeHold_offPort s) :)

@[simp] theorem judgeHold_withdrawn (s : State) : s.judgeHold.bus.holdWithdrawn = s.bus.holdWithdrawn :=
  (congrArg (fun u : State => u.bus.holdWithdrawn) (judgeHold_offPort s) :)

@[simp] theorem judgeHold_turnOwed (s : State) : s.judgeHold.bus.turnOwed = s.bus.turnOwed :=
  (congrArg (fun u : State => u.bus.turnOwed) (judgeHold_offPort s) :)

@[simp] theorem judgeHold_deferred (s : State) : s.judgeHold.bus.writerDeferred = s.bus.writerDeferred :=
  (congrArg (fun u : State => u.bus.writerDeferred) (judgeHold_offPort s) :)

@[simp] theorem judgeHold_writer (s : State) : s.judgeHold.writer = s.writer := by
  obtain ⟨h, q, g, e, -⟩ := judgeHold_eq s
  rw [e]
  rfl

/-- A request that is granted has its reason (R149, R150). -/
theorem judgeHold_hold (s : State) :
    s.judgeHold.bus.hold = s.bus.hold ∨
      s.bus.hold = .released ∧ s.bus.turnOwed = false ∧
        (s.judgeHold.bus.hold = .writer ∧ s.burstWanted = true ∨
          s.judgeHold.bus.hold = .loader ∧ s.loaderWaiting = true) := by
  rcases judgeHold_cases s with ⟨-, e⟩ | ⟨p, rest, released, owed, first, e⟩
  · exact .inl (by rw [e]; rfl)
  · have stands : p ∈ s.requests := by rw [first]; exact List.mem_cons_self
    refine .inr ⟨released, owed, ?_⟩
    rw [e]
    cases p with
    | writer => exact .inl ⟨rfl, ((mem_requests_writer s).1 stands).1⟩
    | loader => exact .inr ⟨rfl, ((mem_requests_loader s).1 stands).1⟩

/-- HOLD that is asserted stays through its judgement. -/
theorem judgeHold_asserted {s : State} (asserted : s.bus.hold ≠ .released) : s.judgeHold.bus.hold = s.bus.hold :=
  (judgeHold_hold s).resolve_right fun ⟨released, _⟩ => asserted released

/-- HOLD that is released stays so while a turn is owed. -/
theorem judgeHold_owed {s : State} (owed : s.bus.turnOwed = true) : s.judgeHold.bus.hold = s.bus.hold :=
  (judgeHold_hold s).resolve_right fun ⟨_, clear, _⟩ => nomatch owed.symm.trans clear

end State

theorem Gives.arbitrate {s t : State} (h : Gives s t) (n : Nat) : s.arbitrate (n + 1) = t := by
  rw [State.arbitrate_succ]
  cases h with
  | busy busy => exact (State.arbitrate_busy n s busy).symm ▸ (State.arbitrate_succ n s).symm
  | gap free hold alone =>
    exact State.givePort_gap _ _ ((State.judgeHold_port s).trans free) hold ((State.judgeHold_waiting_eq s).trans alone)
  | burst free hold word => exact State.givePort_burst _ _ _ _ ((State.judgeHold_port s).trans free) hold word
  | read free hold read kept =>
    exact State.givePort_read _ _ _ ((State.judgeHold_port s).trans free) hold (by simpa using read) (by simpa using kept)

theorem Again.arbitrate {s t : State} (h : Again s t) (n : Nat) : s.arbitrate (n + 1) = t.arbitrate n := by
  rw [State.arbitrate_succ]
  cases h with
  | access free hold waiting =>
    exact State.givePort_access _ _ _ _ ((State.judgeHold_port s).trans free) hold
      ((State.judgeHold_waiting_eq s).trans waiting)
  | noBurst free hold word =>
    rw [State.givePort, if_pos ((State.judgeHold_port s).trans free), hold, word]
  | noRead free hold read =>
    rw [State.givePort, if_pos ((State.judgeHold_port s).trans free), hold]
    dsimp only
    rw [State.judgeHold_loader, State.judgeHold_withdrawn]
    rcases read with none | withdrawn
    · rw [none]
    · rw [withdrawn]
      cases s.loader.read <;> rfl

/-- The arbiter has a turn in every state. -/
theorem gives_or_again (s : State) : (∃ t, Gives s t) ∨ ∃ t, Again s t := by
  by_cases free : s.bus.port = .free
  · cases hold : s.judgeHold.bus.hold with
    | released =>
      cases waiting : s.bus.waiting with
      | nil => exact .inl ⟨_, .gap free hold waiting⟩
      | cons x rest => exact .inr ⟨_, .access free hold waiting⟩
    | writer =>
      cases word : s.judgeHold.startRecord.burstWord with
      | some p => exact .inl ⟨_, .burst free hold word⟩
      | none => exact .inr ⟨_, .noBurst free hold word⟩
    | loader =>
      cases read : s.loader.read with
      | none => exact .inr ⟨_, .noRead free hold (.inl read)⟩
      | some r =>
        cases withdrawn : s.bus.holdWithdrawn with
        | false => exact .inl ⟨_, .read free hold read withdrawn⟩
        | true => exact .inr ⟨_, .noRead free hold (.inr withdrawn)⟩
  · exact .inl ⟨_, .busy free⟩

/-- The turns that a state can still call for: one for each access that waits, one for each HOLD that may come to nothing, and
the last. -/
def State.turns (s : State) : Nat :=
  s.bus.waiting.length + (if s.bus.hold = .loader ∨ s.bus.holdWithdrawn = true then 1 else 0) +
    (if s.bus.hold = .writer ∨ s.writer.burst ≠ none then 1 else 0) + 1

theorem State.turns_le (s : State) : s.turns ≤ s.bus.waiting.length + 3 := by
  unfold State.turns
  split <;> split <;> omega

end Sys2Proof.Machine
end

section
namespace Sys2Proof.Machine

/-! ## What taking an access leaves of HOLD and of the marks (R140, R146, R162) -/

/-- What an owner does with a write that it is handed leaves HOLD as it is; it can abandon a read, and so withdraw the
loader's request, or have the HOLD of an abandoned read given up (R170). -/
structure Aside (s t : State) : Prop where
  noted : Noted s t
  table : t.table = s.table
  burst : t.writer.burst = s.writer.burst
  hold : t.bus.hold = s.bus.hold
  owed : t.bus.turnOwed = s.bus.turnOwed
  deferred : t.bus.writerDeferred = s.bus.writerDeferred
  answer : t.bus.answer = s.bus.answer
  withdrawn : t.bus.holdWithdrawn = true → s.bus.holdWithdrawn = true ∨ s.bus.hold = .loader
  queue : ∀ p ∈ t.bus.holdQueue, p ∈ s.bus.holdQueue

namespace Aside

variable {s t u : State}

/-- An operation that leaves the bus pass unit alone but for the word on the port. -/
theorem of_bus (noted : Noted s t) (table : t.table = s.table) (burst : t.writer.burst = s.writer.burst)
    (bus : { t.bus with port := .free } = { s.bus with port := .free }) : Aside s t where
  noted := noted
  table := table
  burst := burst
  hold := (congrArg Bus.hold bus :)
  owed := (congrArg Bus.turnOwed bus :)
  deferred := (congrArg Bus.writerDeferred bus :)
  answer := (congrArg Bus.answer bus :)
  withdrawn h := .inl ((congrArg Bus.holdWithdrawn bus :).symm.trans h)
  queue _ mem := (congrArg Bus.holdQueue bus :) ▸ mem

theorem refl (s : State) : Aside s s := .of_bus (.refl s) rfl rfl rfl

theorem trans (h : Aside s t) (k : Aside t u) : Aside s u where
  noted := h.noted.trans k.noted
  table := k.table.trans h.table
  burst := k.burst.trans h.burst
  hold := k.hold.trans h.hold
  owed := k.owed.trans h.owed
  deferred := k.deferred.trans h.deferred
  answer := k.answer.trans h.answer
  withdrawn w := (k.withdrawn w).elim h.withdrawn fun loader => .inr (h.hold ▸ loader)
  queue p mem := h.queue p (k.queue p mem)

theorem of_moves (h : Moves s t) : Aside s t := by
  have field : ∀ {α : Type} (g : State → α), g t.outer = g s.outer := fun g => congrArg g h.outer
  exact .of_bus h.noted (field fun u => u.table) (field fun u => u.writer.burst)
    (field fun u => { u.bus with port := .free })

end Aside

namespace State

variable (s : State)

theorem putLoader_aside (l : Loader) : Aside s (s.putLoader l) :=
  .of_bus (s.putLoader_noted l) (by simp) (by simp) (note_follows [0, 1] s { s with loader := l }).bus

theorem putConsumer_aside (c : BitVec 16) : Aside s (s.putConsumer c) :=
  .of_bus (s.putConsumer_noted c) (by simp) (by simp)
    (note_follows [5] s { s with writer := { s.writer with consumer := c } }).bus

theorem putSummary_aside (c : BitVec 8) : Aside s (s.putSummary c) :=
  .of_bus (s.putSummary_noted c) (by simp) (by simp)
    (note_follows [6] s { s with writer := { s.writer with summary := c } }).bus

theorem handRecord_aside (b : Body) : Aside s (s.handRecord b) := .of_moves (handRecord_moves s b .refl)

theorem abandonRead_aside : Aside s s.abandonRead where
  noted := ⟨.of_same rfl fun _ _ => rfl, fun w d onPort =>
    ⟨w, by simp [abandonRead, onPort, Port.isLoader], rfl, id, fun _ _ _ differs => absurd rfl differs⟩⟩
  table := rfl
  burst := rfl
  hold := rfl
  owed := rfl
  deferred := rfl
  answer := rfl
  withdrawn h := by simpa [abandonRead] using h
  queue p mem := (List.mem_filter.1 mem).1

theorem startReload_aside : Aside s s.startReload := by
  unfold startReload
  split
  · exact (putLoader_aside s _).trans (putLoader_aside _ _)
  · exact .refl s

theorem requestReload_aside : Aside s s.requestReload := by
  unfold requestReload
  split
  · exact putLoader_aside s _
  · exact .refl s
  · exact (abandonRead_aside s).trans (putLoader_aside _ _)
  · exact putLoader_aside s _

theorem reloadWord_aside (be : BitVec 4) (v : Word) : Aside s (s.reloadWord be v) := by
  unfold reloadWord
  split
  · exact .refl s
  · exact (requestReload_aside s).trans (startReload_aside _)

theorem consumedWord_aside (be : BitVec 4) (v : Word) : Aside s (s.consumedWord be v) := by
  unfold consumedWord
  split
  · exact handRecord_aside s _
  split
  · exact putConsumer_aside s _
  · exact handRecord_aside s _

theorem controlTake_aside (o : Word) (be : BitVec 4) (v : Word) : Aside s (s.controlTake o be v) := by
  unfold controlTake
  split
  · exact .of_moves (clearWord_moves s be v .refl)
  · exact reloadWord_aside s be v
  · exact consumedWord_aside s be v
  · exact putSummary_aside s _
  · exact .refl s

theorem dclinkTake_aside (be : BitVec 4) (v : Word) : Aside s (s.dclinkTake be v) := by
  have held : ∀ d : DcMonitor, Aside s { s with dclink := d } := fun d => .of_bus (.of_same rfl rfl (.same _)) rfl rfl rfl
  unfold dclinkTake
  dsimp only
  split
  · exact held _
  split
  · exact (held _).trans (.of_moves (updateUsable_moves _ _ .refl))
  · exact held _

theorem windowTake_aside (w : WindowEntry) (x : Access) : Aside s (s.windowTake w x) := by
  unfold windowTake
  split
  · exact .of_moves (sampleWrite_moves s _ _ _ _ .refl)
  · exact dclinkTake_aside s _ _
  · exact .of_moves (stagerWrite_moves s _ _ _ _ .refl)
  · exact controlTake_aside s _ _ _
  all_goals exact .refl s

theorem loadRequest_aside : Aside s s.loadRequest := by
  unfold loadRequest
  split
  · exact (putLoader_aside s _).trans (putLoader_aside _ _)
  · exact .refl s

/-- A write handed over has the part restart, or is taken aside of HOLD. -/
theorem handOff_cases (cls : AccessClass) (x : Access) : s.handOff cls x = s.restart ∨ Aside s (s.handOff cls x) := by
  unfold handOff startBlockTake
  split
  · split
    · split
      · split
        · exact .inl rfl
        split
        · exact .inr (loadRequest_aside s)
        · exact .inr (.refl s)
      · exact .inr (.refl s)
    · exact .inr (.refl s)
  · exact .inr (.refl s)
  · exact .inr (windowTake_aside s _ x)

/-- A refused access as the port takes it, before its record (R144). -/
def refused (x : Access) : State :=
  { s with bus := { s.bus with turnOwed := false, writerDeferred := false, answer := some ⟨x.tag, true, none⟩ } }

theorem takeAccess_refuses (x : Access) (h : ¬ accessPermitted (s.classify x.addr) x) :
    s.takeAccess x = (s.refused x).handRecord
      (.busRefused x.addr x.tag (s.classify x.addr).kind (s.classify x.addr).feeder !x.write) := by
  have same : State.classify { s with bus := { s.bus with turnOwed := false, writerDeferred := false } } x.addr =
      s.classify x.addr := rfl
  unfold takeAccess
  dsimp only
  rw [same, if_neg h]
  rfl

/-- An access that is taken has the part restart, or is taken aside of HOLD. -/
theorem takeAccess_cases (x : Access) :
    s.takeAccess x = (s.taken x).restart ∨ ∃ m, (m = s.taken x ∨ m = s.refused x) ∧ Aside m (s.takeAccess x) := by
  by_cases permitted : accessPermitted (s.classify x.addr) x
  · rw [takeAccess_eq s x permitted]
    split
    · rcases handOff_cases (s.taken x) (s.classify x.addr) x with e | aside
      · exact .inl e
      · exact .inr ⟨_, .inl rfl, aside⟩
    · exact .inr ⟨_, .inl rfl, .refl _⟩
  · rw [takeAccess_refuses s x permitted]
    exact .inr ⟨_, .inr rfl, handRecord_aside _ _⟩

/-- The mirror shows the mode and the reload state, and nothing else of the loader. -/
theorem putLoader_unshown {l : Loader} (mode : l.mode = s.loader.mode) (reload : l.reload = s.loader.reload) :
    s.putLoader l = { s with loader := l } := by
  have word0 : State.mirrorWord { s with loader := l } 0 = s.mirrorWord 0 := by
    change BitVec.ofNat 32 l.mode.code = _
    rw [mode]
    rfl
  have word1 : State.mirrorWord { s with loader := l } 1 = s.mirrorWord 1 := by
    change BitVec.ofNat 32 l.reload.code = _
    rw [reload]
    rfl
  simp [putLoader, note, word0, word1]

theorem beginRead_eq : s.beginRead = { s with loader := { s.loader with read := some ⟨none, 0, 0⟩, image := [] } } :=
  s.putLoader_unshown rfl rfl

/-- A restart is full reset, with the start-up read begun unless INIT is asserted (R165). -/
theorem restart_eq : s.restart = { s.fullReset with
    loader := { Loader.reset with read := if s.init then none else some ⟨none, 0, 0⟩ } } := by
  unfold restart
  dsimp only
  rw [beginRead_eq]
  change (if s.init = true then _ else _) = _
  cases s.init <;> rfl

end State

/-- What taking an access leaves of HOLD: all as it was, but that the HOLD of an abandoned read is given up, or a full reset has
released it. -/
structure Takes (s t : State) : Prop where
  waiting : t.bus.waiting = s.bus.waiting
  owed : t.bus.turnOwed = false
  undeferred : t.bus.writerDeferred = false
  hold : t.bus.hold = s.bus.hold ∧ t.writer.burst = s.writer.burst ∧
      (t.bus.holdWithdrawn = true → s.bus.holdWithdrawn = true ∨ s.bus.hold = .loader) ∨
    t.bus.hold = .released ∧ t.writer.burst = none ∧ t.bus.holdWithdrawn = false
  queue : ∀ p ∈ t.bus.holdQueue, p ∈ s.bus.holdQueue
  table : s.table = none → t.table = none
  marks : s.marksInv → t.marksInv
  noted : t.table = none ∨ MarksUp s t

namespace State

variable {s : State}

theorem takeAccess_takes (s : State) (x : Access) : Takes s (s.takeAccess x) := by
  have waiting : (s.takeAccess x).bus.waiting = s.bus.waiting := by
    by_cases permitted : accessPermitted (s.classify x.addr) x
    · exact (takeAccess_permitted s x permitted).2
    · obtain ⟨-, -, -, same, -⟩ := takeAccess_refused s x permitted
      exact same
  rcases takeAccess_cases s x with e | ⟨m, is, aside⟩
  · have reset := e.trans (s.taken x).restart_eq
    refine ⟨waiting, ?_, ?_, .inr ⟨?_, ?_, ?_⟩, ?_, fun _ => ?_, fun _ => ?_, .inl ?_⟩ <;> rw [reset]
    · rfl
    · rfl
    · rfl
    · rfl
    · rfl
    · exact nofun
    · rfl
    · rfl
    · rfl
  · have begins : m.bus.turnOwed = false ∧ m.bus.writerDeferred = false ∧ m.bus.hold = s.bus.hold ∧
        m.writer = s.writer ∧ m.bus.holdWithdrawn = s.bus.holdWithdrawn ∧ m.bus.holdQueue = s.bus.holdQueue ∧
        m.table = s.table ∧ m.mirrorWord = s.mirrorWord := by
      rcases is with rfl | rfl <;> exact ⟨rfl, rfl, rfl, rfl, rfl, rfl, rfl, rfl⟩
    obtain ⟨owed, deferred, hold, writer, withdrawn, queue, table, words⟩ := begins
    have marks : MarksUp s m := .of_same (by rw [writer]) fun i _ => congrFun words i
    refine ⟨waiting, aside.owed.trans owed, aside.deferred.trans deferred,
      .inl ⟨aside.hold.trans hold, aside.burst.trans (by rw [writer]), fun h => ?_⟩, fun p mem => ?_, fun none => ?_,
      fun inv => ?_, .inr (marks.trans aside.noted.toMarksUp)⟩
    · rw [← withdrawn, ← hold]
      exact aside.withdrawn h
    · rw [← queue]
      exact aside.queue p mem
    · rw [aside.table, table, none]
    · exact (marks.trans aside.noted.toMarksUp).length.trans inv

end State

/-- A burst, a withdrawal and a deferred request stand only where HOLD allows it, and still do when an access is taken. -/
theorem Takes.holdInv {s t : State} (h : Takes s t) (inv : s.holdInv) : t.holdInv := by
  obtain ⟨burst, withdrawn, -⟩ := inv
  have undeferred : t.bus.writerDeferred = true → t.bus.turnOwed = true ∨ t.bus.hold = .writer :=
    fun deferred => nomatch deferred.symm.trans h.undeferred
  rcases h.hold with ⟨hold, same, gives⟩ | ⟨-, none, clear⟩
  · refine ⟨fun some => hold.trans (burst (same ▸ some)), fun w => hold.trans ?_, undeferred⟩
    exact (gives w).elim withdrawn id
  · exact ⟨fun some => absurd none some, fun w => (nomatch w.symm.trans clear), undeferred⟩

end Sys2Proof.Machine
end

section
namespace Sys2Proof.Machine

/-! ## The end of an event, by the arbiter's turns (R148, R149, R150) -/

/-- A burst that the writer wants can begin where none stands. -/
theorem State.burstWord_ne_none {s : State} (idle : s.writer.burst = none) (wanted : s.burstWanted = true) :
    s.startRecord.burstWord ≠ none := by
  obtain ⟨w, writer, word, -⟩ := State.burstWord_begins s idle wanted
  rw [word]
  exact nofun

theorem Again.turns_lt {s t : State} (h : Again s t) : t.turns < s.turns := by
  have writer : s.judgeHold.writer = s.writer := State.judgeHold_writer s
  cases h with
  | @access x rest free hold waiting =>
    have released : s.bus.hold = .released := by
      rcases State.judgeHold_hold s with same | ⟨released, -⟩
      · exact same.symm.trans hold
      · exact released
    have takes := State.takeAccess_takes (s.judgeHold.withWaiting rest) x
    have length : ((s.judgeHold.withWaiting rest).takeAccess x).bus.waiting.length = rest.length :=
      congrArg List.length takes.waiting
    unfold State.turns
    rw [length, waiting, List.length_cons]
    rcases takes.hold with ⟨same, burst, gives⟩ | ⟨clear, none, unset⟩
    · have same : ((s.judgeHold.withWaiting rest).takeAccess x).bus.hold = s.bus.hold :=
        same.trans (hold.trans released.symm)
      have burst : ((s.judgeHold.withWaiting rest).takeAccess x).writer.burst = s.writer.burst :=
        burst.trans (congrArg Writer.burst writer)
      have gives : ((s.judgeHold.withWaiting rest).takeAccess x).bus.holdWithdrawn = true → s.bus.holdWithdrawn = true := by
        intro w
        rcases gives w with w | loader
        · exact (State.judgeHold_withdrawn s).symm.trans w
        · exact nomatch hold.symm.trans loader
      rw [same, burst]
      split
      · next either =>
        rw [if_pos (c := s.bus.hold = .loader ∨ s.bus.holdWithdrawn = true) (either.imp id gives)]
        omega
      · omega
    · rw [clear, none, unset]
      simp only [reduceCtorEq, Bool.false_eq_true, or_self, ne_eq, not_true_eq_false, if_false]
      omega
  | noBurst free hold word =>
    have called : s.bus.hold = .writer ∨ s.writer.burst ≠ none := by
      by_contra neither
      obtain ⟨other, idle⟩ := not_or.1 neither
      rcases State.judgeHold_hold s with same | ⟨-, -, ⟨-, wanted⟩ | ⟨loader, -⟩⟩
      · exact other (same.symm.trans hold)
      · refine State.burstWord_ne_none (s := s.judgeHold) ?_ ?_ word
        · rw [writer]
          exact not_not.1 idle
        · obtain ⟨h, q, g, e, -⟩ := State.judgeHold_eq s
          rw [e]
          exact wanted
      · exact nomatch hold.symm.trans loader
    have ended : s.judgeHold.endBurst.turns = s.bus.waiting.length + 1 := by
      simp [State.turns, State.endBurst, State.releaseHold]
    rw [ended]
    unfold State.turns
    rw [if_pos called]
    omega
  | noRead free hold read =>
    have called : s.bus.hold = .loader ∨ s.bus.holdWithdrawn = true := by
      rcases State.judgeHold_hold s with same | ⟨-, -, ⟨writes, -⟩ | ⟨-, waits⟩⟩
      · exact .inl (same.symm.trans hold)
      · exact nomatch hold.symm.trans writes
      · rcases read with none | withdrawn
        · simp [State.loaderWaiting, none] at waits
        · exact .inr withdrawn
    have ended : s.judgeHold.releaseHold.turns = s.bus.waiting.length + (if s.writer.burst ≠ none then 1 else 0) + 1 := by
      simp [State.turns, State.releaseHold]
    rw [ended]
    unfold State.turns
    rw [if_pos called]
    split
    · next some => rw [if_pos (.inr some)]; omega
    · omega

theorem served_arbitrate {n : Nat} : ∀ {s : State}, s.turns ≤ n → Served s (s.arbitrate n) := by
  induction n with
  | zero => exact fun h => absurd h (by unfold State.turns; omega)
  | succ n ih =>
    intro s enough
    rcases gives_or_again s with ⟨t, last⟩ | ⟨t, turn⟩
    · rw [last.arbitrate]
      exact .rests last
    · rw [turn.arbitrate]
      have := turn.turns_lt
      exact .again turn (ih (by omega))

/-- Enough fuel, and the arbiter comes to where its turns lead. -/
theorem Served.arbitrate {s t : State} (h : Served s t) : ∃ k, ∀ n, k ≤ n → s.arbitrate n = t := by
  induction h with
  | rests last =>
    refine ⟨1, fun n enough => ?_⟩
    obtain ⟨m, rfl⟩ := Nat.exists_eq_add_of_le' enough
    exact last.arbitrate m
  | again turn _ ih =>
    obtain ⟨k, reaches⟩ := ih
    refine ⟨k + 1, fun n enough => ?_⟩
    obtain ⟨m, rfl⟩ := Nat.exists_eq_add_of_le' (Nat.le_of_add_left_le enough)
    rw [turn.arbitrate]
    exact reaches m (by omega)

/-- What the arbiter's turns lead to is what the event ends with, once the next record and the gap timer have followed. -/
theorem Served.finish {s t : State} (h : Served s t) : s.finish = t.startRecord.setGapTimer := by
  obtain ⟨k, reaches⟩ := h.arbitrate
  obtain ⟨k', reaches'⟩ := (served_arbitrate s.turns_le).arbitrate
  unfold State.finish
  rw [← reaches' (k + k') (by omega), reaches (k + k') (by omega)]

theorem exists_served (s : State) : ∃ t, Served s t ∧ s.finish = t.startRecord.setGapTimer :=
  ⟨_, served_arbitrate s.turns_le, rfl⟩

/-- A turn taken again ends the event as the state it leaves does. -/
theorem Again.finish {s t : State} (h : Again s t) : s.finish = t.finish := by
  obtain ⟨u, served, e⟩ := exists_served t
  rw [e, (Served.again h served).finish]

theorem Gives.finish {s t : State} (h : Gives s t) : s.finish = t.startRecord.setGapTimer := (Served.rests h).finish

/-! ### What the turns leave alone -/

theorem mirrorWord_of_offPort {s t : State} (h : t.offPort = s.offPort) : t.mirrorWord = s.mirrorWord :=
  (congrArg (fun u : State => u.mirrorWord) h :)

theorem mirrorDirty_of_offPort {s t : State} (h : t.offPort = s.offPort) : t.writer.mirrorDirty = s.writer.mirrorDirty :=
  (congrArg (fun u : State => u.writer.mirrorDirty) h :)

/-- A word of the burst changes the record in progress and the burst alone. -/
theorem State.burstWord_writer {s : State} {w : WriterWord} {writer : Writer} (h : s.burstWord = some (w, writer)) :
    { writer with inProgress := none, burst := none } = { s.writer with inProgress := none, burst := none } ∧
      (s.writer.burst ≠ none → writer = s.writer) ∧
      (s.writer.burst = none → w = s.wordOfRecord s.slotAddr 0 true ∧ writer.burst = some ⟨s.slotAddr, false, false⟩ ∧
        ∃ p, s.writer.inProgress = some p ∧ writer.inProgress = some { p with words := 0 }) := by
  unfold State.burstWord at h
  cases burst : s.writer.burst with
  | none =>
    rw [burst] at h
    cases inProgress : s.writer.inProgress with
    | none => rw [inProgress] at h; cases h
    | some p =>
      rw [inProgress] at h
      cases h
      exact ⟨rfl, fun some => absurd rfl some, fun _ => ⟨rfl, rfl, p, rfl, rfl⟩⟩
  | some b =>
    have same : writer = s.writer := by
      rw [burst] at h
      dsimp only at h
      split at h
      all_goals
        obtain ⟨x, -, e⟩ := Option.map_eq_some_iff.1 h
        exact (congrArg Prod.snd e).symm
    rw [same]
    exact ⟨rfl, fun _ => rfl, nofun⟩

theorem Gives.offPort {s t : State} (h : Gives s t) : t.offPort = s.offPort := by
  cases h with
  | busy => exact State.judgeHold_offPort s
  | gap => exact (State.gapChoice_offPort _).trans (State.judgeHold_offPort s)
  | @burst w writer free hold word =>
    obtain ⟨same, -⟩ := State.burstWord_writer word
    have begun := (State.startRecord_offPort s.judgeHold).trans (State.judgeHold_offPort s)
    have sent : (State.sendWriter { s.judgeHold with writer := writer } w).offPort =
        { s.judgeHold.offPort with writer := { writer with inProgress := none, burst := none } } := rfl
    rw [sent, same, State.judgeHold_offPort]
    exact congrArg (fun u : State => { s.offPort with writer := u.writer }) begun
  | read => exact State.judgeHold_offPort s

end Sys2Proof.Machine
end

section
namespace Sys2Proof.Machine

/-! ## What every event leaves of HOLD and of the port (R148, R149, R150) -/

/-- The requests stay heard where nothing they turn on changes. -/
theorem State.Heard.congr {s t : State} (h : s.Heard) (wanted : t.burstWanted = s.burstWanted)
    (bus : { t.bus with port := .free } = { s.bus with port := .free })
    (served : t.writer.burst.any (fun b => b.recordDone) = s.writer.burst.any (fun b => b.recordDone)) : t.Heard := by
  have hold : t.bus.hold = s.bus.hold := (congrArg Bus.hold bus :)
  have owed : t.bus.turnOwed = s.bus.turnOwed := (congrArg Bus.turnOwed bus :)
  have queue : t.bus.holdQueue = s.bus.holdQueue := (congrArg Bus.holdQueue bus :)
  have deferred : t.bus.writerDeferred = s.bus.writerDeferred := (congrArg Bus.writerDeferred bus :)
  have asked : t.writerAsked = s.writerAsked := by
    unfold State.writerAsked
    rw [hold, queue, served]
  obtain ⟨asks, writer, granted⟩ := h
  exact ⟨by rw [wanted, asked, deferred]; exact asks, by rw [wanted, queue]; exact writer,
    by rw [hold, owed, queue]; exact granted⟩

theorem State.burstWanted_of_offPort {s t : State} (h : t.offPort = s.offPort) : t.burstWanted = s.burstWanted :=
  (congrArg (fun u : State => u.burstWanted) h :)

theorem State.startRecord_heard {s : State} (h : s.Heard) : s.startRecord.Heard := by
  obtain ⟨bus, burst, -⟩ := State.startRecord_keeps s
  exact h.congr (State.burstWanted_of_offPort (State.startRecord_offPort s)) (by rw [bus]) (by rw [burst])

theorem State.startRecord_holdInv {s : State} (h : s.holdInv) : s.startRecord.holdInv := by
  obtain ⟨bus, burst, -⟩ := State.startRecord_keeps s
  unfold State.holdInv
  rw [bus, burst]
  exact h

theorem State.setGapTimer_holdInv {s : State} (h : s.holdInv) : s.setGapTimer.holdInv := by
  obtain ⟨q, g, e⟩ := State.setGapTimer_eq s
  rw [e]
  exact h

theorem State.gapChoice_bus (s : State) : { s.gapChoice.bus with port := .free } = { s.bus with port := .free } := by
  have bus := (State.startRecord_keeps s).1
  unfold State.gapChoice
  split
  · rfl
  · split
    · change { s.startRecord.bus with port := .free } = _
      rw [bus]
    · rfl

/-- The word that is given to a FREE port leaves HOLD as judged. -/
theorem Gives.bus {s t : State} (h : Gives s t) : { t.bus with port := .free } = { s.judgeHold.bus with port := .free } := by
  cases h with
  | busy => rfl
  | gap => exact State.gapChoice_bus _
  | burst => rfl
  | read => rfl

theorem Gives.hold {s t : State} (h : Gives s t) : t.bus.hold = s.judgeHold.bus.hold := (congrArg Bus.hold h.bus :)

theorem Gives.free {s t : State} (h : Gives s t) (free : t.bus.port = .free) :
    t.bus.hold = .released ∧ t.bus.waiting = [] := by
  cases h with
  | busy busy => exact absurd ((State.judgeHold_port s).symm.trans free) busy
  | gap _ hold alone =>
    exact ⟨(State.gapChoice_keeps _).1.trans hold,
      (State.waiting_of_offPort (State.gapChoice_offPort _)).trans ((State.judgeHold_waiting_eq s).trans alone)⟩
  | burst => cases free
  | read => cases free

/-- The record that starts does not turn on HOLD. -/
theorem State.judgeHold_startRecord (s : State) : s.judgeHold.startRecord.writer = s.startRecord.writer := by
  obtain ⟨h, q, g, e, -⟩ := State.judgeHold_eq s
  rw [e]
  unfold State.startRecord
  change (if (s.writer.inProgress.isNone && !s.writer.staging.isEmpty && s.ringHasRoom) = true then _ else _ : State).writer = _
  split <;> rfl

/-- Where a burst begins, and its first word, do not turn on what the end of an event rearranges. -/
theorem firstWord_of_offPort {s t : State} (h : t.offPort = s.offPort) :
    t.slotAddr = s.slotAddr ∧ t.wordOfRecord t.slotAddr 0 true = s.wordOfRecord s.slotAddr 0 true :=
  ⟨(congrArg (fun u : State => u.slotAddr) h :), (congrArg (fun u : State => u.wordOfRecord u.slotAddr 0 true) h :)⟩

/-- A burst stands where the last turn leaves it exactly as it stood, or as one that has just begun. -/
theorem Gives.burst_cases {s t : State} (h : Gives s t) :
    t.writer.burst = s.writer.burst ∨
      s.writer.burst = none ∧ s.bus.port = .free ∧ t.bus.hold = .writer ∧ t.writer.burst = some ⟨t.slotAddr, false, false⟩ ∧
        t.bus.port = .writer (t.wordOfRecord t.slotAddr 0 true) false ∧
        ∃ p, s.startRecord.writer.inProgress = some p ∧ t.writer.inProgress = some { p with words := 0 } := by
  have writer : s.judgeHold.writer = s.writer := State.judgeHold_writer s
  cases h with
  | busy => exact .inl (congrArg Writer.burst writer)
  | gap => exact .inl ((State.gapChoice_keeps _).2.1.trans (congrArg Writer.burst writer))
  | read => exact .inl (congrArg Writer.burst writer)
  | @burst w after free hold word =>
    obtain ⟨-, stands, begins⟩ := State.burstWord_writer word
    have same : s.judgeHold.startRecord.writer.burst = s.writer.burst :=
      (State.startRecord_keeps _).2.1.trans (congrArg Writer.burst writer)
    cases idle : s.writer.burst with
    | some b =>
      have kept := stands (by rw [same, idle]; exact nofun)
      exact .inl ((congrArg Writer.burst kept).trans (same.trans idle))
    | none =>
      obtain ⟨isWord, begun, p, inProgress, restarted⟩ := begins (same.trans idle)
      have off := (Gives.burst free hold word).offPort
      rw [← State.judgeHold_offPort s, ← State.startRecord_offPort s.judgeHold] at off
      obtain ⟨slot, first⟩ := firstWord_of_offPort off
      refine .inr ⟨rfl, free, hold, begun.trans (by rw [slot]), ?_, p, ?_, restarted⟩
      · rw [first, ← isWord]
        rfl
      · rw [← State.judgeHold_startRecord, inProgress]

theorem Gives.heard {s t : State} (h : Gives s t) (inv : s.holdInv) : t.Heard := by
  refine (State.judgeHold_heard inv).congr (State.burstWanted_of_offPort ?_) h.bus ?_
  · rw [h.offPort, State.judgeHold_offPort]
  · rw [State.judgeHold_writer]
    rcases h.burst_cases with same | ⟨idle, -, -, begun, -⟩
    · rw [same]
    · rw [idle, begun]
      rfl

theorem Gives.holdInv {s t : State} (h : Gives s t) (inv : s.holdInv) : t.holdInv := by
  obtain ⟨burst, withdrawn, deferral⟩ := State.judgeHold_holdInv s inv
  have field : ∀ {α : Type} (g : Bus → α), g { t.bus with port := .free } = g { s.judgeHold.bus with port := .free } :=
    fun g => congrArg g h.bus
  have hold : t.bus.hold = s.judgeHold.bus.hold := field Bus.hold
  have isWithdrawn : t.bus.holdWithdrawn = s.judgeHold.bus.holdWithdrawn := field Bus.holdWithdrawn
  have deferred : t.bus.writerDeferred = s.judgeHold.bus.writerDeferred := field Bus.writerDeferred
  have owed : t.bus.turnOwed = s.judgeHold.bus.turnOwed := field Bus.turnOwed
  refine ⟨fun some => ?_, by rw [isWithdrawn, hold]; exact withdrawn, by rw [deferred, owed, hold]; exact deferral⟩
  rcases h.burst_cases with same | ⟨-, -, writes, -⟩
  · rw [hold]
    exact burst (by rwa [State.judgeHold_writer, ← same])
  · exact writes

/-- The accesses that wait have no part in what goes with HOLD. -/
theorem State.holdInv.withWaiting {s : State} (h : s.holdInv) (xs : List Access) : (s.withWaiting xs).holdInv := h

theorem Again.holdInv {s t : State} (h : Again s t) (inv : s.holdInv) : t.holdInv := by
  have judged := State.judgeHold_holdInv s inv
  cases h with
  | access => exact (State.takeAccess_takes _ _).holdInv (judged.withWaiting _)
  | noBurst => exact ⟨fun some => absurd rfl some, nofun, fun _ => .inl rfl⟩
  | noRead _ hold => exact ⟨fun some => (nomatch hold.symm.trans (judged.1 some)), nofun, fun _ => .inl rfl⟩

/-- The state that the arbiter gives the port in last, from a state where HOLD and what goes with it are in step. -/
theorem Served.last {s t : State} (h : Served s t) (inv : s.holdInv) : ∃ u, u.holdInv ∧ Gives u t := by
  induction h with
  | rests last => exact ⟨_, inv, last⟩
  | again turn _ ih => exact ih (turn.holdInv inv)

/-- The last turn, with no more asked of the state. -/
theorem Served.gives {s t : State} (h : Served s t) : ∃ u, Gives u t := by
  induction h with
  | rests last => exact ⟨_, last⟩
  | again _ _ ih => exact ih

namespace State

/-- A port that is FREE at the end of an event has HOLD released and no access waiting, in every state (R148). -/
theorem finish_free (s : State) (free : s.finish.bus.port = .free) :
    s.finish.bus.hold = .released ∧ s.finish.bus.waiting = [] := by
  obtain ⟨t, served, e⟩ := exists_served s
  obtain ⟨u, last⟩ := served.gives
  rw [e] at free ⊢
  have same := waiting_of_offPort ((setGapTimer_offPort t.startRecord).trans (startRecord_offPort t))
  rw [setGapTimer_port, startRecord_port] at free
  rw [(setGapTimer_keeps _).1, (startRecord_keeps t).1, same]
  exact last.free free

/-- Every event that keeps HOLD in step ends with the port settled (R148, R149, R150). -/
theorem finish_settles {s : State} (inv : s.holdInv) : s.finish.settled := by
  refine ⟨finish_free s, ?_⟩
  obtain ⟨t, served, e⟩ := exists_served s
  obtain ⟨u, invAt, last⟩ := served.last inv
  rw [e]
  exact ⟨setGapTimer_holdInv (startRecord_holdInv (last.holdInv invAt)), (startRecord_heard (last.heard invAt)).setGapTimer⟩

end State

/-! ## What every event leaves of the dirty marks (R162) -/

/-- From `s` to `t` the marks keep their number, and either each change of value has its mark or a full reset has taken the
table away. -/
structure Marked (s t : State) : Prop where
  table : s.table = none → t.table = none
  length : s.marksInv → t.marksInv
  marks : t.table = none ∨ MarksUp s t

namespace Marked

variable {s t u : State}

theorem of_offPort (h : t.offPort = s.offPort) : Marked s t where
  table := by
    have same : t.table = s.table := (congrArg (fun u : State => u.table) h :)
    rw [same]
    exact id
  length := by unfold State.marksInv; rw [mirrorDirty_of_offPort h]; exact id
  marks := .inr (.of_same (mirrorDirty_of_offPort h) fun i _ => congrFun (mirrorWord_of_offPort h) i)

/-- The bus pass unit shows nothing in the mirror, and keeps no mark. -/
theorem withBus (s : State) (b : Bus) : Marked s { s with bus := b } :=
  ⟨id, id, .inr (.of_same rfl fun _ _ => rfl)⟩

theorem endBurst (s : State) : Marked s s.endBurst := ⟨id, id, .inr (.of_same rfl fun _ _ => rfl)⟩

theorem of_takes (h : Takes s t) : Marked s t := ⟨h.table, h.marks, h.noted⟩

theorem trans (h : Marked s t) (k : Marked t u) : Marked s u where
  table none := k.table (h.table none)
  length inv := k.length (h.length inv)
  marks := by
    rcases k.marks with none | second
    · exact .inl none
    · rcases h.marks with none | first
      · exact .inl (k.table none)
      · exact .inr (first.trans second)

end Marked

theorem Gives.marked {s t : State} (h : Gives s t) : Marked s t := .of_offPort h.offPort

theorem Again.marked {s t : State} (h : Again s t) : Marked s t := by
  have judged : Marked s s.judgeHold := .of_offPort (State.judgeHold_offPort s)
  refine judged.trans ?_
  cases h with
  | access => exact (Marked.withBus _ _).trans (.of_takes (State.takeAccess_takes _ _))
  | noBurst => exact .endBurst _
  | noRead => exact .withBus _ _

theorem State.finish_marked (s : State) : Marked s s.finish := by
  obtain ⟨t, served, e⟩ := exists_served s
  rw [e]
  refine Marked.trans (t := t) ?_
    (.of_offPort ((State.setGapTimer_offPort t.startRecord).trans (State.startRecord_offPort t)))
  clear e
  induction served with
  | rests last => exact last.marked
  | again turn _ ih => exact turn.marked.trans ih

end Sys2Proof.Machine
end

section
namespace Sys2Proof.Machine

/-! ## Events that leave HOLD as it is (R149, R153, R162) -/

/-- A burst, a withdrawal and a deferred request stand only where HOLD allows it, and still do where the bus pass unit is the
same and no burst begins. -/
theorem State.holdInv.congr {s t : State} (inv : s.holdInv)
    (bus : { t.bus with port := .free } = { s.bus with port := .free })
    (idle : s.writer.burst = none → t.writer.burst = none) : t.holdInv := by
  have field : ∀ {α : Type} (g : Bus → α), g { t.bus with port := .free } = g { s.bus with port := .free } :=
    fun g => congrArg g bus
  have hold : t.bus.hold = s.bus.hold := field Bus.hold
  obtain ⟨burst, withdrawn, deferral⟩ := inv
  refine ⟨fun some => hold.trans (burst fun resting => some (idle resting)), fun w => hold.trans (withdrawn ?_), fun d => ?_⟩
  · exact (field Bus.holdWithdrawn).symm.trans w
  · exact (deferral ((field Bus.writerDeferred).symm.trans d)).imp (field Bus.turnOwed).trans hold.trans

/-- From `s` to `e` the bus pass unit is the same but for the word on the port, whose owner is the same; a burst stands where
it stood, and what the mirror shows is noted. -/
structure HoldSteady (s e : State) : Prop where
  noted : Noted s e
  bus : { e.bus with port := .free } = { s.bus with port := .free }
  free : e.bus.port = .free ↔ s.bus.port = .free
  slot : e.writer.burst.map Burst.slot = s.writer.burst.map Burst.slot
  done : e.writer.burst.map Burst.recordDone = s.writer.burst.map Burst.recordDone

namespace HoldSteady

variable {s t u : State}

theorem refl (s : State) : HoldSteady s s := ⟨.refl s, rfl, Iff.rfl, rfl, rfl⟩

theorem trans (h : HoldSteady s t) (k : HoldSteady t u) : HoldSteady s u :=
  ⟨h.noted.trans k.noted, k.bus.trans h.bus, k.free.trans h.free, k.slot.trans h.slot, k.done.trans h.done⟩

/-- What marks words of the port for windows that move, and leaves the burst alone, is steady. -/
theorem of_follows {m : WriterTarget → Bool} (h : Follows m s t) (noted : Noted s t)
    (burst : t.writer.burst = s.writer.burst) : HoldSteady s t :=
  ⟨noted, h.bus, h.free_iff, by rw [burst], by rw [burst]⟩

theorem of_moves (h : Moves s t) : HoldSteady s t := .of_follows h.follows h.noted h.ringKept.burst

theorem putLoader (s : State) (l : Loader) : HoldSteady s (s.putLoader l) := by
  have follows := note_follows [0, 1] s { s with loader := l }
  exact .of_follows (m := fun _ => false)
    ⟨follows.bus, follows.plain, follows.kept, follows.length, follows.stays, follows.dirty⟩ (s.putLoader_noted l) (by simp)

/-- The items that neither the mirror nor the bus pass unit holds. -/
theorem beside (s : State) (init : Bool) (malm : Per8 Bool) (monitors : Per8 Monitor) (dclink : DcMonitor) :
    HoldSteady s { s with init := init, malm := malm, monitors := monitors, dclink := dclink } :=
  ⟨.of_same rfl rfl (.same _), rfl, Iff.rfl, rfl, rfl⟩

theorem field (h : HoldSteady s t) {α : Type} (g : Bus → α) : g { t.bus with port := .free } = g { s.bus with port := .free } :=
  congrArg g h.bus

theorem hold (h : HoldSteady s t) : t.bus.hold = s.bus.hold := h.field Bus.hold

theorem burst_none (h : HoldSteady s t) (resting : s.writer.burst = none) : t.writer.burst = none := by
  have slot := h.slot
  rw [resting] at slot
  exact Option.map_eq_none_iff.1 slot

theorem holdInv (h : HoldSteady s t) (inv : s.holdInv) : t.holdInv := inv.congr h.bus h.burst_none

end HoldSteady

namespace State

variable (s : State)

/-! ### Installations (R164, R169, R172) -/

theorem noteTable_noted (new : Table) : Noted s (s.noteTable new) := by
  refine note_noted rfl rfl ?_
  exact note_marksUp _ rfl fun i hi off => absurd (List.mem_range.2 hi) off

theorem followReference_steady (old new : Table) (f : Fid) : HoldSteady s (s.followReference old new f) := by
  have moved : Moves s ((s.disown f).touchResult f) := touchResult_moves _ f (disown_moves s f .refl)
  unfold followReference
  split
  · exact (HoldSteady.of_moves moved).trans (.of_follows (portMoved_follows _ _) (portMoved_noted _ _) rfl)
  · exact .refl s

theorem followRing_steady (old new : Table) : HoldSteady s (s.followRing old new) := by
  have follows := followRing_follows s old new
  by_cases same : old.ringPlace = new.ringPlace
  · rw [followRing_same s same]
    exact .refl s
  · have ring := (followRing_ringMoved s same).burst
    refine ⟨?_, follows.bus, follows.free_iff, ?_, ?_⟩
    · rw [followRing_moved s same]
      have zeroed : Noted s s.zeroIndexes := (putProducer_noted s 0#16).trans (putConsumer_noted _ 0#16)
      have again : Noted s.zeroIndexes { s.zeroIndexes with writer := { s.zeroIndexes.writer with
          published := 0#16
          inProgress := s.zeroIndexes.writer.inProgress.map InProgress.again
          burst := s.zeroIndexes.writer.burst.map Burst.ringMoved } } := .of_same rfl rfl (.same _)
      exact (zeroed.trans again).trans (portMoved_noted _ _)
    · rw [ring]
      cases s.writer.burst <;> rfl
    · rw [ring]
      cases s.writer.burst <;> rfl

theorem followMirror_steady (old new : Table) : HoldSteady s (s.followMirror old new) := by
  refine .of_follows (followMirror_follows s old new) ?_ (by rw [(followMirror_rest s old new).2])
  by_cases same : baseOf (old.window .mirror) = baseOf (new.window .mirror)
  · rw [followMirror_same s same]
    exact .refl s
  · rw [followMirror_moved s same]
    exact (touchAllMirror_noted s).trans (portMoved_noted _ _)

theorem judgeAttn_steady : HoldSteady s s.judgeAttn := ⟨judgeAttn_noted s, rfl, Iff.rfl, rfl, rfl⟩

theorem beforeFeeders_steady (addr : Word) (old new : Table) : HoldSteady s (s.beforeFeeders addr old new) := by
  have noted : HoldSteady s (s.noteTable new) :=
    .of_follows (noteTable_follows s new) (noteTable_noted s new) (noteTable_ringKept s new).burst
  have monitors := noted.trans (.beside (s.noteTable new) (s.noteTable new).init (s.noteTable new).malm
    ((s.noteTable new).reloadMonitors (compareTables old new)).monitors DcMonitor.reset)
  have windows := List.foldlRecOn (motive := HoldSteady s) Fid.all (fun s f => s.followReference old new f) monitors
    fun t h f _ => h.trans (t.followReference_steady old new f)
  exact ((windows.trans (followRing_steady _ old new)).trans (followMirror_steady _ old new)).trans
    (.of_moves (handRecord_moves _ _ .refl))

theorem installReload_steady (addr : Word) (old new : Table) : HoldSteady s (s.installReload addr old new) := by
  have table : (s.beforeFeeders addr old new).table = some new :=
    (congrArg (fun u : State => u.table) (beforeFeeders_prelude s addr old new).blocks :)
  have turned := (ReloadedOver.refl (turnOf old new) (s.beforeFeeders addr old new)).fold table Fid.all Fid.nodup_all
  rw [installReload_eq]
  exact ((beforeFeeders_steady s addr old new).trans (.of_moves turned.moves)).trans (judgeAttn_steady _)

theorem noneResults_moves : Moves s s.noneResults :=
  List.foldlRecOn (motive := Moves s) Fid.all _ .refl fun t h f _ => by
    split
    · exact makeResult_moves t f _ h
    · exact h

theorem oweResync_moves : Moves s s.oweResync := by
  unfold oweResync
  dsimp only
  split
  · exact arbitrateLine_moves _ (withLink_moves s _ .refl)
  · exact withLink_moves s _ .refl

theorem armEnabled_moves : Moves s s.armEnabled :=
  List.foldlRecOn (motive := Moves s) Fid.all _ .refl fun t h f _ => by
    split
    · exact enterArming_moves t f _ h
    · exact h

/-- What a start-up installation does behind its marking of the whole mirror is moves of the feeders' side, and ATTN. -/
theorem installStart_moves (addr : Word) (t : Table) :
    ∃ m, Moves (State.touchAllMirror { s with
      table := some t, loader := { s.loader with mode := .active, read := none, image := [], flt := false } }) m ∧
        s.installStart addr t = m.judgeAttn :=
  ⟨_, ((handRecord_moves _ _ .refl).trans ((noneResults_moves _).trans ((oweResync_moves _).trans (armEnabled_moves _)))), rfl⟩

theorem installStart_steady (free : s.bus.port = .free) (addr : Word) (t : Table) : HoldSteady s (s.installStart addr t) := by
  obtain ⟨m, moves, e⟩ := installStart_moves s addr t
  rw [e]
  refine .trans (t := State.touchAllMirror { s with
    table := some t, loader := { s.loader with mode := .active, read := none, image := [], flt := false } }) ?_
    ((HoldSteady.of_moves moves).trans (judgeAttn_steady m))
  obtain ⟨follows, -, writer, marks⟩ := touchMirrors (List.range 40) { s with
    table := some t, loader := { s.loader with mode := .active, read := none, image := [], flt := false } }
  refine ⟨.of_marks ⟨follows.length, follows.stays, fun i hi short _ => marks i (List.mem_range.2 hi) short⟩ ?_,
    follows.bus, follows.free_iff, ?_, ?_⟩
  · rw [free]
    exact nofun
  · unfold touchAllMirror
    rw [writer]
  · unfold touchAllMirror
    rw [writer]

/-! ### The loader's reads (R166, R167, R169, R170, R172) -/

theorem rejectTable_steady (a : Option Word) (r : Reject) : HoldSteady s (s.rejectTable a r) := by
  unfold rejectTable
  dsimp only
  split
  · exact (HoldSteady.putLoader s _).trans (.of_moves (handRecord_moves _ _ .refl))
  · exact .putLoader s _

theorem acceptTable_steady (free : s.bus.port = .free) (a : Word) (t : Table) : HoldSteady s (s.acceptTable a t) := by
  unfold acceptTable
  split
  · split
    · exact installReload_steady s a _ t
    · exact .putLoader s _
  · exact installStart_steady s free a t

theorem endRead_steady (free : s.bus.port = .free) (a : Word) : HoldSteady s (s.endRead a) := by
  unfold endRead
  split
  · exact rejectTable_steady s _ _
  · exact acceptTable_steady s free a _

theorem tableWordRead_steady (free : s.bus.port = .free) (a : Word) (index : Nat) (data : Word) :
    HoldSteady s (s.tableWordRead a index data) := by
  have read := HoldSteady.putLoader s
    { s.loader with image := s.loader.image ++ [data], read := some ⟨some a, index + 1, 0⟩ }
  unfold tableWordRead
  dsimp only
  split
  · exact read.trans (rejectTable_steady _ _ _)
  split
  · exact read.trans (endRead_steady _ (read.free.2 free) a)
  · exact read

theorem readAnswered_steady (free : s.bus.port = .free) (r : TableRead) (data : Word) (err : Bool) :
    HoldSteady s (s.readAnswered r data err) := by
  unfold readAnswered
  split
  · split
    · exact rejectTable_steady s _ _
    · exact .putLoader s _
  split
  · exact .putLoader s _
  · exact tableWordRead_steady s free _ _ data

theorem startReload_steady : HoldSteady s s.startReload := by
  unfold startReload
  split
  · exact (HoldSteady.putLoader s _).trans (.putLoader _ _)
  · exact .refl s

theorem installHeld_steady : HoldSteady s s.installHeld := by
  unfold installHeld
  split
  · split
    · exact installReload_steady s _ _ _
    all_goals exact .refl s
  · exact .refl s

theorem initReleased_steady : HoldSteady s s.initReleased := by
  unfold initReleased
  dsimp only
  split
  · exact (HoldSteady.beside s false s.malm s.monitors s.dclink).trans (.putLoader _ _)
  · exact .beside s false s.malm s.monitors s.dclink

end State

/-- The commands whose event bears on HOLD itself: an access that is presented, a reset, memory's answers, and the three of R149
and R150. Every other has an effect that leaves HOLD as it is. -/
theorem exec_kinds (c : Instr) (s : State) :
    (∃ x, accessOf c = some x) ∨ (∃ init, c = .powerOn init) ∨ c = .initAssert ∨
      (∃ data err, c = .upstreamAccessComplete data err) ∨ (∃ err, c = .writerWordComplete err) ∨
      (∃ data err, c = .loaderReadComplete data err) ∨ c = .writerBurstHold ∨ c = .loaderGapTimeout ∨ c = .loaderHold ∨
      ∃ e, exec c s = .next e.finish ∧ HoldSteady s e := by
  by_contra other
  simp only [not_or] at other
  obtain ⟨noAccess, notOn, notAssert, notMemory, notWord, notRead, notBurst, notGap, notHold, other⟩ := other
  have aside : ∀ _ : ∃ e, exec c s = .next e.finish ∧ HoldSteady s e, False := other
  cases access : accessOf c with
  | some x => exact noAccess ⟨x, access⟩
  | none =>
    cases c
    case powerOn init => exact notOn ⟨init, rfl⟩
    case initAssert => exact notAssert rfl
    case upstreamAccessComplete data err => exact notMemory ⟨data, err, rfl⟩
    case writerWordComplete err => exact notWord ⟨err, rfl⟩
    case loaderReadComplete data err => exact notRead ⟨data, err, rfl⟩
    case writerBurstHold => exact notBurst rfl
    case loaderGapTimeout => exact notGap rfl
    case loaderHold => exact notHold rfl
    case initRelease => exact aside ⟨_, rfl, (State.initReleased_steady s)⟩
    case malmRelease f => exact aside ⟨{ s with malm := s.malm.set f false }, rfl, .beside s s.init _ s.monitors s.dclink⟩
    case reloadReadStart => exact aside ⟨_, rfl, (State.startReload_steady s)⟩
    case heldImageInstall => exact aside ⟨_, rfl, (State.installHeld_steady s)⟩
    case malmAssert f =>
      exact aside ⟨s.alarm f, rfl, (HoldSteady.beside s s.init (s.malm.set f true) s.monitors s.dclink).trans
        (.of_moves (State.asEventOf_moves _ _ _ (State.fault_moves _ _ _ .refl)))⟩
    case silenceExpiry f => exact aside ⟨_, rfl, .of_moves (State.silenceExpires_moves s f .refl)⟩
    case shedNoticeTaken f => exact aside ⟨_, rfl, .of_moves (State.takeNotice_moves s f .refl)⟩
    case frameEnd => exact aside ⟨_, rfl, .of_moves (State.frameEnd_moves s .refl)⟩
    case replyStart => exact aside ⟨_, rfl, .of_moves (State.replyStart_moves s .refl)⟩
    case responseTimeout => exact aside ⟨_, rfl, .of_moves (State.responseTimeout_moves s .refl)⟩
    case replyComplete bytes stops => exact aside ⟨_, rfl, .of_moves (State.replyComplete_moves s bytes stops .refl)⟩
    case replyBreakOff => exact aside ⟨_, rfl, .of_moves (State.replyBreakOff_moves s .refl)⟩
    case settleEnd => exact aside ⟨_, rfl, .of_moves (State.settleEnd_moves s .refl)⟩
    case resyncEnd => exact aside ⟨_, rfl, .of_moves (State.resyncEnd_moves s .refl)⟩
    case quietEnd => exact aside ⟨_, rfl, .of_moves (State.quietEnd_moves s .refl)⟩
    all_goals cases access

end Sys2Proof.Machine
end

section
namespace Sys2Proof.Machine

/-! ## An access that is presented (R143, R144, R148) -/

/-- Settles O26: a port that carries a word keeps it, and the arbiter does no more than judge HOLD. -/
theorem accessWaitsForThePort : Obligations.AccessWaitsForThePort := by
  intro c x s command busy
  exact ⟨_, exec_access c x s command, State.present_waits s x busy⟩

/-- A refused access at a port that takes it at once ends with its error response and its record. -/
theorem completes_refused {c : Instr} {x : Access} {s : State} (command : accessOf c = some x) (once : s.takesAtOnce)
    (denied : ¬ accessPermitted (s.classify x.addr) x) :
    Completes c s fun t => t.offPort = State.offPort ((s.refused x).handRecord
      (.busRefused x.addr x.tag (s.classify x.addr).kind (s.classify x.addr).feeder !x.write)) := by
  refine ⟨_, exec_access c x s command, ?_⟩
  rw [← State.takeAccess_refuses s x denied]
  exact (State.present_taken s x once).1

/-- The writes that a window refuses, by its kind and the master's tag (R143). -/
theorem writePermitted_window_false {w : WindowEntry} {a : Word} {tag : BitVec 2}
    (h : (w.kind = .sample ∨ w.kind = .dclink) ∧ tag ≠ tagSampler ∨
        w.kind = .reference ∧ (tag ≠ tagProcessor ∨ refSlot (w.offset a) ≠ .alias0) ∨
        w.kind = .control ∧ tag ≠ tagProcessor ∨ w.kind = .ring ∨ w.kind = .mirror ∨ w.kind = .guard) :
    writePermitted (.window w) a tag = false := by
  rcases h with ⟨kind, other⟩ | ⟨kind, other⟩ | ⟨kind, other⟩ | kind | kind | kind
  · rcases kind with kind | kind <;> simp [writePermitted, kind, other]
  · rcases other with other | other <;> simp [writePermitted, kind, other]
  · simp [writePermitted, kind, other]
  all_goals simp [writePermitted, kind]

/-- Settles O28. -/
theorem refusedAccesses : Obligations.RefusedAccesses := by
  intro s tag a be v w once inWindow
  have feeder : (AccessClass.window w).feeder =
      if w.kind = .sample ∨ w.kind = .reference then some w.feeder else none := by
    simp [AccessClass.feeder]
  refine ⟨fun denied => ?_, fun guard => ?_⟩
  · have refuses : ¬ accessPermitted (s.classify a) (taggedWrite tag a be v) := by
      rw [inWindow]
      simp [accessPermitted, taggedWrite, writePermitted_window_false denied]
    have done := completes_refused (c := .refusedWrite tag a be v) rfl once refuses
    rw [show (taggedWrite tag a be v).addr = a from rfl, inWindow, feeder] at done
    exact done
  · have refuses : ¬ accessPermitted (s.classify a) (taggedRead tag a) := by
      rw [inWindow]
      simp [accessPermitted, taggedRead, readPermitted, guard]
    have done := completes_refused (c := .guardRead tag a) rfl once refuses
    rw [show (taggedRead tag a).addr = a from rfl, inWindow, feeder] at done
    exact done

/-! ## A state that refutes the calm writer word's clause (R149, R157) -/

namespace WrappedRing

/-- A record. -/
def report : Record := { seq := 0#16, stamp := 0#32, dropped := 0, body := .feederState 0 .off .off .none }

/-- A set with a ring of eight slots and no other window. -/
def set : Table :=
  { length := 99, identity := 0#32, settings := Settings.absent, entries := Per8.replicate Entry.absent
    curves := Per8.replicate [], windows := [⟨.ring, 0, 0#32, 9⟩] }

/-- The eighth word of a record, which goes out in a gap. -/
def eighth : WriterWord := ⟨.record 7, 0#32, 0#32, false, false, false⟩

/-- Nine records are staged, and P is 65535 ahead of C, so that the ring has no room; the eighth word of the first is on
the port. When it completes P goes on to C itself, the ring counts as empty, and the eight records that are left call for
HOLD at once. -/
def before : State :=
  { State.reset with
    table := some set
    loader := { Loader.reset with mode := .active, flt := false }
    bus := { Bus.reset with port := .writer eighth false }
    writer :=
      { Writer.reset with staging := List.replicate 9 report, inProgress := some ⟨7, false⟩, producer := 65535#16 } }

theorem before_settled : before.settled :=
  ⟨nofun, ⟨fun some => absurd rfl some, nofun, nofun⟩, by unfold State.holdJudged; decide⟩

theorem before_calm : before.calm := ⟨rfl, rfl, before_settled⟩

/-- The completion asserts HOLD for the writer. -/
theorem exec_before_holds : ∃ t, exec (.writerWordComplete false) before = .next t ∧ t.bus.hold = .writer := ⟨_, rfl, rfl⟩

end WrappedRing

/-- Refutes O47: a calm word in a gap does not always leave HOLD released. Where P, 65535 ahead of C, goes on and meets C, the
full ring counts as empty, and the records that are still staged are granted HOLD in the same event. -/
theorem not_writerWordComplete : ¬ Obligations.WriterWordComplete := by
  intro h
  obtain ⟨words, -⟩ := h
  obtain ⟨gap, -⟩ := words WrappedRing.before WrappedRing.eighth WrappedRing.before_settled rfl
  obtain ⟨released, -⟩ := gap WrappedRing.before_calm rfl
  obtain ⟨t, run, hold, -⟩ := released false
  obtain ⟨u, run', writes⟩ := WrappedRing.exec_before_holds
  rw [run] at run'
  cases run'
  exact nomatch hold.symm.trans writes

end Sys2Proof.Machine
end

section
namespace Sys2Proof.Machine

/-! ## What a word of the writer brings (R152, R157, R162) -/

/-- From `s` to `t` HOLD and what goes with it stay in step, HOLD is not asserted, and marks only come, with each change of
value. -/
structure InStep (s t : State) : Prop where
  inv : s.holdInv → t.holdInv
  released : s.bus.hold = .released → t.bus.hold = .released
  marks : MarksUp s t

namespace InStep

variable {s t u : State}

theorem of_steady (h : HoldSteady s t) : InStep s t := ⟨h.holdInv, h.hold.trans, h.noted.toMarksUp⟩

theorem refl (s : State) : InStep s s := ⟨id, id, .refl s⟩

theorem trans (h : InStep s t) (k : InStep t u) : InStep s u := ⟨k.inv ∘ h.inv, k.released ∘ h.released, h.marks.trans k.marks⟩

/-- Items of the writer that the mirror does not show, and the word on the port. -/
theorem of_shown {t : State} (bus : { t.bus with port := .free } = { s.bus with port := .free })
    (burst : s.writer.burst = none → t.writer.burst = none) (marks : t.writer.mirrorDirty = s.writer.mirrorDirty)
    (words : t.mirrorWord = s.mirrorWord) : InStep s t :=
  ⟨fun inv => inv.congr bus burst, (congrArg Bus.hold bus :).trans, .of_same marks fun i _ => congrFun words i⟩

theorem endBurst (s : State) : InStep s s.endBurst :=
  ⟨fun _ => ⟨fun some => absurd rfl some, nofun, fun _ => .inl rfl⟩, fun _ => rfl, .of_same rfl fun _ _ => rfl⟩

/-- A burst that has been served defers the writer's next request only while HOLD is asserted for it. -/
theorem deferBurst {served : Bool} (hold : s.holdInv → served = true → s.bus.hold = .writer) :
    InStep s (s.deferBurst served) := by
  refine ⟨fun inv => ?_, id, .of_same rfl fun _ _ => rfl⟩
  have writer := hold inv
  obtain ⟨burst, withdrawn, deferral⟩ := inv
  refine ⟨burst, withdrawn, fun d => ?_⟩
  rcases Bool.or_eq_true _ _ ▸ (Bool.and_eq_true _ _ ▸ d).1 with before | now
  · exact deferral before
  · exact .inr (writer now)

theorem countDrop (s : State) : InStep s s.countDrop := by
  refine ⟨fun inv => inv.congr ?_ (by simp), fun released => by simpa using released, ?_⟩
  · exact (note_follows [6] { s with writer := { s.writer with
      dropped := min 255 (s.writer.dropped + 1), overrun := true } } _).bus
  · refine MarksUp.trans (t := { s with writer := { s.writer with
      dropped := min 255 (s.writer.dropped + 1), overrun := true } }) (.of_same rfl fun _ _ => rfl) ?_
    exact (State.putSummary_noted _ _).toMarksUp

theorem putProducer (s : State) (p : BitVec 16) : InStep s (s.putProducer p) :=
  ⟨fun inv => inv.congr (note_follows [producerWord] s { s with writer := { s.writer with producer := p } }).bus (by simp),
    fun released => by simpa using released,
    (s.putProducer_noted p).toMarksUp⟩

end InStep

namespace State

variable (s : State)

theorem giveUp_inStep : InStep s s.giveUp := by
  refine InStep.trans (t := { s with writer := { s.writer with
    staging := (s.writer.staging.drop 1).map fun r => { r with seq := r.seq - 1#16 }
    nextSeq := s.writer.nextSeq - 1#16
    inProgress := none } }) (.of_shown rfl id rfl rfl) ?_
  exact (InStep.countDrop _).trans (.deferBurst fun _ => nofun)

theorem recordError_inStep (burst : Bool) : InStep s (s.recordError burst) := by
  unfold recordError
  split
  · exact .refl s
  · split
    · dsimp only
      split
      · exact (giveUp_inStep s).trans (.endBurst _)
      · exact giveUp_inStep s
    · exact .of_shown rfl id rfl rfl

theorem recordDone_inStep : InStep s s.recordDone := by
  refine InStep.trans (t := { s with writer := { s.writer with
    staging := s.writer.staging.drop 1, inProgress := none,
    burst := s.writer.burst.map fun b => { b with recordDone := true } } })
    (.of_shown rfl (fun idle => by simp [idle]) rfl rfl) ?_
  refine (InStep.putProducer _ (s.writer.producer + 1#16)).trans (.deferBurst fun inv served => inv.1 ?_)
  rw [putProducer_writer_burst]
  simpa [Option.isSome_iff_ne_none] using served

theorem recordWritten_inStep (k : Nat) : InStep s (s.recordWritten k) := by
  unfold recordWritten
  split
  · exact .refl s
  · split
    · exact recordDone_inStep s
    · exact .of_shown rfl id rfl rfl

theorem movedBurstWritten_inStep (k : Nat) (slot : Word) : InStep s (s.movedBurstWritten k slot) := by
  unfold movedBurstWritten
  split
  · exact .endBurst s
  · exact .of_shown rfl id rfl rfl

theorem recordWordComplete_inStep (w : WriterWord) (k : Nat) (err : Bool) : InStep s (s.recordWordComplete w k err) := by
  unfold recordWordComplete
  split
  · exact recordError_inStep s _
  · split
    · split
      · exact movedBurstWritten_inStep s k _
      · exact recordWritten_inStep s k
    · exact recordWritten_inStep s k
    · split
      · exact .refl s
      · exact recordWritten_inStep s k

theorem publish_inStep (w : WriterWord) (i : Nat) : InStep s (s.publish w i) := by
  unfold publish
  split
  · exact .of_shown rfl id rfl rfl
  · exact .refl s

/-- After a mirror word's mark has been seen to, its completion leaves HOLD in step. -/
theorem mirrorWordComplete_inStep (w : WriterWord) (i : Nat) (err : Bool) :
    InStep (if err then s else s.cleanMirror w i) (s.mirrorWordComplete w i err) := by
  have published : InStep (if err then s else s.cleanMirror w i)
      (if err then s else (s.cleanMirror w i).publish w i) := by
    cases err
    · exact publish_inStep _ w i
    · exact .refl s
  unfold mirrorWordComplete
  dsimp only
  by_cases last : (w.burst && !w.moved) = true
  · rw [if_pos last]
    exact published.trans (.endBurst _)
  · rw [if_neg last]
    exact published

theorem resultWordComplete_inStep (w : WriterWord) (f : Fid) (i : Nat) (err : Bool) :
    InStep s (s.resultWordComplete w f i err) := by
  unfold resultWordComplete
  split
  · exact .refl s
  · exact .of_shown rfl id rfl rfl

end State

/-- From `s` to `m` a word of the mirror may be cleaned: the one on the port, whose value has not changed, where its write
completes without an error. -/
structure Cleaned (err : Bool) (s m : State) : Prop where
  inv : s.holdInv → m.holdInv
  released : s.bus.hold = .released → m.bus.hold = .released
  length : m.writer.mirrorDirty.length = s.writer.mirrorDirty.length
  words : m.mirrorWord = s.mirrorWord
  marks : ∀ i, s.writer.mirrorDirty.getD i false = true → m.writer.mirrorDirty.getD i false = true ∨
    err = false ∧ ∃ w, s.bus.port = .writer w false ∧ w.target = .mirror i ∧ w.changed = false

/-- A completed word of the writer cleans at most its own mark; all else it brings keeps HOLD in step and marks what changes. -/
theorem State.writerAnswered_cleans (s : State) (err : Bool) : ∃ m, Cleaned err s m ∧ InStep m (s.writerAnswered err) := by
  have freed : Cleaned err s { s with bus := { s.bus with port := .free } } :=
    ⟨fun inv => inv.congr rfl id, id, rfl, rfl, fun _ dirty => .inl dirty⟩
  unfold State.writerAnswered
  split
  · next w discard onPort =>
    cases discard with
    | true => exact ⟨_, freed, .refl _⟩
    | false =>
      change ∃ m, Cleaned err s m ∧ InStep m (State.wordComplete { s with bus := { s.bus with port := .free } } w err)
      unfold State.wordComplete
      split
      · exact ⟨_, freed, recordWordComplete_inStep _ w _ err⟩
      · next i target =>
        refine ⟨_, ?_, mirrorWordComplete_inStep _ w i err⟩
        cases err with
        | true => exact freed
        | false =>
          change Cleaned false s (State.cleanMirror { s with bus := { s.bus with port := .free } } w i)
          unfold State.cleanMirror
          split
          · exact freed
          · next clean =>
            refine ⟨fun inv => inv.congr rfl id, id, List.length_set, rfl, fun j dirty => ?_⟩
            by_cases same : j = i
            · subst same
              exact .inr ⟨rfl, w, onPort, target, by simpa using (Bool.or_eq_false_iff.1 (Bool.eq_false_iff.2 clean)).1⟩
            · refine .inl ?_
              change (s.writer.mirrorDirty.set i false).getD j false = true
              rwa [List.getD_eq_getElem?_getD, List.getElem?_set_ne (Ne.symm same), ← List.getD_eq_getElem?_getD]
      · exact ⟨_, freed, resultWordComplete_inStep _ w _ _ err⟩
  all_goals exact ⟨s, ⟨id, id, rfl, rfl, fun _ dirty => .inl dirty⟩, .refl s⟩

/-! ## What every other event brings -/

/-- The effect of an event keeps HOLD in step, and notes what the mirror shows of it, or is a full reset. -/
structure Effect (s e : State) : Prop where
  inv : s.holdInv → e.holdInv
  length : s.marksInv → e.marksInv
  noted : e.table = none ∨ Noted s e

namespace Effect

variable {s e : State}

theorem of_noted (inv : s.holdInv → e.holdInv) (noted : Noted s e) : Effect s e :=
  ⟨inv, noted.length.trans, .inr noted⟩

theorem of_steady (h : HoldSteady s e) : Effect s e := .of_noted h.holdInv h.noted

theorem refl (s : State) : Effect s s := .of_steady (.refl s)

/-- A full reset, with the loader as it may be. -/
theorem reset {r : State} {l : Loader} (h : e = { r.fullReset with loader := l }) : Effect s e := by
  subst h
  exact ⟨fun _ => ⟨fun some => absurd rfl some, nofun, nofun⟩, fun _ => rfl, .inl rfl⟩

/-- Only the bus pass unit is another, and a word of the writer on the port is not. -/
theorem withBus_noted {b : Bus} (port : b.port = s.bus.port ∨ ∀ w d, s.bus.port ≠ .writer w d) :
    Noted s { s with bus := b } := by
  rcases port with same | other
  · exact .of_same rfl rfl (by rw [show ({ s with bus := b } : State).bus.port = b.port from rfl, same]; exact .same _)
  · exact .of_marks (.of_same rfl fun _ _ => rfl) other

theorem withBus {b : Bus} (inv : s.holdInv → State.holdInv { s with bus := b })
    (port : b.port = s.bus.port ∨ ∀ w d, s.bus.port ≠ .writer w d) : Effect s { s with bus := b } :=
  .of_noted inv (withBus_noted port)

end Effect

namespace State

variable (s : State)

theorem holdWriter_effect : Effect s s.holdWriter := by
  unfold holdWriter
  split
  · next granted =>
    refine .withBus (fun ⟨_, withdrawn, _⟩ => ⟨fun _ => rfl, fun w => ?_, fun _ => .inr rfl⟩) (.inl rfl)
    simp only [holdGranted, Bool.and_eq_true, decide_eq_true_eq] at granted
    exact nomatch granted.1.1.1.symm.trans (withdrawn w)
  · exact .refl s

theorem holdLoader_effect : Effect s s.holdLoader := by
  unfold holdLoader
  split
  · next granted =>
    simp only [holdGranted, Bool.and_eq_true, decide_eq_true_eq] at granted
    have released := granted.1.1.1
    refine .withBus (fun ⟨burst, _, deferral⟩ => ⟨fun some => ?_, fun _ => rfl, fun d => ?_⟩) (.inl rfl)
    · exact nomatch released.symm.trans (burst some)
    · exact .inl ((deferral d).resolve_right fun hold => (nomatch released.symm.trans hold))
  · exact .refl s

theorem gapTimeout_effect : Effect s s.gapTimeout := by
  unfold gapTimeout
  split
  · exact .withBus id (.inl rfl)
  · exact .refl s

theorem upstreamAnswered_effect (data : Word) (err : Bool) : Effect s (s.upstreamAnswered data err) := by
  unfold upstreamAnswered
  split
  · next onPort _ => exact .withBus id (.inr (by rw [onPort]; exact nofun))
  all_goals exact .refl s

/-- HOLD asserted for the loader is given up with no burst standing. -/
theorem releaseHold_holdInv {s : State} (inv : s.holdInv) (hold : s.bus.hold = .loader) : s.releaseHold.holdInv :=
  ⟨fun some => (nomatch hold.symm.trans (inv.1 some)), nofun, fun _ => .inl rfl⟩

/-- The part's word has left the port, and a HOLD asserted for the read is given up if `ends`. -/
def freed (s : State) (ends : Bool) : State :=
  if ends then releaseHold { s with bus := { s.bus with port := .free } } else { s with bus := { s.bus with port := .free } }

theorem freed_port (ends : Bool) : (s.freed ends).bus.port = .free := by cases ends <;> rfl

/-- The word that a read waits for gives up the HOLD asserted for it, and so does the left-over word of an abandoned read. -/
def endsHold (s : State) (discard : Bool) : Bool :=
  decide (s.bus.hold = .loader) && (!discard || s.bus.holdWithdrawn)

/-- The answer of a word of the loader's: the port is freed, HOLD given up, and the read goes on with it (R150, R167). -/
theorem loaderAnswered_eq {a : Word} {discard : Bool} (onPort : s.bus.port = .loader a discard) (data : Word) (err : Bool) :
    s.loaderAnswered data err =
      if discard then s.freed (s.endsHold discard)
      else s.loader.read.elim (s.freed (s.endsHold discard)) fun r =>
        (s.freed (s.endsHold discard)).readAnswered r data err := by
  have called : (s.bus.hold = .loader ∧ (!discard || s.bus.holdWithdrawn) = true) ↔ s.endsHold discard = true := by
    simp [endsHold]
  have loader : (s.freed (s.endsHold discard)).loader = s.loader := by cases s.endsHold discard <;> rfl
  have done : (if s.bus.hold = .loader ∧ (!discard || s.bus.holdWithdrawn) = true then
      releaseHold { s with bus := { s.bus with port := .free } } else { s with bus := { s.bus with port := .free } }) =
      s.freed (s.endsHold discard) := by
    unfold freed
    exact if_congr called rfl rfl
  unfold loaderAnswered
  rw [onPort]
  dsimp only
  rw [done, loader]
  cases discard <;> cases s.loader.read <;> rfl

/-- Memory's answer leaves HOLD as the freed port has it. -/
theorem loaderAnswered_steady {a : Word} {discard : Bool} (onPort : s.bus.port = .loader a discard) (data : Word)
    (err : Bool) : HoldSteady (s.freed (s.endsHold discard)) (s.loaderAnswered data err) := by
  rw [loaderAnswered_eq s onPort]
  split
  · exact .refl _
  · cases s.loader.read with
    | none => exact .refl _
    | some r => exact readAnswered_steady _ (freed_port s _) r data err

theorem loaderAnswered_other (other : ∀ a discard, s.bus.port ≠ .loader a discard) (data : Word) (err : Bool) :
    s.loaderAnswered data err = s := by
  unfold loaderAnswered
  split
  · next onPort => exact absurd onPort (other _ _)
  all_goals rfl

theorem freed_holdInv {s : State} (inv : s.holdInv) (discard : Bool) : (s.freed (s.endsHold discard)).holdInv := by
  have open' : State.holdInv { s with bus := { s.bus with port := .free } } := inv.congr rfl id
  cases ends : s.endsHold discard with
  | true => exact releaseHold_holdInv open' (decide_eq_true_iff.1 (Bool.and_eq_true _ _ ▸ ends).1)
  | false => exact open'

theorem loaderAnswered_effect (data : Word) (err : Bool) : Effect s (s.loaderAnswered data err) := by
  cases port : s.bus.port with
  | loader a discard =>
    have answered := loaderAnswered_steady s port data err
    refine .of_noted (fun inv => answered.holdInv (freed_holdInv inv discard)) (Noted.trans ?_ answered.noted)
    have other : ∀ w d, s.bus.port ≠ .writer w d := by rw [port]; exact nofun
    cases s.endsHold discard <;> exact Effect.withBus_noted (.inr other)
  | _ =>
    rw [loaderAnswered_other s (by rw [port]; exact nofun)]
    exact .refl s

end State

/-- Every command has an effect that keeps HOLD in step and notes what the mirror shows of it, is a full reset, or is that of a
completed word of the writer. -/
theorem exec_effect (c : Instr) (s : State) :
    (∃ err, c = .writerWordComplete err) ∨ ∃ e, exec c s = .next e.finish ∧ Effect s e := by
  rcases exec_kinds c s with ⟨x, access⟩ | ⟨init, rfl⟩ | rfl | ⟨data, err, rfl⟩ | word | ⟨data, err, rfl⟩ | rfl | rfl | rfl |
    ⟨e, run, steady⟩
  · exact .inr ⟨_, exec_access c x s access, .withBus id (.inl rfl)⟩
  · exact .inr ⟨_, rfl, .reset (State.restart_eq _)⟩
  · exact .inr ⟨_, rfl, .reset (r := { s with init := true }) rfl⟩
  · exact .inr ⟨_, rfl, s.upstreamAnswered_effect data err⟩
  · exact .inl word
  · exact .inr ⟨_, rfl, s.loaderAnswered_effect data err⟩
  · exact .inr ⟨_, rfl, s.holdWriter_effect⟩
  · exact .inr ⟨_, rfl, s.gapTimeout_effect⟩
  · exact .inr ⟨_, rfl, s.holdLoader_effect⟩
  · exact .inr ⟨e, run, .of_steady steady⟩

/-- The marks of an event whose effect is noted: what it changes is dirty, and a word of the writer on the port is seen to. -/
theorem mirrorMarked_of_noted {c : Instr} {s e : State} (noted : Noted s e) (marks : MarksUp e e.finish) (inv : s.marksInv)
    {i : Nat} (hi : i < 40) : mirrorMarked c s e.finish i := by
  have up := noted.toMarksUp.trans marks
  refine ⟨fun differs => ⟨up.changed i hi (by rwa [show s.writer.mirrorDirty.length = 40 from inv]) differs,
    fun w d onPort target _ => ?_⟩, fun dirty => .inl (up.stays i dirty)⟩
  obtain ⟨w', onPort', target', -, changed⟩ := noted.word w d onPort
  obtain ⟨off, port⟩ := State.finish_busy e (by rw [onPort']; exact nofun)
  refine ⟨w', port.trans onPort', target'.trans target, changed i hi target ?_⟩
  rwa [← mirrorWord_of_offPort off]

/-- The marks of an event whose effect is a completed word of the writer. -/
theorem mirrorMarked_of_cleaned {err : Bool} {s m t : State} (cleaned : Cleaned err s m) (up : MarksUp m t) (inv : s.marksInv)
    {i : Nat} (hi : i < 40) : mirrorMarked (.writerWordComplete err) s t i := by
  refine ⟨fun differs => ⟨up.changed i hi ?_ ?_, fun _ _ _ _ other => absurd rfl (other err)⟩, fun dirty => ?_⟩
  · rwa [cleaned.length, show s.writer.mirrorDirty.length = 40 from inv]
  · rwa [cleaned.words]
  · rcases cleaned.marks i dirty with kept | ⟨rfl, own⟩
    · exact .inl (up.stays i kept)
    · exact .inr ⟨rfl, own⟩

/-- Settles O3, by what each effect does to HOLD and to the marks, and the arbiter's turns that end the event. -/
theorem everyCommandSettlesPort : Obligations.EveryCommandSettlesPort := by
  intro c s
  rcases exec_effect c s with ⟨err, rfl⟩ | ⟨e, run, effect⟩
  · obtain ⟨m, cleaned, word⟩ := s.writerAnswered_cleans err
    obtain ⟨-, length, marks⟩ := State.finish_marked (s.writerAnswered err)
    refine ⟨_, rfl, State.finish_free _, fun inv => State.finish_settles (word.inv (cleaned.inv inv)), fun inv => length ?_,
      fun inv installed i hi => ?_⟩
    · exact word.marks.length.trans (cleaned.length.trans inv)
    · exact mirrorMarked_of_cleaned cleaned (word.marks.trans (marks.resolve_left installed)) inv hi
  · obtain ⟨table, length, marks⟩ := State.finish_marked e
    refine ⟨_, run, State.finish_free e, fun inv => State.finish_settles (effect.inv inv), length ∘ effect.length,
      fun inv installed i hi => ?_⟩
    have noted := effect.noted.resolve_left fun none => installed (table none)
    exact mirrorMarked_of_noted noted (marks.resolve_left installed) inv hi

end Sys2Proof.Machine
end

section
namespace Sys2Proof.Machine

/-! ## HOLD where its requests have been heard (R149, R150) -/

namespace State

variable {s : State}

/-- No request stands that could be granted once the requests have been heard. -/
theorem Heard.requests_nil (h : s.Heard) (released : s.bus.hold = .released) (clear : s.bus.turnOwed = false) :
    s.requests = [] := by
  have empty := h.granted released clear
  refine List.eq_nil_iff_forall_not_mem.2 fun p mem => ?_
  cases p with
  | loader => simpa [empty] using ((mem_requests_loader s).1 mem).2
  | writer =>
    obtain ⟨wanted, queued | unasked⟩ := (mem_requests_writer s).1 mem
    · simp [empty] at queued
    · exact nomatch unasked.symm.trans (h.asks wanted)

theorem Heard.judgeHold_hold (h : s.Heard) : s.judgeHold.bus.hold = s.bus.hold := by
  rw [judgeHold_stays fun released clear => h.requests_nil released clear]
  rfl

theorem settled.heard (h : s.settled) : s.Heard := ((holdJudged_iff s).1 h.2.2).1

theorem settled.idle_of_released (h : s.settled) (released : s.bus.hold = .released) : s.writer.burst = none := by
  by_contra some
  exact nomatch released.symm.trans (h.2.1.1 some)

/-- The end of an event at a port with HOLD released, no access that could be taken, and no request to grant: a word of the
part's own is all that can go out. -/
structure Resting (s : State) : Prop where
  released : s.bus.hold = .released
  idle : s.writer.burst = none
  judged : s.judgeHold.bus.hold = .released
  alone : s.bus.port = .free → s.bus.waiting = []

namespace Resting

theorem gives (h : s.Resting) : Gives s (if s.bus.port = .free then s.judgeHold.gapChoice else s.judgeHold) := by
  split
  · next free => exact .gap free h.judged (h.alone free)
  · next busy => exact .busy busy

theorem offPort (h : s.Resting) : s.finish.offPort = s.offPort := by
  rw [h.gives.finish, setGapTimer_offPort, startRecord_offPort, h.gives.offPort]

theorem holds (h : s.Resting) : s.finish.holds .released none := by
  have burst : s.judgeHold.writer.burst = none := by rw [judgeHold_writer, h.idle]
  rw [h.gives.finish]
  refine ⟨?_, ?_⟩
  · rw [(setGapTimer_keeps _).1, (startRecord_keeps _).1, h.gives.hold, h.judged]
  · rw [(setGapTimer_keeps _).2, (startRecord_keeps _).2.1]
    split
    · rw [(gapChoice_keeps _).2.1, burst]
    · exact burst

/-- A read of the loader's goes out in the gap before any word of the writer's (R148). -/
theorem read (h : s.Resting) (free : s.bus.port = .free) {r : TableRead} (reads : s.loader.read = some r) :
    s.finish.bus.port = .loader r.next false := by
  have given := h.gives
  rw [if_pos free] at given
  have out : s.judgeHold.gapChoice = s.judgeHold.sendLoader r := by
    unfold gapChoice
    rw [judgeHold_loader, reads]
  rw [given.finish, setGapTimer_port, startRecord_port, out]
  rfl

end Resting

/-- A full reset leaves no request, whatever the loader reads. -/
theorem Resting.of_reset {r : State} {l : Loader} (alone : s.bus.port = .free → s.bus.waiting = [])
    (h : s = { r.fullReset with loader := l }) : s.Resting := by
  subst h
  refine ⟨rfl, rfl, ?_, alone⟩
  rw [judgeHold_stays fun _ _ => ?_]
  · rfl
  · refine List.eq_nil_iff_forall_not_mem.2 fun p mem => ?_
    cases p with
    | loader => exact nomatch ((mem_requests_loader _).1 mem).2
    | writer => exact nomatch ((mem_requests_writer _).1 mem).1

/-- The requests have been heard of a state that differs from a settled one in what HOLD does not turn on. -/
theorem Resting.of_settled {e : State} (settled : s.settled) (free : s.bus.port = .free) (bus : e.bus = s.bus)
    (writer : e.writer = s.writer) (wanted : e.burstWanted = s.burstWanted) : e.Resting := by
  obtain ⟨released, alone⟩ := settled.1 free
  have heard : e.Heard := settled.heard.congr wanted (by rw [bus]) (by rw [writer])
  have still : e.bus.hold = .released := by rw [bus, released]
  exact ⟨still, by rw [writer, settled.idle_of_released released], heard.judgeHold_hold.trans still,
    fun _ => by rw [bus, alone]⟩

/-- An access presented at a port that takes it at once ends its event as the taking of it does (R148). -/
theorem present_finish (s : State) (x : Access) (once : s.takesAtOnce) :
    (s.present x).finish = (s.takeAccess x).finish := by
  obtain ⟨free, settled⟩ := once
  obtain ⟨released, alone⟩ := settled.1 free
  obtain ⟨heard, loader, gap⟩ := (holdJudged_iff s).1 settled.2.2
  have judged : (s.present x).judgeHold = s.present x :=
    (holdJudged_iff _).2 ⟨⟨heard.asks, heard.writer, heard.granted⟩, loader, gap⟩
  have turn : Again (s.present x) (((s.present x).judgeHold.withWaiting []).takeAccess x) :=
    .access free (by rw [judged]; exact released) (by rw [show (s.present x).bus.waiting = s.bus.waiting ++ [x] from rfl, alone]; rfl)
  have before : (s.present x).withWaiting [] = s := by
    rw [← alone]
    rfl
  rw [turn.finish, judged, before]

end State

/-! ## Resets (R140, R165) -/

/-- A reset's event ends with HOLD released and no burst, and with a word of the part's own on the port marked as left over
(R140). -/
theorem reset_ends {s e r : State} {l : Loader} (alone : s.bus.port = .free → s.bus.waiting = [])
    (reset : e = { r.fullReset with loader := l }) (bus : r.bus = s.bus) :
    e.finish.offPort = e.offPort ∧ e.finish.holds .released none ∧
      (s.bus.port ≠ .free → e.finish.bus.port = s.bus.port.discarded) ∧
      ∀ x, s.bus.port = .free → l.read = some x → e.finish.bus.port = .loader x.next false := by
  have port : e.bus.port = s.bus.port.discarded := by rw [reset, ← bus]; rfl
  have waiting : e.bus.waiting = s.bus.waiting := by rw [reset, ← bus]; rfl
  have free : s.bus.port.discarded = .free ↔ s.bus.port = .free := by cases s.bus.port <;> simp [Port.discarded]
  have rests : e.Resting := .of_reset (fun at' => waiting.trans (alone (free.1 (port.symm.trans at')))) reset
  refine ⟨rests.offPort, rests.holds, fun busy => ?_, fun x at' reads => ?_⟩
  · exact (State.finish_busy e fun at' => busy (free.1 (port.symm.trans at'))).2.trans port
  · exact rests.read (port.trans (free.2 at')) (by rw [reset]; exact reads)

/-- Settles O24. -/
theorem resetCommands : Obligations.ResetCommands := by
  intro init s alone
  refine ⟨⟨_, rfl, ?_⟩, ⟨_, rfl, ?_⟩, fun settled loading idle => ⟨_, rfl, ?_⟩, fun settled other => ⟨_, rfl, ?_⟩⟩
  · obtain ⟨off, holds, busy, read⟩ := reset_ends alone (State.restart_eq { s with init := init }) rfl
    refine ⟨off.trans ?_, holds, busy, fun free released => read ⟨none, 0, 0⟩ free ?_⟩
    · rw [State.restart_eq]
      rfl
    · exact if_neg (by rw [released]; exact nofun)
  · obtain ⟨off, holds, busy, -⟩ := reset_ends (r := { s with init := true }) (l := Loader.reset) alone rfl rfl
    exact ⟨off, holds, busy⟩
  · have begun : s.initReleased =
        { s with init := false, loader := { s.loader with read := some ⟨none, 0, 0⟩, image := [] } } := by
      unfold State.initReleased
      dsimp only
      rw [if_pos ⟨loading, idle⟩, State.beginRead_eq]
    have port : s.initReleased.portSettled := by
      rw [begun]
      exact settled.portSettled
    rw [begun] at port ⊢
    refine ⟨State.offMarks_of_offPort (finish_endsAs port rfl).offPort, fun free => ?_⟩
    exact (State.Resting.of_settled settled free (e := { s with
      init := false, loader := { s.loader with read := some ⟨none, 0, 0⟩, image := [] } }) rfl rfl rfl).read free rfl
  · have level : s.initReleased = { s with init := false } := by
      unfold State.initReleased
      dsimp only
      rw [if_neg fun ⟨loading, idle⟩ => other.elim (fun ne => ne loading) fun ne => ne idle]
    have port : s.initReleased.portSettled := by
      rw [level]
      exact settled.portSettled
    rw [level] at port ⊢
    exact (finish_endsAs port rfl).offPort

/-! ## The start word (R165, R166) -/

/-- A write of the loader that the mirror does not show commutes with setting the marks aside. -/
theorem State.withLoader_offMarks {s t : State} (g : Loader → Loader) (h : s.offMarks = t.offMarks) :
    State.offMarks { s with loader := g s.loader } = State.offMarks { t with loader := g t.loader } :=
  (congrArg (fun u : State => { u with loader := g u.loader }) h :)

/-- A value that the start word takes, written by the processor. -/
theorem takeAccess_startWord (s : State) (v : Word) :
    s.takeAccess (startWord v) =
      if s.init then s.taken (startWord v) else (s.taken (startWord v)).startBlockTake Config.startBlock allBytes v := by
  have start : s.classify Config.startBlock = .start := if_pos (by decide)
  have permitted : accessPermitted (s.classify (startWord v).addr) (startWord v) := by
    change accessPermitted (s.classify Config.startBlock) _ = true
    rw [start]
    rfl
  rw [State.takeAccess_eq s _ permitted, if_pos (show (startWord v).write = true from rfl),
    show (startWord v).addr = Config.startBlock from rfl, start]
  change (if tagProcessor = tagProcessor ∧ (!s.init) = true then _ else _) = _
  cases s.init <;> rfl

/-- The event of a write of the start word ends as the taking of it, with the write on the port. -/
theorem startWord_ends {s : State} (once : s.takesAtOnce) (v : Word) :
    (s.present (startWord v)).finish.offPort = (s.takeAccess (startWord v)).offPort ∧
      (s.present (startWord v)).finish.bus.port = .upstream := by
  obtain ⟨off, up⟩ := State.present_taken s (startWord v) once
  refine ⟨off, up ?_⟩
  have start : s.classify Config.startBlock = .start := if_pos (by decide)
  change accessPermitted (s.classify Config.startBlock) _ = true
  rw [start]
  rfl

/-- Settles O25. -/
theorem startWordWrites : Obligations.StartWordWrites := by
  intro s once
  have start : s.classify Config.startBlock = .start := if_pos (by decide)
  refine ⟨⟨_, rfl, ?_⟩, ⟨_, rfl, ?_⟩⟩
  · obtain ⟨off, up⟩ := startWord_ends once 2#32
    have restarts : s.init = false → s.takeAccess (startWord 2#32) = (s.taken (startWord 2#32)).restart := by
      intro clear
      rw [takeAccess_startWord, clear]
      rfl
    refine ⟨up, fun clear => ?_, off.trans ?_⟩
    · rw [State.present_finish s _ once, restarts clear]
      exact State.Resting.holds (.of_reset (fun free => by rw [State.restart_eq] at free; cases free) (State.restart_eq _))
    · cases clear : s.init with
      | true => simp only [takeAccess_startWord, clear, ↓reduceIte]
      | false =>
        rw [restarts clear, State.restart_eq, show (s.taken (startWord 2#32)).init = s.init from rfl, clear]
        have waiting : s.bus.waiting = [] := (once.2.1 once.1).2
        have address : s.downAddr (s.classify Config.startBlock) (startWord 2#32) = Config.startBlock := by
          rw [start]
          rfl
        have current : (s.taken (startWord 2#32)).bus.current = some ⟨startWord 2#32, .start, Config.startBlock⟩ := by
          change some (Current.mk _ (s.classify Config.startBlock) (s.downAddr (s.classify Config.startBlock) _)) = _
          rw [address, start]
        change State.offPort { State.reset with
          pending := s.pending, init := s.init, malm := s.malm, draws := s.draws
          loader := { Loader.reset with read := some ⟨none, 0, 0⟩ }
          bus := { Bus.reset with
            current := (s.taken (startWord 2#32)).bus.current, waiting := s.bus.waiting, answer := s.bus.answer } } = _
        rw [waiting, current, clear]
        rfl
  · obtain ⟨off, up⟩ := startWord_ends once 1#32
    refine ⟨up, (State.offMarks_of_offPort off).trans ?_⟩
    rw [takeAccess_startWord]
    cases clear : s.init with
    | true => simp only [↓reduceIte, Bool.true_eq_false, false_and]
    | false =>
      simp only [↓reduceIte, Bool.false_eq_true, true_and]
      change (State.loadRequest (s.taken (startWord 1#32))).offMarks = _
      unfold State.loadRequest
      rw [show (s.taken (startWord 1#32)).loader = s.loader from rfl]
      split
      · rw [State.beginRead_eq]
        exact State.withLoader_offMarks (fun l => { l with read := some ⟨none, 0, 0⟩, image := [] })
          (State.putLoader_offMarks _ _)
      · rfl

end Sys2Proof.Machine
end

section
namespace Sys2Proof.Machine

/-! ## The requests that an event leaves (R149, R150) -/

/-- The writer wants a burst where staging is deep enough and the ring has room. -/
theorem State.burstWanted_iff (s : State) :
    s.burstWanted = true ↔
      8 ≤ s.writer.staging.length ∧ (s.writer.producer - s.writer.consumer).toNat < s.ringSize := by
  unfold State.burstWanted State.ringHasRoom
  rw [Bool.and_eq_true, decide_eq_true_iff, decide_eq_true_iff]
  rfl

/-- A read waits where the loader reads and its word is not on the port. -/
theorem State.loaderWaiting_iff (s : State) :
    s.loaderWaiting = true ↔ s.loader.read ≠ none ∧ s.bus.port.carriesRead = false := by
  simp [State.loaderWaiting, Option.isSome_iff_ne_none]

namespace State

variable {s : State}

theorem mem_requests_of_judged {p : HoldParty} (mem : p ∈ s.judgeHold.bus.holdQueue) : p ∈ s.requests := by
  rcases judgeHold_cases s with ⟨-, e⟩ | ⟨q, rest, -, -, first, e⟩
  · rw [e] at mem
    exact mem
  · rw [e] at mem
    rw [first]
    exact List.mem_cons_of_mem _ mem

/-- A writer that wants a burst has asked for one, once HOLD is judged, unless it has been given one or puts it off. -/
theorem judgeHold_asks (wanted : s.burstWanted = true) (other : s.judgeHold.bus.hold ≠ .writer)
    (prompt : s.bus.writerDeferred = false) : HoldParty.writer ∈ s.judgeHold.bus.holdQueue := by
  have elsewhere : s.bus.hold ≠ .writer := by
    intro hold
    exact other ((judgeHold_asserted (by rw [hold]; exact nofun)).trans hold)
  have stands : HoldParty.writer ∈ s.requests := by
    refine (mem_requests_writer s).2 ⟨wanted, ?_⟩
    by_cases queued : HoldParty.writer ∈ s.bus.holdQueue
    · exact .inl queued
    · exact .inr (by simp [writerAsked, queued, elsewhere, prompt])
  rcases judgeHold_cases s with ⟨-, e⟩ | ⟨p, rest, -, -, first, e⟩
  · rw [e]
    exact stands
  · rw [e] at other ⊢
    rw [first] at stands
    refine (List.mem_cons.1 stands).resolve_left fun own => other ?_
    rw [← own]
    rfl

/-- The requests whose reasons stand, and the writer's new one behind them. -/
theorem requests_eq_append (writer : HoldParty.writer ∈ s.bus.holdQueue → s.burstWanted = true)
    (loader : HoldParty.loader ∈ s.bus.holdQueue → s.loaderWaiting = true) :
    s.requests = s.bus.holdQueue ++
      if s.burstWanted && !(s.writerAsked || s.bus.writerDeferred) then [.writer] else [] := by
  by_cases asks : s.burstWanted = true → (s.writerAsked || s.bus.writerDeferred) = true
  · rw [requests_eq_queue asks writer loader, if_neg, List.append_nil]
    simp only [Bool.and_eq_true, Bool.not_eq_true', not_and, Bool.not_eq_false]
    exact asks
  · obtain ⟨wanted, unasked⟩ := Classical.not_imp.1 asks
    rw [Bool.not_eq_true] at unasked
    have asked : s.askBurst = { s with bus := { s.bus with holdQueue := s.bus.holdQueue ++ [.writer] } } := by
      unfold askBurst
      rw [if_pos wanted, unasked]
      rfl
    unfold requests setGapTimer
    rw [asked, wanted, unasked]
    split
    · rfl
    · next waits =>
      refine List.filter_eq_self.2 fun p mem => decide_eq_true fun is => ?_
      subst is
      simp only [List.mem_append, List.mem_singleton, reduceCtorEq, or_false] at mem
      exact waits (loader mem)

end State

/-- The gap timer, once it has followed, runs exactly while a read waits, and only then does the loader's request stand. -/
theorem State.setGapTimer_follows (s : State) :
    (s.setGapTimer.loaderWaiting = true → s.setGapTimer.bus.gapTimer ≠ none) ∧
      (s.setGapTimer.loaderWaiting = false →
        s.setGapTimer.bus.gapTimer = none ∧ HoldParty.loader ∉ s.setGapTimer.bus.holdQueue) ∧
      (HoldParty.writer ∈ s.setGapTimer.bus.holdQueue ↔ HoldParty.writer ∈ s.bus.holdQueue) := by
  unfold State.setGapTimer
  split
  · next waits => exact ⟨fun _ => nofun, fun still => (nomatch waits.symm.trans still), Iff.rfl⟩
  · next rests => exact ⟨fun still => absurd still rests, fun _ => ⟨rfl, by simp⟩, by simp⟩

/-- What every event leaves of the requests and of the gap timer, whatever its effect. -/
theorem State.finish_requests (e : State) :
    (HoldParty.writer ∈ e.finish.bus.holdQueue → e.finish.burstWanted = true) ∧
      (e.finish.burstWanted = true → e.finish.bus.hold ≠ .writer → e.finish.bus.writerDeferred = false →
        HoldParty.writer ∈ e.finish.bus.holdQueue) ∧
      (e.finish.loaderWaiting = true → e.finish.bus.gapTimer ≠ none) ∧
      (e.finish.loaderWaiting = false →
        e.finish.bus.gapTimer = none ∧ HoldParty.loader ∉ e.finish.bus.holdQueue) := by
  obtain ⟨t, served, ends⟩ := exists_served e
  obtain ⟨u, last⟩ := served.gives
  obtain ⟨runs, rests, kept⟩ := t.startRecord.setGapTimer_follows
  obtain ⟨q, g, timer⟩ := State.setGapTimer_eq t.startRecord
  have off : t.startRecord.setGapTimer.offPort = u.offPort := by
    rw [setGapTimer_offPort, startRecord_offPort, last.offPort]
  have wanted : t.startRecord.setGapTimer.burstWanted = u.burstWanted := burstWanted_of_offPort off
  have bus : t.startRecord.bus = t.bus := (startRecord_keeps t).1
  have queue : t.bus.holdQueue = u.judgeHold.bus.holdQueue := (congrArg Bus.holdQueue last.bus :)
  have deferred : t.bus.writerDeferred = u.bus.writerDeferred :=
    (congrArg Bus.writerDeferred last.bus :).trans (judgeHold_deferred u)
  rw [ends, wanted, kept, bus, queue]
  refine ⟨fun mem => ((mem_requests_writer u).1 (mem_requests_of_judged mem)).1, fun want other prompt => ?_, runs, rests⟩
  refine judgeHold_asks want ?_ ?_
  · rw [← last.hold, ← bus, ← (setGapTimer_keeps _).1]
    exact other
  · rw [← deferred, ← bus, ← prompt, timer]
    rfl

/-- Where HOLD is the writer's at a FREE port and no burst stands, one begins. -/
theorem Gives.begins {s t : State} (h : Gives s t) (idle : s.writer.burst = none) (free : s.bus.port = .free)
    (writes : s.judgeHold.bus.hold = .writer) : t.writer.burst ≠ none := by
  cases h with
  | busy busy => exact absurd free busy
  | gap _ released _ => exact nomatch writes.symm.trans released
  | burst _ _ word =>
    have resting : s.judgeHold.startRecord.writer.burst = none := by
      rw [(State.startRecord_keeps _).2.1, State.judgeHold_writer, idle]
    obtain ⟨-, begun, -⟩ := (State.burstWord_writer word).2.2 resting
    exact fun none => nomatch begun.symm.trans none
  | read _ reads _ _ => exact nomatch writes.symm.trans reads

/-- The burst that the last turn begins, at the end of the event. -/
theorem Gives.begun {s t : State} (h : Gives s t) (idle : s.writer.burst = none) (begins : t.writer.burst ≠ none) :
    s.finish.holds .writer (some ⟨s.finish.slotAddr, false, false⟩) ∧
      s.finish.bus.port = .writer (s.finish.wordOfRecord s.finish.slotAddr 0 true) false ∧
      ∃ p, s.startRecord.writer.inProgress = some p ∧ s.finish.writer.inProgress = some { p with words := 0 } := by
  have settles : s.finish.offPort = t.offPort := by
    rw [h.finish, State.setGapTimer_offPort, State.startRecord_offPort]
  obtain ⟨slot, first⟩ := firstWord_of_offPort settles
  rcases h.burst_cases with same | ⟨-, -, writer, begun, out, p, started, again⟩
  · exact absurd (same.trans idle) begins
  · refine ⟨⟨?_, ?_⟩, ?_, p, started, ?_⟩
    · rw [h.finish, (State.setGapTimer_keeps _).1, (State.startRecord_keeps _).1, writer]
    · rw [slot, h.finish, (State.setGapTimer_keeps _).2, (State.startRecord_keeps _).2.1, begun]
    · rw [first, h.finish, State.setGapTimer_port, State.startRecord_port, out]
    · rw [h.finish, (State.setGapTimer_keeps _).2, (State.startRecord_keeps t).2.2 (by rw [again]; exact nofun), again]

/-! ## What becomes of HOLD that is released (R149, R150) -/

/-- HOLD is released, and what goes with it is in step. -/
structure State.Loose (s : State) : Prop where
  released : s.bus.hold = .released
  inv : s.holdInv

namespace State.Loose

variable {s t : State}

theorem idle (h : s.Loose) : s.writer.burst = none := by
  by_contra some
  exact nomatch h.released.symm.trans (h.inv.1 some)

theorem kept (h : s.Loose) : s.bus.holdWithdrawn = false := by
  by_contra withdrawn
  exact nomatch h.released.symm.trans (h.inv.2.1 (by simpa using withdrawn))

/-- An access that is taken leaves HOLD loose, and the port FREE or with the access on it. -/
theorem access (h : s.Loose) {x : Access} {rest : List Access} (hold : s.judgeHold.bus.hold = .released)
    (free : s.bus.port = .free) :
    ((s.judgeHold.withWaiting rest).takeAccess x).Loose ∧
      (((s.judgeHold.withWaiting rest).takeAccess x).bus.port = .free ∨
        ((s.judgeHold.withWaiting rest).takeAccess x).bus.port = .upstream) := by
  have takes := State.takeAccess_takes (s.judgeHold.withWaiting rest) x
  refine ⟨⟨?_, takes.holdInv ((State.judgeHold_holdInv s h.inv).withWaiting rest)⟩, ?_⟩
  · rcases takes.hold with ⟨same, -⟩ | ⟨clear, -⟩
    · exact same.trans hold
    · exact clear
  · by_cases permitted : accessPermitted ((s.judgeHold.withWaiting rest).classify x.addr) x
    · exact .inr (State.takeAccess_permitted _ x permitted).1
    · exact .inl ((State.takeAccess_refused _ x permitted).2.1.2 ((State.judgeHold_port s).trans free))

/-- Only accesses are taken before the last turn: a HOLD that is granted has its word. -/
theorem again (h : s.Loose) (turn : Again s t) :
    t.Loose ∧ s.bus.port = .free ∧ (t.bus.port = .free ∨ t.bus.port = .upstream) := by
  cases turn with
  | access free hold waiting => exact ⟨(h.access hold free).1, free, (h.access hold free).2⟩
  | noBurst free hold word =>
    rcases State.judgeHold_hold s with same | ⟨-, -, ⟨-, wanted⟩ | ⟨loader, -⟩⟩
    · exact nomatch h.released.symm.trans (same.symm.trans hold)
    · refine absurd word (State.burstWord_ne_none ?_ ?_)
      · rw [State.judgeHold_writer, h.idle]
      · rw [State.burstWanted_of_offPort (State.judgeHold_offPort s), wanted]
    · exact nomatch hold.symm.trans loader
  | noRead free hold read =>
    rcases State.judgeHold_hold s with same | ⟨-, -, ⟨writer, -⟩ | ⟨-, waits⟩⟩
    · exact nomatch h.released.symm.trans (same.symm.trans hold)
    · exact nomatch hold.symm.trans writer
    · rcases read with none | withdrawn
      · simp [State.loaderWaiting, none] at waits
      · exact nomatch h.kept.symm.trans withdrawn

/-- The last turn is of a state with HOLD loose, and of a port that is FREE or carries an access where it was so before. -/
theorem last (h : s.Loose) (served : Served s t) :
    ∃ u, u.Loose ∧ Gives u t ∧
      (s.bus.port = .free ∨ s.bus.port = .upstream → u.bus.port = .free ∨ u.bus.port = .upstream) := by
  induction served with
  | rests last => exact ⟨_, h, last, id⟩
  | again turn _ ih =>
    obtain ⟨loose, -, port⟩ := h.again turn
    obtain ⟨u, ends, gives, opens⟩ := ih loose
    exact ⟨u, ends, gives, fun _ => opens port⟩

/-- What an event leaves of a HOLD that its effect has released: it is asserted for a party that has its reason, and at a port
that is given to it the burst begins at the ring slot of P (R149, R150). -/
theorem finish (h : s.Loose) :
    (s.finish.bus.hold = .writer → s.finish.burstWanted = true) ∧
      (s.finish.bus.hold = .loader → s.finish.loader.read ≠ none) ∧
      (s.bus.port = .free → s.finish.bus.hold = .writer → s.finish.bus.port ≠ .upstream → s.finish.writer.burst ≠ none) ∧
      (s.finish.writer.burst ≠ none →
        s.finish.holds .writer (some ⟨s.finish.slotAddr, false, false⟩) ∧
          s.finish.writer.inProgress.map InProgress.words = some 0 ∧
          s.finish.bus.port = .writer (s.finish.wordOfRecord s.finish.slotAddr 0 true) false) := by
  obtain ⟨t, served, ends⟩ := exists_served s
  obtain ⟨u, loose, last, opens⟩ := h.last served
  have settles : s.finish.offPort = t.offPort := by
    rw [ends, State.setGapTimer_offPort, State.startRecord_offPort]
  have hold : s.finish.bus.hold = u.judgeHold.bus.hold := by
    rw [ends, (State.setGapTimer_keeps _).1, (State.startRecord_keeps _).1, last.hold]
  have burst : s.finish.writer.burst = t.writer.burst := by
    rw [ends, (State.setGapTimer_keeps _).2, (State.startRecord_keeps _).2.1]
  have port : s.finish.bus.port = t.bus.port := by rw [ends, State.setGapTimer_port, State.startRecord_port]
  have off : s.finish.offPort = u.offPort := settles.trans last.offPort
  have loader : s.finish.loader = u.loader := (congrArg (fun u : State => u.loader) off :)
  refine ⟨fun writer => ?_, fun reads => ?_, fun free writer up => ?_, fun some => ?_⟩
  · rw [State.burstWanted_of_offPort off]
    rcases State.judgeHold_hold u with same | ⟨-, -, ⟨-, wanted⟩ | ⟨other, -⟩⟩
    · exact nomatch loose.released.symm.trans (same.symm.trans (hold.symm.trans writer))
    · exact wanted
    · exact nomatch writer.symm.trans (hold.trans other)
  · rw [loader]
    rcases State.judgeHold_hold u with same | ⟨-, -, ⟨other, -⟩ | ⟨-, waits⟩⟩
    · exact nomatch loose.released.symm.trans (same.symm.trans (hold.symm.trans reads))
    · exact nomatch reads.symm.trans (hold.trans other)
    · exact ((State.loaderWaiting_iff u).1 waits).1
  · rw [burst]
    refine last.begins loose.idle ?_ (hold.symm.trans writer)
    refine (opens (.inl free)).resolve_right fun carries => up ?_
    have busy : Gives u u.judgeHold := .busy (by rw [carries]; exact nofun)
    rw [port, ← last.arbitrate 0, busy.arbitrate 0, State.judgeHold_port, carries]
  · have same : s.finish = u.finish := by rw [ends, last.finish]
    rw [same]
    obtain ⟨holds, out, p, -, started⟩ := last.begun loose.idle (burst ▸ some)
    refine ⟨holds, ?_, out⟩
    rw [started]
    rfl

end State.Loose

/-! ### The effects of events, as they bear on a released HOLD -/

namespace State

variable {s : State}

/-- A state that an event has left has nothing to grant. -/
theorem settled.ungranted (h : s.settled) (p : HoldParty) : s.holdGranted p = false := by
  by_contra granted
  simp only [holdGranted, Bool.not_eq_false, Bool.and_eq_true, decide_eq_true_eq, Bool.not_eq_true', beq_iff_eq] at granted
  obtain ⟨⟨released, clear⟩, first⟩ := granted
  rw [h.heard.granted released clear] at first
  cases first

theorem settled.holdWriter (h : s.settled) : s.holdWriter = s := by
  unfold State.holdWriter
  rw [h.ungranted]
  rfl

theorem settled.holdLoader (h : s.settled) : s.holdLoader = s := by
  unfold State.holdLoader
  rw [h.ungranted]
  rfl

end State

theorem State.upstreamAnswered_hold (s : State) (data : Word) (err : Bool) :
    (s.upstreamAnswered data err).bus.hold = s.bus.hold := by
  unfold State.upstreamAnswered
  split <;> rfl

/-- From a settled state with HOLD released, the effect of every event leaves it released, and a FREE port FREE. -/
theorem exec_loose (c : Instr) {s : State} (settled : s.settled) (released : s.bus.hold = .released) :
    ∃ e : State, exec c s = .next e.finish ∧ e.Loose ∧ (s.bus.port = .free → e.bus.port = .free) := by
  have loose : s.Loose := ⟨released, settled.2.1⟩
  rcases exec_kinds c s with ⟨x, access⟩ | ⟨init, rfl⟩ | rfl | ⟨data, err, rfl⟩ | ⟨err, rfl⟩ | ⟨data, err, rfl⟩ | rfl | rfl |
    rfl | ⟨e, run, steady⟩
  · exact ⟨_, exec_access c x s access, ⟨released, settled.2.1⟩, id⟩
  · refine ⟨_, rfl, ?_, fun free => ?_⟩ <;> rw [State.restart_eq]
    · exact ⟨rfl, (Effect.reset rfl).inv settled.2.1⟩
    · change s.bus.port.discarded = .free
      rw [free]
      rfl
  · have reset : Effect s (State.fullReset { s with init := true }) :=
      .reset (r := { s with init := true }) (l := Loader.reset) rfl
    refine ⟨_, rfl, ⟨rfl, reset.inv settled.2.1⟩, fun free => ?_⟩
    change s.bus.port.discarded = .free
    rw [free]
    rfl
  · refine ⟨_, rfl, ⟨?_, (s.upstreamAnswered_effect data err).inv settled.2.1⟩, fun free => ?_⟩
    · exact (s.upstreamAnswered_hold data err).trans released
    · unfold State.upstreamAnswered
      rw [free]
      exact free
  · obtain ⟨m, cleaned, word⟩ := s.writerAnswered_cleans err
    refine ⟨_, rfl, ⟨word.released (cleaned.released released), word.inv (cleaned.inv settled.2.1)⟩, fun free => ?_⟩
    unfold State.writerAnswered
    rw [free]
    exact free
  · refine ⟨_, rfl, ⟨?_, (s.loaderAnswered_effect data err).inv settled.2.1⟩, fun free => ?_⟩
    · cases port : s.bus.port with
      | loader a discard =>
        refine (s.loaderAnswered_steady port data err).hold.trans ?_
        cases s.endsHold discard
        · exact released
        · rfl
      | _ =>
        rw [s.loaderAnswered_other (by rw [port]; exact nofun)]
        exact released
    · rw [s.loaderAnswered_other (by rw [free]; exact nofun)]
      exact free
  · exact ⟨s, congrArg (fun t : State => t.done) settled.holdWriter, loose, id⟩
  · refine ⟨_, rfl, ⟨?_, s.gapTimeout_effect.inv settled.2.1⟩, fun free => ?_⟩ <;> unfold State.gapTimeout <;> split
    · exact released
    · exact released
    · exact free
    · exact free
  · exact ⟨s, congrArg (fun t : State => t.done) settled.holdLoader, loose, id⟩
  · exact ⟨e, run, ⟨steady.hold.trans released, steady.holdInv settled.2.1⟩, steady.free.2⟩

/-- Under an asserted HOLD, an event that neither resets the part nor answers a word leaves HOLD and the burst. -/
theorem exec_held (c : Instr) {s : State} (settled : s.settled) (held : s.bus.hold ≠ .released)
    (on : ∀ init, c ≠ .powerOn init) (assert : c ≠ .initAssert) (memory : ∀ data err, c ≠ .upstreamAccessComplete data err)
    (word : ∀ err, c ≠ .writerWordComplete err) (read : ∀ data err, c ≠ .loaderReadComplete data err) :
    ∃ e : State, exec c s = .next e.finish ∧ e.bus.hold = s.bus.hold ∧ e.bus.port ≠ .free ∧
      e.writer.burst.map Burst.slot = s.writer.burst.map Burst.slot ∧
      e.writer.burst.map Burst.recordDone = s.writer.burst.map Burst.recordDone := by
  have busy : s.bus.port ≠ .free := fun free => held (settled.1 free).1
  rcases exec_kinds c s with ⟨x, access⟩ | ⟨init, rfl⟩ | rfl | ⟨data, err, rfl⟩ | ⟨err, rfl⟩ | ⟨data, err, rfl⟩ | rfl | rfl |
    rfl | ⟨e, run, steady⟩
  · exact ⟨_, exec_access c x s access, rfl, busy, rfl, rfl⟩
  · exact absurd rfl (on init)
  · exact absurd rfl assert
  · exact absurd rfl (memory data err)
  · exact absurd rfl (word err)
  · exact absurd rfl (read data err)
  · exact ⟨s, congrArg (fun t : State => t.done) settled.holdWriter, rfl, busy, rfl, rfl⟩
  · refine ⟨s.gapTimeout, rfl, ?_⟩
    unfold State.gapTimeout
    split
    · exact ⟨rfl, busy, rfl, rfl⟩
    · exact ⟨rfl, busy, rfl, rfl⟩
  · exact ⟨s, congrArg (fun t : State => t.done) settled.holdLoader, rfl, busy, rfl, rfl⟩
  · exact ⟨e, run, steady.hold, fun free => busy (steady.free.1 free), steady.slot, steady.done⟩

/-- What the end of an event leaves at a port that stays busy: HOLD as judged, and the writer but for a record that starts. -/
theorem State.finish_held {s : State} (busy : s.bus.port ≠ .free) :
    s.finish.bus.hold = s.judgeHold.bus.hold ∧ s.finish.writer.burst = s.writer.burst := by
  rw [(Gives.busy busy).finish]
  refine ⟨?_, ?_⟩
  · rw [(setGapTimer_keeps _).1, (startRecord_keeps _).1]
  · rw [(setGapTimer_keeps _).2, (startRecord_keeps _).2.1, judgeHold_writer]

/-- A settled state keeps its port, its HOLD and its burst where nothing more happens. -/
def State.Stays (s t : State) : Prop :=
  t.offPort = s.offPort ∧ t.holds s.bus.hold s.writer.burst ∧ (s.bus.port ≠ .free → t.bus.port = s.bus.port)

theorem State.settled.finish_stays {s : State} (h : s.settled) : s.Stays s.finish := by
  refine ⟨finish_settled s h, ?_, fun busy => (finish_busy s busy).2⟩
  by_cases free : s.bus.port = .free
  · obtain ⟨released, -⟩ := h.1 free
    rw [released, h.idle_of_released released]
    exact (Resting.of_settled h free rfl rfl rfl).holds
  · obtain ⟨hold, burst⟩ := finish_held free
    rw [show s.judgeHold = s from h.2.2] at hold
    exact ⟨hold, burst⟩

/-- A first word of a burst, of the record that is staged first. -/
theorem State.wordOfRecord_first {s : State} {r : Record} {rest : List Record} (staging : s.writer.staging = r :: rest) :
    s.wordOfRecord s.slotAddr 0 true = ⟨.record 0, s.slotAddr, r.words.getD 0 0#32, true, false, false⟩ := by
  unfold State.wordOfRecord State.recordWord
  rw [staging, show BitVec.ofNat 32 (4 * 0) = 0#32 from rfl, BitVec.add_zero]

/-- A settled state with HOLD released and no turn owed has no request and wants no burst. -/
theorem State.settled.at_rest {s : State} (h : s.settled) (released : s.bus.hold = .released)
    (clear : s.bus.turnOwed = false) : s.burstWanted = false ∧ s.bus.holdQueue = [] := by
  have empty := h.heard.granted released clear
  refine ⟨?_, empty⟩
  by_contra wanted
  rcases Bool.or_eq_true _ _ ▸ h.heard.asks (by simpa using wanted) with asked | deferred
  · simp [State.writerAsked, empty, released] at asked
  · rcases h.2.1.2.2 deferred with owed | writer
    · exact nomatch clear.symm.trans owed
    · exact nomatch released.symm.trans writer

/-! ### The commands of HOLD (R149, R150; log entry 45) -/

namespace State

variable {s : State}

theorem holdGranted_iff (s : State) (p : HoldParty) :
    s.holdGranted p = true ↔
      (s.bus.hold = .released ∧ s.bus.turnOwed = false) ∧ s.bus.holdQueue.head? = some p := by
  simp [holdGranted]

/-- Where HOLD is the writer's at a FREE port, and there is a record to write, the burst begins with its first word at the ring
slot of P (R149). -/
theorem burst_begins (free : s.bus.port = .free) (idle : s.writer.burst = none) (held : s.judgeHold.bus.hold = .writer)
    (word : s.judgeHold.startRecord.burstWord ≠ none) :
    s.finish.offPort = s.offPort ∧ s.finish.holds .writer (some ⟨s.slotAddr, false, false⟩) ∧
      s.finish.bus.port = .writer (s.wordOfRecord s.slotAddr 0 true) false ∧
      ∃ p, s.startRecord.writer.inProgress = some p ∧ s.finish.writer.inProgress = some { p with words := 0 } := by
  obtain ⟨⟨w, writer⟩, sends⟩ := Option.ne_none_iff_exists'.1 word
  have last := Gives.burst free held sends
  have ends : s.finish.offPort = s.offPort := by
    rw [last.finish, setGapTimer_offPort, startRecord_offPort, last.offPort]
  obtain ⟨slot, first⟩ := firstWord_of_offPort ends
  obtain ⟨⟨hold, burst⟩, out, begun⟩ := last.begun idle (last.begins idle free held)
  exact ⟨ends, ⟨hold, burst.trans (by rw [slot])⟩, out.trans (by rw [first]), begun⟩

/-- A grant that is due is made by WRITER_BURST_HOLD; at a FREE port the burst begins. -/
theorem holdWriter_ends (inv : s.holdInv) (granted : s.holdGranted .writer = true) (wanted : s.burstWanted = true) :
    s.holdWriter.finish.bus.hold = .writer ∧ s.holdWriter.finish.offPort = s.offPort ∧
      (s.bus.port ≠ .free → s.holdWriter.finish.bus.port = s.bus.port ∧ s.holdWriter.finish.writer.burst = none) ∧
      ∀ r rest, s.bus.port = .free → s.writer.staging = r :: rest →
        s.holdWriter.finish.writer.burst = some ⟨s.slotAddr, false, false⟩ ∧
          s.holdWriter.finish.bus.port = .writer ⟨.record 0, s.slotAddr, r.words.getD 0 0#32, true, false, false⟩ false ∧
          s.holdWriter.finish.writer.inProgress = some ⟨0, (s.writer.inProgress.map InProgress.second).getD false⟩ := by
  obtain ⟨⟨released, clear⟩, -⟩ := (holdGranted_iff s .writer).1 granted
  have idle : s.writer.burst = none := Loose.idle ⟨released, inv⟩
  have asserted : s.holdWriter = { s with bus := { s.bus with hold := .writer, holdQueue := s.bus.holdQueue.drop 1 } } :=
    if_pos (by rw [granted, wanted]; rfl)
  have held : s.holdWriter.judgeHold.bus.hold = .writer := by
    rw [asserted]
    exact judgeHold_asserted nofun
  have off : s.holdWriter.offPort = s.offPort := by rw [asserted]; rfl
  have same : s.holdWriter.writer = s.writer := by rw [asserted]
  have port : s.holdWriter.bus.port = s.bus.port := by rw [asserted]
  by_cases free : s.bus.port = .free
  · have resting : s.holdWriter.writer.burst = none := by rw [same, idle]
    have word : s.holdWriter.judgeHold.startRecord.burstWord ≠ none := by
      refine burstWord_ne_none (by rw [judgeHold_writer, resting]) ?_
      rw [burstWanted_of_offPort (judgeHold_offPort _), burstWanted_of_offPort off, wanted]
    obtain ⟨ends, ⟨hold, burst⟩, out, p, started, again⟩ := burst_begins (port.trans free) resting held word
    obtain ⟨slot, first⟩ := firstWord_of_offPort off
    refine ⟨hold, ends.trans off, fun busy => absurd free busy, fun r rest _ staging => ⟨by rw [burst, slot], ?_, ?_⟩⟩
    · rw [out, first, wordOfRecord_first staging]
    · rw [again]
      cases before : s.writer.inProgress with
      | some q =>
        have stays := (startRecord_keeps s.holdWriter).2.2 (by rw [same, before]; exact nofun)
        rw [stays, same, before] at started
        cases started
        rfl
      | none =>
        unfold startRecord at started
        split at started
        · cases started
          rfl
        · rw [same, before] at started
          cases started
  · have busy : s.holdWriter.bus.port ≠ .free := by rwa [port]
    obtain ⟨hold, burst⟩ := finish_held busy
    obtain ⟨offBusy, portBusy⟩ := finish_busy _ busy
    exact ⟨hold.trans held, offBusy.trans off, fun _ => ⟨portBusy.trans port, by rw [burst, same, idle]⟩,
      fun _ _ at' => absurd at' free⟩

/-- Where the judgement leaves HOLD with the loader its read goes out at a FREE port. -/
theorem loaderHeld_ends {r : TableRead} (held : s.judgeHold.bus.hold = .loader) (idle : s.writer.burst = none)
    (kept : s.bus.holdWithdrawn = false) (reads : s.loader.read = some r) :
    s.finish.holds .loader none ∧ s.finish.offPort = s.offPort ∧
      s.finish.bus.port = if s.bus.port = .free then .loader r.next false else s.bus.port := by
  by_cases free : s.bus.port = .free
  · have last : Gives s (s.judgeHold.sendLoader r) := .read free held reads kept
    rw [if_pos free, last.finish]
    refine ⟨⟨?_, ?_⟩, ?_, ?_⟩
    · rw [(setGapTimer_keeps _).1, (startRecord_keeps _).1]
      exact held
    · rw [(setGapTimer_keeps _).2, (startRecord_keeps _).2.1]
      exact (congrArg Writer.burst (judgeHold_writer s)).trans idle
    · rw [setGapTimer_offPort, startRecord_offPort, last.offPort]
    · rw [setGapTimer_port, startRecord_port]
      rfl
  · obtain ⟨same, burst⟩ := finish_held free
    obtain ⟨off, port⟩ := finish_busy _ free
    rw [if_neg free]
    exact ⟨⟨same.trans held, burst.trans idle⟩, off, port⟩

/-- The state with these requests for HOLD standing. -/
def withQueue (s : State) (q : List HoldParty) : State := { s with bus := { s.bus with holdQueue := q } }

/-- HOLD comes for the read at once where the loader's is the only request. -/
theorem loaderRequested_ends {q : List HoldParty} (loose : s.Loose) (clear : s.bus.turnOwed = false)
    (first : (s.withQueue q).requests = [.loader]) {r : TableRead} (reads : s.loader.read = some r) :
    (s.withQueue q).finish.holds .loader none ∧
      (s.withQueue q).finish.bus.port = if s.bus.port = .free then .loader r.next false else s.bus.port := by
  have released : (s.withQueue q).bus.hold = .released := loose.released
  have idle : (s.withQueue q).writer.burst = none := loose.idle
  have kept : (s.withQueue q).bus.holdWithdrawn = false := loose.kept
  have held : (s.withQueue q).judgeHold.bus.hold = .loader := by
    rw [judgeHold_grants released clear first]
    rfl
  obtain ⟨holds, -, port⟩ := loaderHeld_ends held idle kept reads
  exact ⟨holds, port⟩

/-- Requests that are added to those heard, each with its reason, all stand. -/
theorem withQueue_requests {q : List HoldParty} (heard : s.Heard) (more : ∀ p ∈ s.bus.holdQueue, p ∈ q)
    (writer : HoldParty.writer ∈ q → s.burstWanted = true) (waits : s.loaderWaiting = true) :
    (s.withQueue q).requests = q := by
  refine requests_eq_queue (s := s.withQueue q) (fun wanted => ?_) writer fun _ => waits
  have asked := heard.asks wanted
  simp only [writerAsked, List.contains_eq_mem, Bool.or_eq_true, decide_eq_true_eq] at asked ⊢
  exact asked.imp_left (Or.imp_left (more _))

/-- Where HOLD cannot be asserted and the port is busy, other requests change nothing else. -/
theorem withQueue_stays {q : List HoldParty} (shut : ¬ (s.bus.hold = .released ∧ s.bus.turnOwed = false))
    (busy : s.bus.port ≠ .free) : s.Stays (s.withQueue q).finish := by
  obtain ⟨off, port⟩ := finish_busy (s.withQueue q) busy
  obtain ⟨held, burst⟩ := finish_held (s := s.withQueue q) busy
  refine ⟨off, ⟨held.trans ?_, burst⟩, fun _ => port⟩
  rw [judgeHold_stays (s := s.withQueue q) fun released clear => absurd ⟨released, clear⟩ shut]
  rfl

theorem withQueue_stand {q : List HoldParty} (shut : ¬ (s.bus.hold = .released ∧ s.bus.turnOwed = false))
    (busy : s.bus.port ≠ .free) (waits : s.loaderWaiting = true) (still : (s.withQueue q).requests = q) :
    (s.withQueue q).finish.bus.holdQueue = q := by
  have judged := judgeHold_stays (s := s.withQueue q) fun released clear => absurd ⟨released, clear⟩ shut
  have last : Gives (s.withQueue q) (s.withQueue q).judgeHold := .busy busy
  have waitsAfter : (s.withQueue q).judgeHold.startRecord.loaderWaiting = true := by
    have off : (s.withQueue q).judgeHold.startRecord.offPort = s.offPort := by
      rw [startRecord_offPort, judgeHold_offPort]
      rfl
    have loader : (s.withQueue q).judgeHold.startRecord.loader = s.loader := (congrArg (fun u : State => u.loader) off :)
    have port : (s.withQueue q).judgeHold.startRecord.bus.port = s.bus.port := by
      rw [startRecord_port, judgeHold_port]
      rfl
    unfold loaderWaiting
    rw [loader, port]
    exact waits
  rw [last.finish, setGapTimer, if_pos waitsAfter]
  change (s.withQueue q).judgeHold.startRecord.bus.holdQueue = _
  rw [(startRecord_keeps _).1, judged, still]
  rfl

theorem gapTimeout_queue (s : State) : ∃ q, s.gapTimeout = s.withQueue q := by
  unfold gapTimeout
  split
  · exact ⟨_, rfl⟩
  · exact ⟨_, rfl⟩

theorem gapTimeout_rests (rests : s.loaderWaiting = false) : s.gapTimeout = s := by
  unfold gapTimeout
  rw [rests]
  rfl

/-- LOADER_GAP_TIMEOUT makes the loader's request behind those there, where its read waits and none stands. -/
theorem gapTimeout_eq (waits : s.loaderWaiting = true) (other : s.bus.hold ≠ .loader)
    (unasked : HoldParty.loader ∉ s.bus.holdQueue) :
    s.gapTimeout = s.withQueue (s.bus.holdQueue ++ [.loader]) :=
  if_pos (by simp [waits, other, unasked])

/-- LOADER_GAP_TIMEOUT in a state that an event has left: HOLD is asserted for the read, or the request waits (R150). -/
theorem gapTimeout_ends (settled : s.settled) {r : TableRead} (reads : s.loader.read = some r)
    (off : s.bus.port.carriesRead = false) :
    (s.bus.hold = .released ∧ s.bus.turnOwed = false → s.gapTimeout.finish.holds .loader none ∧
      s.gapTimeout.finish.bus.port = if s.bus.port = .free then .loader r.next false else s.bus.port) ∧
      (¬ (s.bus.hold = .released ∧ s.bus.turnOwed = false) → s.bus.port ≠ .free → s.Stays s.gapTimeout.finish ∧
        (s.bus.hold ≠ .loader → HoldParty.loader ∉ s.bus.holdQueue →
          s.gapTimeout.finish.bus.holdQueue = s.bus.holdQueue ++ [.loader])) := by
  have waits : s.loaderWaiting = true := (loaderWaiting_iff s).2 ⟨by rw [reads]; exact nofun, off⟩
  have requested : HoldParty.writer ∈ s.bus.holdQueue ++ [.loader] → s.burstWanted = true := fun mem =>
    settled.heard.writer ((List.mem_append.1 mem).resolve_right (by simp))
  refine ⟨fun ⟨released, clear⟩ => ?_, fun shut busy => ⟨?_, fun other unasked => ?_⟩⟩
  · obtain ⟨content, empty⟩ := settled.at_rest released clear
    have loose : s.Loose := ⟨released, settled.2.1⟩
    have made := gapTimeout_eq waits (by rw [released]; exact nofun) (by rw [empty]; exact nofun)
    rw [made]
    have first : (s.withQueue (s.bus.holdQueue ++ [.loader])).requests = [.loader] :=
      (withQueue_requests settled.heard (fun _ => List.mem_append_left _) requested waits).trans (by rw [empty]; rfl)
    exact loaderRequested_ends loose clear first reads
  · obtain ⟨q, made⟩ := s.gapTimeout_queue
    rw [made]
    exact withQueue_stays shut busy
  · rw [gapTimeout_eq waits other unasked]
    exact withQueue_stand shut busy waits
      (withQueue_requests settled.heard (fun _ => List.mem_append_left _) requested waits)

end State

/-- What every event leaves of the requests and the gap timer, in the words of R149 and R150. -/
theorem hold_after_event (c : Instr) (s : State) :
    Completes c s fun t =>
      let asks := 8 ≤ t.writer.staging.length ∧ (t.writer.producer - t.writer.consumer).toNat < t.ringSize
      let waits := t.loader.read ≠ none ∧ t.bus.port.carriesRead = false
      (¬ asks → HoldParty.writer ∉ t.bus.holdQueue) ∧
        (asks → t.bus.hold ≠ .writer → t.bus.writerDeferred = false → HoldParty.writer ∈ t.bus.holdQueue) ∧
        (waits → t.bus.gapTimer ≠ none) ∧
        (¬ waits → t.bus.gapTimer = none ∧ HoldParty.loader ∉ t.bus.holdQueue) := by
  have ended : ∃ e : State, exec c s = .next e.finish := by
    rcases exec_effect c s with ⟨err, rfl⟩ | ⟨e, run, -⟩
    · exact ⟨_, rfl⟩
    · exact ⟨e, run⟩
  obtain ⟨e, run⟩ := ended
  obtain ⟨wants, asks, runs, rests⟩ := e.finish_requests
  refine ⟨_, run, ?_⟩
  dsimp only
  rw [← State.burstWanted_iff, ← State.loaderWaiting_iff]
  exact ⟨mt wants, asks, runs, fun still => rests (Bool.not_eq_true _ ▸ still)⟩

/-- The judgement after an access has been taken from a FREE port: the request that stood first is granted, or the writer's new
one. -/
theorem judgeHold_taken {s : State} {x : Access} (settled : s.settled) (free : s.bus.port = .free) :
    (s.taken x).judgeHold.bus.hold =
      match s.bus.holdQueue.head? with
      | some .writer => .writer
      | some .loader => .loader
      | none => if s.burstWanted then .writer else .released := by
  obtain ⟨heard, loader, -⟩ := (State.holdJudged_iff s).1 settled.2.2
  have released : s.bus.hold = .released := (settled.1 free).1
  have waits : (s.taken x).loaderWaiting = s.loaderWaiting := by
    unfold State.loaderWaiting
    rw [free]
    rfl
  have requests := State.requests_eq_append (s := s.taken x) heard.writer fun mem => waits.trans (loader mem)
  have grants : ∀ p rest, (s.taken x).requests = p :: rest → (s.taken x).judgeHold.bus.hold = p.hold := fun p rest first =>
    congrArg (fun u : State => u.bus.hold) (State.judgeHold_grants (s := s.taken x) released rfl first)
  change (s.taken x).requests = s.bus.holdQueue ++ _ at requests
  cases queue : s.bus.holdQueue with
  | cons p rest =>
    rw [queue] at requests
    rw [grants p _ requests]
    cases p <;> rfl
  | nil =>
    have unasked : (s.taken x).writerAsked = false := by
      simp [State.writerAsked, State.taken, queue, released]
    rw [queue, unasked] at requests
    cases wanted : s.burstWanted with
    | true =>
      rw [show (s.taken x).burstWanted = s.burstWanted from rfl, wanted] at requests
      exact grants .writer [] requests
    | false =>
      rw [show (s.taken x).burstWanted = s.burstWanted from rfl, wanted] at requests
      rw [State.judgeHold_stays (s := s.taken x) fun _ _ => requests]
      exact released

/-- An access that only passes clears an owed turn, and HOLD comes for the party whose request stands first (R149). -/
theorem plainAccess_ends {s : State} {x : Access} (once : s.takesAtOnce) (plain : s.classify x.addr = .plain) :
    (s.present x).finish.bus.port = .upstream ∧ (s.present x).finish.bus.turnOwed = false ∧
      (s.present x).finish.bus.hold =
        match s.bus.holdQueue.head? with
        | some .writer => .writer
        | some .loader => .loader
        | none => if s.burstWanted then .writer else .released := by
  have released : s.bus.hold = .released := (once.2.1 once.1).1
  have permitted : accessPermitted (s.classify x.addr) x := by
    rw [plain]
    unfold accessPermitted
    split <;> rfl
  have taken : s.takeAccess x = s.taken x := by
    rw [State.takeAccess_eq s x permitted, plain]
    split <;> rfl
  have busy : (s.taken x).bus.port ≠ .free := nofun
  have last : Gives (s.taken x) (s.taken x).judgeHold := .busy busy
  rw [State.present_finish s x once, taken]
  refine ⟨(State.finish_busy _ busy).2, ?_, ?_⟩
  · exact (congrArg (fun u : State => u.bus.turnOwed) (State.finish_busy _ busy).1 :)
  · rw [(State.finish_held busy).1]
    exact judgeHold_taken once.2 once.1

/-- What every event makes of HOLD, from a state that an event has left. -/
theorem hold_in_event (c : Instr) (s : State) (settled : s.settled) :
    Completes c s fun t => t.settled ∧
      (s.bus.hold = .released →
        (t.bus.hold = .writer → t.burstWanted = true) ∧ (t.bus.hold = .loader → t.loader.read ≠ none) ∧
          (s.bus.port = .free → t.bus.hold = .writer → t.bus.port ≠ .upstream → t.writer.burst ≠ none) ∧
          (t.writer.burst ≠ none →
            t.holds .writer (some ⟨t.slotAddr, false, false⟩) ∧ t.writer.inProgress.map InProgress.words = some 0 ∧
              t.bus.port = .writer (t.wordOfRecord t.slotAddr 0 true) false)) := by
  obtain ⟨t, run, -, settles, -⟩ := everyCommandSettlesPort c s
  refine ⟨t, run, settles settled.2.1, fun released => ?_⟩
  obtain ⟨e, run', loose, free⟩ := exec_loose c settled released
  obtain rfl : t = e.finish := by
    rw [run] at run'
    cases run'
    rfl
  obtain ⟨writer, loader, begins, begun⟩ := loose.finish
  exact ⟨writer, loader, fun at' => begins (free at'), begun⟩

/-- Settles O50. -/
theorem holdEvents : Obligations.HoldEvents := by
  refine ⟨fun c s => ?_, fun s x once plain _ => ?_, fun s => ?_⟩
  · obtain ⟨t, run, unasked, asked, runs, rests⟩ := hold_after_event c s
    refine ⟨t, run, unasked, asked, runs, rests, fun settled => ?_⟩
    obtain ⟨t', run', settledAfter, released⟩ := hold_in_event c s settled
    obtain rfl : t = t' := by
      rw [run] at run'
      cases run'
      rfl
    rw [← State.burstWanted_iff]
    refine ⟨fun free clear => ?_, fun free => ?_, fun held on assert memory word read => ?_⟩
    · obtain ⟨content, empty⟩ := settledAfter.at_rest free clear
      exact ⟨by rw [content]; exact nofun, empty⟩
    · obtain ⟨writer, loader, begins, begun⟩ := released free
      refine ⟨writer, loader, begins, fun some => ?_⟩
      obtain ⟨holds, first, out⟩ := begun some
      exact ⟨holds, first, fun r rest staging => by rw [out, State.wordOfRecord_first staging]⟩
    · obtain ⟨e, run', hold, busy, slot, done⟩ := exec_held c settled held on assert memory word read
      obtain rfl : t = e.finish := by
        rw [run] at run'
        cases run'
        rfl
      obtain ⟨held', burst⟩ := State.finish_held busy
      rw [held', burst, State.judgeHold_asserted (by rwa [hold])]
      exact ⟨hold, slot, done⟩
  · exact ⟨_, rfl, plainAccess_ends once plain⟩
  · refine ⟨s.holdGranted_iff .writer, s.holdGranted_iff .loader, fun settled => ⟨⟨_, rfl, ?_⟩, ⟨_, rfl, ?_⟩⟩,
      fun ⟨inv, _⟩ granted wanted => ⟨_, rfl, State.holdWriter_ends inv granted wanted⟩,
      fun r ⟨inv, _⟩ granted reads off => ⟨_, rfl, ?_⟩, fun settled => ⟨_, rfl, ?_, fun idle => ?_, fun r reads off => ?_⟩⟩
    · rw [settled.holdWriter]
      exact settled.finish_stays
    · rw [settled.holdLoader]
      exact settled.finish_stays
    · obtain ⟨⟨released, -⟩, -⟩ := (s.holdGranted_iff .loader).1 granted
      have loose : s.Loose := ⟨released, inv⟩
      have asserted : s.holdLoader =
          { s with bus := { s.bus with hold := .loader, holdQueue := s.bus.holdQueue.drop 1 } } := by
        have waits : s.loaderWaiting = true := s.loaderWaiting_iff.2 ⟨by rw [reads]; exact nofun, off⟩
        exact if_pos (by rw [granted, waits]; rfl)
      rw [asserted]
      exact State.loaderHeld_ends (State.judgeHold_asserted nofun) loose.idle loose.kept reads
    · obtain ⟨q, made⟩ := s.gapTimeout_queue
      have port : s.gapTimeout.portSettled := by
        rw [made]
        exact settled.portSettled
      refine (finish_endsAs port rfl).offPort.trans ?_
      rw [made]
      rfl
    · rw [State.gapTimeout_rests (by simp [State.loaderWaiting, idle])]
      exact settled.finish_stays
    · exact State.gapTimeout_ends settled reads off

end Sys2Proof.Machine
end

section
namespace Sys2Proof.Machine

/-! ## What goes out in a gap (R148, R157, R158, R163) -/

/-- The ring slot of P. -/
theorem State.slotAddr_eq {s : State} {w : WindowEntry} (ring : s.ring = some w) :
    s.slotAddr = w.base + BitVec.ofNat 32 (32 * (s.writer.producer.toNat % (2 ^ w.sizeLog / 32))) := by
  unfold State.slotAddr
  rw [ring]
  rfl

/-- A word of the oldest record that is staged. -/
theorem State.wordOfRecord_eq {s : State} {r : Record} {rest : List Record} (staging : s.writer.staging = r :: rest)
    (slot : Word) (k : Nat) (burst : Bool) :
    s.wordOfRecord slot k burst = ⟨.record k, slot + BitVec.ofNat 32 (4 * k), r.words.getD k 0#32, burst, false, false⟩ := by
  unfold State.wordOfRecord State.recordWord
  rw [staging]

namespace State

variable {s : State}

/-- A record starts, or does not, whatever the bus pass unit does. -/
theorem startRecord_withBus (s : State) (b : Bus) :
    State.startRecord { s with bus := b } = { s.startRecord with bus := b } := by
  unfold startRecord
  change (if (s.writer.inProgress.isNone && !s.writer.staging.isEmpty && s.ringHasRoom) = true then _ else _) = _
  split <;> rfl

theorem startRecord_inProgress (s : State) :
    s.startRecord.writer.inProgress =
      if s.writer.inProgress = none ∧ s.writer.staging ≠ [] ∧
          (s.writer.producer - s.writer.consumer).toNat < s.ringSize then some ⟨0, false⟩
      else s.writer.inProgress := by
  have starts : (s.writer.inProgress.isNone && !s.writer.staging.isEmpty && s.ringHasRoom) = true ↔
      s.writer.inProgress = none ∧ s.writer.staging ≠ [] ∧
        (s.writer.producer - s.writer.consumer).toNat < s.ringSize := by
    rw [Bool.and_eq_true, Bool.and_eq_true, Option.isNone_iff_eq_none, Bool.not_eq_true', List.isEmpty_eq_false_iff,
      and_assoc]
    unfold ringHasRoom
    rw [decide_eq_true_iff]
    rfl
  unfold startRecord
  by_cases now : s.writer.inProgress = none ∧ s.writer.staging ≠ [] ∧
      (s.writer.producer - s.writer.consumer).toNat < s.ringSize
  · rw [if_pos (starts.2 now), if_pos now]
  · rw [if_neg (mt starts.1 now), if_neg now]

/-- A record that has started, or cannot, does not start again. -/
theorem startRecord_again (s : State) : s.startRecord.startRecord = s.startRecord := by
  by_cases starts : (s.writer.inProgress.isNone && !s.writer.staging.isEmpty && s.ringHasRoom) = true
  · have started : s.startRecord = { s with writer := { s.writer with inProgress := some ⟨0, false⟩ } } := if_pos starts
    rw [started]
    rfl
  · have same : s.startRecord = s := if_neg starts
    rw [same, same]

/-- The word of the writer's that goes out in a gap, as it stands on the port. -/
def gapPort (s : State) : Port := s.startRecord.gapWord.elim .free fun w => .writer w false

/-- What the last turn sends in a gap: the loader's read before a word of the writer's (R148). -/
theorem gapChoice_sends (s : State) (free : s.bus.port = .free) :
    s.gapChoice.startRecord.writer.inProgress = s.startRecord.writer.inProgress ∧
      (s.loader.read = none → s.gapChoice.bus.port = s.gapPort) ∧ s.gapChoice.bus.port ≠ .upstream := by
  have still : ∀ (t : State) (b : Bus), t.startRecord.writer = s.startRecord.writer →
      (State.startRecord { t with bus := b }).writer = s.startRecord.writer := fun t b same => by
    rw [startRecord_withBus]
    exact same
  unfold gapPort gapChoice
  cases s.loader.read with
  | some r => exact ⟨congrArg Writer.inProgress (still s { s.bus with port := .loader r.next false } rfl), nofun, nofun⟩
  | none =>
    cases s.startRecord.gapWord with
    | some w =>
      have again := still s.startRecord { s.startRecord.bus with port := .writer w false } (by rw [startRecord_again])
      exact ⟨congrArg Writer.inProgress again, fun _ => rfl, nofun⟩
    | none => exact ⟨rfl, fun _ => free, by rw [free]; exact nofun⟩

theorem startRecord_eq (s : State) :
    s.startRecord = { s with writer := { s.writer with inProgress := s.startRecord.writer.inProgress } } := by
  unfold startRecord
  split <;> rfl

/-- The writer's choice of a word in a gap, once the record in progress is known (R158). -/
theorem gapPort_eq {m : WindowEntry} {tab : Table} (table : s.table = some tab) (mirror : tab.window .mirror = some m) :
    s.gapPort =
      if s.writer.mirrorDirty.getD 4 false then .writer (s.mirrorOut m.base 4 false) false
      else s.startRecord.writer.inProgress.elim
        ((s.dirtyMirror.elim s.nextResultWord fun i => some (s.mirrorOut m.base i false)).elim .free fun w => .writer w false)
        fun p => .writer (s.wordOfRecord s.slotAddr p.words false) false := by
  unfold gapPort
  rw [startRecord_eq s]
  generalize s.startRecord.writer.inProgress = p
  have installed : (s.table.bind fun t => t.window .mirror) = some m := by
    rw [table]
    exact mirror
  unfold gapWord
  change Option.elim (match s.table.bind fun t => t.window .mirror with | none => none | some m => _) _ _ = _
  rw [installed]
  change Option.elim (if s.writer.mirrorDirty.getD 4 false = true then _ else
    match p with
    | some p => some (s.wordOfRecord s.slotAddr p.words false)
    | none => match s.dirtyMirror with
      | some i => some (s.mirrorOut m.base i false)
      | none => s.nextResultWord) _ _ = _
  split
  · rfl
  · cases p with
    | some p => rfl
    | none => cases s.dirtyMirror <;> rfl

/-- The lowest dirty word of the mirror. -/
theorem dirtyMirror_eq_some {i : Nat} (hi : i < 40) (on : s.writer.mirrorDirty.getD i false = true)
    (least : ∀ j < i, s.writer.mirrorDirty.getD j false = false) : s.dirtyMirror = some i :=
  List.find?_range_eq_some.2 ⟨on, List.mem_range.2 hi, fun j lt => by rw [least j lt]; rfl⟩

theorem dirtyMirror_eq_none (clean : ∀ i < 40, s.writer.mirrorDirty.getD i false = false) : s.dirtyMirror = none :=
  List.find?_range_eq_none.2 fun i hi => by rw [clean i hi]; rfl

/-- The feeders before a feeder, in order. -/
theorem Fid.all_split : ∀ f : Fid, Fid.all = Fid.all.take f.val ++ f :: Fid.all.drop (f.val + 1) ∧
    ∀ g ∈ Fid.all.take f.val, g < f := by decide

/-- A feeder without a REFERENCE window, or with a clean result slot, has no word to write. -/
theorem resultWord_eq_none {f : Fid}
    (clean : s.referenceWindow f = none ∨ ∀ i < 8, (s.writer.resultDirty.get f).getD i false = false) :
    ((s.referenceWindow f).bind fun w => (s.dirtyResult f).map fun i => s.resultOut w f i) = none := by
  rcases clean with absent | clean
  · rw [absent]
    rfl
  · have none : s.dirtyResult f = none := List.find?_range_eq_none.2 fun i hi => by rw [clean i hi]; rfl
    rw [none]
    cases s.referenceWindow f <;> rfl

/-- The first result word that the writer can write (R158 step 4). -/
theorem nextResultWord_eq_some {f : Fid} {x : WindowEntry} {i : Nat} (hi : i < 8) (window : s.referenceWindow f = some x)
    (on : (s.writer.resultDirty.get f).getD i false = true)
    (least : ∀ j < i, (s.writer.resultDirty.get f).getD j false = false)
    (before : ∀ g < f, s.referenceWindow g = none ∨ ∀ i < 8, (s.writer.resultDirty.get g).getD i false = false) :
    s.nextResultWord = some (s.resultOut x f i) := by
  have word : s.dirtyResult f = some i :=
    List.find?_range_eq_some.2 ⟨on, List.mem_range.2 hi, fun j lt => by rw [least j lt]; rfl⟩
  obtain ⟨order, lower⟩ := Fid.all_split f
  refine List.findSome?_eq_some_iff.2 ⟨_, f, _, order, ?_, fun g mem => resultWord_eq_none (before g (lower g mem))⟩
  rw [window, word]
  rfl

theorem nextResultWord_eq_none
    (clean : ∀ f, s.referenceWindow f = none ∨ ∀ i < 8, (s.writer.resultDirty.get f).getD i false = false) :
    s.nextResultWord = none :=
  List.findSome?_eq_none_iff.2 fun f _ => resultWord_eq_none (clean f)

section GapWord

variable {tab : Table} {m : WindowEntry} (table : s.table = some tab) (mirror : tab.window .mirror = some m)

include table mirror

/-- A dirty producer word goes first. -/
theorem gapPort_producer (dirty : s.writer.mirrorDirty.getD 4 false = true) :
    s.gapPort = .writer ⟨.mirror 4, m.base + 16#32, s.writer.producer.setWidth 32, false, false, false⟩ false := by
  rw [gapPort_eq table mirror, if_pos dirty]
  rfl

variable (clean : s.writer.mirrorDirty.getD 4 false = false)

include clean

/-- Then the next word of the record in progress, in its ring slot. -/
theorem gapPort_record {w : WindowEntry} {p : InProgress} {r : Record} {rest : List Record} (ring : s.ring = some w)
    (started : s.startRecord.writer.inProgress = some p) (staging : s.writer.staging = r :: rest) :
    s.gapPort = .writer ⟨.record p.words,
      w.base + BitVec.ofNat 32 (32 * (s.writer.producer.toNat % (2 ^ w.sizeLog / 32))) + BitVec.ofNat 32 (4 * p.words),
      r.words.getD p.words 0#32, false, false, false⟩ false := by
  rw [gapPort_eq table mirror, clean, started, ← slotAddr_eq ring, ← wordOfRecord_eq staging]
  rfl

/-- Then the lowest dirty word of the mirror. -/
theorem gapPort_mirror (idle : s.startRecord.writer.inProgress = none) {i : Nat} (lowest : s.dirtyMirror = some i) :
    s.gapPort =
      .writer ⟨.mirror i, m.base + BitVec.ofNat 32 (4 * i), s.mirrorWord i, false, false, false⟩ false := by
  rw [gapPort_eq table mirror, clean, idle, lowest]
  rfl

/-- Then a result word, or nothing. -/
theorem gapPort_rest (idle : s.startRecord.writer.inProgress = none) (shown : s.dirtyMirror = none) :
    s.gapPort = s.nextResultWord.elim .free fun w => .writer w false := by
  rw [gapPort_eq table mirror, clean, idle, shown]
  rfl

end GapWord

/-! ## What the port is given when it is freed (R148, R149, R150) -/

/-- Nothing that HOLD turns on differs in a state whose port another party has left. -/
theorem settled.judged {e : State} (settled : s.settled)
    (bus : (e.bus.hold, e.bus.turnOwed, e.bus.holdQueue, e.bus.writerDeferred, e.bus.gapTimer, e.bus.holdWithdrawn) =
      (s.bus.hold, s.bus.turnOwed, s.bus.holdQueue, s.bus.writerDeferred, s.bus.gapTimer, s.bus.holdWithdrawn))
    (writer : e.writer = s.writer) (wanted : e.burstWanted = s.burstWanted) (waits : e.loaderWaiting = s.loaderWaiting) :
    e.judgeHold = e ∧ e.holdInv := by
  obtain ⟨⟨asks, request, granted⟩, loader, gap⟩ := (holdJudged_iff s).1 settled.2.2
  obtain ⟨burst, withdrawn, deferral⟩ := settled.2.1
  simp only [Prod.mk.injEq] at bus
  obtain ⟨hold, owed, queue, deferred, timer, given⟩ := bus
  have asked : e.writerAsked = s.writerAsked := by
    unfold writerAsked
    rw [hold, queue, writer]
  refine ⟨(holdJudged_iff e).2 ⟨⟨?_, ?_, ?_⟩, ?_, ?_⟩, ?_, ?_, ?_⟩
  · rwa [wanted, asked, deferred]
  · rwa [wanted, queue]
  · rwa [hold, owed, queue]
  · rwa [waits, queue]
  · unfold gapTime at gap ⊢
    rwa [waits, timer]
  · rwa [hold, writer]
  · rwa [hold, given]
  · rwa [hold, owed, deferred]

theorem judgeHold_gapPort (s : State) : s.judgeHold.gapPort = s.gapPort := by
  obtain ⟨h, q, g, e, -⟩ := judgeHold_eq s
  unfold gapPort
  rw [e, show s.withHold h q g = { s with bus := (s.withHold h q g).bus } from rfl, startRecord_withBus]
  rfl

/-- The port freed with HOLD released and no access waiting: a word of the part's own goes out, or none (R148). -/
theorem Resting.gap (h : s.Resting) (free : s.bus.port = .free) :
    s.finish.bus.port ≠ .upstream ∧ s.finish.writer.inProgress = s.startRecord.writer.inProgress ∧
      (s.loader.read = none → s.finish.bus.port = s.gapPort) := by
  have last := Gives.gap free h.judged (h.alone free)
  obtain ⟨inProgress, word, other⟩ := gapChoice_sends s.judgeHold ((judgeHold_port s).trans free)
  have port : s.finish.bus.port = s.judgeHold.gapChoice.bus.port := by
    rw [last.finish, setGapTimer_port, startRecord_port]
  refine ⟨by rwa [port], ?_, fun none => ?_⟩
  · rw [last.finish, (setGapTimer_keeps _).2, inProgress, judgeHold_startRecord]
  · rw [port, word (by rw [judgeHold_loader, none]), judgeHold_gapPort]

theorem Resting.of_judged (judged : s.judgeHold = s) (inv : s.holdInv) (released : s.bus.hold = .released)
    (alone : s.bus.waiting = []) : s.Resting :=
  ⟨released, Loose.idle ⟨released, inv⟩, by rw [judged]; exact released, fun _ => alone⟩

end State

/-- No event that finds no access waiting gives the port to one. -/
theorem Served.port_ne_upstream {s t : State} (served : Served s t) (alone : s.bus.waiting = [])
    (other : s.bus.port ≠ .upstream) : t.bus.port ≠ .upstream := by
  induction served with
  | rests last =>
    cases last with
    | busy => rwa [State.judgeHold_port]
    | gap free => exact (State.gapChoice_sends _ ((State.judgeHold_port _).trans free)).2.2
    | burst => exact nofun
    | read => exact nofun
  | again turn _ ih =>
    cases turn with
    | access _ _ waiting => exact nomatch alone.symm.trans waiting
    | noBurst => exact ih ((State.judgeHold_waiting_eq _).trans alone) (by rw [← State.judgeHold_port] at other; exact other)
    | noRead => exact ih ((State.judgeHold_waiting_eq _).trans alone) (by rw [← State.judgeHold_port] at other; exact other)

end Sys2Proof.Machine
end

section
namespace Sys2Proof.Machine

/-! ## An access that has waited (R146, R148, R151) -/

namespace State

variable {s : State}

theorem judgeHold_classify (s : State) (a : Word) : s.judgeHold.classify a = s.classify a :=
  (congrArg (fun u : State => u.classify a) (judgeHold_offPort s) :)

theorem judgeHold_downAddr (s : State) (c : AccessClass) (x : Access) : s.judgeHold.downAddr c x = s.downAddr c x :=
  (congrArg (fun u : State => u.downAddr c x) (judgeHold_offPort s) :)

/-- What a permitted access that is taken leaves of the bus pass unit besides HOLD. -/
theorem takeAccess_current {x : Access} (permitted : accessPermitted (s.classify x.addr) x) :
    (s.takeAccess x).bus.current = some ⟨x, s.classify x.addr, s.downAddr (s.classify x.addr) x⟩ := by
  rw [takeAccess_eq s x permitted]
  split
  · obtain ⟨-, -, -, -, current⟩ := handOff_keepsBus (s.taken x) (s.classify x.addr) x
    exact current
  · rfl

theorem takeAccess_answer {x : Access} (permitted : accessPermitted (s.classify x.addr) x) :
    (s.takeAccess x).bus.answer = s.bus.answer := by
  rw [takeAccess_eq s x permitted]
  split
  · rcases handOff_cases (s.taken x) (s.classify x.addr) x with e | aside
    · rw [e, restart_eq]
      rfl
    · exact aside.answer
  · rfl

/-- The access that has waited longest is taken at a FREE port whose HOLD stays released (R148). -/
theorem waiting_taken {x : Access} {rest : List Access} (free : s.bus.port = .free)
    (released : s.judgeHold.bus.hold = .released) (waiting : s.bus.waiting = x :: rest)
    (permitted : accessPermitted (s.classify x.addr) x) :
    s.finish = ((s.judgeHold.withWaiting rest).takeAccess x).finish ∧ s.finish.bus.port = .upstream ∧
      s.finish.bus.answer = s.bus.answer ∧ s.finish.bus.waiting = rest ∧ s.finish.bus.turnOwed = false ∧
      s.finish.bus.current = some ⟨x, s.classify x.addr, s.downAddr (s.classify x.addr) x⟩ := by
  have turn : Again s ((s.judgeHold.withWaiting rest).takeAccess x) := .access free released waiting
  have class' : (s.judgeHold.withWaiting rest).classify x.addr = s.classify x.addr := judgeHold_classify s x.addr
  have address : (s.judgeHold.withWaiting rest).downAddr = s.judgeHold.downAddr := rfl
  have allowed : accessPermitted ((s.judgeHold.withWaiting rest).classify x.addr) x := by rwa [class']
  obtain ⟨up, waits⟩ := takeAccess_permitted (s.judgeHold.withWaiting rest) x allowed
  obtain ⟨off, port⟩ := finish_busy ((s.judgeHold.withWaiting rest).takeAccess x) (by rw [up]; exact nofun)
  have field : ∀ {α : Type} (g : State → α), g ((s.judgeHold.withWaiting rest).takeAccess x).finish.offPort =
      g ((s.judgeHold.withWaiting rest).takeAccess x).offPort := fun g => congrArg g off
  rw [turn.finish]
  refine ⟨rfl, port.trans up, ?_, ?_, ?_, ?_⟩
  · refine (field fun u => u.bus.answer).trans ((takeAccess_answer allowed).trans ?_)
    exact (congrArg (fun u : State => u.bus.answer) (judgeHold_offPort s) :)
  · exact (field fun u => u.bus.waiting).trans waits
  · exact (field fun u => u.bus.turnOwed).trans (takeAccess_takes _ x).owed
  · refine (field fun u => u.bus.current).trans ((takeAccess_current allowed).trans ?_)
    rw [class', address, judgeHold_downAddr]

/-- The end of an event that finds one access waiting is that access's own command, where nothing waited. -/
theorem exec_waited {k : Instr} {x : Access} (command : accessOf k = some x) (waiting : s.bus.waiting = [x]) :
    exec k (s.withWaiting []) = .next s.finish := by
  have presented : (s.withWaiting []).present x = s := by
    change { s with bus := { s.bus with waiting := [x] } } = s
    rw [← waiting]
  rw [exec_access k x _ command, presented]

/-! ### A refused access that has waited (R144, R149) -/

/-- The oldest record that is staged stays the oldest when another is handed over. -/
theorem handRecord_staging_grows (s : State) (b : Body) : ∃ more, (s.handRecord b).writer.staging = s.writer.staging ++ more ∧
    (s.writer.staging.length < 16 → more.length = 1) := by
  unfold handRecord
  rw [raise_writer_staging]
  split
  · exact ⟨_, rfl, fun _ => rfl⟩
  · next full => exact ⟨[], by simp, fun room => absurd room full⟩

/-- A refused access leaves all of HOLD but an owed turn and a deferred request, which it clears. -/
theorem takeAccess_denied {x : Access} (denied : ¬ accessPermitted (s.classify x.addr) x) :
    ∃ b, s.takeAccess x = (s.refused x).handRecord b ∧ HoldSteady (s.refused x) (s.takeAccess x) := by
  rw [takeAccess_refuses s x denied]
  exact ⟨_, rfl, .of_moves (handRecord_moves _ _ .refl)⟩

/-- An access that is refused with no other waiting: its error response, and the port is not an access's (R144). -/
theorem waiting_refused {x : Access} (free : s.bus.port = .free) (inv : s.holdInv)
    (released : s.judgeHold.bus.hold = .released) (waiting : s.bus.waiting = [x])
    (denied : ¬ accessPermitted (s.classify x.addr) x) :
    s.finish.bus.port ≠ .upstream ∧ s.finish.bus.answer = some ⟨x.tag, true, none⟩ ∧ s.finish.bus.waiting = [] ∧
      s.finish.bus.current = s.bus.current := by
  have turn : Again s ((s.judgeHold.withWaiting []).takeAccess x) := .access free released waiting
  have class' : (s.judgeHold.withWaiting []).classify x.addr = s.classify x.addr := judgeHold_classify s x.addr
  obtain ⟨b, -, steady⟩ := takeAccess_denied (s := s.judgeHold.withWaiting []) (x := x) (by rwa [class'])
  have opens := (takeAccess_refused (s.judgeHold.withWaiting []) x (by rwa [class'])).2.1.2 ((judgeHold_port s).trans free)
  have waits : ((s.judgeHold.withWaiting []).takeAccess x).bus.waiting = [] := steady.field Bus.waiting
  have hold : ((s.judgeHold.withWaiting []).takeAccess x).bus.hold = .released := steady.hold.trans released
  have settles : ((s.judgeHold.withWaiting []).takeAccess x).portSettled :=
    ⟨fun _ => ⟨hold, waits⟩, (takeAccess_takes _ x).holdInv ((judgeHold_holdInv s inv).withWaiting [])⟩
  have off := (finish_endsAs settles rfl).offPort
  have field : ∀ {α : Type} (g : State → α), g ((s.judgeHold.withWaiting []).takeAccess x).finish.offPort =
      g ((s.judgeHold.withWaiting []).takeAccess x).offPort := fun g => congrArg g off
  rw [turn.finish]
  refine ⟨?_, ?_, (field fun u => u.bus.waiting).trans waits, ?_⟩
  · obtain ⟨t, served, ends⟩ := exists_served ((s.judgeHold.withWaiting []).takeAccess x)
    rw [ends, setGapTimer_port, startRecord_port]
    exact served.port_ne_upstream waits (by rw [opens]; exact nofun)
  · exact (field fun u => u.bus.answer).trans (steady.field Bus.answer)
  · refine (field fun u => u.bus.current).trans ((steady.field Bus.current).trans ?_)
    exact (congrArg (fun u : State => u.bus.current) (judgeHold_offPort s) :)

/-- A writer that wants a burst, with no request of the loader's before it, is given HOLD where it is released (R149). -/
theorem judgeHold_writer_first (released : s.bus.hold = .released) (clear : s.bus.turnOwed = false)
    (prompt : s.bus.writerDeferred = false) (wanted : s.burstWanted = true) (unasked : HoldParty.loader ∉ s.bus.holdQueue) :
    s.judgeHold.bus.hold = .writer := by
  cases first : s.requests with
  | nil =>
    have stands : HoldParty.writer ∈ s.requests := by
      refine (mem_requests_writer s).2 ⟨wanted, ?_⟩
      by_cases queued : HoldParty.writer ∈ s.bus.holdQueue
      · exact .inl queued
      · exact .inr (by simp [writerAsked, queued, released, prompt])
    rw [first] at stands
    cases stands
  | cons p rest =>
    rw [judgeHold_grants released clear first]
    cases p with
    | writer => rfl
    | loader =>
      have stands : HoldParty.loader ∈ s.requests := by rw [first]; exact List.mem_cons_self
      exact absurd ((mem_requests_loader s).1 stands).2 unasked

/-- A writer that comes to want a burst, with no request of the loader's before it, is given HOLD, and its burst begins (R149). -/
theorem burst_granted (free : s.bus.port = .free) (released : s.bus.hold = .released) (clear : s.bus.turnOwed = false)
    (prompt : s.bus.writerDeferred = false) (idle : s.writer.burst = none) (wanted : s.burstWanted = true)
    (unasked : HoldParty.loader ∉ s.bus.holdQueue) :
    s.finish.offPort = s.offPort ∧ s.finish.holds .writer (some ⟨s.slotAddr, false, false⟩) ∧
      s.finish.bus.port = .writer (s.wordOfRecord s.slotAddr 0 true) false := by
  have held := judgeHold_writer_first released clear prompt wanted unasked
  have word : s.judgeHold.startRecord.burstWord ≠ none := by
    refine burstWord_ne_none (by rw [judgeHold_writer, idle]) ?_
    rw [burstWanted_of_offPort (judgeHold_offPort s), wanted]
  obtain ⟨off, holds, out, -⟩ := burst_begins free idle held word
  exact ⟨off, holds, out⟩

/-- A refused access whose record brings staging to eight has HOLD asserted for the writer at once, ahead of the next access
(R149). -/
theorem waiting_refused_bursts {x : Access} {rest : List Access} (free : s.bus.port = .free) (inv : s.holdInv)
    (judged : s.judgeHold = s) (released : s.bus.hold = .released) (waiting : s.bus.waiting = x :: rest)
    (denied : ¬ accessPermitted (s.classify x.addr) x) (deep : 7 ≤ s.writer.staging.length)
    (room : (s.writer.producer - s.writer.consumer).toNat < s.ringSize) (unasked : HoldParty.loader ∉ s.bus.holdQueue) :
    s.finish.holds .writer (some ⟨s.slotAddr, false, false⟩) ∧ s.finish.bus.waiting = rest ∧
      s.finish.bus.turnOwed = false ∧
      ∃ w, s.finish.bus.port = .writer w false ∧ w.target = .record 0 ∧ w.burst = true ∧ w.value = s.recordWord 0 := by
  have turn : Again s ((s.judgeHold.withWaiting rest).takeAccess x) :=
    .access free (by rw [judged]; exact released) waiting
  rw [judged] at turn
  obtain ⟨b, record, steady⟩ := takeAccess_denied (s := s.withWaiting rest) (x := x) denied
  have opens := (takeAccess_refused (s.withWaiting rest) x denied).2.1.2 free
  have hold : ((s.withWaiting rest).takeAccess x).bus.hold = .released := steady.hold.trans released
  have owed : ((s.withWaiting rest).takeAccess x).bus.turnOwed = false := steady.field Bus.turnOwed
  have deferred : ((s.withWaiting rest).takeAccess x).bus.writerDeferred = false := steady.field Bus.writerDeferred
  have queue : ((s.withWaiting rest).takeAccess x).bus.holdQueue = s.bus.holdQueue := steady.field Bus.holdQueue
  have waits : ((s.withWaiting rest).takeAccess x).bus.waiting = rest := steady.field Bus.waiting
  have idle : ((s.withWaiting rest).takeAccess x).writer.burst = none :=
    steady.burst_none (Loose.idle (s := s) ⟨released, inv⟩)
  obtain ⟨more, staging, one⟩ := handRecord_staging_grows ((s.withWaiting rest).refused x) b
  rw [← record] at staging
  change _ = s.writer.staging ++ more at staging
  have ring : ((s.withWaiting rest).takeAccess x).ring = s.ring := by
    unfold State.ring
    rw [record, handRecord_table]
    rfl
  have producer : ((s.withWaiting rest).takeAccess x).writer.producer = s.writer.producer := by
    rw [record, handRecord_writer_producer]
    rfl
  have wanted : ((s.withWaiting rest).takeAccess x).burstWanted = true := by
    refine (burstWanted_iff _).2 ⟨?_, ?_⟩
    · rw [staging, List.length_append]
      by_cases full : s.writer.staging.length < 16
      · have := one full
        omega
      · omega
    · have consumer : ((s.withWaiting rest).takeAccess x).writer.consumer = s.writer.consumer := by
        rw [record, handRecord_writer_consumer]
        rfl
      unfold ringSize
      rw [producer, consumer, ring]
      exact room
  have slot : ((s.withWaiting rest).takeAccess x).slotAddr = s.slotAddr := by
    unfold slotAddr
    rw [ring, producer]
  have word : ((s.withWaiting rest).takeAccess x).recordWord 0 = s.recordWord 0 := by
    unfold recordWord
    rw [staging]
    cases oldest : s.writer.staging with
    | nil => simp [oldest] at deep
    | cons r rest => rfl
  rw [turn.finish]
  generalize (s.withWaiting rest).takeAccess x = m at *
  obtain ⟨off, holds, out⟩ := burst_granted opens hold owed deferred idle wanted (by rwa [queue])
  have field : ∀ {α : Type} (g : State → α), g m.finish.offPort = g m.offPort := fun g => congrArg g off
  refine ⟨by rw [← slot]; exact holds, (field fun u => u.bus.waiting).trans waits,
    (field fun u => u.bus.turnOwed).trans owed, _, out, rfl, rfl, word⟩

end State

end Sys2Proof.Machine
end

section
namespace Sys2Proof.Machine

/-! ## Memory's answer to an upstream access (R148, R149, R150, R151, R158) -/

namespace State

variable {s : State}

/-- The access's answer is with its master, and the port is FREE. -/
def answered (s : State) (a : Answer) : State :=
  { s with bus := { s.bus with port := .free, current := none, answer := some a } }

theorem upstreamAnswered_eq {c : Current} (onPort : s.bus.port = .upstream) (current : s.bus.current = some c)
    (data : Word) (err : Bool) :
    s.upstreamAnswered data err = s.answered ⟨c.access.tag, err, if err || c.access.write then none else some data⟩ := by
  unfold upstreamAnswered
  rw [onPort, current]
  rfl

/-- The answer leaves HOLD as judged. -/
theorem answered_judged (settled : s.settled) (onPort : s.bus.port = .upstream) (a : Answer) :
    (s.answered a).judgeHold = s.answered a ∧ (s.answered a).holdInv := by
  refine settled.judged rfl rfl rfl ?_
  unfold loaderWaiting
  rw [onPort]
  rfl

/-- HOLD asserted for the loader is given up with no request of the writer's put off. -/
theorem releaseHold_of_loader (hold : s.bus.hold = .loader) :
    s.releaseHold = { s with bus := { s.bus with hold := .released, turnOwed := true, holdWithdrawn := false } } := by
  unfold releaseHold
  rw [hold]
  simp

/-- HOLD asserted for a read that has been abandoned is released (R150). -/
theorem readGone_finish (free : s.bus.port = .free) (judged : s.judgeHold = s) (hold : s.bus.hold = .loader)
    (gone : s.loader.read = none ∨ s.bus.holdWithdrawn = true) :
    s.finish = State.finish { s with bus := { s.bus with hold := .released, turnOwed := true, holdWithdrawn := false } } := by
  have turn : Again s s.judgeHold.releaseHold := .noRead free (by rw [judged]; exact hold) gone
  rw [turn.finish, judged, releaseHold_of_loader hold]

/-- A turn that is owed keeps HOLD released. -/
theorem Resting.of_owed (inv : s.holdInv) (released : s.bus.hold = .released) (owed : s.bus.turnOwed = true)
    (alone : s.bus.port = .free → s.bus.waiting = []) : s.Resting :=
  ⟨released, Loose.idle ⟨released, inv⟩, (judgeHold_owed owed).trans released, alone⟩

end State

/-- Nothing is written in a gap before a table is installed (R154). -/
theorem State.gapPort_of_no_table {s : State} (absent : s.table = none) : s.gapPort = .free := by
  have none : (s.startRecord.table.bind fun t => t.window .mirror) = none := by
    rw [show s.startRecord.table = s.table from (congrArg (fun u : State => u.table) (State.startRecord_offPort s) :), absent]
    rfl
  unfold State.gapPort State.gapWord
  rw [none]
  rfl

/-- A burst can begin with the record in progress. -/
theorem State.burstWord_of_inProgress {s : State} {p : InProgress} (idle : s.writer.burst = none)
    (started : s.writer.inProgress = some p) : s.burstWord ≠ none := by
  unfold State.burstWord
  rw [idle, started]
  exact nofun

section Answered

variable {s : State} {a : Answer}

/-- With HOLD released and no access waiting, what goes out is the loader's read, else the writer's word for a gap. -/
theorem answered_gap (judged : (s.answered a).judgeHold = s.answered a) (inv : (s.answered a).holdInv)
    (released : s.bus.hold = .released) (alone : s.bus.waiting = []) :
    (s.answered a).finish.offPort = (s.answered a).offPort ∧ (s.answered a).finish.holds .released none ∧
      (s.answered a).finish.bus.port ≠ .upstream ∧
      (s.answered a).finish.writer.inProgress = (s.answered a).startRecord.writer.inProgress ∧
      (∀ r, s.loader.read = some r → (s.answered a).finish.bus.port = .loader r.next false) ∧
      (s.loader.read = none → (s.answered a).finish.bus.port = (s.answered a).gapPort) := by
  have resting : (s.answered a).Resting := .of_judged judged inv released alone
  obtain ⟨other, inProgress, word⟩ := resting.gap rfl
  exact ⟨resting.offPort, resting.holds, other, inProgress, fun r reads => resting.read rfl reads, word⟩

/-- With HOLD asserted for the writer its burst begins. -/
theorem answered_burst (judged : (s.answered a).judgeHold = s.answered a) (hold : s.bus.hold = .writer)
    (idle : s.writer.burst = none) {p : InProgress} (started : (s.answered a).startRecord.writer.inProgress = some p) :
    (s.answered a).finish.offPort = (s.answered a).offPort ∧
      (s.answered a).finish.holds .writer (some ⟨s.slotAddr, false, false⟩) ∧
      (s.answered a).finish.bus.port = .writer (s.wordOfRecord s.slotAddr 0 true) false ∧
      (s.answered a).finish.writer.inProgress = some { p with words := 0 } := by
  have word : (s.answered a).judgeHold.startRecord.burstWord ≠ none := by
    rw [judged]
    exact State.burstWord_of_inProgress ((State.startRecord_keeps _).2.1.trans idle) started
  obtain ⟨off, holds, out, q, same, again⟩ :=
    State.burst_begins (s := s.answered a) rfl idle (by rw [judged]; exact hold) word
  cases started.symm.trans same
  exact ⟨off, holds, out, again⟩

end Answered

/-- Settles O38. -/
theorem upstreamAccessComplete : Obligations.UpstreamAccessComplete := by
  intro s c data err settled onPort current
  have effect := State.upstreamAnswered_eq onPort current data err
  have run : exec (.upstreamAccessComplete data err) s = .next (s.upstreamAnswered data err).finish := rfl
  rw [effect] at run
  generalize (⟨c.access.tag, err, if err || c.access.write then none else some data⟩ : Answer) = answer at *
  obtain ⟨judged, inv⟩ := State.answered_judged settled onPort answer
  have stays : s.bus.hold = .released → (s.answered answer).judgeHold.bus.hold = .released := fun released => by
    rw [judged]
    exact released
  have denies : ∀ {x}, accessPermitted (s.classify x.addr) x = false →
      ¬ accessPermitted ((s.answered answer).classify x.addr) x := fun denied permitted => nomatch denied.symm.trans permitted
  refine ⟨fun released alone => ⟨_, run, ?_⟩, fun x rest released waiting permitted => ⟨_, run, ?_⟩,
    fun x released waiting denied => ⟨_, run, ?_⟩, fun x rest released waiting denied deep room unasked => ⟨_, run, ?_⟩,
    fun k x command waiting => ⟨fun released => ?_, fun hold gone => ?_⟩,
    fun w r rest p hold idle ring staging started => ⟨_, run, ?_⟩, fun r hold reads kept => ⟨_, run, ?_⟩,
    fun hold gone alone => ⟨_, run, ?_⟩⟩
  · obtain ⟨off, holds, other, inProgress, read, word⟩ := answered_gap judged inv released alone
    refine ⟨off, holds, other, ?_, fun r reads => ?_, fun none absent => ?_, fun tab m w none table mirror ring => ?_⟩
    · rw [inProgress, State.startRecord_inProgress]
      rfl
    · rw [read r reads]
      obtain ⟨addr, index, tries⟩ := r
      cases addr <;> rfl
    · exact (word none).trans (State.gapPort_of_no_table absent)
    · have installed : (s.answered answer).ring = some w := (congrArg (fun t => Option.bind t _) table).trans ring
      have progress := State.startRecord_inProgress (s.answered answer)
      have windows : ∀ f, (s.answered answer).referenceWindow f = tab.windowOf .reference f := fun f =>
        congrArg (fun t => Option.bind t _) table
      refine ⟨fun on => ?_, fun off4 => ⟨fun p r rest started staging => ?_, fun resting => ⟨fun i hi on least => ?_,
        fun clean => ⟨fun f x i hi window on least before => ?_, fun none' => ?_⟩⟩⟩⟩
      · exact (word none).trans (State.gapPort_producer (s := s.answered answer) table mirror on)
      · exact (word none).trans (State.gapPort_record (s := s.answered answer) table mirror off4 installed (progress.trans started) staging)
      · exact (word none).trans
          (State.gapPort_mirror (s := s.answered answer) table mirror off4 (progress.trans resting) (State.dirtyMirror_eq_some hi on least))
      · have rests := State.gapPort_rest (s := s.answered answer) table mirror off4 (progress.trans resting)
          (State.dirtyMirror_eq_none clean)
        rw [State.nextResultWord_eq_some hi ((windows f).trans window) on least fun g lt =>
          (before g lt).imp_left (windows g).trans] at rests
        exact (word none).trans rests
      · have rests := State.gapPort_rest (s := s.answered answer) table mirror off4 (progress.trans resting)
          (State.dirtyMirror_eq_none clean)
        rw [State.nextResultWord_eq_none fun f => (none' f).imp_left (windows f).trans] at rests
        exact (word none).trans rests
  · obtain ⟨-, up, answers, waits, -, now⟩ :=
      State.waiting_taken (s := s.answered answer) rfl (stays released) waiting permitted
    exact ⟨up, answers, waits, now⟩
  · exact State.waiting_refused (s := s.answered answer) rfl inv (stays released) waiting (denies denied)
  · exact State.waiting_refused_bursts (s := s.answered answer) rfl inv judged released waiting (denies denied) deep room
      unasked
  · exact run.trans (State.exec_waited (s := s.answered answer) command waiting).symm
  · have given := State.readGone_finish (s := s.answered answer) rfl judged hold gone
    rw [run, given]
    exact (State.exec_waited (s := { s.answered answer with bus := { (s.answered answer).bus with
      hold := .released, turnOwed := true, holdWithdrawn := false } }) command waiting).symm
  · obtain ⟨off, holds, out, again⟩ := answered_burst judged hold idle
      (by rw [State.startRecord_inProgress]; exact started)
    rw [State.wordOfRecord_first staging] at out
    rw [State.slotAddr_eq ring] at holds out
    exact ⟨off, holds, again, out⟩
  · have idle : s.writer.burst = none := by
      by_contra some
      exact nomatch hold.symm.trans (settled.2.1.1 some)
    obtain ⟨holds, off, port⟩ := State.loaderHeld_ends (s := s.answered answer) (by rw [judged]; exact hold) idle kept reads
    refine ⟨off, holds, port.trans ?_⟩
    rw [if_pos (show (s.answered answer).bus.port = .free from rfl)]
    obtain ⟨addr, index, tries⟩ := r
    cases addr <;> rfl
  · rw [State.readGone_finish (s := s.answered answer) rfl judged hold gone]
    have inv' : State.holdInv { s.answered answer with bus := { (s.answered answer).bus with
        hold := .released, turnOwed := true, holdWithdrawn := false } } := by
      rw [← State.releaseHold_of_loader (s := s.answered answer) hold]
      exact State.releaseHold_holdInv inv hold
    have resting := State.Resting.of_owed inv' rfl rfl fun _ => alone
    obtain ⟨other, -⟩ := resting.gap rfl
    exact ⟨other, resting.holds, resting.offPort⟩

end Sys2Proof.Machine
end

section
namespace Sys2Proof.Machine

/-! ## HOLD and the waiting accesses beside what a loaded table brings (R164, R169, R172)

The blocks' operations read nothing of the bus pass unit and change nothing of it but the word on the port. So they do the
same with any other HOLD, turn, requests and waiting accesses, which `onBus` puts in their place. -/

/-- The state with another bus pass unit around the word on the port. -/
def State.onBus (s : State) (b : Bus) : State := { s with bus := { b with port := s.bus.port } }

namespace State

variable (s : State) (b : Bus)

@[simp] theorem onBus_pending : (s.onBus b).pending = s.pending := rfl
@[simp] theorem onBus_stamp : (s.onBus b).stamp = s.stamp := rfl
@[simp] theorem onBus_init : (s.onBus b).init = s.init := rfl
@[simp] theorem onBus_malm : (s.onBus b).malm = s.malm := rfl
@[simp] theorem onBus_draws : (s.onBus b).draws = s.draws := rfl
@[simp] theorem onBus_loader : (s.onBus b).loader = s.loader := rfl
@[simp] theorem onBus_table : (s.onBus b).table = s.table := rfl
@[simp] theorem onBus_ctl : (s.onBus b).ctl = s.ctl := rfl
@[simp] theorem onBus_monitors : (s.onBus b).monitors = s.monitors := rfl
@[simp] theorem onBus_trackers : (s.onBus b).trackers = s.trackers := rfl
@[simp] theorem onBus_evals : (s.onBus b).evals = s.evals := rfl
@[simp] theorem onBus_account : (s.onBus b).account = s.account := rfl
@[simp] theorem onBus_stagers : (s.onBus b).stagers = s.stagers := rfl
@[simp] theorem onBus_link : (s.onBus b).link = s.link := rfl
@[simp] theorem onBus_writer : (s.onBus b).writer = s.writer := rfl
@[simp] theorem onBus_entry (f : Fid) : (s.onBus b).entry f = s.entry f := rfl
@[simp] theorem onBus_settings : (s.onBus b).settings = s.settings := rfl
@[simp] theorem onBus_quiescent : (s.onBus b).quiescent = s.quiescent := rfl
@[simp] theorem onBus_resultOf (f : Fid) (x : Finding) : (s.onBus b).resultOf f x = s.resultOf f x := rfl
@[simp] theorem onBus_referenceWindow (f : Fid) : (s.onBus b).referenceWindow f = s.referenceWindow f := rfl
@[simp] theorem onBus_nextRequest : (s.onBus b).nextRequest = s.nextRequest := rfl

@[simp] theorem ite_onBus (c : Prop) [Decidable c] (t u : State) :
    (if c then t.onBus b else u.onBus b) = (if c then t else u).onBus b := (apply_ite (onBus · b) c t u).symm

/-- A change made to each of a list's items in turn, that commutes with the bus pass unit, does so as a whole. -/
theorem foldl_onBus {α : Type} {op : State → α → State} (each : ∀ s x, op (s.onBus b) x = (op s x).onBus b) (xs : List α) :
    xs.foldl op (s.onBus b) = (xs.foldl op s).onBus b := by
  induction xs generalizing s with
  | nil => rfl
  | cons x xs ih => rw [List.foldl_cons, List.foldl_cons, each, ih]

/-! ### The shared items -/

@[simp] theorem note_onBus (ws : List Nat) (old : State) :
    State.note ws (old.onBus b) (s.onBus b) = (State.note ws old s).onBus b := by
  unfold State.note
  have words : ∀ i, ((old.onBus b).mirrorWord i == (s.onBus b).mirrorWord i) = (old.mirrorWord i == s.mirrorWord i) :=
    fun _ => rfl
  refine foldl_onBus s b (op := fun t i => if old.mirrorWord i == s.mirrorWord i then t else t.touchMirror i) (fun t i => ?_) ws
  split <;> rfl

@[simp] theorem putCtl_onBus (f : Fid) (c : FeederCtl) : (s.onBus b).putCtl f c = (s.putCtl f c).onBus b :=
  note_onBus { s with ctl := s.ctl.set f c } b _ s

@[simp] theorem putTracker_onBus (f : Fid) (x : Tracker) : (s.onBus b).putTracker f x = (s.putTracker f x).onBus b :=
  note_onBus { s with trackers := s.trackers.set f x } b _ s

@[simp] theorem putEval_onBus (f : Fid) (x : Evaluator) : (s.onBus b).putEval f x = (s.putEval f x).onBus b :=
  note_onBus { s with evals := s.evals.set f x } b _ s

@[simp] theorem putReserved_onBus (f : Fid) (r : Nat) : (s.onBus b).putReserved f r = (s.putReserved f r).onBus b :=
  note_onBus { s with account := { s.account with reserved := s.account.reserved.set f r } } b _ s

@[simp] theorem putLoader_onBus (l : Loader) : (s.onBus b).putLoader l = (s.putLoader l).onBus b :=
  note_onBus { s with loader := l } b _ s

@[simp] theorem putProducer_onBus (p : BitVec 16) : (s.onBus b).putProducer p = (s.putProducer p).onBus b :=
  note_onBus { s with writer := { s.writer with producer := p } } b _ s

@[simp] theorem putConsumer_onBus (c : BitVec 16) : (s.onBus b).putConsumer c = (s.putConsumer c).onBus b :=
  congrArg judgeAttn (note_onBus { s with writer := { s.writer with consumer := c } } b [5] s)

@[simp] theorem putSummary_onBus (c : BitVec 8) : (s.onBus b).putSummary c = (s.putSummary c).onBus b :=
  congrArg judgeAttn (note_onBus { s with writer := { s.writer with summary := c } } b [6] s)

@[simp] theorem judgeAttn_onBus : (s.onBus b).judgeAttn = s.judgeAttn.onBus b := rfl

@[simp] theorem touchMirror_onBus (i : Nat) : (s.onBus b).touchMirror i = (s.touchMirror i).onBus b := rfl

@[simp] theorem touchAllMirror_onBus : (s.onBus b).touchAllMirror = s.touchAllMirror.onBus b :=
  foldl_onBus s b (fun _ _ => rfl) (List.range 40)

@[simp] theorem touchResult_onBus (f : Fid) : (s.onBus b).touchResult f = (s.touchResult f).onBus b := rfl

@[simp] theorem putStager_onBus (f : Fid) (g : Stager) : (s.onBus b).putStager f g = (s.putStager f g).onBus b := rfl

@[simp] theorem putMonitor_onBus (f : Fid) (m : Monitor) : (s.onBus b).putMonitor f m = (s.putMonitor f m).onBus b := rfl

@[simp] theorem countDrop_onBus : (s.onBus b).countDrop = s.countDrop.onBus b :=
  putSummary_onBus { s with writer := { s.writer with dropped := min 255 (s.writer.dropped + 1), overrun := true } } b _

@[simp] theorem handRecord_onBus (body : Body) : (s.onBus b).handRecord body = (s.handRecord body).onBus b := by
  unfold handRecord
  rw [onBus_writer]
  split
  · exact putSummary_onBus (s.enterStaging body) b _
  · rw [countDrop_onBus]
    exact putSummary_onBus s.countDrop b _

/-! ### Results, the feeders' slots and the line -/

@[simp] theorem makeResult_onBus (f : Fid) (x : Finding) : (s.onBus b).makeResult f x = (s.makeResult f x).onBus b := by
  unfold makeResult
  simp only [onBus_resultOf, onBus_stagers, putStager_onBus, touchResult_onBus, handRecord_onBus, ite_onBus]

@[simp] theorem settleResults_onBus (before : State) (f : Fid) :
    (s.onBus b).settleResults (before.onBus b) f = (s.settleResults before f).onBus b := by
  unfold settleResults
  by_cases same : (s.stagers.get f).number = (before.stagers.get f).number
  · rw [onBus_stagers, onBus_stagers, if_pos same, if_pos same]
  · rw [onBus_stagers, onBus_stagers, if_neg same, if_neg same]
    rfl

@[simp] theorem settleLine_onBus (f : Fid) (code : ResultCode) (applied : Option Nat) :
    (s.onBus b).settleLine f code applied = (s.settleLine f code applied).onBus b := by
  unfold settleLine
  rw [onBus_stagers]
  split
  · rfl
  · rw [putStager_onBus, makeResult_onBus]

@[simp] theorem settleSlot_onBus (f : Fid) (code : ResultCode) :
    (s.onBus b).settleSlot f code = (s.settleSlot f code).onBus b := by
  unfold settleSlot
  rw [onBus_stagers]
  split
  · rfl
  · rw [putStager_onBus, makeResult_onBus]

@[simp] theorem endPending_onBus (f : Fid) (code : ResultCode) :
    (s.onBus b).endPending f code = (s.endPending f code).onBus b := by
  unfold endPending
  rw [onBus_stagers]
  split
  · rfl
  · rw [putStager_onBus, makeResult_onBus]

@[simp] theorem emptySlot_onBus (f : Fid) : (s.onBus b).emptySlot f = (s.emptySlot f).onBus b := rfl

@[simp] theorem takeRequest_onBus (f : Fid) (r : Request) : (s.onBus b).takeRequest f r = (s.takeRequest f r).onBus b := by
  unfold takeRequest
  cases r.record <;> rfl

@[simp] theorem arbitrateLine_onBus : (s.onBus b).arbitrateLine = s.arbitrateLine.onBus b := by
  unfold arbitrateLine
  rw [onBus_link, onBus_nextRequest]
  split
  · rfl
  · split
    · exact takeRequest_onBus s b _ _
    · rfl

@[simp] theorem oweResync_onBus : (s.onBus b).oweResync = s.oweResync.onBus b := by
  unfold oweResync
  dsimp only
  rw [onBus_link]
  split
  · exact arbitrateLine_onBus { s with link := { s.link with resyncOwed := true } } b
  · rfl

/-! ### A feeder's states (R5, R16, R19, R22) -/

@[simp] theorem closeSag_onBus (f : Fid) (outcome : SagOutcome) :
    (s.onBus b).closeSag f outcome = (s.closeSag f outcome).onBus b := by
  unfold closeSag
  rw [onBus_ctl]
  split
  · rfl
  · simp only [handRecord_onBus, putCtl_onBus, putEval_onBus, onBus_ctl, onBus_evals]

@[simp] theorem closeEpisode_onBus (f : Fid) (cause : CloseCause) :
    (s.onBus b).closeEpisode f cause = (s.closeEpisode f cause).onBus b := by
  unfold closeEpisode
  rw [onBus_ctl]
  split
  · rfl
  · simp only [handRecord_onBus, putCtl_onBus, onBus_ctl, onBus_trackers]

@[simp] theorem setState_onBus (f : Fid) (new : FeederState) (r : Reason) :
    (s.onBus b).setState f new r = (s.setState f new r).onBus b := by
  simp only [setState, onBus_ctl, putCtl_onBus, handRecord_onBus]

@[simp] theorem standDown_onBus (f : Fid) (outcome : SagOutcome) (cause : CloseCause) :
    (s.onBus b).standDown f outcome cause = (s.standDown f outcome cause).onBus b := by
  simp only [standDown, stopSource, releaseEnergy, onBus_ctl, putCtl_onBus, putReserved_onBus, settleLine_onBus,
    settleSlot_onBus, endPending_onBus, emptySlot_onBus, closeSag_onBus, closeEpisode_onBus]

@[simp] theorem enterFault_onBus (f : Fid) (r : Reason) : (s.onBus b).enterFault f r = (s.enterFault f r).onBus b := by
  simp only [enterFault, setState_onBus, onBus_ctl, putCtl_onBus, standDown_onBus]

@[simp] theorem beginArming_onBus (f : Fid) (r : Reason) : (s.onBus b).beginArming f r = (s.beginArming f r).onBus b := by
  simp only [beginArming, startSilence, setState_onBus, onBus_ctl, putCtl_onBus, onBus_monitors, onBus_settings,
    putMonitor_onBus]

@[simp] theorem enterArming_onBus (f : Fid) (r : Reason) : (s.onBus b).enterArming f r = (s.enterArming f r).onBus b := by
  rw [enterArming_eq, enterArming_eq, beginArming_onBus, onBus_malm, enterFault_onBus, ite_onBus]

@[simp] theorem enterOff_onBus (f : Fid) : (s.onBus b).enterOff f = (s.enterOff f).onBus b := by
  simp only [enterOff, setState_onBus, standDown_onBus, onBus_monitors, putMonitor_onBus]

/-! ### Installations and the loader's read (R164, R167, R169, R172) -/

@[simp] theorem noneResults_onBus : (s.onBus b).noneResults = s.noneResults.onBus b := by
  refine foldl_onBus s b (fun t f => ?_) Fid.all
  rw [onBus_referenceWindow, makeResult_onBus, ite_onBus]

@[simp] theorem armEnabled_onBus : (s.onBus b).armEnabled = s.armEnabled.onBus b := by
  refine foldl_onBus s b (fun t f => ?_) Fid.all
  rw [onBus_entry, enterArming_onBus, ite_onBus]

theorem installStart_onBus (addr : Word) (t : Table) : (s.onBus b).installStart addr t = (s.installStart addr t).onBus b := by
  have begun := touchAllMirror_onBus
    { s with table := some t, loader := { s.loader with mode := .active, read := none, image := [], flt := false } } b
  unfold installStart
  dsimp only
  rw [← judgeAttn_onBus, ← armEnabled_onBus, ← oweResync_onBus, ← noneResults_onBus, ← handRecord_onBus, ← begun]
  rfl

@[simp] theorem portMoved_onBus (m : WriterTarget → Bool) : (s.onBus b).portMoved m = (s.portMoved m).onBus b := rfl

@[simp] theorem followReference_onBus (old new : Table) (f : Fid) :
    (s.onBus b).followReference old new f = (s.followReference old new f).onBus b := by
  have moved : ((((s.onBus b).disown f).touchResult f).portMoved (WriterTarget.isResultOf f)) =
      (((s.disown f).touchResult f).portMoved (WriterTarget.isResultOf f)).onBus b := rfl
  unfold followReference
  rw [moved, ite_onBus]

@[simp] theorem followRing_onBus (old new : Table) : (s.onBus b).followRing old new = (s.followRing old new).onBus b := by
  unfold followRing
  dsimp only
  rw [putProducer_onBus, putConsumer_onBus]
  split <;> rfl

@[simp] theorem followMirror_onBus (old new : Table) : (s.onBus b).followMirror old new = (s.followMirror old new).onBus b := by
  unfold followMirror
  rw [touchAllMirror_onBus, portMoved_onBus, ite_onBus]

@[simp] theorem abandonAssembly_onBus (f : Fid) : (s.onBus b).abandonAssembly f = (s.abandonAssembly f).onBus b := by
  unfold abandonAssembly
  rw [onBus_stagers]
  split
  · rfl
  · rw [putStager_onBus, makeResult_onBus]

@[simp] theorem trackerToSeek_onBus (f : Fid) : (s.onBus b).trackerToSeek f = (s.trackerToSeek f).onBus b := by
  unfold trackerToSeek
  dsimp only
  rw [onBus_trackers, putTracker_onBus, onBus_entry, handRecord_onBus, ite_onBus]

@[simp] theorem reloadFeeder_onBus (f : Fid) (was changed : Bool) :
    (s.onBus b).reloadFeeder f was changed = (s.reloadFeeder f was changed).onBus b := by
  unfold reloadFeeder
  rw [onBus_entry, enterArming_onBus, enterOff_onBus]
  split
  · rfl
  · rfl
  · rfl
  · split <;> rfl

theorem reloadOne_onBus (old : Table) (d : Changes) (f : Fid) :
    (s.onBus b).reloadOne old d f = (s.reloadOne old d f).onBus b := by
  unfold reloadOne asEventOf
  dsimp only
  cases d.sample
  · simp only [abandonAssembly_onBus, Bool.false_eq_true, ↓reduceIte, reloadFeeder_onBus, settleResults_onBus]
  · simp only [abandonAssembly_onBus, ↓reduceIte, trackerToSeek_onBus, reloadFeeder_onBus, settleResults_onBus]

@[simp] theorem noteTable_onBus (new : Table) : (s.onBus b).noteTable new = (s.noteTable new).onBus b :=
  note_onBus (s.loadTable new) b (List.range 40) s

@[simp] theorem reloadMonitors_onBus (d : Changes) : (s.onBus b).reloadMonitors d = (s.reloadMonitors d).onBus b := rfl

@[simp] theorem beforeFeeders_onBus (addr : Word) (old new : Table) :
    (s.onBus b).beforeFeeders addr old new = (s.beforeFeeders addr old new).onBus b := by
  have windows := fun t : State => foldl_onBus t b (op := fun t f => t.followReference old new f)
    (fun t f => followReference_onBus t b old new f) Fid.all
  unfold beforeFeeders
  dsimp only
  rw [noteTable_onBus, reloadMonitors_onBus, windows, followRing_onBus, followMirror_onBus, handRecord_onBus]

theorem installReload_onBus (addr : Word) (old new : Table) :
    (s.onBus b).installReload addr old new = (s.installReload addr old new).onBus b := by
  have turns := fun t : State => foldl_onBus t b (op := fun t f => t.reloadOne old (compareTables old new) f)
    (fun t f => reloadOne_onBus t b old (compareTables old new) f) Fid.all
  rw [installReload_eq, installReload_eq, beforeFeeders_onBus, turns, judgeAttn_onBus]

theorem rejectTable_onBus (a : Option Word) (r : Reject) : (s.onBus b).rejectTable a r = (s.rejectTable a r).onBus b := by
  unfold rejectTable
  dsimp only
  rw [onBus_table, onBus_loader, putLoader_onBus, putLoader_onBus, handRecord_onBus]
  split <;> rfl

theorem acceptTable_onBus (a : Word) (t : Table) : (s.onBus b).acceptTable a t = (s.acceptTable a t).onBus b := by
  unfold acceptTable
  rw [onBus_table, onBus_quiescent, onBus_loader, putLoader_onBus, installStart_onBus]
  split
  · rw [installReload_onBus]
    split <;> rfl
  · rfl

theorem endRead_onBus (a : Word) : (s.onBus b).endRead a = (s.endRead a).onBus b := by
  unfold endRead
  rw [onBus_loader]
  split
  · exact rejectTable_onBus s b _ _
  · exact acceptTable_onBus s b _ _

theorem tableWordRead_onBus (a : Word) (index : Nat) (data : Word) :
    (s.onBus b).tableWordRead a index data = (s.tableWordRead a index data).onBus b := by
  unfold tableWordRead
  dsimp only
  rw [onBus_loader, putLoader_onBus]
  split
  · exact rejectTable_onBus _ b _ _
  · split
    · exact endRead_onBus _ b _
    · rfl

theorem readAnswered_onBus (r : TableRead) (data : Word) (err : Bool) :
    (s.onBus b).readAnswered r data err = (s.readAnswered r data err).onBus b := by
  unfold readAnswered
  rw [onBus_loader, rejectTable_onBus]
  split
  · rw [putLoader_onBus]
    split <;> rfl
  · split
    · exact putLoader_onBus s b _
    · exact tableWordRead_onBus s b _ _ _

end State

end Sys2Proof.Machine
end

section
namespace Sys2Proof.Machine

/-! ## A word of the loader's (R140, R148, R149, R150, R167) -/

namespace State

variable {s : State} {a : Word} {discard : Bool}

/-- A word goes out with its answer awaited. -/
theorem Resting.port_ne_discarded (h : s.Resting) (free : s.bus.port = .free) (a : Word) :
    s.finish.bus.port ≠ .loader a true := by
  cases reads : s.loader.read with
  | some r =>
    rw [h.read free reads]
    exact nofun
  | none =>
    rw [(h.gap free).2.2 reads]
    unfold gapPort
    cases s.startRecord.gapWord <;> exact nofun

theorem exec_loaderReadComplete (s : State) (data : Word) (err : Bool) :
    exec (.loaderReadComplete data err) s = .next (s.loaderAnswered data err).finish := rfl

theorem loaderAnswered_left (onPort : s.bus.port = .loader a true) (data : Word) (err : Bool) :
    s.loaderAnswered data err = s.freed (s.endsHold true) := by
  rw [loaderAnswered_eq s onPort]
  rfl

theorem loaderAnswered_read {r : TableRead} (onPort : s.bus.port = .loader a false) (reads : s.loader.read = some r)
    (data : Word) (err : Bool) : s.loaderAnswered data err = (s.freed (s.endsHold false)).readAnswered r data err := by
  rw [loaderAnswered_eq s onPort, reads]
  rfl

theorem endsHold_of_other (hold : s.bus.hold ≠ .loader) : s.endsHold discard = false := by simp [endsHold, hold]

theorem endsHold_of_kept (kept : s.bus.holdWithdrawn = false) : s.endsHold true = false := by simp [endsHold, kept]

theorem endsHold_of_withdrawn (hold : s.bus.hold = .loader) (withdrawn : s.bus.holdWithdrawn = true) :
    s.endsHold discard = true := by simp [endsHold, hold, withdrawn]

theorem endsHold_of_read (hold : s.bus.hold = .loader) : s.endsHold false = true := by simp [endsHold, hold]

/-- The state with the port FREE. -/
theorem freed_false (s : State) : s.freed false = { s with bus := { s.bus with port := .free } } := rfl

/-- The state with the port FREE, and the HOLD that was asserted for the loader given up. -/
theorem freed_true (hold : s.bus.hold = .loader) :
    s.freed true = { s with bus := { s.bus with
      port := .free, hold := .released, turnOwed := true, holdWithdrawn := false } } :=
  releaseHold_of_loader (s := { s with bus := { s.bus with port := .free } }) hold

/-- A left-over word's answer leaves HOLD as judged, where it is not given up. -/
theorem freed_judged (settled : s.settled) (onPort : s.bus.port = .loader a true) :
    (s.freed false).judgeHold = s.freed false ∧ (s.freed false).holdInv := by
  refine settled.judged rfl rfl rfl ?_
  unfold loaderWaiting
  rw [onPort]
  rfl

/-- The HOLD that was asserted for the loader has been given up at a FREE port where no access waits. -/
theorem resting_freed_true (inv : s.holdInv) (hold : s.bus.hold = .loader) (alone : s.bus.waiting = []) :
    (s.freed true).Resting := by
  have opened : State.holdInv { s with bus := { s.bus with port := .free } } := inv.congr rfl id
  exact .of_owed (releaseHold_holdInv opened hold) rfl rfl fun _ => alone

end State

/-- What a left-over word of the loader's leaves, by what becomes of HOLD. -/
theorem leftWord_ends {s e : State} (a : Word) (resting : s.bus.waiting = [] → e.Resting) (free : e.bus.port = .free)
    (waits : e.bus.waiting = s.bus.waiting) (loader : e.loader = s.loader) {c : Instr} (run : exec c s = .next e.finish) :
    (s.bus.waiting = [] → Completes c s fun t =>
        t.offPort = e.offPort ∧ t.holds .released none ∧ t.bus.port ≠ .loader a true ∧
          ∀ r, s.loader.read = some r → t.bus.port = .loader r.next false) ∧
      ∀ k x, accessOf k = some x → s.bus.waiting = [x] → exec c s = exec k (e.withWaiting []) := by
  refine ⟨fun alone => ⟨_, run, ?_⟩, fun k x command waiting => ?_⟩
  · have rests := resting alone
    exact ⟨rests.offPort, rests.holds, rests.port_ne_discarded free a, fun r reads => rests.read free (loader ▸ reads)⟩
  · rw [run, State.exec_waited command (waits.trans waiting)]

theorem exec_leftWord {s : State} {a : Word} (onPort : s.bus.port = .loader a true) (data : Word) (err : Bool) :
    exec (.loaderReadComplete data err) s = .next (s.freed (s.endsHold true)).finish := by
  rw [State.exec_loaderReadComplete, State.loaderAnswered_left onPort]

/-! ### An access that waits behind a word under HOLD (R148, R149) -/

/-- An access that waits is taken, clears the owed turn, and HOLD then comes for a writer that wants a burst. -/
theorem owedTurn_ends {e : State} {x : Access} {rest : List Access} (free : e.bus.port = .free)
    (released : e.bus.hold = .released) (owed : e.bus.turnOwed = true) (waiting : e.bus.waiting = x :: rest)
    (permitted : accessPermitted (e.classify x.addr) x) :
    e.finish.bus.turnOwed = false ∧ e.finish.bus.port = .upstream ∧ e.finish.bus.waiting = rest ∧
      (e.finish.burstWanted = false → e.finish.bus.hold ≠ .writer) ∧
      (e.finish.burstWanted = true → HoldParty.loader ∉ e.bus.holdQueue → e.finish.bus.hold = .writer) ∧
      e.finish.bus.current = some ⟨x, e.classify x.addr, e.downAddr (e.classify x.addr) x⟩ := by
  have stays : e.judgeHold.bus.hold = .released := (State.judgeHold_owed owed).trans released
  obtain ⟨ends, up, -, waits, clear, current⟩ := State.waiting_taken free stays waiting permitted
  have takes := State.takeAccess_takes (e.judgeHold.withWaiting rest) x
  have queue : ∀ p ∈ ((e.judgeHold.withWaiting rest).takeAccess x).bus.holdQueue, p ∈ e.requests := fun p mem =>
    State.mem_requests_of_judged (takes.queue p mem)
  have hold : ((e.judgeHold.withWaiting rest).takeAccess x).bus.hold = .released :=
    takes.hold.elim (fun same => same.1.trans stays) fun clear => clear.1
  have busy : ((e.judgeHold.withWaiting rest).takeAccess x).bus.port ≠ .free := by
    have allowed : accessPermitted ((e.judgeHold.withWaiting rest).classify x.addr) x := by
      rw [show (e.judgeHold.withWaiting rest).classify x.addr = e.classify x.addr from State.judgeHold_classify e x.addr]
      exact permitted
    rw [(State.takeAccess_permitted _ x allowed).1]
    exact nofun
  refine ⟨clear, up, waits, ?_, ?_, current⟩ <;>
    rw [ends, (State.finish_held busy).1, State.burstWanted_of_offPort (State.finish_busy _ busy).1]
  · intro content
    rcases State.judgeHold_hold ((e.judgeHold.withWaiting rest).takeAccess x) with same | ⟨-, -, ⟨-, wanted⟩ | ⟨loader, -⟩⟩
    · rw [same, hold]
      exact nofun
    · exact nomatch content.symm.trans wanted
    · rw [loader]
      exact nofun
  · intro wanted unasked
    exact State.judgeHold_writer_first hold takes.owed takes.undeferred wanted fun mem =>
      unasked ((State.mem_requests_loader e).1 (queue _ mem)).2

/-- The answer of a word that went out under HOLD is the same with that HOLD given up before it (R150). -/
theorem loaderAnswered_released {s : State} {a : Word} {r : TableRead} (onPort : s.bus.port = .loader a false)
    (hold : s.bus.hold = .loader) (reads : s.loader.read = some r) (data : Word) (err : Bool) :
    s.loaderAnswered data err = State.loaderAnswered
      { s with bus := { s.bus with hold := .released, turnOwed := true, holdWithdrawn := false } } data err := by
  have given := State.loaderAnswered_read (s := { s with bus := { s.bus with
    hold := .released, turnOwed := true, holdWithdrawn := false } }) onPort reads data err
  rw [State.loaderAnswered_read onPort reads, given, State.endsHold_of_read hold, State.freed_true hold]
  rfl

/-- A word in error that may be tried again: its read stands with one try more, and nothing else changes (R167). -/
theorem readAnswered_retry (s : State) {r : TableRead} (tries : r.tries < 3) (data : Word) :
    s.readAnswered r data true =
      { s with loader := { s.loader with read := some { r with tries := r.tries + 1 } } } := by
  unfold State.readAnswered
  rw [if_pos rfl, if_neg (by omega)]
  exact s.putLoader_unshown rfl rfl

/-- A burst that ends with none wanted leaves an owed turn, and no request put off (R149). -/
theorem State.endBurst_judged {e : State} (content : e.burstWanted = false) (idle : e.writer.burst = none)
    (kept : e.bus.holdWithdrawn = false) :
    e.judgeHold.endBurst.offPort = State.offPort { e with bus := { e.bus with turnOwed := true } } := by
  obtain ⟨h, q, g, judged, -⟩ := State.judgeHold_eq e
  have wants : State.burstWanted { e.withHold h q g with writer := { e.writer with burst := none } } = false := content
  rw [judged]
  unfold State.endBurst State.releaseHold
  change State.offPort { e with
    bus := { e.bus with
      turnOwed := true, holdWithdrawn := false,
      writerDeferred := e.bus.writerDeferred || (decide (h = .writer) &&
        State.burstWanted { e.withHold h q g with writer := { e.writer with burst := none } } && _) }
    writer := { e.writer with burst := none } } = _
  rw [wants, Bool.and_false, Bool.false_and, Bool.or_false, ← kept, ← idle]

/-! ### A word that went out in a gap (R149, R150; log entry 38) -/

/-- Where a word leaves HOLD asserted for the writer, with no burst begun: its burst begins, or HOLD is given up where there is
no record to write. `e'` is the same effect with HOLD released, a turn owed and no access waiting. -/
theorem holdServed_of_effects {s e e' : State} (inv : s.holdInv) (hold : s.bus.hold = .writer) (idle : e.writer.burst = none)
    (free : e.bus.port = .free) (bus : e.bus = { s.bus with port := .free })
    (other : e' = e.onBus { e.bus with hold := .released, turnOwed := true, waiting := [] }) :
    holdServed s e'.finish e.finish := by
  have owed : s.bus.turnOwed = e.bus.turnOwed := by rw [bus]
  have waiting : s.bus.waiting = e.bus.waiting := by rw [bus]
  have holdAt : e.bus.hold = .writer := by rw [bus]; exact hold
  have kept : e.bus.holdWithdrawn = false := by
    rw [bus]
    by_contra withdrawn
    exact nomatch hold.symm.trans (inv.2.1 (by simpa using withdrawn))
  have resting : e'.Resting := by
    subst other
    refine .of_owed ⟨fun some => absurd idle some, fun withdrawn => ?_, fun _ => .inl rfl⟩ rfl rfl fun _ => rfl
    exact nomatch kept.symm.trans withdrawn
  have progress : e'.finish.writer.inProgress = e.startRecord.writer.inProgress := by
    refine (resting.gap (by rw [other]; exact free)).2.1.trans ?_
    subst other
    exact (congrArg (fun u : State => u.writer.inProgress) (State.startRecord_withBus e
      { e.bus with hold := .released, turnOwed := true, waiting := [] }) :)
  have turned : ∀ b, State.offPort { e'.finish with bus := { e'.finish.bus with turnOwed := b, waiting := s.bus.waiting } } =
      State.offPort { e with bus := { e.bus with turnOwed := b } } := by
    intro b
    have off := congrArg (fun u : State => { u with bus := { u.bus with turnOwed := b, waiting := s.bus.waiting } })
      resting.offPort
    refine Eq.trans off ?_
    rw [other, waiting]
    rfl
  have held : e.judgeHold.bus.hold = .writer := (State.judgeHold_asserted (by rw [holdAt]; exact nofun)).trans holdAt
  have resting' : e.judgeHold.startRecord.writer.burst = none := by
    rw [(State.startRecord_keeps _).2.1, State.judgeHold_writer, idle]
  refine ⟨fun _ => ⟨fun p r rest started staging => ?_, fun none alone => ?_⟩,
    fun r loader => (nomatch hold.symm.trans loader)⟩
  · have word : e.judgeHold.startRecord.burstWord ≠ none :=
      State.burstWord_of_inProgress resting' (by rw [State.judgeHold_startRecord, ← progress, started])
    obtain ⟨off, holds, out, q, same, again⟩ := State.burst_begins free idle held word
    cases (progress.symm.trans started).symm.trans same
    have settles : e'.finish.offPort = e'.offPort := resting.offPort
    have slot : e'.finish.slotAddr = e.slotAddr := by
      rw [(firstWord_of_offPort settles).1, other]
      rfl
    have records : e'.finish.writer.staging = e.writer.staging := by
      rw [show e'.finish.writer.staging = e'.writer.staging from (congrArg (fun u : State => u.writer.staging) settles :), other]
      rfl
    rw [records] at staging
    refine ⟨by rw [slot]; exact holds, ?_, again, ?_⟩
    · rw [out, slot, State.wordOfRecord_first staging]
    · rw [off, turned, owed]
  · have idle' : e.startRecord.writer.inProgress = .none := progress.symm.trans none
    have word : e.judgeHold.startRecord.burstWord = .none := by
      unfold State.burstWord
      rw [resting', State.judgeHold_startRecord, idle']
      rfl
    have content : e.burstWanted = false := by
      by_contra wanted
      obtain ⟨p, started⟩ := State.inProgress_of_burstWanted e (by simpa using wanted)
      exact nomatch idle'.symm.trans started
    have ended := State.endBurst_judged (e := e) content idle kept
    have ends : e.judgeHold.endBurst.Resting :=
      .of_owed ⟨fun some => absurd rfl some, nofun, fun _ => .inl rfl⟩ rfl rfl fun _ =>
        (State.judgeHold_waiting_eq e).trans (waiting.symm.trans alone)
    rw [(Again.noBurst free held word).finish]
    exact ⟨ends.holds, ends.offPort.trans (ended.trans (turned true).symm)⟩

/-- What the loader's word brings leaves the bus pass unit as the freed port has it. -/
theorem State.readAnswered_bus {m : State} (free : m.bus.port = .free) (r : TableRead) (data : Word) (err : Bool) :
    (m.readAnswered r data err).bus = { m.bus with port := .free } ∧ (m.readAnswered r data err).bus.port = .free := by
  have steady := State.readAnswered_steady m free r data err
  have opens := steady.free.2 free
  refine ⟨?_, opens⟩
  rw [← steady.bus, ← opens]

theorem loaderWord_holdServed {s u : State} {a data : Word} {r : TableRead} {err : Bool} (onPort : s.bus.port = .loader a false)
    (settled : s.settled) (hold : s.bus.hold = .writer) (idle : s.writer.burst = none) (reads : s.loader.read = some r)
    (run : exec (.loaderReadComplete data err)
      { s with bus := { s.bus with hold := .released, turnOwed := true, waiting := [] } } = .next u) :
    Completes (.loaderReadComplete data err) s fun t => holdServed s u t := by
  have kept : s.endsHold false = false := State.endsHold_of_other (by rw [hold]; exact nofun)
  have effect := State.loaderAnswered_read onPort reads data err
  rw [kept] at effect
  have effect' := State.loaderAnswered_read (s := { s with bus := { s.bus with
    hold := .released, turnOwed := true, waiting := [] } }) onPort reads data err
  rw [State.endsHold_of_other (fun loader : Hold.released = .loader => nomatch loader)] at effect'
  obtain ⟨bus, free⟩ := State.readAnswered_bus (m := s.freed false) rfl r data err
  have steady := State.readAnswered_steady (s.freed false) rfl r data err
  have other := State.readAnswered_onBus (s.freed false)
    { (s.freed false).bus with hold := .released, turnOwed := true, waiting := [] } r data err
  refine ⟨_, State.exec_loaderReadComplete s data err, ?_⟩
  rw [State.exec_loaderReadComplete] at run
  cases run
  rw [effect, effect']
  refine holdServed_of_effects settled.2.1 hold (steady.burst_none idle) free bus ?_
  rw [bus]
  exact other

/-! ### An access that has waited alone behind a word of the loader's (R146, R148) -/

theorem State.releaseHold_withWaiting (s : State) (xs : List Access) :
    (s.withWaiting xs).releaseHold = s.releaseHold.withWaiting xs := rfl

theorem State.endBurst_withWaiting (s : State) (xs : List Access) :
    (s.withWaiting xs).endBurst = s.endBurst.withWaiting xs := rfl

theorem State.burstWord_withWaiting (s : State) (xs : List Access) :
    (s.withWaiting xs).startRecord.burstWord = s.startRecord.burstWord := by
  rw [State.withWaiting, State.startRecord_withBus]
  rfl

theorem State.judgeHold_withWaiting (s : State) (xs : List Access) :
    (s.withWaiting xs).judgeHold = s.judgeHold.withWaiting xs := State.judgeHold_waiting s xs

/-- HOLD that has been judged is judged. -/
theorem State.judgeHold_judged {s : State} (inv : s.holdInv) : s.judgeHold.judgeHold = s.judgeHold := by
  have waits : s.judgeHold.loaderWaiting = s.loaderWaiting := by
    unfold State.loaderWaiting
    rw [State.judgeHold_loader, State.judgeHold_port]
  refine (State.holdJudged_iff _).2 ⟨State.judgeHold_heard inv, fun mem => ?_, ?_⟩
  · rw [waits]
    exact ((State.mem_requests_loader s).1 (State.mem_requests_of_judged mem)).1
  · have timer : s.judgeHold.bus.gapTimer = s.gapTime := by
      rcases State.judgeHold_cases s with ⟨-, e⟩ | ⟨p, rest, -, -, -, e⟩ <;> rw [e] <;> rfl
    unfold State.gapTime at timer ⊢
    rw [waits, timer]
    split <;> rfl

/-- A state whose judgement leaves HOLD released, with no access waiting at its FREE port, takes an access at once. -/
theorem State.judgeHold_takesAtOnce {s : State} (inv : s.holdInv) (free : s.bus.port = .free) (alone : s.bus.waiting = [])
    (released : s.judgeHold.bus.hold = .released) : s.judgeHold.takesAtOnce :=
  ⟨(State.judgeHold_port s).trans free, fun _ => ⟨released, (State.judgeHold_waiting_eq s).trans alone⟩,
    State.judgeHold_holdInv s inv, State.judgeHold_judged inv⟩

/-- Where an event ends with HOLD released, an access that waits alone is taken as one presented in a state that takes it at
once. -/
theorem Served.waited {m t : State} (served : Served m t) (x : Access) (alone : m.bus.waiting = [])
    (free : m.bus.port = .free) (inv : m.holdInv) (released : t.bus.hold = .released) :
    ∃ e : State, e.takesAtOnce ∧ e.finish = m.finish ∧ (m.withWaiting [x]).finish = (e.present x).finish := by
  induction served with
  | @rests m t last =>
    have hold : m.judgeHold.bus.hold = .released := last.hold.symm.trans released
    have once := State.judgeHold_takesAtOnce inv free alone hold
    refine ⟨m.judgeHold, once, ?_, ?_⟩
    · have again := Gives.gap once.1 (by rw [State.judgeHold_judged inv]; exact hold)
        ((State.judgeHold_waiting_eq m).trans alone)
      rw [again.finish, (Gives.gap free hold alone).finish, State.judgeHold_judged inv]
    · have turn : Again (m.withWaiting [x]) (((m.withWaiting [x]).judgeHold.withWaiting []).takeAccess x) :=
        .access free (by rw [State.judgeHold_withWaiting]; exact hold) rfl
      have same : (m.judgeHold.withWaiting [x]).withWaiting [] = m.judgeHold := by
        rw [State.withWaiting_withWaiting, ← alone, ← State.judgeHold_waiting_eq m, State.withWaiting_self]
      rw [turn.finish, State.judgeHold_withWaiting, same, State.present_finish _ x once]
  | @again m v t turn _ ih =>
    have inv' := turn.holdInv inv
    cases turn with
    | access _ _ waiting => exact nomatch alone.symm.trans waiting
    | noBurst _ hold word =>
      have turn : Again (m.withWaiting [x]) (m.withWaiting [x]).judgeHold.endBurst := by
        refine .noBurst free (by rw [State.judgeHold_withWaiting]; exact hold) ?_
        rw [State.judgeHold_withWaiting, State.burstWord_withWaiting, word]
      obtain ⟨e, once, ends, taken⟩ := ih ((State.judgeHold_waiting_eq m).trans alone) ((State.judgeHold_port m).trans free) inv' released
      refine ⟨e, once, ends.trans (Again.noBurst free hold word).finish.symm, ?_⟩
      rw [turn.finish, State.judgeHold_withWaiting, State.endBurst_withWaiting, taken]
    | noRead _ hold gone =>
      have turn : Again (m.withWaiting [x]) (m.withWaiting [x]).judgeHold.releaseHold :=
        .noRead free (by rw [State.judgeHold_withWaiting]; exact hold) gone
      obtain ⟨e, once, ends, taken⟩ := ih ((State.judgeHold_waiting_eq m).trans alone) ((State.judgeHold_port m).trans free) inv' released
      refine ⟨e, once, ends.trans (Again.noRead free hold gone).finish.symm, ?_⟩
      rw [turn.finish, State.judgeHold_withWaiting, State.releaseHold_withWaiting, taken]

/-- What the loader's word brings is the same with any list of accesses waiting. -/
theorem State.readAnswered_withWaiting {m : State} (free : m.bus.port = .free) (xs : List Access) (r : TableRead)
    (data : Word) (err : Bool) :
    (m.withWaiting xs).readAnswered r data err = (m.readAnswered r data err).withWaiting xs := by
  obtain ⟨bus, -⟩ := State.readAnswered_bus free r data err
  have other := State.readAnswered_onBus m { m.bus with waiting := xs } r data err
  have given : (m.withWaiting xs) = m.onBus { m.bus with waiting := xs } := rfl
  rw [given, other, State.onBus, State.withWaiting, bus]

theorem State.freed_withWaiting (s : State) (ends : Bool) (xs : List Access) :
    (s.withWaiting xs).freed ends = (s.freed ends).withWaiting xs := by cases ends <;> rfl

theorem loaderWord_waited {s t : State} {a data : Word} {r : TableRead} {err : Bool} {k : Instr} {x : Access}
    (settled : s.settled) (onPort : s.bus.port = .loader a false) (reads : s.loader.read = some r)
    (waiting : s.bus.waiting = [x]) (command : accessOf k = some x)
    (run : exec (.loaderReadComplete data err) (s.withWaiting []) = .next t) (released : t.bus.hold = .released) :
    ∃ e : State, e.takesAtOnce ∧ e.finish = t ∧ exec (.loaderReadComplete data err) s = exec k e := by
  have alone := State.loaderAnswered_read (s := s.withWaiting []) onPort reads data err
  have free := State.freed_port (s.withWaiting []) (s.endsHold false)
  have answered : s.loaderAnswered data err = ((s.withWaiting []).loaderAnswered data err).withWaiting [x] := by
    have back : s = (s.withWaiting []).withWaiting [x] := by
      rw [State.withWaiting_withWaiting, ← waiting, State.withWaiting_self]
    rw [State.loaderAnswered_read onPort reads, alone, show (s.withWaiting []).endsHold false = s.endsHold false from rfl,
      ← State.readAnswered_withWaiting free, ← State.freed_withWaiting, ← back]
  have inv := (State.loaderAnswered_effect (s.withWaiting []) data err).inv settled.2.1
  obtain ⟨t', served, ends⟩ := exists_served ((s.withWaiting []).loaderAnswered data err)
  obtain ⟨bus, opens⟩ := State.readAnswered_bus free r data err
  have none : ((s.withWaiting []).loaderAnswered data err).bus.waiting = [] := by
    rw [alone, show (s.withWaiting []).endsHold false = s.endsHold false from rfl, bus, State.freed_withWaiting]
    rfl
  rw [State.exec_loaderReadComplete] at run
  cases run
  have last : t'.bus.hold = .released := by
    rw [← released, ends, (State.setGapTimer_keeps _).1, (State.startRecord_keeps _).1]
  obtain ⟨e, once, same, taken⟩ := served.waited x none (by rw [alone]; exact opens) inv last
  refine ⟨e, once, same, ?_⟩
  rw [State.exec_loaderReadComplete, answered, taken, exec_access k x e command]

end Sys2Proof.Machine
end

section
namespace Sys2Proof.Machine

/-! ## The loader's read, word by word (R167, R168, R169, R170, R172) -/

namespace State

variable {s : State}

/-- The state with this image and this read. -/
def withRead (s : State) (image : List Word) (r : TableRead) : State :=
  { s with loader := { s.loader with image := image, read := some r } }

theorem readAnswered_header {r : TableRead} (first : r.addr = none) (data : Word) :
    s.readAnswered r data false = s.withRead s.loader.image ⟨some (data &&& 0xFFFFFFFC#32), 0, 0⟩ := by
  unfold readAnswered
  rw [if_neg nofun, first]
  exact s.putLoader_unshown rfl rfl

theorem readAnswered_gives_up {r : TableRead} (tries : 3 ≤ r.tries) (data : Word) :
    s.readAnswered r data true = s.rejectTable r.addr (.at .readFailed (some r.failIndex)) := by
  unfold readAnswered
  rw [if_pos rfl, if_pos (by omega)]

/-- A word of the table joins the image, and its read goes on, is rejected, or ends (R167). -/
theorem readAnswered_word {r : TableRead} {base : Word} (at' : r.addr = some base) (data : Word) :
    s.readAnswered r data false =
      (if r.index + 1 = 3 then headerReject (s.loader.image ++ [data]) else none).elim
        (if 3 ≤ r.index + 1 ∧ tableLength (s.loader.image ++ [data]) ≤ r.index + 1 then
          (s.withRead (s.loader.image ++ [data]) ⟨some base, r.index + 1, 0⟩).endRead base
        else s.withRead (s.loader.image ++ [data]) ⟨some base, r.index + 1, 0⟩)
        fun reject => (s.withRead (s.loader.image ++ [data]) ⟨some base, r.index + 1, 0⟩).rejectTable (some base) reject := by
  have joined : s.putLoader { s.loader with image := s.loader.image ++ [data], read := some ⟨some base, r.index + 1, 0⟩ } =
      s.withRead (s.loader.image ++ [data]) ⟨some base, r.index + 1, 0⟩ := s.putLoader_unshown rfl rfl
  unfold readAnswered
  rw [if_neg nofun, at']
  change s.tableWordRead base r.index data = _
  unfold tableWordRead
  dsimp only
  rw [joined]
  cases (if r.index + 1 = 3 then headerReject (s.loader.image ++ [data]) else none) <;> rfl

/-- A header is in order where it is signed and its length is that of a table; else it is rejected for the first of these that
fails (R168). -/
theorem headerReject_eq (ws : List Word) :
    headerReject ws =
      if ws.getD 0 0#32 = 0x5C184E0D#32 ∧
          99 ≤ ((ws.getD 1 0#32).extractLsb' 0 10).toNat ∧ ((ws.getD 1 0#32).extractLsb' 0 10).toNat ≤ 512 then none
      else some (if ws.getD 0 0#32 = 0x5C184E0D#32 then ⟨.length, some 1, none, none⟩
        else ⟨.signature, some 0, none, none⟩) := by
  unfold headerReject
  change (if (ws.getD 0 0#32 != 0x5C184E0D#32) = true then _ else
    if (!(decide (99 ≤ ((ws.getD 1 0#32).extractLsb' 0 10).toNat) &&
      decide (((ws.getD 1 0#32).extractLsb' 0 10).toNat ≤ 512))) = true then _ else _) = _
  by_cases signed : ws.getD 0 0#32 = 0x5C184E0D#32
  · by_cases sized : 99 ≤ ((ws.getD 1 0#32).extractLsb' 0 10).toNat ∧ ((ws.getD 1 0#32).extractLsb' 0 10).toNat ≤ 512
    · rw [if_neg (by simpa using signed), if_neg (by simpa using sized), if_pos ⟨signed, sized⟩]
    · have short : (!(decide (99 ≤ ((ws.getD 1 0#32).extractLsb' 0 10).toNat) &&
          decide (((ws.getD 1 0#32).extractLsb' 0 10).toNat ≤ 512))) = true := by
        rw [← Bool.decide_and, decide_eq_false sized]
        rfl
      rw [if_neg (by simpa using signed), if_pos short, if_neg fun h => sized h.2, if_pos signed]
      rfl
  · rw [if_pos (by simpa using signed), if_neg fun h => signed h.1, if_neg signed]
    rfl

/-! ### Where a read that has been answered leaves the state -/

/-- Of a state with HOLD released and no access waiting, what differs in neither HOLD nor the writer rests. -/
theorem calm.resting {e : State} (calm : s.calm) (bus : { e.bus with port := .free } = { s.bus with port := .free })
    (writer : e.writer = s.writer) (wanted : e.burstWanted = s.burstWanted) : e.Resting := by
  obtain ⟨released, alone, settled⟩ := calm
  have hold : e.bus.hold = .released := (congrArg Bus.hold bus :).trans released
  have heard : e.Heard := settled.heard.congr wanted bus (by rw [writer])
  exact ⟨hold, by rw [writer, settled.idle_of_released released], heard.judgeHold_hold.trans hold,
    fun _ => (congrArg Bus.waiting bus :).trans alone⟩

/-- A read that goes on: its next word is on the port. -/
theorem calm.reads (calm : s.calm) {image : List Word} {r : TableRead} {c : Instr}
    (run : exec c s = .next ((s.freed false).withRead image r).finish) :
    Completes c s fun t =>
      t.offMarks = State.offMarks { s with loader := { s.loader with read := some r, image := image } } ∧
        t.holds .released none ∧ t.bus.port = .loader r.next false := by
  have rests : ((s.freed false).withRead image r).Resting := calm.resting rfl rfl rfl
  exact ⟨_, run, (offMarks_of_offPort rests.offPort).trans rfl, rests.holds, rests.read rfl rfl⟩

/-- The end of an event that the answer of a word of the loader's begins, with HOLD released. -/
theorem calm.answered_ends {s : State} (calm : s.calm) (r : TableRead) (data : Word) (err : Bool) :
    EndsAs ((s.freed false).readAnswered r data err) ((s.freed false).readAnswered r data err).finish := by
  obtain ⟨released, alone, settled⟩ := calm
  have steady := readAnswered_steady (s.freed false) rfl r data err
  refine finish_endsAs ⟨fun _ => ⟨steady.hold.trans released, (steady.field Bus.waiting).trans alone⟩,
    steady.holdInv (settled.2.1.congr rfl id)⟩ rfl

/-- A start-up read that is rejected ends in PASSTHRU-FAILED, up to the marks (R169). -/
theorem rejectTable_fails (absent : s.table = none) (a : Option Word) (reject : Reject) :
    (s.rejectTable a reject).offMarks =
      State.offMarks { s with loader := { s.loader with mode := .failed, read := none, image := [] } } := by
  unfold rejectTable
  dsimp only
  rw [if_neg (by rw [absent]; exact nofun)]
  exact putLoader_offMarks s _

/-- The summary conditions that a record calls for, and the overrun of one that finds staging full (R156, R159). -/
theorem handRecord_summary (s : State) (b : Body) :
    (s.handRecord b).writer.summary =
      s.writer.summary ||| (if s.writer.staging.length < 16 then 0#8 else 0x08#8) ||| b.conditions := by
  unfold handRecord
  rw [raise_writer_summary]
  change (if s.writer.staging.length < 16 then s.enterStaging b else s.countDrop).writer.summary ||| _ = _
  split
  · rw [BitVec.or_zero]
    rfl
  · rw [countDrop, raise_writer_summary]
    rfl

/-- A reload's read that is rejected leaves the loader without a read, and reports it (R172). -/
theorem rejectTable_eq (installed : s.table ≠ none) (a : Option Word) (reject : Reject) :
    s.rejectTable a reject =
      (s.putLoader { s.loader with reload := .none, read := none, image := [] }).handRecord
        (.tableRejected a reject s.loader.image[0]? s.loader.image[1]? s.loader.image[2]?) := by
  unfold rejectTable
  dsimp only
  rw [if_pos (Option.isSome_iff_ne_none.2 installed)]

theorem blocks_of_offPort {s t : State} (h : t.offPort = s.offPort) : t.blocks = s.blocks := (congrArg State.blocks h :)

theorem summary_of_offPort {s t : State} (h : t.offPort = s.offPort) : t.writer.summary = s.writer.summary :=
  (congrArg (fun u : State => u.writer.summary) h :)

theorem putLoader_blocks (s : State) (l : Loader) : (s.putLoader l).blocks = State.blocks { s with loader := l } :=
  (congrArg State.blocks (putLoader_offMarks s l) :)

theorem rejectTable_reports {t : State} (installed : s.table ≠ none) (a : Option Word) (reject : Reject)
    (ends : EndsAs (s.rejectTable a reject) t) :
    t.loader = { s.loader with reload := .none, read := none, image := [] } ∧ t.table = s.table ∧
      t.blocks = State.blocks { s with loader := t.loader } ∧
      t.writer.summary = s.writer.summary ||| 0x80#8 ||| (if s.writer.staging.length < 16 then 0#8 else 0x08#8) ∧
      staged s t (.tableRejected a reject s.loader.image[0]? s.loader.image[1]? s.loader.image[2]?) := by
  rw [rejectTable_eq installed] at ends
  have conditions : (Body.tableRejected a reject s.loader.image[0]? s.loader.image[1]? s.loader.image[2]?).conditions =
      0x80#8 := rfl
  generalize Body.tableRejected a reject s.loader.image[0]? s.loader.image[1]? s.loader.image[2]? = body at *
  have loader : t.loader = { s.loader with reload := .none, read := none, image := [] } := by
    rw [ends.loader, handRecord_loader, putLoader_loader]
  refine ⟨loader, by rw [ends.table, handRecord_table, putLoader_table], ?_, ?_, ?_⟩
  · rw [loader]
    rw [blocks_of_offPort ends.offPort, handRecord_blocks, putLoader_blocks]
  · rw [summary_of_offPort ends.offPort, handRecord_summary, putLoader_writer_summary, putLoader_writer_staging,
      conditions, BitVec.or_assoc,
      BitVec.or_comm (ite _ _ _) 0x80#8, ← BitVec.or_assoc]
  · have first := ends.staged (staged_handRecord (s.putLoader { s.loader with reload := .none, read := none, image := [] }) body)
    unfold staged at first ⊢
    simpa using first

/-! ### The end of a reload's read (R167 step 4, R170, R172) -/

theorem endRead_rejects {reject : Reject} (invalid : validate s.loader.image = .error reject) (a : Word) :
    s.endRead a = s.rejectTable (some a) reject := by
  unfold endRead
  rw [invalid]

theorem endRead_holds {old new : Table} (table : s.table = some old) (valid : validate s.loader.image = .ok new)
    (busy : s.quiescent = false) (a : Word) :
    s.endRead a = s.putLoader { s.loader with reload := .held, read := none, heldAddr := some a } := by
  unfold endRead acceptTable
  rw [valid]
  dsimp only
  rw [table, busy]
  rfl

theorem endRead_installs {old new : Table} (table : s.table = some old) (valid : validate s.loader.image = .ok new)
    (quiet : s.quiescent = true) (a : Word) : s.endRead a = s.installReload a old new := by
  unfold endRead acceptTable
  rw [valid]
  dsimp only
  rw [table, quiet]
  rfl

/-- The mirror shows no more of the loader than its mode, but for word 1. -/
theorem mirrorWord_withLoader {l : Loader} (mode : l.mode = s.loader.mode) {i : Nat} (other : i ≠ 1) :
    State.mirrorWord { s with loader := l } i = s.mirrorWord i := by
  match i, other with
  | 0, _ =>
    change BitVec.ofNat 32 l.mode.code = _
    rw [mode]
    rfl
  | 2, _ => rfl
  | 3, _ => rfl
  | 4, _ => rfl
  | 5, _ => rfl
  | 6, _ => rfl
  | 7, _ => rfl
  | n + 8, _ => rfl

/-- A table is put in place and shown alike from a read that ends and from an image that is held: of the loader the mirror shows
a reload under way in both (R162, R172). -/
theorem noteTable_of_reload {l l' : Loader} (mode : l.mode = l'.mode) (flt : l.flt = l'.flt) (read : l.reload = .reading)
    (held : l'.reload = .held) (new : Table) :
    State.noteTable { s with loader := l } new = State.noteTable { s with loader := l' } new := by
  have same : State.loadTable { s with loader := l } new = State.loadTable { s with loader := l' } new := by
    unfold loadTable
    dsimp only
    rw [mode, flt]
  unfold noteTable State.note
  rw [same]
  congr 1
  funext t i
  by_cases one : i = 1
  · subst one
    have shown : State.mirrorWord { s with loader := l } 1 ≠ (State.loadTable { s with loader := l' } new).mirrorWord 1 := by
      change BitVec.ofNat 32 l.reload.code ≠ BitVec.ofNat 32 Reload.none.code
      rw [read]
      decide
    have shown' : State.mirrorWord { s with loader := l' } 1 ≠ (State.loadTable { s with loader := l' } new).mirrorWord 1 := by
      change BitVec.ofNat 32 l'.reload.code ≠ BitVec.ofNat 32 Reload.none.code
      rw [held]
      decide
    rw [beq_eq_false_iff_ne.2 shown, beq_eq_false_iff_ne.2 shown']
  · have before : State.mirrorWord { s with loader := l } i = State.mirrorWord { s with loader := l' } i :=
      (mirrorWord_withLoader (s := { s with loader := l' }) mode one)
    rw [before]

theorem installReload_of_reload {l l' : Loader} (mode : l.mode = l'.mode) (flt : l.flt = l'.flt) (read : l.reload = .reading)
    (held : l'.reload = .held) (a : Word) (old new : Table) :
    State.installReload { s with loader := l } a old new = State.installReload { s with loader := l' } a old new := by
  rw [installReload_eq, installReload_eq, beforeFeeders, beforeFeeders, noteTable_of_reload mode flt read held]

end State

/-- The bus pass unit once the loader's word has left the port, with the HOLD asserted for it given up. -/
theorem State.freed_bus (s : State) :
    s.freed (s.endsHold false) = { s with bus := { (if s.bus.hold = .loader then
      { s.bus with hold := .released, turnOwed := true, holdWithdrawn := false } else s.bus) with port := .free } } := by
  split
  · next hold => rw [State.endsHold_of_read hold, State.freed_true hold]
  · next other => rw [State.endsHold_of_other other, State.freed_false]

/-- A last word that is installed does what HELD_IMAGE_INSTALL does with the image held (R172). -/
theorem loaderWord_installs {s : State} {a base data : Word} {r : TableRead} {old new : Table}
    (onPort : s.bus.port = .loader a false) (reads : s.loader.read = some r) (at' : r.addr = some base)
    (table : s.table = some old) (reading : s.loader.reload = .reading) (quiet : s.quiescent = true) (past : 3 < r.index + 1)
    (whole : tableLength (s.loader.image ++ [data]) ≤ r.index + 1) (valid : validate (s.loader.image ++ [data]) = .ok new) :
    s.loaderAnswered data false = State.installHeld { s.freed (s.endsHold false) with loader := { s.loader with
      reload := .held, read := none, image := s.loader.image ++ [data], heldAddr := some base } } := by
  have kept : ∀ {α : Type} (g : State → α) (_ : ∀ u b, g { u with bus := b } = g u),
      g (s.freed (s.endsHold false)) = g s := by
    intro α g same
    rw [State.freed_bus, same]
  have loader := kept State.loader fun _ _ => rfl
  have tableAt := kept State.table fun _ _ => rfl
  have quietAt := kept State.quiescent fun _ _ => rfl
  rw [State.loaderAnswered_read onPort reads, State.readAnswered_word at', loader, if_neg (by omega)]
  generalize s.freed (s.endsHold false) = m at *
  have installs := installHeld_installs (s := { m with loader := { s.loader with
      reload := .held, read := none, image := s.loader.image ++ [data], heldAddr := some base } }) rfl
      (quietAt.trans quiet) (tableAt.trans table) rfl valid
  have ended := State.endRead_installs (s := m.withRead (s.loader.image ++ [data]) ⟨some base, r.index + 1, 0⟩)
    (tableAt.trans table) valid (quietAt.trans quiet) base
  change (if 3 ≤ r.index + 1 ∧ tableLength (s.loader.image ++ [data]) ≤ r.index + 1 then _ else _ : State) = _
  rw [if_pos ⟨by omega, whole⟩, ended, installs, State.withRead, loader]
  have alike := State.installReload_of_reload (s := m)
    (l := { s.loader with image := s.loader.image ++ [data], read := some ⟨some base, r.index + 1, 0⟩ })
    (l' := { s.loader with
      reload := .held, read := none, image := s.loader.image ++ [data], heldAddr := some base })
    rfl rfl reading rfl base old new
  exact alike

/-- The state of the held image is one that an event could have left, where no access waits and HOLD is not the writer's. -/
theorem heldState_settled {s e : State} {a : Word} (settled : s.settled) (onPort : s.bus.port = .loader a false)
    (other : s.bus.hold ≠ .writer) (alone : s.bus.waiting = []) (writer : e.writer = s.writer)
    (wanted : e.burstWanted = s.burstWanted) (resting : e.loader.read = none)
    (bus : e.bus = { (if s.bus.hold = .loader then
      { s.bus with hold := .released, turnOwed := true, holdWithdrawn := false } else s.bus) with port := .free }) :
    e.settled := by
  obtain ⟨heard, loader, gap⟩ := (State.holdJudged_iff s).1 settled.2.2
  obtain ⟨burst, withdrawn, deferral⟩ := settled.2.1
  have idle : e.writer.burst = none := by
    rw [writer]
    by_contra some
    exact other (burst some)
  have rests : s.loaderWaiting = false := by
    unfold State.loaderWaiting
    rw [onPort]
    simp [Port.carriesRead]
  have still : e.loaderWaiting = false := by
    unfold State.loaderWaiting
    rw [resting]
    rfl
  have unasked : HoldParty.loader ∉ s.bus.holdQueue := fun mem => (nomatch rests.symm.trans (loader mem))
  have timer : s.bus.gapTimer = none := by
    rw [gap, State.gapTime, rests]
    rfl
  have heardAs : (e.bus.holdQueue = s.bus.holdQueue ∧ e.bus.writerDeferred = s.bus.writerDeferred ∧
      e.bus.gapTimer = s.bus.gapTimer ∧ e.bus.waiting = s.bus.waiting) ∧ e.bus.hold = .released ∧
      e.bus.holdWithdrawn = false ∧ (e.bus.turnOwed = true ∨ s.bus.hold = .released ∧ e.bus.turnOwed = s.bus.turnOwed) := by
    rw [bus]
    by_cases hold : s.bus.hold = .loader
    · rw [if_pos hold]
      exact ⟨⟨rfl, rfl, rfl, rfl⟩, rfl, rfl, .inl rfl⟩
    · have released : s.bus.hold = .released := by
        cases h : s.bus.hold with
        | released => rfl
        | writer => exact absurd h other
        | loader => exact absurd h hold
      rw [if_neg hold]
      refine ⟨⟨rfl, rfl, rfl, rfl⟩, released, ?_, .inr ⟨released, rfl⟩⟩
      by_contra given
      exact hold (withdrawn (by simpa using given))
  obtain ⟨⟨queue, deferred, timerAt, waitingAt⟩, released, kept, owed⟩ := heardAs
  have asked : e.writerAsked = s.writerAsked := by
    have free : ∀ {u : State}, u.bus.hold ≠ .writer → u.writerAsked = u.bus.holdQueue.contains .writer := fun ne => by
      simp [State.writerAsked, ne]
    rw [free other, free (by rw [released]; exact nofun), queue]
  refine ⟨fun _ => ⟨released, waitingAt.trans alone⟩, ⟨fun some => absurd idle some, fun given => ?_, fun put => ?_⟩,
    (State.holdJudged_iff e).2 ⟨⟨?_, ?_, fun _ clear => ?_⟩, fun mem => ?_, ?_⟩⟩
  · exact nomatch kept.symm.trans given
  · rcases owed with owed | ⟨-, owed⟩
    · exact .inl owed
    · exact .inl (owed.trans ((deferral (deferred.symm.trans put)).resolve_right other))
  · rw [wanted, asked, deferred]
    exact heard.asks
  · rw [wanted, queue]
    exact heard.writer
  · rcases owed with owed | ⟨free, owed⟩
    · exact nomatch clear.symm.trans owed
    · rw [queue]
      exact heard.granted free (owed.symm.trans clear)
  · rw [queue] at mem
    exact absurd mem unasked
  · rw [timerAt, timer, State.gapTime, still]
    rfl

/-! ### The word of a read, with HOLD released and no access waiting (R167, R168, R169, R172) -/

/-- The state as a word of the loader's has left the port, with this image and this read. -/
def State.atWord (s : State) (image : List Word) (x : Option TableRead) : State :=
  { s.freed false with loader := { s.loader with image := image, read := x } }

section Word

variable {s : State} {a data : Word} {r : TableRead} {err : Bool}

theorem State.calm.exec_word (calm : s.calm) (onPort : s.bus.port = .loader a false) (reads : s.loader.read = some r)
    (data : Word) (err : Bool) :
    exec (.loaderReadComplete data err) s = .next ((s.freed false).readAnswered r data err).finish := by
  obtain ⟨released, -⟩ := calm
  rw [State.exec_loaderReadComplete, State.loaderAnswered_read onPort reads,
    State.endsHold_of_other (by rw [released]; exact nofun)]

theorem State.calm.atWord_portSettled (calm : s.calm) (image : List Word) (x : Option TableRead) :
    (s.atWord image x).portSettled := by
  obtain ⟨released, alone, settled⟩ := calm
  exact ⟨fun _ => ⟨released, alone⟩, settled.2.1.congr rfl id⟩

variable (calm : s.calm) (onPort : s.bus.port = .loader a false) (reads : s.loader.read = some r)

include calm onPort reads

/-- A start-up read that is rejected. -/
theorem State.calm.word_fails {image : List Word} {x : Option TableRead} {addr : Option Word} {reject : Reject}
    (answer : (s.freed false).readAnswered r data err = (s.atWord image x).rejectTable addr reject) (absent : s.table = none) :
    Completes (.loaderReadComplete data err) s fun t =>
      t.offMarks = State.offMarks { s with loader := { s.loader with mode := .failed, read := none, image := [] } } := by
  refine ⟨_, calm.exec_word onPort reads data err, ?_⟩
  have ends := calm.answered_ends r data err
  rw [answer] at ends ⊢
  refine (State.offMarks_of_offPort ends.offPort).trans ?_
  exact State.rejectTable_fails (s := s.atWord image x) absent addr reject

/-- A reload's read that is rejected. -/
theorem State.calm.word_rejects {image : List Word} {x : Option TableRead} {addr : Option Word} {reject : Reject}
    (answer : (s.freed false).readAnswered r data err = (s.atWord image x).rejectTable addr reject)
    (installed : s.table ≠ none) :
    Completes (.loaderReadComplete data err) s fun t =>
      t.loader = { s.loader with reload := .none, read := none, image := [] } ∧ t.table = s.table ∧
        t.blocks = State.blocks { s with loader := t.loader } ∧
        t.writer.summary = s.writer.summary ||| 0x80#8 ||| (if s.writer.staging.length < 16 then 0#8 else 0x08#8) ∧
        staged s t (.tableRejected addr reject image[0]? image[1]? image[2]?) := by
  refine ⟨_, calm.exec_word onPort reads data err, ?_⟩
  have ends := calm.answered_ends r data err
  rw [answer] at ends ⊢
  exact State.rejectTable_reports (s := s.atWord image x) installed addr reject ends

/-- A word that ends no read and that no reject follows. -/
theorem State.calm.word_reads {image : List Word} {r' : TableRead}
    (answer : (s.freed false).readAnswered r data err = s.atWord image (some r')) :
    Completes (.loaderReadComplete data err) s fun t =>
      t.offMarks = State.offMarks { s with loader := { s.loader with read := some r', image := image } } ∧
        t.holds .released none ∧ t.bus.port = .loader r'.next false := by
  refine calm.reads ?_
  rw [calm.exec_word onPort reads, answer]
  rfl

/-- A table in order that waits for a feeder to rest is held. -/
theorem State.calm.word_holds {base : Word} {old new : Table} {image : List Word} {x : Option TableRead}
    (answer : (s.freed false).readAnswered r data err = (s.atWord image x).endRead base) (table : s.table = some old)
    (valid : validate image = .ok new) (busy : s.quiescent = false) :
    Completes (.loaderReadComplete data err) s fun t =>
      t.offMarks = State.offMarks { s with loader := { s.loader with
        reload := .held, read := none, image := image, heldAddr := some base } } := by
  refine ⟨_, calm.exec_word onPort reads data err, ?_⟩
  have ends := calm.answered_ends r data err
  rw [answer, State.endRead_holds (s := s.atWord image x) table valid busy] at ends
  rw [answer, State.endRead_holds (s := s.atWord image x) table valid busy]
  refine (State.offMarks_of_offPort ends.offPort).trans ?_
  exact putLoader_offMarks (s.atWord image x) _

/-- A table in order is installed where every feeder rests. -/
theorem State.calm.word_installs {base : Word} {old new : Table} {image : List Word} {x : Option TableRead}
    (answer : (s.freed false).readAnswered r data err = (s.atWord image x).endRead base) (table : s.table = some old)
    (valid : validate image = .ok new) (quiet : s.quiescent = true) :
    Completes (.loaderReadComplete data err) s fun t =>
      t.table = some new ∧
        t.loader = { s.loader with reload := .none, read := none, image := [], heldAddr := none } ∧
        staged s t (.tableLoaded base new.length new.identity new.windows.length true
          (decide (old.settings.sample ≠ new.settings.sample))
          (Fid.all.filter fun f => decide (old.entries.get f ≠ new.entries.get f))) := by
  obtain ⟨m, u, install⟩ := Install.exists_of (addr := base) (old := old) (new := new) (calm.atWord_portSettled image x)
  refine ⟨_, calm.exec_word onPort reads data err, ?_⟩
  rw [answer, State.endRead_installs (s := s.atWord image x) table valid quiet]
  refine ⟨install.table, install.loader, ?_⟩
  rw [show Body.tableLoaded base new.length new.identity new.windows.length true _ _ = loadedRecord base old new from
    loadedRecord_eq base old new Iff.rfl]
  exact install.staged

end Word

/-- The index a failed word is rejected with (R167, Formats 12.1). -/
theorem TableRead.failIndex_eq (r : TableRead) : r.failIndex = if r.addr = none then 0 else r.index + 1 := by
  unfold TableRead.failIndex
  cases r.addr <;> rfl

section Table

variable {s : State} {base data : Word} {r : TableRead} (at' : r.addr = some base)

include at'

/-- A word that is neither the third of a header out of order nor the last of its table. -/
theorem State.word_goes_on (more : r.index + 1 < 3 ∨ r.index + 1 < tableLength (s.loader.image ++ [data]) ∧
      (r.index + 1 = 3 → headerReject (s.loader.image ++ [data]) = none)) :
    (s.freed false).readAnswered r data false = s.atWord (s.loader.image ++ [data]) (some ⟨some base, r.index + 1, 0⟩) := by
  rw [State.readAnswered_word at']
  change Option.elim (if r.index + 1 = 3 then headerReject (s.loader.image ++ [data]) else none)
    (if 3 ≤ r.index + 1 ∧ tableLength (s.loader.image ++ [data]) ≤ r.index + 1 then _ else _) _ = _
  have sound : (if r.index + 1 = 3 then headerReject (s.loader.image ++ [data]) else none) = none := by
    split
    · next third => exact more.elim (fun early => by omega) fun later => later.2 third
    · rfl
  rw [sound, Option.elim_none, if_neg (by omega)]
  rfl

/-- The third word of a header that is out of order. -/
theorem State.word_header_rejected (third : r.index + 1 = 3) {reject : Reject}
    (bad : headerReject (s.loader.image ++ [data]) = some reject) :
    (s.freed false).readAnswered r data false =
      (s.atWord (s.loader.image ++ [data]) (some ⟨some base, r.index + 1, 0⟩)).rejectTable (some base) reject := by
  rw [State.readAnswered_word at']
  change Option.elim (if r.index + 1 = 3 then headerReject (s.loader.image ++ [data]) else none) _ _ = _
  rw [if_pos third, bad]
  rfl

/-- The last word of a table. -/
theorem State.word_ends (past : 3 < r.index + 1) (whole : tableLength (s.loader.image ++ [data]) ≤ r.index + 1) :
    (s.freed false).readAnswered r data false =
      (s.atWord (s.loader.image ++ [data]) (some ⟨some base, r.index + 1, 0⟩)).endRead base := by
  rw [State.readAnswered_word at']
  change Option.elim (if r.index + 1 = 3 then headerReject (s.loader.image ++ [data]) else none)
    (if 3 ≤ r.index + 1 ∧ tableLength (s.loader.image ++ [data]) ≤ r.index + 1 then _ else _) _ = _
  rw [if_neg (by omega), Option.elim_none, if_pos ⟨by omega, whole⟩]
  rfl

end Table

/-- A word that went out under HOLD leaves the port to the access that waits, in its owed turn (R149, R150). -/
theorem wordUnderHold_yields {s : State} {a data : Word} {r : TableRead} {x : Access} {rest : List Access}
    (onPort : s.bus.port = .loader a false) (hold : s.bus.hold = .loader) (reads : s.loader.read = some r)
    (tries : r.tries < 3) (waiting : s.bus.waiting = x :: rest) (permitted : accessPermitted (s.classify x.addr) x = true) :
    Completes (.loaderReadComplete data true) s fun t =>
      t.bus.turnOwed = false ∧ t.bus.port = .upstream ∧ t.bus.waiting = rest ∧
        (t.burstWanted = false → t.bus.hold ≠ .writer) ∧
        (t.burstWanted = true → s.settled → t.bus.hold = .writer) ∧
        t.bus.current = some ⟨x, s.classify x.addr, s.downAddr (s.classify x.addr) x⟩ := by
  refine ⟨_, State.exec_loaderReadComplete s data true, ?_⟩
  rw [State.loaderAnswered_read onPort reads, State.endsHold_of_read hold, State.freed_true hold,
    readAnswered_retry _ tries]
  obtain ⟨clear, up, waits, content, wanted, current⟩ := owedTurn_ends
    (e := { s with
      bus := { s.bus with port := .free, hold := .released, turnOwed := true, holdWithdrawn := false }
      loader := { s.loader with read := some { r with tries := r.tries + 1 } } })
    rfl rfl rfl waiting permitted
  refine ⟨clear, up, waits, content, fun want settled => wanted want fun mem => ?_, current⟩
  obtain ⟨-, unread, -⟩ := (State.holdJudged_iff s).1 settled.2.2
  have reading := unread mem
  simp [State.loaderWaiting, onPort, Port.carriesRead] at reading

/-- Settles O48: each outcome of a word by the lemma on its answer, `readAnswered`, and what the end of the event makes of it. -/
theorem loaderReadComplete : Obligations.LoaderReadComplete := by
  refine ⟨fun s a r data onPort calm reads => ?_,
    fun s a r base data old new onPort reads at' table reading quiet past whole valid => ⟨?_, fun settled other alone => ?_⟩,
    fun s a r data err onPort hold reads => ⟨?_, fun x rest tries waiting permitted =>
      wordUnderHold_yields onPort hold reads tries waiting permitted⟩,
    fun s a r data err u onPort settled hold idle reads run => loaderWord_holdServed onPort settled hold idle reads run,
    fun s a r data err k x t settled onPort reads waiting command run _ released =>
      loaderWord_waited settled onPort reads waiting command run released,
    fun s a data err settled onPort => ⟨fun released => ?_, fun hold withdrawn => ?_, fun r hold kept reads => ?_⟩⟩
  · have retry : ∀ data, r.tries < 3 → (s.freed false).readAnswered r data true =
        s.atWord s.loader.image (some { r with tries := r.tries + 1 }) := fun data tries =>
      readAnswered_retry _ tries data
    have gives_up : ∀ data, 3 ≤ r.tries → (s.freed false).readAnswered r data true =
        (s.atWord s.loader.image s.loader.read).rejectTable r.addr
          ⟨.readFailed, some (if r.addr = none then 0 else r.index + 1), none, none⟩ := fun data tries => by
      rw [← r.failIndex_eq]
      exact State.readAnswered_gives_up tries data
    refine ⟨fun tries => calm.word_reads onPort reads (retry data tries),
      fun tries absent => calm.word_fails onPort reads (gives_up data tries) absent,
      fun tries installed => calm.word_rejects onPort reads (gives_up data tries) installed,
      fun first => calm.word_reads onPort reads (State.readAnswered_header first data), fun base at' => ?_⟩
    refine ⟨fun more => ?_, fun third bad => ?_, fun old table past whole => ?_⟩
    · refine calm.word_reads onPort reads (State.word_goes_on at' (more.imp id fun later => ⟨later.1, fun third => ?_⟩))
      rw [State.headerReject_eq]
      exact if_pos (later.2 third)
    · have answer := State.word_header_rejected (data := data) at' third ((State.headerReject_eq _).trans (if_neg bad))
      exact ⟨fun absent => calm.word_fails onPort reads answer absent,
        fun installed => calm.word_rejects onPort reads answer installed⟩
    · have answer := State.word_ends (data := data) at' past whole
      refine ⟨fun reject invalid => ?_, fun new valid =>
        ⟨calm.word_holds onPort reads answer table valid, calm.word_installs onPort reads answer table valid⟩⟩
      rw [State.endRead_rejects invalid] at answer
      exact calm.word_rejects onPort reads answer (by rw [table]; exact nofun)
  · have answer := loaderWord_installs onPort reads at' table reading quiet past whole valid
    rw [State.exec_loaderReadComplete, answer, State.freed_bus]
    rfl
  · exact heldState_settled settled onPort other alone rfl rfl rfl rfl
  · rw [State.exec_loaderReadComplete, loaderAnswered_released onPort hold reads]
    rfl
  · have kept : s.endsHold true = false := State.endsHold_of_other (by rw [released]; exact nofun)
    have run := exec_leftWord onPort data err
    rw [kept] at run
    obtain ⟨judged, inv⟩ := State.freed_judged settled onPort
    exact leftWord_ends (s := s) (e := s.freed false) a (fun alone => .of_judged judged inv released alone) rfl rfl rfl run
  · have run := exec_leftWord onPort data err
    rw [State.endsHold_of_withdrawn hold withdrawn] at run
    have rests := State.resting_freed_true settled.2.1 hold
    rw [State.freed_true hold] at run rests
    exact leftWord_ends (s := s) a rests rfl rfl rfl run
  · have run := exec_leftWord onPort data err
    rw [State.endsHold_of_kept kept] at run
    obtain ⟨judged, inv⟩ := State.freed_judged settled onPort
    have idle : s.writer.burst = none := by
      by_contra some
      exact nomatch hold.symm.trans (settled.2.1.1 some)
    obtain ⟨holds, off, port⟩ := State.loaderHeld_ends (s := s.freed false)
      ((congrArg (fun u : State => u.bus.hold) judged :).trans hold) idle kept reads
    exact ⟨_, run, off, holds, port⟩

end Sys2Proof.Machine
end
